-- ==== Sys2Proof/Word.lean ====
section
/-! DEFINITION. The word types of the DN9 and the names of the parts an instruction can name: sequencers, compute
dies, clusters and logical cores (01_machine R9, R13; 03_execution R26). -/

namespace Sys2Proof

/-- A byte of memory. -/
abbrev Byte := BitVec 8

/-- A Cratan word (R148). -/
abbrev Word16 := BitVec 16

/-- A stack entry, a scalar register or a state word (R28, R29). -/
abbrev W64 := BitVec 64

/-- A virtual address, a PC or a branch target (R26, R106). -/
abbrev VA := BitVec 57

/-- A physical address (R104). -/
abbrev PA := BitVec 52

/-- The four sequencers of a core (R26), in the order in which simultaneous effects apply (R30). -/
inductive Seq where
  | c | m | v | t
  deriving DecidableEq, Repr

/-- A compute die CD0 to CD3 (R8). -/
abbrev Die := Fin 4

/-- A cluster of a die (R9). -/
abbrev Cluster := Fin 9

/-- A logical core: its die, cluster and number within the cluster (R9, R13). Values that name nothing (R14) cannot
be built. -/
structure CoreId where
  /-- The compute die. -/
  die : Die
  /-- The cluster of the die. -/
  cluster : Cluster
  /-- The logical core number, 0 to 47. -/
  core : Fin 48
  deriving DecidableEq, Repr

/-- The name of a node: the die whose Stand accepted it and the TASK number the Stand gave it (R301). -/
structure NodeId where
  /-- The die of the Stand. -/
  die : Die
  /-- The number assigned at acceptance, counted per die modulo 2^32. -/
  task : BitVec 32
  deriving DecidableEq, Repr

/-- A copy of bytes in progress belongs to a core's T engine, to a dray queue or to a chain context (R200). -/
inductive JobOwner where
  /-- The T engine of a core. -/
  | core (k : CoreId)
  /-- The dray queue whose descriptor lies at this physical address. -/
  | queue (q : PA)
  /-- A chain context of a core. -/
  | chain (k : CoreId) (j : Fin 4)
  deriving DecidableEq, Repr

/-- The degraded modes the management level can put a part into (R363). -/
inductive Degraded where
  /-- Half-array mode of one core. -/
  | halfArray (k : CoreId)
  /-- Precision mode of one die. -/
  | precision (d : Die)
  deriving DecidableEq, Repr

/-- An atomic that another module asks for beside the 64-bit add (R182, R183, R185). -/
inductive RemoteAtomic where
  /-- AXCHG. -/
  | xchg
  /-- ACAS, with what it expects. -/
  | cas (e : W64)
  /-- AMIN. -/
  | min
  /-- AMAX. -/
  | max
  /-- AMINU. -/
  | minu
  /-- AMAXU. -/
  | maxu
  /-- AAND. -/
  | and
  /-- AOR. -/
  | or
  /-- AXOR. -/
  | xor
  /-- AFADD of a form, with an addend in BF16 or not. -/
  | fadd (form : Fin 3) (narrow : Bool)
  /-- A post of a signal. -/
  | post
  deriving DecidableEq, Repr

/-- What another module asks of this one over Hitch (R355). -/
inductive RemoteOp where
  /-- A load of 2^z bytes. -/
  | load (z : Fin 4)
  /-- A store of 2^z bytes. -/
  | store (z : Fin 4) (v : W64)
  /-- An atomic add of 64 bits. -/
  | fetchAdd (v : W64)
  /-- Another atomic, with its operand. -/
  | atomic (a : RemoteAtomic) (v : W64)
  deriving DecidableEq, Repr

end Sys2Proof
end

