-- ==== Sys2Proof/Syntax.lean ====
section
/-! DEFINITION. The instruction syntax: one constructor for each row of spec/opcode_table.json, the words first in the
table's order and then its operations and events. A word of the S class carries its r field also where the word is
written without r, because a non-zero r is legal there and sets RFLD (R153). The operations and events have no
encoding and no fields: they stand in the state's event list, each with the parameters (`EvArg`) that name the parts of
the machine it concerns; a docstring names the parameters an event uses. -/

namespace Sys2Proof

inductive Instr where
  /-- LIT (R149): Pushes its 15-bit immediate, sign-extended to 64 bits. -/
  | lit (i : BitVec 15)
  /-- EXT (R150): Shifts the top of the stack left by 13 bits and ORs in its 13-bit immediate. -/
  | ext (i : BitVec 13)
  /-- UNDEFINED_WORD (R152): An undefined op or prefix kind, or a word issued on a sequencer that does not accept
  it, traps with cause 0x01 and has no effect. -/
  | undefinedWord (w : Word16)
  /-- SCOPE (R159): Prefix that sets the scope and the acquire or release order of the word it governs. -/
  | scope (p : BitVec 8)
  /-- TOKEN (R161): Prefix that pops tokens from peer sequencers and pushes tokens to them for the governed word. -/
  | token (p : BitVec 8)
  /-- IF (R160): Prefix that predicates the governed word on a possibly negated predicate register. -/
  | ifp (p : BitVec 8)
  /-- FMT (R158): Prefix that supplies two format codes to the governed word. -/
  | fmt (p : BitVec 8)
  /-- SPARSE (R249): Prefix that selects 2:4 metadata for MRUN or MGATHER. -/
  | sparse (p : BitVec 8)
  /-- WAITMAX (R68): Prefix that bounds an in-cluster wait at 2^p cycles. -/
  | waitmax (p : BitVec 8)
  /-- ROUND (R78): Prefix that selects the rounding mode of the governed word. -/
  | round (p : BitVec 8)
  /-- SAT (R79): Prefix that selects integer saturation and float overflow behaviour. -/
  | sat (p : BitVec 8)
  /-- EVENT (R161): Prefix that names an event slot to wait on and an event slot to signal. -/
  | event (p : BitVec 8)
  /-- NOP (R171): Does nothing apart from the effects of its prefixes. -/
  | nop (r : BitVec 4)
  /-- DUP (R171): Duplicates the top of the stack. -/
  | dup (r : BitVec 4)
  /-- DROP (R171): Discards the top of the stack. -/
  | drop (r : BitVec 4)
  /-- SWAP (R171): Exchanges the top two entries. -/
  | swap (r : BitVec 4)
  /-- OVER (R171): Copies the second entry to the top. -/
  | over (r : BitVec 4)
  /-- ROT (R171): Rotates the top three entries. -/
  | rot (r : BitVec 4)
  /-- PICK (R171): Copies entry k of the stack to the top. -/
  | pick (r : BitVec 4)
  /-- DEPTH (R171): Pushes the stack depth as it stood before the word. -/
  | depth (r : BitVec 4)
  /-- GET (R172): Pushes scalar register s[r]. -/
  | get (r : BitVec 4)
  /-- PUT (R172): Pops a value into scalar register s[r]. -/
  | put (r : BitVec 4)
  /-- GETC (R172): Pushes predicate register c[r] as 0 or 1. -/
  | getc (r : BitVec 4)
  /-- PUTC (R172): Sets predicate register c[r] from a popped value. -/
  | putc (r : BitVec 4)
  /-- PREP (R173): Pops a branch target into bN and begins fetching at it. -/
  | prep (r : BitVec 4)
  /-- BR (R173): Branches to bN if the named predicate is 1. -/
  | br (r : BitVec 4)
  /-- BRN (R173): Branches to bN if the named predicate is 0. -/
  | brn (r : BitVec 4)
  /-- CALL (R173): Writes the return address into s15 and branches to bN. -/
  | call (r : BitVec 4)
  /-- RET (R173): Branches to the address held in s15. -/
  | ret (r : BitVec 4)
  /-- LOOP (R167): Decrements nN, rotates tb on the owning sequencer, and branches to bN while nN is non-zero. -/
  | loop (r : BitVec 4)
  /-- SETN (R172): Pops a value into loop counter nN. -/
  | setn (r : BitVec 4)
  /-- GETN (R172): Pushes loop counter nN. -/
  | getn (r : BitVec 4)
  /-- ADD (R175): Adds the top two entries, modulo 2^64. -/
  | add (r : BitVec 4)
  /-- SUB (R175): Subtracts the top entry from the one below it. -/
  | sub (r : BitVec 4)
  /-- MUL (R175): Pushes the low 64 bits of the product. -/
  | mul (r : BitVec 4)
  /-- MULH (R175): Pushes the high 64 bits of the signed product. -/
  | mulh (r : BitVec 4)
  /-- MULHU (R175): Pushes the high 64 bits of the unsigned product. -/
  | mulhu (r : BitVec 4)
  /-- DIV (R175): Signed division, with the fixed results of R82 for b = 0 and overflow. -/
  | div (r : BitVec 4)
  /-- DIVU (R175): Unsigned division. -/
  | divu (r : BitVec 4)
  /-- REM (R175): Signed remainder. -/
  | rem (r : BitVec 4)
  /-- REMU (R175): Unsigned remainder. -/
  | remu (r : BitVec 4)
  /-- AND (R175): Bitwise AND. -/
  | and (r : BitVec 4)
  /-- OR (R175): Bitwise OR. -/
  | or (r : BitVec 4)
  /-- XOR (R175): Bitwise XOR. -/
  | xor (r : BitVec 4)
  /-- NOT (R175): Bitwise complement. -/
  | not (r : BitVec 4)
  /-- NEG (R175): Two's-complement negation. -/
  | neg (r : BitVec 4)
  /-- SHL (R175): Shifts left by the top entry modulo 64. -/
  | shl (r : BitVec 4)
  /-- SHR (R175): Logical right shift. -/
  | shr (r : BitVec 4)
  /-- SAR (R175): Arithmetic right shift. -/
  | sar (r : BitVec 4)
  /-- MIN (R175): Signed minimum. -/
  | min (r : BitVec 4)
  /-- MAX (R175): Signed maximum. -/
  | max (r : BitVec 4)
  /-- MINU (R175): Unsigned minimum. -/
  | minu (r : BitVec 4)
  /-- MAXU (R175): Unsigned maximum. -/
  | maxu (r : BitVec 4)
  /-- CLZ (R175): Counts leading zeros. -/
  | clz (r : BitVec 4)
  /-- POPC (R175): Counts the 1 bits. -/
  | popc (r : BitVec 4)
  /-- ADDI (R175): Adds a sign-extended 4-bit immediate. -/
  | addi (r : BitVec 4)
  /-- SHLI (R175): Shifts left by r + 1. -/
  | shli (r : BitVec 4)
  /-- SHRI (R175): Shifts right logically by r + 1. -/
  | shri (r : BitVec 4)
  /-- SEXT (R175): Sign-extends the low 8, 16, 32 or 64 bits. -/
  | sext (r : BitVec 4)
  /-- ZEXT (R175): Zero-extends the low 8, 16, 32 or 64 bits. -/
  | zext (r : BitVec 4)
  /-- CEQ (R176): Sets predicate c[r] to a = b. -/
  | ceq (r : BitVec 4)
  /-- CNE (R176): Sets predicate c[r] to a ≠ b. -/
  | cne (r : BitVec 4)
  /-- CLT (R176): Sets predicate c[r] to a < b, signed. -/
  | clt (r : BitVec 4)
  /-- CLTU (R176): Sets predicate c[r] to a < b, unsigned. -/
  | cltu (r : BitVec 4)
  /-- CLE (R176): Sets predicate c[r] to a ≤ b, signed. -/
  | cle (r : BitVec 4)
  /-- CLEU (R176): Sets predicate c[r] to a ≤ b, unsigned. -/
  | cleu (r : BitVec 4)
  /-- PAND (R177): ANDs two predicates into a third. -/
  | pand (r : BitVec 4)
  /-- POR (R177): ORs two predicates into a third. -/
  | por (r : BitVec 4)
  /-- PNOT (R177): Negates a predicate into another. -/
  | pnot (r : BitVec 4)
  /-- SEL (R177): Selects a or b according to a flag. -/
  | sel (r : BitVec 4)
  /-- LEA (R175): Pushes a + (b << r). -/
  | lea (r : BitVec 4)
  /-- CSRR (R178): Reads a core state word. -/
  | csrr (r : BitVec 4)
  /-- CSRW (R178): Writes a core state word, with W1C behaviour for WFLAGS. -/
  | csrw (r : BitVec 4)
  /-- TBSET (R172): Sets the value and owner of the rotating tile base. -/
  | tbset (r : BitVec 4)
  /-- TBGET (R172): Reads the rotating tile base. -/
  | tbget (r : BitVec 4)
  /-- BRK (R179): Breakpoint trap, cause 0x11. -/
  | brk (r : BitVec 4)
  /-- LD (R180): Loads 1, 2, 4 or 8 bytes, with zero or sign extension. -/
  | ld (r : BitVec 4)
  /-- ST (R180): Stores 1, 2, 4 or 8 bytes. -/
  | st (r : BitVec 4)
  /-- LDX (R180): Indexed load. -/
  | ldx (r : BitVec 4)
  /-- STX (R180): Indexed store. -/
  | stx (r : BitVec 4)
  /-- QMARK (R120): Holds later accesses of the sequencer until every earlier access has been performed. -/
  | qmark (r : BitVec 4)
  /-- FENCE (R181): Memory fence; on M or T it also places a fence entry in the engine queue. -/
  | fence (r : BitVec 4)
  /-- AADD (R182): Atomic add at the home of the location. -/
  | aadd (r : BitVec 4)
  /-- AXCHG (R182): Atomic exchange. -/
  | axchg (r : BitVec 4)
  /-- ACAS (R182): Atomic compare and swap. -/
  | acas (r : BitVec 4)
  /-- AMIN (R182): Atomic signed minimum. -/
  | amin (r : BitVec 4)
  /-- AMAX (R182): Atomic signed maximum. -/
  | amax (r : BitVec 4)
  /-- AMINU (R182): Atomic unsigned minimum. -/
  | aminu (r : BitVec 4)
  /-- AMAXU (R182): Atomic unsigned maximum. -/
  | amaxu (r : BitVec 4)
  /-- AAND (R182): Atomic AND. -/
  | aand (r : BitVec 4)
  /-- AOR (R182): Atomic OR. -/
  | aor (r : BitVec 4)
  /-- AXOR (R182): Atomic XOR. -/
  | axor (r : BitVec 4)
  /-- AFADD (R183): Atomic floating-point add on FP32 or BF16 lanes at the home. -/
  | afadd (r : BitVec 4)
  /-- MWAIT (R185): Arms a monitor on a line and waits while the word there equals v. -/
  | mwait (r : BitVec 4)
  /-- SIGPOST (R185): Commits the version, then posts an amount to a signal word. -/
  | sigpost (r : BitVec 4)
  /-- SIGWAIT (R185): Waits until a signal word reaches a generation. -/
  | sigwait (r : BitVec 4)
  /-- SIGSET (R185): Writes a whole signal word atomically. -/
  | sigset (r : BitVec 4)
  /-- QPUSH (R186): Pushes a 16-byte entry onto a FIFO queue binding. -/
  | qpush (r : BitVec 4)
  /-- QPOP (R186): Pops an entry, waiting while the queue is empty. -/
  | qpop (r : BitVec 4)
  /-- QTRY (R186): Pops an entry if there is one, without waiting. -/
  | qtry (r : BitVec 4)
  /-- QBIND (R186): Binds queue binding q[r] to a bank. -/
  | qbind (r : BitVec 4)
  /-- EVBIND (R187): Binds event slot e[r] to an address, an add value and an armed generation. -/
  | evbind (r : BitVec 4)
  /-- BARG (R188): Group barrier on group g. -/
  | barg (r : BitVec 4)
  /-- PGSHARE (R113): Shares arena units at a destination VA with copy-on-write. -/
  | pgshare (r : BitVec 4)
  /-- PGDROP (R114): Unmaps arena units and frees frames whose count reaches zero. -/
  | pgdrop (r : BitVec 4)
  /-- PGREFS (R114): Returns the reference count of a unit's frame. -/
  | pgrefs (r : BitVec 4)
  /-- WPSET (R190): Sets watch w[r] from a descriptor. -/
  | wpset (r : BitVec 4)
  /-- WPCLR (R190): Clears watch w[r]. -/
  | wpclr (r : BitVec 4)
  /-- FARERD (R193): Reads FI or FT. -/
  | farerd (r : BitVec 4)
  /-- FARETOP (R193): Tops up FI or FT from the group pool. -/
  | faretop (r : BitVec 4)
  /-- STATION (R63): Commits the version and yields with cause 0x22 if the task is fare due. -/
  | station (r : BitVec 4)
  /-- YIELD (R193): Yields as a fare-due STATION does, whatever the fare. -/
  | yield (r : BitVec 4)
  /-- SPAWN (R45): Checks a node descriptor and copies it into a Stand, deducting the child's fare. -/
  | spawn (r : BitVec 4)
  /-- DEPDEC (R194): Decrements a dependence counter, as a system-scope release. -/
  | depdec (r : BitVec 4)
  /-- FORK (R56): Starts M, V and T at popped addresses, according to the mask. -/
  | fork (r : BitVec 4)
  /-- RVZ (R57): Rendezvous: M, V and T park; C waits for them and then sets them idle. -/
  | rvz (r : BitVec 4)
  /-- HALT (R58): Waits for the sequencers and engine queues, commits, returns fare and raises the halt line. -/
  | halt (r : BitVec 4)
  /-- FLIP (R195): Ends a phase: drains, commits, snapshots, optionally swaps BUFA and BUFB. -/
  | flip (r : BitVec 4)
  /-- PHASE (R196): Changes the mode of the core's own bank and starts its drain. -/
  | phase (r : BitVec 4)
  /-- SEGCHK (R197): Closes a segment and checks its issue count and signature. -/
  | segchk (r : BitVec 4)
  /-- TRAP (R179): Program trap, cause 0x05. -/
  | trap (r : BitVec 4)
  /-- ERET (R305): Completes Ostler service of the current trap record. -/
  | eret (r : BitVec 4)
  /-- PROG (R339): Increments progress counter r. -/
  | prog (r : BitVec 4)
  /-- CLOCK (R179): Reads the module timer. -/
  | clock (r : BitVec 4)
  /-- MSET (R237): Sets shadow command field W[r]. -/
  | mset (r : BitVec 4)
  /-- MLOADB (R240): Launches a load of the shadow weight buffer from memory. -/
  | mloadb (r : BitVec 4)
  /-- MLOADT (R241): Launches a load of the shadow weight buffer from tiles. -/
  | mloadt (r : BitVec 4)
  /-- MRUN (R242): Launches a run of A rows in counter order. -/
  | mrun (r : BitVec 4)
  /-- MGATHER (R243): Launches a gathered run of tagged rows that arrive in any order. -/
  | mgather (r : BitVec 4)
  /-- MDRAIN (R251): Launches a drain of slots to dense, scattered or Mangle destinations. -/
  | mdrain (r : BitVec 4)
  /-- MZERO (R254): Launches a zeroing of a span of slots. -/
  | mzero (r : BitVec 4)
  /-- MREADA (R255): Copies a slot into two tile rows. -/
  | mreada (r : BitVec 4)
  /-- MPATCH (R256): Applies two tile rows to a slot by replace, add or multiply. -/
  | mpatch (r : BitVec 4)
  /-- MWAITC (R254): Waits until at most n M commands are incomplete. -/
  | mwaitc (r : BitVec 4)
  /-- MSTAT (R254): Reads an item of an M command record. -/
  | mstat (r : BitVec 4)
  /-- DSET (R218): Sets field r of T's shadow COPY image. -/
  | dset (r : BitVec 4)
  /-- DCOPY (R218): Launches the shadow image as a COPY command. -/
  | dcopy (r : BitVec 4)
  /-- DQAPP (R219): Claims slots of a dray queue and appends one to three packets. -/
  | dqapp (r : BitVec 4)
  /-- GATHERR (R225): Launches an indexed gather, with ordered landing or as tagged rows to M. -/
  | gatherr (r : BitVec 4)
  /-- SCATTERW (R227): Launches an indexed scatter write. -/
  | scatterw (r : BitVec 4)
  /-- SCATADD (R227): Launches an indexed scatter of atomic adds. -/
  | scatadd (r : BitVec 4)
  /-- FOLD (R229): Launches a transpose, permute, interleave, deinterleave, pad or copy on the fold engine. -/
  | fold (r : BitVec 4)
  /-- FOLDWAIT (R230): Waits until every fold launched by the core is complete. -/
  | foldwait (r : BitVec 4)
  /-- CHKICK (R223): Starts or continues a chain context. -/
  | chkick (r : BitVec 4)
  /-- CHLINK (R223): Atomically links NEXT of an entry and reports whether the engine had read it. -/
  | chlink (r : BitVec 4)
  /-- CHSTAT (R223): Reads the state of a chain context. -/
  | chstat (r : BitVec 4)
  /-- DWAIT (R220): Waits until at most n T commands are incomplete. -/
  | dwait (r : BitVec 4)
  /-- MCAST (R231): Launches a multicast of bytes into the banks of every group member. -/
  | mcast (r : BitVec 4)
  /-- DSTAT (R220): Reads an item of a T command record. -/
  | dstat (r : BitVec 4)
  /-- DCSUM (R218): Reads, and optionally sets, T's running Adler-32 register. -/
  | dcsum (r : BitVec 4)
  /-- PBIND (R270): Binds a row port to a tile, row, stride, mode and format. -/
  | pbind (r : BitVec 4)
  /-- PSTEP (R270): Advances a port's current row by its stride. -/
  | pstep (r : BitVec 4)
  /-- PREAD (R270): Reads a port binding. -/
  | pread (r : BitVec 4)
  /-- TLD (R272): Loads rows from memory into a tile. -/
  | tld (r : BitVec 4)
  /-- TST (R272): Stores rows from a tile to memory. -/
  | tst (r : BitVec 4)
  /-- TFREE (R273): Marks a tile empty once it is not lent. -/
  | tfree (r : BitVec 4)
  /-- TFILL (R273): Marks a tile full. -/
  | tfill (r : BitVec 4)
  /-- TWAITF (R273): Waits until a tile is full. -/
  | twaitf (r : BitVec 4)
  /-- FOPEN (R275): Opens a fibre register from a descriptor. -/
  | fopen (r : BitVec 4)
  /-- FADV (R275): Advances a fibre position by one. -/
  | fadv (r : BitVec 4)
  /-- FSEEK (R275): Seeks a fibre to the first coordinate not below c. -/
  | fseek (r : BitVec 4)
  /-- FEND (R275): Tests whether a fibre is at its end. -/
  | fend (r : BitVec 4)
  /-- FCRD (R275): Reads the current coordinate of a fibre. -/
  | fcrd (r : BitVec 4)
  /-- FVAL (R275): Reads the current value of a fibre. -/
  | fval (r : BitVec 4)
  /-- FROW (R277): Writes a row of fibre values or coordinates through a port. -/
  | frow (r : BitVec 4)
  /-- FMATCH (R275): Co-iterates two fibres to their next common coordinate. -/
  | fmatch (r : BitVec 4)
  /-- FCLOSE (R275): Closes a fibre register. -/
  | fclose (r : BitVec 4)
  /-- VSPLAT (R270): Writes a scalar into every lane of a port's row. -/
  | vsplat (r : BitVec 4)
  /-- VLANE (R270): Reads one lane of a port's row. -/
  | vlane (r : BitVec 4)
  /-- VPUTL (R270): Writes one lane of a port's row. -/
  | vputl (r : BitVec 4)
  /-- VWAIT (R270): Waits for every V result in flight and every TLD and TST issued by V. -/
  | vwait (r : BitVec 4)
  /-- MGOPEN (R292): Opens a Mangle session from a descriptor and returns its handle. -/
  | mgopen (r : BitVec 4)
  /-- MGPUT (R293): Sends an element record to a session. -/
  | mgput (r : BitVec 4)
  /-- MGROW (R293): Sends a row record taken from two tile rows. -/
  | mgrow (r : BitVec 4)
  /-- MGEND (R295): Ends the core's stream in a session. -/
  | mgend (r : BitVec 4)
  /-- MGCLOSE (R296): Closes a session, optionally waiting for DONE. -/
  | mgclose (r : BitVec 4)
  /-- MGSTAT (R296): Reads an item of session status. -/
  | mgstat (r : BitVec 4)
  /-- MGSPILL (R296): Requests one spill, or a spill of every buffered run. -/
  | mgspill (r : BitVec 4)
  /-- MGEXPAND (R294): Emits the outer product of two fibres as element records. -/
  | mgexpand (r : BitVec 4)
  /-- TRCW (R337): Appends a user trace record. -/
  | trcw (r : BitVec 4)
  /-- SCRUB (R199): Scrubs one sector of the own bank and reports the outcome. -/
  | scrub (r : BitVec 4)
  /-- POISONQ (R199): Reports whether a sector is poisoned. -/
  | poisonq (r : BitVec 4)
  /-- WPSTAT (R192): Reads watch stop information. -/
  | wpstat (r : BitVec 4)
  /-- CSUM (R199): Computes CRC-32C over a range of bytes. -/
  | csum (r : BitVec 4)
  /-- HRET (R191): Returns from a watch hook and resumes the stop. -/
  | hret (r : BitVec 4)
  /-- ICSYNC (R198): Makes stored code visible to fetch and discards fetches begun by PREP. -/
  | icsync (r : BitVec 4)
  /-- TRIAL (R338): Starts or stops a trial that holds code outside a range. -/
  | trial (r : BitVec 4)
  /-- VMOV (R264): Copies a row. -/
  | vmov (d a b : BitVec 3)
  /-- VADD (R264): Lane-wise add. -/
  | vadd (d a b : BitVec 3)
  /-- VSUB (R264): Lane-wise subtract. -/
  | vsub (d a b : BitVec 3)
  /-- VMUL (R264): Lane-wise multiply. -/
  | vmul (d a b : BitVec 3)
  /-- VFMA (R264): Lane-wise fused multiply-add into d. -/
  | vfma (d a b : BitVec 3)
  /-- VMIN (R264): Lane-wise minimum. -/
  | vmin (d a b : BitVec 3)
  /-- VMAX (R264): Lane-wise maximum. -/
  | vmax (d a b : BitVec 3)
  /-- VABS (R264): Lane-wise absolute value. -/
  | vabs (d a b : BitVec 3)
  /-- VNEG (R264): Lane-wise negation. -/
  | vneg (d a b : BitVec 3)
  /-- VAND (R264): Bitwise AND of rows. -/
  | vand (d a b : BitVec 3)
  /-- VOR (R264): Bitwise OR of rows. -/
  | vor (d a b : BitVec 3)
  /-- VXOR (R264): Bitwise XOR of rows. -/
  | vxor (d a b : BitVec 3)
  /-- VSHL (R264): Lane-wise shift left. -/
  | vshl (d a b : BitVec 3)
  /-- VSHR (R264): Lane-wise logical shift right. -/
  | vshr (d a b : BitVec 3)
  /-- VSAR (R264): Lane-wise arithmetic shift right. -/
  | vsar (d a b : BitVec 3)
  /-- VCLT (R264): Lane-wise less-than mask. -/
  | vclt (d a b : BitVec 3)
  /-- VCEQ (R264): Lane-wise equality mask. -/
  | vceq (d a b : BitVec 3)
  /-- VSEL (R264): Lane-wise select by the old d lanes. -/
  | vsel (d a b : BitVec 3)
  /-- VCVT (R265): Converts lanes between formats. -/
  | vcvt (d a b : BitVec 3)
  /-- VEXP2 (R266): Lane-wise base-2 exponential by the fixed procedure. -/
  | vexp2 (d a b : BitVec 3)
  /-- VLOG2 (R266): Lane-wise base-2 logarithm by the fixed procedure. -/
  | vlog2 (d a b : BitVec 3)
  /-- VRCP (R266): Lane-wise reciprocal by the fixed procedure. -/
  | vrcp (d a b : BitVec 3)
  /-- VRSQ (R266): Lane-wise reciprocal square root by the fixed procedure. -/
  | vrsq (d a b : BitVec 3)
  /-- VSUMR (R264): Tree sum of a row's lanes into lane 0. -/
  | vsumr (d a b : BitVec 3)
  /-- VMAXR (R264): Tree maximum of a row's lanes into lane 0. -/
  | vmaxr (d a b : BitVec 3)
  /-- VBCAST (R264): Broadcasts one lane to every lane. -/
  | vbcast (d a b : BitVec 3)
  /-- VSHUF (R264): Permutes lanes by an index row. -/
  | vshuf (d a b : BitVec 3)
  /-- VSCALE (R264): Multiplies lanes by powers of two. -/
  | vscale (d a b : BitVec 3)
  /-- VQMX (R267): Quantises two FP32 rows into an MX row. -/
  | vqmx (d a b : BitVec 3)
  /-- VDQMX (R268): Dequantises an MX row. -/
  | vdqmx (d a b : BitVec 3)
  /-- VPK24 (R269): Packs 2:4 metadata pairs into codes. -/
  | vpk24 (d a b : BitVec 3)
  /-- VCLR (R264): Zeroes a row. -/
  | vclr (d a b : BitVec 3)
  /-- CLEAR_ENGINE (R39): After placement, zeroes the footprint and initial state before C's first word.
  Parameters: `k`. -/
  | clearEngine
  /-- DISPATCH_STEP (R52): When a core falls free or a node enters the pool, the Stand places ready nodes that fit.
  Parameters: `d`. -/
  | dispatchStep
  /-- GANG_RESERVATION (R53): A gang ready for 256 µs without placement reserves a cluster. Parameters: `n`. -/
  | gangReservation
  /-- GANG_UNPLACEABLE_REPORT (R53): After 10 ms with no cluster able to hold it, a trap record with cause 0x19
  naming the node is forwarded. Parameters: `n`. -/
  | gangUnplaceableReport
  /-- LAUNCH_END (R59): When the gang's AND tree fires, makes stores visible, posts DONE, decrements successors and
  frees the cores. Parameters: `n`. -/
  | launchEnd
  /-- WAIT_COMPLETION (R70): A blocked word completes in the cycle in which its condition becomes true. Parameters:
  `k`, `q`. -/
  | waitCompletion
  /-- WAIT_BOUND_EXPIRY (R68): The stall counter of an in-cluster wait passes its bound, and the word traps with
  cause 0x18. Parameters: `k`, `q`. -/
  | waitBoundExpiry
  /-- WATCHDOG_EXPIRY (R69): A beyond-cluster wait blocked for 10 ms traps with cause 0x19. Parameters: `k`, `q`. -/
  | watchdogExpiry
  /-- BLOCKED_CYCLE_CHARGE (R60): A word blocked for 256 consecutive cycles charges 1 FI. Parameters: `k`, `q`. -/
  | blockedCycleCharge
  /-- HARD_PREEMPTION (R308): At a command boundary the core stops, completes or saves its commands and saves its
  context into the save window. Parameters: `k`. -/
  | hardPreemption
  /-- TOPUP_RETRY (R64): The Ostler retries the top-up of a switched-out node at least once every millisecond.
  Parameters: `n`. -/
  | topupRetry
  /-- FARETOP_POLICY_GRANT (R64): The Ostler's policy grants fare to a FARETOP without TOPR and releases its wait.
  Parameters: `k`, `num` (amount). -/
  | faretopPolicyGrant
  /-- SAVE_COPY_OUT (R312): The Ostler copies the save window and keep regions to its save arena and returns the
  bank to CACHE. Parameters: `k`. -/
  | saveCopyOut
  /-- RESUME_RESTORE (R313): On resumption the Ostler restores bank mode, keep regions and the window image on the
  original cores. Parameters: `n`. -/
  | resumeRestore
  /-- CLOCK_STEP_REQUEST (R23): A step change is requested, and the die stops starting issue groups and array rows.
  Parameters: `d`, `num` (step). -/
  | clockStepRequest
  /-- CLOCK_STOP (R23): Once the drain conditions hold, the die's clock stops. Parameters: `d`. -/
  | clockStop
  /-- CLOCK_RESTART (R23): After at most 2 µs the clock restarts at the new step. Parameters: `d`. -/
  | clockRestart
  /-- POWER_MEASUREMENT (R362): Every 100 µs the management level measures draw and moves dies down or up one step.
  Parameters: `num` (watts). -/
  | powerMeasurement
  /-- BANK_DRAIN_END (R94): A bank's mode-change drain ends, and held accesses proceed. Parameters: `k`. -/
  | bankDrainEnd
  /-- FIFO_OVERFLOW_SERVICE (R96): The Ostler services a cause 0x28 queue overflow by linking a segment and
  retrying the push. Parameters: `k`, `pa` (base), `num` (size). -/
  | fifoOverflowService
  /-- LOAD_PERFORM (R120): A load is performed at its home and its value returns to the sequencer. Parameters: `k`,
  `q`. -/
  | loadPerform
  /-- STORE_PERFORM (R120): A store is acknowledged by its home or enters the version. Parameters: `k`, `q`. -/
  | storePerform
  /-- MULTICAST_LANDING (R126): A landing unit of a multicast lands in the members' banks. Parameters: `k`,
  `num` (which member, where they are in other clusters). -/
  | multicastLanding
  /-- COW_SERVICE (R115): The Ostler services a copy-on-write trap, copying to a free frame or clearing COW, and
  retries the store. Parameters: `k`, `q`. -/
  | cowService
  /-- SRAM_RAIL_LOW (R99): The SRAM rail falling below V_ECC switches CACHE banks to DEC-TED and withdraws banks.
  Parameters: `d`, `c`. -/
  | sramRailLow
  /-- SRAM_RAIL_RECOVER (R99): The rail rising to V_ECC + 25 mV returns the slice to SEC-DED. Parameters: `d`, `c`. -/
  | sramRailRecover
  /-- BANK_SCRUB (R327): Every 256 cycles a bank's scrubber reads one sector, correcting or poisoning it.
  Parameters: `k`. -/
  | bankScrub
  /-- REGISTER_SCRUB (R326): The background scrubber reads register words, correcting single-bit errors.
  Parameters: `k`. -/
  | registerScrub
  /-- V_RESULT_LANDING (R262): A V word's result lands on its destination row after its latency. Parameters: `k`. -/
  | vResultLanding
  /-- TILE_MOVE_COMPLETE (R272): A TLD or TST completes, setting full/empty and ending any lending. Parameters: `k`,
  `num` (which of those in progress). -/
  | tileMoveComplete
  /-- PACKET_PARSE (R206): The parser reads a slot once its phase matches and advances RIDX. Parameters: `pa` (q), `n`
  (the owner to record). -/
  | packetParse
  /-- NOP_PACKET (R207): A NOP packet is parsed and complete. Parameters: `pa` (q). -/
  | nopPacket
  /-- COPY (R208): A COPY packet moves bytes in canonical order with an optional checksum. Parameters: `pa` (q). -/
  | copy
  /-- FENCE_PACKET (R212): Holds the parser until every referenced signal generation is met. Parameters: `pa` (q). -/
  | fencePacket
  /-- SIGNAL_PACKET (R213): After earlier packets complete, posts a signal and decrements a counter. Parameters:
  `pa` (q). -/
  | signalPacket
  /-- SPAWN_PACKET (R214): Spawns a node from a queue, taking its fare from the pool. Parameters: `pa` (q). -/
  | spawnPacket
  /-- REDUCE (R215): Takes part in a ring collective sum or max. Parameters: `pa` (q). -/
  | reduce
  /-- GATHER_PACKET (R216): Performs an ordered-landing gather. Parameters: `pa` (q). -/
  | gatherPacket
  /-- PARSER_STALL_TIMEOUT (R206): After 10 ms waiting on a phase, the Ostler writes a NOP into the slot and
  forwards cause 0x19. Parameters: `pa` (q). -/
  | parserStallTimeout
  /-- FENCE_PACKET_TIMEOUT (R212): After 10 ms waiting on a fence packet, a cause 0x19 record is forwarded.
  Parameters: `pa` (q). -/
  | fencePacketTimeout
  /-- LANDING_UNIT (R209): A landing unit of a copy lands, posting its bytes under arrival counting. Parameters:
  `job` (o), `num` (which). -/
  | landingUnit
  /-- PACKET_COMPLETION (R211): A packet completes: STAT written, signal posted, counter decremented, interrupt
  raised. Parameters: `pa` (q), `num` (which). -/
  | packetCompletion
  /-- QUEUE_FAULT_SERVICE (R217): The Ostler resolves a COPY fault of a suspended queue, which continues from
  DONEB. Parameters: `pa` (q), `yes` (resolved). -/
  | queueFaultService
  /-- CHAIN_ENTRY_START (R222): A chain context, its wait met, starts the copy of an entry. Parameters: `k`, `x`
  (j). -/
  | chainEntryStart
  /-- CHAIN_ENTRY_COMPLETE (R222): An entry's copy completes: status, post, decrement and NEXT read. Parameters:
  `k`, `x` (j). -/
  | chainEntryComplete
  /-- T_COMMAND_COMPLETE (R201): A T command completes, making its token pushes and event signals. Parameters: `k`. -/
  | tCommandComplete
  /-- GATHER_REPLY (R225): A gathered element reply arrives and lands, or streams as a tagged row. Parameters: `k`,
  `num` (n). -/
  | gatherReply
  /-- FOLD_START (R230): The fold engine starts a fold once earlier accesses to its ranges are complete.
  Parameters: `d`, `c`. -/
  | foldStart
  /-- FOLD_COMPLETE (R229): A fold completes and releases its fold barrier. Parameters: `d`, `c`. -/
  | foldComplete
  /-- WEIGHT_BUFFER_EXCHANGE (R235): SWAPB exchanges the weight buffers once earlier loads are complete.
  Parameters: `k`. -/
  | weightBufferExchange
  /-- ROW_ENTRY (R244): A row arrives, is checked for tag, metadata and duplicates, and enters the array.
  Parameters: `k`, `num` (n). -/
  | rowEntry
  /-- ROW_SLOT_UPDATE (R245): 72 cycles after entry a row's pass sums update its slot. Parameters: `k`. -/
  | rowSlotUpdate
  /-- M_COMMAND_COMPLETE (R247): An M command completes once all rows have arrived and reached their slots.
  Parameters: `k`. -/
  | mCommandComplete
  /-- DRAIN_SLOT (R251): MDRAIN reads one slot, once no earlier command can change it, and writes its row.
  Parameters: `k`. -/
  | drainSlot
  /-- WATCH_STOP (R191): An access meets a watch at issue; engines halt and a hook starts or a trap is taken.
  Parameters: `k`. -/
  | watchStop
  /-- IMPRECISE_WATCH_STOP (R329): A write matched at its home is delivered to the owner at its next command
  boundary. Parameters: `k`. -/
  | impreciseWatchStop
  /-- MANGLE_RECORD (R283): A record reaches a session and is accepted, discarded or refused. Parameters: `k` (its
  core), `v` (handle), `v2` (key), `words` (lanes, or the one value), `yes` (row record), `yes2` (poison). -/
  | mangleRecord
  /-- MANGLE_SPILL (R286): A closed run is written to the hamper and its directory entry and NRUNS are updated.
  Parameters: `d`, `c`, `j`. -/
  | mangleSpill
  /-- HAMPER_SERVICE (R288): The Ostler services a cause 0x29 hamper trap by linking a segment, or stalls the
  session. Parameters: `d`, `c`, `j`, `v` (va), `v2` (size). -/
  | hamperService
  /-- MERGE_PASS (R289): With more than 16 runs left, the 16 oldest are merged into a new hamper run. Parameters:
  `d`, `c`, `j`. -/
  | mergePass
  /-- FINAL_PASS (R289): The final pass combines runs, writes the output, ROWPTR and FINAL, posts DONE and frees
  the slot. Parameters: `d`, `c`, `j`. -/
  | finalPass
  /-- TRAP_FORWARD (R301): The Ostler forwards a trap record to the host trap queue. Parameters: `d`. -/
  | trapForward
  /-- DEFERRED_FAULT (R299): A deferred fault is taken at the owner's next command boundary. Parameters: `k`. -/
  | deferredFault
  /-- SELF_TEST (R365): A retired core runs self-test and becomes a spare, returns to service, or is fenced.
  Parameters: `k`, `yes` (pass). -/
  | selfTest
  /-- TRACE_SAMPLE (R335): Every 2^SPER cycles one sample record is written per sequencer that is not idle.
  Parameters: `k`. -/
  | traceSample
  /-- TCTL_WRITE (R334): A write to TCTL sets sampling and enables and zeroes TWP and TLOST. Parameters: `k`, `v`. -/
  | tctlWrite
  /-- TRIAL_HOLD (R338): Each 256 issue cycles outside the range, a sequencer holds for d cycles. Parameters: `k`,
  `q`. -/
  | trialHold
  /-- LIFETIME_RECORD_WRITE (R341): The management level writes the lifetime record every second and at shutdown.
  Parameters: `words` (rail and temperature bins of the dies, then those of the I/O dies). -/
  | lifetimeRecordWrite
  /-- HOST_APERTURE_READ (R345): A host read through BAR2 is performed at its home at management privilege.
  Parameters: `num` (o), `num2` (z). -/
  | hostApertureRead
  /-- HOST_APERTURE_WRITE (R345): A host write through BAR2 is performed, with byte 0 of a ring slot last.
  Parameters: `num` (o), `bytes`. -/
  | hostApertureWrite
  /-- HOST_ATOMIC (R345): A host PCIe AtomicOp is performed as one atomic step at the home. Parameters: `num` (o),
  `num2` (op), `yes` (wide), `v`, `v2` (e). -/
  | hostAtomic
  /-- FORMAT_WINDOW_WRITE (R343): A write to an enabled format window changes only its enable bit. Parameters:
  `num` (w), `num2` (o), `v`. -/
  | formatWindowWrite
  /-- ROUTE_TABLE_WRITE (R354): A rewritten route entry takes effect per page once old in-flight accesses complete.
  Parameters: `num` (n), `v`. -/
  | routeTableWrite
  /-- REGISTER_WRITE (R344): A write to a BAR0 register with no behaviour of its own. Parameters: `num` (o), `v`. -/
  | registerWrite
  /-- REQUEST_NONE (R348): Request code 0 does nothing. -/
  | requestNone
  /-- RESUME_NODE (R348): Request 1 resumes a suspended node. Parameters: `n`. -/
  | resumeNode
  /-- END_ABANDON (R306): Request 2 ends a node without launch end. Parameters: `n`. -/
  | endAbandon
  /-- END_COMPLETE (R306): Request 3 discards the version and completes steps 2 to 4 of launch end. Parameters: `n`. -/
  | endComplete
  /-- RELEASE_DUMP (R348): Request 4 releases a node's dump. Parameters: `n`. -/
  | releaseDump
  /-- CREDIT_FARE (R348): Request 5 adds FI and FT to every core of a node. Parameters: `n`, `v` (fi), `v2` (ft). -/
  | creditFare
  /-- SOFT_PREEMPT (R61): Request 6 writes FI := 0, an external pre-emption. Parameters: `n`. -/
  | softPreempt
  /-- HARD_PREEMPT_REQUEST (R348): Request 7 hard-pre-empts a node with cause 0x3F. Parameters: `n`. -/
  | hardPreemptRequest
  /-- SET_WATCH_REQUEST (R333): Request 8 sets or clears a watch of a suspended node. Parameters: `n`, `v` (w),
  `v2` (pa). -/
  | setWatchRequest
  /-- OPEN_GROUP (R55): Request 9 opens a group with a core bitmap as its domain. Parameters: `v` (g), `v2` (pa). -/
  | openGroup
  /-- CLOSE_GROUP (R55): Request 10 closes a group. Parameters: `v` (g). -/
  | closeGroup
  /-- RESTART_QUEUE (R217): Request 11 restarts a stopped dray queue. Parameters: `pa` (q). -/
  | restartQueue
  /-- TLB_INVALIDATION (R110): Request 12 invalidates TLB entries for a range. Parameters: `pa` (root), `v` (va),
  `v2` (len). -/
  | tlbInvalidation
  /-- L2_WRITEBACK_INVALIDATE (R98): Request 13 writes back and invalidates L2 lines of a pool range. Parameters:
  `v` (pa), `v2` (len). -/
  | l2WritebackInvalidate
  /-- REGISTER_ARENA (R112): Request 14 registers a map arena. Parameters: `v` (pa). -/
  | registerArena
  /-- UNREGISTER_ARENA (R348): Request 15 unregisters a map arena. Parameters: `v` (pa). -/
  | unregisterArena
  /-- UNKNOWN_REQUEST (R348): Request codes 16 to 255 complete with status 255. -/
  | unknownRequest
  /-- CXL_LINK_FAIL (R351): A CXL port link fails and its traffic moves to its failover partner. Parameters: `num`
  (port), `yes` (allLost). -/
  | cxlLinkFail
  /-- FLIT_RECEIVE (R352): A Hitch flit arrives, is checked, and is replayed on CRC failure. Parameters: `num`
  (port), `num2` (num), `yes` (crcOk), `yes2` (poison), `pa` (sector). -/
  | flitReceive
  /-- HITCH_PORT_LOST (R353): After 2 ms of failed replay a port is declared lost and removed from route masks.
  Parameters: `num` (port). -/
  | hitchPortLost
  /-- LANE_SPARING (R353): A lane past its error threshold is replaced by the spare. Parameters: `num` (port). -/
  | laneSparing
  /-- REMOTE_ACCESS (R355): A load, store or atomic from another module is performed at its home here. Parameters:
  `num` (node), `pa`, `op`, `yes` (the issuer holds XGRANT), `bytes` (its groups), `num2` (link sequence number). -/
  | remoteAccess
  /-- REDUCE_CHUNK (R359): A chunk partial arrives, is combined and forwarded around the ring. Parameters: `pa`
  (q), `num` (chunk), `num2` (collective id), `words` (partials), `yes2` (poison), `v` (NODE of its origin), `yes`
  (cut off by a link loss), `code` (not 0: the sender's parameters differ). -/
  | reduceChunk
  /-- COLLECTIVE_TIMEOUT (R360): A participant absent for 10 ms causes a cause 0x19 record. Parameters: `pa` (q). -/
  | collectiveTimeout
  /-- POWER_ON (R366): Power-on verifies firmware, zeroes storage, self-tests, enumerates and starts the Ostlers. Parameters: `digest`
  and `bytes` (measurements of the management and Ostler firmware), `yes2` (a verification fails), `words` (failing cores). -/
  | powerOn
  /-- FIRMWARE_REPLACEMENT (R367): New Ostler firmware is verified and installed on each die. Parameters: `d`,
  `yes` (verified), `digest`. -/
  | firmwareReplacement
  /-- HOT_REMOVAL (R368): The module is removed under PCIe hot-plug. -/
  | hotRemoval
  /-- ATTESTATION_REQUEST (R369): A nonce request through the mailbox returns a signed attestation report.
  Parameters: `digest` (nonce), `num` (1: the public key, 2: the certificate). -/
  | attestationRequest
  /-- SPURIOUS_WAKE (R119): A monitored-line wait completes with no write to its line, for example when the monitor
  entry is lost to an eviction or a save. Parameters: `k`, `q`. -/
  | spuriousWake
  /-- THERMAL_LIMIT (R362): A die passes its thermal limit, and the management level moves it down a clock step
  within 1 ms. Parameters: `d`. -/
  | thermalLimit
  /-- DEGRADED_MODE_SET (R363): The management level puts a core into half-array mode after array cell faults, or a
  die into precision mode, or takes it out again. Parameters: `mode` (m), `yes` (on). -/
  | degradedModeSet
  /-- POWER_LOSS (R341): The module loses power, and at most one second of lifetime-record counts is lost. -/
  | powerLoss
  deriving DecidableEq, Repr

end Sys2Proof
end

