-- ==== Sys2Proof/Decode.lean ====
section
/-! DEFINITION. The decoder of Cratan words, total on any bytes, and after it the encoder, both written from the word
classes of R148, the S-format map of R151, the V-format map of R156 and the prefix kinds of R158. -/

namespace Sys2Proof

/-- The S word of op code `op` with field `r` (R151); `none` in the undefined ranges of R152. -/
def decodeS (op : BitVec 8) (r : BitVec 4) : Option Instr :=
  match op.toNat with
  | 0x00 => some (.nop r)
  | 0x01 => some (.dup r)
  | 0x02 => some (.drop r)
  | 0x03 => some (.swap r)
  | 0x04 => some (.over r)
  | 0x05 => some (.rot r)
  | 0x06 => some (.pick r)
  | 0x07 => some (.depth r)
  | 0x08 => some (.get r)
  | 0x09 => some (.put r)
  | 0x0A => some (.getc r)
  | 0x0B => some (.putc r)
  | 0x0C => some (.prep r)
  | 0x0D => some (.br r)
  | 0x0E => some (.brn r)
  | 0x0F => some (.call r)
  | 0x10 => some (.ret r)
  | 0x11 => some (.loop r)
  | 0x12 => some (.setn r)
  | 0x13 => some (.getn r)
  | 0x14 => some (.add r)
  | 0x15 => some (.sub r)
  | 0x16 => some (.mul r)
  | 0x17 => some (.mulh r)
  | 0x18 => some (.mulhu r)
  | 0x19 => some (.div r)
  | 0x1A => some (.divu r)
  | 0x1B => some (.rem r)
  | 0x1C => some (.remu r)
  | 0x1D => some (.and r)
  | 0x1E => some (.or r)
  | 0x1F => some (.xor r)
  | 0x20 => some (.not r)
  | 0x21 => some (.neg r)
  | 0x22 => some (.shl r)
  | 0x23 => some (.shr r)
  | 0x24 => some (.sar r)
  | 0x25 => some (.min r)
  | 0x26 => some (.max r)
  | 0x27 => some (.minu r)
  | 0x28 => some (.maxu r)
  | 0x29 => some (.clz r)
  | 0x2A => some (.popc r)
  | 0x2B => some (.addi r)
  | 0x2C => some (.shli r)
  | 0x2D => some (.shri r)
  | 0x2E => some (.sext r)
  | 0x2F => some (.zext r)
  | 0x30 => some (.ceq r)
  | 0x31 => some (.cne r)
  | 0x32 => some (.clt r)
  | 0x33 => some (.cltu r)
  | 0x34 => some (.cle r)
  | 0x35 => some (.cleu r)
  | 0x36 => some (.pand r)
  | 0x37 => some (.por r)
  | 0x38 => some (.pnot r)
  | 0x39 => some (.sel r)
  | 0x3A => some (.lea r)
  | 0x3B => some (.csrr r)
  | 0x3C => some (.csrw r)
  | 0x3D => some (.tbset r)
  | 0x3E => some (.tbget r)
  | 0x3F => some (.brk r)
  | 0x40 => some (.ld r)
  | 0x41 => some (.st r)
  | 0x42 => some (.ldx r)
  | 0x43 => some (.stx r)
  | 0x44 => some (.qmark r)
  | 0x45 => some (.fence r)
  | 0x46 => some (.aadd r)
  | 0x47 => some (.axchg r)
  | 0x48 => some (.acas r)
  | 0x49 => some (.amin r)
  | 0x4A => some (.amax r)
  | 0x4B => some (.aminu r)
  | 0x4C => some (.amaxu r)
  | 0x4D => some (.aand r)
  | 0x4E => some (.aor r)
  | 0x4F => some (.axor r)
  | 0x50 => some (.afadd r)
  | 0x51 => some (.mwait r)
  | 0x52 => some (.sigpost r)
  | 0x53 => some (.sigwait r)
  | 0x54 => some (.sigset r)
  | 0x55 => some (.qpush r)
  | 0x56 => some (.qpop r)
  | 0x57 => some (.qtry r)
  | 0x58 => some (.qbind r)
  | 0x59 => some (.evbind r)
  | 0x5A => some (.barg r)
  | 0x5B => some (.pgshare r)
  | 0x5C => some (.pgdrop r)
  | 0x5D => some (.pgrefs r)
  | 0x5E => some (.wpset r)
  | 0x5F => some (.wpclr r)
  | 0x60 => some (.farerd r)
  | 0x61 => some (.faretop r)
  | 0x62 => some (.station r)
  | 0x63 => some (.yield r)
  | 0x64 => some (.spawn r)
  | 0x65 => some (.depdec r)
  | 0x66 => some (.fork r)
  | 0x67 => some (.rvz r)
  | 0x68 => some (.halt r)
  | 0x69 => some (.flip r)
  | 0x6A => some (.phase r)
  | 0x6B => some (.segchk r)
  | 0x6C => some (.trap r)
  | 0x6D => some (.eret r)
  | 0x6E => some (.prog r)
  | 0x6F => some (.clock r)
  | 0x70 => some (.mset r)
  | 0x71 => some (.mloadb r)
  | 0x72 => some (.mloadt r)
  | 0x73 => some (.mrun r)
  | 0x74 => some (.mgather r)
  | 0x75 => some (.mdrain r)
  | 0x76 => some (.mzero r)
  | 0x77 => some (.mreada r)
  | 0x78 => some (.mpatch r)
  | 0x79 => some (.mwaitc r)
  | 0x7A => some (.mstat r)
  | 0x90 => some (.dset r)
  | 0x91 => some (.dcopy r)
  | 0x92 => some (.dqapp r)
  | 0x93 => some (.gatherr r)
  | 0x94 => some (.scatterw r)
  | 0x95 => some (.scatadd r)
  | 0x96 => some (.fold r)
  | 0x97 => some (.foldwait r)
  | 0x98 => some (.chkick r)
  | 0x99 => some (.chlink r)
  | 0x9A => some (.chstat r)
  | 0x9B => some (.dwait r)
  | 0x9C => some (.mcast r)
  | 0x9D => some (.dstat r)
  | 0x9E => some (.dcsum r)
  | 0xB0 => some (.pbind r)
  | 0xB1 => some (.pstep r)
  | 0xB2 => some (.pread r)
  | 0xB3 => some (.tld r)
  | 0xB4 => some (.tst r)
  | 0xB5 => some (.tfree r)
  | 0xB6 => some (.tfill r)
  | 0xB7 => some (.twaitf r)
  | 0xB8 => some (.fopen r)
  | 0xB9 => some (.fadv r)
  | 0xBA => some (.fseek r)
  | 0xBB => some (.fend r)
  | 0xBC => some (.fcrd r)
  | 0xBD => some (.fval r)
  | 0xBE => some (.frow r)
  | 0xBF => some (.fmatch r)
  | 0xC0 => some (.fclose r)
  | 0xC1 => some (.vsplat r)
  | 0xC2 => some (.vlane r)
  | 0xC3 => some (.vputl r)
  | 0xC4 => some (.vwait r)
  | 0xD0 => some (.mgopen r)
  | 0xD1 => some (.mgput r)
  | 0xD2 => some (.mgrow r)
  | 0xD3 => some (.mgend r)
  | 0xD4 => some (.mgclose r)
  | 0xD5 => some (.mgstat r)
  | 0xD6 => some (.mgspill r)
  | 0xD7 => some (.mgexpand r)
  | 0xE0 => some (.trcw r)
  | 0xE1 => some (.scrub r)
  | 0xE2 => some (.poisonq r)
  | 0xE3 => some (.wpstat r)
  | 0xE4 => some (.csum r)
  | 0xE5 => some (.hret r)
  | 0xE6 => some (.icsync r)
  | 0xE7 => some (.trial r)
  | _ => none

/-- The V word of op code `op` (R156): every op value is defined. -/
def decodeV (op : BitVec 5) (d a b : BitVec 3) : Instr :=
  match op.toNat with
  | 0 => .vmov d a b
  | 1 => .vadd d a b
  | 2 => .vsub d a b
  | 3 => .vmul d a b
  | 4 => .vfma d a b
  | 5 => .vmin d a b
  | 6 => .vmax d a b
  | 7 => .vabs d a b
  | 8 => .vneg d a b
  | 9 => .vand d a b
  | 10 => .vor d a b
  | 11 => .vxor d a b
  | 12 => .vshl d a b
  | 13 => .vshr d a b
  | 14 => .vsar d a b
  | 15 => .vclt d a b
  | 16 => .vceq d a b
  | 17 => .vsel d a b
  | 18 => .vcvt d a b
  | 19 => .vexp2 d a b
  | 20 => .vlog2 d a b
  | 21 => .vrcp d a b
  | 22 => .vrsq d a b
  | 23 => .vsumr d a b
  | 24 => .vmaxr d a b
  | 25 => .vbcast d a b
  | 26 => .vshuf d a b
  | 27 => .vscale d a b
  | 28 => .vqmx d a b
  | 29 => .vdqmx d a b
  | 30 => .vpk24 d a b
  | _ => .vclr d a b

/-- The prefix of kind `kind` (R158); kinds 9 to 15 are undefined words (R152). -/
def decodeP (kind : BitVec 4) (p : BitVec 8) : Option Instr :=
  match kind.toNat with
  | 0 => some (.scope p)
  | 1 => some (.token p)
  | 2 => some (.ifp p)
  | 3 => some (.fmt p)
  | 4 => some (.sparse p)
  | 5 => some (.waitmax p)
  | 6 => some (.round p)
  | 7 => some (.sat p)
  | 8 => some (.event p)
  | _ => none

/-- The word class of R148 and the class's own map. An undefined word decodes to the table's row of that name (R152). -/
def decodeWord (w : Word16) : Instr :=
  if w.extractLsb' 15 1 = 0#1 then .lit (w.extractLsb' 0 15)
  else if w.extractLsb' 13 3 = 0b100#3 then .ext (w.extractLsb' 0 13)
  else if w.extractLsb' 12 4 = 0b1010#4 then
    (decodeS (w.extractLsb' 4 8) (w.extractLsb' 0 4)).getD (.undefinedWord w)
  else if w.extractLsb' 12 4 = 0b1011#4 then
    (decodeP (w.extractLsb' 8 4) (w.extractLsb' 0 8)).getD (.undefinedWord w)
  else decodeV (w.extractLsb' 9 5) (w.extractLsb' 6 3) (w.extractLsb' 3 3) (w.extractLsb' 0 3)

/-- Why a run of bytes is no word. -/
inductive DecodeReject where
  /-- Fewer than the two bytes of a word (R148). -/
  | truncated
  deriving DecidableEq, Repr

/-- The word at the head of a list of bytes, least significant byte first (R3), and the bytes after it. -/
def decode (bytes : List Byte) : Except DecodeReject (Instr × List Byte) :=
  match bytes with
  | lo :: hi :: rest => .ok (decodeWord (hi ++ lo), rest)
  | _ => .error .truncated

/-- An S word (R148). -/
def wordS (op : BitVec 8) (r : BitVec 4) : Word16 := 0b1010#4 ++ op ++ r

/-- A prefix word (R148). -/
def wordP (kind : BitVec 4) (p : BitVec 8) : Word16 := 0b1011#4 ++ kind ++ p

/-- A V word (R148). -/
def wordV (op : BitVec 5) (d a b : BitVec 3) : Word16 := 0b11#2 ++ op ++ d ++ a ++ b

/-- The word of an instruction; `none` for an operation or event, which has no word. -/
def encodeWord (i : Instr) : Option Word16 :=
  match i with
  | .lit i => some (0#1 ++ i)
  | .ext i => some (0b100#3 ++ i)
  | .undefinedWord w => some w
  | .scope p => some (wordP 0 p)
  | .token p => some (wordP 1 p)
  | .ifp p => some (wordP 2 p)
  | .fmt p => some (wordP 3 p)
  | .sparse p => some (wordP 4 p)
  | .waitmax p => some (wordP 5 p)
  | .round p => some (wordP 6 p)
  | .sat p => some (wordP 7 p)
  | .event p => some (wordP 8 p)
  | .nop r => some (wordS 0x00 r)
  | .dup r => some (wordS 0x01 r)
  | .drop r => some (wordS 0x02 r)
  | .swap r => some (wordS 0x03 r)
  | .over r => some (wordS 0x04 r)
  | .rot r => some (wordS 0x05 r)
  | .pick r => some (wordS 0x06 r)
  | .depth r => some (wordS 0x07 r)
  | .get r => some (wordS 0x08 r)
  | .put r => some (wordS 0x09 r)
  | .getc r => some (wordS 0x0A r)
  | .putc r => some (wordS 0x0B r)
  | .prep r => some (wordS 0x0C r)
  | .br r => some (wordS 0x0D r)
  | .brn r => some (wordS 0x0E r)
  | .call r => some (wordS 0x0F r)
  | .ret r => some (wordS 0x10 r)
  | .loop r => some (wordS 0x11 r)
  | .setn r => some (wordS 0x12 r)
  | .getn r => some (wordS 0x13 r)
  | .add r => some (wordS 0x14 r)
  | .sub r => some (wordS 0x15 r)
  | .mul r => some (wordS 0x16 r)
  | .mulh r => some (wordS 0x17 r)
  | .mulhu r => some (wordS 0x18 r)
  | .div r => some (wordS 0x19 r)
  | .divu r => some (wordS 0x1A r)
  | .rem r => some (wordS 0x1B r)
  | .remu r => some (wordS 0x1C r)
  | .and r => some (wordS 0x1D r)
  | .or r => some (wordS 0x1E r)
  | .xor r => some (wordS 0x1F r)
  | .not r => some (wordS 0x20 r)
  | .neg r => some (wordS 0x21 r)
  | .shl r => some (wordS 0x22 r)
  | .shr r => some (wordS 0x23 r)
  | .sar r => some (wordS 0x24 r)
  | .min r => some (wordS 0x25 r)
  | .max r => some (wordS 0x26 r)
  | .minu r => some (wordS 0x27 r)
  | .maxu r => some (wordS 0x28 r)
  | .clz r => some (wordS 0x29 r)
  | .popc r => some (wordS 0x2A r)
  | .addi r => some (wordS 0x2B r)
  | .shli r => some (wordS 0x2C r)
  | .shri r => some (wordS 0x2D r)
  | .sext r => some (wordS 0x2E r)
  | .zext r => some (wordS 0x2F r)
  | .ceq r => some (wordS 0x30 r)
  | .cne r => some (wordS 0x31 r)
  | .clt r => some (wordS 0x32 r)
  | .cltu r => some (wordS 0x33 r)
  | .cle r => some (wordS 0x34 r)
  | .cleu r => some (wordS 0x35 r)
  | .pand r => some (wordS 0x36 r)
  | .por r => some (wordS 0x37 r)
  | .pnot r => some (wordS 0x38 r)
  | .sel r => some (wordS 0x39 r)
  | .lea r => some (wordS 0x3A r)
  | .csrr r => some (wordS 0x3B r)
  | .csrw r => some (wordS 0x3C r)
  | .tbset r => some (wordS 0x3D r)
  | .tbget r => some (wordS 0x3E r)
  | .brk r => some (wordS 0x3F r)
  | .ld r => some (wordS 0x40 r)
  | .st r => some (wordS 0x41 r)
  | .ldx r => some (wordS 0x42 r)
  | .stx r => some (wordS 0x43 r)
  | .qmark r => some (wordS 0x44 r)
  | .fence r => some (wordS 0x45 r)
  | .aadd r => some (wordS 0x46 r)
  | .axchg r => some (wordS 0x47 r)
  | .acas r => some (wordS 0x48 r)
  | .amin r => some (wordS 0x49 r)
  | .amax r => some (wordS 0x4A r)
  | .aminu r => some (wordS 0x4B r)
  | .amaxu r => some (wordS 0x4C r)
  | .aand r => some (wordS 0x4D r)
  | .aor r => some (wordS 0x4E r)
  | .axor r => some (wordS 0x4F r)
  | .afadd r => some (wordS 0x50 r)
  | .mwait r => some (wordS 0x51 r)
  | .sigpost r => some (wordS 0x52 r)
  | .sigwait r => some (wordS 0x53 r)
  | .sigset r => some (wordS 0x54 r)
  | .qpush r => some (wordS 0x55 r)
  | .qpop r => some (wordS 0x56 r)
  | .qtry r => some (wordS 0x57 r)
  | .qbind r => some (wordS 0x58 r)
  | .evbind r => some (wordS 0x59 r)
  | .barg r => some (wordS 0x5A r)
  | .pgshare r => some (wordS 0x5B r)
  | .pgdrop r => some (wordS 0x5C r)
  | .pgrefs r => some (wordS 0x5D r)
  | .wpset r => some (wordS 0x5E r)
  | .wpclr r => some (wordS 0x5F r)
  | .farerd r => some (wordS 0x60 r)
  | .faretop r => some (wordS 0x61 r)
  | .station r => some (wordS 0x62 r)
  | .yield r => some (wordS 0x63 r)
  | .spawn r => some (wordS 0x64 r)
  | .depdec r => some (wordS 0x65 r)
  | .fork r => some (wordS 0x66 r)
  | .rvz r => some (wordS 0x67 r)
  | .halt r => some (wordS 0x68 r)
  | .flip r => some (wordS 0x69 r)
  | .phase r => some (wordS 0x6A r)
  | .segchk r => some (wordS 0x6B r)
  | .trap r => some (wordS 0x6C r)
  | .eret r => some (wordS 0x6D r)
  | .prog r => some (wordS 0x6E r)
  | .clock r => some (wordS 0x6F r)
  | .mset r => some (wordS 0x70 r)
  | .mloadb r => some (wordS 0x71 r)
  | .mloadt r => some (wordS 0x72 r)
  | .mrun r => some (wordS 0x73 r)
  | .mgather r => some (wordS 0x74 r)
  | .mdrain r => some (wordS 0x75 r)
  | .mzero r => some (wordS 0x76 r)
  | .mreada r => some (wordS 0x77 r)
  | .mpatch r => some (wordS 0x78 r)
  | .mwaitc r => some (wordS 0x79 r)
  | .mstat r => some (wordS 0x7A r)
  | .dset r => some (wordS 0x90 r)
  | .dcopy r => some (wordS 0x91 r)
  | .dqapp r => some (wordS 0x92 r)
  | .gatherr r => some (wordS 0x93 r)
  | .scatterw r => some (wordS 0x94 r)
  | .scatadd r => some (wordS 0x95 r)
  | .fold r => some (wordS 0x96 r)
  | .foldwait r => some (wordS 0x97 r)
  | .chkick r => some (wordS 0x98 r)
  | .chlink r => some (wordS 0x99 r)
  | .chstat r => some (wordS 0x9A r)
  | .dwait r => some (wordS 0x9B r)
  | .mcast r => some (wordS 0x9C r)
  | .dstat r => some (wordS 0x9D r)
  | .dcsum r => some (wordS 0x9E r)
  | .pbind r => some (wordS 0xB0 r)
  | .pstep r => some (wordS 0xB1 r)
  | .pread r => some (wordS 0xB2 r)
  | .tld r => some (wordS 0xB3 r)
  | .tst r => some (wordS 0xB4 r)
  | .tfree r => some (wordS 0xB5 r)
  | .tfill r => some (wordS 0xB6 r)
  | .twaitf r => some (wordS 0xB7 r)
  | .fopen r => some (wordS 0xB8 r)
  | .fadv r => some (wordS 0xB9 r)
  | .fseek r => some (wordS 0xBA r)
  | .fend r => some (wordS 0xBB r)
  | .fcrd r => some (wordS 0xBC r)
  | .fval r => some (wordS 0xBD r)
  | .frow r => some (wordS 0xBE r)
  | .fmatch r => some (wordS 0xBF r)
  | .fclose r => some (wordS 0xC0 r)
  | .vsplat r => some (wordS 0xC1 r)
  | .vlane r => some (wordS 0xC2 r)
  | .vputl r => some (wordS 0xC3 r)
  | .vwait r => some (wordS 0xC4 r)
  | .mgopen r => some (wordS 0xD0 r)
  | .mgput r => some (wordS 0xD1 r)
  | .mgrow r => some (wordS 0xD2 r)
  | .mgend r => some (wordS 0xD3 r)
  | .mgclose r => some (wordS 0xD4 r)
  | .mgstat r => some (wordS 0xD5 r)
  | .mgspill r => some (wordS 0xD6 r)
  | .mgexpand r => some (wordS 0xD7 r)
  | .trcw r => some (wordS 0xE0 r)
  | .scrub r => some (wordS 0xE1 r)
  | .poisonq r => some (wordS 0xE2 r)
  | .wpstat r => some (wordS 0xE3 r)
  | .csum r => some (wordS 0xE4 r)
  | .hret r => some (wordS 0xE5 r)
  | .icsync r => some (wordS 0xE6 r)
  | .trial r => some (wordS 0xE7 r)
  | .vmov d a b => some (wordV 0 d a b)
  | .vadd d a b => some (wordV 1 d a b)
  | .vsub d a b => some (wordV 2 d a b)
  | .vmul d a b => some (wordV 3 d a b)
  | .vfma d a b => some (wordV 4 d a b)
  | .vmin d a b => some (wordV 5 d a b)
  | .vmax d a b => some (wordV 6 d a b)
  | .vabs d a b => some (wordV 7 d a b)
  | .vneg d a b => some (wordV 8 d a b)
  | .vand d a b => some (wordV 9 d a b)
  | .vor d a b => some (wordV 10 d a b)
  | .vxor d a b => some (wordV 11 d a b)
  | .vshl d a b => some (wordV 12 d a b)
  | .vshr d a b => some (wordV 13 d a b)
  | .vsar d a b => some (wordV 14 d a b)
  | .vclt d a b => some (wordV 15 d a b)
  | .vceq d a b => some (wordV 16 d a b)
  | .vsel d a b => some (wordV 17 d a b)
  | .vcvt d a b => some (wordV 18 d a b)
  | .vexp2 d a b => some (wordV 19 d a b)
  | .vlog2 d a b => some (wordV 20 d a b)
  | .vrcp d a b => some (wordV 21 d a b)
  | .vrsq d a b => some (wordV 22 d a b)
  | .vsumr d a b => some (wordV 23 d a b)
  | .vmaxr d a b => some (wordV 24 d a b)
  | .vbcast d a b => some (wordV 25 d a b)
  | .vshuf d a b => some (wordV 26 d a b)
  | .vscale d a b => some (wordV 27 d a b)
  | .vqmx d a b => some (wordV 28 d a b)
  | .vdqmx d a b => some (wordV 29 d a b)
  | .vpk24 d a b => some (wordV 30 d a b)
  | .vclr d a b => some (wordV 31 d a b)
  | .clearEngine => none
  | .dispatchStep => none
  | .gangReservation => none
  | .gangUnplaceableReport => none
  | .launchEnd => none
  | .waitCompletion => none
  | .waitBoundExpiry => none
  | .watchdogExpiry => none
  | .blockedCycleCharge => none
  | .hardPreemption => none
  | .topupRetry => none
  | .faretopPolicyGrant => none
  | .saveCopyOut => none
  | .resumeRestore => none
  | .clockStepRequest => none
  | .clockStop => none
  | .clockRestart => none
  | .powerMeasurement => none
  | .bankDrainEnd => none
  | .fifoOverflowService => none
  | .loadPerform => none
  | .storePerform => none
  | .multicastLanding => none
  | .cowService => none
  | .sramRailLow => none
  | .sramRailRecover => none
  | .bankScrub => none
  | .registerScrub => none
  | .vResultLanding => none
  | .tileMoveComplete => none
  | .packetParse => none
  | .nopPacket => none
  | .copy => none
  | .fencePacket => none
  | .signalPacket => none
  | .spawnPacket => none
  | .reduce => none
  | .gatherPacket => none
  | .parserStallTimeout => none
  | .fencePacketTimeout => none
  | .landingUnit => none
  | .packetCompletion => none
  | .queueFaultService => none
  | .chainEntryStart => none
  | .chainEntryComplete => none
  | .tCommandComplete => none
  | .gatherReply => none
  | .foldStart => none
  | .foldComplete => none
  | .weightBufferExchange => none
  | .rowEntry => none
  | .rowSlotUpdate => none
  | .mCommandComplete => none
  | .drainSlot => none
  | .watchStop => none
  | .impreciseWatchStop => none
  | .mangleRecord => none
  | .mangleSpill => none
  | .hamperService => none
  | .mergePass => none
  | .finalPass => none
  | .trapForward => none
  | .deferredFault => none
  | .selfTest => none
  | .traceSample => none
  | .tctlWrite => none
  | .trialHold => none
  | .lifetimeRecordWrite => none
  | .hostApertureRead => none
  | .hostApertureWrite => none
  | .hostAtomic => none
  | .formatWindowWrite => none
  | .routeTableWrite => none
  | .registerWrite => none
  | .requestNone => none
  | .resumeNode => none
  | .endAbandon => none
  | .endComplete => none
  | .releaseDump => none
  | .creditFare => none
  | .softPreempt => none
  | .hardPreemptRequest => none
  | .setWatchRequest => none
  | .openGroup => none
  | .closeGroup => none
  | .restartQueue => none
  | .tlbInvalidation => none
  | .l2WritebackInvalidate => none
  | .registerArena => none
  | .unregisterArena => none
  | .unknownRequest => none
  | .cxlLinkFail => none
  | .flitReceive => none
  | .hitchPortLost => none
  | .laneSparing => none
  | .remoteAccess => none
  | .reduceChunk => none
  | .collectiveTimeout => none
  | .powerOn => none
  | .firmwareReplacement => none
  | .hotRemoval => none
  | .attestationRequest => none
  | .spuriousWake => none
  | .thermalLimit => none
  | .degradedModeSet => none
  | .powerLoss => none

/-- The bytes of an instruction's word, least significant byte first (R3). -/
def encode (i : Instr) : Option (List Byte) :=
  (encodeWord i).map fun w => [w.extractLsb' 0 8, w.extractLsb' 8 8]

/-- The instruction the decoder reads from a word given as a number: bit 0 is the least significant bit of the word. A
Cratan word has 16 bits, stored least significant byte first; no instruction is longer (R148). -/
def decodeTableWord (nbits w : Nat) : Option Instr :=
  if nbits = 0 ∨ 16 < nbits then none
  else
    let x := BitVec.ofNat 16 (w % 2 ^ nbits)
    match decode [x.extractLsb' 0 8, x.extractLsb' 8 8] with
    | .ok (i, _) => some i
    | .error _ => none

end Sys2Proof
end

