-- ==== Sys2Proof/Config.lean ====
section
/-! DEFINITION. What the spec fixes for one implementation only or leaves open: constants without a body, so that no
proof can see a value of them. The first argument of each is the running number `free` of the state, so that two uses
need not agree (log entry 2). Each docstring names the rule that leaves the value open. -/

namespace Sys2Proof

/-- An unstated 64-bit value (log entry 2). -/
opaque Config.freeValue : Nat → W64

/-- An order the spec does not fix: which of the things that could come next comes next (R90, R227, R370). (DESIGN CHOICE, log entry 2.) -/
opaque Config.pick : Nat → Nat

/-- Whether a versioned store meets the limit of a bank or of a set of the L2, whose hash is not architectural (R97,
R116). -/
opaque Config.versionFull : Nat → Bool

/-- Which sector of its block of the save window holds a register word whose place R310 does not give, by register file, sequencer and number.
(DESIGN CHOICE, log entry 50.) -/
opaque Config.windowSector : Nat → Nat → Nat → Nat

/-- Which of the ports of its route's mask the traffic to a 4 KiB page of another module leaves by, by the page and the entry (R354). (DESIGN
CHOICE, log entry 44.) -/
opaque Config.routePort : Nat → Nat → Nat

/-- Where in BAR0's lifetime record the count of an item stands, by kind and place (R341, R343). (DESIGN CHOICE, log entry 39.) -/
opaque Config.lifeOffset : List Nat → Nat

/-- SHA3-256 of the BAR0 format windows, the route table and the pool ranges, given as the report lists them (R369). (DESIGN CHOICE, log entry
42.) -/
opaque Config.settingsHash : List Byte → List Byte → List (List Nat) → BitVec 256

/-- The public key of the module's pair, byte by byte (R369). (DESIGN CHOICE, log entry 42.) -/
opaque Config.publicKey : Nat → Byte

/-- Its certificate from Yartia, and its length in bytes (R369). (DESIGN CHOICE, log entry 42.) -/
opaque Config.certificate : Nat → Byte

/-- See `Config.certificate`. -/
opaque Config.certificateLength : Nat

/-- The management threshold of corrected errors of a bank row (R364). (DESIGN CHOICE, log entry 42.) -/
opaque Config.darnThreshold : Nat

end Sys2Proof
end

