-- ==== Sys2Proof/Machine/Memory.lean ====
section
/-! DEFINITION. Byte stores. A `Memory` is the list of its bytes that are not zero, at strictly rising addresses: the
one canonical form, so that equal contents are equal data. An address that is not listed reads as zero (R366 step 2 for
banks and register files; a design choice for pool memory, log entry 1). An `Overlay` holds the bytes of an uncommitted
version or of the L2 over a memory (R91, R116): an address it does not list is not covered. -/

namespace Sys2Proof.Machine

/-- Bytes by address; unlisted addresses read as zero. -/
abbrev Memory := List Host.Cell

/-- Bytes by address over a memory; unlisted addresses are not covered. -/
abbrev Overlay := List Host.Cell

/-- What an unlisted address reads as. (DESIGN CHOICE, log entry 1.) -/
def unlistedByte : Byte := 0#8

/-- The byte at an address. -/
def Memory.read (m : Memory) (a : Nat) : Byte :=
  match m with
  | [] => unlistedByte
  | (k, b) :: t => if k = a then b else Memory.read t a

/-- Write one byte; a byte equal to what an unlisted address reads as is not listed. -/
def Memory.write (m : Memory) (a : Nat) (b : Byte) : Memory :=
  match m with
  | [] => if b = unlistedByte then [] else [(a, b)]
  | (k, v) :: t =>
    if a < k then (if b = unlistedByte then (k, v) :: t else (a, b) :: (k, v) :: t)
    else if a = k then (if b = unlistedByte then t else (a, b) :: t)
    else (k, v) :: Memory.write t a b

/-- The canonical form: strictly rising addresses, no byte equal to an unlisted one. -/
def Memory.wf (m : Memory) : Bool :=
  match m with
  | [] => true
  | (k, b) :: t =>
    (b != unlistedByte) && (match t with | [] => true | (k', _) :: _ => decide (k < k')) && Memory.wf t

/-- The `n` bytes from an address, in ascending order. -/
def Memory.readBytes (m : Memory) (a : Nat) (n : Nat) : List Byte :=
  match n with
  | 0 => []
  | n + 1 => m.read a :: Memory.readBytes m (a + 1) n

/-- Write bytes at ascending addresses. -/
def Memory.writeBytes (m : Memory) (a : Nat) (bs : List Byte) : Memory :=
  match bs with
  | [] => m
  | b :: t => Memory.writeBytes (m.write a b) (a + 1) t

/-- The little-endian value of bytes (R3). -/
def leNat (bs : List Byte) : Nat :=
  match bs with
  | [] => 0
  | b :: t => b.toNat + 256 * leNat t

/-- The `n` little-endian bytes of a value (R3). -/
def leBytes (n : Nat) (v : Nat) : List Byte :=
  match n with
  | 0 => []
  | n + 1 => BitVec.ofNat 8 v :: leBytes n (v / 256)

/-- The little-endian value of the `n` bytes at an address. -/
def Memory.readLE (m : Memory) (a n : Nat) : Nat := leNat (m.readBytes a n)

/-- Write a value as `n` little-endian bytes. -/
def Memory.writeLE (m : Memory) (a n v : Nat) : Memory := m.writeBytes a (leBytes n v)

/-- Set the bytes of [a, a + n) to zero. -/
def Memory.clear (m : Memory) (a n : Nat) : Memory := m.filter fun c => decide (c.1 < a ∨ a + n ≤ c.1)

/-- The listed bytes of [a, a + n), with addresses counted from zero. -/
def Memory.slice (m : Memory) (a n : Nat) : Memory :=
  (m.filter fun c => decide (a ≤ c.1 ∧ c.1 < a + n)).map fun c => (c.1 - a, c.2)

/-- Write the bytes a slice lists, moved up by `a`. -/
def Memory.overlaySlice (m : Memory) (a : Nat) (sl : Memory) : Memory :=
  match sl with
  | [] => m
  | (k, b) :: t => Memory.overlaySlice (m.write (a + k) b) a t

/-- Make the bytes of [a, a + n) those of a slice of that length. -/
def Memory.put (m : Memory) (a n : Nat) (sl : Memory) : Memory := (m.clear a n).overlaySlice a sl

/-- Copy [src, src + n) to [dst, dst + n); every byte is read before any is written. -/
def Memory.copy (m : Memory) (dst src n : Nat) : Memory := m.put dst n (m.slice src n)

/-- The byte an overlay holds at an address, if it covers it. -/
def Overlay.find (o : Overlay) (a : Nat) : Option Byte :=
  match o with
  | [] => none
  | (k, b) :: t => if k = a then some b else Overlay.find t a

/-- Set one byte of an overlay, kept at strictly rising addresses. -/
def Overlay.set (o : Overlay) (a : Nat) (b : Byte) : Overlay :=
  match o with
  | [] => [(a, b)]
  | (k, v) :: t =>
    if a < k then (a, b) :: (k, v) :: t else if a = k then (a, b) :: t else (k, v) :: Overlay.set t a b

/-- An overlay's form: strictly rising addresses. -/
def Overlay.wf (o : Overlay) : Bool :=
  match o with
  | [] => true
  | (k, _) :: t => (match t with | [] => true | (k', _) :: _ => decide (k < k')) && Overlay.wf t

/-- The numbers of the 128-byte lines an overlay touches, each once (R116). -/
def Overlay.lines (o : Overlay) : List Nat := (o.map fun c => c.1 / 128).dedup

end Sys2Proof.Machine
end

