-- ==== Sys2Proof/Machine/Numbers.lean ====
section
/-! DEFINITION. Number formats and arithmetic (05_numbers, R71 to R89). A value is exact: a NaN, an infinity, or
(−1)^s · m · 2^e. Every rounding of the machine is `rnd` or `rndi`. -/

namespace Sys2Proof.Machine

/-- An exact value: R80's "exact real value, an infinity or a NaN". A zero keeps a sign. -/
inductive Num where
  | nan
  | inf (neg : Bool)
  | fin (neg : Bool) (m : Nat) (e : Int)
  deriving DecidableEq, Repr

/-- What a float format has at the top of its range (R73). -/
inductive Top where
  /-- Infinities and NaNs at E all 1. -/
  | ieee
  /-- One NaN, at all ones, and no infinity. -/
  | oneNan
  /-- Neither. -/
  | none
  deriving DecidableEq, Repr

/-- A float format (R73). -/
structure FloatFmt where
  /-- Exponent bits. -/
  eb : Nat
  /-- Mantissa bits. -/
  mb : Nat
  /-- Bias. -/
  bias : Nat
  /-- Its top. -/
  top : Top
  deriving DecidableEq, Repr

/-- FP32 (R73). -/
def fp32 : FloatFmt := { eb := 8, mb := 23, bias := 127, top := .ieee }
/-- BF16. -/
def bf16 : FloatFmt := { eb := 8, mb := 7, bias := 127, top := .ieee }
/-- FP16. -/
def fp16 : FloatFmt := { eb := 5, mb := 10, bias := 15, top := .ieee }
/-- E4M3. -/
def e4m3 : FloatFmt := { eb := 4, mb := 3, bias := 7, top := .oneNan }
/-- E5M2. -/
def e5m2 : FloatFmt := { eb := 5, mb := 2, bias := 15, top := .ieee }
/-- E3M2. -/
def e3m2 : FloatFmt := { eb := 3, mb := 2, bias := 3, top := .none }
/-- E2M3. -/
def e2m3 : FloatFmt := { eb := 2, mb := 3, bias := 1, top := .none }
/-- E2M1. -/
def e2m1 : FloatFmt := { eb := 2, mb := 1, bias := 1, top := .none }

/-- The float format of the elements of a format code (R71); INT, MXINT8 and ternary codes have none. -/
def floatOf (code : Nat) : Option FloatFmt :=
  match code with
  | 0 => some fp32
  | 1 => some bf16
  | 2 => some fp16
  | 3 => some e4m3
  | 4 => some e5m2
  | 5 => some e4m3
  | 6 => some e5m2
  | 7 => some e3m2
  | 8 => some e2m3
  | 9 => some e2m1
  | _ => none

/-- Bits of an element (R71). -/
def elemBits (code : Nat) : Nat :=
  match code with
  | 0 => 32 | 1 => 16 | 2 => 16 | 3 => 8 | 4 => 8 | 5 => 8 | 6 => 8 | 7 => 6 | 8 => 6 | 9 => 4 | 10 => 8 | 11 => 8
  | 12 => 8 | 13 => 32 | 14 => 2 | _ => 32

/-- An MX format (R71). -/
def isMx (code : Nat) : Bool := 5 ≤ code && code ≤ 10

/-- An integer format of the vector lanes: INT8, UINT8, INT32. -/
def isInt (code : Nat) : Bool := 11 ≤ code && code ≤ 13

/-- The canonical NaN (R74), as a code; 0 where the format has no NaN, which R83 keeps from being asked for. -/
def canonNan (f : FloatFmt) : Nat :=
  match f.top with
  | .ieee => (2 ^ f.eb - 1) * 2 ^ f.mb + 2 ^ (f.mb - 1)
  | .oneNan => 2 ^ (f.eb + f.mb) - 1
  | .none => 0

/-- MAXF(F) as a code without sign (R73). -/
def maxCode (f : FloatFmt) : Nat :=
  match f.top with
  | .ieee => (2 ^ f.eb - 1) * 2 ^ f.mb - 1
  | .oneNan => 2 ^ (f.eb + f.mb) - 2
  | .none => 2 ^ (f.eb + f.mb) - 1

/-- The sign bit as a code. -/
def signCode (f : FloatFmt) (neg : Bool) : Nat := if neg then 2 ^ (f.eb + f.mb) else 0

/-- The value of a code (R73). -/
def decodeFloat (f : FloatFmt) (c : Nat) : Num :=
  let neg := c.testBit (f.eb + f.mb)
  let e := c / 2 ^ f.mb % 2 ^ f.eb
  let m := c % 2 ^ f.mb
  let top := e == 2 ^ f.eb - 1
  if f.top = .ieee && top then (if m = 0 then .inf neg else .nan)
  else if f.top = .oneNan && top && m == 2 ^ f.mb - 1 then .nan
  else if e = 0 then .fin neg m (1 - (f.bias : Int) - f.mb)
  else .fin neg (2 ^ f.mb + m) ((e : Int) - f.bias - f.mb)

/-- Round m · 2^(−d) to an integer under a mode (R78): 0 RNE, 1 RTZ, 2 RUP, 3 RDN. -/
def roundShift (neg : Bool) (m d : Nat) (mode : BitVec 2) : Nat :=
  let q := m / 2 ^ d
  let r := m % 2 ^ d
  let up : Bool :=
    match mode.toNat with
    | 0 => decide (2 ^ d < 2 * r) || (decide (2 * r = 2 ^ d) && r != 0 && q % 2 == 1)
    | 1 => false
    | 2 => !neg && r != 0
    | _ => neg && r != 0
  if up then q + 1 else q

/-- The code of the overflow result (R80). -/
def overflowCode (f : FloatFmt) (neg : Bool) (mode : BitVec 2) (ieee : Bool) : Nat :=
  let big := signCode f neg + maxCode f
  if ieee = false then big
  else if f.top ≠ .ieee then canonNan f
  else
    let infinity := signCode f neg + (2 ^ f.eb - 1) * 2 ^ f.mb
    match mode.toNat with
    | 0 => infinity
    | 1 => big
    | 2 => if neg then big else infinity
    | _ => if neg then infinity else big

/-- RND(x, F, mode, ieee) as a code of F (R80). -/
def rnd (x : Num) (f : FloatFmt) (mode : BitVec 2) (ieee : Bool) : Nat :=
  let ieee := ieee || f == fp32
  match x with
  | .nan => canonNan f
  | .inf neg =>
    if ieee = false then signCode f neg + maxCode f
    else if f.top = .ieee then signCode f neg + (2 ^ f.eb - 1) * 2 ^ f.mb
    else canonNan f
  | .fin neg m e =>
    if m = 0 then signCode f neg
    else
      -- the grid exponent at this magnitude, no lower than that of the subnormals
      let g := max (e + Nat.log2 m) (1 - (f.bias : Int)) - f.mb
      let q := if g ≤ e then m * 2 ^ (e - g).toNat else roundShift neg m (g - e).toNat mode
      -- q units of 2^g: the code grows by one for each unit, through the binades
      let code := ((g + f.mb + f.bias - 1).toNat) * 2 ^ f.mb + q
      if maxCode f < code then overflowCode f neg mode ieee else signCode f neg + code

/-- The value rounded to an integer under a mode. -/
def roundInt (neg : Bool) (m : Nat) (e : Int) (mode : BitVec 2) : Int :=
  let q := if 0 ≤ e then m * 2 ^ e.toNat else roundShift neg m (-e).toNat mode
  if neg then -(q : Int) else q

/-- RNDI(x, lo, hi, mode, sat) (R80). -/
def rndi (x : Num) (lo hi : Int) (mode : BitVec 2) (sat : Bool) : Int :=
  match x with
  | .nan => 0
  | .inf neg => if sat then (if neg then lo else hi) else 0
  | .fin neg m e =>
    let y := roundInt neg m e mode
    if hi < y ∨ y < lo then
      if sat then (if hi < y then hi else lo) else lo + (y - lo) % (hi - lo + 1)
    else y

/-- An integer as a value. -/
def Num.ofInt (i : Int) : Num := .fin (decide (i < 0)) i.natAbs 0

/-- The range of an integer format (R76). -/
def intRange (code : Nat) : Int × Int :=
  match code with
  | 11 => (-128, 127)
  | 12 => (0, 255)
  | 13 => (-2147483648, 2147483647)
  | _ => (-1, 1)

/-- The two's complement value of the low `w` bits. -/
def sintOf (w c : Nat) : Int := (BitVec.ofNat w c).toInt

/-- The value of a ternary code; 0b10 reads as 0 (R76). -/
def ternVal (c : Nat) : Int :=
  match c % 4 with
  | 1 => 1
  | 3 => -1
  | _ => 0

/-- The value of an element code of a format, without a block scale (R71, R73, R76). -/
def elemNum (code c : Nat) : Num :=
  match floatOf code with
  | some f => decodeFloat f c
  | none =>
    match code with
    | 10 => let k := sintOf 8 c
            .fin (decide (k < 0)) k.natAbs (-6)
    | 11 => Num.ofInt (sintOf 8 c)
    | 12 => Num.ofInt (c % 256)
    | 13 => Num.ofInt (sintOf 32 c)
    | _ => Num.ofInt (ternVal c)

/-- The sign of a value that is not a NaN. -/
def Num.neg? (x : Num) : Bool :=
  match x with
  | .nan => false
  | .inf n => n
  | .fin n _ _ => n

/-- −x. -/
def Num.negate (x : Num) : Num :=
  match x with
  | .nan => .nan
  | .inf n => .inf (!n)
  | .fin n m e => .fin (!n) m e

/-- |x|. -/
def Num.abs (x : Num) : Num :=
  match x with
  | .nan => .nan
  | .inf _ => .inf false
  | .fin _ m e => .fin false m e

/-- A value is a zero. -/
def Num.isZero (x : Num) : Bool :=
  match x with
  | .fin _ m _ => m == 0
  | _ => false

/-- x · 2^k. -/
def Num.scale (x : Num) (k : Int) : Num :=
  match x with
  | .fin n m e => .fin n m (e + k)
  | _ => x

/-- The exact product (R74). -/
def Num.mul (x y : Num) : Num :=
  match x, y with
  | .nan, _ => .nan
  | _, .nan => .nan
  | .inf a, .inf b => .inf (a != b)
  | .inf a, .fin b m _ => if m = 0 then .nan else .inf (a != b)
  | .fin a m _, .inf b => if m = 0 then .nan else .inf (a != b)
  | .fin a m e, .fin b n f => .fin (a != b) (m * n) (e + f)

/-- A signed count of 2^e units as an exact value; zero takes the sign given. -/
def Num.ofUnits (i : Int) (e : Int) (zneg : Bool) : Num :=
  if i = 0 then .fin zneg 0 0 else .fin (decide (i < 0)) i.natAbs e

/-- The number of 2^e units in a finite value, where e is no larger than its exponent. -/
def units (neg : Bool) (m : Nat) (e lo : Int) : Int :=
  let q : Int := (m * 2 ^ (e - lo).toNat : Nat)
  if neg then -q else q

/-- The exact sum, with the zero of R75 under a mode. -/
def Num.add (x y : Num) (mode : BitVec 2) : Num :=
  match x, y with
  | .nan, _ => .nan
  | _, .nan => .nan
  | .inf a, .inf b => if a = b then .inf a else .nan
  | .inf a, .fin _ _ _ => .inf a
  | .fin _ _ _, .inf b => .inf b
  | .fin a m e, .fin b n f =>
    if m = 0 ∧ n = 0 ∧ a = b then .fin a 0 0
    else
      let lo := if m = 0 then f else if n = 0 then e else min e f
      let i := (if m = 0 then 0 else units a m e lo) + (if n = 0 then 0 else units b n f lo)
      Num.ofUnits i lo (mode == 3#2)

/-- x < y for values that are not NaN; zeros of either sign are equal. -/
def Num.lt (x y : Num) : Bool :=
  match x, y with
  | .nan, _ => false
  | _, .nan => false
  | .inf a, .inf b => a && !b
  | .inf a, .fin _ _ _ => a
  | .fin _ _ _, .inf b => !b
  | .fin a m e, .fin b n f =>
    let lo := min e f
    decide (units a m e lo < units b n f lo)

/-- x = y for values that are not NaN. -/
def Num.eq (x y : Num) : Bool := x != .nan && y != .nan && !x.lt y && !y.lt x

/-- floor(log2 |x|) of a finite value that is not zero. -/
def Num.log2 (x : Num) : Int :=
  match x with
  | .fin _ m e => e + Nat.log2 m
  | _ => 0

/-- RNE_FP32(x) (R80). -/
def rneFp32 (x : Num) : BitVec 32 := BitVec.ofNat 32 (rnd x fp32 0 true)

/-- The value of an FP32 word. -/
def fp32Num (c : BitVec 32) : Num := decodeFloat fp32 c.toNat

/-- FP32 addition, RNE (R88). -/
def addFp32 (a b : BitVec 32) : BitVec 32 := rneFp32 ((fp32Num a).add (fp32Num b) 0)

/-- FP32 multiplication, RNE. -/
def mulFp32 (a b : BitVec 32) : BitVec 32 := rneFp32 ((fp32Num a).mul (fp32Num b))

/-- The code of a ternary value (R76). -/
def ternCode (i : Int) : Nat := if i = 0 then 0 else if i < 0 then 3 else 1

/-- A value converted to the element code of a format that is not MX (R81); `sat` holds SAT[0] and SAT[1]. -/
def toElem (x : Num) (code : Nat) (mode : BitVec 2) (sat : BitVec 2) : Nat :=
  match floatOf code with
  | some f => rnd x f mode (sat.getLsbD 1)
  | none =>
    if code = 14 then ternCode (rndi x (-1) 1 mode true)
    else
      let (lo, hi) := intRange code
      (BitVec.ofInt (elemBits code) (rndi x lo hi mode (sat.getLsbD 0))).toNat

/-- Every value of one float format is a value of another, wider one. -/
def widens (src dst : Nat) : Bool :=
  match floatOf src, floatOf dst with
  | some a, some b => decide (a.eb ≤ b.eb ∧ a.mb ≤ b.mb) && a != b
  | _, _ => false

/-- A value as the element code of a conversion from one format (R81). One to a wider float is exact: an infinity stays one whatever SAT says. -/
def convElem (c src dst : Nat) (mode : BitVec 2) (sat : BitVec 2) : Nat :=
  toElem (elemNum src c) dst mode (if widens src dst then sat ||| 2 else sat)

/-- emax(F) (R83). -/
def mxEmax (code : Nat) : Int :=
  match code with
  | 5 => 8
  | 6 => 15
  | 7 => 4
  | 8 => 2
  | 9 => 2
  | _ => 0

/-- The largest magnitude, by comparison. -/
def maxAbs (vs : List Num) : Num :=
  match vs with
  | [] => .fin false 0 0
  | v :: t => let r := maxAbs t
              if r.lt v.abs then v.abs else r

/-- MXQ (R83): the scale byte, the element codes, and whether MXINF is set. -/
def mxq (vs : List Num) (code : Nat) : Nat × List Nat × Bool :=
  let isInf := fun x => match x with | Num.inf _ => true | _ => false
  if vs.any fun v => v == .nan || isInf v then (255, vs.map fun _ => 0, vs.any isInf)
  else
    let amax := maxAbs vs
    let x : Int := if amax.isZero then -127 else max (-127) (min 127 (amax.log2 - mxEmax code))
    let el := fun v : Num =>
      match floatOf code with
      | some f => rnd (v.scale (-x)) f 0 false
      | none => (BitVec.ofInt 8 (rndi (v.scale (6 - x)) (-127) 127 0 true)).toNat
    ((x + 127).toNat, vs.map el, false)

/-- Dequantisation of one element (R84). -/
def mxdq (code scale c : Nat) : Num :=
  if scale = 255 then .nan else (elemNum code c).scale ((scale : Int) - 127)

/-- Element i of bytes packed under R72. -/
def unpackElem (bits : Nat) (bs : List Byte) (i : Nat) : Nat :=
  match bits with
  | 32 => leNat ((bs.drop (4 * i)).take 4)
  | 16 => leNat ((bs.drop (2 * i)).take 2)
  | 8 => leNat ((bs.drop i).take 1)
  | 6 => leNat ((bs.drop (i / 4 * 3)).take 3) / 2 ^ (6 * (i % 4)) % 64
  | 4 => leNat ((bs.drop (i / 2)).take 1) / 2 ^ (4 * (i % 2)) % 16
  | _ => leNat ((bs.drop (i / 4)).take 1) / 2 ^ (2 * (i % 4)) % 4

/-- The value of elements of `bits` bits each, least significant first. -/
def joinBits (bits : Nat) (cs : List Nat) : Nat :=
  match cs with
  | [] => 0
  | c :: t => c % 2 ^ bits + 2 ^ bits * joinBits bits t

/-- Elements packed into bytes under R72, `n` bytes long. -/
def packElems (bits : Nat) (cs : List Nat) (n : Nat) : List Byte := leBytes n (joinBits bits cs)

/-- The first `n` elements of packed bytes. -/
def unpackElems (bits : Nat) (bs : List Byte) (n : Nat) : List Nat :=
  let v := leNat bs
  (List.range n).map fun i => v / 2 ^ (bits * i) % 2 ^ bits

/-- Bytes that `n` elements take (R72). -/
def elemBytes (code n : Nat) : Nat := (elemBits code * n + 7) / 8

/-- The window exponent g of R85 for the largest contribution. -/
def passGrid (cs : List Num) : Int := (maxAbs cs).log2 - 64

/-- floor(c / 2^g) and whether c is a multiple of 2^g. -/
def floorUnits (c : Num) (g : Int) : Int × Bool :=
  match c with
  | .fin neg m e =>
    if g ≤ e then (units neg m e g, true)
    else
      let d := 2 ^ (g - e).toNat
      let i : Int := if neg then -(m : Int) else m
      (i / (d : Int), m % d == 0)
  | _ => (0, true)

/-- PASS (R85). -/
def passSum (cs : List Num) : BitVec 32 :=
  let isInf := fun x => match x with | Num.inf _ => true | _ => false
  if cs.any (· == .nan) || (cs.any (· == .inf true) && cs.any (· == .inf false)) then 0x7FC00000#32
  else if cs.any isInf then (if cs.any (· == .inf true) then 0xFF800000#32 else 0x7F800000#32)
  else if cs.all Num.isZero then 0#32
  else
    let g := passGrid cs
    let parts := cs.map fun c => floorUnits c g
    let t : Int := parts.foldl (fun a p => a + p.1) 0
    let sticky := parts.any fun p => !p.2
    -- V in units of g / 4
    let v : Int := 4 * t + (if sticky then (if t < 0 then -1 else if t = 0 then 0 else 1) else 0)
    if v = 0 then 0#32 else rneFp32 (Num.ofUnits v (g - 2) false)

/-- An INT32 slot update (R88): the new slot and whether IOVF is set. -/
def addInt32 (a : BitVec 32) (p : Int) : BitVec 32 × Bool :=
  let t := a.toInt + p
  (BitVec.ofInt 32 t, decide (t < -2147483648 ∨ 2147483647 < t))

/-- One step of CRC-32C over a byte, reflected polynomial 0x82F63B78 (R199). -/
def crcByte (crc : BitVec 32) (b : Byte) : BitVec 32 :=
  (List.range 8).foldl (fun c _ => if c.getLsbD 0 then (c >>> 1) ^^^ 0x82F63B78#32 else c >>> 1) (crc ^^^ b.setWidth 32)

/-- The CRC register after bytes. -/
def crcBytes (crc : BitVec 32) (bs : List Byte) : BitVec 32 := bs.foldl crcByte crc

/-- CRC-32C of bytes (R199). -/
def crc32c (bs : List Byte) : BitVec 32 := crcBytes 0xFFFFFFFF#32 bs ^^^ 0xFFFFFFFF#32

end Sys2Proof.Machine
end

