-- ==== Sys2Proof/Machine/State.lean ====
section
/-! DEFINITION. The state of the whole module as plain data, and the state right after reset. Registers and fields bear
the spec's names. Values that software reads as words are bit vectors; counts are natural numbers; names are
inductive types. -/

namespace Sys2Proof.Machine

/-- Put a value into a vector. -/
def vput {α : Type} {n : Nat} (v : Vector α n) (i : Fin n) (x : α) : Vector α n := v.set i.val x i.isLt

/-- The four states of a sequencer (R27); the order is that of the 2-bit codes. -/
inductive RunState where
  | idle | running | blocked | parked
  deriving DecidableEq, Repr

/-- The prefix kinds 0 to 8 (R158). -/
inductive PKind where
  | scope | token | cond | fmt | sparse | waitmax | round | sat | event
  deriving DecidableEq, Repr

/-- A prefix that has issued and waits for the word it governs (R157). -/
structure Pfx where
  /-- Its kind. -/
  kind : PKind
  /-- Its payload. -/
  payload : BitVec 8
  deriving DecidableEq, Repr

/-- How pool memory is reached (R100); code 3 is reserved and never a value. -/
inductive Policy where
  | cached | stream | device
  deriving DecidableEq, Repr

/-- A bank's mode (R92). -/
inductive BankMode where
  | cache | scratch | fifo
  deriving DecidableEq, Repr

/-- A word that waits (R67 to R69). -/
structure Wait where
  /-- The wait-reason code; 0 is a hold under R94, which has no reason and no bound. -/
  reason : BitVec 4
  /-- The class: beyond-cluster (watchdog) or in-cluster (WAITMAX bound). -/
  beyond : Bool
  /-- The object waited on, as ADDR of the record names it (R303). -/
  object : W64
  /-- The bound in cycles of an in-cluster wait (R68). -/
  bound : Nat
  /-- Cycles blocked in the present class (R67). -/
  stalled : Nat
  /-- Consecutive cycles blocked, for the charge of R60. -/
  blocked : Nat
  deriving DecidableEq, Repr

/-- A store that has issued and is not yet performed (R120). -/
structure PendingStore where
  /-- Physical address of the first byte. -/
  pa : Nat
  /-- How it is reached. -/
  policy : Policy
  /-- The bytes, in ascending order. -/
  data : List Byte
  /-- PC of its word. -/
  pc : VA
  /-- For a store to a multicast window whose group lies in the issuer's cluster: the cycles until it lands (R126). -/
  land : Nat
  /-- For a store to any other multicast window: the members it has still to reach (R126). -/
  todo : Option (List (NodeId × CoreId))
  /-- A copy of it has landed. -/
  begun : Bool
  deriving DecidableEq, Repr

/-- A load that has issued and is not yet performed (R120): a DEVICE, remote or held access. -/
structure PendingLoad where
  /-- Physical address of the first byte. -/
  pa : Nat
  /-- How it is reached. -/
  policy : Policy
  /-- log2 of its size in bytes. -/
  z : Fin 4
  /-- Sign extension (R180). -/
  sx : Bool
  /-- Its value, once LOAD_PERFORM has performed it; the word then completes. -/
  value : Option W64
  deriving DecidableEq, Repr

/-- A load that may still be performed later than its word was issued (R120): until a word uses its place on the parameter stack, or an order
of the spec has it performed, its value may be taken anew. -/
structure LateLoad where
  /-- Physical address of the first byte. -/
  pa : Nat
  /-- How it is reached. -/
  policy : Policy
  /-- log2 of its size in bytes. -/
  z : Fin 4
  /-- Sign extension (R180). -/
  sx : Bool
  /-- The stack entry it fills, counted from the bottom. -/
  ix : Nat
  /-- How many of the sequencer's pending stores were issued before it. -/
  older : Nat
  deriving DecidableEq, Repr

/-- A read that a fibre word has made and not yet done with (R276): its value is absent while it is outstanding at another module. -/
structure FibRead where
  /-- The fibre register. -/
  fib : Fin 8
  /-- Its address. -/
  va : W64
  /-- Its bytes. -/
  n : Nat
  /-- Where it is, by physical address. -/
  pa : Nat
  /-- It is homed in a bank of the cluster. -/
  near : Bool
  /-- Its word carries poison and does not consume it (R294). -/
  carry : Bool
  /-- It met poison. -/
  poison : Bool
  /-- The value. -/
  value : Option Nat
  deriving DecidableEq, Repr

/-- An event slot (R37); address 0 is unbound. -/
structure EventSlot where
  /-- Signal-word address. -/
  addr : W64
  /-- Armed generation. -/
  arm : BitVec 16
  /-- Amount added by a signal. -/
  add : BitVec 24
  /-- Physical address, as translated at binding (R187). -/
  pa : Nat
  /-- How it is reached. -/
  pol : Policy
  deriving DecidableEq, Repr

/-- What happens when a word's or command's effects are complete (R38, R37): tokens are pushed and slots signalled. -/
structure Fin' where
  /-- Pushes: token counter (R38, `tokIx`) and count. -/
  push : List (Fin 6 × Nat)
  /-- Signals, each through a slot as it stood (R187). -/
  sig : List EventSlot
  /-- Signals through an unbound slot, which only set EVUNB (R37). -/
  unbound : Bool
  deriving DecidableEq, Repr

/-- A row port binding (R35). -/
structure Port where
  /-- Current row offset. -/
  cur : BitVec 5
  /-- Row stride. -/
  stride : BitVec 5
  /-- 0 unbound, 1 read, 2 write, 3 update. -/
  mode : BitVec 2
  /-- Format code. -/
  fmt : BitVec 4
  /-- Start row. -/
  start : BitVec 5
  /-- Physical tile. -/
  tile : BitVec 4
  deriving DecidableEq, Repr

/-- A fibre register (R36, R274). -/
structure Fibre where
  /-- Open; a closed fibre behaves as if LEN = 0. -/
  opened : Bool
  /-- Coordinate array, or coordinate of entry 0. -/
  cbase : W64
  /-- Value of entry 0. -/
  vbase : W64
  /-- Entries. -/
  len : BitVec 32
  /-- Dense value stride. -/
  vstr : BitVec 32
  /-- Value format. -/
  vfmt : BitVec 4
  /-- Coordinate width: false 16 bits, true 32 bits. -/
  cw : Bool
  /-- Dense or compressed. -/
  dense : Bool
  /-- Position. -/
  pos : Nat
  deriving DecidableEq, Repr

/-- The state of one sequencer (R28, R29). -/
structure Seqr where
  /-- Its state (R27). -/
  run : RunState
  /-- PC. -/
  pc : VA
  /-- Parameter stack, top first. -/
  stack : List W64
  /-- Predicates c0 to c7; bit 0 reads 1 through `pred` (R31). -/
  preds : BitVec 8
  /-- Branch targets b0 to b3. -/
  bt : Vector VA 4
  /-- Issued-word count at the latest PREP of each b, or at the point where all count as prepared (R165). -/
  btAt : Vector Nat 4
  /-- Loop counters n0 to n3. -/
  ln : Vector (BitVec 32) 4
  /-- Prefixes issued for the next word, in issue order. -/
  pfx : List Pfx
  /-- PC of the first prefix of the open issue group (R157). -/
  grpPc : Option VA
  /-- Issued words, segment count and segment CRC as they stood before the open issue group. -/
  grpSeg : Nat × Nat × BitVec 32
  /-- The word that is blocked (R27). -/
  held : Option Instr
  /-- Its wait. -/
  wait : Option Wait
  /-- FI it was charged when it first blocked (R60). -/
  paid : Nat
  /-- The cause of the trap at which the sequencer stands, until it is serviced. -/
  stopped : Option (BitVec 8)
  /-- The service lets the stopped sequencer issue its word again (R304, R305); otherwise it goes on at `pc`. -/
  restart : Bool
  /-- Store queue, oldest first (R120). -/
  stores : List PendingStore
  /-- The load the sequencer waits for, if any (R120). -/
  load : Option PendingLoad
  /-- Loads behind which later words have issued, oldest first (R120). -/
  late : List LateLoad
  /-- The reads of the fibre word that is blocked (R276). -/
  reads : List FibRead
  /-- Words issued since the node began or FORK started the sequencer. -/
  issued : Nat
  /-- Bubble cycles left (R165). -/
  bubbles : Nat
  /-- Issued words and bubble cycles left at the end of the latest cycle: what has changed since is an issue cycle (R127, R165). -/
  mark : Nat × Nat
  /-- Uncharged hold cycles left (R315, R338). -/
  hold : Nat
  /-- Issue cycles of the open segment (R197). -/
  segCount : Nat
  /-- CRC-32C register of the open segment (R197). -/
  segCrc : BitVec 32
  /-- Started by FORK since C's last RVZ (R57). -/
  started : Bool
  /-- Issue cycles outside the trial range since the last hold (R338). -/
  trialCount : Nat
  /-- Bubbles that the next word's trial count takes in (R338). -/
  trialBub : Nat
  /-- Line of an armed monitor (R119). -/
  monitor : Option Nat
  /-- The monitored line was written, or the wait woke without a write (R119). -/
  woke : Bool
  /-- The index that a DQAPP has claimed and not yet filled (R205), which a stop keeps. -/
  claim : Option Nat
  /-- The two rows that an MGROW has read and not yet sent (R293). -/
  latch : List (BitVec 32)
  /-- MGEXPAND's inner position and records sent by the word so far, which a stop keeps (R294). -/
  expand : Nat × Nat
  /-- Watches that have already stopped the present word (R330). -/
  skip : BitVec 8
  deriving DecidableEq, Repr

/-- A V result in flight (R262). -/
structure Landing where
  /-- Cycles until it is visible. -/
  left : Nat
  /-- It was in flight when its sequencer stopped: it counts the sequencer's issue cycles from its first word on (R127). -/
  replay : Bool
  /-- The port it was issued through. -/
  port : Fin 8
  /-- Physical tile. -/
  tile : BitVec 4
  /-- Row of the tile. -/
  row : Nat
  /-- First byte within the row. -/
  off : Nat
  /-- Bytes written. -/
  data : List Byte
  /-- Bits written of each byte: all of them but for one lane of a ternary row. -/
  mask : Byte
  /-- Issued by C (FROW), whose write of a cycle applies before V's. -/
  fromC : Bool
  /-- The binding it was issued through has ended (R33). -/
  ended : Bool
  /-- What is due when it has landed. -/
  fin : Fin'
  deriving DecidableEq, Repr

/-- A TLD or TST in progress (R272). -/
structure TileMove where
  /-- Issued by this sequencer. -/
  q : Seq
  /-- TLD (true) or TST. -/
  load : Bool
  /-- Physical tile. -/
  tile : BitVec 4
  /-- First tile row. -/
  row : Nat
  /-- Rows. -/
  count : Nat
  /-- For a TLD, the rows as bytes of the tile, in order; for a TST, empty. -/
  rows : List (List Byte)
  /-- It touches only banks of the core's cluster (R270). -/
  near : Bool
  /-- PC of its word, which R68 names as a producer's position. -/
  pc : VA
  /-- What is due at completion. -/
  fin : Fin'
  deriving DecidableEq, Repr

/-- A tile lent to a matrix command, by its sequence number (R34). -/
structure Lend where
  /-- Physical tile. -/
  tile : BitVec 4
  /-- Command sequence number. -/
  seqn : BitVec 24
  deriving DecidableEq, Repr

/-- A weight buffer (R235). -/
structure WBuf where
  /-- Up to 16 KiB of rows. -/
  rows : Memory
  /-- Up to 512 bytes of scales. -/
  scales : Memory
  /-- Format code. -/
  fmt : BitVec 4
  /-- Row count; 0 is empty. -/
  count : Nat
  /-- A poisoned source was met. -/
  poison : Bool
  deriving DecidableEq, Repr

/-- A trap record (R301 to R303), by its fields. -/
structure TrapRec where
  /-- CODE. -/
  code : BitVec 8
  /-- CLASS. -/
  cls : BitVec 2
  /-- KIND. -/
  kind : BitVec 4
  /-- Wait reason. -/
  wr : BitVec 4
  /-- Sequencer code. -/
  seq : BitVec 2
  /-- Core identifier. -/
  core : BitVec 12
  /-- Command sequence number. -/
  seqn : BitVec 24
  /-- PC. -/
  pc : VA
  /-- ADDR. -/
  addr : W64
  /-- ROWP. -/
  rowp : W64
  /-- INFO. -/
  info : W64
  /-- IDS. -/
  ids : W64
  /-- WHO. -/
  who : W64
  /-- TIME. -/
  time : W64
  deriving DecidableEq, Repr

/-- The kinds of M command (R232). -/
inductive MOp where
  | loadB
  | loadT (tiles : List (BitVec 4))
  | run
  | gather (pair : Nat)
  | drain (r : BitVec 4)
  | zero
  | readA (tile : BitVec 4) (slot row : Nat)
  | patch (tile : BitVec 4) (slot row : Nat) (m : BitVec 3)
  | fence
  deriving DecidableEq, Repr

/-- A row inside the array, on its way to its slot (R245). -/
structure FlyRow where
  /-- Cycles until it reaches its slot. -/
  left : Nat
  /-- Slot index within the command. -/
  g : Nat
  /-- Pass sums, 64 or 256. -/
  sums : List (BitVec 32)
  /-- A poisoned row (R248). -/
  poison : Bool
  /-- Its seen bit was 0 when it entered (R245). -/
  first : Bool
  /-- The mode has INT32 slots. -/
  int : Bool
  deriving DecidableEq, Repr

/-- A queued or running M command (R233, R259). -/
structure MCmd where
  /-- What it does. -/
  op : MOp
  /-- The shadow fields as copied at launch (R237). -/
  w : Vector W64 16
  /-- Command sequence number. -/
  seqn : BitVec 24
  /-- PC of the launch word. -/
  pc : VA
  /-- It runs ternary × INT8 rows: four slots for each tag (R236). -/
  quad : Bool
  /-- SPARSE selector and physical metadata tile (R249). -/
  sparse : Option (BitVec 2 × BitVec 4)
  /-- Rounding mode (R78). -/
  rnd : BitVec 2
  /-- SAT bits (R79). -/
  sat : BitVec 2
  /-- Token pops due before the first access. -/
  pops : List (Fin 6 × Nat)
  /-- Event waits due before the first access, each as bound at launch (R187). -/
  waits : List (Fin 16 × EventSlot)
  /-- Due at completion. -/
  fin : Fin'
  /-- Pops and waits are done. -/
  started : Bool
  /-- The weight buffers are exchanged, where SWAPB asks for it (R235). -/
  swapped : Bool
  /-- Physical tiles read, resolved at launch (R32). -/
  tiles : List (BitVec 4)
  /-- Rows entered, or the next slot to drain. -/
  next : Nat
  /-- Rows arrived. -/
  arrived : Nat
  /-- The seen bits (R244). -/
  seen : BitVec 512
  /-- Gather positions already taken (R243). -/
  took : List Nat
  /-- Rows in the array. -/
  fly : List FlyRow
  /-- The cause of a row-precise stop (R259). -/
  stop : Option (BitVec 8)
  /-- First poisoned tag. -/
  poisonTag : Option Nat
  /-- Rows poisoned. -/
  nPoison : Nat
  /-- Duplicates dropped. -/
  nDup : Nat
  /-- The deferred faults due at completion, one of each cause (R248). -/
  deferred : List TrapRec
  /-- NODEs whose last link was lost while the command ran (R248). -/
  lost : List Nat
  /-- The position at which it stopped and which it presents next (R259). -/
  again : Option Nat
  /-- The Mangle refuses the record of its next slot (R253). -/
  refused : Bool
  /-- Watches that have already stopped the present access (R330). -/
  skip : BitVec 8
  deriving DecidableEq, Repr

/-- The kept record of an M command (R254). -/
structure MRec where
  /-- Status word (k = 0). -/
  status : W64
  /-- Rows arrived. -/
  arrived : Nat
  /-- First poisoned tag. -/
  poisonTag : Option Nat
  /-- Lowest unseen slot index. -/
  unseen : Option Nat
  /-- Rows poisoned. -/
  nPoison : Nat
  /-- Duplicates dropped. -/
  nDup : Nat
  /-- Rows discarded after completion. -/
  nExtra : Nat
  /-- Rows entered, or slots drained. -/
  entered : Nat
  /-- The tagged stream it takes (R243), or 0. -/
  pair : Nat
  deriving DecidableEq, Repr

/-- A dimension of a copy beyond dim0 (R208). -/
structure Dim where
  /-- Count. -/
  count : Nat
  /-- Source stride in bytes. -/
  ss : Int
  /-- Destination stride in bytes. -/
  ds : Int
  deriving DecidableEq, Repr

/-- A landing unit that has been read and has not landed (R209). -/
structure CopyUnit where
  /-- Its first byte in canonical order. -/
  pos : Nat
  /-- Source VA. -/
  src : Nat
  /-- Destination VA. -/
  dst : Nat
  /-- Its length. -/
  size : Nat
  /-- Its bytes, each with its poison; none where they were lost behind a failed link. -/
  data : Option (List (Byte × Bool))
  /-- Its source is not the own bank of the core that is charged for it (R60). -/
  far : Bool := false
  /-- For a unit to the multicast window of a group outside the issuer's cluster that has begun to land: the members it has still to reach (R126). -/
  todo : Option (List (NodeId × CoreId)) := none
  deriving DecidableEq, Repr

/-- A copy in progress (R208 to R210). -/
structure CopyJob where
  /-- Source VA. -/
  src : W64
  /-- Destination VA. -/
  dst : W64
  /-- dim0 byte count. -/
  dim0 : Nat
  /-- Dimensions 1 and up, innermost first. -/
  dims : List Dim
  /-- Flag 7: ordered landing. -/
  ordered : Bool
  /-- Flag 5: arrival count. -/
  arrival : Bool
  /-- Flag 6: host interrupt. -/
  interrupt : Bool
  /-- Checksum mode 0 to 4. -/
  mode : Nat
  /-- Expected checksum. -/
  expect : BitVec 32
  /-- Completion dependence counter id. -/
  ctr : BitVec 32
  /-- Bytes read so far, in canonical order. -/
  read : Nat
  /-- Units read and not yet landed, in canonical order. -/
  flight : List CopyUnit
  /-- Bytes moved with an end outside the own bank (R60). -/
  far : Nat
  /-- Adler-32 register. -/
  adler : BitVec 32
  /-- A destination sector was written poisoned. -/
  poison : Bool
  /-- The packet met poison (R210). -/
  met : Bool
  /-- First byte lost to a failed link (R217), in canonical order. -/
  loss : Option Nat
  /-- Bytes lost to a failed link. -/
  lostBytes : Nat
  /-- NODEs whose last link was lost while the copy ran (R217). -/
  lost : List Nat
  deriving DecidableEq, Repr

/-- A gather or scatter in progress (R224 to R228). -/
structure GatherJob where
  /-- 0 gather, 1 scatter write, 2 scatter add. -/
  kind : Fin 3
  /-- Table VA. -/
  table : W64
  /-- Index list VA. -/
  list : W64
  /-- Count. -/
  n : Nat
  /-- Element bytes. -/
  e : Nat
  /-- Destination VA of a gather, source VA of a scatter. -/
  other : W64
  /-- Index width in bytes. -/
  iw : Nat
  /-- Which tagged GATHERR of the core it is (R225, R243); 0 for any other. -/
  pair : Nat
  /-- Each landing unit is posted (R225). -/
  arrival : Bool
  /-- Addend and location formats of SCATADD. -/
  fmts : BitVec 4 × BitVec 4
  /-- Elements landed or accounted for. -/
  took : List Nat
  /-- Elements arrived. -/
  arrived : Nat
  /-- First missing, poisoned or failing index. -/
  missing : Option Nat
  /-- Poison was met. -/
  poison : Bool
  /-- Elements were lost to a failed link. -/
  loss : Bool
  /-- The index list's own transfer has been charged (R60). -/
  listed : Bool
  /-- NODEs whose last link was lost while it ran (R228). -/
  lost : List Nat
  deriving DecidableEq, Repr

/-- A fold (R229). -/
structure FoldJob where
  /-- Operation r[2:0]. -/
  op : BitVec 3
  /-- Source range: bank keys and lengths, in order. -/
  src : List (Nat × Nat)
  /-- Destination range. -/
  dst : List (Nat × Nat)
  /-- Geometry word. -/
  g : W64
  /-- Extra operand. -/
  x : W64
  /-- Timer value at the launch: the fold engine goes by arrival order. -/
  since : Nat
  /-- The fold engine has started it (R230). -/
  started : Bool
  /-- Cycles until it is complete, at 256 bytes per cycle (R229). -/
  left : Nat
  /-- A destination sector was written poisoned. -/
  poison : Bool
  deriving DecidableEq, Repr

/-- A multicast (R231). -/
structure McastJob where
  /-- Source VA. -/
  src : W64
  /-- Group. -/
  group : BitVec 8
  /-- Bank offset. -/
  off : Nat
  /-- Bytes. -/
  n : Nat
  /-- The members, and how many bytes each has been offered; none before the first landing. -/
  members : Option (List ((NodeId × CoreId) × Nat))
  /-- Bytes that have left for the broadcast tree, where the group lies in the cluster (R126). -/
  sent : Nat
  /-- Poison was met. -/
  poison : Bool
  deriving DecidableEq, Repr

/-- The kinds of T command (R201). -/
inductive TOp where
  | copy (j : CopyJob)
  | gather (j : GatherJob)
  | fold (j : FoldJob)
  | mcast (j : McastJob)
  | fence
  deriving DecidableEq, Repr

/-- A queued or running T command (R201). -/
structure TCmd where
  /-- What it does. -/
  op : TOp
  /-- Command sequence number. -/
  seqn : BitVec 24
  /-- PC of the launch word. -/
  pc : VA
  /-- Token pops due before the first access. -/
  pops : List (Fin 6 × Nat)
  /-- Event waits due before the first access. -/
  waits : List (Fin 16 × EventSlot)
  /-- Due at completion. -/
  fin : Fin'
  /-- Event slot to which landing units post, for arrival counting (R218, R225). -/
  sigSlot : EventSlot
  /-- Pops and waits are done. -/
  started : Bool
  /-- The cause of a row-precise stop (R259, R299). -/
  stop : Option (BitVec 8)
  /-- A fold index was out of range. -/
  badIdx : Bool
  /-- A multicast member was skipped. -/
  mcSkip : Bool
  /-- The deferred faults due at completion, one of each cause. -/
  deferred : List TrapRec
  /-- The element format that FMT names on a gather or scatter (R224). -/
  fmt : Option (BitVec 4)
  /-- Watches that have already stopped the present access (R330). -/
  skip : BitVec 8
  deriving DecidableEq, Repr

/-- The kept record of a T command (R220). -/
structure TRec where
  /-- Status word (k = 0). -/
  status : W64
  /-- k = 1. -/
  arrived : Nat
  /-- k = 2. -/
  missing : Option Nat
  /-- k = 3. -/
  bytes : Nat
  /-- k = 4. -/
  adler : BitVec 32
  deriving DecidableEq, Repr

/-- The states of a chain context, as CHSTAT codes them (R223). -/
inductive ChainSt where
  | never | running | waiting | ended | stopped | suspended
  deriving DecidableEq, Repr

/-- A chain context (R222). -/
structure Chain where
  /-- Its state. -/
  st : ChainSt
  /-- Current or last entry address. -/
  entry : W64
  /-- Adler-32 register. -/
  adler : BitVec 32
  /-- The 128 bytes of the entry it runs, as read; empty between entries. -/
  img : List Byte
  /-- The copy of that entry. -/
  job : Option CopyJob
  /-- The entry's wait has been met. -/
  met : Bool
  /-- PC of the CHKICK that started the context. -/
  pc : VA
  /-- The sequencer that issued it. -/
  q : Seq
  /-- Deferred faults of the entry's arrival posts: cause and address (R211). -/
  faults : List (BitVec 8 × W64)
  /-- Signalled when the context ends or stops (R223). -/
  fin : Fin'
  deriving DecidableEq, Repr

/-- The tile base (R29, R32). -/
structure TileBase where
  /-- Value. -/
  value : BitVec 3
  /-- Owner: 0 C, 1 M, 2 V, 3 T. -/
  owner : BitVec 2
  deriving DecidableEq, Repr

/-- The bank that a queue binding names: one of this module, or one of another, by its PA (R186). -/
inductive QBank where
  | own (k : CoreId)
  | far (pa : Nat)
  deriving DecidableEq, Repr

/-- The core block of the context (R29, R310). -/
structure Regs where
  /-- s0 to s15. -/
  s : Vector W64 16
  /-- Old values of the scalar registers written in the present cycle (R30). -/
  sOld : List (Fin 16 × W64)
  /-- tb. -/
  tb : TileBase
  /-- tb as it stood at the start of the cycle, where a word of this cycle has changed it (R167). -/
  tbOld : Option TileBase
  /-- p0 to p7. -/
  port : Vector Port 8
  /-- f0 to f7. -/
  fib : Vector Fibre 8
  /-- e0 to e15. -/
  ev : Vector EventSlot 16
  /-- Token counters, by ordered pair (R38). -/
  tok : Vector Nat 6
  /-- Pushes reserved and not yet made (R38). -/
  rsv : Vector Nat 6
  /-- FI. -/
  fi : Int
  /-- FT. -/
  ft : Int
  /-- WFLAGS (R163). -/
  wflags : BitVec 32
  /-- Bits of WFLAGS set in the present cycle (R164). -/
  wfNow : BitVec 32
  /-- BUFA, BUFB (R178). -/
  bufa : W64
  /-- See `bufa`. -/
  bufb : W64
  /-- Queue bindings q0 to q7 (R186). -/
  q : Vector (Option QBank) 8
  /-- PROG0 to PROG7 (R179). -/
  prog : Vector W64 8
  deriving DecidableEq, Repr

/-- The M engine (R233, R237, R254). -/
structure MEngine where
  /-- Shadow command register W0 to W15. -/
  w : Vector W64 16
  /-- Queue, oldest first. -/
  queue : List MCmd
  /-- Sequence number of the last launch. -/
  seqn : BitVec 24
  /-- Records of the 16 latest commands, latest first. -/
  recs : List MRec
  /-- MGATHERs with SRC 2 launched since the node's start (R243). -/
  pairs : Nat
  /-- Spans of the commands completed since a hard pre-emption fell due (R308). -/
  ended : List (Nat × Nat)
  deriving DecidableEq, Repr

/-- A tagged row that has arrived (R243): the pair it belongs to, its tag, its bytes, poison and whether it pins an L2
line (R226). -/
structure HeldRow where
  /-- Which tagged GATHERR. -/
  pair : Nat
  /-- Tag. -/
  tag : Nat
  /-- 128 bytes. -/
  data : List Byte
  /-- Poisoned. -/
  poison : Bool
  /-- Pinned-line entries it keeps. -/
  pins : Nat
  /-- The cause of the fault behind it, where it arrived poisoned for one (R228, R248). -/
  cause : Option (BitVec 8) := none
  deriving DecidableEq, Repr

/-- The T engine (R201, R218, R220). -/
structure TEngine where
  /-- Shadow command register, eight fields. -/
  w : Vector W64 8
  /-- Running Adler-32 register. -/
  adler : BitVec 32
  /-- Queue, oldest first. -/
  queue : List TCmd
  /-- Sequence number of the last launch. -/
  seqn : BitVec 24
  /-- Records of the 32 latest commands, latest first. -/
  recs : List TRec
  /-- Tagged GATHERRs launched since the node's start (R243). -/
  pairs : Nat
  /-- Row buffer of tagged rows. -/
  held : List HeldRow
  deriving DecidableEq, Repr

/-- The register files under SEC-DED (R326). -/
inductive RegFile where
  | scalar | stack | predicate | branch | loop | tile | slot | weight | shadow | queue
  deriving DecidableEq, Repr

/-- A register of a file, for its SEC-DED (R326): `q` is its sequencer where the file is one of a sequencer's or an engine's, and C
elsewhere. `n` is the number of a scalar, branch or loop register; of a stack entry, counted from the bottom; of a shadow field;
of a command, by its sequence number; and of a 32-bit word of the tiles (1024 for each tile), of the slots (64 for each slot), and of
the weight buffers (the active one from 0, the shadow one from 65,536, rows before scales). The predicates of a sequencer are word
0. (DEDUCED, log entry 50.) -/
structure RegWord where
  /-- Register file. -/
  file : RegFile
  /-- Sequencer or engine. -/
  q : Seq
  /-- Number in the file. -/
  n : Nat
  deriving DecidableEq, Repr

/-- The context of a core: what a save holds and a restoration brings back (R310, R313). -/
structure Ctx where
  /-- Sequencer C. -/
  c : Seqr
  /-- Sequencer M. -/
  m : Seqr
  /-- Sequencer V. -/
  v : Seqr
  /-- Sequencer T. -/
  t : Seqr
  /-- The core block. -/
  regs : Regs
  /-- Tiles t0 to t15: byte 4096 k + 128 row + i. -/
  tiles : Memory
  /-- Full/empty bits, 1 full (R33). -/
  full : BitVec 16
  /-- Tiles lent (R34). -/
  lent : List Lend
  /-- Write ports unbound while results were in flight: the port and the tile to set full (R33). -/
  closing : List (Fin 8 × BitVec 4)
  /-- V results in flight, in issue order (R262). -/
  landings : List Landing
  /-- TLDs and TSTs in progress. -/
  moves : List TileMove
  /-- Accumulator store: byte 256 q + 4 lane. -/
  acc : Memory
  /-- Kind bit of each slot, 1 INT32 (R245). -/
  kind : BitVec 512
  /-- Poison bit of each slot. -/
  pois : BitVec 512
  /-- Active weight buffer. -/
  wact : WBuf
  /-- Shadow weight buffer. -/
  wshd : WBuf
  /-- M engine. -/
  me : MEngine
  /-- T engine. -/
  te : TEngine
  /-- Chain contexts k0 to k3. -/
  chain : Vector Chain 4
  /-- Pinned-line entries in use (R226). -/
  pins : Nat
  /-- TMASK of the footprint. -/
  tmask : BitVec 16
  /-- ACCN of the footprint. -/
  accn : Nat
  /-- Register words with an error that has not been found: the word, and whether it is uncorrectable (R326). -/
  regEcc : List (RegWord × Bool)
  deriving DecidableEq, Repr

/-- A watch (R190). -/
structure Watch where
  /-- First watched VA. -/
  base : W64
  /-- Length. -/
  size : W64
  /-- WCTL. -/
  ctl : W64
  /-- Comparison value. -/
  value : W64
  /-- Hook address; 0 stops without a hook. -/
  hook : W64
  /-- Physical 4 KiB frames the range mapped when it was set, with the VA each was mapped at (R329). -/
  frames : List (Nat × Nat)
  deriving DecidableEq, Repr

/-- C's registers as a hook saves them, and what WPSTAT returns (R191, R192). -/
structure Hook where
  /-- C as it stood. -/
  saved : Seqr
  /-- Watch number. -/
  watch : BitVec 3
  /-- Access kind: 1 read, 2 write. -/
  acc : BitVec 2
  /-- Precise. -/
  precise : Bool
  /-- Watched unit. -/
  addr : W64
  /-- PC of the stopped word or launch word. -/
  pc : VA
  /-- Command sequence number and row index. -/
  seqn : BitVec 24
  /-- Row index. -/
  row : BitVec 24
  /-- Writer identity. -/
  who : W64
  /-- Errors of C's registers as they stood (R326). -/
  ecc : List (RegWord × Bool)
  deriving DecidableEq, Repr

/-- A watch stop found by an address generator and not yet taken (R328). -/
structure WatchHit where
  /-- The sequencer of the stopped word, or the engine's. -/
  q : Seq
  /-- An engine command rather than a word. -/
  engine : Bool
  /-- Watch number. -/
  watch : Fin 8
  /-- The access was a write. -/
  write : Bool
  /-- The watched unit. -/
  addr : W64
  /-- Command sequence number. -/
  seqn : BitVec 24
  /-- Row index. -/
  row : Nat
  /-- PC of the word or launch word. -/
  pc : VA
  deriving DecidableEq, Repr

/-- The snapshot FLIP writes (R195, R315). -/
structure Snapshot where
  /-- C, M, V, T and the core block. -/
  c : Seqr
  /-- See `c`. -/
  m : Seqr
  /-- See `c`. -/
  v : Seqr
  /-- See `c`. -/
  t : Seqr
  /-- See `c`. -/
  regs : Regs
  /-- Physical tiles carried. -/
  carried : BitVec 16
  /-- Their bytes. -/
  tiles : Memory
  /-- Their full/empty bits. -/
  full : BitVec 16
  /-- V results in flight, with the cycles each has left (R310, R315). -/
  landings : List Landing
  /-- First chain entry of the input buffer. -/
  e : W64
  /-- The snapshot area holds an uncorrectable error (R318). -/
  bad : Bool
  deriving DecidableEq, Repr

/-- The phase of a core (R315 to R320). -/
structure Phase where
  /-- Its number. -/
  num : Nat
  /-- Rollbackable so far (R316). -/
  rb : Bool
  /-- The snapshot of its FLIP. -/
  snap : Option Snapshot
  /-- Rollbacks of it in succession. -/
  tries : Nat
  /-- SEGCHK PC of the last mismatch (R320). -/
  missPc : Option VA
  /-- Address of a refetch's fault that has been reported and still holds the rollback (R319). -/
  told : Option W64
  deriving DecidableEq, Repr

/-- An overflow segment of a queue (R95, R96). -/
structure FifoSeg where
  /-- BASE. -/
  base : PA
  /-- SIZE, log2 of its entries. -/
  size : BitVec 6
  /-- Entries pushed into it: it fills linearly, entry i at BASE + 16 i. -/
  filled : Nat
  /-- Entries popped from it. -/
  popped : Nat
  deriving DecidableEq, Repr

/-- A FIFO bank's queue (R95). -/
structure Fifo where
  /-- Entries pushed. -/
  tail : W64
  /-- Entries popped. -/
  head : W64
  /-- Overflow mode. -/
  ovf : Bool
  /-- Entries of the ring of segment 0, oldest first. -/
  ring : List (W64 × W64)
  /-- Overflow segments linked, in link order. -/
  segs : List FifoSeg
  /-- The Ostler has declined to link another segment: pushes wait (R96). -/
  declined : Bool
  deriving DecidableEq, Repr

/-- A trace record (R335). -/
structure TraceRec where
  /-- TIME. -/
  time : W64
  /-- KIND. -/
  kind : BitVec 5
  /-- Sequencer. -/
  seq : BitVec 2
  /-- PC. -/
  pc : VA
  /-- Command sequence number. -/
  seqn : BitVec 24
  /-- Row index. -/
  row : BitVec 32
  /-- VAL. -/
  val : W64
  /-- It is an engine's and not a sequencer's, for the order of R336. -/
  engine : Bool := false
  deriving DecidableEq, Repr

/-- A core's trace buffer (R334). -/
structure Trace where
  /-- TCTL. -/
  tctl : W64
  /-- TWP. -/
  twp : W64
  /-- TLOST. -/
  tlost : W64
  /-- Slots written, by slot number; an unlisted slot was never written. -/
  slots : List (Nat × TraceRec)
  /-- Records of the present timer count, in the order in which they will be written at its end (R336). -/
  due : List TraceRec
  deriving DecidableEq, Repr

/-- A trial (R338). -/
structure Trial where
  /-- Range. -/
  lo : W64
  /-- See `lo`. -/
  hi : W64
  /-- Delay. -/
  d : Nat
  /-- Hold cycles inserted. -/
  inserted : Nat
  deriving DecidableEq, Repr

/-- What a save holds (R310 to R312). -/
structure Saved where
  /-- Kind of save: 0 hard pre-emption, 1 yield, 2 fatal dump. -/
  skind : BitVec 2
  /-- Cause. -/
  cause : BitVec 8
  /-- The context. -/
  ctx : Ctx
  /-- Own bank's mode and queue. -/
  mode : BankMode
  /-- See `mode`. -/
  fifo : Fifo
  /-- The hook that ran on C. -/
  hook : Option Hook
  /-- The uncommitted version, which stays the task's (R309). -/
  version : Overlay
  /-- See `Core.whole`. -/
  whole : List Nat
  /-- The phase. -/
  phase : Phase
  /-- BARGs issued. -/
  barr : List (BitVec 8 × Nat)
  /-- The core had raised its halt line (R58). -/
  haltLine : Bool
  /-- Deferred faults still due. -/
  pend : List TrapRec
  /-- The record of the trap with which the save was made. -/
  record : Option TrapRec
  /-- Keep regions of the bank proper, as bank offsets and bytes; filled by the copy-out (R312). -/
  keep : Memory
  /-- Their poisoned sectors, by number within the bank. -/
  keepPoison : List Nat
  /-- The contents of the queue's overflow segments (R96). -/
  segs : List (List Byte)
  /-- The window, as the copy-out took it (R312). -/
  win : Memory := []
  /-- Its poisoned sectors, by number within the window. -/
  winPoison : List Nat := []
  /-- The copy-out has met a fault and told the Ostler (R312). -/
  told : Bool := false
  deriving DecidableEq, Repr

/-- A TLB entry: root, level of the leaf, page number at that level, PTE (R18, R110). -/
structure TlbEnt where
  /-- Root table. -/
  root : Nat
  /-- Level of the leaf. -/
  level : Nat
  /-- VA of the page. -/
  page : Nat
  /-- The entry. -/
  pte : W64
  /-- Where the entry stood when it was read. -/
  src : Nat
  deriving DecidableEq, Repr

/-- A line of an instruction cache (R18, R168): 128 bytes of physical memory as they stood when a fetch filled it. -/
structure CodeLine where
  /-- Number of the 128-byte line, by physical address. -/
  line : Nat
  /-- Its bytes. -/
  data : List Byte
  /-- Sequencers that may still issue from it: bit 0 C, 1 M, 2 V, 3 T. An ICSYNC of a sequencer clears its bit. -/
  live : BitVec 4
  deriving DecidableEq, Repr

/-- What a bank's ports have carried in the present cycle (R17): in the accesses before the latest operation or event that used them, and
in that one. -/
structure Ports where
  /-- Bytes read before it, with those of larger accesses that earlier cycles have not yet carried. -/
  rd : Nat
  /-- Bytes written before it. -/
  wr : Nat
  /-- The 32-byte sectors read before it. -/
  sectors : List Nat
  /-- The operation or event, by its serial number. -/
  by_ : Nat
  /-- Bytes it has read. -/
  rdBy : Nat
  /-- Bytes it has written. -/
  wrBy : Nat
  /-- Sectors it has read. -/
  sectorsBy : List Nat
  /-- Cycles for which a context save or a copy-out keeps the ports. -/
  busy : Nat
  deriving DecidableEq, Repr

/-- The repair of a bank (R364). -/
structure Repair where
  /-- Spare SRAM rows left. -/
  spare : Nat
  /-- Corrected errors of each 1 KiB row since it was last darned. -/
  errs : List (Nat × Nat)
  /-- The row being darned, and the cycles of its hold left. -/
  darn : Option (Nat × Nat)
  /-- The core is to be replaced by a spare at its next launch end or save. -/
  marked : Bool
  deriving DecidableEq, Repr

/-- One logical core (R9, R18). -/
structure Core where
  /-- The context. -/
  ctx : Ctx
  /-- The node it runs. -/
  node : Option NodeId
  /-- Own bank's mode. -/
  mode : BankMode
  /-- Cycles left of a mode change's drain (R94). -/
  drain : Nat
  /-- Withdrawn for DEC-TED check bits (R99). -/
  withdrawn : Bool
  /-- The queue of a FIFO bank. -/
  fifo : Fifo
  /-- The uncommitted version (R116). -/
  version : Overlay
  /-- Sectors of the version that one store has written whole (R324). -/
  whole : List Nat
  /-- The phase. -/
  phase : Phase
  /-- The hook that runs on C. -/
  hook : Option Hook
  /-- A watch stop to be taken. -/
  hit : Option WatchHit
  /-- The save in the window, until its copy-out (R312). -/
  saved : Option Saved
  /-- Deferred faults due at the next command boundary, oldest first (R299, R307). -/
  pend : List TrapRec
  /-- A hard pre-emption due at the next command boundary, with its cause (R61, R308). -/
  preempt : Option (BitVec 8)
  /-- A yield is under way: M, V and T issue nothing while the engines complete (R63). -/
  yielding : Bool
  /-- The core has raised its halt line (R58). -/
  haltLine : Bool
  /-- BARGs issued on each group (R188). -/
  barr : List (BitVec 8 × Nat)
  /-- The trap record that Ostler work on this core is servicing, with the PA at which it stands (R305). -/
  serving : Option (TrapRec × W64)
  /-- In service: neither fenced nor taken out of scheduling (R320, R321). -/
  inService : Bool
  /-- In self-test (R51). -/
  selfTest : Bool
  /-- Half-array mode (R363). -/
  halfArray : Bool
  /-- Trace buffer. -/
  trace : Trace
  /-- The trial in progress. -/
  trial : Option Trial
  /-- TLB, most recent first (R18). -/
  tlb : List TlbEnt
  /-- Next sector the bank scrubber reads (R327). -/
  scrub : Nat
  /-- Instruction cache, most recent line first (R18). -/
  icache : List CodeLine
  /-- The ports of its bank in the present cycle. -/
  ports : Ports
  /-- The repair of its bank. -/
  repair : Repair
  /-- A rollback-class trap, or a watch stop without a hook, has stopped the core: its engines stand still until it is serviced
  (R191, R318). -/
  halted : Bool
  /-- Engine accesses held by a draining bank: the engine, the bank, and the cycles so far (R94). -/
  drained : List (Seq × CoreId × Nat)
  /-- Sequencers that a trap, a hook or a pre-emption kept from issuing at their turn of the present cycle: bit 0 C, 1 M, 2 V, 3 T. -/
  stood : BitVec 4
  deriving DecidableEq, Repr

/-- An operand declaration (R44). -/
structure Oper where
  /-- Start VA. -/
  base : W64
  /-- Length. -/
  size : BitVec 40
  /-- USE byte. -/
  use : BitVec 8
  deriving DecidableEq, Repr

/-- A node descriptor as accepted (R41 to R44), with its successor list (R45). -/
structure Desc where
  /-- CODE. -/
  code : W64
  /-- CTRL. -/
  ctrl : W64
  /-- FI. -/
  fi : Int
  /-- FT. -/
  ft : Int
  /-- POOL. -/
  pool : W64
  /-- SELF. -/
  self : BitVec 32
  /-- DEPS. -/
  deps : BitVec 32
  /-- Successor counters. -/
  succ : List (BitVec 32)
  /-- ARGS. -/
  args : W64
  /-- DONE. -/
  done : W64
  /-- DONEADD. -/
  doneadd : BitVec 24
  /-- TMASK. -/
  tmask : BitVec 16
  /-- ACCN. -/
  accn : Nat
  /-- GROUP. -/
  group : BitVec 32
  /-- GVALID. -/
  gvalid : BitVec 4
  /-- GRANT. -/
  grant : W64
  /-- OPER. -/
  oper : List Oper
  /-- The descriptor's VA, for s1 (R29). -/
  va : W64
  deriving DecidableEq, Repr

/-- Where an accepted node stands. -/
inductive NodeSt where
  /-- Bound to its counter (R48). -/
  | waiting
  /-- Ready since this timer value, for a first placement (R49, R50). -/
  | ready (since : Nat)
  /-- Placed on its cores. -/
  | placed
  /-- Switched out and ready to resume (R51). -/
  | resumable (since : Nat)
  /-- Switched out and still fare due (R64). -/
  | due
  /-- Suspended by a forwarded trap (R304), with its cause. -/
  | suspended (cause : BitVec 8)
  /-- Ended, its dump not yet released (R306). -/
  | dumped
  deriving DecidableEq, Repr

/-- An accepted node. -/
structure Node where
  /-- Its name. -/
  id : NodeId
  /-- Stand entry number. -/
  entry : BitVec 12
  /-- The descriptor as accepted. -/
  desc : Desc
  /-- Root table (R107). -/
  root : Nat
  /-- Where it stands. -/
  st : NodeSt
  /-- Its cores, in ascending order: gang ranks (R29). -/
  cores : List CoreId
  /-- Watches w0 to w7 (R190). -/
  watch : Vector (Option Watch) 8
  /-- It has been relaunched once under IDEM (R306). -/
  relaunched : Bool
  /-- Imprecise watch stop due, and the count of matches that came while one was pending (R329). -/
  imprecise : Option (TrapRec × Nat)
  /-- Saves of its cores in the Ostler's save arena, while it is switched out (R312). -/
  saves : List (CoreId × Saved)
  /-- The dump of its cores, until the host driver releases it (R306). -/
  dump : List (CoreId × Saved)
  /-- A notice of its being due has been sent for this stay (R64). -/
  noticed : Bool
  /-- Timer values for capture (R340): placement. -/
  tstart : Nat
  /-- Where the capture ring holds the first record of the descriptor copy and of the latest input snapshot (R340). -/
  dpa : Option Nat := none
  /-- See `dpa`. -/
  spa : Option Nat := none
  /-- Its place in the order in which the nodes of its die became ready (R49). -/
  readyNo : Nat
  /-- Since when it has been ready with no cluster of its die that could hold it (R53). -/
  stuck : Option Nat
  deriving DecidableEq, Repr

/-- A dependence counter (R47). -/
structure Counter where
  /-- Index within its die's Stand. -/
  idx : BitVec 14
  /-- Value, signed 24 bits. -/
  value : Int
  /-- The node it is bound to. -/
  bound : Option NodeId
  /-- The dray packets that have decremented it since it was last bound, for capture (R340). -/
  seen : List (List Byte) := []
  deriving DecidableEq, Repr

/-- 128 bytes of a captured copy that wait for two slots of the capture ring (R340). -/
structure CapPiece where
  /-- The node. -/
  n : NodeId
  /-- 0 descriptor, 1 snapshot, 3 dray packet. -/
  kind : Fin 4
  /-- It is the first of its copy. -/
  first : Bool
  /-- Its bytes. -/
  data : List Byte
  deriving DecidableEq, Repr

/-- What a compute die holds (R20, R21). -/
structure DieSt where
  /-- Counters that are bound or not 0. -/
  counters : List Counter
  /-- The Stand's STRAY status bit (R48). -/
  stray : Bool
  /-- Next TASK number. -/
  nextTask : BitVec 32
  /-- Nodes that have become ready so far: the order of R49. -/
  readied : Nat
  /-- Gangs that have been reported unplaceable (R53). -/
  reported : List NodeId
  /-- The Ostler's trap queue, oldest first (R301). -/
  trapQ : List TrapRec
  /-- Records that the Ostler forwards to the host trap queue, oldest first (R304, R347). -/
  fwd : List TrapRec
  /-- Ostler firmware digest (R366, R367). -/
  fw : BitVec 256
  /-- Timer value up to which new Ostler firmware is being installed (R367). -/
  install : Nat
  /-- Clock step (R21). -/
  step : Fin 15
  /-- A requested step (R23). -/
  wantStep : Option (Fin 15)
  /-- A step asked for while another change was under way. -/
  nextStep : Option (Fin 15) := none
  /-- The die's clock stands still. -/
  stoppedClk : Bool
  /-- Timer value at which it last stopped. -/
  stoppedAt : Nat
  /-- Cycles of the die's clock so far (R21). -/
  cycle : Nat
  /-- Precision mode (R363). -/
  precision : Bool
  deriving DecidableEq, Repr

/-- A Mangle record (R279, R280). -/
structure Rec where
  /-- ROW. -/
  row : BitVec 24
  /-- COL or column block. -/
  col : BitVec 24
  /-- Stream. -/
  stream : Nat
  /-- Sequence number within the stream. -/
  seqn : BitVec 32
  /-- Poison. -/
  poison : Bool
  /-- Row record. -/
  isRow : Bool
  /-- One FP32 value, or 64 lanes. -/
  vals : List (BitVec 32)
  deriving DecidableEq, Repr

/-- A run of records in the buffer (R285). -/
structure Run where
  /-- Its stream, while open. -/
  stream : Nat
  /-- Still open. -/
  isOpen : Bool
  /-- Records in (key, STREAM, SEQ) order. -/
  recs : List Rec
  deriving DecidableEq, Repr

/-- A run written to the hamper (R286, R287). -/
structure HRun where
  /-- RUNID. -/
  id : Nat
  /-- Segment index. -/
  seg : Nat
  /-- Offset in its segment. -/
  off : Nat
  /-- A merge-pass output. -/
  merged : Bool
  /-- Consumed by a later pass. -/
  consumed : Bool
  /-- Its records. -/
  recs : List Rec
  deriving DecidableEq, Repr

/-- The states of a session, as MGSTAT item 7 codes them (R296). -/
inductive SessSt where
  | free | opened | closing | merging | stalled
  deriving DecidableEq, Repr

/-- A Mangle session slot (R278 to R290). -/
structure Session where
  /-- Open generation of the slot. -/
  gen : BitVec 16
  /-- Its state. -/
  st : SessSt
  /-- The opener's node and root table (R297). -/
  opener : Option NodeId
  /-- See `opener`. -/
  root : Nat
  /-- The core that opened it, whose grants its writes carry. -/
  by_ : CoreId
  /-- Descriptor VA, for FINAL. -/
  desc : W64
  /-- ROWPTR, COORD, VALS, HAMPER, HSIZE, DONE. -/
  rowptr : W64
  /-- See `rowptr`. -/
  coord : W64
  /-- See `rowptr`. -/
  vals : W64
  /-- See `rowptr`. -/
  hamper : W64
  /-- See `rowptr`. -/
  hsize : W64
  /-- See `rowptr`. -/
  done : W64
  /-- DONEADD. -/
  doneadd : BitVec 24
  /-- ROWS. -/
  rows : Nat
  /-- OUTCAP. -/
  outcap : Nat
  /-- CAP in record places. -/
  cap : Nat
  /-- SMASK. -/
  smask : BitVec 48
  /-- SCTL. -/
  sctl : W64
  /-- Streams ended. -/
  ended : BitVec 48
  /-- Records accepted per stream. -/
  seqs : Vector Nat 48
  /-- Buffered runs, oldest first. -/
  runs : List Run
  /-- Runs in the hamper. -/
  hruns : List HRun
  /-- Segments of the hamper: VA and size; segment 0 first. -/
  segs : List (W64 × W64)
  /-- Write position in the current segment. -/
  wpos : Nat
  /-- Status word bits (R290). -/
  status : BitVec 11
  /-- Records accepted, discarded, output. -/
  accepted : Nat
  /-- See `accepted`. -/
  discarded : Nat
  /-- See `accepted`. -/
  output : Nat
  /-- Spills asked for and not yet made (R286). -/
  wantSpill : Nat
  /-- The hamper's header is still to be written (R292). -/
  header : Bool
  /-- Records that its present pass has emitted (R285). -/
  emitted : Nat
  /-- The trap the Ostler has in hand for the session (R288): a spill that found no room, or a refused write. -/
  waiting : Option TrapRec
  deriving DecidableEq, Repr

/-- A landing unit of a multicast on its way through a broadcast tree (R126). -/
structure TreeUnit where
  /-- Cycles until it lands. -/
  left : Nat
  /-- The issuing core. -/
  k : CoreId
  /-- The command, by its sequence number. -/
  seqn : BitVec 24
  /-- Group. -/
  group : BitVec 8
  /-- Bank offset. -/
  off : Nat
  /-- Its bytes, each with its poison. -/
  data : List (Byte × Bool)
  deriving DecidableEq, Repr

/-- What a cluster holds (R19). -/
structure ClusterSt where
  /-- Mangle session slots. -/
  sess : Vector Session 8
  /-- Reservation of a gang (R53). -/
  reserved : Option NodeId
  /-- DEC-TED in force, since this timer value (R99). -/
  dected : Option Nat
  /-- Core whose fold the fold engine performs (R229). -/
  folding : Option CoreId
  /-- Logical-to-physical core map (R10). -/
  phys : Vector (Fin 48) 48
  /-- Merge cores fenced (R321). -/
  fenced : List (Fin 48)
  /-- No MGOPEN until a merge core's test ends (R321). -/
  noOpen : Bool
  /-- The cluster's TLB of 2,048 entries, most recent first (R19). -/
  tlb : List TlbEnt
  /-- The broadcast tree. -/
  tree : List TreeUnit
  /-- Units that the four dray engines have read or landed in the present cycle. -/
  moved : Nat
  /-- Records that the Mangle can still emit in the present cycle (R19, R285). -/
  emit : Nat
  /-- The queue from which each dray engine has taken its latest packet (R203). -/
  turn : Vector PA 4
  deriving DecidableEq, Repr

/-- An open group (R55): its domain and the barrier episodes completed. -/
structure Group where
  /-- Group id. -/
  id : BitVec 8
  /-- Domain. -/
  domain : List CoreId
  deriving DecidableEq, Repr

/-- What the Ostler records of a queue's owner (R203). -/
structure Owner where
  /-- IDS. -/
  ids : W64
  /-- Core whose cluster and banks count as the owner's. -/
  core : CoreId
  /-- GRANT. -/
  grant : W64
  /-- Group ids. -/
  groups : List (BitVec 8)
  /-- Rights CTRL[15:12]. -/
  rights : BitVec 4
  deriving DecidableEq, Repr

/-- A chunk of a collective (R359): its number, one word for each element, and poison. -/
structure Chunk where
  /-- Chunk number. -/
  i : Nat
  /-- Elements: FP32 or INT32 words, or, of a result in BF16, its codes. -/
  words : List (BitVec 32)
  /-- Poisoned. -/
  poison : Bool
  deriving DecidableEq, Repr

/-- A packet in progress (R206). -/
structure Packet where
  /-- Index of its first slot. -/
  idx : Nat
  /-- Its bytes: 64 for each slot. -/
  bytes : List Byte
  /-- The copy, for COPY. -/
  job : Option CopyJob
  /-- The gather, for GATHER. -/
  gjob : Option GatherJob
  /-- Work other than a copy's or a gather's has been done, or, for REDUCE, begun. -/
  worked : Bool
  /-- Status bits for STAT (R204), apart from FAULT. -/
  stat : BitVec 32
  /-- The deferred faults due at completion, one of each cause. -/
  deferred : List TrapRec
  /-- Timer value from which the absence of a participant is counted (R360). -/
  since : Nat
  /-- The absence has been reported. -/
  told : Bool
  /-- Partials of a collective forwarded so far. -/
  chunks : List Chunk
  /-- Results of a collective, which are written when all have come. -/
  results : List Chunk
  /-- NODE of the first poisoned contribution. -/
  origin : Option (BitVec 16)
  /-- A link was lost during the collective. -/
  lost : Bool
  /-- Packets of the collective differ. -/
  mismatch : Bool
  /-- Partials of a collective that have arrived and wait for this module's contribution. -/
  got : List Chunk := []
  /-- The dray engine that works on it (R203); none while the queue is suspended, and until one is free again. -/
  eng : Option (Fin 4) := none
  deriving DecidableEq, Repr

/-- Where a packet was appended by a word of its queue's owner: the launch site of what becomes of it (R331). -/
structure QSite where
  /-- Index of the packet's first slot. -/
  idx : Nat
  /-- The core. -/
  k : CoreId
  /-- The sequencer. -/
  q : Seq
  /-- PC of the DQAPP. -/
  pc : VA
  deriving DecidableEq, Repr

/-- The Ostler's and engines' own state of a dray queue (R202, R203); its descriptor stands in memory. -/
structure DrayQ where
  /-- PA of the descriptor. -/
  pa : PA
  /-- The owner; none for MGMT = 1, and before the Ostler has recorded it. -/
  owner : Option Owner
  /-- Packets in progress, in queue order. -/
  pkts : List Packet
  /-- The FENCE that holds the parser: its index and bytes (R212). -/
  fence : Option (Nat × List Byte)
  /-- Timer value at which the parser began its present wait (R206, R212). -/
  waitSince : Option Nat
  /-- The wait of a FENCE has been reported. -/
  told : Bool
  /-- Launch sites of the packets that the owner's own words have appended. -/
  sites : List QSite := []
  deriving DecidableEq, Repr

/-- Another module's bank as this module knows it: the group ids its current task holds (R355). -/
structure PeerBank where
  /-- NODE. -/
  node : BitVec 10
  /-- Device-space bits [38:27]: die, cluster, core. -/
  bank : BitVec 12
  /-- Groups of the bank's current task. -/
  groups : List (BitVec 8)
  deriving DecidableEq, Repr

/-- A Hitch port (R352, R353). -/
structure HitchPort where
  /-- Lost. -/
  lost : Bool
  /-- Expected link sequence number. -/
  num : BitVec 32
  /-- The spare lane is used. -/
  spared : Bool
  /-- Runs on 4 lanes. -/
  halved : Bool
  /-- A flit is being replayed since this timer value. -/
  replay : Option Nat
  deriving DecidableEq, Repr

/-- A pool range (R350). -/
structure PoolRange where
  /-- First PA. -/
  base : Nat
  /-- Length. -/
  size : Nat
  /-- Ports 1, 2, 4, 8 or 16, the first of them. -/
  first : Nat
  /-- Number of ports. -/
  ports : Nat
  /-- Granularity exponent g. -/
  gran : Nat
  deriving DecidableEq, Repr

/-- The control registers of BAR0 (R344). -/
structure HostCtl where
  /-- TQW. -/
  tqw : W64
  /-- TQR. -/
  tqr : W64
  /-- RQW. -/
  rqw : W64
  /-- RQR. -/
  rqr : W64
  /-- APBASE. -/
  apbase : W64
  /-- HERR. -/
  herr : W64
  deriving DecidableEq, Repr

/-- Items of the lifetime record (R341). -/
inductive LifeItem where
  /-- Corrected errors of a 64 KiB region of a bank. -/
  | corrected (k : CoreId) (region : Nat)
  /-- Corrected errors of a register file. -/
  | regCorrected (k : CoreId) (f : RegFile)
  /-- Uncorrectable errors of a bank. -/
  | uncorrectable (k : CoreId)
  /-- Poisonings of a bank. -/
  | poisonings (k : CoreId)
  /-- Uncorrectable errors of a register file. -/
  | regUncorrectable (k : CoreId) (f : RegFile)
  /-- Words of a register file that a save has found uncorrectable and poisoned in its window (R311). -/
  | regPoisonings (k : CoreId) (f : RegFile)
  /-- DEC-TED switches of a cluster. -/
  | dected (d : Die) (c : Cluster)
  /-- Milliseconds a cluster has spent in DEC-TED. -/
  | dectedMs (d : Die) (c : Cluster)
  /-- Cause of the last rollback of a core. -/
  | rollbackCause (k : CoreId)
  /-- Cause of the last segment mismatch of a core. -/
  | mismatchCause (k : CoreId)
  /-- Physical core last retired in a cluster. -/
  | retired (d : Die) (c : Cluster)
  /-- Rollbacks of a core. -/
  | rollbacks (k : CoreId)
  /-- Segment mismatches of a core. -/
  | mismatches (k : CoreId)
  /-- Spare promotions of a cluster. -/
  | promotions (d : Die) (c : Cluster)
  /-- Cores fenced. -/
  | fenced (k : CoreId)
  /-- Link retries of a Hitch port. -/
  | retries (p : Fin 16)
  /-- Lane sparings of a Hitch port. -/
  | sparings (p : Fin 16)
  /-- Link failures of a CXL port. -/
  | cxlRetries (p : Fin 24)
  /-- Lane sparings of a CXL port. -/
  | cxlSparings (p : Fin 24)
  /-- Seconds at a bin of the SRAM rail of a die. -/
  | railSeconds (d : Die) (b : Fin 16)
  /-- Seconds at a bin of the temperature of a die. -/
  | heatSeconds (d : Die) (b : Fin 16)
  /-- Seconds at a bin of the temperature of an I/O die (R8). -/
  | ioHeatSeconds (d : Fin 2) (b : Fin 16)
  /-- Seconds at a clock step of a die. -/
  | stepSeconds (d : Die) (k : Fin 15)
  deriving DecidableEq, Repr

/-- The parameters of an operation or event of the table: the parts of the machine and the values it concerns. Each uses
those its docstring in Syntax.lean names (a type of the model, not of the spec). (DESIGN CHOICE, log entry 9.) -/
structure EvArg where
  /-- A core. -/
  k : CoreId := ⟨0, 0, 0⟩
  /-- A sequencer. -/
  q : Seq := .c
  /-- A die. -/
  d : Die := 0
  /-- A cluster of the die. -/
  c : Cluster := 0
  /-- A Mangle session slot. -/
  j : Fin 8 := 0
  /-- A chain context. -/
  x : Fin 4 := 0
  /-- A node. -/
  n : NodeId := ⟨0, 0⟩
  /-- A physical address. -/
  pa : PA := 0
  /-- The owner of a copy. -/
  job : JobOwner := .core ⟨0, 0, 0⟩
  /-- Counts, indices and sizes. -/
  num : Nat := 0
  /-- See `num`. -/
  num2 : Nat := 0
  /-- 64-bit values. -/
  v : W64 := 0
  /-- See `v`. -/
  v2 : W64 := 0
  /-- A code. -/
  code : BitVec 8 := 0
  /-- Yes or no. -/
  yes : Bool := false
  /-- See `yes`. -/
  yes2 : Bool := false
  /-- Bytes. -/
  bytes : List Byte := []
  /-- Words. -/
  words : List W64 := []
  /-- A digest or nonce. -/
  digest : BitVec 256 := 0
  /-- What another module asks. -/
  op : RemoteOp := .load 0
  /-- A degraded mode. -/
  mode : Degraded := .precision 0
  deriving DecidableEq, Repr

/-- The state of the module. -/
structure State where
  /-- Power is on (R366, R341). -/
  powered : Bool
  /-- The module timer (R22). -/
  now : Nat
  /-- The core and sequencer whose turn is next. -/
  cur : CoreId × Seq
  /-- Operations and events that come before the next turn, oldest first. -/
  events : List (Instr × EvArg)
  /-- Accesses of the host and of other modules that a bank or a fold holds, oldest first (R94, R230, R345, R364). -/
  waiting : List (Instr × EvArg)
  /-- The parameters of the operation or event being performed (a field of the model, not of the spec). -/
  arg : EvArg
  /-- Free values used so far (a field of the model, not of the spec). -/
  free : Nat
  /-- Operations and events performed so far (a field of the model, not of the spec): those of one cycle that share a bank's ports are
  told apart by it (R17). -/
  serial : Nat
  /-- Cores that differ from a core at reset, each once. -/
  cores : List (CoreId × Core)
  /-- Bytes of pool memory, banks and save windows by physical address. -/
  mem : Memory
  /-- Dirty bytes held by the L2 (R91, R97, R98). -/
  l2 : Overlay
  /-- Bytes that the L2 holds clean and that a STREAM or DEVICE store has changed in pool memory since (R129). -/
  stale : Overlay
  /-- Sectors of pool memory that the L2 may hold clean: a CACHED access has brought their line in, and nothing has driven it out since
  (R97, R98, R100). -/
  resident : List Nat
  /-- Posts through event slots that a bank or a fold holds, oldest first: place, policy and amount (R94, R230, R364). -/
  posts : List (Nat × Policy × BitVec 24)
  /-- Poisoned 32-byte sectors, by number (R324). -/
  poison : List Nat
  /-- Sectors that hold a bit error not yet found: sector, and whether it is uncorrectable (R324, R327). -/
  ecc : List (Nat × Bool)
  /-- The four compute dies. -/
  dies : Vector DieSt 4
  /-- The 36 clusters, nine for each die. -/
  clusters : Vector ClusterSt 36
  /-- Accepted nodes, in order of acceptance. -/
  nodes : List Node
  /-- Open groups. -/
  groups : List Group
  /-- Dray queues. -/
  queues : List DrayQ
  /-- Registered map arenas (R112). -/
  arenas : List Nat
  /-- Control registers of BAR0. -/
  host : HostCtl
  /-- The tables of BAR0 by offset: format windows, routes, trap queue, requests, interrupts, collectives, lifetime. -/
  bar0 : Memory
  /-- MSI-X vectors raised, latest first (R346). -/
  irqs : List Nat
  /-- What the latest BAR0 or BAR2 read, AtomicOp or request answers the host. -/
  hostData : W64
  /-- Own NODE id (R343). -/
  nodeId : BitVec 10
  /-- Other modules' banks. -/
  peers : List PeerBank
  /-- Hitch ports. -/
  hitch : Vector HitchPort 16
  /-- 4 KiB pages of other modules with accesses in flight on an old route, by number, and the route-table entry that they still have
  (R354). -/
  oldRoutes : List (Nat × Nat)
  /-- CXL ports that have failed over (R351). -/
  cxlFailed : BitVec 24
  /-- CXL ports whose every path is lost (R351). -/
  cxlLost : BitVec 24
  /-- Pool ranges. -/
  pools : List PoolRange
  /-- Management firmware digest (R366). -/
  mgmtFw : BitVec 256
  /-- The latest attestation report (R369). -/
  report : List Byte
  /-- Counters of the lifetime record since the last write (R341). -/
  life : List (LifeItem × BitVec 32)
  /-- The nonvolatile store's copy, written every second (R341). -/
  lifeNv : List (LifeItem × BitVec 32)
  /-- The latest measurements of the module's draw in watts, latest first: 10 ms of them (R362). -/
  draws : List Nat
  /-- Measurements in succession with a mean below 3,000 W (R362). -/
  calm : Nat
  /-- Capture records written (R340): IDS, kind (0 descriptor, 1 snapshot, 2 node record, 3 dray packet) and bytes. -/
  capture : List (W64 × Fin 4 × List Byte)
  /-- What of them still waits for slots of the capture ring, in order. -/
  captureDue : List CapPiece
  /-- The capture ring's descriptor, where the host driver has named one (R340). -/
  captureRing : Option PA
  deriving DecidableEq, Repr

/-- Why the machine stops. -/
inductive Fault where
  /-- Raised by `step` for a turn of a module without power (POWER_LOSS, HOT_REMOVAL): no word issues until POWER_ON.
  Safe: the spec gives a module without power no step. -/
  | noPower
  deriving DecidableEq, Repr

/-- Why an instruction has no meaning here. -/
inductive Refusal where
  /-- Raised by an arm of `exec` whose instruction has no meaning yet, by mnemonic. Safe. -/
  | notModelled (mnemonic : String)
  deriving DecidableEq, Repr

/-- Nothing due at completion. -/
def Fin'.none : Fin' := { push := [], sig := [], unbound := false }

/-- A sequencer at reset: idle, every register zero (R27, R366 step 2). -/
def Seqr.reset : Seqr :=
  { run := .idle, pc := 0, stack := [], preds := 0, bt := .replicate 4 0, btAt := .replicate 4 0
    ln := .replicate 4 0, pfx := [], grpPc := none, grpSeg := (0, 0, 0), held := none, wait := none, paid := 0, stopped := none
    restart := false, stores := [], load := none, late := [], reads := [], issued := 0, bubbles := 0, mark := (0, 0), hold := 0, segCount := 0, segCrc := 0xFFFFFFFF#32
    started := false, trialCount := 0, trialBub := 0, monitor := none, woke := false, claim := none, latch := [], expand := (0, 0), skip := 0 }

/-- An unbound port. -/
def Port.unbound : Port := { cur := 0, stride := 0, mode := 0, fmt := 0, start := 0, tile := 0 }

/-- A closed fibre. -/
def Fibre.closed : Fibre :=
  { opened := false, cbase := 0, vbase := 0, len := 0, vstr := 0, vfmt := 0, cw := false, dense := false, pos := 0 }

/-- An unbound event slot. -/
def EventSlot.unbound : EventSlot := { addr := 0, arm := 0, add := 0, pa := 0, pol := .cached }

/-- An empty weight buffer (R235). -/
def WBuf.empty : WBuf := { rows := [], scales := [], fmt := 0, count := 0, poison := false }

/-- A chain context with this Adler-32 register, never kicked. -/
def Chain.never_ (adler : BitVec 32) : Chain :=
  { st := .never, entry := 0, adler := adler, img := [], job := none, met := false, pc := 0, q := .c, faults := [], fin := Fin'.none }

/-- The core block at reset: every register zero (R366 step 2). -/
def Regs.reset : Regs :=
  { s := .replicate 16 0, sOld := [], tb := { value := 0, owner := 0 }, tbOld := none
    port := .replicate 8 Port.unbound, fib := .replicate 8 Fibre.closed, ev := .replicate 16 EventSlot.unbound
    tok := .replicate 6 0, rsv := .replicate 6 0, fi := 0, ft := 0, wflags := 0, wfNow := 0, bufa := 0, bufb := 0
    q := .replicate 8 none, prog := .replicate 8 0 }

/-- A core's context at reset (R366 step 2). -/
def Ctx.reset : Ctx :=
  { c := Seqr.reset, m := Seqr.reset, v := Seqr.reset, t := Seqr.reset, regs := Regs.reset, tiles := [], full := 0
    lent := [], closing := [], landings := [], moves := [], acc := [], kind := 0, pois := 0, wact := WBuf.empty
    wshd := WBuf.empty, me := { w := .replicate 16 0, queue := [], seqn := 0, recs := [], pairs := 0, ended := [] }
    te := { w := .replicate 8 0, adler := 0, queue := [], seqn := 0, recs := [], pairs := 0, held := [] }
    chain := .replicate 4 (Chain.never_ 0), pins := 0, tmask := 0, accn := 0, regEcc := [] }

/-- An empty queue (R94). -/
def Fifo.empty : Fifo := { tail := 0, head := 0, ovf := false, ring := [], segs := [], declined := false }

/-- The phase from CODE to the first FLIP, which is never rollbackable (R316). -/
def Phase.first : Phase := { num := 0, rb := false, snap := none, tries := 0, missPc := none, told := none }

/-- Ports that have carried nothing. -/
def Ports.idle : Ports := { rd := 0, wr := 0, sectors := [], by_ := 0, rdBy := 0, wrBy := 0, sectorsBy := [], busy := 0 }

/-- A bank without repair: 32 spare rows (R364). -/
def Repair.none_ : Repair := { spare := 32, errs := [], darn := none, marked := false }

/-- A core at reset: no node, its bank in CACHE mode (R93, R366). -/
def Core.reset : Core :=
  { ctx := Ctx.reset, node := none, mode := .cache, drain := 0, withdrawn := false, fifo := Fifo.empty, version := [], whole := []
    phase := Phase.first, hook := none, hit := none
    saved := none, pend := [], preempt := none, yielding := false, haltLine := false, barr := [], serving := none
    inService := true, selfTest := false, halfArray := false
    trace := { tctl := 0, twp := 0, tlost := 0, slots := [], due := [] }, trial := none, tlb := [], scrub := 0, icache := []
    ports := Ports.idle, repair := Repair.none_, halted := false, drained := [], stood := 0 }

/-- A die at reset: every counter unbound and 0 (R47), the clock at the rated step (R21). -/
def DieSt.reset : DieSt :=
  { counters := [], stray := false, nextTask := 1, readied := 0, reported := [], trapQ := [], fwd := [], fw := 0, install := 0, step := 0, wantStep := none
    stoppedClk := false, stoppedAt := 0, cycle := 0, precision := false }

/-- A session slot at reset: GEN 0 (R278). -/
def Session.reset : Session :=
  { gen := 0, st := .free, opener := none, root := 0, by_ := ⟨0, 0, 0⟩, desc := 0, rowptr := 0, coord := 0, vals := 0
    hamper := 0, hsize := 0, done := 0, doneadd := 0, rows := 0, outcap := 0, cap := 0, smask := 0, sctl := 0
    ended := 0, seqs := .replicate 48 0, runs := [], hruns := [], segs := [], wpos := 0, status := 0, accepted := 0
    discarded := 0, output := 0, wantSpill := 0, header := false, emitted := 0, waiting := none }

/-- A cluster at reset: both spares to hand (R10). The spec gives the core map no reset value; the model takes the identity.
(DESIGN CHOICE, log entry 1.) -/
def ClusterSt.reset : ClusterSt :=
  { sess := .replicate 8 Session.reset, reserved := none, dected := none, folding := none
    phys := Vector.ofFn fun i => i, fenced := [], noOpen := false, tlb := [], tree := [], moved := 0, emit := 6, turn := .replicate 4 0 }

/-- A Hitch port at reset. -/
def HitchPort.reset : HitchPort := { lost := false, num := 0, spared := false, halved := false, replay := none }

/-- The module right after bring-up (R366): storage zero, every queue disabled, every group closed, the route table
invalid, every counter unbound, BAR0 at its reset values (R344). (DESIGN CHOICE, log entry 1.) -/
def State.reset : State :=
  { powered := true, now := 0, cur := (⟨0, 0, 0⟩, .c), events := [], waiting := [], arg := {}, free := 0, serial := 0, cores := [], mem := [], l2 := [], stale := [], resident := [], posts := []
    poison := [], ecc := [], dies := .replicate 4 DieSt.reset, clusters := .replicate 36 ClusterSt.reset, nodes := []
    groups := [], queues := [], arenas := []
    host := { tqw := 0, tqr := 0, rqw := 0, rqr := 0, apbase := 0, herr := 0 }, bar0 := [], irqs := [], hostData := 0
    nodeId := 0, peers := [], hitch := .replicate 16 HitchPort.reset, cxlFailed := 0
    pools := [{ base := 0, size := 2 ^ 51, first := 0, ports := 16, gran := 0 }], cxlLost := 0, oldRoutes := [], mgmtFw := 0, report := [], life := []
    lifeNv := [], draws := [], calm := 0, capture := [], captureDue := [], captureRing := none }

end Sys2Proof.Machine
end

