-- ==== Sys2Proof/Machine/Ops.lean ====
section
/-! DEFINITION. The named operations over the state: reading and replacing its parts, the physical memory with its L2 and
versions, poison, translation and the access checks, signals, tokens, fare, trace, and taking a trap with the return
from it. -/

namespace Sys2Proof.Machine

/-! ### Names -/

/-- The code of a sequencer (R302). -/
def seqCode (q : Seq) : Nat :=
  match q with
  | .c => 0
  | .m => 1
  | .v => 2
  | .t => 3

/-- The sequencer of a code. -/
def seqOf (n : Nat) : Seq :=
  match n % 4 with
  | 0 => .c
  | 1 => .m
  | 2 => .v
  | _ => .t

/-- The core identifier (R13). -/
def cid (k : CoreId) : BitVec 12 := BitVec.ofNat 12 (k.die.val * 1024 + k.cluster.val * 64 + k.core.val)

/-- A merge core (R9). -/
def isMerge (k : CoreId) : Bool := 42 ≤ k.core.val

/-- A service spare's logical number (R10). -/
def isSpare (k : CoreId) : Bool := k.core.val == 40 || k.core.val == 41

/-- Two cores of one cluster. -/
def sameCluster (a b : CoreId) : Bool := a.die == b.die && a.cluster == b.cluster

/-- Index of a cluster in the module. -/
def clusterIx (d : Die) (c : Cluster) : Fin 36 := ⟨d.val * 9 + c.val, by have := d.isLt; have := c.isLt; omega⟩

/-- A core named by a core identifier's fields, where they name one (R14). -/
def coreOf (d c k : Nat) : Option CoreId :=
  if hd : d < 4 then if hc : c < 9 then if hk : k < 48 then some ⟨⟨d, hd⟩, ⟨c, hc⟩, ⟨k, hk⟩⟩ else none else none
  else none

/-! ### Parts of the state -/

/-- The core of an identifier in a list; one that is not listed is at reset. -/
def lookupCore (cs : List (CoreId × Core)) (k : CoreId) : Core :=
  match cs with
  | [] => Core.reset
  | (j, c) :: t => if j = k then c else lookupCore t k

/-- Replace the core of an identifier in a list. -/
def insertCore (cs : List (CoreId × Core)) (k : CoreId) (c : Core) : List (CoreId × Core) :=
  match cs with
  | [] => [(k, c)]
  | (j, d) :: t => if j = k then (k, c) :: t else (j, d) :: insertCore t k c

/-- A core. -/
def State.core (s : State) (k : CoreId) : Core := lookupCore s.cores k

/-- Replace a core. -/
def State.setCore (s : State) (k : CoreId) (c : Core) : State := { s with cores := insertCore s.cores k c }

/-- Change a core. -/
def State.modCore (s : State) (k : CoreId) (f : Core → Core) : State := s.setCore k (f (s.core k))

/-- A core's context. -/
def State.ctx (s : State) (k : CoreId) : Ctx := (s.core k).ctx

/-- Replace a core's context. -/
def State.setCtx (s : State) (k : CoreId) (x : Ctx) : State := s.modCore k fun c => { c with ctx := x }

/-- Change a core's context. -/
def State.modCtx (s : State) (k : CoreId) (f : Ctx → Ctx) : State := s.setCtx k (f (s.ctx k))

/-- A sequencer of a context. -/
def Ctx.seq (x : Ctx) (q : Seq) : Seqr :=
  match q with
  | .c => x.c
  | .m => x.m
  | .v => x.v
  | .t => x.t

/-- Replace a sequencer of a context. -/
def Ctx.setSeq (x : Ctx) (q : Seq) (r : Seqr) : Ctx :=
  match q with
  | .c => { x with c := r }
  | .m => { x with m := r }
  | .v => { x with v := r }
  | .t => { x with t := r }

/-- A sequencer. -/
def State.seq (s : State) (k : CoreId) (q : Seq) : Seqr := (s.ctx k).seq q

/-- Replace a sequencer. -/
def State.setSeq (s : State) (k : CoreId) (q : Seq) (r : Seqr) : State := s.setCtx k ((s.ctx k).setSeq q r)

/-- Change a sequencer. -/
def State.modSeq (s : State) (k : CoreId) (q : Seq) (f : Seqr → Seqr) : State := s.setSeq k q (f (s.seq k q))

/-- A core's registers. -/
def State.regs (s : State) (k : CoreId) : Regs := (s.ctx k).regs

/-- Change a core's registers. -/
def State.modRegs (s : State) (k : CoreId) (f : Regs → Regs) : State :=
  s.modCtx k fun x => { x with regs := f x.regs }

/-- Change a core's M engine. -/
def State.modMe (s : State) (k : CoreId) (f : MEngine → MEngine) : State := s.modCtx k fun x => { x with me := f x.me }

/-- Change a core's T engine. -/
def State.modTe (s : State) (k : CoreId) (f : TEngine → TEngine) : State := s.modCtx k fun x => { x with te := f x.te }

/-- A die. -/
def State.die (s : State) (d : Die) : DieSt := s.dies[d.val]

/-- Change a die. -/
def State.modDie (s : State) (d : Die) (f : DieSt → DieSt) : State := { s with dies := vput s.dies d (f (s.die d)) }

/-- A cluster. -/
def State.cluster (s : State) (d : Die) (c : Cluster) : ClusterSt := s.clusters[(clusterIx d c).val]

/-- Change a cluster. -/
def State.modCluster (s : State) (d : Die) (c : Cluster) (f : ClusterSt → ClusterSt) : State :=
  { s with clusters := vput s.clusters (clusterIx d c) (f (s.cluster d c)) }

/-- An accepted node by name. -/
def State.node (s : State) (n : NodeId) : Option Node := s.nodes.find? fun x => x.id == n

/-- Change a node. -/
def State.modNode (s : State) (n : NodeId) (f : Node → Node) : State :=
  { s with nodes := s.nodes.map fun x => if x.id = n then f x else x }

/-- Remove a node. -/
def State.dropNode (s : State) (n : NodeId) : State := { s with nodes := s.nodes.filter fun x => x.id != n }

/-- The node a core runs. -/
def State.nodeOf (s : State) (k : CoreId) : Option Node :=
  match (s.core k).node with
  | some n => s.node n
  | none => none

/-- Bits [hi:lo] of a natural number. -/
def bitsOf (v hi lo : Nat) : Nat := v / 2 ^ lo % 2 ^ (hi + 1 - lo)

/-- Put an operation or event on the event list, to come before the next turn. -/
def State.enqueue (s : State) (i : Instr) (a : EvArg) : State := { s with events := s.events ++ [(i, a)] }

/-- The next free value and the state after taking it (log entry 2). -/
def State.fresh (s : State) : W64 × State := (Config.freeValue s.free, { s with free := s.free + 1 })

/-- A pick below a bound. -/
def State.pick (s : State) (n : Nat) : Nat × State := (Config.pick s.free % n, { s with free := s.free + 1 })

/-! ### Node rights and identities -/

/-- A node's rights CTRL[18:12] (R178). -/
def Node.rights (n : Node) : BitVec 7 := n.desc.ctrl.extractLsb' 12 7

/-- PRIO (R42). -/
def Node.prio (n : Node) : Nat := bitsOf n.desc.ctrl.toNat 4 2

/-- GANG. -/
def Node.gang (n : Node) : Nat := bitsOf n.desc.ctrl.toNat 10 5

/-- KIND: 0 array, 1 merge, 2 any. -/
def Node.kind (n : Node) : Nat := bitsOf n.desc.ctrl.toNat 1 0

/-- State word NODE (R178). -/
def Node.nodeWord (n : Node) : BitVec 32 := BitVec.ofNat 32 (n.id.die.val * 2 ^ 30 + n.entry.toNat)

/-- IDS (R301). -/
def Node.ids (n : Node) : W64 := BitVec.ofNat 64 (n.id.task.toNat * 2 ^ 32 + n.nodeWord.toNat)

/-- The used GROUP entries (R41). -/
def usedGroups (gvalid : BitVec 4) (group : BitVec 32) : List (BitVec 8) :=
  (List.range 4).filterMap fun j => if gvalid.getLsbD j then some (group.extractLsb' (8 * j) 8) else none

/-- A node's group ids. -/
def Node.groups (n : Node) : List (BitVec 8) := usedGroups n.desc.gvalid n.desc.group

/-- Ostler privilege: nodes at priority 7 (R50, R305). -/
def State.ostler (s : State) (k : CoreId) : Bool :=
  match s.nodeOf k with
  | some n => n.prio == 7
  | none => false

/-- A right of CTRL[15:12] of the node on a core: bit 0 TOPR, 1 DBGR, 2 MAPR, 3 DEGR. -/
def State.right (s : State) (k : CoreId) (b : Nat) : Bool :=
  match s.nodeOf k with
  | some n => n.rights.getLsbD b
  | none => false

/-! ### Trace (R334 to R336) -/

/-- The place of a record among those of one TIME: C, M, V, T, then the engines (R336). -/
def TraceRec.rank (r : TraceRec) : Nat := if r.engine then 4 else r.seq.toNat

/-- Records of one TIME with a new one, in the order of R336. -/
def placeRecord (l : List TraceRec) (r : TraceRec) : List TraceRec :=
  match l with
  | [] => [r]
  | x :: t => if r.rank < x.rank then r :: x :: t else x :: placeRecord t r

/-- A trace record falls due, or counts as lost where its kind is not enabled. The records of a timer count are written at its end, in the
order of R336. (DEDUCED, log entry 30.) -/
def Trace.append (t : Trace) (r : TraceRec) : Trace :=
  if t.tctl.getLsbD (r.kind.toNat - 1) then { t with due := placeRecord t.due r }
  else { t with tlost := if t.tlost = BitVec.allOnes 64 then t.tlost else t.tlost + 1 }

/-- Write one record whole, and then count it in TWP (R336). -/
def Trace.write (t : Trace) (r : TraceRec) : Trace :=
  let i := t.twp.toNat % 512
  { t with twp := t.twp + 1, slots := (i, r) :: t.slots.filter fun y => y.1 != i }

/-- The records of a timer count are written (R336). -/
def Trace.publish (t : Trace) : Trace := { t.due.foldl Trace.write t with due := [] }

/-- A trace record of a core falls due. -/
def State.trace (s : State) (k : CoreId) (kind : BitVec 5) (q : Seq) (pc : VA) (seqn : BitVec 24) (row : BitVec 32)
    (val : W64) (engine : Bool := false) : State :=
  let r : TraceRec := { time := BitVec.ofNat 64 s.now, kind := kind, seq := BitVec.ofNat 2 (seqCode q), pc := pc,
                        seqn := seqn, row := row, val := val, engine := engine }
  s.modCore k fun c => { c with trace := c.trace.append r }

/-! ### Physical places -/

/-- Where an access goes (R91, R104). -/
inductive Target where
  /-- Pool memory under a policy. -/
  | pool (pa : Nat) (pol : Policy)
  /-- A bank of this module, save window included. -/
  | bank (k : CoreId) (off : Nat)
  /-- A control register of a core. -/
  | ctrl (k : CoreId) (off : Nat)
  /-- A multicast window. -/
  | mcast (g : BitVec 8) (off : Nat)
  /-- Another module, by physical address. -/
  | remote (pa : Nat)
  deriving DecidableEq, Repr

/-- The key of a bank byte in `mem`: its device-space address with NODE 0. -/
def bankKey (k : CoreId) (off : Nat) : Nat :=
  2 ^ 51 + k.die.val * 2 ^ 37 + k.cluster.val * 2 ^ 33 + k.core.val * 2 ^ 27 + off

/-- The key in `mem` of another module's byte. (DEDUCED, log entry 43.) -/
def remoteKey (pa : Nat) : Nat := 2 ^ 52 + pa

/-- The key in `mem` of a target; control registers and multicast windows have none of their own. -/
def Target.key (t : Target) : Nat :=
  match t with
  | .pool pa _ => pa
  | .bank k off => bankKey k off
  | .ctrl _ _ => 0
  | .mcast _ _ => 0
  | .remote pa => remoteKey pa

/-- A target moved up by n bytes. -/
def Target.add (t : Target) (n : Nat) : Target :=
  match t with
  | .pool pa pol => .pool (pa + n) pol
  | .bank k off => .bank k (off + n)
  | .ctrl k off => .ctrl k (off + n)
  | .mcast g off => .mcast g (off + n)
  | .remote pa => .remote (pa + n)

/-- The device-space PA of a bank byte of this module (R104). -/
def State.bankPa (s : State) (k : CoreId) (off : Nat) : Nat := bankKey k off + s.nodeId.toNat * 2 ^ 41

/-- BAR0 offset of the route table (R343). -/
def routeBase : Nat := 0x3000
/-- BAR0 offset of the format windows. -/
def windowBase : Nat := 0x2000

/-- A route-table entry (R354). -/
def State.route (s : State) (n : Nat) : Nat := s.bar0.readLE (routeBase + 8 * n) 8

/-- A route-table entry leads somewhere. -/
def leads (e : Nat) : Bool := e.testBit 16 && e % 65536 != 0

/-- NODE is in the route table (R105, R354). -/
def State.routed (s : State) (n : Nat) : Bool := leads (s.route n)

/-- The route that accesses to a device-space PA of another module take: a rewritten entry waits for those in flight to the page (R354). -/
def State.routeTo (s : State) (pa : Nat) : Nat := (s.oldRoutes.lookup (pa / 4096)).getD (s.route (bitsOf pa 50 41))

/-- A PA lies in a pool range (R350). -/
def State.inPool (s : State) (pa : Nat) : Bool := s.pools.any fun r => r.base ≤ pa && pa < r.base + r.size

/-- The port that leads to a place of a range: the range is interleaved over its ports from its base on (R350). (DEDUCED, log entry 44.) -/
def PoolRange.port (r : PoolRange) (pa : Nat) : Nat := r.first + (pa - r.base) / (256 * 2 ^ r.gran) % r.ports

/-- A place in pool memory to which every path is lost (R351). -/
def State.poolLost (s : State) (pa : Nat) : Bool := s.pools.any fun r => r.base ≤ pa && pa < r.base + r.size && s.cxlLost.getLsbD (r.port pa)

/-- A die's Ostler is having new firmware installed: traps are held (R367). -/
def State.installing (s : State) (d : Die) : Bool := decide (s.now < (s.die d).install)

/-- The access that is being performed is held: it is performed when it can be, after those held before it. -/
def State.holdAccess (s : State) (i : Instr) : State := { s with waiting := s.waiting ++ [(i, s.arg)] }

/-- What a physical address names; `none` is the not-present fate of R105 and R350. -/
def State.target (s : State) (pa : Nat) (pol : Policy) : Option Target :=
  if pa / 2 ^ 51 % 2 = 0 then (if s.inPool pa then some (.pool pa pol) else none)
  else
    let node := bitsOf pa 50 41
    let space := bitsOf pa 40 39
    let own := node == s.nodeId.toNat
    let far := if leads (s.routeTo pa) then some (Target.remote pa) else none
    if space = 3 ∨ bitsOf pa 26 21 ≠ 0 then none
    else if space = 2 then
      (if bitsOf pa 38 35 ≠ 0 then none else if own then some (.mcast (BitVec.ofNat 8 (bitsOf pa 34 27)) (bitsOf pa 20 0)) else far)
    else
      match coreOf (bitsOf pa 38 37) (bitsOf pa 36 33) (bitsOf pa 32 27) with
      | none => none
      | some k => if !own then far else if space = 0 then some (.bank k (bitsOf pa 20 0)) else some (.ctrl k (bitsOf pa 20 0))

/-! ### Format windows (R102, R103) -/

/-- An enabled format window. -/
structure Window where
  /-- First PA of the alias. -/
  alias_ : Nat
  /-- Blocks. -/
  nblk : Nat
  /-- Element format. -/
  fmt : Nat
  /-- Element storage. -/
  data : Nat
  /-- Scale bytes. -/
  scale : Nat
  deriving DecidableEq, Repr

/-- Window w, where it is enabled with a format of R102. -/
def State.window (s : State) (w : Nat) : Option Window :=
  let b := windowBase + 32 * w
  let ctl := s.bar0.readLE (b + 12) 4
  let f := ctl % 16
  if ctl.testBit 31 && 5 ≤ f && f ≤ 10 then
    some { alias_ := s.bar0.readLE b 8, nblk := s.bar0.readLE (b + 8) 4, fmt := f, data := s.bar0.readLE (b + 16) 8,
           scale := s.bar0.readLE (b + 24) 8 }
  else none

/-- The lowest-numbered enabled window whose alias holds a PA. -/
def State.windowAt (s : State) (pa : Nat) : Option Window :=
  if s.bar0 = [] then none
  else ((List.range 32).filterMap fun w => s.window w).find? fun w => w.alias_ ≤ pa && pa < w.alias_ + 64 * w.nblk

/-- The 64 alias bytes of a block: decoded under R84 and converted to BF16. -/
def windowBlock (m : Memory) (w : Window) (blk : Nat) : List Byte :=
  let bits := elemBits w.fmt
  let n := 4 * bits
  let sc := (m.read (w.scale + blk)).toNat
  let cs := unpackElems bits (m.readBytes (w.data + n * blk) n) 32
  packElems 16 (cs.map fun c => rnd (mxdq w.fmt sc c) bf16 0 true) 64

/-- Write 64 alias bytes of a block, encoded by MXQ (R83). -/
def windowEncode (m : Memory) (w : Window) (blk : Nat) (bs : List Byte) : Memory :=
  let bits := elemBits w.fmt
  let n := 4 * bits
  let vs := (unpackElems 16 bs 32).map fun c => decodeFloat bf16 c
  let (sc, cs, _) := mxq vs w.fmt
  (m.writeBytes (w.data + n * blk) (packElems bits cs n)).write (w.scale + blk) (BitVec.ofNat 8 sc)

/-- Put bytes into a list of bytes at an index. -/
def patchBytes (old : List Byte) (i : Nat) (bs : List Byte) : List Byte :=
  old.take i ++ bs ++ old.drop (i + bs.length)

/-- A byte of pool memory as the CXL controller answers (R103). -/
def State.poolByte (s : State) (pa : Nat) : Byte :=
  match s.windowAt pa with
  | none => s.mem.read pa
  | some w => (windowBlock s.mem w ((pa - w.alias_) / 64)).getD ((pa - w.alias_) % 64) 0

/-- Bytes written at the CXL controller, a block of an alias at a time; `fuel` bounds the blocks. -/
def State.poolWrite (s : State) (fuel : Nat) (pa : Nat) (bs : List Byte) : State :=
  match fuel with
  | 0 => s
  | fuel + 1 =>
    match bs with
    | [] => s
    | _ :: _ =>
      let n := min bs.length (64 - pa % 64)
      let part := bs.take n
      let s1 : State :=
        match s.windowAt pa with
        | none => { s with mem := s.mem.writeBytes pa part }
        | some w =>
          let blk := (pa - w.alias_) / 64
          let old := windowBlock s.mem w blk
          { s with mem := windowEncode s.mem w blk (patchBytes old ((pa - w.alias_) % 64) part) }
      State.poolWrite s1 fuel (pa + n) (bs.drop n)

/-! ### Poison (R324, R325) -/

/-- The sectors that [key, key + n) touches. -/
def sectorsOf (key n : Nat) : List Nat :=
  if n = 0 then [] else (List.range ((key + n - 1) / 32 + 1 - key / 32)).map fun i => key / 32 + i

/-- Some sector of the range is poisoned. -/
def State.poisoned (s : State) (key n : Nat) : Bool :=
  n != 0 && s.poison.any fun p => key / 32 ≤ p && p ≤ (key + n - 1) / 32

/-- The first poisoned sector of a range, or its first one. -/
def State.firstPoison (s : State) (key n : Nat) : Nat := ((sectorsOf key n).find? s.poison.contains).getD (key / 32)

/-- Poison every sector the range touches. -/
def State.setPoison (s : State) (key n : Nat) : State :=
  { s with poison := (sectorsOf key n).foldl (fun l p => if l.contains p then l else p :: l) s.poison }

/-- A store that covers all of a sector clears its poison. -/
def State.clearPoison (s : State) (key n : Nat) : State :=
  { s with poison := s.poison.filter fun p => !(key ≤ 32 * p && 32 * p + 32 ≤ key + n)
           ecc := s.ecc.filter fun p => !(key ≤ 32 * p.1 && 32 * p.1 + 32 ≤ key + n) }

/-! ### Monitors (R119) -/

/-- A write to a line reaches its home: every monitor on it is woken. -/
def Seqr.wake (r : Seqr) (key n : Nat) : Seqr :=
  match r.monitor with
  | some l => if key / 128 ≤ l ∧ l ≤ (key + n - 1) / 128 then { r with woke := true } else r
  | none => r

/-- Wake every monitor on the lines of a range. -/
def State.wakeLines (s : State) (key n : Nat) : State :=
  { s with cores := s.cores.map fun (k, c) =>
      (k, { c with ctx := { c.ctx with c := c.ctx.c.wake key n, m := c.ctx.m.wake key n, v := c.ctx.v.wake key n,
                                       t := c.ctx.t.wake key n } }) }

/-! ### Homes (R91) -/

/-- A byte of pool memory as its home slice answers: what the L2 holds, over pool memory. -/
def State.sliceByte (s : State) (pa : Nat) : Byte :=
  match s.l2.find pa with
  | some b => b
  | none =>
    match s.stale.find pa with
    | some b => b
    | none => s.poolByte pa

/-- The bytes from an address, by a byte function. -/
def bytesFrom (f : Nat → Byte) (a n : Nat) : List Byte :=
  match n with
  | 0 => []
  | n + 1 => f a :: bytesFrom f (a + 1) n

/-- Bytes of an overlay at consecutive addresses within one 64-byte block. -/
def runsOf (o : Overlay) : List (Nat × List Byte) :=
  match o with
  | [] => []
  | (a, b) :: t =>
    match runsOf t with
    | (a', bs) :: rest => if a' = a + 1 ∧ a' % 64 ≠ 0 then (a, b :: bs) :: rest else (a, [b]) :: (a', bs) :: rest
    | [] => [(a, [b])]

/-- A byte of an overlay lies in a sector of [a, a + n). -/
def Overlay.touches (o : Overlay) (a n : Nat) : Bool := o.any fun c => decide (a / 32 ≤ c.1 / 32 ∧ c.1 / 32 ≤ (a + n - 1) / 32)

/-- Set bytes of an overlay. -/
def Overlay.setBytes (o : Overlay) (a : Nat) (bs : List Byte) : Overlay :=
  match bs with
  | [] => o
  | b :: t => Overlay.setBytes (o.set a b) (a + 1) t

/-- Trace registers of a core's control-register space, at Ostler and management privilege (R334), and the state of a
FIFO bank's queue (R95). Offsets that name nothing read zero. QSTAT of a bank that is not in FIFO mode, of which R95 says nothing, reads
zero: it has no segment. (DESIGN CHOICE, log entry 48.) SEGj is the j-th segment still linked: once an earlier one has been unlinked
the later ones move down, which R95 leaves open. (DESIGN CHOICE, log entry 48.) -/
def ctrlWord (c : Core) (off : Nat) : W64 :=
  let seg := fun j => match c.fifo.segs[j]? with
    | none => 0
    | some g => BitVec.ofNat 64 (g.size.toNat * 2 ^ 52 + g.base.toNat)
  if off = 0x10000 then c.fifo.tail
  else if off = 0x10008 then c.fifo.head
  else if off = 0x10010 then
    (if c.mode = .fifo then BitVec.ofNat 64 (1 + c.fifo.segs.length + (if c.fifo.ovf then 16 else 0)) else 0)
  else if 0x10020 ≤ off ∧ off < 0x10058 then seg ((off - 0x10020) / 8)
  else if off = 0x20000 then c.trace.tctl
  else if off = 0x20008 then c.trace.twp
  else if off = 0x20010 then c.trace.tlost
  else if 0x24000 ≤ off ∧ off < 0x28000 then
    match c.trace.slots.find? fun x => x.1 == (off - 0x24000) / 32 with
    | none => 0
    | some (_, r) =>
      match (off % 32) / 8 with
      | 0 => r.time
      | 1 => BitVec.ofNat 64 (r.kind.toNat * 2 ^ 59 + r.seq.toNat * 2 ^ 57 + r.pc.toNat)
      | 2 => BitVec.ofNat 64 (r.seqn.toNat * 2 ^ 40 + r.row.toNat)
      | _ => r.val
  else 0

/-- A byte of control-register space. -/
def ctrlByte (c : Core) (off : Nat) : Byte := (ctrlWord c (off / 8 * 8)).extractLsb' (8 * (off % 8)) 8

/-- A control register a task may read (R95). -/
def taskRegister (off : Nat) : Bool := 0x10000 ≤ off && off < 0x10080

/-- The `n` bytes at a target as its home answers, with no version (R91, R100). -/
def State.homeBytes (s : State) (t : Target) (n : Nat) : List Byte :=
  match t with
  | .pool pa .cached => bytesFrom s.sliceByte pa n
  | .pool pa _ => bytesFrom s.poolByte pa n
  | .ctrl k off => bytesFrom (ctrlByte (s.core k)) off n
  | .bank k off => s.mem.readBytes (bankKey k off) n
  | .remote pa => s.mem.readBytes (remoteKey pa) n
  | .mcast _ _ => List.replicate n 0

/-- The `n` bytes at a target as a core sees them: its own version first (R116). -/
def State.viewBytes (s : State) (k : CoreId) (t : Target) (n : Nat) : List Byte :=
  match t with
  | .pool pa .cached =>
    bytesFrom (fun a => match (s.core k).version.find a with | some b => b | none => s.sliceByte a) pa n
  | _ => s.homeBytes t n

/-- A write of TCTL: its writable bits, with TWP and TLOST at 0 (R334); records made before it are written before it. -/
def State.writeTctl (s : State) (k : CoreId) (v : W64) : State :=
  s.modCore k fun c => { c with trace := { c.trace.publish with tctl := v &&& 0x1F07FF, twp := 0, tlost := 0 } }

/-- The dirty bytes of one 64-byte block as the CXL controller takes them from the L2: what of a window's block is dirty is merged into it,
and the block is encoded once (R103). -/
def State.writeBlock (s : State) (b : Nat) (cells : Overlay) : State :=
  match s.windowAt (64 * b) with
  | none => { s with mem := cells.foldl (fun m c => m.write c.1 c.2) s.mem }
  | some w =>
    let blk := (64 * b - w.alias_) / 64
    { s with mem := windowEncode s.mem w blk (cells.foldl (fun l c => l.set (c.1 % 64) c.2) (windowBlock s.mem w blk)) }

/-- Dirty bytes are written back to pool memory, a block at a time (R91, R103). -/
def State.writeBack (s : State) (out : Overlay) : State :=
  ((out.map fun c => c.1 / 64).dedup).foldl (fun s b => s.writeBlock b (out.filter fun c => c.1 / 64 == b)) s

/-- The sectors of [a, a + n) leave the L2: dirty bytes are written back to pool memory, clean ones dropped (R91, R98). -/
def State.evict (s : State) (a n : Nat) : State :=
  let within := fun p : Nat => decide (a / 32 ≤ p ∧ p ≤ (a + n - 1) / 32)
  let out := s.l2.filter fun c => within (c.1 / 32)
  ({ s with l2 := s.l2.filter (fun c => !within (c.1 / 32)), stale := s.stale.filter fun c => !within (c.1 / 32)
            resident := s.resident.filter fun p => !within p } : State).writeBack out

/-- The sectors of the 128-byte lines that n bytes at a place touch. -/
def lineSectors (pa n : Nat) : List Nat := if n = 0 then [] else sectorsOf (pa / 128 * 128) (((pa + n - 1) / 128 + 1) * 128 - pa / 128 * 128)

/-- A CACHED access brings the lines it misses into the L2 (R100). -/
def State.allocate (s : State) (pa n : Nat) : State :=
  { s with resident := (lineSectors pa n).foldl (fun l p => if l.contains p then l else p :: l) s.resident }

/-- Of these sectors, those that the L2 holds stay in it as they are while pool memory changes behind it: all of a dirty sector will be written
back, and a clean one stays readable (R129). Nothing is brought in (R100). -/
def State.keepSectors (s : State) (l : List Nat) : State :=
  match l with
  | [] => s
  | p :: t =>
    let a := 32 * p
    let bs := bytesFrom s.sliceByte a 32
    let dirty := s.l2.any fun c => c.1 / 32 == p
    State.keepSectors (if dirty then { s with l2 := s.l2.setBytes a bs }
                       else if s.resident.contains p then { s with stale := s.stale.setBytes a bs } else s) t

/-- Before an access at a home: whether the L2 has evicted what it held of the range is free where an access on the other path can
tell (R129); a CACHED access brings in the lines it misses (R100). -/
def State.meet (s : State) (t : Target) (n : Nat) : State :=
  let held := match t with
    | .pool pa .cached => s.stale.touches pa n
    | .pool pa _ => s.l2.touches pa n
    | _ => false
  let s := match t with
    | .pool pa .cached => s.allocate pa n
    | _ => s
  if n = 0 || !held then s
  else
    let out := Config.pick s.free % 2 = 0
    let s := { s with free := s.free + 1 }
    match t with
    | .pool pa .cached => if out then { s with stale := s.stale.filter fun c => !decide (pa / 32 ≤ c.1 / 32 ∧ c.1 / 32 ≤ (pa + n - 1) / 32) } else s
    | .pool pa _ => if out then s.evict pa n else s
    | _ => s

/-- Before a STREAM or DEVICE store: what the L2 holds of its sectors has been evicted, or stays (R129). -/
def State.meetStore (s : State) (pa n : Nat) : State :=
  let out := Config.pick s.free % 2 = 0
  let s := { s with free := s.free + 1 }
  if out then s.evict pa n else s.keepSectors (sectorsOf pa n)

/-- Write bytes at one home, with no version: poison of whole sectors is cleared and monitors wake. A control register is written by
stores of 8 bytes only: what a store of another size to TCTL does the spec leaves open, and it is dropped. (DESIGN CHOICE, log entry 54.) -/
def State.homeWrite (s : State) (t : Target) (bs : List Byte) : State :=
  let key := t.key
  let n := bs.length
  if n = 0 then s
  else
    match t with
    | .pool pa .cached => ((({ s with l2 := s.l2.setBytes pa bs } : State).allocate pa n).clearPoison key n).wakeLines key n
    | .pool pa _ => (((s.meetStore pa n).poolWrite (n + 1) pa bs).clearPoison key n).wakeLines key n
    | .bank _ _ => (({ s with mem := s.mem.writeBytes key bs } : State).clearPoison key n).wakeLines key n
    | .remote _ => (({ s with mem := s.mem.writeBytes key bs } : State).clearPoison key n).wakeLines key n
    | .ctrl k off => if off = 0x20000 ∧ n = 8 then s.writeTctl k (BitVec.ofNat 64 (leNat bs)) else s
    | .mcast _ _ => s

/-- A little-endian word at a target, as its home answers. -/
def State.homeWord (s : State) (t : Target) (n : Nat) : W64 := BitVec.ofNat 64 (leNat (s.homeBytes t n))

/-- The PA form of a target for tables that name homes by address. -/
def State.homeLE (s : State) (pa n : Nat) : Nat :=
  match s.target pa .cached with
  | some t => leNat (s.homeBytes t n)
  | none => 0

/-- Write a value at the home of a PA. -/
def State.homeSetLE (s : State) (pa n v : Nat) : State :=
  match s.target pa .cached with
  | some t => s.homeWrite t (leBytes n v)
  | none => s

/-! ### Versions (R116, R117) -/

/-- Runs of an overlay's bytes written into the L2. -/
def State.publish (s : State) (o : Overlay) : State :=
  match o with
  | [] => s
  | (a, b) :: t => State.publish { s with l2 := s.l2.set a b } t

/-- The sectors that a store of n bytes writes whole (R324). -/
def wholeSectors (a n : Nat) : List Nat := (sectorsOf a n).filter fun p => decide (a ≤ 32 * p) && decide (32 * p + 32 ≤ a + n)

/-- What an owner's node gives a queue that is created for it (R203). -/
def Node.owner (n : Node) : Owner :=
  { ids := n.ids, core := n.cores.headD ⟨n.id.die, 0, 0⟩, grant := n.desc.grant, groups := n.groups, rights := n.rights.extractLsb' 0 4 }

/-- CFG of a queue descriptor, at this PA, has been written by the Ostler or the management level (R202): where that makes an enabled
queue that is not on record, the queue is created, and the Ostler records its owner's details (R203); a CFG of 0 destroys it. For
which node a queue with MGMT = 0 is created stands in no descriptor: it is a free choice. (DESIGN CHOICE, log entry 41.) -/
def State.noteCfg (s : State) (pa : Nat) : State :=
  let cfg := s.homeLE pa 8
  let q := BitVec.ofNat 52 (pa - 8)
  let ring := s.homeLE (pa - 8) 8
  if cfg = 0 then { s with queues := s.queues.filter fun x => x.pa != q }
  else if cfg.testBit 11 && decide (4 ≤ cfg % 32) && decide (cfg % 32 ≤ 16) && ring % (64 * 2 ^ (cfg % 32)) == 0
      && !s.queues.any fun x => x.pa == q then
    let (i, s) := s.pick s.nodes.length
    let owner := if cfg.testBit 12 then none else (s.nodes[i]?).map Node.owner
    { s with queues := s.queues ++ [{ pa := q, owner := owner, pkts := [], fence := none, waitSince := none, told := false }] }
  else s

/-- A write of n bytes by the Ostler or the management level may have created queues. -/
def State.noteWrite (s : State) (t : Target) (pa n : Nat) : State :=
  match t with
  | .ctrl _ _ => s
  | .mcast _ _ => s
  | _ => (List.range (n / 64 + 1)).foldl (fun s i =>
      let a := (pa + 55) / 64 * 64 + 8 + 64 * i
      if decide (pa ≤ a) && decide (a + 8 ≤ pa + n) then s.noteCfg a else s) s

/-- Commit a core's version: every byte visible at once (R117). -/
def State.commit (s : State) (k : CoreId) : State :=
  let o := (s.core k).version
  if o = [] then s
  else
    let s := o.lines.foldl (fun s l => s.allocate (128 * l) 128) (s.publish o)
    let whole := (s.core k).whole
    let s := { s with poison := s.poison.filter fun p => !whole.contains p, ecc := s.ecc.filter fun p => !whole.contains p.1 }
    let s := o.lines.foldl (fun s l => s.wakeLines (128 * l) 128) s
    let s := if s.ostler k then (o.filter fun c => c.1 % 64 == 8).foldl (fun s c => s.noteCfg c.1) s else s
    s.modCore k fun c => { c with version := [], whole := [] }

/-- The current phase is no longer rollbackable (R316). -/
def State.escape (s : State) (k : CoreId) : State := s.modCore k fun c => { c with phase := { c.phase with rb := false } }

/-- A store into the core's version, with the early commit of R116. -/
def State.versionWrite (s : State) (k : CoreId) (pa : Nat) (bs : List Byte) : State :=
  let o := (s.core k).version
  let o' := o.setBytes pa bs
  let newLine := decide (o.lines.length < o'.lines.length)
  let full := decide (4096 < o'.lines.length) || (newLine && Config.versionFull s.free)
  let s := if newLine then { s with free := s.free + 1 } else s
  let w := wholeSectors pa bs.length
  if full then
    let s := (s.commit k).escape k
    s.modCore k fun c => { c with version := c.version.setBytes pa bs, whole := w }
  else s.modCore k fun c => { c with version := o', whole := (c.whole ++ w).dedup }

/-! ### Groups and grants -/

/-- An open group. -/
def State.group (s : State) (g : BitVec 8) : Option Group := s.groups.find? fun x => x.id == g

/-- The members of an open group: positions of placed or switched-out nodes that name it and whose core lies in its
domain (R55). -/
def State.members (s : State) (g : BitVec 8) : List (NodeId × CoreId) :=
  match s.group g with
  | none => []
  | some gr =>
    s.nodes.flatMap fun n =>
      if n.groups.contains g then (n.cores.filter gr.domain.contains).map fun k => (n.id, k) else []

/-- A position is on its core: it is not switched out. -/
def State.present (s : State) (p : NodeId × CoreId) : Bool := (s.core p.2).node == some p.1 && (s.core p.2).saved.isNone

/-- Who makes an access: what R43, R105 and R203 check. -/
structure Agent where
  /-- Root table. -/
  root : Nat
  /-- Own core. -/
  core : CoreId
  /-- GRANT. -/
  grant : W64
  /-- Group ids. -/
  groups : List (BitVec 8)
  /-- Ostler or management privilege. -/
  priv : Bool
  deriving DecidableEq, Repr

/-- The agent of a core's sequencers and engines. -/
def State.agent (s : State) (k : CoreId) : Agent :=
  match s.nodeOf k with
  | some n => { root := n.root, core := k, grant := n.desc.grant, groups := n.groups, priv := n.prio == 7 }
  | none => { root := 0, core := k, grant := 0, groups := [], priv := false }

/-- The group ids of the task that holds a bank now. -/
def State.bankGroups (s : State) (k : CoreId) : List (BitVec 8) :=
  match s.nodeOf k with
  | some n => n.groups
  | none => []

/-- A bank of this module lies within an agent's grants (R43). -/
def State.granted (s : State) (a : Agent) (k : CoreId) : Bool :=
  a.priv || a.core == k || (sameCluster a.core k && a.grant.getLsbD k.core.val)
    || (!sameCluster a.core k && a.grant.getLsbD 48 && a.groups.any (s.bankGroups k).contains)

/-- Another module's bank lies within an agent's grants (R355). -/
def State.grantedRemote (s : State) (a : Agent) (pa : Nat) : Bool :=
  a.priv || (a.grant.getLsbD 48 && s.peers.any fun p =>
    p.node.toNat == bitsOf pa 50 41 && p.bank.toNat == bitsOf pa 38 27 && a.groups.any p.groups.contains)

/-! ### Traps as data -/

/-- What a trap records (R302, R303). -/
structure TrapInfo where
  /-- CODE. -/
  code : BitVec 8
  /-- CLASS. -/
  cls : BitVec 2 := 0
  /-- KIND. -/
  kind : BitVec 4 := 0
  /-- WR. -/
  wr : BitVec 4 := 0
  /-- ADDR. -/
  addr : W64 := 0
  /-- ROWP. -/
  rowp : W64 := 0
  /-- INFO. -/
  info : W64 := 0
  /-- WHO. -/
  who : W64 := 0
  deriving DecidableEq, Repr

/-- Why an access is not made now. -/
inductive Stop where
  /-- It traps. -/
  | trap (t : TrapInfo)
  /-- The bank is draining: a hold (R94). -/
  | hold
  /-- A fold barrier holds the range (R230). -/
  | fold (addr : W64)
  deriving DecidableEq, Repr

/-- 0x10, not present, with the level of the walk. -/
def notPresent (va : W64) (level : Nat) : TrapInfo := { code := 0x10, addr := va, info := BitVec.ofNat 64 level }

/-- 0x10, permission. -/
def noPermission (va : W64) (level : Nat) : TrapInfo :=
  { code := 0x10, kind := 1, addr := va, info := BitVec.ofNat 64 level }

/-- 0x03 with its reason: 0 privileged word, 1 grant, 2 save window, 3 bank mode, 4 footprint, 5 rights, 6 group. -/
def privilege (addr : W64) (reason : Nat) : TrapInfo := { code := 0x03, addr := addr, info := BitVec.ofNat 64 reason }

/-- 0x04, the offending operand. -/
def badOperand (v : W64) : TrapInfo := { code := 0x04, addr := v }

/-! ### Translation (R106 to R111) -/

/-- A leaf is valid at its level (R108). -/
def leafOk (level pte : Nat) : Bool :=
  let size := bitsOf pte 11 8
  match level with
  | 2 => size == 3 && bitsOf pte 29 12 == 0
  | 1 => size == 2 && bitsOf pte 20 12 == 0
  | 0 => size == 0 || (size == 1 && bitsOf pte 15 12 == 0)
  | _ => false

/-- The walk from a table at a level: the level it stopped at, or the leaf's level, the leaf and the PA it stands at. -/
def State.walk (s : State) (n : Nat) (table va : Nat) : Except Nat (Nat × Nat × Nat) :=
  match n with
  | 0 => .error 0
  | l + 1 =>
    let at_ := table + 8 * (va / 2 ^ (12 + 9 * l) % 512)
    let pte := s.homeLE at_ 8
    if !pte.testBit 0 then .error l
    else if pte.testBit 7 then (if leafOk l pte then .ok (l, pte, at_) else .error l)
    else if l = 0 then .error 0
    else State.walk s l (bitsOf pte 51 12 * 4096) va

/-- log2 of the page of a leaf. -/
def pageShift (level pte : Nat) : Nat :=
  match level with
  | 2 => 30
  | 1 => 21
  | _ => if bitsOf pte 11 8 = 1 then 16 else 12

/-- A TLB entry maps an address of a root table. -/
def TlbEnt.maps (e : TlbEnt) (root va : Nat) : Bool :=
  e.root == root && va / 2 ^ pageShift e.level e.pte.toNat == e.page

/-- The kinds of access. -/
inductive Acc where
  | load | store | atomic | fetch
  deriving DecidableEq, Repr

/-- The access writes. -/
def Acc.writes (x : Acc) : Bool :=
  match x with
  | .store => true
  | .atomic => true
  | _ => false

/-- The policy of a code; 3 is reserved (R100). -/
def policyOf (c : Nat) : Option Policy :=
  match c with
  | 0 => some .cached
  | 1 => some .stream
  | 2 => some .device
  | _ => none

/-- Translate an address of a root table: PA, policy and the TLB entry used, through a TLB (R106, R110). Of the 16 entries of a 64 KiB page,
should they differ, R109 lets an access use any; the model takes the VA's own one, or what a TLB holds. (DESIGN CHOICE, log entry 25.) -/
def State.translate (s : State) (root : Nat) (tlb : List TlbEnt) (va : W64) (x : Acc) :
    Except TrapInfo (Nat × Policy × Option TlbEnt) :=
  let a := va.toNat
  if 2 ^ 57 ≤ a then .error (notPresent va 0)
  else if bitsOf a 56 52 = 31 then
    (if bitsOf a 51 51 = 0 then .error (notPresent va 0) else .ok (bitsOf a 51 0, .device, none))
  else
    let leaf : Except Nat (Nat × Nat × Nat) :=
      match tlb.find? fun e => e.maps root a with
      | some e => .ok (e.level, e.pte.toNat, e.src)
      | none => s.walk 5 root a
    match leaf with
    | .error l => .error (notPresent va l)
    | .ok (l, pte, at_) =>
      let sh := pageShift l pte
      let pa := bitsOf pte 51 12 * 4096 / 2 ^ sh * 2 ^ sh + a % 2 ^ sh
      let ent : TlbEnt := { root := root, level := l, page := a / 2 ^ sh, pte := BitVec.ofNat 64 pte, src := at_ }
      if x.writes && pte.testBit 2 then .error { code := 0x10, kind := 2, addr := va, info := BitVec.ofNat 64 l }
      else if x.writes && !pte.testBit 1 then .error (noPermission va l)
      else
        match policyOf (bitsOf pte 5 4) with
        | none => if pa < 2 ^ 51 then .error (noPermission va l) else .ok (pa, .device, some ent)
        | some p => .ok (pa, if pa < 2 ^ 51 then p else .device, some ent)

/-- A TLB of `size` entries after one is used, most recent first (R18, R19). (DEDUCED, log entry 25.) -/
def fillTlb (size : Nat) (tlb : List TlbEnt) (e : Option TlbEnt) : List TlbEnt :=
  match e with
  | none => tlb
  | some e => (e :: tlb.filter (· != e)).take size

/-- Drop TLB entries, on every core and in every cluster (R110). -/
def State.dropTlb (s : State) (gone : TlbEnt → Bool) : State :=
  { s with cores := s.cores.map fun (k, c) => (k, { c with tlb := c.tlb.filter fun e => !gone e })
           clusters := s.clusters.map fun c => { c with tlb := c.tlb.filter fun e => !gone e } }

/-- A TLB entry of a root table maps some byte of a range. -/
def TlbEnt.covers (e : TlbEnt) (root va n : Nat) : Bool :=
  let sh := pageShift e.level e.pte.toNat
  e.root == root && decide (e.page * 2 ^ sh < va + n) && decide (va < (e.page + 1) * 2 ^ sh)

/-- Drop the TLB entries of a root table that map any byte of a range (R110). -/
def State.invalidateTlb (s : State) (root va n : Nat) : State := s.dropTlb fun e => e.covers root va n

/-- Drop the TLB entries that were filled from any of the 16 page-table entries of a unit, under whatever root and VA (R110). -/
def State.invalidateUnit (s : State) (pa : Nat) : State := s.dropTlb fun e => decide (pa ≤ e.src) && decide (e.src < pa + 128)

/-- The TLB entries a core's accesses may use: its own, then its cluster's (R18, R19). -/
def State.tlbOf (s : State) (k : CoreId) : List TlbEnt := (s.core k).tlb ++ (s.cluster k.die k.cluster).tlb

/-! ### Fold barriers (R230) -/

/-- The ranges that a queued or running fold of a core holds, as bank key and length; entries not performed hold none. -/
def Core.foldRanges (c : Core) : List (Nat × Nat) :=
  c.ctx.te.queue.flatMap fun cmd =>
    match cmd.op with
    | .fold j => j.src ++ j.dst
    | _ => []

/-- A fold barrier holds some byte of a bank range; it holds the issuing core's accesses too. -/
def State.foldHeld (s : State) (k : CoreId) (off n : Nat) : Bool :=
  let key := bankKey k off
  s.cores.any fun (j, c) => sameCluster j k && c.foldRanges.any fun (a, m) => decide (a < key + n ∧ key < a + m)

/-! ### Repair (R364) -/

/-- The row of a bank that is being darned holds some byte of a range. -/
def Repair.holds (r : Repair) (off n : Nat) : Bool :=
  match r.darn with
  | some (row, _) => decide (off < 1024 * row + 1024) && decide (1024 * row < off + n)
  | none => false

/-- A number of corrected errors of a row is counted; past the management threshold the row is darned, or, with no spare row left, the
core is marked for promotion. `hold` is the length of the hold, 1 to 64 cycles. -/
def Repair.count (r : Repair) (row n hold : Nat) : Repair :=
  let m := (match r.errs.find? fun e => e.1 == row with | some e => e.2 | none => 0) + n
  let r := { r with errs := (row, m) :: r.errs.filter fun e => e.1 != row }
  if m ≤ Config.darnThreshold ∨ r.darn.isSome then r
  else if r.spare = 0 then { r with marked := true }
  else { r with darn := some (row, hold) }

/-- Corrected errors of a bank are counted against its row (R364). -/
def State.countRow (s : State) (k : CoreId) (off n : Nat) : State :=
  if n = 0 ∨ 0x1C0000 ≤ off then s
  else
    let hold := Config.pick s.free % 64 + 1
    ({ s with free := s.free + 1 }).modCore k fun c => { c with repair := c.repair.count (off / 1024) n hold }

/-- The next row that has passed the threshold is darned, while there is a spare row; `hold` is the length of its hold (R364). -/
def Repair.next (r : Repair) (hold : Nat) : Repair :=
  match r.errs.find? fun e => decide (Config.darnThreshold < e.2) with
  | some e => if r.spare = 0 then { r with marked := true } else { r with darn := some (e.1, hold) }
  | none => r

/-- A cycle of a darning: when its hold ends the spare row stands in the row's place, with the row's bytes corrected, and with the last spare row
the core is marked for promotion (R364). A row that has passed the threshold meanwhile is darned then. -/
def Repair.tick (r : Repair) (hold : Nat) : Repair :=
  match r.darn with
  | some (row, n + 1) =>
    if n = 0 then
      ({ r with darn := none, spare := r.spare - 1, errs := r.errs.filter (fun e => e.1 != row), marked := r.marked || decide (r.spare ≤ 1) } :
        Repair).next hold
    else { r with darn := some (row, n) }
  | _ => r

/-- A bank holds an access to some byte of a range of its proper: it drains, the row is being darned, or a fold barrier holds the range
(R94, R230, R364). -/
def State.bankHolds (s : State) (k : CoreId) (off n : Nat) : Bool :=
  decide (off < 0x1C0000) && (decide (0 < (s.core k).drain) || (s.core k).repair.holds off n || s.foldHeld k off n)

/-- An access at a target is held by its bank. -/
def State.holds (s : State) (t : Target) (n : Nat) : Bool :=
  match t with
  | .bank k off => s.bankHolds k off n
  | _ => false

/-! ### A bank's ports (R17) -/

/-- The ports as an operation or event finds them. -/
def Ports.forEvent (p : Ports) (ev : Nat) : Ports :=
  if p.by_ = ev then p
  else { rd := p.rd + p.rdBy, wr := p.wr + p.wrBy, sectors := p.sectors ++ p.sectorsBy, by_ := ev, rdBy := 0, wrBy := 0, sectorsBy := []
         busy := p.busy }

/-- A bank's ports can carry engine traffic of an event now: no save keeps them; 256 bytes a cycle in each direction, or one larger access
alone; and a sector that was read in this cycle is written in a later one, so that the write of a cycle comes first. (DEDUCED, log entry
55.) -/
def Ports.allow (p : Ports) (ev n : Nat) (secs : List Nat) (write : Bool) : Bool :=
  let p := p.forEvent ev
  p.busy == 0
    && (if write then (p.wr == 0 || decide (p.wr + p.wrBy + n ≤ 256)) && secs.all fun x => !p.sectors.contains x
        else p.rd == 0 || decide (p.rd + p.rdBy + n ≤ 256))

/-- The ports after an access of an event. -/
def Ports.carry (p : Ports) (ev n : Nat) (secs : List Nat) (write : Bool) : Ports :=
  let p := p.forEvent ev
  if write then { p with wrBy := p.wrBy + n } else { p with rdBy := p.rdBy + n, sectorsBy := p.sectorsBy ++ secs }

/-- A cycle of the ports ends: what they have taken on beyond 256 bytes in a direction takes up the cycles to come. -/
def Ports.endCycle (p : Ports) : Ports :=
  { Ports.idle with rd := p.rd + p.rdBy - 256, wr := p.wr + p.wrBy - 256, busy := p.busy - 1 }

/-- The banks that pieces of an access reach, each with the bytes and the sectors there. -/
def bankUses (l : List (Target × Nat)) : List (CoreId × Nat × List Nat) :=
  let ks := (l.filterMap fun p => match p.1 with | .bank k _ => some k | _ => none).dedup
  ks.map fun k =>
    let own := l.filterMap fun p => match p.1 with | .bank j off => if j = k then some (off, p.2) else none | _ => none
    (k, (own.map fun x => x.2).sum, own.flatMap fun x => sectorsOf (bankKey k x.1) x.2)

/-- The ports of every bank that pieces of an engine's access reach can carry them now. -/
def State.portsAllow (s : State) (l : List (Target × Nat)) (write : Bool) : Bool :=
  (bankUses l).all fun x => (s.core x.1).ports.allow s.serial x.2.1 x.2.2 write

/-- They have carried them. -/
def State.usePorts (s : State) (l : List (Target × Nat)) (write : Bool) : State :=
  (bankUses l).foldl (fun s x => s.modCore x.1 fun c => { c with ports := c.ports.carry s.serial x.2.1 x.2.2 write }) s

/-- A context save or a copy-out keeps a bank's ports for the cycles that n bytes take (R17, R310). -/
def State.keepPorts (s : State) (k : CoreId) (n : Nat) : State :=
  s.modCore k fun c => { c with ports := { c.ports with busy := max c.ports.busy ((n + 255) / 256) } }

/-! ### The checks of R170, steps 3 to 6 -/

/-- The refusals of R105 and R355 for another module's device space, as far as this module knows them. -/
def State.refusalRemote (s : State) (a : Agent) (va : W64) (pa : Nat) (x : Acc) : Option Stop :=
  let space := bitsOf pa 40 39
  let off := bitsOf pa 20 0
  if space = 2 then
    if x ≠ .store then some (.trap (noPermission va 0))
    else if 0x1C0000 ≤ off ∧ !a.priv then some (.trap (privilege va 2)) else none
  else if space = 1 then
    if x = .atomic then some (.trap (privilege va 0))
    else if a.priv then none
    else if !taskRegister off then some (.trap (privilege va 0))
    else if s.grantedRemote a pa then none else some (.trap (privilege va 1))
  else if !s.grantedRemote a pa then some (.trap (privilege va 1))
  else if 0x1C0000 ≤ off ∧ !a.priv then some (.trap (privilege va 2))
  else none

/-- A member of a group is written: its node is not switched out, its bank proper is SCRATCH and lies within the grants
(R126, R231). -/
def State.receives (s : State) (a : Agent) (p : NodeId × CoreId) : Bool :=
  s.present p && (s.core p.2).mode == .scratch && s.granted a p.2

/-- The device-space refusals of R105, the grants of R43 and the bank modes of R92, in that order; a row that is being darned is held
(R364). -/
def State.refusal (s : State) (a : Agent) (va : W64) (t : Target) (n : Nat) (x : Acc) : Option Stop :=
  match t with
  | .pool _ _ => none
  | .bank k off =>
    if !s.granted a k then some (.trap (privilege va 1))
    else if 0x1C0000 ≤ off then (if a.priv then none else some (.trap (privilege va 2)))
    else if 0 < (s.core k).drain then some .hold
    else if (s.core k).mode ≠ .scratch then some (.trap (privilege va 3))
    else if (s.core k).repair.holds off n then some .hold
    else if s.foldHeld k off n then some (.fold va)
    else none
  | .ctrl k off =>
    if x = .atomic then some (.trap (privilege va 0))
    else if a.priv then none
    else if !taskRegister off then some (.trap (privilege va 0))
    else if a.core ≠ k ∧ !s.granted a k then some (.trap (privilege va 1))
    else none
  | .mcast g off =>
    if x ≠ .store then some (.trap (noPermission va 0))
    else if 0x1C0000 < off + n ∧ !a.priv then some (.trap (privilege va 2))
    else if (s.members g).any fun p => s.receives a p && s.foldHeld p.2 off n then some (.fold va)
    else none
  | .remote pa => s.refusalRemote a va pa x

/-- Steps 3 to 6 of R170 for an access of `n` bytes aligned to `al`: where it goes and the TLB entry it used. -/
def State.check (s : State) (a : Agent) (tlb : List TlbEnt) (va : W64) (n al : Nat) (x : Acc) :
    Except Stop (Target × Option TlbEnt) :=
  let v := va.toNat
  if 2 ^ 57 ≤ v then .error (.trap (notPresent va 0))
  else if bitsOf v 56 52 = 31 ∧ bitsOf v 51 51 = 0 then .error (.trap (notPresent va 0))
  else if v % al ≠ 0 then .error (.trap (badOperand va))
  else
    match s.translate a.root tlb va x with
    | .error t => .error (.trap t)
    | .ok (pa, pol, e) =>
      match s.target pa pol with
      | none => .error (.trap (notPresent va 0))
      | some t =>
        match s.refusal a va t n x with
        | some st => .error st
        | none => .ok (t, e)

/-- The checks for a core, through its TLB. -/
def State.access (s : State) (k : CoreId) (va : W64) (n al : Nat) (x : Acc) : Except Stop (Target × Option TlbEnt) :=
  s.check (s.agent k) (s.tlbOf k) va n al x

/-- Keep the TLB entry an access used. -/
def State.useTlb (s : State) (k : CoreId) (e : Option TlbEnt) : State :=
  match e with
  | none => s
  | some _ =>
    (s.modCore k fun c => { c with tlb := fillTlb 64 c.tlb e }).modCluster k.die k.cluster fun c => { c with tlb := fillTlb 2048 c.tlb e }

/-! ### The lifetime record's counters (R341) -/

/-- Timer counts of 1 ms (R22). -/
def msCounts : Nat := 2250000

/-- Add to a counter; it saturates. -/
def bumpLife (l : List (LifeItem × BitVec 32)) (i : LifeItem) (n : Nat) : List (LifeItem × BitVec 32) :=
  match l with
  | [] => [(i, BitVec.ofNat 32 (min n 0xFFFFFFFF))]
  | (j, m) :: t => if j = i then (j, BitVec.ofNat 32 (min (m.toNat + n) 0xFFFFFFFF)) :: t else (j, m) :: bumpLife t i n

/-- Add to an item of the lifetime record. -/
def State.addLife (s : State) (i : LifeItem) (n : Nat) : State := if n = 0 then s else { s with life := bumpLife s.life i n }

/-- Count an item of the lifetime record. -/
def State.countLife (s : State) (i : LifeItem) : State := s.addLife i 1

/-- Write an item of the lifetime record that is no count. -/
def State.setLife (s : State) (i : LifeItem) (v : Nat) : State :=
  { s with life := (i, BitVec.ofNat 32 v) :: s.life.filter fun x => x.1 != i }

/-! ### Reading with poison (R325) -/

/-- Where a sector lies, for INFO of causes 0x16 and 0x31 (R303). -/
def Target.place (t : Target) : Nat :=
  match t with
  | .pool _ .cached => 1
  | .pool _ _ => 2
  | .bank _ off => if 0x1C0000 ≤ off then 4 else 0
  | .remote _ => 5
  | _ => 0

/-- The physical address of a sector of `mem`, as ADDR of causes 0x16 and 0x31 names it (R303). -/
def State.sectorPa (s : State) (p : Nat) : Nat :=
  let a := 32 * p
  if 2 ^ 52 ≤ a then a - 2 ^ 52 else if 2 ^ 51 ≤ a then a + s.nodeId.toNat * 2 ^ 41 else a

/-- A read at a home finds errors: an uncorrectable one becomes poison and is consumed as 0x31, standing poison as 0x16.
The corrected ones are written back (R324, R326). With every path to the pool lost, its loads return poison (R351). -/
def State.consume (s : State) (t : Target) (n : Nat) : State × Option TrapInfo :=
  let key := t.key
  let hit := fun p : Nat × Bool => decide (key / 32 ≤ p.1 ∧ p.1 ≤ (key + n - 1) / 32)
  let found := s.ecc.filter hit
  let bad := found.filter fun p => p.2
  let s1 := { s with ecc := s.ecc.filter fun p => !hit p }
  let s1 := match t with
    | .bank k off => (((s1.addLife (.corrected k (off / 65536)) (found.length - bad.length)).addLife (.uncorrectable k) bad.length).addLife
        (.poisonings k) bad.length).countRow k off (found.length - bad.length)
    | _ => s1
  let s2 := { s1 with poison := (bad.map fun p => p.1) ++ s1.poison }
  let info := BitVec.ofNat 64 t.place
  match bad with
  | p :: _ => (s2, some { code := 0x31, cls := 3, addr := BitVec.ofNat 64 (s.sectorPa p.1), info := info })
  | [] =>
    let lost := match t with | .pool pa _ => s.poolLost pa | _ => false
    if lost || s1.poisoned key n then
      (s1, some { code := 0x16, cls := 3, addr := BitVec.ofNat 64 (s.sectorPa (s.firstPoison key n)), info := info })
    else (s1, none)

/-- A read as a core sees it: the poison and the errors of sectors that its version holds whole, by one store each, do not meet it
(R324). -/
def State.consumeBy (s : State) (k : CoreId) (t : Target) (n : Nat) : State × Option TrapInfo :=
  match t with
  | .pool _ .cached =>
    let own := (s.core k).whole
    if own = [] then s.consume t n
    else
      let (u, r) := ({ s with poison := s.poison.filter fun p => !own.contains p
                              ecc := s.ecc.filter fun p => !own.contains p.1 } : State).consume t n
      ({ u with poison := u.poison ++ s.poison.filter own.contains, ecc := u.ecc ++ s.ecc.filter fun p => own.contains p.1 }, r)
  | _ => s.consume t n

/-! ### Fare (R60, R61, R155) -/

/-- Saturation at −2^31. -/
def satLow (i : Int) : Int := max i (-2147483648)

/-- Ask for a hard pre-emption; an earlier request of higher order stands (R307: 0x20, 0x3F, 0x22). -/
def askPreempt (old : Option (BitVec 8)) (cause : BitVec 8) : Option (BitVec 8) :=
  match old with
  | none => some cause
  | some o => if o = 0x22 then some cause else if o = 0x3F ∧ cause = 0x20 then some cause else some o

/-- Charge FI. Reaching −4,096 is the overrun of R61. -/
def State.chargeFi (s : State) (k : CoreId) (n : Nat) : State :=
  if n = 0 then s
  else
    let fi := satLow ((s.regs k).fi - n)
    let s := s.modRegs k fun r => { r with fi := fi }
    if fi ≤ -4096 then s.modCore k fun c => { c with preempt := askPreempt c.preempt 0x20 } else s

/-- Charge FT by 128-byte units. (DEDUCED, log entry 18.) -/
def State.chargeFtUnits (s : State) (k : CoreId) (n : Nat) : State :=
  if n = 0 then s else s.modRegs k fun r => { r with ft := satLow (r.ft - n) }

/-- Charge FT for an access of `n` bytes whose other end is not the core's own bank (R60). (DEDUCED, log entry 18.) -/
def State.chargeFt (s : State) (k : CoreId) (t : Target) (n : Nat) : State :=
  match t with
  | .bank j _ => if j = k then s else s.chargeFtUnits k ((n + 127) / 128)
  | .ctrl j _ => if j = k then s else s.chargeFtUnits k ((n + 127) / 128)
  | _ => s.chargeFtUnits k ((n + 127) / 128)

/-- Fare due (R61). -/
def Regs.fareDue (r : Regs) : Bool := decide (r.fi ≤ 0) || decide (r.ft ≤ 0)

/-! ### Sticky bits (R163, R164) -/

/-- Set bits of WFLAGS. -/
def State.setFlags (s : State) (k : CoreId) (b : BitVec 32) : State :=
  if b = 0 then s else s.modRegs k fun r => { r with wflags := r.wflags ||| b, wfNow := r.wfNow ||| b }

/-! ### Multicast landings (R105, R126, R231) -/

/-- One landing unit of a multicast lands in every member that receives it; the second component says whether some member
was skipped or the group had none. Outside a cluster R126 fixes no order among the members: here they are written in one step. (DESIGN CHOICE, log
entry 21.) -/
def State.multicast (s : State) (a : Agent) (g : BitVec 8) (off : Nat) (bs : List Byte) : State × Bool :=
  let ms := s.members g
  let ok := ms.filter (s.receives a)
  (ok.foldl (fun s p => (s.usePorts [(.bank p.2 off, bs.length)] true).homeWrite (.bank p.2 off) bs) s, ms.isEmpty || ok.length != ms.length)

/-- The record of a trap (R301, R302). -/
def State.record (s : State) (k : CoreId) (q : Seq) (seqn : BitVec 24) (pc : VA) (t : TrapInfo) : TrapRec :=
  { code := t.code, cls := t.cls, kind := t.kind, wr := t.wr, seq := BitVec.ofNat 2 (seqCode q), core := cid k,
    seqn := seqn, pc := pc, addr := t.addr, rowp := t.rowp, info := t.info,
    ids := (match s.nodeOf k with | some n => n.ids | none => 0), who := t.who, time := BitVec.ofNat 64 s.now }

/-- A deferred fault of a word or engine command falls due (R299): it is held until the owner's next command boundary. -/
def State.defer (s : State) (k : CoreId) (q : Seq) (seqn : BitVec 24) (pc : VA) (t : TrapInfo) : State :=
  let r := s.record k q seqn pc { t with cls := 2 }
  s.modCore k fun c => { c with pend := c.pend ++ [r] }

/-- The physical address of a target, for the store queue. -/
def State.paOf (s : State) (t : Target) : Nat :=
  match t with
  | .pool pa _ => pa
  | .bank k off => s.bankPa k off
  | .ctrl k off => s.bankPa k off + 2 ^ 39
  | .mcast g off => 2 ^ 51 + s.nodeId.toNat * 2 ^ 41 + 2 ^ 40 + g.toNat * 2 ^ 27 + off
  | .remote pa => pa

/-- A write at a home by a core: one with Ostler privilege may have created queues (R203). -/
def State.coreWrite (s : State) (k : CoreId) (t : Target) (bs : List Byte) : State :=
  let u := s.homeWrite t bs
  if s.ostler k then u.noteWrite t (s.paOf t) bs.length else u

/-- Perform a store of a core at its target (R116, R120): versioned, at the home, or to a multicast window. A store to any
byte outside the own bank and outside CACHED pool memory ends the phase's rollbackability (R316). A remote store, a multicast and a
write that the management level or the host sees commit first (R117). With every path to the pool lost, a store there raises a deferred
0x38 (R351); through the L2 it is performed all the same, and otherwise it is not. (DESIGN CHOICE, log entries 4 and 12.) -/
def State.performStore (s : State) (k : CoreId) (q : Seq) (seqn : BitVec 24) (pc : VA) (t : Target) (bs : List Byte) :
    State :=
  match t with
  | .pool pa .cached =>
    let s' := s.versionWrite k pa bs
    if s.poolLost pa then s'.defer k q seqn pc { code := 0x38 } else s'
  | .pool pa _ => if s.poolLost pa then (s.escape k).defer k q seqn pc { code := 0x38 } else (s.coreWrite k t bs).escape k
  | .bank j _ => let s := s.coreWrite k t bs
                 if j = k then s else s.escape k
  | .remote _ => ((s.commit k).homeWrite t bs).escape k
  | .ctrl _ _ => ((s.commit k).homeWrite t bs).escape k
  | .mcast g off =>
    let s := s.commit k
    let (s, skip) := s.multicast (s.agent k) g off bs
    let s := s.escape k
    if skip then s.setFlags k 0x20000 else s

/-! ### The store queue (R120) -/

/-- The target of a pending store. (DEDUCED, log entry 36.) -/
def State.storeTarget (s : State) (p : PendingStore) : Option Target := s.target p.pa p.policy

/-- A copy of a multicast store reaches one member, or is skipped there (R126). -/
def State.storeMember (s : State) (k : CoreId) (m : NodeId × CoreId) (off : Nat) (bs : List Byte) : State :=
  if s.receives (s.agent k) m then (s.usePorts [(.bank m.2 off, bs.length)] true).homeWrite (.bank m.2 off) bs else s.setFlags k 0x20000

/-- The copies of a multicast store that have still to land do. -/
def State.storeRest (s : State) (k : CoreId) (t : Target) (p : PendingStore) : State :=
  match t with
  | .mcast _ off => (p.todo.getD []).foldl (fun s m => s.storeMember k m off p.data) s
  | _ => s

/-- A member that receives a multicast holds it (R94, R230, R364). -/
def State.memberHolds (s : State) (a : Agent) (m : NodeId × CoreId) (off n : Nat) : Bool := s.receives a m && s.bankHolds m.2 off n

/-- A pending store is held at its bank, which drains or darns the row, or at a member of its multicast (R94, R364). A fold begins only after
the stores that were checked before it are performed (R230). -/
def State.storeHeld (s : State) (k : CoreId) (p : PendingStore) : Bool :=
  match s.storeTarget p with
  | some (.bank j off) => decide (off < 0x1C0000) && (decide (0 < (s.core j).drain) || (s.core j).repair.holds off p.data.length)
  | some (.mcast g off) => (p.todo.getD (s.members g)).any fun m => s.memberHolds (s.agent k) m off p.data.length
  | _ => false

/-- A load reads a byte that a store writes. -/
def LateLoad.meets (l : LateLoad) (p : PendingStore) : Bool :=
  decide (l.pa < p.pa + p.data.length) && decide (p.pa < l.pa + 2 ^ l.z.val)

/-- What comes after the last of a list that satisfies a test. -/
def after {α : Type} (l : List α) (p : α → Bool) : List α := (l.reverse.takeWhile fun x => !p x).reverse

/-- The loads that may still be performed later, once a store has been performed: no load follows a later store of its sequencer to bytes it
reads, nor does an earlier load than such a one (R120, R137). -/
def lateAfter (l : List LateLoad) (p : PendingStore) : List LateLoad :=
  (after l fun x => x.older == 0 && x.meets p).map fun x => { x with older := x.older - 1 }

/-- The oldest pending store of a sequencer leaves its queue. -/
def Seqr.performed (r : Seqr) (p : PendingStore) (rest : List PendingStore) : Seqr := { r with stores := rest, late := lateAfter r.late p }

/-- Perform the oldest pending store of a sequencer; one whose route has been lost raises a deferred 0x38 (R356). -/
def State.storeStep (s : State) (k : CoreId) (q : Seq) : State :=
  match (s.seq k q).stores with
  | [] => s
  | p :: rest =>
    let s := s.modSeq k q fun r => r.performed p rest
    match s.storeTarget p with
    | some t => if p.begun then s.storeRest k t p else s.performStore k q 0 p.pc t p.data
    | none => s.defer k q 0 p.pc { code := 0x38 }

/-- A copy of a pending multicast store to a group that lies outside the issuer's cluster lands at one of the members it has still to
reach, whichever comes first (R126); a member whose bank holds it takes it later. The store is performed with its last copy. -/
def State.storeCopy (s : State) (k : CoreId) (q : Seq) (p : PendingStore) (rest : List PendingStore) (off : Nat)
    (todo : List (NodeId × CoreId)) : State :=
  let free := todo.filter fun m => !s.memberHolds (s.agent k) m off p.data.length && s.portsAllow [(.bank m.2 off, p.data.length)] true
  if free = [] then s
  else
    let s := if p.begun then s else (s.commit k).escape k
    let (i, s) := s.pick free.length
    let m := free.getD i (⟨0, 0⟩, k)
    let left := todo.erase m
    let s := s.modSeq k q fun r =>
      if left = [] then r.performed p rest else { r with stores := { p with todo := some left, begun := true } :: rest }
    s.storeMember k m off p.data

/-- The oldest pending store of a sequencer comes nearer: it is performed, but for one that is still in the broadcast tree, one that its bank
holds, and one with copies left to land at other members (R94, R120, R126, R364). -/
def State.storeNext (s : State) (k : CoreId) (q : Seq) : State :=
  match (s.seq k q).stores with
  | [] => s
  | p :: rest =>
    if 0 < p.land then s
    else
      match p.todo, s.storeTarget p with
      | some (m :: t), some (.mcast _ off) => s.storeCopy k q p rest off (m :: t)
      | _, _ => if s.storeHeld k p then s else s.storeStep k q

/-- Perform every pending store of a sequencer, in order; `fuel` is their number. -/
def State.drainStores (s : State) (fuel : Nat) (k : CoreId) (q : Seq) : State :=
  match fuel with
  | 0 => s
  | fuel + 1 => State.drainStores (s.storeStep k q) fuel k q

/-- Every earlier store of the sequencer is performed (R122, R124, R181). -/
def State.settle (s : State) (k : CoreId) (q : Seq) : State := s.drainStores (s.seq k q).stores.length k q

/-- The stores of a sequencer that are in the broadcast tree. -/
def Seqr.inTree (r : Seqr) : List PendingStore := r.stores.filter fun p => decide (0 < p.land)

/-- The stores of a sequencer that cannot be performed now: those in the broadcast tree, and those that a bank holds. -/
def State.stuck (s : State) (k : CoreId) (r : Seqr) : List PendingStore := r.stores.filter fun p => decide (0 < p.land) || s.storeHeld k p

/-- Some store of a core cannot be performed now. -/
def State.anyStuck (s : State) (k : CoreId) : Bool := [Seq.c, .m, .v, .t].any fun q => !(s.stuck k (s.seq k q)).isEmpty

/-- Some store of a core is in the broadcast tree. -/
def Ctx.inTree (x : Ctx) : Bool := [x.c, x.m, x.v, x.t].any fun r => !r.inTree.isEmpty

/-- A store of a sequencer that is in the broadcast tree lands, and every earlier store of the sequencer with it (R120, R126); where a bank holds
one of them it waits at the tree's end. -/
def State.landStores (s : State) (k : CoreId) (q : Seq) : State :=
  match (s.seq k q).stores.findIdx? fun p => p.land == 1 with
  | some i => if ((s.seq k q).stores.take (i + 1)).any fun p => s.storeHeld k p then s else s.drainStores (i + 1) k q
  | none => s

/-- The policy of a target. -/
def Target.policy (t : Target) : Policy :=
  match t with
  | .pool _ p => p
  | _ => .device

/-- The PC a trap records and its word is issued again from: that of the group's first prefix (R157). -/
def Seqr.trapPc (r : Seqr) : VA :=
  match r.grpPc with
  | some p => p
  | none => r.pc

/-- How a store lands: one to the multicast window of a group that lies in its cluster takes 12 cycles, and one to another group reaches
each member by itself (R126). -/
def State.windowStore (s : State) (k : CoreId) (t : Target) : Nat × Option (List (NodeId × CoreId)) :=
  match t with
  | .mcast g _ => if (s.members g).all fun p => sameCluster p.2 k then (12, none) else (0, some (s.members g))
  | _ => (0, none)

/-- Issue a store: it enters the store queue. (DEDUCED, log entry 11.) -/
def State.issueStore (s : State) (k : CoreId) (q : Seq) (t : Target) (bs : List Byte) : State :=
  let (land, todo) := s.windowStore k t
  let p : PendingStore := { pa := s.paOf t, policy := t.policy, data := bs, pc := (s.seq k q).trapPc, land := land, todo := todo,
                            begun := false }
  s.modSeq k q fun r => { r with stores := r.stores ++ [p] }

/-- How pending stores bear on a load: no overlap, the latest one that covers it, or a partial overlap. -/
inductive Forward where
  | none
  | all (bs : List Byte)
  | part
  deriving DecidableEq, Repr

/-- Forwarding from the store queue, latest store first (R120). -/
def forward (stores : List PendingStore) (pa n : Nat) : Forward :=
  stores.foldl (fun f p =>
    if pa < p.pa + p.data.length ∧ p.pa < pa + n then
      (if p.pa ≤ pa ∧ pa + n ≤ p.pa + p.data.length then .all ((p.data.drop (pa - p.pa)).take n) else .part)
    else f) .none

/-! ### Signals (R37, R118, R125) -/

/-- The signal word after a post of `a` (R118). -/
def signalAdd (w : W64) (a : BitVec 24) : W64 :=
  let v := w.toNat
  let c := v % 2 ^ 24 + a.toNat
  let target := bitsOf v 47 24
  if target = 0 then BitVec.ofNat 64 (v / 2 ^ 24 * 2 ^ 24 + c % 2 ^ 24)
  else BitVec.ofNat 64 ((v / 2 ^ 48 + c / target) % 2 ^ 16 * 2 ^ 48 + target * 2 ^ 24 + c % target)

/-- GEN of a signal word. -/
def signalGen (w : W64) : BitVec 16 := w.extractLsb' 48 16

/-- A wait for generation g completes (R118). -/
def genReached (gen g : BitVec 16) : Bool := (gen - g).toNat < 2 ^ 15

/-- Post to a signal word at its home, as one atomic step. -/
def State.post (s : State) (t : Target) (a : BitVec 24) : State :=
  let s := s.meet t 8
  s.homeWrite t (leBytes 8 (signalAdd (s.homeWord t 8) a).toNat)

/-- A post at a place named by a signal word's address, now or, where its bank holds it, later (R94, R230, R364). -/
def State.postOrHold (s : State) (pa : Nat) (pol : Policy) (t : Target) (a : BitVec 24) : State :=
  if s.holds t 8 then { s with posts := s.posts ++ [(pa, pol, a)] } else s.post t a

/-- The target of a signal word, where it can be used. -/
def State.signalTarget (s : State) (pa : Nat) (pol : Policy) : Option Target :=
  match s.target pa pol with
  | some (.bank k off) => if (s.core k).mode == .scratch && off < 0x1C0000 then some (.bank k off) else none
  | some (.ctrl _ _) => none
  | some (.mcast _ _) => none
  | x => x

/-- The posts that were held come again, in their order. -/
def State.retryPosts (s : State) : State :=
  s.posts.foldl (fun s p =>
    match s.signalTarget p.1 p.2.1 with
    | some t => s.postOrHold p.1 p.2.1 t p.2.2
    | none => s) { s with posts := [] }

/-- The target of an event slot's signal word, where it can be used. -/
def State.slotTarget (s : State) (e : EventSlot) : Option Target := s.signalTarget e.pa e.pol

/-- Signal through an event slot: the issuer's version is committed first (R117), and a word elsewhere than in the own bank is charged as
SIGPOST's is (R37, R60). -/
def State.signalSlot (s : State) (k : CoreId) (e : EventSlot) : State :=
  if e.addr = 0 then s.setFlags k 0x100
  else
    let s := (s.commit k).escape k
    match s.slotTarget e with
    | some t => (s.chargeFt k t 8).postOrHold e.pa e.pol t e.add
    | none => s

/-- Tokens pushed and slots signalled at a completion (R38, R125). -/
def State.finish (s : State) (k : CoreId) (f : Fin') : State :=
  let s := f.push.foldl (fun s p => s.modRegs k fun r =>
    { r with tok := vput r.tok p.1 (r.tok[p.1.val] + p.2), rsv := vput r.rsv p.1 (r.rsv[p.1.val] - p.2) }) s
  let s := f.sig.foldl (fun s e => s.signalSlot k e) s
  if f.unbound then s.setFlags k 0x100 else s

/-! ### Taking a trap (R299 to R305) -/

/-- The CAUSE word of a record (R302). -/
def TrapRec.cause (r : TrapRec) : W64 :=
  BitVec.ofNat 64 (r.code.toNat + r.cls.toNat * 2 ^ 10 + r.kind.toNat * 2 ^ 12 + r.wr.toNat * 2 ^ 16
    + r.seq.toNat * 2 ^ 20 + r.core.toNat * 2 ^ 22 + r.seqn.toNat * 2 ^ 34)

/-- The 64 bytes of a record (R301). -/
def TrapRec.bytes (r : TrapRec) : List Byte :=
  leBytes 8 r.cause.toNat ++ leBytes 8 r.pc.toNat ++ leBytes 8 r.addr.toNat ++ leBytes 8 r.rowp.toNat
    ++ leBytes 8 r.info.toNat ++ leBytes 8 r.ids.toNat ++ leBytes 8 r.who.toNat ++ leBytes 8 r.time.toNat

/-- Push a record into the trap queue of the Ostler of a die (R301). -/
def State.pushTrap (s : State) (d : Die) (r : TrapRec) : State := s.modDie d fun x => { x with trapQ := x.trapQ ++ [r] }

/-- A core takes a trap whose record stands: it is traced (R335) and goes to the Ostler of the die. -/
def State.takeRecord (s : State) (k : CoreId) (r : TrapRec) : State :=
  (s.trace k 3 (seqOf r.seq.toNat) r.pc r.seqn (r.rowp.setWidth 32) r.cause (r.cls == 1 || r.seqn != 0)).pushTrap k.die r

/-- A record is that of an owned object, not of the core it names: a dray queue, a chain context or a Mangle session (WKIND 1, R302). That
of an imprecise watch stop names its writer so (R329). -/
def TrapRec.objects (r : TrapRec) : Bool := r.who.toNat / 2 ^ 62 == 1 && r.code != 0x11

/-- A trap of a core waits for service, or is in service: later events are held (R307). -/
def State.inTrapService (s : State) (k : CoreId) : Bool :=
  let mine := fun r : TrapRec => r.core == cid k && !r.objects
  s.dies.toList.any (fun d => d.trapQ.any mine) || s.cores.any fun c => (match c.2.serving with | some r => mine r.1 | none => false)

/-- A record's turn has come: of the records of its core one of rollback class comes first, then they come as they fell due, each when the
earlier ones have been serviced (R307). Records of owned objects (R304) wait for none. -/
def State.recordDue (s : State) (d : Die) (r : TrapRec) : Bool :=
  r.objects ||
    (let own := (s.die d).trapQ.filter fun x => x.core == r.core && !x.objects
     (match own.find? fun x => x.cls == 3 with | some x => r == x | none => own.head? == some r)
       && !s.cores.any fun c => match c.2.serving with | some x => x.1.core == r.core && !x.1.objects | none => false)

/-- The stopped word is issued again after service (R304, R305): translation, copy-on-write, rows missing, the wait bounds,
queue overflow, a pre-emption point, and a precise watch stop; BRK and TRAP go on at the next word. -/
def reissues (code : BitVec 8) (kind : BitVec 4) : Bool :=
  code == 0x10 || code == 0x14 || code == 0x18 || code == 0x19 || code == 0x28 || (code == 0x11 && kind == 0)

/-- The open issue group is undone: it has no effect, and its words are issued and counted again (R70, R157). -/
def Seqr.undo (r : Seqr) : Seqr :=
  let r := match r.grpPc with
    | some p => { r with pc := p, grpPc := none, issued := r.grpSeg.1, segCount := r.grpSeg.2.1, segCrc := r.grpSeg.2.2 }
    | none => r
  { r with pfx := [], held := none, wait := none, load := none, late := [], reads := [], latch := [], monitor := none, mark := (r.issued, r.bubbles)
           woke := false, run := if r.run = .blocked then .running else r.run }

/-- A sequencer stopped by a trap: its issue group is undone, and it issues nothing until the trap is serviced. -/
def Seqr.stopAt (r : Seqr) (pc : VA) (code : BitVec 8) (restart : Bool) : Seqr :=
  { r.undo with run := .running, pc := pc, stopped := some code, restart := restart }

/-- Stop every sequencer of a core that is not idle (R318). -/
def Ctx.stopAll (x : Ctx) (code : BitVec 8) : Ctx :=
  let f := fun r : Seqr => if r.run = .idle then r else { r with stopped := some code }
  { x with c := f x.c, m := f x.m, v := f x.v, t := f x.t }

/-- A rollback-class event stops every sequencer and the engines of a core (R318). -/
def State.stopCore (s : State) (k : CoreId) (code : BitVec 8) : State :=
  s.modCore k fun c => { c with ctx := c.ctx.stopAll code, halted := true }

/-- A sequencer takes a trap (R299, R301): the record, with the PC of the trapping word or group, goes to the Ostler of the
die, and the sequencer stops where it resumes; for a rollback-class trap every sequencer of the core stops (R318). -/
def State.takeTrapAt (s : State) (k : CoreId) (q : Seq) (t : TrapInfo) (pc resume : VA) : State :=
  let r := s.record k q 0 pc t
  let s := s.modSeq k q fun x => x.stopAt resume t.code (reissues t.code t.kind)
  let s := if t.cls = 3 then s.stopCore k t.code else s
  let s := s.trace k 3 q pc 0 0 r.cause
  s.pushTrap k.die r

/-- A word-precise trap: the word and its issue group have no effect, and the recorded PC is that of the group's first
prefix (R157, R299). -/
def State.takeTrap (s : State) (k : CoreId) (q : Seq) (t : TrapInfo) : State :=
  s.takeTrapAt k q t (s.seq k q).trapPc (s.seq k q).trapPc

/-- The return from a trap (R304, R305): the stopped sequencer resumes at its PC, which is that of the stopped group where
the word is issued again, and that of the next word otherwise. -/
def State.resumeTrap (s : State) (k : CoreId) (q : Seq) : State :=
  s.modSeq k q fun r => { r with stopped := none, restart := false, btAt := .replicate 4 r.issued }

/-- An engine command that a row-precise trap has stopped re-presents its row (R305). -/
def State.resumeEngine (s : State) (k : CoreId) (q : Seq) : State :=
  match q with
  | .m => s.modMe k fun e => { e with queue := e.queue.map fun c => { c with stop := none } }
  | .t =>
    let s := s.modTe k fun e => { e with queue := e.queue.map fun c => { c with stop := none } }
    s.modCtx k fun x => { x with chain := x.chain.map fun c => if c.st = .suspended then { c with st := .running } else c }
  | _ => s

/-- The core a record names. -/
def TrapRec.coreId (r : TrapRec) : Option CoreId :=
  coreOf (bitsOf r.core.toNat 11 10) (bitsOf r.core.toNat 9 6) (bitsOf r.core.toNat 5 0)

/-- The stopped context a record names resumes in place, and its core's engines with it, where the stop had halted them (R191, R305). -/
def State.resumeRecord (s : State) (r : TrapRec) : State :=
  match r.coreId with
  | none => s
  | some k =>
    let s := s.modCore k fun c => { c with halted := false }
    if r.cls = 1 then s.resumeEngine k (seqOf r.seq.toNat) else s.resumeTrap k (seqOf r.seq.toNat)

/-! ### Forwarding (R304) -/

/-- A forwarded trap stops a core by a hard pre-emption with its cause (R304). -/
def askStop (old : Option (BitVec 8)) (code : BitVec 8) : Option (BitVec 8) :=
  match old with
  | none => some code
  | some o => if o = 0x20 ∨ o = 0x22 ∨ o = 0x3F then some code else some o

/-- Every core of the node that a record names is stopped, where the node still stands on its cores. -/
def State.stopOwner (s : State) (r : TrapRec) : State :=
  match s.nodes.find? fun n => n.ids == r.ids with
  | none => s
  | some n =>
    if n.st = .placed then
      n.cores.foldl (fun s k => if (s.core k).saved.isSome then s else s.modCore k fun c => { c with preempt := askStop c.preempt r.code }) s
    else s

end Sys2Proof.Machine
end

