-- ==== Sys2Proof/Machine/Flags.lean ====
section
/-! DEFINITION. The flags of the machine: the sticky bits of WFLAGS (R163) and, with them, the resolution of an issue
group's prefixes, which is where most of them are set (R157 to R162). Predicates and the comparisons that write them
stand at the end (R31, R176). -/

namespace Sys2Proof.Machine

/-- PIGN: prefix on a word that does not accept it. -/
def fPIGN : BitVec 32 := 0x00001
/-- PDUP: two prefixes of one kind. -/
def fPDUP : BitVec 32 := 0x00002
/-- PFXN: more than three prefixes. -/
def fPFXN : BitVec 32 := 0x00004
/-- PRES: prefix with reserved payload bits ignored. -/
def fPRES : BitVec 32 := 0x00008
/-- SPSF: SPARSE ignored. -/
def fSPSF : BitVec 32 := 0x00010
/-- WMAX: WAITMAX p > 40. -/
def fWMAX : BitVec 32 := 0x00020
/-- WFMT: format fallback taken. -/
def fWFMT : BitVec 32 := 0x00040
/-- PUNB: unbound or wrong-mode port used. -/
def fPUNB : BitVec 32 := 0x00080
/-- EVUNB: unbound event slot used. -/
def fEVUNB : BitVec 32 := 0x00100
/-- FMSK: FORK mask bit 0 on a merge core. -/
def fFMSK : BitVec 32 := 0x00200
/-- RFLD: r field fallback. -/
def fRFLD : BitVec 32 := 0x00400
/-- TERN10: ternary code 0b10 read. -/
def fTERN10 : BitVec 32 := 0x00800
/-- MXINF: MX quantisation met an infinity. -/
def fMXINF : BitVec 32 := 0x01000
/-- NANSCALE: a wholly masked block carried a NaN scale. -/
def fNANSCALE : BitVec 32 := 0x02000
/-- IOVF: INT32 accumulation overflowed. -/
def fIOVF : BitVec 32 := 0x04000
/-- DUPDROP: a duplicate row was dropped. -/
def fDUPDROP : BitVec 32 := 0x08000
/-- PHWD: PHASE refused on a withdrawn bank. -/
def fPHWD : BitVec 32 := 0x10000
/-- MCNONE: multicast store discarded or a member skipped. -/
def fMCNONE : BitVec 32 := 0x20000
/-- The writable bits of WFLAGS. -/
def fAll : BitVec 32 := 0x3FFFF

/-- A bit where a condition holds. -/
def flagIf (b : Bool) (f : BitVec 32) : BitVec 32 := if b then f else 0

/-- A W1C write of WFLAGS; a bit set in the same cycle stays (R164). -/
def Regs.clearFlags (r : Regs) (v : BitVec 32) : Regs := { r with wflags := (r.wflags &&& ~~~v) ||| r.wfNow }

/-- 0 to 4 and 11 to 13. -/
def fmtScalar : List Nat := [0, 1, 2, 3, 4, 11, 12, 13]

/-- The prefix kinds a word accepts beside IF and TOKEN (R158). -/
structure Accept where
  /-- SCOPE. -/
  scope : Bool := false
  /-- FMT. -/
  fmt : Bool := false
  /-- SPARSE. -/
  sparse : Bool := false
  /-- ROUND. -/
  round : Bool := false
  /-- SAT. -/
  sat : Bool := false
  /-- ROUND and SAT only where the FMT of the group makes the word convert: its two codes differ after their fallbacks (R78, R162). -/
  conv : Bool := false
  /-- The FMT codes the word accepts; any other falls back to 0 (R162). -/
  codes : List Nat := List.range 15
  /-- EVENT. -/
  event : Bool := false
  /-- IF and TOKEN; LIT and EXT accept nothing (R162). -/
  any : Bool := true
  /-- The word can wait for something of its own (R67). -/
  blocks : Bool := false
  deriving DecidableEq, Repr

/-- A code of an FMT prefix after the fallback of R162. -/
def Accept.code (a : Accept) (c : Nat) : Nat := if a.codes.contains c then c else 0

/-- The prefixes that govern a word, after the fallbacks of R162. -/
structure Px where
  /-- SCOPE: scope and order. -/
  scope : Option (BitVec 2 × BitVec 2) := none
  /-- TOKEN: pops and pushes by counter. -/
  pops : List (Fin 6 × Nat) := []
  /-- See `pops`. -/
  pushes : List (Fin 6 × Nat) := []
  /-- A TOKEN prefix governs the word. -/
  tokens : Bool := false
  /-- IF: predicate and negate. -/
  cond : Option (BitVec 4) := none
  /-- FMT: first and second format. -/
  fmt : Option (Nat × Nat) := none
  /-- SPARSE payload. -/
  sparse : Option (BitVec 8) := none
  /-- WAITMAX: log2 of the bound. -/
  wmax : Option Nat := none
  /-- ROUND mode (R78). -/
  rnd : BitVec 2 := 0
  /-- SAT bits (R79); without a prefix SAT[0] = 1 and SAT[1] = 0. -/
  sat : BitVec 2 := 1
  /-- EVENT wait slot. -/
  wait : Option (Fin 16) := none
  /-- EVENT signal slot. -/
  signal : Option (Fin 16) := none
  /-- Sticky bits that the fallbacks set when the word is performed. -/
  flags : BitVec 32 := 0
  deriving DecidableEq, Repr

/-- The token counter X→Y by its place among the six ordered pairs of M, V, T (R38). -/
def tokIx (x y : Seq) : Fin 6 :=
  match x, y with
  | .m, .v => 0
  | .m, .t => 1
  | .v, .m => 2
  | .v, .t => 3
  | .t, .m => 4
  | _, _ => 5

/-- The two peers of TOKEN on a sequencer (R161). -/
def tokPeers (q : Seq) : Seq × Seq :=
  match q with
  | .m => (.v, .t)
  | .v => (.m, .t)
  | _ => (.m, .v)

/-- Counter and count, where the count is not 0 and the peer exists. -/
def tokPart (ix : Fin 6) (n : Nat) (dead : Bool) : List (Fin 6 × Nat) := if n = 0 ∨ dead then [] else [(ix, n)]

/-- The pops and pushes of a TOKEN payload on a sequencer, and whether a field naming M was dropped on a merge core. -/
def tokFields (q : Seq) (merge : Bool) (p : BitVec 8) : List (Fin 6 × Nat) × List (Fin 6 × Nat) × Bool :=
  let (a, b) := tokPeers q
  let dead := merge && a == .m
  (tokPart (tokIx a q) (p.extractLsb' 6 2).toNat dead ++ tokPart (tokIx b q) (p.extractLsb' 4 2).toNat false,
   tokPart (tokIx q a) (p.extractLsb' 2 2).toNat dead ++ tokPart (tokIx q b) (p.extractLsb' 0 2).toNat false,
   dead && ((p.extractLsb' 6 2) != 0 || (p.extractLsb' 2 2) != 0))

/-- Two prefixes of one kind stand in a list. -/
def hasDup (l : List Pfx) : Bool := !decide ((l.map fun p => p.kind).Nodup)

/-- An event slot of an EVENT payload; 15 means none (R158). -/
def evSlot (n : BitVec 4) : Option (Fin 16) := if n = 15 then none else some ⟨n.toNat, n.isLt⟩

/-- A kind whose payload has reserved bits holds a non-zero one (R162). -/
def reservedSet (p : Pfx) : Bool :=
  match p.kind with
  | .scope => p.payload.extractLsb' 4 4 != 0
  | .cond => p.payload.extractLsb' 4 4 != 0
  | .round => p.payload.extractLsb' 2 6 != 0
  | .sat => p.payload.extractLsb' 2 6 != 0
  | _ => false

/-- The nearest prefix of a kind, unless reserved payload bits take it away. (DEDUCED, log entry 23.) -/
def lastOf (l : List Pfx) (kd : PKind) : Option (BitVec 8) :=
  match (l.filter fun p => p.kind == kd).getLast? with
  | some p => if reservedSet p then none else some p.payload
  | none => none

/-- Resolve the prefixes of an issue group for the word they govern (R157 to R162): the three nearest govern, of two of
one kind the nearer, those the word does not accept are ignored, and each fallback names its sticky bit. (DEDUCED, log entry 23.) -/
def resolvePx (q : Seq) (merge : Bool) (a : Accept) (all : List Pfx) : Px :=
  let l := all.drop (all.length - 3)
  let many := decide (3 < all.length)
  let res := l.any reservedSet
  let two := fun p : BitVec 8 => a.code (p.extractLsb' 0 4).toNat != a.code (p.extractLsb' 4 4).toNat
  let conv := match lastOf l .fmt with | some p => two p | none => false
  let ok := fun (kd : PKind) (acc : Bool) => if acc then lastOf l kd else none
  let rs := a.round || (a.conv && conv)
  let ss := a.sat || (a.conv && conv)
  let tokOn := a.any && q != .c
  let tok := ok .token tokOn
  let ev := ok .event a.event
  let (pops, pushes, dropped) := match tok with | some p => tokFields q merge p | none => ([], [], false)
  let waitSlot := match ev with | some p => evSlot (p.extractLsb' 0 4) | none => none
  let waits := a.blocks || !pops.isEmpty || !pushes.isEmpty || waitSlot.isSome
  let wm := ok .waitmax (a.any && waits)
  let accepts := fun kd : PKind =>
    match kd with
    | .scope => a.scope
    | .token => tokOn
    | .cond => a.any
    | .fmt => a.fmt
    | .sparse => a.sparse
    | .waitmax => a.any && waits
    | .round => rs
    | .sat => ss
    | .event => a.event
  let ign := dropped || l.any fun p => !accepts p.kind
  let big := match wm with | some p => decide (40 < p.toNat) | none => false
  { scope := (ok .scope a.scope).map fun p => (p.extractLsb' 0 2, p.extractLsb' 2 2)
    pops := pops, pushes := pushes, tokens := tok.isSome
    cond := (ok .cond a.any).map fun p => p.extractLsb' 0 4
    fmt := (ok .fmt a.fmt).map fun p => ((p.extractLsb' 0 4).toNat, (p.extractLsb' 4 4).toNat)
    sparse := ok .sparse a.sparse
    wmax := wm.map fun p => min 40 p.toNat
    rnd := ((ok .round rs).map fun p => p.extractLsb' 0 2).getD 0
    sat := ((ok .sat ss).map fun p => p.extractLsb' 0 2).getD 1
    wait := waitSlot
    signal := match ev with | some p => evSlot (p.extractLsb' 4 4) | none => none
    flags := flagIf many fPFXN ||| flagIf (hasDup all) fPDUP ||| flagIf ign fPIGN ||| flagIf res fPRES ||| flagIf big fWMAX }

/-- A predicate; c0 always reads 1 (R31). -/
def Seqr.pred (r : Seqr) (n : BitVec 3) : Bool := n == 0 || r.preds.getLsbD n.toNat

/-- Write a predicate; a write to c0 is discarded (R31). -/
def Seqr.setPred (r : Seqr) (n : BitVec 3) (b : Bool) : Seqr :=
  if n = 0 then r
  else { r with preds := if b then r.preds ||| (1#8 <<< n.toNat) else r.preds &&& ~~~(1#8 <<< n.toNat) }

/-- The condition of an IF payload (R160). -/
def Seqr.condHolds (r : Seqr) (p : BitVec 4) : Bool := r.pred (p.extractLsb' 0 3) != p.getLsbD 3

end Sys2Proof.Machine
end

