-- ==== Sys2Proof/Machine/Mcmd.lean ====
section
/-! DEFINITION. What an M command says: the array's modes and weight layouts (R234 to R236), the fields of the shadow command (R237,
R238), drain formats (R252), the slots it names and the addresses it reads and writes (R239, R242, R251). -/

namespace Sys2Proof.Machine

/-! ### Modes (R234) -/

/-- An array mode. -/
structure AMode where
  /-- Format of A elements. -/
  a : Nat
  /-- Format of B elements. -/
  b : Nat
  /-- Structured sparsity (R249). -/
  sparse : Bool
  deriving DecidableEq, Repr

/-- FP8 formats. -/
def isFp8 (f : Nat) : Bool := f == 3 || f == 4

/-- MX formats the array takes. -/
def mxArray (f : Nat) : Bool := f == 5 || f == 6 || f == 9 || f == 10

/-- A pair of formats is a mode of R234. -/
def legalPair (a b : Nat) : Bool :=
  (isFp8 a && isFp8 b) || ((a == 5 || a == 6) && (b == 5 || b == 6)) || (a == 11 && b == 14)
    || (a == b && (a == 1 || a == 2 || a == 9 || a == 10 || a == 11))

/-- The mode of a format of A and that of the active buffer, if it is not empty, with whether the pair is legal; another pair
runs as BF16 × BF16. -/
def arrayMode (a : Nat) (b : Option Nat) (sparse : Bool) : AMode × Bool :=
  let b := b.getD a
  if legalPair a b then ({ a := a, b := b, sparse := sparse && isFp8 a }, true)
  else ({ a := 1, b := 1, sparse := false }, false)

/-- Logical K of a row. -/
def AMode.k (m : AMode) : Nat := if m.a = 1 ∨ m.a = 2 then 64 else if m.a = 9 ∨ m.sparse then 256 else 128

/-- The mode is MX. -/
def AMode.mx (m : AMode) : Bool := mxArray m.a

/-- The mode has INT32 slots. -/
def AMode.int (m : AMode) : Bool := m.a == 11

/-- Ternary × INT8. -/
def AMode.quad (m : AMode) : Bool := m.b == 14

/-- B row bytes of a format. -/
def bRowBytes (f : Nat) : Nat := if f = 1 ∨ f = 2 then 128 else if f = 9 then 32 else 64

/-- B rows of a format. -/
def bRowCount (f : Nat) (b256 : Bool) : Nat :=
  if f = 1 ∨ f = 2 then 64 else if f = 9 ∨ (isFp8 f && b256) then 256 else 128

/-- Scale bytes of a format. -/
def bScaleBytes (f : Nat) : Nat := if f = 9 then 512 else if mxArray f then 256 else 0

/-- The format a load takes, with WFMT where FMTB names no B format (R240). (DEDUCED, log entry 14.) -/
def bFmt (f : Nat) : Nat × BitVec 32 := if legalPair 11 f || legalPair f f then (f, 0) else (1, fWFMT)

/-- The format of a buffer that is not empty. -/
def WBuf.fmt? (b : WBuf) : Option Nat := if b.count = 0 then none else some b.fmt.toNat

/-! ### Drain formats (R252) -/

/-- The element format of FMTO, and whether it is a fallback. (DEDUCED, log entry 14.) -/
def drainFmt (f : Nat) : Nat × BitVec 32 := if f = 12 ∨ f = 14 ∨ f = 15 then (0, fWFMT) else (f, 0)

/-- Output row bytes. -/
def drainBytes (f : Nat) : Nat := 64 * elemBits (drainFmt f).1 / 8

/-! ### Fields of the shadow command (R237, R238) -/

/-- Bits of a field of the copied shadow command. -/
def MCmd.f (c : MCmd) (i : Fin 16) (hi lo : Nat) : Nat := bitsOf c.w[i.val].toNat hi lo

/-- SLOTB. -/
def MCmd.slotb (c : MCmd) : Nat := c.f 15 40 32
/-- SLOTS. -/
def MCmd.slots (c : MCmd) : Nat := c.f 7 47 32
/-- ROWS. -/
def MCmd.rows (c : MCmd) : Nat := c.f 7 31 0
/-- TAGB. -/
def MCmd.tagb (c : MCmd) : Nat := c.f 0 55 32
/-- SRC. -/
def MCmd.src (c : MCmd) : Nat := c.f 0 1 0
/-- Slots for each tag. -/
def MCmd.per (c : MCmd) : Nat := if c.quad then 4 else 1
/-- FMTO. -/
def MCmd.fmto (c : MCmd) : Nat := c.f 0 19 16
/-- Bytes of an index or scatter list entry. -/
def MCmd.entryBytes (c : MCmd) : Nat := match c.f 0 26 25 with | 0 => 2 | 1 => 4 | _ => 8

/-- The loop levels, level 0 innermost: count, A stride and output stride. -/
def MCmd.levels (c : MCmd) (n : Nat) : List (Nat × Int × Int) :=
  let ws := [c.w[8], c.w[9], c.w[10], c.w[11], c.w[12], c.w[13]]
  if ws.all fun v => v.toNat % 65536 == 0 then [(n, 1, (drainBytes c.fmto : Nat))]
  else ws.map fun v => (max 1 (v.toNat % 65536), (v.extractLsb' 16 24).toInt, (v.extractLsb' 40 24).toInt)

/-- Product of counts. -/
def levelProd (l : List (Nat × Int × Int)) : Nat := (l.map fun x => x.1).prod

/-- Σ i[j] · stride[j] at linear counter n. -/
def levelSum (n : Nat) (l : List (Nat × Int)) : Int :=
  match l with
  | [] => 0
  | (c, st) :: t => (n % c : Nat) * st + levelSum (n / c) t

/-- The strides of A. -/
def aStrides (l : List (Nat × Int × Int)) : List (Nat × Int) := l.map fun x => (x.1, x.2.1)

/-- The strides of the output. -/
def oStrides (l : List (Nat × Int × Int)) : List (Nat × Int) := l.map fun x => (x.1, x.2.2)

/-- off of row n (R242), modulo 2^64. -/
def MCmd.rowOff (c : MCmd) (n : Nat) : Nat := ((128 * levelSum n (aStrides (c.levels c.rows))) % 2 ^ 64).toNat

/-- The tile name and tile row of row n with SRC 1. -/
def MCmd.tileAt (c : MCmd) (n : Nat) : Nat × Nat := (c.f 1 3 0 + c.rowOff n / 4096, c.rowOff n / 128 % 32)

/-- The tile names that the loops can reach. -/
def MCmd.reach (c : MCmd) : List Nat :=
  (List.range 16).filter fun q => (List.range c.rows).any fun n => (c.tileAt n).1 == q

/-- The slots a command names: base and count (R238, R255, R256). -/
def MCmd.span (c : MCmd) : Nat × Nat :=
  let base := bitsOf c.w[15].toNat 40 32
  let slots := bitsOf c.w[7].toNat 47 32
  match c.op with
  | .run => (base, if c.quad then 4 * slots else slots)
  | .gather _ => (base, if c.quad then 4 * slots else slots)
  | .drain _ => (base, slots)
  | .zero => (base, slots)
  | .readA _ q _ => (q, 1)
  | .patch _ q _ _ => (q, 1)
  | _ => (0, 0)

/-- Two spans share a slot. -/
def spansMeet (a b : Nat × Nat) : Bool := decide (a.1 < b.1 + b.2 ∧ b.1 < a.1 + a.2)

/-- The mode of a command against an active buffer (R234). -/
def MCmd.mode (c : MCmd) (b : Option Nat) : AMode × Bool := arrayMode (c.f 0 11 8) b c.sparse.isSome

/-- A load of weights. -/
def MCmd.isLoad (c : MCmd) : Bool :=
  match c.op with
  | .loadB => true
  | .loadT _ => true
  | _ => false

/-- A command that runs rows. -/
def MCmd.isRows (c : MCmd) : Bool :=
  match c.op with
  | .run => true
  | .gather _ => true
  | _ => false

/-- SWAPB of a command that runs rows. -/
def MCmd.swaps (c : MCmd) : Bool := c.isRows && c.w[0].getLsbD 24

/-- A command that holds every later one until every earlier one is complete (R123). -/
def MCmd.isFence (c : MCmd) : Bool := c.op == .fence || !c.pops.isEmpty || !c.waits.isEmpty

/-- The destination of a drain: 0 dense, 1 scatter, 2 a Mangle session; code 3 is taken as 0 (R251). -/
def drainDest (r : BitVec 4) : Nat := if r.toNat % 4 = 3 then 0 else r.toNat % 4

/-! ### Addresses (R123, R239, R258) -/

/-- The pieces of [va, va + n) between multiples of g: address and length; `fuel` bounds their number. -/
def pieces (fuel g va n : Nat) : List (Nat × Nat) :=
  match fuel with
  | 0 => []
  | fuel + 1 =>
    if n = 0 then []
    else
      let m := min n (g - va % g)
      (va, m) :: pieces fuel g (va + m) (n - m)

/-- The pieces of a range. -/
def cutRange (g va n : Nat) : List (Nat × Nat) := pieces (n / g + 2) g va n

/-- An address modulo 2^64. -/
def addr64 (n : Nat) : Nat := n % 2 ^ 64

/-- The least and greatest Σ i[j] · stride[j]. -/
def levelHull (l : List (Nat × Int)) : Int × Int :=
  l.foldl (fun h x => let e := ((x.1 : Int) - 1) * x.2
                      (h.1 + min 0 e, h.2 + max 0 e)) (0, 0)

/-- Every address. -/
def everywhere : List (Int × Int) := [(0, 2 ^ 64)]

/-- A range of addresses modulo 2^64. -/
def wrapRange (r : Int × Int) : List (Int × Int) :=
  let lo := r.1 % 2 ^ 64
  let hi := lo + (r.2 - r.1)
  if r.2 ≤ r.1 then [] else if 2 ^ 64 ≤ r.2 - r.1 then everywhere else if hi ≤ 2 ^ 64 then [(lo, hi)] else [(lo, 2 ^ 64), (0, hi - 2 ^ 64)]

/-- Two lists of intervals meet. -/
def spansShare (a b : List (Int × Int)) : Bool := a.any fun x => b.any fun y => decide (x.1 < y.2 ∧ y.1 < x.2)

/-- Two lists of ranges share an address. -/
def rangesShare (a b : List (Int × Int)) : Bool := spansShare (a.flatMap wrapRange) (b.flatMap wrapRange)

/-- A range of n bytes. -/
def rangeAt (lo : Int) (n : Nat) : Int × Int := (lo, lo + n)

/-- A drain through a list of rows (R251). -/
def MCmd.scatters (c : MCmd) : Bool := match c.op with | .drain r => drainDest r == 1 | _ => false

/-- Bytes of a drained row's scales. -/
def MCmd.scaleOut (c : MCmd) : Nat := if isMx (drainFmt c.fmto).1 then 2 else 0

/-- The row and the scales that a scatter drain's list entry x names (R251). -/
def MCmd.scatterRow (c : MCmd) (x : Nat) : List (Int × Int) :=
  [rangeAt (c.w[1].toNat + drainBytes c.fmto * x) (drainBytes c.fmto), rangeAt (c.w[6].toNat + 2 * x) c.scaleOut]

/-- Addresses that a command may still read, from row n on; not the rows of an MGATHER or a scatter. -/
def MCmd.readsFrom (c : MCmd) (n : Nat) : List (Int × Int) :=
  let v := fun (i : Fin 16) => (c.w[i.val].toNat : Int)
  let f := (bFmt (c.f 0 15 12)).1
  let rb := bRowBytes f
  let mx := mxArray (c.f 0 11 8)
  let left := fun k => (List.range (k - n)).map (n + ·)
  match c.op with
  | .loadB => [rangeAt (v 3 + rb * n) (rb * (bRowCount f (c.w[0].getLsbD 2) - n)), rangeAt (v 2) (bScaleBytes f)]
  | .loadT _ => [rangeAt (v 2) (bScaleBytes f)]
  | .run =>
    (left c.rows).flatMap fun j =>
      if c.src = 0 then [rangeAt (v 1 + c.rowOff j) 128, rangeAt (v 2 + c.rowOff j / 16) (if mx then 8 else 0)]
      else [rangeAt (v 2 + 8 * j) (if mx then 8 else 0)]
  | .drain _ => if c.scatters then [rangeAt (v 5 + c.entryBytes * n) (c.entryBytes * (c.slots - n))] else []
  | _ => []

/-- Addresses that a command may still write, from slot n on; not the rows of a scatter. -/
def MCmd.writesFrom (c : MCmd) (n : Nat) : List (Int × Int) :=
  let v := fun (i : Fin 16) => (c.w[i.val].toNat : Int)
  match c.op with
  | .drain r =>
    if drainDest r = 0 then
      ((List.range (c.slots - n)).map (n + ·)).flatMap fun j =>
        [rangeAt (v 5 + levelSum j (oStrides (c.levels c.slots))) (drainBytes c.fmto), rangeAt (v 6 + 2 * j) c.scaleOut]
    else []
  | _ => []

/-- The addresses of a command from row n and slot m on, as far as its fields give them; ranges of no byte are left out. -/
def MCmd.touchesFrom (c : MCmd) (n m : Nat) : List (Int × Int) :=
  (c.readsFrom n ++ c.writesFrom m).filter fun r => decide (r.1 < r.2)

/-- The addresses that a command may still access: any at all for an MGATHER that reads memory or a scatter with rows left. -/
def MCmd.rangesLeft (c : MCmd) : List (Int × Int) :=
  match c.op with
  | .gather _ => if c.arrived < c.rows ∧ (c.src = 0 ∨ mxArray (c.f 0 11 8)) then everywhere else []
  | .run => c.touchesFrom c.arrived 0
  | _ => if c.scatters then (if c.next < c.slots then everywhere else []) else c.touchesFrom c.next c.next

/-! ### Slots of queued commands (R258) -/

/-- An earlier command may still change slot q. -/
def MCmd.changes (c : MCmd) (q : Nat) : Bool :=
  let sp := c.span
  let inSpan := decide (sp.1 ≤ q ∧ q < sp.1 + sp.2)
  let g := (q - c.slotb) / c.per
  match c.op with
  | .run => inSpan && decide (g < c.rows) && (decide (c.arrived ≤ g) || c.fly.any fun r => r.g == g)
  | .gather _ => inSpan
  | .drain r => inSpan && r.getLsbD 2 && decide (c.slotb + c.next ≤ q)
  | .zero => inSpan
  | .patch _ _ _ _ => inSpan
  | _ => false

/-- An earlier command may still read slot q. -/
def MCmd.readsSlot (c : MCmd) (q : Nat) : Bool :=
  match c.op with
  | .drain _ => decide (c.slotb + c.next ≤ q ∧ q < c.slotb + c.slots)
  | .readA _ p _ => p == q
  | _ => false

/-- Command i of a queue may access a slot now (R258). -/
def slotFree (queue : List MCmd) (i q : Nat) (change : Bool) : Bool :=
  (queue.take i).all fun c => !c.changes q && !(change && c.readsSlot q)

/-- All rows of a command have entered. -/
def MCmd.allIn (c : MCmd) : Bool := c.arrived == c.rows

end Sys2Proof.Machine
end

