-- ==== Sys2Proof/Machine/Operands.lean ====
section
/-! DEFINITION. The operand forms of words: the r field (R153), the stack (R28), scalar registers with their same-cycle
rule (R30), tile names (R32, R40), event slots as objects of a wait (R37), access sizes, and the wait classes of R67. -/

namespace Sys2Proof.Machine

/-! ### The r field and the stack -/

/-- Bits of r that a word does not use are set: RFLD (R153). -/
def rUnused (r used : BitVec 4) : Bool := r &&& ~~~used != 0

/-- Sign extension of r, from −8 to 7 (R175). -/
def rSext (r : BitVec 4) : W64 := r.signExtend 64

/-- The low three bits of r. -/
def r3 (r : BitVec 4) : BitVec 3 := r.extractLsb' 0 3

/-- The low two bits of r as a register number. -/
def r2 (r : BitVec 4) : Fin 4 := ⟨r.toNat % 4, Nat.mod_lt _ (by decide)⟩

/-- Bits [3:2] of r as a register number. -/
def r2hi (r : BitVec 4) : Fin 4 := ⟨r.toNat / 4 % 4, Nat.mod_lt _ (by decide)⟩

/-- The r field as a register number of sixteen. -/
def r4 (r : BitVec 4) : Fin 16 := ⟨r.toNat, r.isLt⟩

/-- The low three bits as a register number of eight. -/
def r8 (r : BitVec 4) : Fin 8 := ⟨r.toNat % 8, Nat.mod_lt _ (by decide)⟩

/-- The operands a word pops, deepest first. -/
def popArgs (st : List W64) (n : Nat) : List W64 := (st.take n).reverse

/-- The stack after a word pops n entries and pushes some, the last of them on top. -/
def pushOuts (st : List W64) (n : Nat) (outs : List W64) : List W64 := outs.reverse ++ st.drop n

/-- The check of R28: too few entries, or a depth beyond 8 after the word. -/
def stackBad (depth pops pushes : Nat) : Bool := decide (depth < pops) || decide (8 < depth - pops + pushes)

/-! ### Scalar registers (R30) -/

/-- GET: the old value where a word of this cycle has written the register. -/
def Regs.getS (r : Regs) (n : Fin 16) : W64 :=
  match r.sOld.find? fun x => x.1 == n with
  | some x => x.2
  | none => r.s[n.val]

/-- PUT: the value is visible from the next cycle; the first old value of the cycle is kept. -/
def Regs.putS (r : Regs) (n : Fin 16) (v : W64) : Regs :=
  { r with s := vput r.s n v
           sOld := if r.sOld.any fun x => x.1 == n then r.sOld else (n, r.s[n.val]) :: r.sOld }

/-! ### Tile names (R32, R40) -/

/-- tb as it stood at the start of the cycle (R167). -/
def Regs.tbNow (r : Regs) : TileBase := r.tbOld.getD r.tb

/-- Write tb; names of this cycle keep the earlier one. -/
def Regs.setTb (r : Regs) (b : TileBase) : Regs := { r with tb := b, tbOld := some r.tbNow }

/-- The physical tile of a name. -/
def physOf (tb : BitVec 3) (k : BitVec 4) : BitVec 4 :=
  if k.toNat < 8 then k else BitVec.ofNat 4 (8 + (k.toNat - 8 + tb.toNat) % 8)

/-- The physical tile a name means to a core now. -/
def Regs.phys (r : Regs) (k : BitVec 4) : BitVec 4 := physOf r.tbNow.value k

/-- 0x03 for a tile outside the footprint (R40): the tile name stands in ADDR. -/
def footTrap (k : BitVec 4) : TrapInfo := privilege (k.setWidth 64) 4

/-- A physical tile lies outside TMASK. -/
def Ctx.outside (x : Ctx) (t : BitVec 4) : Bool := !x.tmask.getLsbD t.toNat

/-- A tile is full. -/
def Ctx.isFull (x : Ctx) (t : BitVec 4) : Bool := x.full.getLsbD t.toNat

/-- A tile is lent (R34). A TST lends its tile until its last row has been read, which is as it issues (R272, log entry 34). -/
def Ctx.isLent (x : Ctx) (t : BitVec 4) : Bool := x.lent.any fun l => l.tile == t

/-- A port can be written. -/
def Port.writes (p : Port) : Bool := p.mode == 2 || p.mode == 3

/-- Some port could still write a tile: one is bound to it for writing, or a write through one is in flight (R34). -/
def Ctx.portWrites (x : Ctx) (t : BitVec 4) : Bool :=
  x.regs.port.toList.any (fun p => p.writes && p.tile == t) || x.landings.any fun l => l.tile == t

/-- Set a tile's full/empty bit. -/
def Ctx.setFull (x : Ctx) (t : BitVec 4) (b : Bool) : Ctx :=
  { x with full := if b then x.full ||| (1#16 <<< t.toNat) else x.full &&& ~~~(1#16 <<< t.toNat) }

/-- The bytes of a row of a physical tile. -/
def Ctx.tileRow (x : Ctx) (t : BitVec 4) (row : Nat) : List Byte := x.tiles.readBytes (4096 * t.toNat + 128 * row) 128

/-- Write bytes into a row of a physical tile; words written whole have fresh check bits (R326). -/
def Ctx.setTileBytes (x : Ctx) (t : BitVec 4) (row off : Nat) (bs : List Byte) : Ctx :=
  let at_ := 4096 * t.toNat + 128 * row + off
  { x with tiles := x.tiles.writeBytes at_ bs
           regEcc := x.regEcc.filter fun e => !(e.1.file == .tile && decide (at_ ≤ 4 * e.1.n ∧ 4 * e.1.n + 4 ≤ at_ + bs.length)) }

/-! ### Waits -/

/-- What a word waits for: reason, class, object and the bound's own trap data. -/
structure WaitOn where
  /-- Reason (R67). -/
  reason : BitVec 4
  /-- Beyond-cluster class. -/
  beyond : Bool
  /-- Object, for ADDR. -/
  object : W64
  deriving DecidableEq, Repr

/-- The signal word at a target is homed in a bank of the core's cluster (R67). -/
def nearTarget (k : CoreId) (t : Target) : Bool :=
  match t with
  | .bank j _ => sameCluster j k
  | _ => false

/-- The wait of a word on a signal word or a line. -/
def waitAt (k : CoreId) (t : Target) (reason : BitVec 4) (va : W64) : WaitOn :=
  { reason := reason, beyond := !nearTarget k t, object := va }

/-- The wait on a token counter: X→Y as 16 · X + Y of the sequencer codes (log entry 6). -/
def tokWait (ix : Fin 6) : WaitOn :=
  { reason := 3, beyond := false,
    object := match ix with | 0 => 0x12 | 1 => 0x13 | 2 => 0x21 | 3 => 0x23 | 4 => 0x31 | 5 => 0x32 }

/-- The first counter that holds too few tokens for the pops of a word (R38). -/
def Regs.tokShort (r : Regs) (pops : List (Fin 6 × Nat)) : Option (Fin 6) :=
  (pops.find? fun p => decide (r.tok[p.1.val] < p.2)).map fun p => p.1

/-- The first counter without room for the pushes of a word (R38). -/
def Regs.tokRoom (r : Regs) (pushes : List (Fin 6 × Nat)) : Option (Fin 6) :=
  (pushes.find? fun p => decide (15 < r.tok[p.1.val] + r.rsv[p.1.val] + p.2)).map fun p => p.1

/-- Take tokens. -/
def Regs.tokPop (r : Regs) (pops : List (Fin 6 × Nat)) : Regs :=
  pops.foldl (fun r p => { r with tok := vput r.tok p.1 (r.tok[p.1.val] - p.2) }) r

/-- Reserve room for tokens. -/
def Regs.tokReserve (r : Regs) (pushes : List (Fin 6 × Nat)) : Regs :=
  pushes.foldl (fun r p => { r with rsv := vput r.rsv p.1 (r.rsv[p.1.val] + p.2) }) r

/-- A wait on an event slot is met: it is unbound, or its generation is reached (R37), where no bank holds the word (R94, R230). -/
def State.slotMet (s : State) (e : EventSlot) : Bool :=
  if e.addr = 0 then true
  else
    match s.slotTarget e with
    | some t => !s.holds t 8 && genReached (signalGen (s.homeWord t 8)) e.arm
    | none => false

/-- What a word that waits on a slot waits for: the word, or the fold that holds it (R230). -/
def State.slotWait (s : State) (k : CoreId) (e : EventSlot) : WaitOn :=
  match s.slotTarget e with
  | some (.bank j off) =>
    if s.foldHeld j off 8 then { reason := 15, beyond := false, object := e.addr } else waitAt k (.bank j off) 4 e.addr
  | some t => waitAt k t 4 e.addr
  | none => { reason := 4, beyond := true, object := e.addr }

/-- A slot's binding after a wait on it has completed: every copy of that binding has its ARM advanced. -/
def passCopy (n : Fin 16) (e : EventSlot) (l : List (Fin 16 × EventSlot)) : List (Fin 16 × EventSlot) :=
  l.map fun x => if x.1 = n ∧ x.2 = e then (n, { e with arm := e.arm + 1 }) else x

/-- The wait on a binding of slot n completes: ARM advances in the slot and in the queued commands that hold the same binding,
or EVUNB is set (R37, R187). -/
def State.bindingPass (s : State) (k : CoreId) (n : Fin 16) (e : EventSlot) : State :=
  if e.addr = 0 then s.setFlags k fEVUNB
  else
    s.modCtx k fun x =>
      { x with
          regs := if x.regs.ev[n.val] = e then { x.regs with ev := vput x.regs.ev n { e with arm := e.arm + 1 } } else x.regs
          me := { x.me with queue := x.me.queue.map fun c => { c with waits := passCopy n e c.waits } }
          te := { x.te with queue := x.te.queue.map fun c => { c with waits := passCopy n e c.waits } } }

/-- The wait on a slot completes. -/
def State.slotPass (s : State) (k : CoreId) (n : Fin 16) : State := s.bindingPass k n (s.regs k).ev[n.val]

/-- The completion of a word or command: its pushes, and its signal through a slot as bound now (R187). -/
def State.dueOf (s : State) (k : CoreId) (pushes : List (Fin 6 × Nat)) (slots : List (Fin 16)) : Fin' :=
  let es := slots.map fun n => (s.regs k).ev[n.val]
  { push := pushes, sig := es.filter fun e => e.addr != 0, unbound := es.any fun e => e.addr == 0 }

/-! ### Waits on engine commands (R67, R247, R254) -/

/-- Where a VA of a core lies, if it translates. -/
def State.placeOf (s : State) (k : CoreId) (va : W64) : Option Target :=
  match s.translate (s.agent k).root (s.tlbOf k) va .load with
  | .ok (pa, pol, _) => s.target pa pol
  | .error _ => none

/-- Where n bytes at a target stand, as intervals of keys of memory; those behind a multicast window stand in every member's bank. -/
def State.keysAt (s : State) (t : Target) (n : Nat) : List (Int × Int) :=
  match t with
  | .mcast g off => (s.members g).map fun m => rangeAt (bankKey m.2 off) n
  | .ctrl j off => [rangeAt (-1 - 2 ^ 41 + s.bankPa j off % 2 ^ 39) n]
  | t => [rangeAt t.key n]

/-- Where the bytes of ranges of addresses stand, as intervals of keys of memory. What no page maps yet may come to stand anywhere, and so do
ranges too long to follow. (DEDUCED, log entry 12.) -/
def State.placesOf (s : State) (k : CoreId) (l : List (Int × Int)) : List (Int × Int) :=
  l.flatMap fun r =>
    if (2 ^ 40 : Int) ≤ r.2 - r.1 then [((-2 ^ 64 : Int), (2 ^ 64 : Int))]
    else
      (cutRange 4096 (r.1 % 2 ^ 64).toNat (r.2 - r.1).toNat).flatMap fun p =>
        match s.placeOf k (BitVec.ofNat 64 p.1) with
        | some t => s.keysAt t p.2
        | none => [((-2 ^ 64 : Int), (2 ^ 64 : Int))]

/-- Two lists of ranges share a byte: at one address, or through two addresses of one byte (R123, R258). -/
def State.shareBytes (s : State) (k : CoreId) (a b : List (Int × Int)) : Bool :=
  rangesShare a b || (!a.isEmpty && !b.isEmpty && spansShare (s.placesOf k a) (s.placesOf k b))

/-- The bytes a core sees at a VA, where they can be read. -/
def State.bytesAt (s : State) (k : CoreId) (va n : Nat) : Option (List Byte) :=
  ((cutRange 4096 va n).mapM fun p => (s.placeOf k (BitVec.ofNat 64 p.1)).map fun t => s.viewBytes k t p.2).map List.flatten

/-- The rows that entry n of a scatter drain's list names: its output, and its scales. -/
def State.scatterTo (s : State) (k : CoreId) (c : MCmd) (n : Nat) : List (Int × Int) :=
  let e := c.entryBytes
  match s.placeOf k (BitVec.ofNat 64 (c.w[5].toNat + e * n)) with
  | some t => c.scatterRow (leNat (s.viewBytes k t e) % 2 ^ 40)
  | none => []

/-- A VA names a bank of the core's cluster. -/
def State.nearVa (s : State) (k : CoreId) (va : W64) : Bool :=
  match s.placeOf k va with
  | some t => nearTarget k t
  | none => false

/-- Every page of a range of addresses is homed in a bank of the core's cluster. -/
def State.nearRange (s : State) (k : CoreId) (r : Int × Int) : Bool :=
  (cutRange 4096 (r.1 % 2 ^ 64).toNat (r.2 - r.1).toNat).all fun p => s.nearVa k (BitVec.ofNat 64 p.1)

/-- A wait on an M command is beyond-cluster: an MGATHER, or one that accesses anything other than the cluster's banks and tiles
(R254). A scatter's rows lie where its list, as it stands now, puts them. -/
def State.mBeyond (s : State) (k : CoreId) (c : MCmd) : Bool :=
  match c.op with
  | .gather _ => true
  | _ => (c.touchesFrom 0 0).any fun r => !s.nearRange k r
      || (c.scatters && (List.range c.slots).any fun n => (s.scatterTo k c n).any fun r => !s.nearRange k r)

/-- An engine command as the object of a wait: its sequence number, and its sequencer in [25:24]. -/
def cmdObject (q : Seq) (seqn : BitVec 24) : W64 := BitVec.ofNat 64 (seqn.toNat + 2 ^ 24 * seqCode q)

/-- The reason of a wait on a command: rows outstanding, or Mangle back-pressure where that holds a drain (R67, R253). -/
def MCmd.reason (c : MCmd) : BitVec 4 := if c.refused then 14 else 8

/-- A launch onto a full M queue waits for its oldest command (R233). -/
def State.mQueueWait (s : State) (k : CoreId) : WaitOn :=
  match (s.ctx k).me.queue with
  | c :: _ => { reason := c.reason, beyond := s.mBeyond k c, object := cmdObject .m c.seqn }
  | [] => { reason := 8, beyond := false, object := cmdObject .m 0 }

/-- A launch onto a full T queue waits for its oldest command, beyond-cluster (R201). -/
def State.tQueueWait (s : State) (k : CoreId) : WaitOn :=
  { reason := 8, beyond := true, object := cmdObject .t (((s.ctx k).te.queue.head?.map fun c => c.seqn).getD 0) }

/-- A queued command with the first incomplete MRUN or MGATHER on which its start depends, and the first on which its completion does. -/
structure RowDep where
  /-- The command. -/
  cmd : MCmd
  /-- What its start waits for. -/
  start : Option MCmd
  /-- What its completion waits for. -/
  fin : Option MCmd

/-- What a command depends on behind earlier ones (R247): it starts after them, and after the completion of those before a fence entry that it is,
those whose bytes it shares and those whose weight buffer it takes (R123, R235, R258); it completes after those whose slots it shares. -/
def State.rowDep (s : State) (k : CoreId) (earlier : List RowDep) (c : MCmd) : RowDep :=
  let waits := fun e : MCmd =>
    c.isFence || s.shareBytes k e.rangesLeft c.rangesLeft || (c.isLoad && e.isLoad) || (c.swaps && (e.isLoad || (e.isRows && !e.allIn)))
  let start := if c.started then none else earlier.findSome? fun e => if waits e.cmd then e.fin else e.start
  let slots := earlier.findSome? fun e => if spansMeet e.cmd.span c.span then e.fin else none
  { cmd := c, start := start, fin := (start <|> slots) <|> (if c.isRows then some c else none) }

/-- What each command of M's queue depends on. -/
def State.rowDeps (s : State) (k : CoreId) : List RowDep :=
  (s.ctx k).me.queue.foldl (fun l c => l ++ [s.rowDep k l c]) []

/-- A token or event wait that the completion of a queued MRUN or MGATHER would end, or of a command held behind one, shows reason 8,
in that command's class (R247). -/
def State.throughRows (s : State) (k : CoreId) (f : MCmd → Bool) (on : WaitOn) : WaitOn :=
  match (s.rowDeps k).findSome? fun d => if f d.cmd then d.fin else none with
  | some c => { reason := 8, beyond := s.mBeyond k c, object := cmdObject .m c.seqn }
  | none => on

/-- The wait on a token counter of a core. -/
def State.tokWaitOn (s : State) (k : CoreId) (ix : Fin 6) : WaitOn :=
  s.throughRows k (fun c => c.fin.push.any fun p => p.1 == ix) (tokWait ix)

/-- The wait on an event slot of a core. -/
def State.eventWaitOn (s : State) (k : CoreId) (e : EventSlot) : WaitOn :=
  s.throughRows k (fun c => c.fin.sig.any fun x => x.addr == e.addr) (s.slotWait k e)

end Sys2Proof.Machine
end

