-- ==== Sys2Proof/Machine/Secded.lean ====
section
/-! DEFINITION. The SEC-DED of register state (R326): which registers a word reads and writes, and what a read does that meets
an error. -/

namespace Sys2Proof.Machine

/-! ### Names of register words -/

/-- The words of n rows of a tile, from a row on. -/
def tileWords (t : BitVec 4) (row n : Nat) (w : RegWord) : Bool :=
  w.file == .tile && decide (1024 * t.toNat + 32 * row ≤ w.n ∧ w.n < 1024 * t.toNat + 32 * (row + n))

/-- The words of a slot. -/
def slotWords (q : Nat) (w : RegWord) : Bool := w.file == .slot && w.n / 64 == q

/-- The words of the active, or the shadow, weight buffer. -/
def weightWords (shadow : Bool) (w : RegWord) : Bool := w.file == .weight && decide (65536 ≤ w.n) == shadow

/-- A command in an engine's queue. -/
def queueWord (q : Seq) (seqn : BitVec 24) (w : RegWord) : Bool := w.file == .queue && w.q == q && w.n == seqn.toNat

/-- The words of a sequencer's own registers. -/
def seqWords (q : Seq) (w : RegWord) : Bool :=
  w.q == q && (w.file == .stack || w.file == .predicate || w.file == .branch || w.file == .loop)

/-! ### What a word reads (R326) -/

/-- The operands of a word and the predicate of its IF. -/
def Ctx.issueReads (x : Ctx) (q : Seq) (pops : Nat) (cond : Option (BitVec 4)) (w : RegWord) : Bool :=
  let d := (x.seq q).stack.length
  match w.file with
  | .stack => w.q == q && decide (d - pops ≤ w.n ∧ w.n < d)
  | .predicate => w.q == q && (match cond with | some p => p.extractLsb' 0 3 != 0 | none => false)
  | _ => false

/-- A word reads the predicates of its sequencer: a write of one of them is a read and a write of their word; c0 is a constant. -/
def readsPredicates (i : Instr) : Bool :=
  match i with
  | .br r | .brn r => r.toNat % 4 != 0
  | .getc r | .putc r | .ceq r | .cne r | .clt r | .cltu r | .cle r | .cleu r => r.toNat % 8 != 0
  | .pand _ | .por _ | .pnot _ => true
  | _ => false

/-- The branch target a word reads: a branch reads it where it is taken. -/
def Seqr.readsBranch (r : Seqr) (i : Instr) : Option (Fin 4) :=
  match i with
  | .br b => if r.pred ((b.extractLsb' 0 2).setWidth 3) then some (r2hi b) else none
  | .brn b => if b.toNat % 4 ≠ 0 ∧ !r.pred ((b.extractLsb' 0 2).setWidth 3) then some (r2hi b) else none
  | .call b => some (r2 b)
  | .loop b => if r.ln[(r2hi b).val] = 1 then none else some (r2 b)
  | _ => none

/-- The ports whose rows a V-format word reads (R263 to R269). -/
def portsRead (i : Instr) : List (BitVec 3) :=
  match i with
  | .vadd _ a b | .vsub _ a b | .vmul _ a b | .vmin _ a b | .vmax _ a b | .vand _ a b | .vor _ a b | .vxor _ a b | .vshl _ a b
  | .vshr _ a b | .vsar _ a b | .vclt _ a b | .vceq _ a b | .vbcast _ a b | .vshuf _ a b | .vscale _ a b | .vcvt _ a b
  | .vqmx _ a b | .vpk24 _ a b => [a, b]
  | .vmov _ a _ | .vabs _ a _ | .vneg _ a _ | .vsumr _ a _ | .vmaxr _ a _ | .vexp2 _ a _ | .vlog2 _ a _ | .vrcp _ a _
  | .vrsq _ a _ | .vdqmx _ a _ => [a]
  | .vfma d a b | .vsel d a b => [a, b, d]
  | .vlane r => [r.extractLsb' 0 3]
  | _ => []

/-- The words of the row that a port reads. -/
def Ctx.portWords (x : Ctx) (p : BitVec 3) (w : RegWord) : Bool :=
  let b := x.regs.port[p.toNat]
  (b.mode == 1 || b.mode == 3) && tileWords b.tile ((b.start.toNat + b.cur.toNat) % 32) 1 w

/-- A word copies the shadow command of its sequencer: a launch of M, DCOPY, and a DQAPP of the own image; an MSET of W14 keeps a
part of it. -/
def readsShadow (q : Seq) (i : Instr) (w : RegWord) : Bool :=
  match i with
  | .mloadb _ | .mloadt _ | .mrun _ | .mgather _ | .mdrain _ | .mzero _ | .mreada _ | .mpatch _ => q == .m && w.q == .m
  | .mset r => r == 14 && w.q == .m && w.n == 14
  | .dcopy _ => w.q == .t
  | _ => false

/-- The registers a word reads beside its operands where it is performed. -/
def Ctx.bodyReads (x : Ctx) (q : Seq) (i : Instr) (w : RegWord) : Bool :=
  match w.file with
  | .scalar => (match i with | .get r => w.n == r.toNat | .ret _ => w.n == 15 | _ => false)
  | .predicate => w.q == q && readsPredicates i
  | .branch => w.q == q && (match (x.seq q).readsBranch i with | some b => w.n == b.val | none => false)
  | .loop => w.q == q && (match i with | .getn r => w.n == (r2 r).val | .loop r => w.n == (r2hi r).val | _ => false)
  | .tile => (portsRead i).any fun p => x.portWords p w
  | .shadow => readsShadow q i w
  | _ => false

/-! ### What a word writes -/

/-- The registers a word writes whole, with fresh check bits; `base` is its stack's depth without its operands. -/
def regWrites (q : Seq) (base : Nat) (i : Instr) (w : RegWord) : Bool :=
  match w.file with
  | .stack => w.q == q && decide (base ≤ w.n)
  | .scalar => (match i with | .put r => w.n == r.toNat | .call _ => w.n == 15 | _ => false)
  | .branch => w.q == q && (match i with | .prep r => w.n == (r2 r).val | _ => false)
  | .loop => w.q == q && (match i with | .setn r => w.n == (r2 r).val | .loop r => w.n == (r2hi r).val | _ => false)
  | .shadow =>
    (match i with
     | .mset r => w.q == .m && r != 14 && w.n == r.toNat
     | .dset r => w.q == .t && w.n == r.toNat % 8
     | _ => false)
  | _ => false

/-- The context when the registers of p have been written. -/
def Ctx.regDrop (x : Ctx) (p : RegWord → Bool) : Ctx := { x with regEcc := x.regEcc.filter fun e => !p e.1 }

/-! ### Reading -/

/-- The first register of p that is uncorrectable. -/
def Ctx.regBad (x : Ctx) (p : RegWord → Bool) : Option RegWord := (x.regEcc.find? fun e => p e.1 && e.2).map fun e => e.1

/-- None of the registers of p has an error. -/
def Ctx.regSound (x : Ctx) (p : RegWord → Bool) : Bool := x.regEcc.all fun e => !p e.1

/-- Cause 0x31 for a register (R303): ADDR is its number in its file. (DEDUCED, log entry 50.) -/
def regTrap (w : RegWord) : TrapInfo := { code := 0x31, cls := 3, addr := BitVec.ofNat 64 w.n, info := 3 }

/-- An uncorrectable register is counted (R341). -/
def State.countBad (s : State) (k : CoreId) (w : RegWord) : State := s.countLife (.regUncorrectable k w.file)

/-- Single-bit errors of the registers of p are corrected, and counted by their files (R326, R341). -/
def State.regFix (s : State) (k : CoreId) (p : RegWord → Bool) : State :=
  if (s.ctx k).regSound p then s
  else ((s.ctx k).regEcc.filter fun e => p e.1).foldl (fun s e => s.countLife (.regCorrected k e.1.file)) (s.modCtx k fun x => x.regDrop p)

/-- A word reads the registers of p: an uncorrectable one is cause 0x31, with the state as the read leaves it; a corrected read holds
the sequencer one cycle (R326). (DEDUCED, log entry 50.) -/
def State.regRead (s : State) (k : CoreId) (q : Seq) (p : RegWord → Bool) : Except (State × TrapInfo) State :=
  if (s.ctx k).regSound p then .ok s
  else
    match (s.ctx k).regBad p with
    | some w => .error (s.countBad k w, regTrap w)
    | none => .ok ((s.regFix k p).modSeq k q fun r => { r with hold := r.hold + 1 })

end Sys2Proof.Machine
end

