-- ==== Sys2Proof/Machine/Words.lean ====
section
/-! DEFINITION. Issuing one word: the frame of R26 to R28, R154, R155, R157, R160 and R170 around each word's own meaning.
A meaning gives its word's operand counts and rights (`Spec`) and its body, a function from the popped operands to what
the word does (`Res`); `runWord` does everything that words have in common. -/

namespace Sys2Proof.Machine

/-- What a word's table entries fix (R154, R158, R191). -/
structure Spec where
  /-- Entries popped. -/
  pops : Nat := 0
  /-- Entries pushed. -/
  pushes : Nat := 0
  /-- It is accepted on these sequencers. -/
  on : List Seq := [.c, .m, .v, .t]
  /-- It is also accepted on C inside a hook (MREADA, MPATCH). -/
  hookC : Bool := false
  /-- Bits of r the entry uses (R153). -/
  rbits : BitVec 4 := 0
  /-- Prefix kinds it accepts. -/
  acc : Accept := {}
  /-- Banned inside a hook (R191). -/
  ban : Bool := false
  /-- Ostler privilege only. -/
  ostler : Bool := false
  /-- A right of CTRL[15:12] it needs. -/
  right : Option (Fin 4) := none
  /-- A launch word: its tokens and events belong to its command (R38, R161). -/
  launch : Bool := false

/-- What a word accepts on a sequencer: MREADA and MPATCH are launch words on M only, and cannot wait in a hook (R158, R257). -/
def Spec.accOn (sp : Spec) (q : Seq) : Accept := if sp.hookC && q == .c then {} else sp.acc

/-- What a body knows about its word. -/
structure Wd where
  /-- Core. -/
  k : CoreId
  /-- Sequencer. -/
  q : Seq
  /-- PC of the word. -/
  pc : VA
  /-- Its prefixes. -/
  px : Px
  /-- The pushes and the signal of its prefixes, due at its completion. -/
  fin : Fin'
  /-- The word's encoding. -/
  enc : Word16

/-- How a word that has been performed goes on. -/
structure Go where
  /-- Taken branch: target and bubbles (R165). -/
  jump : Option (VA × Nat) := none
  /-- State of the sequencer after the word. -/
  run : RunState := .running
  /-- FI charge (R154). -/
  cost : Nat := 1
  /-- Its tokens and signal are due at a later completion (R38). -/
  deferred : Bool := false
  /-- Sticky bits the word sets. -/
  flags : BitVec 32 := 0
  /-- What follows once the word has completed. -/
  after : State → State := id

/-- What a body answers. -/
inductive Res where
  /-- The word is performed. -/
  | done (s : State) (out : List W64) (go : Go)
  /-- The word traps, with no effect. -/
  | trap (t : TrapInfo)
  /-- The word traps on an error its read has found; the state keeps what the read found (R324). -/
  | found (s : State) (t : TrapInfo)
  /-- The word blocks (R67); `cost` is its charge at issue. -/
  | wait (w : WaitOn) (cost : Nat) (s : State)
  /-- The word is held (R94); `cost` is its charge at issue. -/
  | hold (s : State) (cost : Nat := 1)
  /-- A watch stops the word before it is performed (R328). -/
  | watch (h : WatchHit)
  /-- A watch stops the word at one of several accesses; the state keeps what the earlier ones did (R276). -/
  | seen (s : State) (h : WatchHit)
  /-- The body has set the sequencer itself. -/
  | raw (s : State) (cost : Nat)

/-- The FI charge that a body's answer gives its word as its operands stand (R154). -/
def Res.cost (r : Res) : Nat :=
  match r with
  | .done _ _ go => go.cost
  | .wait _ c _ => c
  | .hold _ c => c
  | .raw _ c => c
  | _ => 1

/-- A word performed with outputs, charge 1. -/
def ok (s : State) (out : List W64) : Res := .done s out {}

/-- Encoding of a word; operations and events have none. -/
def wordOf (i : Instr) : Word16 := (encodeWord i).getD 0

/-- Count an issued word: segment and trial counts (R197, R338), and the position for R165. -/
def Seqr.count (r : Seqr) (enc : Word16) (bubbles : Nat) : Seqr :=
  { r with issued := r.issued + 1, segCount := r.segCount + 1 + bubbles,
           segCrc := crcBytes r.segCrc [enc.extractLsb' 0 8, enc.extractLsb' 8 8] }

/-- A word's issue cycle counts for a trial where its PC lies outside the range, with the bubbles before it; the hold falls
due at 256 (R338). (DEDUCED, log entry 51.) -/
def State.trialCount (s : State) (k : CoreId) (q : Seq) (pc : VA) : State :=
  match (s.core k).trial with
  | none => s
  | some t =>
    if t.lo.toNat ≤ pc.toNat ∧ pc.toNat < t.hi.toNat then s
    else
      let s := s.modSeq k q fun r => { r with trialCount := r.trialCount + 1 + r.trialBub }
      if 256 ≤ (s.seq k q).trialCount then s.enqueue .trialHold { k := k, q := q } else s

/-- The sequencer after a word that completes: stack, PC, counts; its issue group is closed. -/
def Seqr.advance (r : Seqr) (pops : Nat) (out : List W64) (enc : Word16) (jump : Option (VA × Nat)) (run : RunState) :
    Seqr :=
  let (pc, bub) := match jump with | some (t, b) => (t, b) | none => (r.pc + 2, 0)
  { (r.count enc bub) with
      run := run, pc := pc, trialBub := bub, stack := pushOuts r.stack pops out, bubbles := bub, pfx := [], grpPc := none, held := none,
      wait := none, monitor := none, woke := false, expand := (0, 0), load := none, reads := [], skip := 0, paid := 0, claim := none, latch := [] }

/-- What a word of this charge still owes: all of it, or what it was not charged when it first blocked (R60). -/
def Seqr.owes (r : Seqr) (cost : Nat) : Nat := if r.held.isSome then cost - r.paid else cost

/-- A word completes: its charge, as far as it was not made when the word blocked, and its sequencer's advance. -/
def State.complete (s : State) (k : CoreId) (q : Seq) (pops : Nat) (out : List W64) (enc : Word16) (go : Go) : State :=
  let r := s.seq k q
  let s := s.chargeFi k (r.owes go.cost)
  let s := s.trialCount k q r.pc
  s.modSeq k q fun r => r.advance pops out enc go.jump go.run

/-- Every core of the node on a core, or the core alone. -/
def State.gangOf (s : State) (k : CoreId) : List CoreId :=
  match s.nodeOf k with
  | some n => n.cores
  | none => [k]

/-- A fare-due task's blocking wait is a pre-emption point (R65), in a gang for every core of the node; inside a hook it
waits for HRET (R191). -/
def State.duePoint (s : State) (k : CoreId) : State :=
  if (s.regs k).fareDue && (s.core k).hook.isNone then
    (s.gangOf k).foldl (fun s j => s.modCore j fun c => { c with preempt := askPreempt c.preempt 0x22 }) s
  else s

/-- The wait of a word that blocks or stays blocked. A change of class starts its count afresh (R67). An in-cluster wait counts
the cycles in which its word stays blocked; a beyond-cluster wait counts timer counts, at the end of the cycle (R69). -/
def nextWait (old : Option Wait) (w : WaitOn) (bound : Nat) : Wait :=
  match old with
  | some o =>
    { reason := w.reason, beyond := w.beyond, object := w.object, bound := bound,
      stalled := if o.beyond = w.beyond ∧ o.reason ≠ 0 then (if w.beyond then o.stalled else o.stalled + 1) else 0,
      blocked := o.blocked + 1 }
  | none => { reason := w.reason, beyond := w.beyond, object := w.object, bound := bound, stalled := 0, blocked := 0 }

/-- What a wait makes due in this cycle: the charge of every 256 blocked cycles (R60), and the expiry of an in-cluster bound
(R68). -/
def Wait.due (w : Wait) : List Instr :=
  (if w.blocked % 256 = 0 ∧ 0 < w.blocked then [.blockedCycleCharge] else [])
    ++ if w.reason ≠ 0 ∧ !w.beyond ∧ w.bound < w.stalled then [.waitBoundExpiry] else []

/-- A word blocks, or stays blocked: it is charged when it first blocks (R60, R155). -/
def State.block (s : State) (k : CoreId) (q : Seq) (i : Instr) (w : WaitOn) (cost : Nat) (wmax : Option Nat) : State :=
  let first := (s.seq k q).held.isNone
  let s := if first then s.chargeFi k cost else s
  let bound := 2 ^ wmax.getD 20
  let run := if w.reason = 0 then RunState.running else .blocked
  let nw := nextWait (s.seq k q).wait w bound
  let s := s.modSeq k q fun r => { r with run := run, held := some i, wait := some nw, paid := if first then cost else r.paid }
  let s := nw.due.foldl (fun s e => s.enqueue e { k := k, q := q }) s
  if w.reason = 0 then s else s.duePoint k

/-- The rights, privilege and hook checks of step 2 of R170, and the reason each records (R303). -/
def State.rightsTrap (s : State) (k : CoreId) (q : Seq) (sp : Spec) : Option TrapInfo :=
  if sp.ban && q == .c && (s.core k).hook.isSome then some (privilege 0 0)
  else if sp.ostler && !s.ostler k then some (privilege 0 0)
  else
    match sp.right with
    | some b => if s.right k b.val then none else some (privilege 0 5)
    | none => none

/-- The word is accepted on the sequencer (R26, R154). -/
def State.accepts (s : State) (k : CoreId) (q : Seq) (sp : Spec) : Bool :=
  sp.on.contains q || (sp.hookC && q == .c && (s.core k).hook.isSome)

/-- The tokens and the event a word that is no launch must have first: the room for its pushes, its pops, its wait slot
(R37, R38, R161). -/
def State.syncWait (s : State) (k : CoreId) (px : Px) : Option WaitOn :=
  let r := s.regs k
  match r.tokRoom px.pushes with
  | some ix => some (tokWait ix)
  | none =>
    match r.tokShort px.pops with
    | some ix => some (s.tokWaitOn k ix)
    | none =>
      match px.wait with
      | some n => if s.slotMet r.ev[n.val] then none else some (s.eventWaitOn k r.ev[n.val])
      | none => none

/-- The pops, the wait slot's advance, and the pushes with the signal, of a word that has been performed. -/
def State.syncDone (s : State) (k : CoreId) (px : Px) (fin : Fin') (deferred : Bool) : State :=
  let s := s.modRegs k fun r => (r.tokPop px.pops).tokReserve px.pushes
  let s := match px.wait with | some n => s.slotPass k n | none => s
  if deferred then s else s.finish k fin

/-- Errors of what a word writes whole are gone (R326). -/
def State.wrote (s : State) (k : CoreId) (q : Seq) (pops : Nat) (i : Instr) : State :=
  s.modCtx k fun x => x.regDrop (regWrites q ((s.seq k q).stack.length - pops) i)

/-- Turn a body's answer into the next state. -/
def State.settleRes (s : State) (w : Wd) (i : Instr) (sp : Spec) (r : BitVec 4) (res : Res) : State :=
  match res with
  | .trap t => s.takeTrap w.k w.q t
  | .found s t => s.takeTrap w.k w.q t
  | .wait on cost s => s.block w.k w.q i on cost w.px.wmax
  | .hold s cost => s.block w.k w.q i { reason := 0, beyond := false, object := 0 } cost none
  | .watch h => (s.modCore w.k fun c => { c with hit := some h }).enqueue .watchStop { k := w.k }
  | .seen s h => (s.modCore w.k fun c => { c with hit := some h }).enqueue .watchStop { k := w.k }
  | .raw s cost => s.chargeFi w.k cost
  | .done s out go =>
    let s := s.wrote w.k w.q sp.pops i
    let s := s.setFlags w.k (w.px.flags ||| go.flags ||| flagIf (rUnused r sp.rbits) fRFLD)
    let s := if sp.launch then s else s.syncDone w.k w.px w.fin go.deferred
    go.after (s.complete w.k w.q sp.pops out w.enc go)

/-- A body goes on where the registers of p are sound. -/
def withRegs (w : Wd) (p : RegWord → Bool) (s : State) (go : State → Res) : Res :=
  match s.regRead w.k w.q p with
  | .error (s, t) => .found s t
  | .ok s => go s

/-- The body of a word is performed, once the registers it reads are sound (R326). -/
def State.perform (s : State) (w : Wd) (i : Instr) (body : State → Res) : Res :=
  withRegs w ((s.ctx w.k).bodyReads w.q i) s body

/-- The answer of a word that has performed earlier stores while one of them is still in the broadcast tree, or a bank holds it: the word is held
until it can be performed (R94, R122, R126, R364). -/
def Res.lands (res : Res) (s : State) (w : Wd) : Res :=
  let kept := fun u : State => [Seq.c, .m, .v, .t].all fun q => (s.stuck w.k (s.seq w.k q)).isPrefixOf (s.stuck w.k (u.seq w.k q))
  if !s.anyStuck w.k then res
  else
    match res with
    | .done u _ go => if kept u then res else .hold s go.cost
    | .found u _ => if kept u then res else .hold s
    | .wait _ c u => if kept u then res else .hold s c
    | .hold u c => if kept u then res else .hold s c
    | .seen u _ => if kept u then res else .hold s
    | .raw u c => if kept u then res else .hold s c
    | .trap t => .trap t
    | .watch h => .watch h

/-- The word may perform earlier stores of its core: it orders them, reads memory, commits or synchronises (R117, R120, R122). Words that work
on registers only, and stores, do not. -/
def performsStores (i : Instr) : Bool :=
  match i with
  | .lit _ | .ext _ | .undefinedWord _ | .scope _ | .token _ | .ifp _ | .fmt _ | .sparse _ | .waitmax _ | .round _ | .sat _ | .event _ => false
  | .nop _ | .dup _ | .drop _ | .swap _ | .over _ | .rot _ | .pick _ | .depth _ | .get _ | .put _ | .getc _ | .putc _ => false
  | .prep _ | .br _ | .brn _ | .call _ | .ret _ | .loop _ | .setn _ | .getn _ | .icsync _ | .clock _ | .prog _ | .segchk _ => false
  | .add _ | .sub _ | .mul _ | .mulh _ | .mulhu _ | .div _ | .divu _ | .rem _ | .remu _ | .and _ | .or _ | .xor _ | .not _ | .neg _ => false
  | .shl _ | .shr _ | .sar _ | .min _ | .max _ | .minu _ | .maxu _ | .clz _ | .popc _ | .addi _ | .shli _ | .shri _ | .sext _ | .zext _ => false
  | .ceq _ | .cne _ | .clt _ | .cltu _ | .cle _ | .cleu _ | .pand _ | .por _ | .pnot _ | .sel _ | .lea _ | .tbset _ | .tbget _ => false
  | .st _ | .stx _ | .pstep _ | .vsplat _ | .vlane _ | .vputl _ | .tfree _ | .tfill _ => false
  | .vmov _ _ _ | .vadd _ _ _ | .vsub _ _ _ | .vmul _ _ _ | .vfma _ _ _ | .vmin _ _ _ | .vmax _ _ _ | .vabs _ _ _ | .vneg _ _ _ | .vand _ _ _ | .vor _ _ _ | .vxor _ _ _ => false
  | .vshl _ _ _ | .vshr _ _ _ | .vsar _ _ _ | .vclt _ _ _ | .vceq _ _ _ | .vsel _ _ _ | .vcvt _ _ _ | .vexp2 _ _ _ | .vlog2 _ _ _ | .vrcp _ _ _ | .vrsq _ _ _ => false
  | .vsumr _ _ _ | .vmaxr _ _ _ | .vbcast _ _ _ | .vshuf _ _ _ | .vscale _ _ _ | .vqmx _ _ _ | .vdqmx _ _ _ | .vpk24 _ _ _ | .vclr _ _ _ => false
  | _ => true

/-- Issue a word of the sequencer whose turn it is. -/
def runWord (i : Instr) (r : BitVec 4) (sp : Spec) (body : Wd → List W64 → State → Res) (s : State) : State :=
  let k := s.cur.1
  let q := s.cur.2
  let sq := s.seq k q
  let enc := wordOf i
  if !s.accepts k q sp then s.takeTrap k q { code := 0x01, addr := enc.setWidth 64 }
  else if stackBad sq.stack.length sp.pops sp.pushes then
    s.takeTrap k q { code := 0x02, info := BitVec.ofNat 64 (sq.stack.length + sp.pops * 256 + sp.pushes * 4096) }
  else
    match s.rightsTrap k q sp with
    | some t => s.takeTrap k q t
    | none =>
      let px := resolvePx q (isMerge k) (sp.accOn q) sq.pfx
      match s.regRead k q ((s.ctx k).issueReads q sp.pops px.cond) with
      | .error (s, t) => s.takeTrap k q t
      | .ok s =>
      if (match px.cond with | some p => !sq.condHolds p | none => false) then
        (s.wrote k q sp.pops (.nop 0)).complete k q sp.pops (List.replicate sp.pushes 0) enc {}
      else
        let fin := s.dueOf k px.pushes px.signal.toList
        let w : Wd := { k := k, q := q, pc := sq.pc, px := px, fin := fin, enc := enc }
        let own := s.perform w i (body w (popArgs sq.stack sp.pops))
        let own := if performsStores i then own.lands s w else own
        let res :=
          if sp.launch then own
          else
            match s.syncWait k px with
            | some on => .wait on own.cost s
            | none => own
        s.settleRes w i sp r res

/-- Issue a prefix (R157): it takes its own issue cycle, is not charged, and waits for the word it governs. -/
def issuePrefix (i : Instr) (kd : PKind) (p : BitVec 8) (s : State) : State :=
  let k := s.cur.1
  let q := s.cur.2
  let pc := (s.seq k q).pc
  let s := s.trialCount k q pc
  s.modSeq k q fun r =>
    { (r.count (wordOf i) 0) with
        pc := r.pc + 2, trialBub := 0, pfx := r.pfx ++ [{ kind := kd, payload := p }], grpPc := some (r.grpPc.getD r.pc)
        grpSeg := if r.grpPc.isSome then r.grpSeg else (r.issued, r.segCount, r.segCrc) }

/-! ### Bodies of plain shapes -/

/-- A word of no operands and one result. -/
def body0 (f : Wd → State → W64) : Wd → List W64 → State → Res := fun w _ s => ok s [f w s]

/-- A word x → f. -/
def body1 (f : W64 → W64) : Wd → List W64 → State → Res := fun _ args s =>
  match args with
  | [x] => ok s [f x]
  | _ => ok s []

/-- A word a b → f, with b on top. -/
def body2 (f : W64 → W64 → W64) : Wd → List W64 → State → Res := fun _ args s =>
  match args with
  | [a, b] => ok s [f a b]
  | _ => ok s []

/-- A word that only changes its sequencer. -/
def bodySeq (f : Seqr → List W64 → Seqr) : Wd → List W64 → State → Res := fun w args s =>
  ok (s.modSeq w.k w.q fun r => f r args) []

/-! ### Watches (R190, R191, R328) -/

/-- The value of a unit of the access meets VOP against VALUE. -/
def watchValue (w : Watch) (v : Nat) : Bool :=
  let vw := 2 ^ bitsOf w.ctl.toNat 6 5
  let ref := w.value.toNat % 2 ^ (8 * vw)
  match bitsOf w.ctl.toNat 4 3 with
  | 0 => v == ref
  | 1 => v != ref
  | 2 => decide (v < ref)
  | _ => decide (ref ≤ v)

/-- The watched unit that an access of bytes at an address meets: under VCOND the first VW-byte unit whose value meets the
condition, and otherwise the first byte of the access inside the range (R191). -/
def Watch.unit (w : Watch) (va : Nat) (bs : List Byte) (write : Bool) : Option Nat :=
  let lo := w.base.toNat
  let hi := lo + w.size.toNat
  let acc := bitsOf w.ctl.toNat 1 0
  let kindOk := if write then acc == 2 || acc == 3 else acc == 1 || acc == 3
  let n := bs.length
  let vw := 2 ^ bitsOf w.ctl.toNat 6 5
  if !(kindOk && decide (va < hi) && decide (lo < va + n)) then none
  else if !w.ctl.getLsbD 2 then some (max va lo)
  else
    ((List.range n).find? fun i =>
      (va + i) % vw == 0 && decide (i + vw ≤ n) && decide (lo ≤ va + i) && decide (va + i + vw ≤ hi)
        && watchValue w (leNat ((bs.drop i).take vw))).map fun i => va + i

/-- An access of bytes at an address meets a watch. -/
def Watch.meets (w : Watch) (va : Nat) (bs : List Byte) (write : Bool) : Bool := (w.unit va bs write).isSome

/-- The lowest watch of the node that an access meets and that has not stopped it already (R330); none is checked while a
hook runs. -/
def State.watchHit (s : State) (k : CoreId) (skip : BitVec 8) (va : W64) (bs : List Byte) (write : Bool) :
    Option (Fin 8) :=
  if (s.core k).hook.isSome then none
  else
    match s.nodeOf k with
    | none => none
    | some n => (List.finRange 8).find? fun j =>
        !skip.getLsbD j.val && (match n.watch[j.val] with | some w => w.meets va.toNat bs write | none => false)

/-- The address of the unit of watch j that an access of a core meets (R192, R303). -/
def State.watchUnit (s : State) (k : CoreId) (j : Fin 8) (va : W64) (bs : List Byte) (write : Bool) : W64 :=
  match ((s.nodeOf k).bind fun n => n.watch[j.val]).bind fun w => w.unit va.toNat bs write with
  | some u => BitVec.ofNat 64 u
  | none => va

/-- The record of a watch stop of a sequencer word. -/
def State.wordHit (s : State) (w : Wd) (j : Fin 8) (write : Bool) (va : W64) (bs : List Byte) : WatchHit :=
  { q := w.q, engine := false, watch := j, write := write, addr := s.watchUnit w.k j va bs write, seqn := 0, row := 0,
    pc := (s.seq w.k w.q).trapPc }

/-- Go on with an access that no watch stops. -/
def withWatch (w : Wd) (s : State) (va : W64) (bs : List Byte) (write : Bool) (go : Unit → Res) : Res :=
  match s.watchHit w.k (s.seq w.k w.q).skip va bs write with
  | some j => .watch (s.wordHit w j write va bs)
  | none => go ()

/-- Go on with an access that passes the checks of R170 (R94, R230). -/
def withAccess (w : Wd) (s : State) (va : W64) (n al : Nat) (x : Acc) (cost : Nat) (go : Target → State → Res) : Res :=
  match s.access w.k va n al x with
  | .error (.trap t) => .trap t
  | .error .hold => .hold s cost
  | .error (.fold a) => .wait { reason := 15, beyond := false, object := a } cost s
  | .ok (t, e) => go t ((s.useTlb w.k e).meet t n)

/-- Go on with a read that meets no poison (R325). -/
def withConsume (w : Wd) (s : State) (t : Target) (n : Nat) (go : State → Res) : Res :=
  match s.consumeBy w.k t n with
  | (s, some p) => .found s p
  | (s, none) => go s

/-! ### Ranges -/

/-- Bytes of an access whose other end is not the core's own bank (R60). -/
def farBytes (k : CoreId) (t : Target) (n : Nat) : Nat :=
  match t with
  | .bank j _ => if j = k then 0 else n
  | .ctrl j _ => if j = k then 0 else n
  | _ => n

/-- Read pieces as plain loads in address order, consuming poison where it is met: the bytes, and how many of them come
from elsewhere than the own bank. -/
def withPieces (w : Wd) (l : List (Nat × Nat)) (al cost : Nat) (bs : List Byte) (far : Nat) (s : State)
    (go : List Byte → Nat → State → Res) : Res :=
  match l with
  | [] => go bs far s
  | (va, n) :: t =>
    withAccess w s (BitVec.ofNat 64 va) n al .load cost fun tg s =>
      let b := s.viewBytes w.k tg n
      withWatch w s (BitVec.ofNat 64 va) b false fun _ => withConsume w s tg n fun s =>
        withPieces w t 1 cost (bs ++ b) (far + farBytes w.k tg n) s go

/-- Check pieces in address order, before any is touched (R170). -/
def withChecks (w : Wd) (l : List (Nat × Nat)) (al : Nat) (x : Acc) (cost : Nat) (s : State) (go : State → Res) : Res :=
  match l with
  | [] => go s
  | (va, n) :: t => withAccess w s (BitVec.ofNat 64 va) n al x cost fun _ s => withChecks w t al x cost s go

/-- Read the n bytes of a range whose address is aligned to `al`, sector by sector, once the pages it lies in have passed the
checks (R170). -/
def withRange (w : Wd) (s : State) (va : W64) (n al cost : Nat) (go : List Byte → Nat → State → Res) : Res :=
  withChecks w (cutRange 4096 va.toNat n) al .load cost s fun s =>
    withPieces w (cutRange 32 va.toNat n) al cost [] 0 (s.settle w.k w.q) go

/-- A descriptor or list that cannot be read is a translation trap, whichever check of R170 it fails (R45, R292). (DEDUCED, log entry 27.) -/
def Res.unreadable (r : Res) : Res :=
  match r with
  | .trap t => .trap (if t.code = 0x03 ∨ t.code = 0x04 then noPermission t.addr 0 else t)
  | r => r

/-- The little-endian value of n of some bytes, from an offset. -/
def leAt (bs : List Byte) (off n : Nat) : Nat := leNat ((bs.drop off).take n)

/-- FT units of a number of bytes (R60). -/
def ftUnits (n : Nat) : Nat := (n + 127) / 128

end Sys2Proof.Machine
end

