-- ==== Sys2Proof/Machine/Memwords.lean ====
section
/-! DEFINITION. Loads, stores, QMARK, FENCE, atomics, waits and signals (R120, R180 to R185), and the performance of loads
and stores that have issued. -/

namespace Sys2Proof.Machine

/-! ### Loads and stores (R180) -/

/-- The size of a load or store: 2^z bytes. -/
def accBytes (r : BitVec 4) : Nat := 2 ^ (r.toNat % 4)

/-- A loaded value of n bytes, zero- or sign-extended. -/
def extend (sx : Bool) (n : Nat) (bs : List Byte) : W64 :=
  let v := BitVec.ofNat 64 (leNat bs)
  if sx then (v.setWidth (8 * n)).signExtend 64 else v

/-- A load is performed in order with the sequencer's stores at these targets: DEVICE accesses (R100). -/
def Target.ordered (t : Target) : Bool :=
  match t with
  | .ctrl _ _ => true
  | .pool _ .device => true
  | _ => false

/-- The bytes a load takes: forwarded from the latest covering store, or read at the home; a partial overlap waits until
the store is performed (R120). The second component is the state after that. -/
def State.loadBytes (s : State) (k : CoreId) (q : Seq) (t : Target) (n : Nat) : State × Option (List Byte) :=
  if t.ordered then (s.settle k q, none)
  else
    match forward (s.seq k q).stores (s.paOf t) n with
    | .all bs => (s, some bs)
    | .part => (s.settle k q, none)
    | .none => (s, none)

/-- log2 of the size of a load. -/
def sizeLog (n : Nat) : Fin 4 := ⟨Nat.log2 n % 4, Nat.mod_lt _ (by decide)⟩

/-- A load under these prefixes acquires (R159). -/
def Px.acquires (p : Px) : Bool := match p.scope with | some (_, o) => o.getLsbD 1 | none => false

/-- A load has taken its value, which replaces the top `pops` entries of the stack: one of ordinary memory that does not acquire may still be
performed later (R120, R122), one of DEVICE memory only after every earlier load. -/
def State.noteLoad (s : State) (w : Wd) (t : Target) (n pops : Nat) (sx : Bool) : State :=
  s.modSeq w.k w.q fun r =>
    if t.ordered then { r with late := [] }
    else if w.px.acquires then { r with late := [] }
    else
      { r with late := r.late ++ [{ pa := s.paOf t, policy := t.policy, z := sizeLog n, sx := sx, ix := r.stack.length - pops
                                    older := r.stores.length }] }

/-- A word waits for the reply of another module, of which it asks on its first turn (reason 13, R355). -/
def awaitReply (w : Wd) (s : State) (va : W64) (pa n : Nat) (sx : Bool) : Res :=
  let l : PendingLoad := { pa := pa, policy := .device, z := sizeLog n, sx := sx, value := none }
  .wait { reason := 13, beyond := true, object := va } 1 (s.modSeq w.k w.q fun r => { r with load := some (r.load.getD l), late := [] })

/-- A load of n bytes at an address (R180): the checks, the watches, poison, FT, the value. A load from another module waits
for its reply (reason 13, R355), and every earlier load is performed before it. (DEDUCED, log entry 11.) -/
def loadAt (w : Wd) (s : State) (va : W64) (n pops : Nat) (sx : Bool) : Res :=
  withAccess w s va n n .load 1 fun t s =>
    match t with
    | .remote pa =>
      match (s.seq w.k w.q).load with
      | some l =>
        match l.value with
        | some v => ok (s.chargeFt w.k t n) [v]
        | none => awaitReply w s va pa n sx
      | none => withWatch w s va (s.homeBytes t n) false fun _ => awaitReply w (s.settle w.k w.q) va pa n sx
    | _ =>
      match s.loadBytes w.k w.q t n with
      | (s, some bs) => withWatch w s va bs false fun _ => ok ((s.noteLoad w t n pops sx).chargeFt w.k t n) [extend sx n bs]
      | (s, none) =>
        let bs := s.viewBytes w.k t n
        withWatch w s va bs false fun _ => withConsume w (s.usePorts [(t, n)] false) t n fun s => ok ((s.noteLoad w t n pops sx).chargeFt w.k t n) [extend sx n bs]

/-- A store of n bytes at an address (R180): it enters the store queue. -/
def storeAt (w : Wd) (s : State) (v va : W64) (n : Nat) : Res :=
  let bs := leBytes n v.toNat
  withAccess w s va n n .store 1 fun t s =>
    withWatch w s va bs true fun _ => ok ((s.issueStore w.k w.q t bs).chargeFt w.k t n) []

/-- The prefix kinds of loads, stores and the like. -/
def accScope : Accept := { scope := true, blocks := true }

/-- LD r: a → v. -/
def execLd (r : BitVec 4) (s : State) : Host.Outcome State Fault Refusal :=
  .next (runWord (.ld r) r { pops := 1, pushes := 1, rbits := 7, acc := accScope }
    (fun w a s => loadAt w s (a.headD 0) (accBytes r) 1 (r.getLsbD 2)) s)

/-- ST r: v a →. -/
def execSt (r : BitVec 4) (s : State) : Host.Outcome State Fault Refusal :=
  .next (runWord (.st r) r { pops := 2, rbits := 3, acc := accScope }
    (fun w a s => storeAt w s (a.headD 0) (a.getD 1 0) (accBytes r)) s)

/-- LDX r: a i → v, at a + i · 2^z. -/
def execLdx (r : BitVec 4) (s : State) : Host.Outcome State Fault Refusal :=
  .next (runWord (.ldx r) r { pops := 2, pushes := 1, rbits := 7, acc := accScope }
    (fun w a s => loadAt w s (a.headD 0 + a.getD 1 0 * BitVec.ofNat 64 (accBytes r)) (accBytes r) 2 (r.getLsbD 2)) s)

/-- STX r: v a i →. -/
def execStx (r : BitVec 4) (s : State) : Host.Outcome State Fault Refusal :=
  .next (runWord (.stx r) r { pops := 3, rbits := 3, acc := accScope }
    (fun w a s =>
      storeAt w s (a.headD 0) (a.getD 1 0 + a.getD 2 0 * BitVec.ofNat 64 (accBytes r)) (accBytes r)) s)

/-- QMARK (R120): no later access is performed until every earlier one has been. -/
def execQmark (r : BitVec 4) (s : State) : Host.Outcome State Fault Refusal :=
  .next (runWord (.qmark r) r {} (fun w _ s => ok (s.settle w.k w.q) []) s)

/-! ### FENCE (R123, R181) -/

/-- An M command that is a fence entry. -/
def fenceM (seqn : BitVec 24) (pc : VA) (f : Fin') : MCmd :=
  { op := .fence, w := .replicate 16 0, seqn := seqn, pc := pc, quad := false, sparse := none, rnd := 0, sat := 1, pops := [], waits := [],
    fin := f, started := false, swapped := false, tiles := [], next := 0, arrived := 0, seen := 0, took := [], fly := [],
    stop := none, poisonTag := none, nPoison := 0, nDup := 0, deferred := [], lost := [], again := none, refused := false,
    skip := 0 }

/-- A T command that is a fence entry. -/
def fenceT (seqn : BitVec 24) (pc : VA) (f : Fin') : TCmd :=
  { op := .fence, seqn := seqn, pc := pc, pops := [], waits := [], fin := f, started := false, sigSlot := EventSlot.unbound,
    stop := none, badIdx := false, mcSkip := false, deferred := [], fmt := none, skip := 0 }

/-- FENCE: every earlier access of the sequencer is performed; on M and T a fence entry joins the engine's queue, and the
signal and pushes are made when the entry passes. -/
def execFence (r : BitVec 4) (s : State) : Host.Outcome State Fault Refusal :=
  .next (runWord (.fence r) r { acc := { scope := true, event := true, blocks := true } }
    (fun w _ s =>
      let s1 := s.settle w.k w.q
      match w.q with
      | .m =>
        if 8 ≤ (s1.ctx w.k).me.queue.length then .wait (s1.mQueueWait w.k) 1 s1
        else .done (s1.modMe w.k fun e => { e with queue := e.queue ++ [fenceM 0 w.pc w.fin] }) [] { deferred := true }
      | .t =>
        if 32 ≤ (s1.ctx w.k).te.queue.length then .wait (s1.tQueueWait w.k) 1 s1
        else .done (s1.modTe w.k fun e => { e with queue := e.queue ++ [fenceT 0 w.pc w.fin] }) [] { deferred := true }
      | _ => ok s1 []) s)

/-! ### Atomics (R182, R183) -/

/-- A write of pool memory with every path lost (R351). -/
def State.cut (s : State) (t : Target) : Bool :=
  match t with
  | .pool pa _ => s.poolLost pa
  | _ => false

/-- The deferred 0x38 of a word (R351, R356). (DESIGN CHOICE, log entry 4.) -/
def linkLoss (w : Wd) (s : State) : State := s.defer w.k w.q 0 (s.seq w.k w.q).trapPc { code := 0x38 }

/-- Where a word must still await the reply of another module (R355). -/
def State.replyDue (s : State) (k : CoreId) (q : Seq) (t : Target) : Option Nat :=
  match t with
  | .remote pa => (match (s.seq k q).load with | some l => if l.value.isSome then none else some pa | none => some pa)
  | _ => none

/-- An atomic on n bytes: the version is committed, the step is performed at the home, the old value returned. `f` gives the
new bytes, or none where nothing is written. With every path to its pool memory lost it raises a deferred 0x38, is not
performed, and returns a free value (R351, log entry 4). One at another module is performed as its reply comes, until which the word waits
(R355). One that writes nothing, an ACAS whose comparison fails, is checked against write watches with the old value, of which R191 says
nothing. (DESIGN CHOICE, log entry 28.) -/
def atomicAt (w : Wd) (s : State) (va : W64) (n : Nat) (flags : BitVec 32) (f : W64 → Option W64) : Res :=
  withAccess w s va n n .atomic 4 fun t s =>
    let s0 := s.settle w.k w.q
    let s := (s0.commit w.k).escape w.k
    let old := s.homeWord t n
    if s.cut t then
      let (v, s) := s.fresh
      .done (linkLoss w (s.chargeFt w.k t n)) [v] { cost := 4, flags := flags }
    else
    withWatch w s va (s.homeBytes t n) false fun _ =>
      let new := f old
      withWatch w s va (leBytes n (new.getD old).toNat) true fun _ =>
        match s.replyDue w.k w.q t with
        | some pa => awaitReply w s0 va pa n false
        | none => withConsume w (s.usePorts [(t, n)] false) t n fun s =>
          let s := match new with | some v => s.coreWrite w.k t (leBytes n v.toNat) | none => s
          .done (s.chargeFt w.k t n) [old] { cost := 4, flags := flags }

/-- Sequencers of atomics and signals. -/
def onCVT : List Seq := [.c, .v, .t]

/-- A two-operand atomic word a v → m. -/
def atomicWord (i : Instr) (r : BitVec 4) (f : W64 → W64 → W64) (s : State) : Host.Outcome State Fault Refusal :=
  .next (runWord i r { pops := 2, pushes := 1, on := onCVT, acc := accScope }
    (fun w a s => atomicAt w s (a.headD 0) 8 0 fun m => some (f m (a.getD 1 0))) s)

/-- AADD. -/
def execAadd (r : BitVec 4) (s : State) : Host.Outcome State Fault Refusal := atomicWord (.aadd r) r (· + ·) s
/-- AXCHG. -/
def execAxchg (r : BitVec 4) (s : State) : Host.Outcome State Fault Refusal := atomicWord (.axchg r) r (fun _ v => v) s
/-- ACAS: a e n → m; n is written where m = e. -/
def execAcas (r : BitVec 4) (s : State) : Host.Outcome State Fault Refusal :=
  .next (runWord (.acas r) r { pops := 3, pushes := 1, on := onCVT, acc := accScope }
    (fun w a s => atomicAt w s (a.headD 0) 8 0 fun m => if m = a.getD 1 0 then some (a.getD 2 0) else none) s)
/-- AMIN, signed. -/
def execAmin (r : BitVec 4) (s : State) : Host.Outcome State Fault Refusal :=
  atomicWord (.amin r) r (fun m v => if m.slt v then m else v) s
/-- AMAX, signed. -/
def execAmax (r : BitVec 4) (s : State) : Host.Outcome State Fault Refusal :=
  atomicWord (.amax r) r (fun m v => if m.slt v then v else m) s
/-- AMINU. -/
def execAminu (r : BitVec 4) (s : State) : Host.Outcome State Fault Refusal :=
  atomicWord (.aminu r) r (fun m v => if m.ult v then m else v) s
/-- AMAXU. -/
def execAmaxu (r : BitVec 4) (s : State) : Host.Outcome State Fault Refusal :=
  atomicWord (.amaxu r) r (fun m v => if m.ult v then v else m) s
/-- AAND. -/
def execAand (r : BitVec 4) (s : State) : Host.Outcome State Fault Refusal := atomicWord (.aand r) r (· &&& ·) s
/-- AOR. -/
def execAor (r : BitVec 4) (s : State) : Host.Outcome State Fault Refusal := atomicWord (.aor r) r (· ||| ·) s
/-- AXOR. -/
def execAxor (r : BitVec 4) (s : State) : Host.Outcome State Fault Refusal := atomicWord (.axor r) r (· ^^^ ·) s

/-- old + addend rounded to a float format, RNE with IEEE overflow, lane j of `w` bits. -/
def laneAdd (f g : FloatFmt) (old add : W64) (wOld wAdd j : Nat) : Nat :=
  let o := bitsOf old.toNat (wOld * j + wOld - 1) (wOld * j)
  let a := bitsOf add.toNat (wAdd * j + wAdd - 1) (wAdd * j)
  rnd ((decodeFloat f o).add (decodeFloat g a) 0) f 0 true

/-- The new value of AFADD: form 0 one FP32, 1 two BF16, 2 two FP32; `narrow` where FMT makes the addend BF16. -/
def afaddNew (form : Nat) (narrow : Bool) (old v : W64) : W64 :=
  let g := if narrow then bf16 else fp32
  let wg := if narrow then 16 else 32
  match form with
  | 1 => BitVec.ofNat 64 (laneAdd bf16 bf16 old v 16 16 0 + 2 ^ 16 * laneAdd bf16 bf16 old v 16 16 1)
  | 2 => BitVec.ofNat 64 (laneAdd fp32 g old v 32 wg 0 + 2 ^ 32 * laneAdd fp32 g old v 32 wg 1)
  | _ => BitVec.ofNat 64 (laneAdd fp32 g old v 32 wg 0)

/-- AFADD r (R183). -/
def execAfadd (r : BitVec 4) (s : State) : Host.Outcome State Fault Refusal :=
  .next (runWord (.afadd r) r { pops := 2, pushes := 1, on := onCVT, rbits := 3, acc := { scope := true, fmt := true, blocks := true } }
    (fun w a s =>
      let form := if r.toNat % 4 = 3 then 0 else r.toNat % 4
      let first := (w.px.fmt.map fun p => p.1).getD 0
      let flags := flagIf (r.toNat % 4 == 3) fRFLD ||| flagIf (decide (1 < first)) fWFMT
      atomicAt w s (a.headD 0) (if form = 2 then 8 else 4) flags fun m => some (afaddNew form (first == 1) m (a.getD 1 0))) s)

/-! ### Waits and signals (R118, R119, R185) -/

/-- MWAIT: a v →. -/
def execMwait (r : BitVec 4) (s : State) : Host.Outcome State Fault Refusal :=
  .next (runWord (.mwait r) r { pops := 2, on := onCVT, acc := accScope }
    (fun w a s =>
      let va := a.headD 0
      withAccess w s va 8 8 .load 1 fun t s =>
        let x := s.seq w.k w.q
        if x.monitor.isSome && x.woke then ok s []
        else
          let s := s.settle w.k w.q
          let bs := s.viewBytes w.k t 8
          withWatch w s va bs false fun _ => withConsume w s t 8 fun s =>
            if x.monitor.isNone && BitVec.ofNat 64 (leNat bs) != a.getD 1 0 then ok (s.chargeFt w.k t 8) []
            else .wait (waitAt w.k t 7 va) 1 (s.modSeq w.k w.q fun y => { y with monitor := some (t.key / 128) })) s)

/-- SIGPOST: a n →. -/
def execSigpost (r : BitVec 4) (s : State) : Host.Outcome State Fault Refusal :=
  .next (runWord (.sigpost r) r { pops := 2, on := onCVT, acc := accScope }
    (fun w a s =>
      let va := a.headD 0
      withAccess w s va 8 8 .atomic 4 fun t s =>
        let s := ((s.settle w.k w.q).commit w.k).escape w.k
        let new := signalAdd (s.homeWord t 8) ((a.getD 1 0).setWidth 24)
        if s.cut t then .done (linkLoss w (s.chargeFt w.k t 8)) [] { cost := 4 }
        else
        withWatch w s va (leBytes 8 new.toNat) true fun _ => withConsume w s t 8 fun s =>
          .done ((s.coreWrite w.k t (leBytes 8 new.toNat)).chargeFt w.k t 8) [] { cost := 4 }) s)

/-- SIGWAIT: a g →. -/
def execSigwait (r : BitVec 4) (s : State) : Host.Outcome State Fault Refusal :=
  .next (runWord (.sigwait r) r { pops := 2, on := onCVT, acc := accScope }
    (fun w a s =>
      let va := a.headD 0
      withAccess w s va 8 8 .load 1 fun t s =>
        let s := s.settle w.k w.q
        let bs := s.viewBytes w.k t 8
        withWatch w s va bs false fun _ => withConsume w s t 8 fun s =>
          if genReached (signalGen (BitVec.ofNat 64 (leNat bs))) ((a.getD 1 0).setWidth 16) then ok (s.chargeFt w.k t 8) []
          else .wait (waitAt w.k t 4 va) 1 (s.modSeq w.k w.q fun y => { y with monitor := some (t.key / 128) })) s)

/-- SIGSET: a w →. -/
def execSigset (r : BitVec 4) (s : State) : Host.Outcome State Fault Refusal :=
  .next (runWord (.sigset r) r { pops := 2, on := onCVT, acc := accScope }
    (fun w a s =>
      let va := a.headD 0
      let bs := leBytes 8 (a.getD 1 0).toNat
      withAccess w s va 8 8 .atomic 4 fun t s =>
        let s := ((s.settle w.k w.q).commit w.k).escape w.k
        if s.cut t then .done (linkLoss w (s.chargeFt w.k t 8)) [] { cost := 4 }
        else
        withWatch w s va bs true fun _ => .done ((s.coreWrite w.k t bs).chargeFt w.k t 8) [] { cost := 4 }) s)

/-! ### Performance of loads and stores (R120) -/

/-- What the oldest pending store of a sequencer asks of the ports of banks. -/
def State.storeUse (s : State) (k : CoreId) (q : Seq) : List (Target × Nat) :=
  match (s.seq k q).stores with
  | p :: _ => (match s.storeTarget p with | some t => [(t, p.data.length)] | none => [])
  | [] => []

/-- STORE_PERFORM: the oldest pending store of a sequencer is performed, or a copy of it lands, where the ports of its bank can carry it
(R17, R120, R126). -/
def execStorePerform (s : State) : Host.Outcome State Fault Refusal :=
  let use := s.storeUse s.arg.k s.arg.q
  if s.portsAllow use true then .next ((s.usePorts use true).storeNext s.arg.k s.arg.q) else .next s

/-- The trap of a read from another module whose route has been lost (R356). -/
def lostRead (pa : Nat) : TrapInfo := { code := 0x16, cls := 3, addr := BitVec.ofNat 64 (pa / 32 * 32), info := 5 }

/-- The oldest outstanding read of a fibre word is performed at its home (R276). -/
def State.fibPerform (s : State) (k : CoreId) (q : Seq) : State :=
  match (s.seq k q).reads.find? fun r => r.value.isNone with
  | none => s
  | some r =>
    match s.target r.pa .device with
    | none => (s.defer k q 0 (s.seq k q).trapPc { code := 0x38 }).takeTrap k q (lostRead r.pa)
    | some t =>
      let put := fun (s : State) (p : Bool) =>
        let v := leNat (s.homeBytes t r.n)
        s.modSeq k q fun x => { x with reads := x.reads.map fun y => if y = r then { y with value := some v, poison := p } else y }
      match s.consume t r.n with
      | (s, some p) => if r.carry then put s true else s.takeTrap k q p
      | (s, none) => put s false

/-- The value that a load which may still be performed later would take now: from the latest of the pending stores before it that covers its
bytes, or at its home or in the version (R120). There is none while its bytes are held, or where a partial overlap, poison or the mode of the
bank stands in the way. -/
def State.lateValue (s : State) (k : CoreId) (q : Seq) (l : LateLoad) : Option W64 :=
  let n := 2 ^ l.z.val
  let free := fun t : Target =>
    match t with
    | .pool pa _ => !s.poolLost pa
    | .bank j off => off < 0x1C0000 && (s.core j).mode == .scratch && (s.core j).drain == 0 && !(s.core j).repair.holds off n && !s.foldHeld j off n
    | _ => false
  match s.target l.pa l.policy with
  | none => none
  | some t =>
    if !free t then none
    else
      match forward ((s.seq k q).stores.take l.older) l.pa n with
      | .all bs => some (extend l.sx n bs)
      | .part => none
      | .none => if ((s.meet t n).consumeBy k t n).2.isSome then none else some (extend l.sx n (s.viewBytes k t n))

/-- A sequencer stands where its loads may still be performed: at no trap, with no hook running and no watch stop due. -/
def State.loadsGoOn (s : State) (k : CoreId) (q : Seq) : Bool :=
  let c := s.core k
  (s.seq k q).stopped.isNone && c.hook.isNone && c.hit.isNone && c.saved.isNone && !c.halted

/-- The loads of a sequencer from the i-th of those that may still be performed later are performed now, in order (R120): all of them or none. -/
def State.retake (s : State) (k : CoreId) (q : Seq) (i : Nat) : State :=
  let l := (s.seq k q).late.drop i
  if !s.loadsGoOn k q then s
  else
    match l.mapM fun x => (s.lateValue k q x).map fun v => (x.ix, v) with
    | none => s
    | some vs =>
      let use := l.filterMap fun x => (s.target x.pa x.policy).map fun t => (t, 2 ^ x.z.val)
      (s.usePorts use false).modSeq k q fun r => { r with stack := vs.foldl (fun st p => st.set (st.length - 1 - p.1) p.2) r.stack }

/-- The pending load of a sequencer is performed at its home and its value returns; poison is consumed by the load's word (R325), and so does a
load whose route has been lost (R356). -/
def State.loadPending (s : State) (k : CoreId) (q : Seq) (l : PendingLoad) : State :=
  match s.target l.pa l.policy with
  | none => (s.defer k q 0 (s.seq k q).trapPc { code := 0x38 }).takeTrap k q (lostRead l.pa)
  | some t =>
    let n := 2 ^ l.z.val
    match (s.meet t n).consume t n with
    | (s, some p) => s.takeTrap k q p
    | (s, none) =>
      let v := extend l.sx n (s.homeBytes t n)
      (s.usePorts [(t, n)] false).modSeq k q fun r => { r with load := some { l with value := some v } }

/-- A CXL controller reports poison from pool memory for the `num2` bytes at `pa`: their sectors are marked (R324, R349). -/
def State.deviceReport (s : State) : State :=
  match s.target s.arg.pa.toNat .cached with
  | some (.pool pa _) => s.setPoison pa (max 1 s.arg.num2)
  | _ => s

/-- LOAD_PERFORM: the pending load of a sequencer is performed, or the oldest outstanding read of a fibre word. Where no word waits for a read,
loads whose words are done take their values now; `num` says from which one on. With `yes` a memory device has reported poison before.
(DEDUCED, log entry 36.) (DEDUCED, log entry 11.) -/
def execLoadPerform (s : State) : Host.Outcome State Fault Refusal :=
  let k := s.arg.k
  let q := s.arg.q
  let s := if s.arg.yes then s.deviceReport else s
  match (s.seq k q).load with
  | none => .next (if (s.seq k q).reads = [] then s.retake k q (s.arg.num % max 1 (s.seq k q).late.length) else s.fibPerform k q)
  | some l => .next (s.loadPending k q l)

/-- SPURIOUS_WAKE: a monitored-line wait completes with no write to its line (R119). -/
def execSpuriousWake (s : State) : Host.Outcome State Fault Refusal :=
  .next (s.modSeq s.arg.k s.arg.q fun r => if r.monitor.isSome then { r with woke := true } else r)

end Sys2Proof.Machine
end

