-- ==== Sys2Proof/Machine/Watch.lean ====
section
/-! DEFINITION. Watches and their hooks: WPSET, WPCLR, WPSTAT, HRET, the precise stop and the imprecise one (R190 to R192,
R328 to R330, R333). -/

namespace Sys2Proof.Machine

/-! ### Setting and clearing (R190, R333) -/

/-- The watch of a 48-byte descriptor, or none where it is illegal. -/
def watchOf (bs : List Byte) : Option Watch :=
  let size := leAt bs 8 8
  let ctl := leAt bs 16 8
  let hook := leAt bs 32 8
  if size = 0 ∨ 2 ^ 40 < size ∨ 2 ^ 7 ≤ ctl ∨ ctl % 4 = 0 ∨ hook % 2 = 1 ∨ leAt bs 40 8 ≠ 0 then none
  else some { base := BitVec.ofNat 64 (leAt bs 0 8), size := BitVec.ofNat 64 size, ctl := BitVec.ofNat 64 ctl,
              value := BitVec.ofNat 64 (leAt bs 24 8), hook := BitVec.ofNat 64 hook, frames := [] }

/-- The 4 KiB frames that a range maps now, each with the VA of its page (R329). -/
def State.mappedFrames (s : State) (root base size : Nat) : List (Nat × Nat) :=
  let first := base / 4096
  let count := (base + size - 1) / 4096 + 1 - first
  (List.range count).filterMap fun i =>
    match s.translate root [] (BitVec.ofNat 64 ((first + i) * 4096)) .load with
    | .ok (pa, _, _) => some (pa / 4096, (first + i) * 4096)
    | .error _ => none

/-- Watch entries of the module in use (R190). -/
def State.watchesUsed (s : State) : Nat :=
  (s.nodes.map fun n => (n.watch.toList.filter fun w => w.isSome).length).sum

/-- What a watch has stopped counts no more for the one that replaces it (R330). -/
def Ctx.freshWatch (x : Ctx) (j : Fin 8) : Ctx :=
  let b := fun m : BitVec 8 => m &&& ~~~(1#8 <<< j.val)
  { x with
      c := { x.c with skip := b x.c.skip }, m := { x.m with skip := b x.m.skip }, v := { x.v with skip := b x.v.skip }
      t := { x.t with skip := b x.t.skip }
      me := { x.me with queue := x.me.queue.map fun c => { c with skip := b c.skip } }
      te := { x.te with queue := x.te.queue.map fun c => { c with skip := b c.skip } } }

/-- The same in what a hook has put by of C. -/
def Hook.freshWatch (h : Hook) (j : Fin 8) : Hook := { h with saved := { h.saved with skip := h.saved.skip &&& ~~~(1#8 <<< j.val) } }

/-- The same in a save. -/
def Saved.freshWatch (v : Saved) (j : Fin 8) : Saved := { v with ctx := v.ctx.freshWatch j, hook := v.hook.map fun h => h.freshWatch j }

/-- Watch j of a node is cleared or replaced: nothing that the earlier one has stopped is exempt from the next (R330). -/
def State.freshWatch (s : State) (n : NodeId) (j : Fin 8) : State :=
  ({ s with cores := s.cores.map fun (k, c) =>
      (k, if c.node = some n then { c with ctx := c.ctx.freshWatch j, hook := c.hook.map fun h => h.freshWatch j
                                           saved := c.saved.map fun v => v.freshWatch j }
          else c) } : State).modNode n fun x => { x with saves := x.saves.map fun v => (v.1, v.2.freshWatch j) }

/-- Set watch j of a node: status 0, 1 where no module entry is free, 2 where the descriptor is illegal. -/
def State.setWatch (s : State) (n : Node) (j : Fin 8) (bs : List Byte) : Nat × State :=
  match watchOf bs with
  | none => (2, s)
  | some w =>
    if 16 ≤ s.watchesUsed ∧ n.watch[j.val].isNone then (1, s)
    else
      let w := { w with frames := s.mappedFrames n.root w.base.toNat w.size.toNat }
      (0, (s.freshWatch n.id j).modNode n.id fun x => { x with watch := vput x.watch j (some w) })

/-- Clear watch j of a node and free its entry. -/
def State.clearWatch (s : State) (n : NodeId) (j : Fin 8) : State :=
  (s.freshWatch n j).modNode n fun x => { x with watch := vput x.watch j none }

/-- The rights of the watch words. -/
def watchSpec (pops pushes : Nat) (ban : Bool) : Spec :=
  { pops := pops, pushes := pushes, on := [.c], rbits := 7, ban := ban, right := some 1, acc := { blocks := true } }

/-- WPSET r: d → st. -/
def execWpset (r : BitVec 4) (s : State) : Host.Outcome State Fault Refusal :=
  .next (runWord (.wpset r) r (watchSpec 1 1 true)
    (fun w a s => withRange w s (a.headD 0) 48 8 1 fun bs far s =>
      match s.nodeOf w.k with
      | none => ok s [2]
      | some n =>
        let (st, s) := s.setWatch n (r8 r) bs
        ok (s.chargeFtUnits w.k (ftUnits far)) [BitVec.ofNat 64 st]) s)

/-- WPCLR r. -/
def execWpclr (r : BitVec 4) (s : State) : Host.Outcome State Fault Refusal :=
  .next (runWord (.wpclr r) r { watchSpec 0 0 true with acc := {} }
    (fun w _ s => match s.nodeOf w.k with | none => ok s [] | some n => ok (s.clearWatch n.id (r8 r)) []) s)

/-- What WPSTAT reads for k (R192). -/
def State.wpstat (s : State) (k : CoreId) (item : W64) : W64 :=
  match item with
  | 0 => (match s.nodeOf k with
      | some n => BitVec.ofNat 64 ((List.range 8).foldl (fun a i => a + if (n.watch.toList.getD i none).isSome then 2 ^ i else 0) 0)
      | none => 0)
  | i =>
    match (s.core k).hook with
    | none => 0
    | some h =>
      match i with
      | 1 => BitVec.ofNat 64 (h.watch.toNat + 8 * h.acc.toNat + (if h.precise then 32 else 0))
      | 2 => h.addr
      | 3 => h.pc.setWidth 64
      | 4 => BitVec.ofNat 64 (h.seqn.toNat + 2 ^ 32 * h.row.toNat)
      | 5 => if h.precise then 0 else h.who
      | _ => 0

/-- WPSTAT: k → v. -/
def execWpstat (r : BitVec 4) (s : State) : Host.Outcome State Fault Refusal :=
  .next (runWord (.wpstat r) r { watchSpec 1 1 false with rbits := 0, acc := {} }
    (fun w a s => ok s [s.wpstat w.k (a.headD 0)]) s)

/-! ### Stops and hooks (R191, R328, R330) -/

/-- A sequencer stands at a word boundary outside an issue group, or holds a word that can be stopped in its wait (R70). -/
def Seqr.canStop (r : Seqr) : Bool := r.grpPc.isNone || r.held.isSome

/-- No sequencer stands inside an issue group. (DEDUCED, log entry 28.) -/
def Ctx.atBoundary (x : Ctx) : Bool := x.c.canStop && x.m.canStop && x.v.canStop && x.t.canStop

/-- A command boundary as R332 has it for the sequencers of a core: none stands inside an issue group, a blocked word's group of prefixes
included. -/
def Ctx.outsideGroups (x : Ctx) : Bool := x.c.grpPc.isNone && x.m.grpPc.isNone && x.v.grpPc.isNone && x.t.grpPc.isNone

/-- C at a hook: an empty stack, the hook's address; its other registers stay. -/
def Seqr.enterHook (r : Seqr) (pc : VA) : Seqr :=
  { r with run := .running, pc := pc, stack := [], late := [], pfx := [], grpPc := none, held := none, wait := none, stopped := none,
           bubbles := 0, hold := 0, load := none, stores := r.stores, btAt := .replicate 4 r.issued }

/-- What C gets back at HRET: its PC, stack, predicates, branch targets, loop counters and the word it stood in; its store
queue and issue counts go on. A monitor it held may have been lost, so it wakes (R119). The words of the hook do not count in C's open
segment: R191's list of what is saved does not name the segment, and the model lets it go on as it stood at the stop. (DESIGN CHOICE, log
entry 28.) -/
def Seqr.leaveHook (now saved : Seqr) : Seqr :=
  { saved with late := [], mark := (now.issued, saved.bubbles), woke := saved.woke || saved.monitor.isSome, stores := now.stores, issued := now.issued, btAt := .replicate 4 now.issued, trialCount := now.trialCount }

/-- Start a hook on C of a core. -/
def State.startHook (s : State) (k : CoreId) (h : Hook) (pc : W64) : State :=
  let s := s.modCore k fun c => { c with hook := some { h with ecc := c.ctx.regEcc.filter fun e => seqWords .c e.1 } }
  s.modSeq k .c fun r => r.enterHook (pc.setWidth 57)

/-- Mark a watch as having stopped the present word or unit (R330). -/
def State.markSkip (s : State) (k : CoreId) (h : WatchHit) : State :=
  let b := fun m : BitVec 8 => m ||| (1#8 <<< h.watch.val)
  if h.engine then
    match h.q with
    | .m => s.modMe k fun e => { e with queue := e.queue.map fun c => if c.seqn = h.seqn then { c with skip := b c.skip } else c }
    | _ => s.modTe k fun e => { e with queue := e.queue.map fun c => if c.seqn = h.seqn then { c with skip := b c.skip } else c }
  else s.modSeq k h.q fun r => { r with skip := b r.skip }

/-- Stop an engine command row-precisely with a cause (R259). -/
def State.stopCommand (s : State) (k : CoreId) (q : Seq) (seqn : BitVec 24) (code : BitVec 8) : State :=
  match q with
  | .m => s.modMe k fun e => { e with queue := e.queue.map fun c => if c.seqn = seqn then { c with stop := some code } else c }
  | _ => s.modTe k fun e => { e with queue := e.queue.map fun c => if c.seqn = seqn then { c with stop := some code } else c }

/-- A row-precise trap of an engine command (R259, R299). -/
def State.engineTrap (s : State) (k : CoreId) (q : Seq) (seqn : BitVec 24) (pc : VA) (t : TrapInfo) : State :=
  let s := s.stopCommand k q seqn t.code
  let r := s.record k q seqn pc { t with cls := if t.cls = 0 then 1 else t.cls }
  let s := if r.cls = 3 then s.stopCore k t.code else s
  s.takeRecord k r

/-- Rows that have arrived at an engine command (R301): those of an M command, the landed bytes of a copy, the elements of a gather. -/
def Ctx.arrivedBy (x : Ctx) (q : Seq) (seqn : BitVec 24) : Nat :=
  if q = .m then (match x.me.queue.find? fun c => c.op != .fence && c.seqn == seqn with | some c => c.arrived | none => 0)
  else
    match x.te.queue.find? fun c => c.op != .fence && c.seqn == seqn with
    | some c =>
      (match c.op with
       | .copy j => j.read - (j.flight.map fun u => u.size).sum - j.lostBytes
       | .gather j => j.arrived
       | _ => 0)
    | none => 0

/-- A precise stop: the hook starts, or the stop is a trap with cause 0x11 and the core's engines halt until it is served (R191). -/
def State.watchStop (s : State) (k : CoreId) (h : WatchHit) (w : Watch) : State :=
  let s := s.trace k 11 h.q h.pc h.seqn (BitVec.ofNat 32 h.row) h.addr
  let s := s.markSkip k h
  if w.hook = 0 then
    let rowp := BitVec.ofNat 64 (h.row % 2 ^ 32 + (s.ctx k).arrivedBy h.q h.seqn % 2 ^ 32 * 2 ^ 32)
    let t : TrapInfo := { code := 0x11, addr := h.addr, rowp := rowp, info := BitVec.ofNat 64 h.watch.val }
    let s := s.modCore k fun c => { c with halted := true }
    if h.engine then s.engineTrap k h.q h.seqn h.pc t else s.takeTrap k h.q { t with rowp := 0 }
  else
    let s := if h.engine then s else s.modSeq k h.q Seqr.undo
    let hk : Hook := { saved := s.seq k .c, watch := BitVec.ofNat 3 h.watch.val, acc := if h.write then 2 else 1, precise := true,
                       addr := h.addr, pc := h.pc, seqn := h.seqn, row := BitVec.ofNat 24 h.row, who := 0, ecc := [] }
    s.startHook k hk w.hook

/-- WATCH_STOP (R191): an access met a watch at issue; it is taken before anything else of the core issues, once every row
inside the array has reached its slot (R257, R259) and an earlier trap of the core has been served (R307). -/
def execWatchStop (s : State) : Host.Outcome State Fault Refusal :=
  let k := s.arg.k
  match (s.core k).hit with
  | none => .next s
  | some h =>
    if s.inTrapService k || (s.ctx k).me.queue.any fun c => !c.fly.isEmpty then .next s
    else
    let s := s.modCore k fun c => { c with hit := none }
    match (s.nodeOf k).bind fun n => n.watch[h.watch.val] with
    | none => .next s
    | some w => .next (s.watchStop k h w)

/-- IMPRECISE_WATCH_STOP (R329): a match found at a home is delivered at a command boundary of the owner, once no row is inside the
array (R257) and an earlier trap or watch stop of the core has been served (R307): the hook starts,
or the stop is a deferred trap with cause 0x11, KIND 1. -/
def execImpreciseWatchStop (s : State) : Host.Outcome State Fault Refusal :=
  let k := s.arg.k
  match s.nodeOf k with
  | none => .next s
  | some n =>
    match n.imprecise with
    | none => .next s
    | some (r, _) =>
      if (s.core k).hook.isSome || (s.core k).hit.isSome || (s.core k).saved.isSome || s.inTrapService k || !(s.ctx k).outsideGroups
          || (s.ctx k).me.queue.any fun c => !c.fly.isEmpty then .next s
      else
        let s := s.modNode n.id fun x => { x with imprecise := none }
        let j : Fin 8 := ⟨r.info.toNat % 8, Nat.mod_lt _ (by decide)⟩
        match n.watch[j.val] with
        | none => .next s
        | some w =>
          let s := s.trace k 11 (seqOf r.seq.toNat) r.pc r.seqn 0 r.addr
          if w.hook = 0 then .next (s.takeRecord k { r with core := cid k, time := BitVec.ofNat 64 s.now })
          else
            let hk : Hook := { saved := s.seq k .c, watch := BitVec.ofNat 3 j.val, acc := 2, precise := false, addr := r.addr,
                               pc := r.pc, seqn := r.seqn, row := 0, who := r.who, ecc := [] }
            .next (s.startHook k hk w.hook)

/-- The errors of C's registers as the hook found them. -/
def Ctx.regBack (x : Ctx) (ecc : List (RegWord × Bool)) : Ctx :=
  { x with regEcc := x.regEcc.filter (fun e => !seqWords .c e.1) ++ ecc }

/-- HRET: C's saved state returns, and every sequencer and engine goes on from the stop. -/
def execHret (r : BitVec 4) (s : State) : Host.Outcome State Fault Refusal :=
  .next (runWord (.hret r) r { watchSpec 0 0 false with rbits := 0, acc := {} }
    (fun w _ s =>
      match (s.core w.k).hook with
      | none => .trap (privilege 0 0)
      | some h =>
        .done s [] { after := fun s =>
          (s.modCore w.k fun c => { c with hook := none, ctx := c.ctx.regBack h.ecc }).modSeq w.k .c fun r => r.leaveHook h.saved }) s)

/-! ### Matches at the home (R329) -/

/-- The first watch of a node that a write of [pa, pa + n) meets at its home, with the address of the watched unit (R192). -/
def Node.homeMatch (nd : Node) (pa : Nat) (bs : List Byte) (skip : BitVec 8 := 0) : Option (Fin 8 × Nat) :=
  (List.finRange 8).findSome? fun j =>
    match (if skip.getLsbD j.val then none else nd.watch[j.val]) with
    | none => none
    | some w =>
      w.frames.findSome? fun f =>
        let lo := max pa (f.1 * 4096)
        let hi := min (pa + bs.length) (f.1 * 4096 + 4096)
        if lo < hi then
          (w.unit (f.2 + (lo - f.1 * 4096)) ((bs.drop (lo - pa)).take (hi - lo)) true).map fun u => (j, u)
        else none

/-- The launch site of a writer: sequencer, PC and command number (R331). -/
structure Site where
  /-- Sequencer. -/
  q : Seq := .c
  /-- PC of the launch word. -/
  pc : VA := 0
  /-- Command sequence number. -/
  seqn : BitVec 24 := 0
  deriving DecidableEq, Repr

/-- A write by a queue, a chain, a fold engine, another module or the host is checked against every node's watches at its
home; the stop waits for the owner's next command boundary, and further matches are counted. The record names the launch site of a writer
that has one (R331), and WHO. -/
def State.homeWatch (s : State) (pa : Nat) (bs : List Byte) (who : W64) (site : Site := {}) : State :=
  s.nodes.foldl (fun s nd =>
    match nd.homeMatch pa bs with
    | none => s
    | some (j, va) =>
      let k := nd.cores.headD ⟨0, 0, 0⟩
      let t : TrapInfo := { code := 0x11, cls := 2, kind := 1, addr := BitVec.ofNat 64 va, info := BitVec.ofNat 64 j.val, who := who }
      let r := { s.record k site.q site.seqn site.pc t with ids := nd.ids }
      s.modNode nd.id fun x =>
        { x with imprecise := match x.imprecise with | none => some (r, 0) | some (x, m) => some (x, m + 1) }) s

/-- A multicast of a queue, a chain, another module or the host is checked at the homes of the copies that have landed (R329). -/
def State.mcastWatch (s : State) (l : List (NodeId × CoreId)) (off : Nat) (bs : List Byte) (who : W64) (site : Site := {}) : State :=
  l.foldl (fun s m => s.homeWatch (s.bankPa m.2 off) bs who site) s

end Sys2Proof.Machine
end

