-- ==== Sys2Proof/Machine/Engine.lean ====
section
/-! DEFINITION. What engines share: their accesses, which carry poison and stop row-precisely (R209, R228, R259, R325,
R328), the queues of a core and the class of a wait on them (R67, R254). -/

namespace Sys2Proof.Machine

/-! ### Accesses of engines -/

/-- Why an engine access is not made. -/
inductive EStop where
  /-- It is refused. -/
  | trap (t : TrapInfo)
  /-- A bank drains, and holds it: it is tried again (R94). -/
  | drain (b : CoreId)
  /-- A fold barrier holds the range, or the ports of a bank are taken in this cycle: it is tried again. -/
  | hold
  /-- A watch of the node stops it (R328). -/
  | watch (j : Fin 8) (va : W64) (write : Bool)
  deriving DecidableEq, Repr

/-- Who moves bytes. -/
structure Mover where
  /-- Whose address space and grants. -/
  agent : Agent
  /-- The core whose version it sees and writes and whose node's watches it is checked against; none for dray queues and
  chain contexts. -/
  view : Option CoreId
  /-- Sequencer of the command. -/
  q : Seq
  /-- Command sequence number. -/
  seqn : BitVec 24
  /-- PC of the launch word. -/
  pc : VA
  /-- Watches that have already stopped the present access. -/
  skip : BitVec 8
  /-- Writer identity (R302). -/
  who : W64
  /-- NODEs whose last link was lost while the command ran (R217, R228, R248). -/
  lost : List Nat := []

/-- The launch site of what a mover does (R331). -/
def Mover.site (m : Mover) : Site := { q := m.q, pc := m.pc, seqn := m.seqn }

/-- The mover of a command of a core's engine. -/
def State.coreMover (s : State) (k : CoreId) (q : Seq) (seqn : BitVec 24) (pc : VA) (skip : BitVec 8) : Mover :=
  { agent := s.agent k, view := some k, q := q, seqn := seqn, pc := pc, skip := skip, who := 0 }

/-- The draining bank that an address lies in. -/
def State.drainingAt (s : State) (root : Nat) (tlb : List TlbEnt) (va : W64) (x : Acc) : Option CoreId :=
  match s.translate root tlb va x with
  | .ok (pa, pol, _) =>
    match s.target pa pol with
    | some (.bank k _) => if 0 < (s.core k).drain then some k else none
    | _ => none
  | .error _ => none

/-- Why an engine's access is not made, by the answer of the checks. -/
def State.eStop (s : State) (root : Nat) (tlb : List TlbEnt) (va : W64) (x : Acc) (st : Stop) : EStop :=
  match st with
  | .trap t => .trap t
  | .hold => (match s.drainingAt root tlb va x with | some b => .drain b | none => .hold)
  | .fold _ => .hold

/-- The TLB entries a mover uses: those of its core, where it has one. -/
def State.moverTlb (s : State) (m : Mover) : List TlbEnt := match m.view with | some k => s.tlbOf k | none => []

/-- The checks of one piece. -/
def State.moverCheck (s : State) (m : Mover) (va n : Nat) (x : Acc) : Except EStop Target :=
  match s.check m.agent (s.moverTlb m) (BitVec.ofNat 64 va) n 1 x with
  | .error st => .error (s.eStop m.agent.root (s.moverTlb m) (BitVec.ofNat 64 va) x st)
  | .ok (t, _) => .ok t

/-- The targets of the pieces of a range, every one checked before any is touched (R170). -/
def State.moverTargets (s : State) (m : Mover) (x : Acc) (l : List (Nat × Nat)) : Except EStop (List (Target × Nat × Nat)) :=
  match l with
  | [] => .ok []
  | (va, n) :: t =>
    match s.moverCheck m va n x with
    | .error e => .error e
    | .ok tg =>
      match s.moverTargets m x t with
      | .error e => .error e
      | .ok r => .ok ((tg, va, n) :: r)

/-- A read at a home that does not consume poison (R325): an uncorrectable error becomes poison, and the answer says
whether the bytes are poisoned. -/
def State.peek (s : State) (t : Target) (n : Nat) : State × Bool :=
  match s.consume t n with
  | (s, some _) => (s, true)
  | (s, none) => (s, false)

/-- A mover's read at a target that does not consume poison: a core's engine sees what its own version holds (R324). -/
def State.moverPeek (s : State) (m : Mover) (t : Target) (n : Nat) : State × Bool :=
  match m.view with
  | some k => (match s.consumeBy k t n with | (s, some _) => (s, true) | (s, none) => (s, false))
  | none => s.peek t n

/-- The bytes a mover sees at a target. -/
def State.moverBytes (s : State) (m : Mover) (t : Target) (n : Nat) : List Byte :=
  match m.view with
  | some k => s.viewBytes k t n
  | none => s.homeBytes t n

/-- A byte as an engine carries it, with its poison. -/
abbrev Carried := Byte × Bool

/-- The watch that a core's engine access meets. -/
def State.moverWatch (s : State) (m : Mover) (va : Nat) (bs : List Byte) (write : Bool) : Option (Fin 8) :=
  match m.view with
  | some k => s.watchHit k m.skip (BitVec.ofNat 64 va) bs write
  | none => none

/-- Read pieces whose targets are known. -/
def State.moverTake (s : State) (m : Mover) (l : List (Target × Nat × Nat)) (acc : List Carried) :
    Except EStop (State × List Carried) :=
  match l with
  | [] => .ok (s, acc)
  | (t, va, n) :: rest =>
    let s := s.meet t n
    let bs := s.moverBytes m t n
    match s.moverWatch m va bs false with
    | some j => .error (.watch j (match m.view with | some k => s.watchUnit k j (BitVec.ofNat 64 va) bs false | none => BitVec.ofNat 64 va) false)
    | none =>
      let (s, p) := s.moverPeek m t n
      State.moverTake s m rest (acc ++ bs.map fun b => (b, p))

/-- Read n bytes at a VA, with poison carried sector by sector. -/
def State.moverRead (s : State) (m : Mover) (va n : Nat) : Except EStop (State × List Carried) :=
  match s.moverTargets m .load (cutRange 32 va n) with
  | .error e => .error e
  | .ok l =>
    let use := l.map fun p => (p.1, p.2.2)
    if s.portsAllow use false then (s.usePorts use false).moverTake m l [] else .error .hold

/-- Where a VA of a mover lies, if it translates and is present. -/
def State.moverPlace (s : State) (m : Mover) (va : Nat) : Option Target :=
  match s.translate m.agent.root (s.moverTlb m) (BitVec.ofNat 64 va) .load with
  | .ok (pa, pol, _) => s.target pa pol
  | .error _ => none

/-- Bytes of a range of a mover's addresses that do not lie in a core's own bank (R60), whatever holds them now. -/
def State.farFrom (s : State) (m : Mover) (k : CoreId) (va n : Nat) : Nat :=
  ((cutRange 4096 va n).map fun p => match s.moverPlace m p.1 with | some t => farBytes k t p.2 | none => p.2).sum

/-- Bytes of a range of addresses that do not lie in the own bank of a mover's core (R60). -/
def State.moverFar (s : State) (m : Mover) (va n : Nat) : Nat := match m.view with | some k => s.farFrom m k va n | none => 0

/-- The NODE of a physical address outside pool memory. -/
def nodeAt (pa : Nat) : Option Nat := if pa / 2 ^ 51 % 2 = 0 then none else some (bitsOf pa 50 41)

/-- A VA of a mover lies behind the last link to a NODE, lost while the command ran. -/
def State.lostEnd (s : State) (m : Mover) (va : Nat) : Bool :=
  match s.translate m.agent.root (s.moverTlb m) (BitVec.ofNat 64 va) .load with
  | .ok (pa, _, _) => (match nodeAt pa with | some d => m.lost.contains d | none => false)
  | .error _ => false

/-- A range of an engine's access is beyond reach: in pool memory that every path to has been lost (R351), or behind the last link
to a NODE, lost while the command ran (R217, R228, R248). -/
def State.moverCut (s : State) (m : Mover) (va n : Nat) (x : Acc) : Bool :=
  (match s.moverTargets m x (cutRange 4096 va n) with
   | .ok l => l.any fun p => s.cut p.1
   | .error _ => false)
  || (!m.lost.isEmpty && (cutRange 4096 va n).any fun p => s.lostEnd m p.1)

/-- The L2 lines that a range lies in: reading them for a gather pins them (R226). -/
def State.pinLines (s : State) (m : Mover) (va n : Nat) : Nat :=
  match s.moverTargets m .load (cutRange 128 va n) with
  | .ok l => (l.filter fun p => match p.1 with | .pool _ .cached => true | _ => false).length
  | .error _ => 0

/-- Perform one piece of a write: a core's engine writes as its core (R116); a queue or chain writes at the home, where
watches are checked (R329). -/
def State.moverStore (s : State) (m : Mover) (t : Target) (bs : List Byte) : State :=
  match m.view with
  | some k => s.performStore k m.q m.seqn m.pc t bs
  | none =>
    match t with
    | .mcast g off => (s.multicast m.agent g off bs).1.mcastWatch ((s.members g).filter (s.receives m.agent)) off bs m.who m.site
    | _ => (s.homeWrite t bs).homeWatch (s.paOf t) bs m.who m.site

/-- Poison the sectors that carried bytes poison, where they land. (DEDUCED, log entry 32.) -/
def State.landPoison (s : State) (key : Nat) (bs : List Carried) : State :=
  match bs with
  | [] => s
  | (_, p) :: t => State.landPoison (if p then s.setPoison key 1 else s) (key + 1) t

/-- Write pieces whose targets are known. -/
def State.moverPut (s : State) (m : Mover) (l : List (Target × Nat × Nat)) (bs : List Carried) : State :=
  match l with
  | [] => s
  | (t, _, n) :: rest =>
    let part := bs.take n
    let s := s.moverStore m t (part.map fun b => b.1)
    let s := match t with
      | .mcast g off => ((s.members g).filter (s.receives m.agent)).foldl (fun s p => s.landPoison (bankKey p.2 off) part) s
      | .ctrl _ _ => s
      | _ => s.landPoison t.key part
    State.moverPut s m rest (bs.drop n)

/-- The first watch that pieces of a write meet, with the unit that meets it. -/
def State.putWatch (s : State) (m : Mover) (l : List (Target × Nat × Nat)) (bs : List Carried) : Option (Fin 8 × Nat) :=
  match l with
  | [] => none
  | (_, va, n) :: rest =>
    let part := (bs.take n).map fun b => b.1
    match s.moverWatch m va part true with
    | some j => some (j, match m.view with | some k => (s.watchUnit k j (BitVec.ofNat 64 va) part true).toNat | none => va)
    | none => State.putWatch s m rest (bs.drop n)

/-- Write carried bytes at a VA, in transfers of at most 128 bytes. -/
def State.moverWrite (s : State) (m : Mover) (va : Nat) (bs : List Carried) : Except EStop State :=
  match s.moverTargets m .store (cutRange 128 va bs.length) with
  | .error e => .error e
  | .ok l =>
    match s.putWatch m l bs with
    | some (j, a) => .error (.watch j (BitVec.ofNat 64 a) true)
    | none =>
      let use := l.map fun p => (p.1, p.2.2)
      if s.portsAllow use true then .ok ((s.usePorts use true).moverPut m l bs) else .error .hold

/-- Carried bytes without poison. -/
def clean (bs : List Byte) : List Carried := bs.map fun b => (b, false)

/-- Some carried byte is poisoned. -/
def anyPoison (bs : List Carried) : Bool := bs.any fun b => b.2

/-- Plain bytes of carried ones. -/
def plain (bs : List Carried) : List Byte := bs.map fun b => b.1

/-- A watch stop of an engine command is noted and taken next (R328). -/
def State.engineWatch (s : State) (k : CoreId) (m : Mover) (row : Nat) (j : Fin 8) (va : W64) (write : Bool) : State :=
  let h : WatchHit := { q := m.q, engine := true, watch := j, write := write, addr := va, seqn := m.seqn, row := row, pc := m.pc }
  (s.modCore k fun c => { c with hit := some h }).enqueue .watchStop { k := k }

/-- What becomes of a post. -/
inductive Posted where
  /-- It is made. -/
  | done (s : State)
  /-- It is skipped, with this cause. -/
  | skip (code : BitVec 8)
  /-- A draining bank or a fold barrier holds it: it is tried again (R94, R230). -/
  | held

/-- Post to a signal word at a VA, as R211 does it. -/
def State.postVa (s : State) (a : Agent) (va : W64) (n : BitVec 24) (who : W64) (site : Site := {}) : Posted :=
  match s.check a [] va 8 8 .atomic with
  | .ok (t, _) =>
    if s.cut t then .skip 0x38
    else
      let s := s.meet t 8
      let new := leBytes 8 (signalAdd (s.homeWord t 8) n).toNat
      .done ((s.homeWrite t new).homeWatch (s.paOf t) new who site)
  | .error (.trap t) => .skip t.code
  | .error _ => .held

/-- A draining bank holds an access of a core's engine: the hold is charged as it lasts (R94). -/
def State.noteDrain (s : State) (k : CoreId) (q : Seq) (b : CoreId) : State :=
  s.modCore k fun c => if c.drained.any fun d => d.1 == q && d.2.1 == b then c else { c with drained := (q, b, 0) :: c.drained }

/-- A cycle of the holds of a core's engines: 1 FI for every 256 (R94), which carries FI below zero and counts in the grace (R66), but none during
the drain of a yield (R60); a hold ends with its drain. -/
def State.tickDrains (s : State) (k : CoreId) : State :=
  let l := ((s.core k).drained.filter fun d => decide (0 < (s.core d.2.1).drain)).map fun d => (d.1, d.2.1, d.2.2 + 1)
  let s := s.modCore k fun c => { c with drained := l }
  l.foldl (fun s d => if d.2.2 % 256 = 0 ∧ (s.core k).yielding = false then s.chargeFi k 1 else s) s

/-- The records of deferred faults with one more, of which the first of each cause is kept (R228, R248). (DEDUCED, log entry 19.) -/
def keepFault (l : List TrapRec) (r : TrapRec) : List TrapRec := if l.any fun x => x.code == r.code then l else l ++ [r]

/-- Fare of a transfer that has grown from `old` far bytes to `new` (R60). -/
def State.chargeFar (s : State) (k : CoreId) (old new : Nat) : State := s.chargeFtUnits k (ftUnits new - ftUnits old)

/-! ### The queues of a core -/

/-- The engines of a core run: they hold still while its context is saved, a hook runs, a watch stop is to be taken, or they have been halted by a
stop or a rollback to be served (R191, R318). A hard pre-emption sets them going for what it completes (R308), an overrun in a hook too. -/
def Core.enginesRun (c : Core) : Bool :=
  c.node.isSome && c.saved.isNone && c.hit.isNone && (c.hook.isNone || c.preempt == some 0x20) && (!c.halted || c.preempt.isSome)

/-- A chain context runs or waits (R222). -/
def Chain.active (c : Chain) : Bool :=
  match c.st with
  | .running => true
  | .waiting => true
  | _ => false

/-- A chain context copies or completes an entry, rather than standing between two or in a wait (R222). -/
def Chain.busy (c : Chain) : Bool := c.st == .running && !c.img.isEmpty

/-- Some chain context of a core runs or waits. -/
def Ctx.chainActive (x : Ctx) : Bool := x.chain.toList.any Chain.active

/-- Every engine queue fed by the core is empty with its commands complete; TLDs and TSTs have ended too. -/
def Ctx.enginesIdle (x : Ctx) : Bool := x.me.queue.isEmpty && x.te.queue.isEmpty && x.moves.isEmpty

/-- The wait of HALT and FLIP on the engines: the oldest command still awaited, and the class (R58, R67). -/
def State.engineWait (s : State) (k : CoreId) : WaitOn :=
  let x := s.ctx k
  let far := !x.te.queue.isEmpty || x.me.queue.any (s.mBeyond k) || x.moves.any fun m => !m.near
  let obj := match x.me.queue, x.te.queue with
    | c :: _, _ => cmdObject .m c.seqn
    | [], c :: _ => cmdObject .t c.seqn
    | _, _ => 0
  { reason := 8, beyond := far, object := obj }

/-- M, V and T are each idle, or parked. -/
def Ctx.restIdle (x : Ctx) (parkedToo : Bool) : Bool :=
  let f := fun r : Seqr => r.run == .idle || (parkedToo && r.run == .parked)
  f x.m && f x.v && f x.t

/-- The rendezvous wait (reason 11). (DEDUCED, log entry 6.) -/
def rvzWait : WaitOn := { reason := 11, beyond := false, object := 0 }

end Sys2Proof.Machine
end

