-- ==== Sys2Proof/Machine/Nodes.lean ====
section
/-! DEFINITION. Node descriptors and their acceptance, dependence counters, and the node words SPAWN, DEPDEC, FORK, RVZ and
HALT (R41 to R49, R56 to R58, R194). -/

namespace Sys2Proof.Machine

/-! ### Dependence counters (R47, R48) -/

/-- A counter of a die: unbound and 0 where it is not listed. -/
def DieSt.counter (d : DieSt) (ix : BitVec 14) : Counter :=
  (d.counters.find? fun c => c.idx == ix).getD { idx := ix, value := 0, bound := none }

/-- Replace a counter. -/
def DieSt.setCounter (d : DieSt) (c : Counter) : DieSt :=
  let rest := d.counters.filter fun x => x.idx != c.idx
  { d with counters := if c.value = 0 ∧ c.bound = none then rest else c :: rest }

/-- Die of a counter id or of SELF. -/
def idDie (id : BitVec 32) : Die := ⟨(id.extractLsb' 30 2).toNat, by have := (id.extractLsb' 30 2).isLt; omega⟩

/-- Index of a counter id. -/
def idIndex (id : BitVec 32) : BitVec 14 := id.extractLsb' 0 14

/-- Since when a node is ready. -/
def Node.readySince (n : Node) : Option Nat :=
  match n.st with
  | .ready t => some t
  | .resumable t => some t
  | _ => none

/-- A node becomes ready in a state, at a new ready time, and takes the next place in its die's order (R49, R50). -/
def State.enterStand (s : State) (n : NodeId) (st : NodeSt) : State :=
  let no := (s.die n.die).readied
  let s := s.modDie n.die fun x => { x with readied := no + 1 }
  (s.modNode n fun x => { x with st := st, readyNo := no, stuck := none, noticed := false }).enqueue .dispatchStep { d := n.die }

/-- A node is ready for a first placement. -/
def State.makeReady (s : State) (n : NodeId) : State := s.enterStand n (.ready s.now)

/-- The pool of a die: of the nodes ready there, the 4,096 that became ready first (R49). -/
def State.readyPool (s : State) (d : Die) : List Node :=
  let ready := s.nodes.filter fun n => n.id.die == d && n.readySince.isSome
  ready.filter fun n => decide ((ready.filter fun m => decide (m.readyNo < n.readyNo)).length < 4096)

/-- The node of a bound counter stands in the pool of its die. -/
def State.pooled (s : State) (d : Die) (c : Counter) : Bool :=
  match c.bound with
  | some n => (s.readyPool d).any fun x => x.id == n
  | none => false

/-- Nodes that have entered the pool let go of their counters: unbound, 0 (R48, R49). -/
def State.detach (s : State) (d : Die) : State :=
  ((s.die d).counters.filter fun c => s.pooled d c).foldl
    (fun s c => s.modDie d fun x => x.setCounter { c with value := 0, bound := none }) s

/-- A counter with a new value: a bound one that has reached 0 makes its node ready, and is let go as the node enters the pool; while
the pool is full the node stays attached to it (R48, R49). (DEDUCED, log entry 45.) -/
def State.settleCounter (s : State) (d : Die) (c : Counter) : State :=
  let s := s.modDie d fun x => x.setCounter c
  match c.bound with
  | some n =>
    if 0 < c.value then s
    else if ((s.node n).bind Node.readySince).isSome then s
    else (s.makeReady n).detach d
  | none => s

/-- A captured copy in records of 128 bytes, the size of two slots; what the last one has over reads zero. (DESIGN CHOICE, log entry 30.) -/
def captureRecords (bs : List Byte) : List (List Byte) :=
  (List.range ((bs.length + 127) / 128)).map fun i =>
    let p := (bs.drop (128 * i)).take 128
    p ++ List.replicate (128 - p.length) 0

/-- Capture stores a copy that bears on a node with CAPT = 1: it goes to the capture ring, where the driver has named one (R340). -/
def State.captureCopy (s : State) (n : Option NodeId) (kind : Fin 4) (bs : List Byte) : State :=
  match n.bind s.node with
  | none => s
  | some x =>
    if !x.desc.ctrl.getLsbD 16 then s
    else
      let due := (captureRecords bs).zipIdx.map fun p => { n := x.id, kind := kind, first := p.2 == 0, data := p.1 }
      { s with capture := s.capture ++ [(x.ids, kind, bs)], captureDue := if s.captureRing.isNone then s.captureDue else s.captureDue ++ due }

/-- The lowest counter value. -/
def counterMin : Int := -8388608

/-- Decrement a counter (R48); index 0 names none. A dray packet that does it bears on the counter's node, now or once one is bound (R340). -/
def State.decrement (s : State) (id : BitVec 32) (n : Nat) (packet : List (List Byte) := []) : State :=
  let d := idDie id
  let ix := idIndex id
  if ix = 0 ∨ n = 0 then s
  else
    let c := (s.die d).counter ix
    let s := packet.foldl (fun s b => s.captureCopy c.bound 3 b) s
    let c := if c.bound.isNone then { c with seen := c.seen ++ packet } else c
    let v := c.value - n
    let s := if v < counterMin then s.modDie d fun x => { x with stray := true } else s
    s.settleCounter d { c with value := max v counterMin }

/-- Bind a counter to a node with a count (R48). -/
def State.bindCounter (s : State) (d : Die) (ix : BitVec 14) (n : NodeId) (count : Nat) : State :=
  let c := (s.die d).counter ix
  let s := c.seen.foldl (fun s b => s.captureCopy (some n) 3 b) s
  s.settleCounter d { c with value := c.value + count, bound := some n, seen := [] }

/-! ### Descriptors (R41 to R45) -/

/-- A signed 32-bit field. -/
def sAt (bs : List Byte) (off : Nat) : Int := (BitVec.ofNat 32 (leAt bs off 4)).toInt

/-- The operand declarations of a descriptor. -/
def opersOf (bs : List Byte) : List Oper :=
  (List.range 8).map fun j =>
    let o := 0x60 + 16 * j
    { base := BitVec.ofNat 64 (leAt bs o 8), size := BitVec.ofNat 40 (leAt bs (o + 8) 5), use := BitVec.ofNat 8 (leAt bs (o + 13) 1) }

/-- The descriptor in 256 bytes. -/
def descOf (bs : List Byte) (va : W64) : Desc :=
  let w := fun off => BitVec.ofNat 64 (leAt bs off 8)
  { code := w 0, ctrl := w 8, fi := sAt bs 0x10, ft := sAt bs 0x14, pool := w 0x18, self := BitVec.ofNat 32 (leAt bs 0x20 4)
    deps := BitVec.ofNat 32 (leAt bs 0x24 4), succ := [], args := w 0x30, done := w 0x38
    doneadd := BitVec.ofNat 24 (leAt bs 0x40 3), tmask := BitVec.ofNat 16 (leAt bs 0x44 2), accn := leAt bs 0x46 2 % 1024
    group := BitVec.ofNat 32 (leAt bs 0x48 4), gvalid := BitVec.ofNat 4 (leAt bs 0x4C 1), grant := w 0x50, oper := opersOf bs
    va := va }

/-- A reserved field of a descriptor is non-zero. Declarations that are ignored are not looked at. -/
def descReserved (bs : List Byte) : Bool :=
  let ctrl := leAt bs 8 8
  decide (2 ^ 19 ≤ ctrl) || ctrl.testBit 11 || leAt bs 0x43 1 != 0 || decide (1024 ≤ leAt bs 0x46 2)
    || decide (16 ≤ leAt bs 0x4C 1) || leAt bs 0x4D 3 != 0 || decide (2 ^ 49 ≤ leAt bs 0x50 8) || leAt bs 0x58 8 != 0
    || (List.range 8).any (fun j =>
        let o := 0x60 + 16 * j
        leAt bs (o + 13) 1 % 4 != 0 && (decide (8 ≤ leAt bs (o + 13) 1) || leAt bs (o + 14) 2 != 0))
    || (bs.drop 0xE0).any fun b => b != 0

/-- The gang limit of a kind (R42). -/
def gangLimit (kind : Nat) : Nat :=
  match kind with
  | 0 => 40
  | 1 => 6
  | _ => 46

/-- Who spawns: what the checks of R45 need. -/
structure Spawner where
  /-- It may spawn at priority 7. -/
  priv : Bool
  /-- Its rights CTRL[15:12]. -/
  rights : BitVec 4
  /-- Status 6 applies, given the child's FI and FT and the gang size. -/
  noFare : Int → Int → Nat → Bool

/-- The status of R45 for a descriptor's address and bytes: the lowest that applies, or 0. (DEDUCED, log entry 27.) -/
def State.spawnStatus (s : State) (p : Spawner) (va : Nat) (bs : List Byte) : Nat :=
  let d := descOf bs 0
  let ctrl := d.ctrl.toNat
  let kind := bitsOf ctrl 1 0
  let gang := bitsOf ctrl 10 5
  let accn := leAt bs 0x46 2 % 1024
  let cores := d.grant.toNat % 2 ^ 48
  let ix := idIndex d.self
  if kind = 3 then 1
  else if gang = 0 ∨ gangLimit kind < gang then 2
  else if bitsOf ctrl 4 2 = 7 ∧ !p.priv then 3
  else if 512 < accn ∨ (accn ≠ 0 ∧ kind ≠ 0) ∨ cores.testBit 40 ∨ cores.testBit 41 then 4
  else if (d.ctrl.extractLsb' 12 4 &&& ~~~p.rights) ≠ 0 then 5
  else if d.fi < 1 ∨ d.ft < 1 ∨ p.noFare d.fi d.ft gang then 6
  else if (usedGroups d.gvalid d.group).any fun g => (s.group g).isNone then 7
  else if bitsOf d.self.toNat 29 14 ≠ 0 ∨ ((s.die (idDie d.self)).counter ix).bound.isSome
      ∨ (ix = 0 ∧ d.deps.extractLsb' 16 16 ≠ 0) then 8
  else if va % 256 ≠ 0 ∨ d.pool.toNat % 32 ≠ 0 ∨ d.code.getLsbD 0 then 9
  else if descReserved bs ∨ 1024 < bitsOf d.deps.toNat 15 0 then 10
  else 0

/-- Accept a node: it gets a TASK number and a Stand entry (a free value: the spec does not say which), its counter is bound
(R45, R48), and capture keeps the descriptor (R340). (DEDUCED, log entry 27.) -/
def State.accept (s : State) (bs : List Byte) (va : W64) (succ : List (BitVec 32)) (root : Nat) : State :=
  let d := { descOf bs va with succ := succ }
  let die := idDie d.self
  let id : NodeId := { die := die, task := (s.die die).nextTask }
  let (e, s) := s.fresh
  let n : Node := { id := id, entry := e.setWidth 12, desc := d, root := root, st := .waiting, cores := [],
                    watch := .replicate 8 none, relaunched := false, imprecise := none, saves := [], dump := [], noticed := false, tstart := 0, readyNo := 0, stuck := none }
  let s := { s with nodes := s.nodes ++ [n] }
  let s := s.modDie die fun x => { x with nextTask := x.nextTask + 1 }
  let s := s.captureCopy (some id) 0 bs
  if idIndex d.self = 0 then s.makeReady id else s.bindCounter die (idIndex d.self) id (d.deps.extractLsb' 16 16).toNat

/-- Counter ids of a successor list's bytes. -/
def succOf (n : Nat) (bs : List Byte) : List (BitVec 32) := (List.range n).map fun i => BitVec.ofNat 32 (leAt bs (4 * i) 4)

/-! ### SPAWN and DEPDEC (R45, R194) -/

/-- A register's value after the charge of a word at its issue, as far as it was not made when the word blocked (R155). -/
def State.fiAfter (s : State) (w : Wd) (cost : Nat) : Int := satLow ((s.regs w.k).fi - (s.seq w.k w.q).owes cost)

/-- Bytes as 32-bit words, as a word that waits keeps them. -/
def wordsOf (bs : List Byte) : List (BitVec 32) := (List.range (bs.length / 4)).map fun i => BitVec.ofNat 32 (leAt bs (4 * i) 4)

/-- The descriptor a SPAWN reads, and the bytes of it that come from elsewhere than the own bank: it is read once, and a SPAWN whose successor
list a bank holds keeps it. -/
def withDesc (w : Wd) (s : State) (d : W64) (go : List Byte → Nat → State → Res) : Res :=
  match (s.seq w.k w.q).latch with
  | [] => withRange w s d 256 1 8 go
  | far :: ws => go (ws.flatMap fun v => leBytes 4 v.toNat) far.toNat s

/-- SPAWN: d → st. -/
def execSpawn (r : BitVec 4) (s : State) : Host.Outcome State Fault Refusal :=
  .next (runWord (.spawn r) r { pops := 1, pushes := 1, on := [.c], ban := true, acc := { blocks := true } }
    (fun w a s =>
      let d := a.headD 0
      let out := fun (s : State) (st : Nat) => .done (s.escape w.k) [BitVec.ofNat 64 st] { cost := 8 }
      (withDesc w s d fun bs far s0 =>
        let s := s0.chargeFtUnits w.k (ftUnits far)
        let fi := s.fiAfter w 8
        let ft := (s.regs w.k).ft
        let p : Spawner :=
          { priv := s.ostler w.k, rights := (match s.nodeOf w.k with | some n => n.rights.extractLsb' 0 4 | none => 0)
            noFare := fun cfi cft g => decide (fi - g * cfi < 1) || decide (ft - g * cft < 1) }
        let st := s.spawnStatus p d.toNat bs
        if st ≠ 0 then out s st
        else
          let dd := descOf bs d
          let n := bitsOf dd.deps.toNat 15 0
          let kept := s0.modSeq w.k w.q fun r => { r with latch := BitVec.ofNat 32 far :: wordsOf bs }
          withRange w kept (BitVec.ofNat 64 (leAt bs 0x28 8)) (4 * n) 4 8 fun sb _ s =>
            let g : Int := bitsOf dd.ctrl.toNat 10 5
            let s := (s.chargeFtUnits w.k (ftUnits far)).accept bs d (succOf n sb) (s.agent w.k).root
            out (s.modRegs w.k fun x => { x with fi := x.fi - g * dd.fi, ft := x.ft - g * dd.ft }) 0).unreadable) s)

/-- DEPDEC: id n →. A release at system scope: every earlier store of the sequencer, and the version, come first. -/
def execDepdec (r : BitVec 4) (s : State) : Host.Outcome State Fault Refusal :=
  .next (runWord (.depdec r) r { pops := 2, on := [.c, .t] }
    (fun w a s =>
      let id : BitVec 32 := (a.headD 0).setWidth 32
      if bitsOf id.toNat 29 14 ≠ 0 then .trap (notPresent (a.headD 0) 0)
      else
        let s := ((s.settle w.k w.q).commit w.k).escape w.k
        ok (s.decrement id ((a.getD 1 0).toNat % 2 ^ 24)) []) s)

/-! ### FORK, RVZ (R56, R57) -/

/-- The sequencers of a FORK mask with their addresses, which stand on the stack in the order M, V, T. -/
def forkPlan (mask : BitVec 3) (args : List W64) : List (Seq × W64) :=
  let qs := (if mask.getLsbD 0 then [Seq.m] else []) ++ (if mask.getLsbD 1 then [Seq.v] else []) ++ (if mask.getLsbD 2 then [Seq.t] else [])
  qs.zip args

/-- A sequencer as FORK starts it: an empty stack, its other registers kept. -/
def Seqr.start (r : Seqr) (a : W64) : Seqr :=
  { r with run := .running, pc := a.setWidth 57, stack := [], late := [], pfx := [], grpPc := none, held := none, wait := none,
           stopped := none, btAt := .replicate 4 r.issued, bubbles := 0, segCount := 0, segCrc := 0xFFFFFFFF#32, started := true,
           skip := 0, expand := (0, 0) }

/-- FORK r. -/
def execFork (r : BitVec 4) (s : State) : Host.Outcome State Fault Refusal :=
  let mask := r3 r
  let n := (if mask.getLsbD 0 then 1 else 0) + (if mask.getLsbD 1 then 1 else 0) + (if mask.getLsbD 2 then 1 else 0)
  .next (runWord (.fork r) r { pops := n, on := [.c], rbits := 7, ban := true, acc := { blocks := true } }
    (fun w a s =>
      let dead := fun q : Seq => isMerge w.k && q == .m
      let plan := (forkPlan mask a).filter fun p => !dead p.1
      match plan.find? fun p => p.2.getLsbD 0 with
      | some p => .trap (badOperand p.2)
      | none =>
        if plan.any fun p => (s.seq w.k p.1).run != .idle then .wait rvzWait 1 s
        else
          .done (plan.foldl (fun s p => s.modSeq w.k p.1 fun x => x.start p.2) s) []
            { flags := flagIf (isMerge w.k && mask.getLsbD 0) fFMSK }) s)

/-- Set the sequencers that FORK started to idle. -/
def Ctx.endRvz (x : Ctx) : Ctx :=
  let f := fun r : Seqr => if r.started then { r with run := .idle, started := false } else r
  { x with m := f x.m, v := f x.v, t := f x.t }

/-- RVZ: M, V and T park once their exposed-latency results have landed; C waits for those it has started. -/
def execRvz (r : BitVec 4) (s : State) : Host.Outcome State Fault Refusal :=
  .next (runWord (.rvz r) r { ban := true, acc := { blocks := true } }
    (fun w _ s =>
      let x := s.ctx w.k
      if w.q = .c then
        if [x.m, x.v, x.t].any fun y => y.started && y.run != .parked then .wait rvzWait 1 s
        else ok (s.modCtx w.k Ctx.endRvz) []
      else if w.q = .v ∧ x.landings ≠ [] then .hold s
      else .done s [] { run := .parked }) s)

/-! ### Fare pools (R62, R64) -/

/-- The checks of the access to the fare pool of a node. -/
def State.poolCheck (s : State) (n : Node) (k : CoreId) : Except Stop (Target × Option TlbEnt) :=
  s.check { root := n.root, core := k, grant := n.desc.grant, groups := n.groups, priv := true } [] n.desc.pool 32 32 .atomic

/-- The fare pool of a node, where it can be reached. -/
def State.poolTarget (s : State) (n : Node) (k : CoreId) : Option Target :=
  if n.desc.pool = 0 then none
  else
    match s.poolCheck n k with
    | .ok (t, _) => some t
    | .error _ => none

/-- What holds the access to the fare pool of a node for now: its bank, or a fold (R94, R230, R364). -/
def State.poolHeld (s : State) (n : Node) (k : CoreId) : Option Stop :=
  if n.desc.pool = 0 then none
  else
    match s.poolCheck n k with
    | .error (.trap _) => none
    | .error e => some e
    | .ok _ => none

/-- A signed 8-byte field of a pool. -/
def State.poolField (s : State) (t : Target) (off : Nat) : Int := (s.homeWord (t.add off) 8).toInt

/-- Write a signed 8-byte field of a pool. -/
def State.setPoolField (s : State) (t : Target) (off : Nat) (v : Int) : State :=
  s.homeWrite (t.add off) (leBytes 8 (BitVec.ofInt 64 v).toNat)

/-- The greatest value of FI and FT. -/
def fareMax : Int := 2147483647

/-- The bound on a grant: request, pool field and room in the register (R64). -/
def grantOf (q pool reg : Int) : Int := min q (min (max pool 0) (fareMax - reg))

/-- Move a grant from a pool field to FI (false) or FT (true), in one step. -/
def State.moveFare (s : State) (k : CoreId) (t : Target) (ft : Bool) (g : Int) : State :=
  let off := if ft then 8 else 0
  let s := s.setPoolField t off (s.poolField t off - g)
  s.modRegs k fun r => if ft then { r with ft := r.ft + g } else { r with fi := r.fi + g }

/-- At HALT the remaining fare goes to the pool, and a negative remainder debits it; without a pool, or with one that cannot
be reached, it is discarded. -/
def State.returnFare (s : State) (k : CoreId) : State :=
  let r := s.regs k
  let s :=
    match s.nodeOf k with
    | none => s
    | some n =>
      match s.poolTarget n k with
      | none => s
      | some t => (s.setPoolField t 0 (s.poolField t 0 + r.fi)).setPoolField t 8 (s.poolField t 8 + r.ft)
  s.modRegs k fun r => { r with fi := 0, ft := 0 }

/-! ### HALT (R58) -/

/-- A trial ends: its record is written (R338). -/
def State.endTrial (s : State) (k : CoreId) : State :=
  match (s.core k).trial with
  | none => s
  | some t =>
    let s := s.trace k 9 .c (s.seq k .c).pc 0 0 (BitVec.ofNat 64 (t.inserted % 2 ^ 48))
    s.modCore k fun c =>
      let z := fun r : Seqr => { r with trialCount := 0 }
      { c with trial := none, ctx := { c.ctx with c := z c.ctx.c, m := z c.ctx.m, v := z c.ctx.v, t := z c.ctx.t } }

/-- Every core of a node has raised its halt line (R54). -/
def State.allHalted (s : State) (n : Node) : Bool := n.cores.all fun k => (s.core k).haltLine

/-- What HALT does when its waits are over: fare back to the pool, the halt line, and launch end with the last line. -/
def State.haltCore (s : State) (k : CoreId) : State :=
  let s := (s.endTrial k).returnFare k
  let s := s.modCore k fun c => { c with haltLine := true, preempt := none }
  match s.nodeOf k with
  | some n => if s.allHalted n then s.enqueue .launchEnd { n := n.id } else s
  | none => s

/-- HALT. The fare it returns waits for a pool that a bank holds. -/
def execHalt (r : BitVec 4) (s : State) : Host.Outcome State Fault Refusal :=
  .next (runWord (.halt r) r { on := [.c], ban := true, acc := { blocks := true } }
    (fun w _ s =>
      let x := s.ctx w.k
      if !x.restIdle true then .wait rvzWait 1 s
      else if !x.enginesIdle then .wait (s.engineWait w.k) 1 s
      else if x.chainActive then .wait rvzWait 1 s
      else
        match (s.nodeOf w.k).bind fun n => s.poolHeld n w.k with
        | some (.fold a) => .wait { reason := 15, beyond := false, object := a } 1 s
        | some _ => .hold s
        | none =>
          let drain := fun (s : State) q => s.settle w.k q
          let s := [Seq.c, .m, .v, .t].foldl drain s
          .done ((s.commit w.k).escape w.k) [] { run := .idle, after := fun s => s.haltCore w.k }) s)

end Sys2Proof.Machine
end

