-- ==== Sys2Proof/Machine/Sync.lean ====
section
/-! DEFINITION. FIFO queues, event slots and group barriers (R95, R96, R186 to R188), the Ostler's overflow service and the
end of a bank's drain. -/

namespace Sys2Proof.Machine

/-! ### Queues (R95, R96) -/

/-- Entries of segment 0 (R95). -/
def ringSize : Nat := 114688

/-- What a push finds. -/
inductive Push where
  /-- It enters the queue: the ring of segment 0, or the overflow segment's place at this PA. -/
  | done (f : Fifo) (at_ : Option Nat)
  /-- Full: the Ostler is asked to link a segment (cause 0x28); the queue is in overflow mode from now on. -/
  | overflow (f : Fifo)
  /-- No room, and no further segment: the push waits (reason 6). -/
  | wait
  deriving DecidableEq, Repr

/-- The place of an entry of a segment. -/
def FifoSeg.place (g : FifoSeg) (i : Nat) : Nat := g.base.toNat + 16 * i

/-- The segments with one entry more in the last of them, where that has room, and the entry's place. -/
def fillLast (segs : List FifoSeg) : Option (List FifoSeg × Nat) :=
  match segs.getLast? with
  | none => none
  | some g =>
    if g.filled < 2 ^ g.size.toNat then some (segs.dropLast ++ [{ g with filled := g.filled + 1 }], g.place g.filled) else none

/-- Push one entry (R96). (DEDUCED, log entry 48.) -/
def Fifo.push (f : Fifo) (e : W64 × W64) : Push :=
  let add := fun g : Fifo => { g with tail := g.tail + 1 }
  if !f.ovf && f.ring.length < ringSize then .done (add { f with ring := f.ring ++ [e] }) none
  else
    match fillLast f.segs with
    | some (segs, pa) => .done (add { f with segs := segs }) (some pa)
    | none => if f.declined || f.segs.length == 7 then .wait else .overflow { f with ovf := true }

/-- A fully popped overflow segment is unlinked; with the last one OVF clears. (DEDUCED, log entry 48.) -/
def Fifo.unlink (f : Fifo) : Fifo :=
  let segs := f.segs.filter fun g => !(g.popped == g.filled && g.filled == 2 ^ g.size.toNat)
  let segs := if f.ring.isEmpty && segs.all fun g => g.popped == g.filled then [] else segs
  { f with segs := segs, ovf := f.ovf && !(segs.isEmpty && !f.segs.isEmpty), declined := false }

/-- Segments with their oldest entry popped, and its place. -/
def popFirst (l : List FifoSeg) : Option (Nat × List FifoSeg) :=
  match l with
  | [] => none
  | g :: t =>
    if g.popped < g.filled then some (g.place g.popped, { g with popped := g.popped + 1 } :: t)
    else (popFirst t).map fun x => (x.1, g :: x.2)

/-- Pop the oldest entry: from segment 0 until it is empty, then from overflow segments in link order; one of an overflow segment is
named by its place. -/
def Fifo.pop (f : Fifo) : Option (((W64 × W64) ⊕ Nat) × Fifo) :=
  let take := fun g : Fifo => Fifo.unlink { g with head := g.head + 1 }
  match f.ring with
  | e :: t => some (.inl e, take { f with ring := t })
  | [] => (popFirst f.segs).map fun x => (.inr x.1, take { f with segs := x.2 })

/-- The target of an entry of an overflow segment: pool memory, at its home (R91, R95). (DESIGN CHOICE, log entry 48.) -/
def entryTarget (pa : Nat) : Target := .pool pa .cached

/-- An entry as its place in an overflow segment holds it. -/
def State.entryAt (s : State) (pa : Nat) : W64 × W64 := (s.homeWord (entryTarget pa) 8, s.homeWord (entryTarget (pa + 8)) 8)

/-- A pushed entry stands in its overflow segment. -/
def State.putEntry (s : State) (at_ : Option Nat) (e : W64 × W64) : State :=
  match at_ with
  | none => s
  | some pa => s.homeWrite (entryTarget pa) (leBytes 8 e.1.toNat ++ leBytes 8 e.2.toNat)

/-- A popped entry; one of an overflow segment is read there, which consumes no poison (R325). -/
def State.popped (s : State) (e : (W64 × W64) ⊕ Nat) : (W64 × W64) × State :=
  match e with
  | .inl v => (v, s)
  | .inr pa =>
    let s := (s.consume (entryTarget pa) 16).1
    (s.entryAt pa, s)

/-- Where in the bank the next push would stand, while segment 0 takes it. -/
def Fifo.pushAt (f : Fifo) : Option Nat := if !f.ovf && f.ring.length < ringSize then some (16 * (f.tail.toNat % ringSize)) else none

/-- Where in the bank the oldest entry stands, while segment 0 holds it. -/
def Fifo.popAt (f : Fifo) : Option Nat := if f.ring.isEmpty then none else some (16 * (f.head.toNat % ringSize))

/-- The bank a queue word reaches, or why it does not (R186): an unbound binding is not present; a bank in another mode is
refused; a draining bank holds, and so does one that darns the row of the entry at `at_` (R364). What another module's bank does is not known here:
`far` answers for it. -/
def queueBank (w : Wd) (s : State) (r : BitVec 4) (at_ : Fifo → Option Nat) (far : Res) (go : CoreId → Res) : Res :=
  match (s.regs w.k).q[(r8 r).val] with
  | none => .trap (notPresent 0 0)
  | some (.far _) => far
  | some (.own b) =>
    if 0 < (s.core b).drain then .hold s 2
    else if (s.core b).mode ≠ .fifo then .trap (privilege (BitVec.ofNat 64 (31 * 2 ^ 52 + s.bankPa b 0)) 3)
    else if (match at_ (s.core b).fifo with | some off => (s.core b).repair.holds off 16 | none => false) then .hold s 2
    else go b

/-- The wait of a queue word: in-cluster for a FIFO bank of the cluster (R67). -/
def queueWait (w : Wd) (s : State) (b : CoreId) (reason : BitVec 4) : WaitOn :=
  { reason := reason, beyond := !sameCluster b w.k, object := BitVec.ofNat 64 (s.bankPa b 0) }

/-- The prefixes of queue words. -/
def queueSpec (pops pushes : Nat) : Spec := { pops := pops, pushes := pushes, on := onCVT, rbits := 7, acc := accScope }

/-- The PA of the other module's bank that a queue word names. -/
def farBank (w : Wd) (s : State) (r : BitVec 4) : Nat := match (s.regs w.k).q[(r8 r).val] with | some (.far pa) => pa | _ => 0

/-- What a word finds at a queue of another module is free: no FIFO bank, which is refused; no room for a push or no entry for a pop, to which
`no` answers; or else `go`. (DESIGN CHOICE, log entry 43.) -/
def farQueue (w : Wd) (s : State) (r : BitVec 4) (no go : State → Res) : Res :=
  let (i, s) := s.pick 3
  if i = 0 then .found s (privilege (BitVec.ofNat 64 (31 * 2 ^ 52 + farBank w s r)) 3)
  else if i = 1 then no s
  else go s

/-- A pop from a queue of another module that finds an entry: which one is free. -/
def farEntry (w : Wd) (hit : List W64) (s : State) : Res :=
  let (lo, s) := s.fresh
  let (hi, s) := s.fresh
  .done (s.chargeFtUnits w.k 1) (lo :: hi :: hit) { cost := 2 }

/-- The wait of a word on a queue of another module: 5 for an entry, 6 for room. -/
def farWait (w : Wd) (r : BitVec 4) (reason : BitVec 4) (s : State) : Res :=
  .wait { reason := reason, beyond := true, object := BitVec.ofNat 64 (farBank w s r) } 2 s

/-- QPUSH r: lo hi →. Earlier stores and the version come first, once it can push (R117, R186). A push onto a queue of another module is performed
there (R355). -/
def execQpush (r : BitVec 4) (s : State) : Host.Outcome State Fault Refusal :=
  .next (runWord (.qpush r) r (queueSpec 2 0)
    (fun w a s =>
      let pub := fun s : State => ((s.settle w.k w.q).commit w.k).escape w.k
      queueBank w s r Fifo.pushAt
        (farQueue w s r (farWait w r 6) fun s => .done ((pub s).chargeFtUnits w.k 1) [] { cost := 2 }) fun b =>
        let e := (a.headD 0, a.getD 1 0)
        match (s.core b).fifo.push e with
        | .done f at_ =>
          .done ((((pub s).putEntry at_ e).modCore b fun c => { c with fifo := f }).chargeFt w.k (.bank b 0) 16) [] { cost := 2 }
        | .overflow f =>
          .found (s.modCore b fun c => { c with fifo := f }) { code := 0x28, addr := BitVec.ofNat 64 (s.bankPa b 0) }
        | .wait => .wait (queueWait w s b 6) 2 s) s)

/-- QPOP r: → lo hi. -/
def execQpop (r : BitVec 4) (s : State) : Host.Outcome State Fault Refusal :=
  .next (runWord (.qpop r) r (queueSpec 0 2)
    (fun w _ s =>
      queueBank w s r Fifo.popAt (farQueue w s r (farWait w r 5) (farEntry w [])) fun b =>
        match (s.core b).fifo.pop with
        | some (e, f) =>
          let (v, s) := s.popped e
          .done ((s.modCore b fun c => { c with fifo := f }).chargeFt w.k (.bank b 0) 16) [v.1, v.2] { cost := 2 }
        | none => .wait (queueWait w s b 5) 2 s) s)

/-- QTRY r: → lo hi k. -/
def execQtry (r : BitVec 4) (s : State) : Host.Outcome State Fault Refusal :=
  .next (runWord (.qtry r) r (queueSpec 0 3)
    (fun w _ s =>
      queueBank w s r Fifo.popAt (farQueue w s r (fun s => .done (s.chargeFtUnits w.k 1) [0, 0, 0] { cost := 2 }) (farEntry w [1])) fun b =>
        match (s.core b).fifo.pop with
        | some (e, f) =>
          let (v, s) := s.popped e
          .done ((s.modCore b fun c => { c with fifo := f }).chargeFt w.k (.bank b 0) 16) [v.1, v.2, 1] { cost := 2 }
        | none => .done (s.chargeFt w.k (.bank b 0) 16) [0, 0, 0] { cost := 2 }) s)

/-- The bank that QBIND's operand names (R170, R186), of this module or of another; the bank's mode is not checked. -/
def State.bindBank (s : State) (k : CoreId) (a : W64) : Except TrapInfo (QBank × Option TlbEnt) :=
  match s.translate (s.agent k).root (s.tlbOf k) a .load with
  | .error t => .error t
  | .ok (pa, pol, e) =>
    match s.target pa pol with
    | none => .error (notPresent a 0)
    | some (.bank b off) =>
      if !s.granted (s.agent k) b then .error (privilege a 1)
      else if 0x1C0000 ≤ off ∧ !(s.agent k).priv then .error (privilege a 2)
      else .ok (.own b, e)
    | some t =>
      match s.refusal (s.agent k) a t 1 .load, t with
      | some (.trap x), _ => .error x
      | _, .remote pa => if bitsOf pa 40 39 = 0 then .ok (.far pa, e) else .error (noPermission a 0)
      | _, _ => .error (noPermission a 0)

/-- QBIND r: a →; a = 0 unbinds. -/
def execQbind (r : BitVec 4) (s : State) : Host.Outcome State Fault Refusal :=
  .next (runWord (.qbind r) r { pops := 1, on := [.c], rbits := 7 }
    (fun w args s =>
      let a := args.headD 0
      let set := fun (s : State) (b : Option QBank) => ok (s.modRegs w.k fun g => { g with q := vput g.q (r8 r) b }) []
      if a = 0 then set s none
      else
        match s.bindBank w.k a with
        | .error t => .trap t
        | .ok (b, e) => set (s.useTlb w.k e) (some b)) s)

/-- FIFO_OVERFLOW_SERVICE (R96): the Ostler links a segment of 2^num entries at the page of `pa` (SEGj[11:0] are reserved, R95) to the queue of the bank of core `k`,
or declines (num outside 12 to 24), and every push stopped on that queue is issued again. -/
def execFifoOverflowService (s : State) : Host.Outcome State Fault Refusal :=
  let k := s.arg.k
  let addr := BitVec.ofNat 64 (s.bankPa k 0)
  let mine := fun r : TrapRec => r.code == 0x28 && r.addr == addr
  let recs := s.dies.toList.flatMap fun d => d.trapQ.filter mine
  if recs.isEmpty || s.installing k.die then .next s
  else
    let size := s.arg.num
    let link := 12 ≤ size && size ≤ 24 && (s.core k).fifo.segs.length < 7
    let seg : FifoSeg := { base := BitVec.ofNat 52 (s.arg.pa.toNat / 4096 * 4096), size := BitVec.ofNat 6 size, filled := 0, popped := 0 }
    let s := s.modCore k fun c =>
      { c with fifo :=
          if link then { c.fifo with segs := c.fifo.segs ++ [seg] }
          else { c.fifo with declined := true, ovf := c.fifo.ovf && !c.fifo.segs.isEmpty } }
    let s := { s with dies := s.dies.map fun d => { d with trapQ := d.trapQ.filter fun r => !mine r } }
    .next (recs.foldl (fun s r => s.resumeRecord r) s)

/-- BANK_DRAIN_END (R94): a draining bank's drain ends, and held accesses proceed. -/
def execBankDrainEnd (s : State) : Host.Outcome State Fault Refusal :=
  .next (s.modCore s.arg.k fun c => { c with drain := 0 })

/-! ### Event slots (R187) -/

/-- EVBIND r: a d g →. The address is checked as one that posts reach: aligned, translated, and no multicast window or
control register; so a draining bank holds the word and a fold barrier makes it wait, though it accesses nothing, which the rule does not say.
(DESIGN CHOICE, log entry 7.) -/
def execEvbind (r : BitVec 4) (s : State) : Host.Outcome State Fault Refusal :=
  .next (runWord (.evbind r) r { pops := 3, on := [.c], rbits := 15, acc := { blocks := true } }
    (fun w args s =>
      let a := args.headD 0
      let set := fun (s : State) (pa : Nat) (pol : Policy) =>
        let e : EventSlot := { addr := a, arm := (args.getD 2 0).setWidth 16, add := (args.getD 1 0).setWidth 24, pa := pa, pol := pol }
        ok (s.modRegs w.k fun g => { g with ev := vput g.ev (r4 r) e }) []
      if a = 0 then set s 0 .cached
      else withAccess w s a 8 8 .atomic 1 fun t s => set s (s.paOf t) t.policy) s)

/-! ### Group barriers (R188) -/

/-- The count of a group in a list of counts. -/
def barrOf (l : List (BitVec 8 × Nat)) (g : BitVec 8) : Nat := ((l.find? fun x => x.1 == g).map fun x => x.2).getD 0

/-- BARGs that a position has completed on a group, wherever its context is. -/
def State.bargsOf (s : State) (p : NodeId × CoreId) (g : BitVec 8) : Nat :=
  if (s.core p.2).node = some p.1 then barrOf (s.core p.2).barr g
  else
    match (s.node p.1).bind fun n => n.saves.find? fun x => x.1 == p.2 with
    | some x => barrOf x.2.barr g
    | none => 0

/-- A position's C waits in a BARG on a group. -/
def State.inBarg (s : State) (p : NodeId × CoreId) (g : BitVec 8) : Bool :=
  s.present p &&
    match (s.seq p.2 .c).wait with
    | some w => w.reason == 12 && w.object == g.setWidth 64
    | none => false

/-- A position has arrived at episode e of a group: it has completed e BARGs, or e − 1 and waits in the next. -/
def State.arrivedAt (s : State) (p : NodeId × CoreId) (g : BitVec 8) (e : Nat) : Bool :=
  e ≤ s.bargsOf p g || (s.bargsOf p g + 1 == e && s.inBarg p g)

/-- A waiting position's BARG completes. -/
def State.passBarg (s : State) (p : NodeId × CoreId) (g : BitVec 8) : State :=
  let k := p.2
  match (s.seq k .c).held with
  | some (.barg r) =>
    let x := s.seq k .c
    let px := resolvePx .c (isMerge k) accScope x.pfx
    let s := (s.setFlags k (px.flags ||| flagIf (rUnused r 0) fRFLD)).modCore k fun c =>
      { c with barr := (g, barrOf c.barr g + 1) :: c.barr.filter fun x => x.1 != g }
    s.complete k .c 1 [] (wordOf (.barg r)) {}
  | _ => s

/-- The positions whose BARG of an episode was issued before a core's turn of the cycle and waits: they complete with the last arrival,
in the same cycle (R188). -/
def State.earlierBargs (s : State) (k : CoreId) (ms : List (NodeId × CoreId)) (g : BitVec 8) (e : Nat) : List (NodeId × CoreId) :=
  ms.filter fun p =>
    p.2 != k && s.inBarg p g && s.bargsOf p g + 1 == e && decide (s.cores.findIdx (fun c => c.1 == p.2) < s.cores.findIdx (fun c => c.1 == k))
      && (s.seq p.2 .c).stopped.isNone

/-- BARG: g →. -/
def execBarg (r : BitVec 4) (s : State) : Host.Outcome State Fault Refusal :=
  .next (runWord (.barg r) r { pops := 1, on := [.c], acc := accScope }
    (fun w args s =>
      let g : BitVec 8 := (args.headD 0).setWidth 8
      let ms := s.members g
      match ms.find? fun p => p.2 == w.k && (s.core w.k).node == some p.1 with
      | none => .trap (privilege (args.headD 0) 6)
      | some me =>
        let s := s.settle w.k w.q
        let e := s.bargsOf me g + 1
        let near := ms.all fun p => sameCluster w.k p.2
        if ms.all fun p => p == me || s.arrivedAt p g e then
          let early := if near then s.earlierBargs w.k ms g e else []
          .done (s.modCore w.k fun c => { c with barr := (g, e) :: c.barr.filter fun x => x.1 != g }) []
            { after := fun s => early.foldl (fun s p => s.passBarg p g) s }
        else .wait { reason := 12, beyond := !near, object := g.setWidth 64 } 1 s) s)

end Sys2Proof.Machine
end

