-- ==== Sys2Proof/Machine/Banks.lean ====
section
/-! DEFINITION. Bank modes and their changes: the drains, what the bank proper holds afterwards, and PHASE (R92 to R94, R99,
R196). -/

namespace Sys2Proof.Machine

/-- Bytes of a bank proper (R15). -/
def bankProper : Nat := 0x1C0000

/-- The bank proper reads as zero, with no poison and no error (R94). -/
def State.clearBank (s : State) (k : CoreId) : State :=
  let a := bankKey k 0
  { s with mem := s.mem.clear a bankProper
           poison := s.poison.filter fun p => !decide (a / 32 ≤ p ∧ p < (a + bankProper) / 32)
           ecc := s.ecc.filter fun p => !decide (a / 32 ≤ p.1 ∧ p.1 < (a + bankProper) / 32) }

/-- Cycles of a drain (R94). Leaving CACHE mode writes back D dirty lines and moves V version lines, whose numbers depend on
the L2's hash, which is not architectural: D + 2V is a free number up to 16,384. (DESIGN CHOICE, log entry 31.) -/
def State.drainCycles (s : State) (old new : BankMode) : Nat × State :=
  match old, new with
  | .cache, .scratch => let (x, s) := s.pick 16385; (x + 64, s)
  | .cache, .fifo => let (x, s) := s.pick 16385; (x + 96, s)
  | .scratch, .cache => (64, s)
  | .scratch, .fifo => (32, s)
  | .fifo, .scratch => (32, s)
  | .fifo, .cache => (96, s)
  | _, _ => (0, s)

/-- The CACHE banks of a cluster in the order in which they are withdrawn: spares, then cores that run no node, then the
others, each with the highest logical number first. -/
def State.withdrawOrder (s : State) (d : Die) (c : Cluster) : List CoreId :=
  let l := (clusterCores' d c).filter fun k => (s.core k).mode == .cache
  let spare := l.filter isSpare
  let rest := l.filter fun k => !isSpare k
  spare ++ (rest.filter fun k => (s.core k).node.isNone) ++ rest.filter fun k => (s.core k).node.isSome
where
  /-- The cores of a cluster, highest number first. -/
  clusterCores' (d : Die) (c : Cluster) : List CoreId := ((List.finRange 48).map fun k => (⟨d, c, k⟩ : CoreId)).reverse

/-- While the SRAM rail of a cluster stands low, an eighth of its CACHE banks, rounded up, is withdrawn, whatever their number has become:
those that are so stay so, and the others follow in order (R99). (DEDUCED, log entry 31.) -/
def State.rewithdraw (s : State) (d : Die) (c : Cluster) : State :=
  if (s.cluster d c).dected.isNone then s
  else
    let l := s.withdrawOrder d c
    let l' := (l.filter fun k => (s.core k).withdrawn) ++ l.filter fun k => !(s.core k).withdrawn
    let gone := l'.take ((l.length + 7) / 8)
    (List.finRange 48).foldl (fun s k =>
      let id : CoreId := ⟨d, c, k⟩
      if (s.core id).withdrawn != gone.contains id then s.modCore id fun x => { x with withdrawn := gone.contains id } else s) s

/-- Change a bank's mode, and start its drain; entries of a queue are discarded and its segments unlinked (R93). While the SRAM rail is
low the withdrawn banks of the cluster follow (R99). -/
def State.setMode (s : State) (k : CoreId) (m : BankMode) : State :=
  let old := (s.core k).mode
  if old = m then s
  else
    let (n, s) := s.drainCycles old m
    ((s.clearBank k).modCore k fun c => { c with mode := m, drain := n, fifo := Fifo.empty }).rewithdraw k.die k.cluster

/-- A bank mode of a code. -/
def modeOf (n : Nat) : Option BankMode :=
  match n with
  | 0 => some .cache
  | 1 => some .scratch
  | 2 => some .fifo
  | _ => none

/-- The code of a bank mode. -/
def modeCode (m : BankMode) : Nat :=
  match m with
  | .cache => 0
  | .scratch => 1
  | .fifo => 2

/-- PHASE: m →. (DEDUCED, log entry 29.) One to another mode is held while the bank still drains: R94 speaks of accesses only, and the
drain of a change begins from a mode. (DESIGN CHOICE, log entry 29.) -/
def execPhase (r : BitVec 4) (s : State) : Host.Outcome State Fault Refusal :=
  .next (runWord (.phase r) r { pops := 1, on := [.c], ban := true }
    (fun w a s =>
      let c := s.core w.k
      match modeOf ((a.headD 0).toNat % 4) with
      | none => .trap (privilege 0 3)
      | some m =>
        if m = c.mode then ok s []
        else if c.mode = .fifo ∧ c.fifo.tail ≠ c.fifo.head then .trap (privilege 0 3)
        else if c.withdrawn then .done s [] { flags := fPHWD }
        else if 0 < c.drain then .hold s
        else ok ((s.settle w.k w.q).setMode w.k m) []) s)

end Sys2Proof.Machine
end

