-- ==== Sys2Proof/Machine/Rows.lean ====
section
/-! DEFINITION. Tile rows: row ports and the landing of results (R35, R261, R262, R270), tile movement between memory and
tiles (R272), and the full/empty words (R33, R273). -/

namespace Sys2Proof.Machine

/-! ### Rows and lanes (R261) -/

/-- Lanes of a row in a format that is not MX. -/
def lanesOf (code : Nat) : Nat := 1024 / elemBits code

/-- The lane codes of a row. -/
def rowLanes (code : Nat) (bs : List Byte) : List Nat := unpackElems (elemBits code) bs (lanesOf code)

/-- A row of lane codes. -/
def laneRow (code : Nat) (cs : List Nat) : List Byte := packElems (elemBits code) cs 128

/-- An accepted format code, or code 0 with WFMT (R162). -/
def fmtOr (accepted : List Nat) (code : Nat) : Nat × BitVec 32 := if accepted.contains code then (code, 0) else (0, fWFMT)

/-- The row a port addresses (R35). -/
def Port.row (p : Port) : Nat := (p.start.toNat + p.cur.toNat) % 32

/-- A port can be read. -/
def Port.reads (p : Port) : Bool := p.mode == 1 || p.mode == 3

/-- The bytes of a port's row, or zeros with PUNB through an unbound port or one of the wrong mode. -/
def Ctx.portBytes (x : Ctx) (p : Port) : List Byte × BitVec 32 :=
  if p.reads then (x.tileRow p.tile p.row, 0) else (List.replicate 128 0, fPUNB)

/-! ### Landings (R33, R262) -/

/-- A write through a port that lands in `left` cycles. -/
def landing (p : Fin 8) (b : Port) (left off : Nat) (data : List Byte) (mask : Byte) (fromC : Bool) (fin : Fin') : Landing :=
  { left := left, replay := false, port := p, tile := b.tile, row := b.row, off := off, data := data, mask := mask, fromC := fromC, ended := false
    fin := fin }

/-- Put a result in flight. -/
def State.fly (s : State) (k : CoreId) (l : Landing) : State := s.modCtx k fun x => { x with landings := x.landings ++ [l] }

/-- A result is written to its row. -/
def Ctx.land (x : Ctx) (l : Landing) : Ctx :=
  if l.mask = 0xFF#8 then x.setTileBytes l.tile l.row l.off l.data
  else
    let old := (x.tileRow l.tile l.row).drop l.off
    let bs := (old.zip l.data).map fun p => (p.1 &&& ~~~l.mask) ||| (p.2 &&& l.mask)
    x.setTileBytes l.tile l.row l.off bs

/-- A write port is bound to a tile, or was and its writes have not all landed. -/
def Ctx.writing (x : Ctx) (t : BitVec 4) : Bool :=
  x.regs.port.toList.any (fun p => p.mode == 2 && p.tile == t) || x.closing.any fun c => c.2 == t

/-- A TLD to a tile is in flight. -/
def Ctx.loading (x : Ctx) (t : BitVec 4) : Bool := x.moves.any fun m => m.load && m.tile == t

/-- A tile is set full, unless what fills it too has still to complete: of a write port and a TLD the last does it (R33, R271). -/
def Ctx.filled (x : Ctx) (t : BitVec 4) (other : Bool) : Ctx := if other then x else x.setFull t true

/-- A write port that has been unbound sets its tile full once its writes have landed, a TLD to that tile permitting (R271). -/
def Ctx.closePorts (x : Ctx) : Ctx :=
  let busy := fun c : Fin 8 × BitVec 4 => x.landings.any fun l => l.ended && l.port == c.1 && l.tile == c.2
  (x.closing.filter fun c => !busy c).foldl (fun x c => x.filled c.2 (x.loading c.2)) { x with closing := x.closing.filter busy }

/-- V_RESULT_LANDING: results whose latency is over land, those of C first, then in issue order. -/
def execVResultLanding (s : State) : Host.Outcome State Fault Refusal :=
  let k := s.arg.k
  if (s.core k).saved.isSome then .next s
  else
  let due := (s.ctx k).landings.filter fun l => l.left == 0
  let due := due.filter (fun l => l.fromC) ++ due.filter fun l => !l.fromC
  let s := s.modCtx k fun x =>
    ({ due.foldl Ctx.land x with landings := x.landings.filter fun l => l.left != 0 } : Ctx).closePorts
  .next (due.foldl (fun s l => s.finish k l.fin) s)

/-- A port gives up its binding: a write-mode port's tile is set full once its writes have landed. -/
def Ctx.endBinding (x : Ctx) (p : Fin 8) : Ctx :=
  let b := x.regs.port[p.val]
  let x := { x with landings := x.landings.map fun l => if l.port = p then { l with ended := true } else l }
  if b.mode = 2 then
    ({ x with closing := x.closing ++ [(p, b.tile)], regs := { x.regs with port := vput x.regs.port p Port.unbound } } : Ctx).closePorts
  else x

/-! ### Tile classes (R33, R34) -/

/-- The wait of a tile class: reason 1 or 2, with the tile's physical number as the object. -/
def tileWait (reason : BitVec 4) (t : BitVec 4) : WaitOn := { reason := reason, beyond := false, object := t.setWidth 64 }

/-- The wait of a binding in a mode. -/
def Ctx.bindWait (x : Ctx) (mode : BitVec 2) (t : BitVec 4) : Option WaitOn :=
  if mode = 1 then (if x.isFull t then none else some (tileWait 1 t))
  else if mode = 2 then (if x.isFull t || x.isLent t then some (tileWait 2 t) else none)
  else if mode = 3 then
    (if !x.isFull t then some (tileWait 1 t) else if x.isLent t then some (tileWait 2 t) else none)
  else none

/-- Go on where n rows of a tile are sound (R326). -/
def withTile (w : Wd) (t : BitVec 4) (row n : Nat) (s : State) (go : State → Res) : Res :=
  withRegs w (tileWords t row n) s go

/-! ### Port words (R270) -/

/-- The binding of an operand, its TILE resolved. -/
def bindingOf (v : W64) (fmt : Nat) (tile : BitVec 4) : Port :=
  { cur := v.extractLsb' 25 5, stride := v.extractLsb' 20 5, mode := v.extractLsb' 18 2, fmt := BitVec.ofNat 4 fmt
    start := v.extractLsb' 9 5, tile := tile }

/-- What PREAD reads. -/
def Port.word (p : Port) : W64 :=
  BitVec.ofNat 64 (p.cur.toNat * 2 ^ 25 + p.stride.toNat * 2 ^ 20 + p.mode.toNat * 2 ^ 18 + p.fmt.toNat * 2 ^ 14
    + p.start.toNat * 2 ^ 9 + p.tile.toNat)

/-- PBIND r: v →. A binding that holds code 15 takes code 0 with WFMT (R162). Of an FMT prefix only the first field is read, as on every word
that uses one format: a second field of 15 sets no WFMT. (DEDUCED, log entry 33.) -/
def execPbind (r : BitVec 4) (s : State) : Host.Outcome State Fault Refusal :=
  .next (runWord (.pbind r) r { pops := 1, on := [.v], rbits := 7, acc := { fmt := true, blocks := true } }
    (fun w a s =>
      let v := a.headD 0
      let mode := v.extractLsb' 18 2
      let name := v.extractLsb' 0 4
      let x := s.ctx w.k
      let t := x.regs.phys name
      let code := match w.px.fmt with | some p => p.1 | none => bitsOf v.toNat 17 14
      let (f, flags) := fmtOr (List.range 15) code
      if mode ≠ 0 ∧ x.outside t then .trap (footTrap name)
      else if bitsOf v.toNat 63 30 ≠ 0 ∨ bitsOf v.toNat 8 4 ≠ 0 then .trap (badOperand v)
      else
        match x.bindWait mode t with
        | some on => .wait on 1 s
        | none =>
          let s := s.modCtx w.k fun x => x.endBinding (r8 r)
          .done (s.modRegs w.k fun g => { g with port := vput g.port (r8 r) (bindingOf v f t) }) [] { flags := flags }) s)

/-- PSTEP r. -/
def execPstep (r : BitVec 4) (s : State) : Host.Outcome State Fault Refusal :=
  .next (runWord (.pstep r) r { on := [.v], rbits := 7 }
    (fun w _ s =>
      let p := (s.regs w.k).port[(r8 r).val]
      if p.mode = 0 then .done s [] { flags := fPUNB }
      else ok (s.modRegs w.k fun g => { g with port := vput g.port (r8 r) { p with cur := p.cur + p.stride } }) []) s)

/-- PREAD r: → v. -/
def execPread (r : BitVec 4) (s : State) : Host.Outcome State Fault Refusal :=
  .next (runWord (.pread r) r { pushes := 1, on := [.v], rbits := 7 }
    (body0 fun w s => (s.regs w.k).port[(r8 r).val].word) s)

/-! ### Lane words (R270) -/

/-- The formats of lane words. -/
def fmtLane : List Nat := [0, 1, 2, 3, 4, 11, 12, 13, 14]

/-- The bytes and mask that write lane j of a row. -/
def laneBytes (code j : Nat) (v : W64) : Nat × List Byte × Byte :=
  let b := elemBits code
  if b = 2 then
    (j / 4, [BitVec.ofNat 8 (v.toNat % 4 * 4 ^ (j % 4))], BitVec.ofNat 8 (3 * 4 ^ (j % 4)))
  else (j * (b / 8), leBytes (b / 8) v.toNat, 0xFF)

/-- VSPLAT r: x →. -/
def execVsplat (r : BitVec 4) (s : State) : Host.Outcome State Fault Refusal :=
  .next (runWord (.vsplat r) r { pops := 1, on := [.v], rbits := 7 }
    (fun w a s =>
      let p := (s.regs w.k).port[(r8 r).val]
      if !p.writes then .done s [] { flags := fPUNB }
      else
        let (f, flags) := fmtOr fmtLane p.fmt.toNat
        let row := laneRow f (List.replicate (lanesOf f) (a.headD 0).toNat)
        .done (s.fly w.k (landing (r8 r) p 2 0 row 0xFF false w.fin)) [] { flags := flags, deferred := true }) s)

/-- VLANE r: k → v. -/
def execVlane (r : BitVec 4) (s : State) : Host.Outcome State Fault Refusal :=
  .next (runWord (.vlane r) r { pops := 1, pushes := 1, on := [.v], rbits := 7 }
    (fun w a s =>
      let x := s.ctx w.k
      let p := x.regs.port[(r8 r).val]
      if !p.reads then .done s [0] { flags := fPUNB }
      else
        let (f, flags) := fmtOr fmtLane p.fmt.toNat
        let c := unpackElem (elemBits f) (x.tileRow p.tile p.row) ((a.headD 0).toNat % lanesOf f)
        let v := if f = 11 ∨ f = 13 then BitVec.ofInt 64 (sintOf (elemBits f) c) else BitVec.ofNat 64 c
        .done s [v] { flags := flags }) s)

/-- VPUTL r: v k →. -/
def execVputl (r : BitVec 4) (s : State) : Host.Outcome State Fault Refusal :=
  .next (runWord (.vputl r) r { pops := 2, on := [.v], rbits := 7 }
    (fun w a s =>
      let p := (s.regs w.k).port[(r8 r).val]
      if !p.writes then .done s [] { flags := fPUNB }
      else
        let (f, flags) := fmtOr fmtLane p.fmt.toNat
        let (off, bs, mask) := laneBytes f ((a.getD 1 0).toNat % lanesOf f) (a.headD 0)
        .done (s.fly w.k (landing (r8 r) p 2 off bs mask false w.fin)) [] { flags := flags, deferred := true }) s)

/-- The TLDs and TSTs of V that are not complete. -/
def Ctx.vMoves (x : Ctx) : List TileMove := x.moves.filter fun m => m.q == .v

/-- VWAIT. No command of an engine is named as the object of its wait (reason 8): it is 0. (DESIGN CHOICE, log entry 53.) -/
def execVwait (r : BitVec 4) (s : State) : Host.Outcome State Fault Refusal :=
  .next (runWord (.vwait r) r { on := [.v], acc := { blocks := true } }
    (fun w _ s =>
      let x := s.ctx w.k
      if x.landings.all (fun l => l.fromC) && x.vMoves.isEmpty then ok s []
      else .wait { reason := 8, beyond := x.vMoves.any (fun m => !m.near), object := 0 } 1 s) s)

/-! ### Tile movement (R272) -/

/-- The operands of TLD and TST that pass their limits: rows, first row, and the memory addresses of the rows. -/
def moveRows (a st n : W64) : Except TrapInfo (Nat × Nat × List Nat) :=
  let cnt := n.toNat % 64
  let first := bitsOf n.toNat 12 8
  if cnt = 0 ∨ 32 < cnt + first ∨ n.toNat ≠ cnt + 256 * first then .error (badOperand n)
  else if st.toNat % 16 ≠ 0 then .error (badOperand st)
  else .ok (cnt, first, (List.range cnt).map fun k => (a + BitVec.ofNat 64 k * st).toNat)

/-- The memory and tile formats of a moving word: none where rows are copied unchanged. -/
def moveFmt (px : Px) : Option (Nat × Nat) × BitVec 32 :=
  match px.fmt with
  | none => (none, 0)
  | some p =>
    let (m, f1) := fmtOr fmtScalar p.1
    let (t, f2) := fmtOr fmtScalar p.2
    (if m = t then none else some (m, t), f1 ||| f2)

/-- Bytes of a memory row. -/
def memRowBytes (f : Option (Nat × Nat)) : Nat :=
  match f with
  | none => 128
  | some (m, t) => lanesOf t * elemBits m / 8

/-- Convert n elements of packed bytes from one format to another (R81). -/
def convRow (src dst n len : Nat) (mode sat : BitVec 2) (bs : List Byte) : List Byte :=
  packElems (elemBits dst) ((unpackElems (elemBits src) bs n).map fun c => convElem c src dst mode sat) len

/-- A memory row as a tile row. -/
def rowIn (f : Option (Nat × Nat)) (px : Px) (bs : List Byte) : List Byte :=
  match f with
  | none => bs
  | some (m, t) => convRow m t (lanesOf t) 128 px.rnd px.sat bs

/-- A tile row as a memory row. -/
def rowOut (f : Option (Nat × Nat)) (px : Px) (bs : List Byte) : List Byte :=
  match f with
  | none => bs
  | some (m, t) => convRow t m (lanesOf t) (memRowBytes f) px.rnd px.sat bs

/-- Read rows as plain loads: their bytes, and the FT units charged. -/
def withRows (w : Wd) (l : List Nat) (n cost : Nat) (rows : List (List Byte)) (ft : Nat) (s : State)
    (go : List (List Byte) → Nat → State → Res) : Res :=
  match l with
  | [] => go rows ft s
  | va :: t =>
    withPieces w (cutRange 32 va n) 1 cost [] 0 s fun bs far s =>
      withRows w t n cost (rows ++ [bs]) (ft + ftUnits far) s go

/-- Go on where no watch stops a write of any piece. -/
def withWatches (w : Wd) (l : List (Nat × List Byte)) (s : State) (go : State → Res) : Res :=
  match l with
  | [] => go s
  | (va, bs) :: t => withWatch w s (BitVec.ofNat 64 va) bs true fun _ => withWatches w t s go

/-- Issue a store of at most 128 bytes of a row whose address has passed the checks. -/
def State.storePiece (s : State) (k : CoreId) (q : Seq) (va : Nat) (bs : List Byte) : State :=
  match s.access k (BitVec.ofNat 64 va) bs.length 1 .store with
  | .ok (t, e) => (s.useTlb k e).issueStore k q t bs
  | .error _ => s

/-- The pieces of a row with their bytes, split between 128-byte lines. -/
def rowPieces (va : Nat) (bs : List Byte) : List (Nat × List Byte) :=
  (cutRange 128 va bs.length).map fun p => (p.1, (bs.drop (p.1 - va)).take p.2)

/-- FT of a row that is stored (R60). -/
def State.rowFt (s : State) (k : CoreId) (l : List (Nat × Nat)) : Nat :=
  ftUnits (l.map fun p =>
    match s.access k (BitVec.ofNat 64 p.1) p.2 1 .store with | .ok (t, _) => farBytes k t p.2 | .error _ => 0).sum

/-- Every page of the rows is homed in a bank of the core's cluster (R67, R270). -/
def State.nearRows (s : State) (k : CoreId) (rows : List Nat) (n : Nat) : Bool :=
  rows.all fun va => (cutRange 4096 va n).all fun p => s.nearVa k (BitVec.ofNat 64 p.1)

/-- The prefixes and sequencers of TLD and TST. (DEDUCED, log entry 34.) -/
def moveSpec : Spec :=
  { pops := 3, on := [.v, .t], rbits := 15, acc := { fmt := true, conv := true, codes := fmtScalar, event := true, blocks := true } }

/-- TLD r: a s n →. Its rows are read at issue and land together later. (DEDUCED, log entry 34.) -/
def execTld (r : BitVec 4) (s : State) : Host.Outcome State Fault Refusal :=
  .next (runWord (.tld r) r moveSpec
    (fun w a s =>
      let x := s.ctx w.k
      let t := x.regs.phys r
      if x.outside t then .trap (footTrap r)
      else
        match moveRows (a.headD 0) (a.getD 1 0) (a.getD 2 0) with
        | .error t => .trap t
        | .ok (cnt, first, rows) =>
          let (f, flags) := moveFmt w.px
          let n := memRowBytes f
          let cost := 1 + (cnt + 7) / 8
          withChecks w (rows.flatMap (cutRange 128 · n)) 16 .load cost s fun s =>
            if x.isFull t then .wait (tileWait 2 t) cost s
            else
              withRows w rows n cost [] 0 (s.settle w.k w.q) fun bs ft s =>
                let m : TileMove :=
                  { q := w.q, load := true, tile := t, row := first, count := cnt, rows := bs.map (rowIn f w.px)
                    near := s.nearRows w.k rows n, pc := (s.seq w.k w.q).trapPc, fin := w.fin }
                let s := s.modCtx w.k fun x => { x with moves := x.moves ++ [m] }
                .done (s.chargeFtUnits w.k ft) [] { cost := cost, flags := flags, deferred := true }) s)

/-- TST r: a s n →. Its rows are read at issue and enter the store queue, so its tile is lent no longer than that (R272). (DEDUCED, log entry 34.) -/
def execTst (r : BitVec 4) (s : State) : Host.Outcome State Fault Refusal :=
  .next (runWord (.tst r) r moveSpec
    (fun w a s =>
      let x := s.ctx w.k
      let t := x.regs.phys r
      if x.outside t then .trap (footTrap r)
      else
        match moveRows (a.headD 0) (a.getD 1 0) (a.getD 2 0) with
        | .error t => .trap t
        | .ok (cnt, first, rows) =>
          let (f, flags) := moveFmt w.px
          let n := memRowBytes f
          let cost := 1 + (cnt + 7) / 8
          withChecks w (rows.flatMap (cutRange 128 · n)) 16 .store cost s fun s =>
            if !x.isFull t then .wait (tileWait 1 t) cost s
            else
              withTile w t first cnt s fun s =>
              let data := (List.range cnt).map fun i => rowOut f w.px (x.tileRow t (first + i))
              let ps := (rows.zip data).flatMap fun p => rowPieces p.1 p.2
              withWatches w ps s fun s =>
                let ft := (rows.map fun va => s.rowFt w.k (cutRange 128 va n)).sum
                let s := ps.foldl (fun s p => s.storePiece w.k w.q p.1 p.2) s
                let m : TileMove :=
                  { q := w.q, load := false, tile := t, row := first, count := cnt, rows := []
                    near := s.nearRows w.k rows n, pc := (s.seq w.k w.q).trapPc, fin := w.fin }
                let s := s.modCtx w.k fun x => { x with moves := x.moves ++ [m] }
                .done (s.chargeFtUnits w.k ft) [] { cost := cost, flags := flags, deferred := true }) s)

/-- Write consecutive rows of a tile. -/
def Ctx.setTileRows (x : Ctx) (t : BitVec 4) (row : Nat) (rows : List (List Byte)) : Ctx :=
  match rows with
  | [] => x
  | bs :: rest => Ctx.setTileRows (x.setTileBytes t row 0 bs) t (row + 1) rest

/-- TILE_MOVE_COMPLETE: a TLD's rows land and its tile is set full, unless a write port fills it still (R271); a TST's
stores are performed, once none of them is in the broadcast tree or held by a bank (R94, R126, R364). -/
def execTileMoveComplete (s : State) : Host.Outcome State Fault Refusal :=
  let k := s.arg.k
  let ms := (s.ctx k).moves
  let i := s.arg.num % ms.length
  match ms[i]? with
  | none => .next s
  | some m =>
    if !m.load && !(s.stuck k (s.seq k m.q)).isEmpty then .next s
    else
    let s := s.modCtx k fun x => { x with moves := ms.eraseIdx i }
    let s :=
      if m.load then s.modCtx k fun x => (x.setTileRows m.tile m.row m.rows).filled m.tile (x.writing m.tile)
      else s.settle k m.q
    .next (s.finish k m.fin)

/-! ### Full and empty (R273) -/

/-- A word that names tile r and needs no operands. -/
def tileWord (i : Instr) (r : BitVec 4) (blocks : Bool) (f : Ctx → BitVec 4 → Option WaitOn) (g : Ctx → BitVec 4 → Ctx)
    (s : State) : Host.Outcome State Fault Refusal :=
  .next (runWord i r { on := [.v, .t], rbits := 15, acc := { blocks := blocks } }
    (fun w _ s =>
      let x := s.ctx w.k
      let t := x.regs.phys r
      if x.outside t then .trap (footTrap r)
      else
        match f x t with
        | some on => .wait on 1 s
        | none => ok (s.modCtx w.k fun x => g x t) []) s)

/-- TFREE r. -/
def execTfree (r : BitVec 4) (s : State) : Host.Outcome State Fault Refusal :=
  tileWord (.tfree r) r true (fun x t => if x.isLent t then some (tileWait 2 t) else none) (fun x t => x.setFull t false) s

/-- TFILL r. -/
def execTfill (r : BitVec 4) (s : State) : Host.Outcome State Fault Refusal :=
  tileWord (.tfill r) r false (fun _ _ => none) (fun x t => x.setFull t true) s

/-- TWAITF r. -/
def execTwaitf (r : BitVec 4) (s : State) : Host.Outcome State Fault Refusal :=
  tileWord (.twaitf r) r true (fun x t => if x.isFull t then none else some (tileWait 1 t)) (fun x _ => x) s

end Sys2Proof.Machine
end

