-- ==== Sys2Proof/Machine/Fibres.lean ====
section
/-! DEFINITION. Fibres (R36, R274 to R277). A word that reads several entries keeps the positions it has passed when it
traps, waits or is stopped by a watch, and goes on from there when it is issued again (R276). -/

namespace Sys2Proof.Machine

/-- Entries; a closed fibre behaves as if it had none. -/
def Fibre.count (f : Fibre) : Nat := if f.opened then f.len.toNat else 0

/-- Bytes of a coordinate of a compressed fibre. -/
def Fibre.coordBytes (f : Fibre) : Nat := if f.cw then 4 else 2

/-- A fibre. -/
def State.fib (s : State) (k : CoreId) (j : Fin 8) : Fibre := (s.regs k).fib[j.val]

/-- Replace a fibre. -/
def State.setFib (s : State) (k : CoreId) (j : Fin 8) (f : Fibre) : State :=
  s.modRegs k fun g => { g with fib := vput g.fib j f }

/-- Set a fibre's position: its word is done with the entry it has read, and a watch that has stopped the word there is checked again
(R330). -/
def State.setPos (s : State) (w : Wd) (j : Fin 8) (i : Nat) : State :=
  (s.setFib w.k j { s.fib w.k j with pos := i }).modSeq w.k w.q fun r => { r with skip := 0, reads := r.reads.filter fun x => x.fib != j }

/-- A walk that has not ended, or a read that is outstanding: the word stays blocked with reason 8, in the beyond-cluster class where
some byte it has read is homed elsewhere than in a bank of the cluster (R276). -/
def fibWait (w : Wd) (s : State) : Res :=
  .wait { reason := 8, beyond := (s.seq w.k w.q).reads.any fun r => !r.near, object := 0 } 1 s

/-- A fibre word has made a read: while it is blocked it is not made, nor charged, again. -/
def State.noteRead (s : State) (w : Wd) (r : FibRead) : State := s.modSeq w.k w.q fun x => { x with reads := x.reads ++ [r] }

/-- A load of n bytes by a fibre word that it has not made yet: what was done before it stays. One from another module is outstanding
until it is performed there. -/
def fibRead (w : Wd) (s : State) (j : Fin 8) (va : W64) (n : Nat) (go : Nat → State → Res) : Res :=
  match s.access w.k va n n .load with
  | .error (.trap t) => .found s t
  | .error .hold => .hold s
  | .error (.fold a) => .wait { reason := 15, beyond := false, object := a } 1 s
  | .ok (t, e) =>
    let (s, got) := ((s.useTlb w.k e).meet t n).loadBytes w.k w.q t n
    let bs := got.getD (s.viewBytes w.k t n)
    let rd := fun v : Option Nat => ({ fib := j, va := va, n := n, pa := s.paOf t, near := s.nearVa w.k va, carry := false, poison := false, value := v } : FibRead)
    match s.watchHit w.k (s.seq w.k w.q).skip va bs false with
    | some wj => .seen s (s.wordHit w wj false va bs)
    | none =>
      let s := s.chargeFt w.k t n
      match got, t with
      | some bs, _ => go (leNat bs) (s.noteRead w (rd (some (leNat bs))))
      | none, .remote _ => fibWait w (s.noteRead w (rd none))
      | none, _ => withConsume w s t n fun s => go (leNat bs) (s.noteRead w (rd (some (leNat bs))))

/-- The read of a fibre's bytes that the word has made already. -/
def State.madeRead (s : State) (w : Wd) (j : Fin 8) (va : W64) (n : Nat) : Option FibRead :=
  (s.seq w.k w.q).reads.find? fun r => r.fib == j && r.va == va && r.n == n

/-- A load of n bytes by a fibre word. -/
def fibLoad (w : Wd) (s : State) (j : Fin 8) (va : W64) (n : Nat) (go : Nat → State → Res) : Res :=
  match s.madeRead w j va n with
  | none => fibRead w s j va n go
  | some r =>
    match r.value with
    | some v => go v s
    | none => fibWait w s

/-- The coordinate of entry i. -/
def fibCoord (w : Wd) (s : State) (j : Fin 8) (i : Nat) (go : W64 → State → Res) : Res :=
  let f := s.fib w.k j
  if f.dense then go (f.cbase + BitVec.ofNat 64 i) s
  else fibLoad w s j (f.cbase + BitVec.ofNat 64 (i * f.coordBytes)) f.coordBytes fun v s => go (BitVec.ofNat 64 v) s

/-- The raw bits of the value of entry i. -/
def fibValue (w : Wd) (s : State) (j : Fin 8) (i : Nat) (go : Nat → State → Res) : Res :=
  let f := s.fib w.k j
  let n := elemBits f.vfmt.toNat / 8
  let off := if f.dense then BitVec.ofNat 64 i * f.vstr.signExtend 64 else BitVec.ofNat 64 (i * n)
  fibLoad w s j (f.vbase + off) n go

/-- SEEK(f, c); `fuel` bounds the entries passed. -/
def fibSeek (fuel : Nat) (w : Wd) (s : State) (j : Fin 8) (c : W64) (go : State → Res) : Res :=
  let f := s.fib w.k j
  if f.dense then
    (if (f.cbase + BitVec.ofNat 64 f.pos).ult c then go (s.setPos w j (min f.count (c - f.cbase).toNat)) else go s)
  else
    match fuel with
    | 0 => fibWait w s
    | fuel + 1 =>
      if f.count ≤ f.pos then go s
      else
        fibCoord w s j f.pos fun v s =>
          if v.ult c then fibSeek fuel w (s.setPos w j (f.pos + 1)) j c go else go s

/-- Entries that a walk can still pass, and one. -/
def Fibre.fuel (f : Fibre) : Nat := f.count - f.pos + 1

/-- MATCH(x, y): 1 at a common coordinate, 0 at an end. -/
def fibMatch (fuel : Nat) (w : Wd) (s : State) (x y : Fin 8) (go : W64 → State → Res) : Res :=
  let fx := s.fib w.k x
  let fy := s.fib w.k y
  match fuel with
  | 0 => fibWait w s
  | fuel + 1 =>
    if fx.count ≤ fx.pos ∨ fy.count ≤ fy.pos then go 0 s
    else
      fibCoord w s x fx.pos fun cx s => fibCoord w s y fy.pos fun cy s =>
        if cx = cy then go 1 s
        else if cx.ult cy then fibSeek fx.fuel w s x cy fun s => fibMatch fuel w s x y go
        else fibSeek fy.fuel w s y cx fun s => fibMatch fuel w s x y go

/-- The fibre after f[r], modulo 8. -/
def r8next (r : BitVec 4) : Fin 8 := ⟨(r.toNat + 1) % 8, Nat.mod_lt _ (by decide)⟩

/-- The fibre registers that a word uses. -/
def fibresOf (i : Instr) : List (Fin 8) :=
  match i with
  | .fopen r | .fadv r | .fseek r | .fend r | .fcrd r | .fval r | .frow r | .fclose r => [r8 r]
  | .fmatch r | .mgexpand r => [r8 r, r8next r]
  | _ => []

/-- A word of another sequencer awaits the reads it has made through one of these fibre registers: it was issued before, and takes effect
before (R36, R276). -/
def State.fibAhead (s : State) (k : CoreId) (q : Seq) (js : List (Fin 8)) : Option Seqr :=
  ([Seq.c, .v, .t].filter (· != q)).map (s.seq k) |>.find? fun r =>
    !r.reads.isEmpty && (match r.held with | some i => (fibresOf i).any js.contains | none => false)

/-- A fibre word takes effect in its turn. -/
def fibTurn (w : Wd) (s : State) (js : List (Fin 8)) (go : Res) : Res :=
  match s.fibAhead w.k w.q js with
  | some r => .wait { reason := 8, beyond := r.reads.any fun y => !y.near, object := 0 } 1 s
  | none => go

/-- Fibre words name fibre r[2:0]. -/
def fibSpec (pops pushes : Nat) (blocks : Bool) : Spec :=
  { pops := pops, pushes := pushes, on := [.c, .v], rbits := 7, acc := { blocks := blocks } }

/-- The fibre of a descriptor's bytes, or none where it is malformed; VFMT is given apart. -/
def fibreOf (bs : List Byte) (vfmt : Nat) : Option Fibre :=
  let ctl := leAt bs 24 8
  let kind := ctl % 4
  if 2 ≤ kind ∨ 2 ^ 12 ≤ ctl ∨ bitsOf ctl 7 5 ≠ 0 ∨ bitsOf ctl 3 2 ≠ 0 ∨ (kind = 0 ∧ leAt bs 20 4 ≠ 0) then none
  else some { opened := true, cbase := BitVec.ofNat 64 (leAt bs 0 8), vbase := BitVec.ofNat 64 (leAt bs 8 8)
              len := BitVec.ofNat 32 (leAt bs 16 4), vstr := BitVec.ofNat 32 (leAt bs 20 4), vfmt := BitVec.ofNat 4 vfmt
              cw := ctl.testBit 4, dense := kind == 1, pos := 0 }

/-- FOPEN r: d →. -/
def execFopen (r : BitVec 4) (s : State) : Host.Outcome State Fault Refusal :=
  .next (runWord (.fopen r) r { fibSpec 1 0 true with acc := { fmt := true, blocks := true } }
    (fun w a s =>
      let d := a.headD 0
      fibTurn w s [r8 r] <| fibLoad w s (r8 r) d 32 fun v s =>
        let bs := leBytes 32 v
        let code := match w.px.fmt with | some p => p.1 | none => bitsOf (leAt bs 24 8) 11 8
        let (vf, flags) := fmtOr fmtScalar code
        match fibreOf bs vf with
        | none => .trap (badOperand d)
        | some f => .done (s.setFib w.k (r8 r) f) [] { flags := flags }) s)

/-- FADV r. -/
def execFadv (r : BitVec 4) (s : State) : Host.Outcome State Fault Refusal :=
  .next (runWord (.fadv r) r (fibSpec 0 0 false)
    (fun w _ s =>
      let f := s.fib w.k (r8 r)
      fibTurn w s [r8 r] <| ok (s.setFib w.k (r8 r) { f with pos := min (f.pos + 1) f.count }) []) s)

/-- FSEEK r: c →. -/
def execFseek (r : BitVec 4) (s : State) : Host.Outcome State Fault Refusal :=
  .next (runWord (.fseek r) r (fibSpec 1 0 true)
    (fun w a s => fibTurn w s [r8 r] <| fibSeek (s.fib w.k (r8 r)).fuel w s (r8 r) (a.headD 0) fun s => ok s []) s)

/-- FEND r: → e. -/
def execFend (r : BitVec 4) (s : State) : Host.Outcome State Fault Refusal :=
  .next (runWord (.fend r) r (fibSpec 0 1 false)
    (fun w _ s => let f := s.fib w.k (r8 r); fibTurn w s [r8 r] <| ok s [if f.pos = f.count then 1 else 0]) s)

/-- FCRD r: → v. -/
def execFcrd (r : BitVec 4) (s : State) : Host.Outcome State Fault Refusal :=
  .next (runWord (.fcrd r) r (fibSpec 0 1 true)
    (fun w _ s =>
      let f := s.fib w.k (r8 r)
      fibTurn w s [r8 r] <| if f.count ≤ f.pos then ok s [BitVec.allOnes 64] else fibCoord w s (r8 r) f.pos fun v s => ok s [v]) s)

/-- FVAL r: → v. -/
def execFval (r : BitVec 4) (s : State) : Host.Outcome State Fault Refusal :=
  .next (runWord (.fval r) r (fibSpec 0 1 true)
    (fun w _ s =>
      let f := s.fib w.k (r8 r)
      let code := f.vfmt.toNat
      fibTurn w s [r8 r] <|
      if f.count ≤ f.pos then ok s [0]
      else
        fibValue w s (r8 r) f.pos fun v s =>
          ok s [if code = 11 ∨ code = 13 then BitVec.ofInt 64 (sintOf (elemBits code) v) else BitVec.ofNat 64 v]) s)

/-- The lane codes of FROW from entry i on: values converted, or coordinates. -/
def frowLanes (n : Nat) (w : Wd) (s : State) (j : Fin 8) (i : Nat) (coords : Bool) (code : Nat) (acc : List Nat)
    (go : List Nat → State → Res) : Res :=
  match n with
  | 0 => go acc.reverse s
  | n + 1 =>
    if coords then
      fibCoord w s j i fun v s => frowLanes n w s j (i + 1) coords code (v.toNat % 2 ^ elemBits code :: acc) go
    else
      fibValue w s j i fun v s =>
        frowLanes n w s j (i + 1) coords code (convElem v (s.fib w.k j).vfmt.toNat code w.px.rnd w.px.sat :: acc) go

/-- FROW r: k →. The row lands in the cycle of the word, so that the next word of either sequencer reads it. Through a port that cannot be
written it is discarded, and the entries are read all the same (R35). -/
def execFrow (r : BitVec 4) (s : State) : Host.Outcome State Fault Refusal :=
  .next (runWord (.frow r) r { fibSpec 1 0 true with acc := { round := true, sat := true, blocks := true } }
    (fun w a s =>
      let k := a.headD 0
      let j := r8 r
      let f := s.fib w.k j
      let pn : Fin 8 := ⟨k.toNat % 8, Nat.mod_lt _ (by decide)⟩
      let p := (s.regs w.k).port[pn.val]
      let (code, flags) := fmtOr fmtScalar p.fmt.toNat
      let lanes := lanesOf code
      let pass := fun s : State => s.setFib w.k j { s.fib w.k j with pos := min f.count (f.pos + lanes) }
      if 16 ≤ k.toNat then .trap (badOperand k)
      else
        fibTurn w s [j] <| frowLanes (min lanes (f.count - f.pos)) w s j f.pos (k.getLsbD 3) code [] fun cs s =>
          if !p.writes then .done (pass s) [] { flags := flags ||| fPUNB }
          else
          let row := laneRow code (cs ++ List.replicate (lanes - cs.length) 0)
          let s := s.fly w.k (landing pn p 1 0 row 0xFF (w.q == .c) w.fin)
          .done (pass s) [] { flags := flags, deferred := true }) s)

/-- FMATCH r: → m. -/
def execFmatch (r : BitVec 4) (s : State) : Host.Outcome State Fault Refusal :=
  .next (runWord (.fmatch r) r (fibSpec 0 1 true)
    (fun w _ s =>
      fibTurn w s [r8 r, r8next r] <| fibMatch ((s.fib w.k (r8 r)).fuel + (s.fib w.k (r8next r)).fuel) w s (r8 r) (r8next r) fun m s => ok s [m]) s)

/-- FCLOSE r. -/
def execFclose (r : BitVec 4) (s : State) : Host.Outcome State Fault Refusal :=
  .next (runWord (.fclose r) r (fibSpec 0 0 false)
    (fun w _ s => fibTurn w s [r8 r] <| ok (s.setFib w.k (r8 r) { s.fib w.k (r8 r) with opened := false, pos := 0 }) []) s)

end Sys2Proof.Machine
end

