-- ==== Sys2Proof/Machine/Pages.lean ====
section
/-! DEFINITION. Shared frames: PGSHARE, PGDROP, PGREFS and the Ostler's copy-on-write service (R112 to R115, R189). -/

namespace Sys2Proof.Machine

/-- An arena as its descriptor stands in memory (R112). -/
structure Arena where
  /-- PA of the descriptor. -/
  pa : Nat
  /-- VBASE. -/
  vbase : Nat
  /-- VLIM. -/
  vlim : Nat
  /-- FBASE. -/
  fbase : Nat
  /-- FCNT. -/
  fcnt : Nat
  /-- RECS. -/
  recs : Nat
  deriving DecidableEq, Repr

/-- Read an arena's descriptor at its home. -/
def State.arena (s : State) (pa : Nat) : Arena :=
  { pa := pa, vbase := s.homeLE pa 8, vlim := s.homeLE (pa + 8) 8, fbase := s.homeLE (pa + 0x10) 8,
    fcnt := s.homeLE (pa + 0x18) 4, recs := s.homeLE (pa + 0x20) 8 }

/-- A frame address lies in an arena. -/
def Arena.holds (a : Arena) (frame : Nat) : Bool := a.fbase ≤ frame && frame < a.fbase + a.fcnt * 65536

/-- PA of the record of a frame. -/
def Arena.recPa (a : Arena) (frame : Nat) : Nat := a.recs + 8 * ((frame - a.fbase) / 65536)

/-- REFS of a frame. -/
def State.refs (s : State) (a : Arena) (frame : Nat) : Nat := s.homeLE (a.recPa frame) 8 % 65536

/-- Write REFS of a frame, keeping LINK. -/
def State.setRefs (s : State) (a : Arena) (frame n : Nat) : State :=
  s.homeSetLE (a.recPa frame) 8 (s.homeLE (a.recPa frame) 8 / 65536 * 65536 + n % 65536)

/-- The PA of the level-0 entry of an address: not present where a table is missing, permission where a larger page maps it.
-/
def State.entryPa (s : State) (n : Nat) (table va : Nat) : Except (Nat × Nat) Nat :=
  match n with
  | 0 => .error (0, 0)
  | l + 1 =>
    let pa := table + 8 * (va / 2 ^ (12 + 9 * l) % 512)
    if l = 0 then .ok pa
    else
      let pte := s.homeLE pa 8
      if !pte.testBit 0 then .error (0, l)
      else if pte.testBit 7 then .error (1, l)
      else State.entryPa s l (bitsOf pte 51 12 * 4096) va

/-- The trap of a failed unit check. -/
def unitTrap (va : Nat) (kind level : Nat) : TrapInfo :=
  { code := 0x10, kind := BitVec.ofNat 4 kind, addr := BitVec.ofNat 64 va, info := BitVec.ofNat 64 level }

/-- A unit of an arena that an address maps (R112 to R114): the PA of its first entry and the entry. -/
def State.unit (s : State) (a : Arena) (root va : Nat) (locks : Bool) : Except TrapInfo (Nat × Nat) :=
  if va % 65536 ≠ 0 ∨ va < a.vbase ∨ a.vlim < va + 65536 then .error (unitTrap va 1 0)
  else
    match s.entryPa 5 root va with
    | .error (kd, l) => .error (unitTrap va kd l)
    | .ok pa =>
      let pte := s.homeLE pa 8
      if pte.testBit 0 && pte.testBit 7 && bitsOf pte 11 8 == 1 && leafOk 0 pte && a.holds (bitsOf pte 51 12 * 4096)
          && !(locks && pte.testBit 6) then .ok (pa, pte)
      else .error (unitTrap va 1 0)

/-- The unit checks of PGSHARE for units i to i + n − 1. -/
def State.shareChecks (s : State) (a : Arena) (root d sv : Nat) (n : Nat) : Except TrapInfo Unit :=
  match n with
  | 0 => .ok ()
  | n + 1 =>
    if d % 65536 ≠ 0 ∨ d < a.vbase ∨ a.vlim < d + 65536 then .error (unitTrap d 1 0)
    else
      match s.unit a root sv true with
      | .error t => .error t
      | .ok (_, pte) =>
        if 65535 ≤ s.refs a (bitsOf pte 51 12 * 4096) then .error (unitTrap sv 1 0)
        else
          match s.entryPa 5 root d with
          | .error (kd, l) => .error (unitTrap d kd l)
          | .ok pa =>
            if (List.range 16).any fun i => (s.homeLE (pa + 8 * i) 8).testBit 0 then .error (unitTrap d 1 0)
            else State.shareChecks s a root (d + 65536) (sv + 65536) n

/-- Change the 16 entries of a unit. -/
def State.modEntries (s : State) (pa : Nat) (f : Nat → Nat) : State :=
  (List.range 16).foldl (fun s i => s.homeSetLE (pa + 8 * i) 8 (f (s.homeLE (pa + 8 * i) 8))) s

/-- Set a bit of an entry. -/
def setBit (v i : Nat) : Nat := if v.testBit i then v else v + 2 ^ i
/-- Clear a bit of an entry. -/
def clrBit (v i : Nat) : Nat := if v.testBit i then v - 2 ^ i else v

/-- The changes of PGSHARE, unit by unit. -/
def State.shareUnits (s : State) (a : Arena) (root d sv : Nat) (n : Nat) : State :=
  match n with
  | 0 => s
  | n + 1 =>
    match s.entryPa 5 root sv, s.entryPa 5 root d with
    | .ok ps, .ok pd =>
      let f := bitsOf (s.homeLE ps 8) 51 12 * 4096
      let s := s.setRefs a f (s.refs a f + 1)
      let s := s.modEntries ps fun e => setBit (setBit e 2) 3
      let s := (List.range 16).foldl (fun s i => s.homeSetLE (pd + 8 * i) 8 (s.homeLE (ps + 8 * i) 8)) s
      State.shareUnits ((s.invalidateUnit ps).invalidateUnit pd) a root (d + 65536) (sv + 65536) n
    | _, _ => s

/-- The unit checks of PGDROP. -/
def State.dropChecks (s : State) (a : Arena) (root va : Nat) (n : Nat) : Except TrapInfo Unit :=
  match n with
  | 0 => .ok ()
  | n + 1 =>
    match s.unit a root va true with
    | .error t => .error t
    | .ok (_, pte) =>
      if s.refs a (bitsOf pte 51 12 * 4096) = 0 then .error (unitTrap va 1 0)
      else State.dropChecks s a root (va + 65536) n

/-- The changes of PGDROP, unit by unit: a frame whose last mapping goes joins the free list. -/
def State.dropUnits (s : State) (a : Arena) (root va : Nat) (n : Nat) : State :=
  match n with
  | 0 => s
  | n + 1 =>
    match s.entryPa 5 root va with
    | .error _ => s
    | .ok p =>
      let f := bitsOf (s.homeLE p 8) 51 12 * 4096
      let s := s.modEntries p fun e => clrBit e 0
      let refs := s.refs a f - 1
      let s := s.setRefs a f refs
      let s :=
        if refs = 0 then
          let s := s.homeSetLE (a.recPa f) 8 (s.homeLE (a.pa + 0x28) 8 % 2 ^ 48 * 65536)
          s.homeSetLE (a.pa + 0x28) 8 (f / 65536)
        else s
      State.dropUnits (s.invalidateUnit p) a root (va + 65536) n

/-- The arena an operand names, or permission where it is not registered (R113). Of an operand that is not 64-byte aligned, which names no
registered arena, the alignment of R170 comes first: 0x04. (DESIGN CHOICE, log entry 26.) -/
def arenaAt (w : Wd) (s : State) (va : W64) (go : Arena → State → Res) : Res :=
  withAccess w s va 64 64 .load 1 fun t s =>
    let pa := s.paOf t
    if s.arenas.contains pa then withWatch w s va (s.homeBytes t 64) false fun _ => go (s.arena pa) s else .trap (noPermission va 0)

/-- The prefixes and rights of the map words. -/
def mapSpec (pops pushes : Nat) : Spec :=
  { pops := pops, pushes := pushes, on := [.c], right := some 2, acc := { blocks := true } }

/-- PGSHARE: A d s n → (R113). Every store of the core made before it is performed, and the version is committed, first: none reaches a frame after
it is shared (R117). -/
def execPgshare (r : BitVec 4) (s : State) : Host.Outcome State Fault Refusal :=
  .next (runWord (.pgshare r) r (mapSpec 4 0)
    (fun w a s =>
      let n := (a.getD 3 0).toNat
      if n = 0 then .done s [] { cost := 0 }
      else
        arenaAt w s (a.headD 0) fun ar s =>
          let root := (s.agent w.k).root
          let d := (a.getD 1 0).toNat
          let sv := (a.getD 2 0).toNat
          if 65536 < n then .trap (noPermission (a.headD 0) 0)
          else
            let s := s.settle w.k w.q
            match s.shareChecks ar root d sv n with
            | .error t => .trap t
            | .ok () =>
              let s := [Seq.c, .m, .v, .t].foldl (fun s q => s.settle w.k q) s
              let s := ((s.commit w.k).escape w.k).shareUnits ar root d sv n
              .done ((s.invalidateTlb root sv (n * 65536)).invalidateTlb root d (n * 65536)) [] { cost := 4 * n }) s)

/-- PGDROP: A v n → (R114). -/
def execPgdrop (r : BitVec 4) (s : State) : Host.Outcome State Fault Refusal :=
  .next (runWord (.pgdrop r) r (mapSpec 3 0)
    (fun w a s =>
      let n := (a.getD 2 0).toNat
      if n = 0 then .done s [] { cost := 0 }
      else
        arenaAt w s (a.headD 0) fun ar s =>
          let root := (s.agent w.k).root
          let va := (a.getD 1 0).toNat
          if 65536 < n then .trap (noPermission (a.headD 0) 0)
          else
            match s.dropChecks ar root va n with
            | .error t => .trap t
            | .ok () =>
              .done (((s.escape w.k).dropUnits ar root va n).invalidateTlb root va (n * 65536)) [] { cost := 4 * n }) s)

/-- PGREFS: A v → k (R114); a locked unit's count is read too. -/
def execPgrefs (r : BitVec 4) (s : State) : Host.Outcome State Fault Refusal :=
  .next (runWord (.pgrefs r) r (mapSpec 2 1)
    (fun w a s =>
      arenaAt w s (a.headD 0) fun ar s =>
        match s.unit ar (s.agent w.k).root (a.getD 1 0).toNat false with
        | .error t => .trap t
        | .ok (_, pte) => .done s [BitVec.ofNat 64 (s.refs ar (bitsOf pte 51 12 * 4096))] { cost := 4 }) s)

/-! ### Copy-on-write (R115) -/

/-- Version bytes of one frame become those of another (R115). (DEDUCED, log entry 52.) -/
def moveVersion (o : Overlay) (f g : Nat) : Overlay :=
  o.foldl (fun acc c => acc.set (if f ≤ c.1 ∧ c.1 < f + 65536 then c.1 - f + g else c.1) c.2) []

/-- Sectors of one frame become those of another. -/
def moveSectors (l : List Nat) (f g : Nat) : List Nat :=
  l.map fun p => if f / 32 ≤ p ∧ p < f / 32 + 2048 then p - f / 32 + g / 32 else p

/-- Copy a 64 KiB frame as the home slice answers: the listed bytes of pool memory and of the L2. -/
def State.copyFrame (s : State) (f g : Nat) : State :=
  let inF := fun a : Nat => decide (f ≤ a ∧ a < f + 65536)
  let old := (s.l2.filter fun c => !decide (g ≤ c.1 ∧ c.1 < g + 65536))
  { s with mem := s.mem.copy g f 65536
           l2 := (s.l2.filter fun c => inF c.1).foldl (fun o c => o.set (c.1 - f + g) c.2) old
           stale := s.stale.filter fun c => !decide (g ≤ c.1 ∧ c.1 < g + 65536)
           resident := s.resident.filter fun p => !decide (g / 32 ≤ p ∧ p < g / 32 + 2048)
           poison := (s.poison.filter fun p => !decide (g / 32 ≤ p ∧ p < g / 32 + 2048))
             ++ ((s.poison.filter fun p => decide (f / 32 ≤ p ∧ p < f / 32 + 2048)).map fun p => p - f / 32 + g / 32) }

/-- The registered arena whose frames hold an address. -/
def State.arenaOf (s : State) (frame : Nat) : Option Arena := (s.arenas.map s.arena).find? fun a => a.holds frame

/-- What the service does with a copy-on-write record. -/
inductive Cow where
  /-- Serviced: the store is issued again. -/
  | done (s : State)
  /-- Forwarded to the host driver, as this kind. -/
  | forward (kind : BitVec 4)
  /-- The arena's free list is empty: forwarded as kind 2 of class 0. -/
  | noFrame

/-- A record as the service forwards it. -/
def Cow.record (c : Cow) (r : TrapRec) : TrapRec :=
  match c with
  | .forward kd => { r with kind := kd }
  | .noFrame => { r with cls := 0 }
  | .done _ => r

/-- The lines of one frame in a save's version become those of another. -/
def Saved.moveVersion (v : Saved) (f g : Nat) : Saved :=
  { v with version := Machine.moveVersion v.version f g, whole := moveSectors v.whole f g }

/-- The lines of one frame in the uncommitted versions of a task become those of another: on its cores, in their saves in the windows, and in the
saves of a task that is switched out (R115, R309). -/
def State.moveVersions (s : State) (task : Option NodeId) (f g : Nat) : State :=
  match task with
  | none => s
  | some n =>
    ({ s with cores := s.cores.map fun (k, c) =>
        (k, if c.node = some n then { c with version := moveVersion c.version f g, whole := moveSectors c.whole f g
                                             saved := c.saved.map fun v => v.moveVersion f g }
            else c) } : State).modNode n fun x => { x with saves := x.saves.map fun v => (v.1, v.2.moveVersion f g) }

/-- The service of R115 for an address under a root table, for a task. (DEDUCED, log entry 52.) -/
def State.cow (s : State) (root : Nat) (task : Option NodeId) (va : Nat) : Cow :=
  let unit := va / 65536 * 65536
  match s.entryPa 5 root unit with
  | .error _ => .forward 2
  | .ok p =>
    let pte := s.homeLE p 8
    let f := bitsOf pte 51 12 * 4096
    match s.arenaOf f with
    | none => .forward 2
    | some a =>
      if s.refs a f = 1 then .done (((s.modEntries p fun e => clrBit e 2).invalidateUnit p).invalidateTlb root unit 65536)
      else if !pte.testBit 1 then .forward 1
      else
        let free := s.homeLE (a.pa + 0x28) 8
        if free = 0 then .noFrame
        else
          let g := free * 65536
          let s := s.homeSetLE (a.pa + 0x28) 8 (s.homeLE (a.recPa g) 8 / 65536)
          let s := s.copyFrame f g
          let s := s.homeSetLE (a.recPa g) 8 1
          let s := s.setRefs a f (s.refs a f - 1)
          let s := s.modEntries p fun e => clrBit (clrBit (e - bitsOf e 51 12 * 4096 + g) 2) 3
          let s := s.moveVersions task f g
          .done ((s.invalidateUnit p).invalidateTlb root unit 65536)

/-- WHO of a chain: its entry's PA (R302). -/
def State.chainWho (s : State) (k : CoreId) (entry : W64) : W64 :=
  match s.translate (s.agent k).root [] entry .load with
  | .ok (pa, _, _) => BitVec.ofNat 64 (2 ^ 62 + pa / 64 % 2 ^ 46 * 2 ^ 16)
  | .error _ => BitVec.ofNat 64 (2 ^ 62)

/-- A suspended chain context of a core that a record names. -/
def State.chainNamed (s : State) (k : CoreId) (r : TrapRec) (c : Chain) : Bool :=
  c.st == .suspended && r.objects && s.chainWho k c.entry == r.who

/-- COW_SERVICE (R115): the oldest copy-on-write trap of a core's sequencer, engine or chain context. -/
def execCowService (s : State) : Host.Outcome State Fault Refusal :=
  let k := s.arg.k
  let mine := fun r : TrapRec => r.code == 0x10 && r.kind == 2 && r.core == cid k && seqOf r.seq.toNat == s.arg.q
    && (!r.objects || (s.ctx k).chain.toList.any (s.chainNamed k r))
  match (s.die k.die).trapQ.find? mine with
  | none => .next s
  | some r =>
    if s.installing k.die || !s.recordDue k.die r then .next s else
    let s := s.modDie k.die fun d => { d with trapQ := d.trapQ.erase r }
    match s.nodeOf k with
    | none => .next s
    | some n =>
      match s.cow n.root (some n.id) r.addr.toNat with
      | .done s =>
        if r.objects then
          .next (s.modCtx k fun x => { x with chain := x.chain.map fun c => if s.chainNamed k r c then { c with st := .running } else c })
        else .next (s.resumeRecord r)
      | c => .next ((s.modDie k.die fun d => { d with fwd := d.fwd ++ [c.record r] }).stopOwner (c.record r))

end Sys2Proof.Machine
end

