-- ==== Sys2Proof/Machine/Mangle.lean ====
section
/-! DEFINITION. The Mangle: sessions, records and their runs, spills into the hamper, merge passes and the final output, and
the words that open, feed and close sessions (R278 to R297). -/

namespace Sys2Proof.Machine

/-! ### Sessions and handles (R278) -/

/-- Status bits (R290). -/
def mgDONE : BitVec 11 := 0x001
/-- See `mgDONE`. -/
def mgCLOSED : BitVec 11 := 0x002
/-- See `mgDONE`. -/
def mgSPILL : BitVec 11 := 0x004
/-- See `mgDONE`. -/
def mgPOISON : BitVec 11 := 0x008
/-- See `mgDONE`. -/
def mgOVF : BitVec 11 := 0x010
/-- See `mgDONE`. -/
def mgOOR : BitVec 11 := 0x020
/-- See `mgDONE`. -/
def mgLATE : BitVec 11 := 0x040
/-- See `mgDONE`. -/
def mgKINDX : BitVec 11 := 0x080
/-- See `mgDONE`. -/
def mgSEQW : BitVec 11 := 0x100
/-- See `mgDONE`. -/
def mgSTALL : BitVec 11 := 0x200
/-- See `mgDONE`. -/
def mgUNEXP : BitVec 11 := 0x400

/-- The place of a session: die, cluster, slot. -/
abbrev SessIx := Die × Cluster × Fin 8

/-- A session. -/
def State.sess (s : State) (x : SessIx) : Session := (s.cluster x.1 x.2.1).sess[x.2.2.val]

/-- Change a session. -/
def State.modSess (s : State) (x : SessIx) (f : Session → Session) : State :=
  s.modCluster x.1 x.2.1 fun c => { c with sess := vput c.sess x.2.2 (f c.sess[x.2.2.val]) }

/-- The handle of a session. -/
def Session.handle (se : Session) (x : SessIx) : W64 :=
  BitVec.ofNat 64 (x.1.val * 2 ^ 30 + x.2.1.val * 2 ^ 26 + se.gen.toNat * 2 ^ 10 + x.2.2.val)

/-- The session of a live handle: one of the core's cluster, open, of the same generation. -/
def State.live (s : State) (k : CoreId) (h : W64) : Option SessIx :=
  let x : SessIx := (k.die, k.cluster, ⟨h.toNat % 8, Nat.mod_lt _ (by decide)⟩)
  if (s.sess x).st ≠ .free ∧ (s.sess x).handle x = h then some x else none

/-- Row session (SCTL KIND). -/
def Session.rowsKind (se : Session) : Bool := se.sctl.getLsbD 0
/-- COMB is maximum. -/
def Session.combMax (se : Session) : Bool := bitsOf se.sctl.toNat 2 1 == 1
/-- DIRN. -/
def Session.dirn (se : Session) : Nat := bitsOf se.sctl.toNat 31 16

/-- Record places of a record. -/
def Rec.places (r : Rec) : Nat := if r.isRow then 17 else 1
/-- The key of a record (R279). -/
def Rec.key (r : Rec) : Nat := r.row.toNat * 2 ^ 24 + r.col.toNat

/-- Record places in use. -/
def Session.used (se : Session) : Nat := (se.runs.map fun r => (r.recs.map Rec.places).sum).sum

/-- Record places of a Mangle's buffer: each merge core that is fenced takes its 65,536 out (R278). -/
def ClusterSt.places (c : ClusterSt) : Nat := 393216 - 65536 * (c.fenced.filter fun j => decide (42 ≤ j.val)).length

/-! ### Records (R283 to R286) -/

/-- The status bits for which a record is discarded (R284). (DEDUCED, log entry 35.) -/
def Session.refuses (se : Session) (r : Rec) : BitVec 11 :=
  let b := fun (c : Bool) (f : BitVec 11) => if c then f else 0
  b (decide (se.rows ≤ r.row.toNat)) mgOOR ||| b (se.ended.getLsbD r.stream) mgLATE ||| b (r.isRow != se.rowsKind) mgKINDX
    ||| b (decide (2 ^ 32 - 1 ≤ se.seqs.toList.getD r.stream 0)) mgSEQW ||| b (!se.smask.getLsbD r.stream) mgUNEXP

/-- A record joins its stream's open run, or closes it and opens another (R285). Closed runs stand in order of closing. -/
def addToRuns (runs : List Run) (r : Rec) : List Run :=
  let mine := fun x : Run => x.isOpen && x.stream == r.stream
  let fresh : Run := { stream := r.stream, isOpen := true, recs := [r] }
  match runs.find? mine with
  | none => runs ++ [fresh]
  | some x =>
    match x.recs.getLast? with
    | some l =>
      if r.key < l.key then (runs.filter fun y => !mine y) ++ [{ x with isOpen := false }, fresh]
      else runs.map fun y => if mine y then { y with recs := y.recs ++ [r] } else y
    | none => runs.map fun y => if mine y then { y with recs := [r] } else y

/-- A spill is asked for where none is in progress. -/
def Session.askSpill (se : Session) : Session := if se.wantSpill = 0 then { se with wantSpill := 1 } else se

/-- Accept a record: it takes the next SEQ of its stream; 7/8 of CAP triggers a spill. -/
def Session.take (se : Session) (r : Rec) : Session :=
  let n := se.seqs.toList.getD r.stream 0
  let se := { se with
    runs := addToRuns se.runs { r with seqn := BitVec.ofNat 32 n }, accepted := se.accepted + 1
    seqs := if h : r.stream < 48 then vput se.seqs ⟨r.stream, h⟩ (n + 1) else se.seqs }
  if 7 * se.cap ≤ 8 * se.used then se.askSpill else se

/-- A record reaches a session: it is accepted, or discarded and counted (true), or refused (false) — by a stalled session,
or while it would take the buffer beyond CAP, which triggers a spill. (DEDUCED, log entry 35.) -/
def State.mgSend (s : State) (x : SessIx) (r : Rec) : State × Bool :=
  let se := s.sess x
  if se.st = .stalled then (s, false)
  else
    let bits := se.refuses r
    if bits ≠ 0 then (s.modSess x fun se => { se with status := se.status ||| bits, discarded := se.discarded + 1 }, true)
    else if se.cap < se.used + r.places then (s.modSess x Session.askSpill, false)
    else (s.modSess x fun se => se.take r, true)

/-- A record of a core's stream. -/
def mgRec (k : CoreId) (key : W64) (isRow poison : Bool) (vals : List (BitVec 32)) : Rec :=
  { row := key.extractLsb' 24 24, col := key.extractLsb' 0 24, stream := k.core.val, seqn := 0, poison := poison
    isRow := isRow, vals := vals }

/-- MANGLE_RECORD: a record reaches a session; a handle that is not live discards it. -/
def execMangleRecord (s : State) : Host.Outcome State Fault Refusal :=
  let a := s.arg
  match s.live a.k a.v with
  | none => .next s
  | some x => .next (s.mgSend x (mgRec a.k a.v2 a.yes a.yes2 (a.words.map fun v => v.setWidth 32))).1

/-! ### The Mangle's writes (R288, R297) -/

/-- Whose address space and grants the Mangle's writes carry: the opener's. -/
def State.mgAgent (s : State) (se : Session) : Agent :=
  match se.opener.bind s.node with
  | some n => { root := se.root, core := se.by_, grant := n.desc.grant, groups := n.groups, priv := n.prio == 7 }
  | none => { root := se.root, core := se.by_, grant := 0, groups := [], priv := false }

/-- The Mangle as a mover of bytes. -/
def State.mgMover (s : State) (se : Session) : Mover :=
  { agent := s.mgAgent se, view := none, q := .c, seqn := 0, pc := 0, skip := 0, who := 0 }

/-- Write bytes at the homes of pieces. -/
def State.mgPut (s : State) (l : List (Target × Nat × Nat)) (bs : List Carried) : State :=
  match l with
  | [] => s
  | (t, _, n) :: rest =>
    let part := bs.take n
    let s := (s.homeWrite t (plain part)).landPoison t.key part
    State.mgPut s rest (bs.drop n)

/-- Perform several writes of the Mangle in order, every address checked before any is written. -/
def State.mgWrites (s : State) (m : Mover) (l : List (Nat × List Carried)) : Except EStop State :=
  let checked := l.foldr (fun p acc =>
    match acc, s.moverTargets m .store (cutRange 128 p.1 p.2.length) with
    | .ok r, .ok t => .ok ((t, p.2) :: r)
    | .ok _, .error e => .error e
    | .error e, _ => .error e) (.ok [] : Except EStop (List (List (Target × Nat × Nat) × List Carried)))
  match checked with
  | .error e => .error e
  | .ok r =>
    match r.flatMap (fun x => x.1.map fun y => y.1) |>.find? s.cut with
    | some _ => .error (.trap { code := 0x38 })
    | none =>
      let use := r.flatMap fun x => x.1.map fun y => (y.1, y.2.2)
      if s.portsAllow use true then .ok (r.foldl (fun s x => s.mgPut x.1 x.2) (s.usePorts use true)) else .error .hold

/-- The record of a trap of a session: its opener's identity, class 2. -/
def State.mgRecord (s : State) (se : Session) (t : TrapInfo) : TrapRec :=
  { s.record se.by_ .c 0 0 { t with cls := 2 } with
      ids := match se.opener.bind s.node with | some n => n.ids | none => 0 }

/-- The session stalls, and the record goes to the host driver. -/
def State.mgStall (s : State) (x : SessIx) (r : TrapRec) : State :=
  (s.modSess x fun se => { se with st := .stalled, status := se.status ||| mgSTALL, waiting := none }).modDie x.1 fun d =>
    { d with fwd := d.fwd ++ [r] }

/-- A trap of a session is with the Ostler. -/
def State.mgTrap (s : State) (x : SessIx) (t : TrapInfo) : State :=
  let r := s.mgRecord (s.sess x) t
  s.modSess x fun se => { se with waiting := some r }

/-- Go on with the writes, or trap; a draining bank, a fold barrier or a bank's ports put them off. -/
def State.mgTry (s : State) (x : SessIx) (l : List (Nat × List Carried)) (go : State → State) : State :=
  match s.mgWrites (s.mgMover (s.sess x)) l with
  | .ok s => go s
  | .error (.trap t) => s.mgTrap x t
  | .error _ => s

/-! ### Spills (R286 to R288) -/

/-- The bytes of a record (R279, R280). -/
def Rec.bytes (r : Rec) : List Byte :=
  leBytes 4 (if r.isRow then 0 else (r.vals.headD 0).toNat) ++ leBytes 4 r.seqn.toNat ++ leBytes 3 r.col.toNat
    ++ leBytes 3 r.row.toNat ++ [BitVec.ofNat 8 r.stream, BitVec.ofNat 8 ((if r.poison then 1 else 0) + if r.isRow then 2 else 0)]
    ++ if r.isRow then r.vals.flatMap fun v => leBytes 4 v.toNat else []

/-- Flags of a directory entry. -/
def runFlags (merged consumed : Bool) : Nat := (if merged then 1 else 0) + if consumed then 2 else 0

/-- A directory entry, and the header of a run record (R287). -/
def dirEntry (id seg off : Nat) (merged : Bool) (recs : List Rec) : List Byte :=
  let lo := recs.head?
  let hi := recs.getLast?
  let key := fun r : Option Rec => match r with | some r => r.key | none => 0
  leBytes 4 id ++ leBytes 4 recs.length
    ++ leBytes 8 (key lo + (match lo with | some r => r.stream | none => 0) * 2 ^ 48 + runFlags merged false * 2 ^ 56)
    ++ leBytes 8 (key hi + seg * 2 ^ 48)
    ++ leBytes 8 ((match lo with | some r => r.seqn.toNat | none => 0) + off / 128 * 2 ^ 32)

/-- A run record, padded to 128 bytes. -/
def runBytes (id seg off : Nat) (merged : Bool) (recs : List Rec) : List Byte :=
  let bs := dirEntry id seg off merged recs ++ recs.flatMap Rec.bytes
  bs ++ List.replicate ((128 - bs.length % 128) % 128) 0

/-- The place of a session's next run: the VA of the current segment. A full directory stalls the session; a segment without room for the n
bytes is cause 0x29 to the Ostler. -/
def State.mgPlace (s : State) (x : SessIx) (n : Nat) : Except State W64 :=
  let se := s.sess x
  let full : TrapInfo := { code := 0x29, addr := se.hamper }
  match se.segs.getLast? with
  | none => .error s
  | some (base, size) =>
    if se.dirn ≤ se.hruns.length then .error (s.mgStall x (s.mgRecord se full))
    else if size.toNat < se.wpos + n then .error (s.mgTrap x full)
    else .ok base

/-- The bytes of a session's next run record. -/
def Session.nextRun (se : Session) (merged : Bool) (recs : List Rec) : List Byte :=
  runBytes se.hruns.length (se.segs.length - 1) se.wpos merged recs

/-- The bytes of a run record that its header and its first n records take; none before the first record. -/
def runAt (recs : List Rec) (n : Nat) : Nat := if n = 0 then 0 else 32 + ((recs.take n).flatMap Rec.bytes).length

/-- Write a run to the hamper, as far as it does not stand there for its first `n` records, and then its directory entry, NRUNS and the bytes
`extra`; what follows is `go`. -/
def State.mgWriteRun (s : State) (x : SessIx) (merged : Bool) (recs : List Rec) (n : Nat) (extra : List (Nat × List Carried))
    (go : State → State) : State :=
  let se := s.sess x
  let id := se.hruns.length
  let seg := se.segs.length - 1
  let bs := se.nextRun merged recs
  match s.mgPlace x bs.length with
  | .error s => s
  | .ok base =>
    let h := se.hamper.toNat
    let i := runAt recs n
    s.mgTry x ([(base.toNat + se.wpos + i, clean (bs.drop i)), (h + 64 + 32 * id, clean (dirEntry id seg se.wpos merged recs)),
                (h + 0x10, clean (leBytes 4 (id + 1))), (h + 0x18, clean (leBytes 8 (se.wpos + bs.length)))] ++ extra) fun s =>
      go (s.modSess x fun se => { se with
        hruns := se.hruns ++ [{ id := id, seg := seg, off := se.wpos, merged := merged, consumed := false, recs := recs }]
        wpos := se.wpos + bs.length })

/-- The open run with the most records, ties to the lower stream. -/
def Session.largestOpen (se : Session) : Option Run :=
  (se.runs.filter fun r => r.isOpen).foldl (fun best r =>
    match best with
    | none => some r
    | some b => if b.recs.length < r.recs.length ∨ (b.recs.length = r.recs.length ∧ r.stream < b.stream) then some r else best) none

/-- Close the largest open run: it stands after the runs that have been closed before (R286). -/
def Session.closeLargest (se : Session) : Session :=
  match se.largestOpen with
  | none => se
  | some r => { se with runs := se.runs.erase r ++ [{ r with isOpen := false }] }

/-- The oldest closed run. -/
def Session.closedRun (se : Session) : Option Run := se.runs.find? fun r => !r.isOpen

/-- A session that spills has a closed run: where none is closed, it closes the largest open one first (R286). -/
def Session.readySpill (se : Session) : Session := if se.closedRun.isSome then se else se.closeLargest

/-- MGSPILL of every buffered run (R296): the open ones are closed in the order in which spills would close them, so that the spills to come
write just the runs that stand in the buffer now. -/
def Session.spillAll (se : Session) : Session :=
  { (se.runs.foldl (fun se _ => se.closeLargest) se) with wantSpill := se.runs.length }

/-- The header of segment 0 as MGOPEN leaves it (R286, R292). -/
def Session.headBytes (se : Session) : List Byte :=
  leBytes 8 0 ++ leBytes 8 se.hsize.toNat ++ leBytes 4 0 ++ leBytes 4 se.dirn ++ leBytes 8 se.wpos ++ List.replicate 32 0

/-- A session's header is written, or its write is tried again later (R288). -/
def State.mgHeader (s : State) (x : SessIx) : State :=
  s.mgTry x [((s.sess x).hamper.toNat, clean (s.sess x).headBytes)] fun s => s.modSess x fun se => { se with header := false }

/-- MANGLE_SPILL: one spill that has been asked for is made; a header whose write has been refused and serviced is written first. A run that the
spill closes stays closed where its write is put off. -/
def execMangleSpill (s : State) : Host.Outcome State Fault Refusal :=
  let x : SessIx := (s.arg.d, s.arg.c, s.arg.j)
  let se := s.sess x
  if se.st = .free ∨ se.st = .stalled ∨ se.waiting.isSome ∨ 0 < se.emitted then .next s
  else if se.header then .next (s.mgHeader x)
  else if se.wantSpill = 0 then .next s
  else
    match se.readySpill.closedRun with
    | none => .next (s.modSess x fun se => { se with wantSpill := 0 })
    | some r =>
      .next ((s.modSess x Session.readySpill).mgWriteRun x false r.recs 0 [] fun s => s.modSess x fun se =>
        { se with runs := se.runs.erase r, wantSpill := se.wantSpill - 1, status := se.status ||| mgSPILL })

/-- The Ostler links a segment of a size at a VA (R286, R288). -/
def State.mgLink (s : State) (x : SessIx) (va size : W64) : Except EStop State :=
  let se := s.sess x
  match se.segs.getLast? with
  | none => .error (.trap (notPresent se.hamper 0))
  | some (base, _) =>
    let m := { s.mgMover se with agent := { s.mgAgent se with priv := true } }
    match s.mgWrites m [(va.toNat, clean (leBytes 8 0 ++ leBytes 8 size.toNat ++ List.replicate 48 0)), (base.toNat, clean (leBytes 8 va.toNat)),
                        (se.hamper.toNat + 0x18, clean (leBytes 8 128))] with
    | .ok s => .ok (s.modSess x fun se => { se with segs := se.segs ++ [(va, size)], wpos := 128, waiting := none })
    | .error e => .error e

/-- HAMPER_SERVICE (R288): for a spill without room the Ostler links the segment `v` of `v2` bytes; a write to a copy-on-write page it
services as R115 says; for any other refused write it reports it resolved (`v` not 0). Otherwise it forwards the record, and the session
stalls. While a bank holds the bytes that the link takes, the service waits. -/
def execHamperService (s : State) : Host.Outcome State Fault Refusal :=
  let x : SessIx := (s.arg.d, s.arg.c, s.arg.j)
  match (s.sess x).waiting with
  | none => .next s
  | some r =>
    if s.installing s.arg.d then .next s
    else if r.code = 0x10 ∧ r.kind = 2 then
      match s.cow (s.sess x).root (s.sess x).opener r.addr.toNat with
      | .done s => .next (s.modSess x fun se => { se with waiting := none })
      | c => .next (s.mgStall x (c.record r))
    else if s.arg.v = 0 then .next (s.mgStall x r)
    else if r.code = 0x29 then
      match s.mgLink x s.arg.v s.arg.v2 with
      | .ok s => .next s
      | .error (.trap _) => .next (s.mgStall x r)
      | .error _ => .next s
    else .next (s.modSess x fun se => { se with waiting := none })

/-! ### Close and output (R289) -/

/-- (key, STREAM, SEQ) order. -/
def Rec.before (a b : Rec) : Bool :=
  decide (a.key < b.key) || (a.key == b.key &&
    (decide (a.stream < b.stream) || (a.stream == b.stream && decide (a.seqn.toNat ≤ b.seqn.toNat))))

/-- Merge two ordered lists; `fuel` is their length together. -/
def mergeTwo (fuel : Nat) (a b : List Rec) : List Rec :=
  match fuel with
  | 0 => a ++ b
  | fuel + 1 =>
    match a, b with
    | [], b => b
    | a, [] => a
    | x :: ta, y :: tb => if x.before y then x :: mergeTwo fuel ta (y :: tb) else y :: mergeTwo fuel (x :: ta) tb

/-- Merge ordered runs. -/
def mergeRuns (l : List (List Rec)) : List Rec := l.foldl (fun a b => mergeTwo (a.length + b.length) a b) []

/-- Runs of the hamper that no pass has consumed, in order of RUNID. -/
def Session.standing (se : Session) : List HRun := se.hruns.filter fun r => !r.consumed

/-- Every expected stream has ended. -/
def Session.allEnded (se : Session) : Bool := se.ended &&& se.smask == se.smask

/-- A closing session whose streams have ended merges; with more than 16 runs, those in the buffer are spilled first, and otherwise the
spills that have been asked for still are (R286). -/
def Session.tryMerge (se : Session) : Session :=
  if (se.st = .opened ∨ se.st = .closing) ∧ se.status &&& mgCLOSED ≠ 0 ∧ se.allEnded then
    { se with st := .merging, wantSpill := if 16 < se.runs.length + se.standing.length then se.runs.length else se.wantSpill }
  else se

/-- A session is ready for a pass: its header is written, no trap of it is in hand, and no spill is to be made before the pass begins. -/
def Session.passes (se : Session) : Bool :=
  se.st == .merging && se.waiting.isNone && !se.header && (se.wantSpill == 0 || decide (0 < se.emitted))

/-- The records of a pass over `total` that the Mangle has emitted after what it can still emit in this cycle: 6 for all its sessions (R19,
R285). -/
def State.mgReach (s : State) (x : SessIx) (total : Nat) : Nat := min total ((s.sess x).emitted + (s.cluster x.1 x.2.1).emit)

/-- The Mangle has emitted the first n records of a session's pass. -/
def State.mgEmit (s : State) (x : SessIx) (n : Nat) : State :=
  let old := (s.sess x).emitted
  (s.modSess x fun se => { se with emitted := n }).modCluster x.1 x.2.1 fun c => { c with emit := c.emit - (n - old) }

/-- MERGE_PASS: the 16 lowest standing runs are merged into a new run of the hamper, as many records as the Mangle can still emit in this cycle
(R19); with the last of them the 16 are marked consumed. -/
def execMergePass (s : State) : Host.Outcome State Fault Refusal :=
  let x : SessIx := (s.arg.d, s.arg.c, s.arg.j)
  let se := s.sess x
  if se.passes ∧ 16 < se.standing.length then
    let grp := se.standing.take 16
    let ids := grp.map fun r => r.id
    let recs := mergeRuns (grp.map fun r => r.recs)
    let n := s.mgReach x recs.length
    if n < recs.length then
      let bs := se.nextRun true recs
      match s.mgPlace x bs.length with
      | .error s => .next s
      | .ok base =>
        let i := runAt recs se.emitted
        .next (s.mgTry x [(base.toNat + se.wpos + i, clean ((bs.take (runAt recs n)).drop i))] fun s => s.mgEmit x n)
    else
      let marks := grp.map fun r => (se.hamper.toNat + 64 + 32 * r.id + 15, clean (leBytes 1 (runFlags r.merged true)))
      .next (s.mgWriteRun x true recs se.emitted marks fun s =>
        (s.mgEmit x n).modSess x fun se =>
          { se with emitted := 0, hruns := se.hruns.map fun r => if ids.contains r.id then { r with consumed := true } else r })
  else .next s

/-- The maximum of R283. -/
def mgMax (a b : BitVec 32) : BitVec 32 :=
  let x := fp32Num a
  let y := fp32Num b
  if x = .nan ∨ y = .nan then 0x7FC00000#32
  else if x.isZero && y.isZero then a &&& b
  else if x.lt y then b else a

/-- One output record. -/
structure OutRec where
  /-- Key. -/
  key : Nat
  /-- Values. -/
  vals : List (BitVec 32)
  /-- Poisoned. -/
  poison : Bool
  deriving DecidableEq, Repr

/-- Combine a record into the output record of its key, in order (R283). -/
def OutRec.join (mx : Bool) (o : OutRec) (r : Rec) : OutRec :=
  { o with vals := List.zipWith (if mx then mgMax else addFp32) o.vals r.vals, poison := o.poison || r.poison }

/-- The output record that a record begins: the maximum turns any NaN into the canonical one (R283). -/
def OutRec.first (mx : Bool) (r : Rec) : OutRec :=
  { key := r.key, vals := if mx then r.vals.map fun v => mgMax v v else r.vals, poison := r.poison }

/-- The output records of records in order, latest first. -/
def combine (mx : Bool) (recs : List Rec) (out : List OutRec) : List OutRec :=
  match recs with
  | [] => out
  | r :: t =>
    match out with
    | o :: rest =>
      if o.key = r.key then combine mx t (o.join mx r :: rest)
      else combine mx t (OutRec.first mx r :: out)
    | [] => combine mx t [OutRec.first mx r]

/-- The records of a session's final pass, merged. -/
def Session.merged (se : Session) : List Rec := mergeRuns (se.standing.map (fun r => r.recs) ++ se.runs.map fun r => r.recs)

/-- The output of merged records: poisoned records hold canonical NaN; ZDROP drops zeros. -/
def Session.outputFrom (se : Session) (recs : List Rec) : List OutRec :=
  let outs := (combine se.combMax recs []).reverse.map fun o =>
    if o.poison then { o with vals := o.vals.map fun _ => 0x7FC00000#32 } else o
  outs.filter fun o => !(se.sctl.getLsbD 3 && !o.poison && o.vals.all fun v => (fp32Num v).isZero)

/-- The output of a session. -/
def Session.outputOf (se : Session) : List OutRec := se.outputFrom se.merged

/-- The output records that are complete once the first n merged records have been emitted: a key's record is complete with its last one. -/
def Session.outputTo (se : Session) (n : Nat) : List OutRec :=
  match se.merged.drop n with
  | [] => se.outputOf
  | r :: _ => se.outputFrom ((se.merged.take n).filter fun y => y.key != r.key)

/-- ROWPTR from row q on: written records whose row is below q; `n` rows are left. -/
def rowPtr (n q count : Nat) (rows : List Nat) : List Byte :=
  match n with
  | 0 => []
  | n + 1 =>
    let below := rows.takeWhile fun r => decide (r < q)
    let c := count + below.length
    leBytes 4 c ++ rowPtr n (q + 1) c (rows.drop below.length)

/-- The writes of the output records from record m on: every sector written for a poisoned one is poisoned (R283). (DEDUCED, log entry
32.) -/
def Session.outWrites (se : Session) (m : Nat) (l : List OutRec) : List (Nat × List Carried) :=
  match l with
  | [] => []
  | o :: t =>
    let bs := o.vals.flatMap fun v => leBytes 4 v.toNat
    (se.coord.toNat + 4 * m, (leBytes 4 (o.key % 2 ^ 24)).map fun b => (b, o.poison))
      :: (se.vals.toNat + bs.length * m, bs.map fun b => (b, o.poison)) :: Session.outWrites se (m + 1) t

/-- A session slot frees; its generation stays. -/
def State.mgFree (s : State) (x : SessIx) : State := s.modSess x fun se => { Session.reset with gen := se.gen }

/-- The writes of the output that is complete with the first n merged records, after those that have been made. -/
def Session.newWrites (se : Session) (n : Nat) : List (Nat × List Carried) :=
  let old := ((se.outputTo se.emitted).take se.outcap).length
  se.outWrites old (((se.outputTo n).take se.outcap).drop old)

/-- The status bits that output records set (R290). -/
def Session.outBits (se : Session) (out : List OutRec) : BitVec 11 :=
  (if se.outcap < out.length then mgOVF else 0) ||| (if out.any fun o => o.poison then mgPOISON else 0)

/-- FINAL_PASS: as many records as the Mangle can still emit in this cycle are combined, and the output records that are complete are written
(R19, R289). With the last of them, ROWPTR and FINAL are written, DONEADD is posted, and the slot frees. -/
def execFinalPass (s : State) : Host.Outcome State Fault Refusal :=
  let x : SessIx := (s.arg.d, s.arg.c, s.arg.j)
  let se := s.sess x
  if se.passes ∧ se.runs.length + se.standing.length ≤ 16 then
    let n := s.mgReach x se.merged.length
    if n < se.merged.length then
      let out := se.outputTo n
      .next (s.mgTry x (se.newWrites n) fun s =>
        (s.mgEmit x n).modSess x fun se => { se with output := out.length, status := se.status ||| se.outBits out })
    else
    let out := se.outputOf
    let written := out.take se.outcap
    let status := se.status ||| mgDONE ||| se.outBits out
    let final := leBytes 8 status.toNat ++ leBytes 8 out.length ++ leBytes 8 se.accepted ++ leBytes 8 se.discarded
    .next (s.mgTry x (se.newWrites n ++
        [(se.rowptr.toNat, clean (rowPtr (se.rows + 1) 0 0 (written.map fun o => o.key / 2 ^ 24))), (se.desc.toNat + 0x60, clean final)]) fun t =>
      let t := t.mgEmit x n
      if se.done = 0 then t.mgFree x
      else
        match t.postVa (t.mgAgent se) se.done se.doneadd 0 with
        | .done t => t.mgFree x
        | .skip c =>
          let r := t.mgRecord se { code := c, addr := se.done }
          (t.modDie x.1 fun d => { d with fwd := d.fwd ++ [r] }).mgFree x
        | .held => s)
  else .next s

/-- At the opener's launch end every session it still holds open is freed (R297). -/
def State.mgFreeAll (s : State) (n : NodeId) : State :=
  { s with clusters := s.clusters.map fun c =>
      { c with sess := c.sess.map fun se => if se.opener = some n then { Session.reset with gen := se.gen } else se } }

/-! ### The words (R291 to R296) -/

/-- The session a descriptor asks for, and whether the descriptor is malformed (R281, R282, R292). -/
def sessOf (bs : List Byte) (d : W64) : Session × Bool :=
  let w := fun o => leAt bs o 8
  let u := fun o => leAt bs o 4
  let cap := if u 0x3C = 0 then 65536 else u 0x3C
  let dirn := bitsOf (w 0x48) 31 16
  let comb := bitsOf (w 0x48) 2 1
  let dend := (64 + 32 * dirn + 127) / 128 * 128
  let bad := d.toNat % 128 != 0 || u 0x30 / 2 ^ 24 != 0 || w 0x40 / 2 ^ 48 != 0 || bitsOf (w 0x48) 63 32 != 0
    || bitsOf (w 0x48) 15 4 != 0 || ((bs.drop 0x50).take 16).any (fun b => b != 0) || decide (2 ≤ comb)
    || (comb == 1 && !(w 0x48).testBit 0) || u 0x34 == 0 || decide (2 ^ 24 < u 0x34) || decide (cap < 64)
    || decide (393216 < cap) || dirn == 0 || w 0x20 % 4096 != 0 || decide (w 0x20 < dend + 4096) || w 0x00 % 4 != 0
    || w 0x10 % 4 != 0 || w 0x18 % 4096 != 0 || w 0x28 % 8 != 0
  ({ Session.reset with
      st := .opened, desc := d, rowptr := BitVec.ofNat 64 (w 0x00), coord := BitVec.ofNat 64 (w 0x08)
      vals := BitVec.ofNat 64 (w 0x10), hamper := BitVec.ofNat 64 (w 0x18), hsize := BitVec.ofNat 64 (w 0x20)
      done := BitVec.ofNat 64 (w 0x28), doneadd := BitVec.ofNat 24 (u 0x30), rows := u 0x34, outcap := u 0x38, cap := cap
      smask := BitVec.ofNat 48 (w 0x40), sctl := BitVec.ofNat 64 (w 0x48)
      segs := [(BitVec.ofNat 64 (w 0x18), BitVec.ofNat 64 (w 0x20))], wpos := dend, header := true }, bad)

/-- A free slot of a cluster's Mangle. -/
def ClusterSt.freeSlot (c : ClusterSt) : Option (Fin 8) := (List.finRange 8).find? fun j => (c.sess[j.val]).st == .free

/-- The next generation: 0 is passed over. -/
def nextGen (g : BitVec 16) : BitVec 16 := if g + 1 = 0 then 1 else g + 1

/-- MGOPEN: d → h st. -/
def execMgopen (r : BitVec 4) (s : State) : Host.Outcome State Fault Refusal :=
  .next (runWord (.mgopen r) r { pops := 1, pushes := 2, on := [.c], acc := { blocks := true } }
    (fun w a s =>
      let d := a.headD 0
      (withRange w s d 128 1 1 fun bs far s0 =>
        let s := s0.chargeFtUnits w.k (ftUnits far)
        let c := s.cluster w.k.die w.k.cluster
        let (se, bad) := sessOf bs d
        let free := c.places - (c.sess.toList.map fun x => if x.st = .free then 0 else x.cap).sum
        match c.freeSlot with
        | none => ok s [0, 1]
        | some j =>
          if c.noOpen && c.sess.toList.all (fun x => x.st == .free) then ok s [0, 1]
          else if free < se.cap then ok s [0, 2]
          else if bad then ok s [0, 3]
          else
            let x : SessIx := (w.k.die, w.k.cluster, j)
            let s := (s.escape w.k).modSess x fun old =>
              { se with gen := nextGen old.gen, opener := (s.core w.k).node, root := (s.agent w.k).root, by_ := w.k }
            let se := s.sess x
            match s.mgWrites (s.mgMover se) [(se.hamper.toNat, clean se.headBytes)] with
            | .ok s => ok (s.modSess x fun se => { se with header := false }) [se.handle x, 0]
            | .error (.trap t) => ok (s.mgTrap x t) [se.handle x, 0]
            | .error _ => .hold s0).unreadable) s)

/-- Go on with the session of a live handle (R291). -/
def withSession (w : Wd) (s : State) (h : W64) (go : SessIx → Res) : Res :=
  match s.live w.k h with
  | none => .trap (privilege h 0)
  | some x => go x

/-- The version is committed before records are sent (R291). -/
def State.mgCommit (s : State) (w : Wd) : State := ((s.settle w.k w.q).commit w.k).escape w.k

/-- The wait of a refused sender. -/
def mgWait (h : W64) : WaitOn := { reason := 14, beyond := false, object := h }

/-- A core's stream ends in a session; outside SMASK nothing happens. -/
def State.mgEndStream (s : State) (x : SessIx) (k : CoreId) : State :=
  s.modSess x fun se =>
    if se.smask.getLsbD k.core.val then ({ se with ended := se.ended ||| (1#48 <<< k.core.val) } : Session).tryMerge else se

/-- VALUE of MGPUT (R293). -/
def mgValue (px : Px) (v : W64) : BitVec 32 × BitVec 32 :=
  match px.fmt with
  | none => (v.setWidth 32, 0)
  | some p =>
    if p.1 = 1 then (rneFp32 (decodeFloat bf16 (v.toNat % 65536)), 0)
    else if p.1 = 13 then (rneFp32 (Num.ofInt (sintOf 32 v.toNat)), 0)
    else (v.setWidth 32, flagIf (p.1 != 0) fWFMT)

/-- MGPUT r: h k v →. -/
def execMgput (r : BitVec 4) (s : State) : Host.Outcome State Fault Refusal :=
  .next (runWord (.mgput r) r { pops := 3, on := [.v, .t], rbits := 1, acc := { fmt := true, blocks := true } }
    (fun w a s =>
      let h := a.headD 0
      let key := a.getD 1 0
      withSession w s h fun x =>
        if 2 ^ 48 ≤ key.toNat then .trap (badOperand key)
        else
          let (v, flags) := mgValue w.px (a.getD 2 0)
          match (s.mgCommit w).mgSend x (mgRec w.k key false false [v]) with
          | (s, true) => .done (if r.getLsbD 0 then s.mgEndStream x w.k else s) [] { flags := flags }
          | (s, false) => .wait (mgWait h) 1 s) s)

/-- The words of two rows of a tile, the second after the first modulo 32. -/
def Ctx.rowPair (x : Ctx) (t : BitVec 4) (w : W64) : List (BitVec 32) :=
  let row := w.toNat % 32
  ((rowLanes 0 (x.tileRow t row)) ++ rowLanes 0 (x.tileRow t ((row + 1) % 32))).map (BitVec.ofNat 32)

/-- MGROW r: h k w →. It reads its two rows when it issues, so its tile is lent no longer than that, and a refused record waits with them. -/
def execMgrow (r : BitVec 4) (s : State) : Host.Outcome State Fault Refusal :=
  .next (runWord (.mgrow r) r { pops := 3, on := [.m, .v], rbits := 15, acc := { blocks := true } }
    (fun w a s =>
      let h := a.headD 0
      let key := a.getD 1 0
      withSession w s h fun x =>
        let c := s.ctx w.k
        let t := c.regs.phys r
        let send := fun (s : State) (rows : List (BitVec 32)) =>
          match (s.mgCommit w).mgSend x (mgRec w.k key true false rows) with
          | (s, true) => ok s []
          | (s, false) => .wait (mgWait h) 1 (s.modSeq w.k w.q fun y => { y with latch := rows })
        if c.outside t then .trap (footTrap r)
        else if 2 ^ 48 ≤ key.toNat then .trap (badOperand key)
        else if (s.seq w.k w.q).latch ≠ [] then send s (s.seq w.k w.q).latch
        else if !c.isFull t then .wait (tileWait 1 t) 1 s
        else
          let row := (a.getD 2 0).toNat % 32
          withTile w t row 1 s fun s => withTile w t ((row + 1) % 32) 1 s fun s => send s (c.rowPair t (a.getD 2 0))) s)

/-- MGEND r: h →. Every record of the sequencer has reached the Mangle at its issue. -/
def execMgend (r : BitVec 4) (s : State) : Host.Outcome State Fault Refusal :=
  .next (runWord (.mgend r) r { pops := 1, on := [.m, .v, .t], rbits := 1, acc := { blocks := true } }
    (fun w a s => withSession w s (a.headD 0) fun x => ok (s.mgEndStream x w.k) []) s)

/-- MGCLOSE r: h →. A word that waits is done once its session's slot is free or holds another generation. -/
def execMgclose (r : BitVec 4) (s : State) : Host.Outcome State Fault Refusal :=
  .next (runWord (.mgclose r) r { pops := 1, on := [.c], rbits := 1, acc := { blocks := true } }
    (fun w a s =>
      let h := a.headD 0
      if (s.seq w.k w.q).held.isSome ∧ s.live w.k h = none then ok s []
      else
        withSession w s h fun x =>
          let s := (s.mgCommit w).modSess x fun se =>
            ({ se with status := se.status ||| mgCLOSED, st := if se.st = .opened then .closing else se.st } : Session).tryMerge
          if r.getLsbD 0 then .wait (mgWait h) 1 s else ok s []) s)

/-- The code of a session's state (R296). -/
def sessCode (st : SessSt) : W64 :=
  match st with
  | .free => 3
  | .opened => 0
  | .closing => 1
  | .merging => 2
  | .stalled => 4

/-- Item r of MGSTAT. -/
def Session.item (se : Session) (i : Nat) : W64 :=
  match i with
  | 0 => se.status.setWidth 64
  | 1 => BitVec.ofNat 64 se.accepted
  | 2 => BitVec.ofNat 64 se.used
  | 3 => BitVec.ofNat 64 se.hruns.length
  | 4 => BitVec.ofNat 64 se.output
  | 5 => BitVec.ofNat 64 se.discarded
  | 6 => se.ended.setWidth 64
  | 7 => sessCode se.st
  | _ => 0

/-- MGSTAT r: h → v. -/
def execMgstat (r : BitVec 4) (s : State) : Host.Outcome State Fault Refusal :=
  .next (runWord (.mgstat r) r { pops := 1, pushes := 1, on := [.c], rbits := 15 }
    (fun w a s => withSession w s (a.headD 0) fun x => ok s [(s.sess x).item r.toNat]) s)

/-- MGSPILL r: h →. -/
def execMgspill (r : BitVec 4) (s : State) : Host.Outcome State Fault Refusal :=
  .next (runWord (.mgspill r) r { pops := 1, on := [.c], rbits := 1 }
    (fun w a s =>
      withSession w s (a.headD 0) fun x =>
        ok (s.modSess x fun se =>
          if se.st = .opened ∨ se.st = .closing ∨ se.st = .merging then
            if r.getLsbD 0 then se.spillAll else { se with wantSpill := se.wantSpill + 1 }
          else se) []) s)

/-! ### MGEXPAND (R294) -/

/-- A read of n bytes by MGEXPAND that it has not made yet. -/
def fibPeekAt (w : Wd) (s : State) (j : Fin 8) (va : W64) (n : Nat) (go : Nat → Bool → State → Res) : Res :=
  match s.access w.k va n n .load with
  | .error (.trap t) => .found s t
  | .error .hold => .hold s
  | .error (.fold a) => .wait { reason := 15, beyond := false, object := a } 1 s
  | .ok (t, e) =>
    let (s, got) := ((s.useTlb w.k e).meet t n).loadBytes w.k w.q t n
    let bs := got.getD (s.viewBytes w.k t n)
    let rd := fun (v : Option Nat) (p : Bool) =>
      ({ fib := j, va := va, n := n, pa := s.paOf t, near := s.nearVa w.k va, carry := true, poison := p, value := v } : FibRead)
    match s.watchHit w.k (s.seq w.k w.q).skip va bs false with
    | some wj => .seen s (s.wordHit w wj false va bs)
    | none =>
      let s := s.chargeFt w.k t n
      match got, t with
      | some bs, _ => go (leNat bs) false (s.noteRead w (rd (some (leNat bs)) false))
      | none, .remote _ => fibWait w (s.noteRead w (rd none false))
      | none, _ =>
        let (s, p) := (match s.consumeBy w.k t n with | (s, some _) => (s, true) | (s, none) => (s, false) : State × Bool)
        go (leNat bs) p (s.noteRead w (rd (some (leNat bs)) p))

/-- A read of n bytes by MGEXPAND: poison is carried, not consumed. -/
def fibPeek (w : Wd) (s : State) (j : Fin 8) (va : W64) (n : Nat) (go : Nat → Bool → State → Res) : Res :=
  match s.madeRead w j va n with
  | none => fibPeekAt w s j va n go
  | some r =>
    match r.value with
    | some v => go v r.poison s
    | none => fibWait w s

/-- Coordinate, value and poison of entry i of a fibre. -/
def fibEntry (w : Wd) (s : State) (j : Fin 8) (i : Nat) (go : W64 → Num → Bool → State → Res) : Res :=
  let f := s.fib w.k j
  let n := elemBits f.vfmt.toNat / 8
  let off := if f.dense then BitVec.ofNat 64 i * f.vstr.signExtend 64 else BitVec.ofNat 64 (i * n)
  let value := fun (c : W64) (s : State) => fibPeek w s j (f.vbase + off) n fun v p s => go c (elemNum f.vfmt.toNat v) p s
  if f.dense then value (f.cbase + BitVec.ofNat 64 i) s
  else fibPeek w s j (f.cbase + BitVec.ofNat 64 (i * f.coordBytes)) f.coordBytes fun v _ s => value (BitVec.ofNat 64 v) s

/-- Count a record sent: 1 FI for each 64 (R154). -/
def State.expandSent (s : State) (w : Wd) : State :=
  let s := s.modSeq w.k w.q fun r => { r with expand := (r.expand.1, r.expand.2 + 1) }
  if (s.seq w.k w.q).expand.2 % 64 = 0 then s.chargeFi w.k 1 else s

/-- One pair of entries: its record is sent, or counted as discarded with OOR. -/
def expandPair (w : Wd) (x : SessIx) (h : W64) (ci cj : W64) (vi vj : Num) (p : Bool) (s : State) (go : State → Res) : Res :=
  if ci.toNat < 2 ^ 24 ∧ cj.toNat < 2 ^ 24 then
    let key := BitVec.ofNat 64 (ci.toNat * 2 ^ 24 + cj.toNat)
    match s.mgSend x (mgRec w.k key false p [rneFp32 (vi.mul vj)]) with
    | (s, true) => go (s.expandSent w)
    | (s, false) => .wait (mgWait h) 1 s
  else go (s.modSess x fun se => { se with status := se.status ||| mgOOR, discarded := se.discarded + 1 })

/-- The pairs of an entry of x, with its coordinate, value and poison, and the entries of y from its position on; the inner
position stands in `expand`. -/
def expandInner (fuel : Nat) (w : Wd) (x : SessIx) (h : W64) (fy : Fin 8) (ci : W64) (vi : Num) (pi : Bool) (s : State)
    (go : State → Res) : Res :=
  match fuel with
  | 0 => fibWait w s
  | fuel + 1 =>
    let y := s.fib w.k fy
    let j := y.pos + (s.seq w.k w.q).expand.1
    if y.count ≤ j then go s
    else
      fibEntry w s fy j fun cj vj pj s =>
        expandPair w x h ci cj vi vj (pi || pj) s fun s =>
          expandInner fuel w x h fy ci vi pi
            (s.modSeq w.k w.q fun r =>
              { r with expand := (r.expand.1 + 1, r.expand.2), skip := 0, reads := r.reads.filter fun y => y.fib != fy }) go

/-- The entries of x from its position on; each is read once, where y has entries left. -/
def expandOuter (fuel : Nat) (w : Wd) (x : SessIx) (h : W64) (fx fy : Fin 8) (s : State) : Res :=
  match fuel with
  | 0 => fibWait w s
  | fuel + 1 =>
    let f := s.fib w.k fx
    let y := s.fib w.k fy
    let next := fun s : State =>
      expandOuter fuel w x h fx fy
        ((s.setPos w fx (f.pos + 1)).modSeq w.k w.q fun r => { r with expand := (0, r.expand.2) })
    if f.count ≤ f.pos then ok s []
    else if y.count ≤ y.pos + (s.seq w.k w.q).expand.1 then next s
    else fibEntry w s fx f.pos fun ci vi pi s => expandInner y.fuel w x h fy ci vi pi s next

/-- MGEXPAND r: h →. -/
def execMgexpand (r : BitVec 4) (s : State) : Host.Outcome State Fault Refusal :=
  .next (runWord (.mgexpand r) r { pops := 1, on := [.v, .t], rbits := 7, acc := { blocks := true } }
    (fun w a s =>
      let h := a.headD 0
      withSession w s h fun x =>
        fibTurn w s [r8 r, r8next r] <|
        let s := s.mgCommit w
        expandOuter (s.fib w.k (r8 r)).fuel w x h (r8 r) (r8next r) s) s)

end Sys2Proof.Machine
end

