-- ==== Sys2Proof/Machine/Array.lean ====
section
/-! DEFINITION. The array: its pass sums with masking (R85 to R87), structured
sparsity (R249), and accumulator slots (R88, R245), with their drain formats (R252). -/

namespace Sys2Proof.Machine

/-! ### Pass sums -/

/-- The codes of B row k, zero weights at and beyond the row count (R235). -/
def WBuf.codes (b : WBuf) (f k : Nat) : List Nat :=
  let n := if f = 14 then 256 else 64
  if k < b.count then unpackElems (elemBits f) (b.rows.readBytes (bRowBytes f * k) (bRowBytes f)) n else List.replicate n 0

/-- The scale of block blk of column j (R235). -/
def WBuf.scale (b : WBuf) (blk j : Nat) : Nat := if 32 * blk < b.count then (b.scales.read (64 * blk + j)).toNat else 0x7F

/-- The elements of an A row that are not masked: stored position and logical index (R86, R249). `codes` are the metadata
codes of the 64 groups of a sparse row. -/
def unmasked (m : AMode) (kval : Nat) (codes : List Nat) : List (Nat × Nat) :=
  let all :=
    if m.sparse then
      (List.range 64).flatMap fun j =>
        let c := codes.getD j 0
        [(2 * j, 4 * j + c % 4), (2 * j + 1, 4 * j + c / 4)]
    else (List.range m.k).map fun k => (k, k)
  all.filter fun p => decide (p.2 < kval)

/-- Columns of a list of rows of n entries. -/
def columns {α : Type} (n : Nat) (rows : List (List α)) : List (List α) :=
  match rows with
  | [] => List.replicate n []
  | r :: t => List.zipWith List.cons r (columns n t)

/-- An element of the array; in precision mode a BF16 element is first rounded to E5M2 (R363). -/
def arrayElem (precise : Bool) (f c : Nat) : Num :=
  let x := elemNum f c
  if precise && f == 1 then decodeFloat e5m2 (rnd x e5m2 0 false) else x

/-- Exact sum of values. -/
def sumNum (l : List Num) : Num := l.foldl (fun a x => a.add x 0) (.fin false 0 0)

/-- A block's contribution to a column: the exact block sum under both scales, or NaN where either is 0xFF (R85, R87). -/
def blockTerm (sa sb : Nat) (ps : List Num) : Num :=
  if sa = 255 ∨ sb = 255 then .nan else (sumNum ps).scale ((sa : Int) + sb - 254)

/-- Pass sums of an A row against a buffer, with the sticky bits its elements and scales set. An empty buffer gives +0
(R235). -/
def passRow (m : AMode) (precise : Bool) (b : WBuf) (kval : Nat) (row scales : List Byte) (codes : List Nat) :
    List (BitVec 32) × BitVec 32 :=
  let kval := if kval = 0 then m.k else kval
  let n := if m.quad then 256 else 64
  let live := unmasked m kval codes
  let as := unpackElems (elemBits m.a) row (1024 / elemBits m.a)
  let zeros := List.replicate n (0#32)
  if m.int then
    let rows := live.map fun p => (b.codes m.b p.2, sintOf 8 (as.getD p.1 0))
    let val := fun c => if m.quad then ternVal c else sintOf 8 c
    let sums := (columns n (rows.map fun r => r.1.map fun c => r.2 * val c)).map fun l => BitVec.ofInt 32 l.sum
    (if b.count = 0 then zeros else sums, flagIf (m.quad && rows.any fun r => r.1.contains 2) fTERN10)
  else
    let prods := live.map fun p =>
      let a := arrayElem precise m.a (as.getD p.1 0)
      (p.2, (b.codes m.b p.2).map fun c => a.mul (arrayElem precise m.b c))
    if m.mx then
      let blocks := List.range (m.k / 32)
      let sa := fun blk => (scales.getD blk 0).toNat
      let cols := blocks.filterMap fun blk =>
        if kval ≤ 32 * blk then none
        else
          let ps := columns n ((prods.filter fun p => p.1 / 32 == blk).map fun p => p.2)
          some ((List.range n).map fun j => blockTerm (sa blk) (b.scale blk j) (ps.getD j []))
      let nan := blocks.any fun blk =>
        decide (kval ≤ 32 * blk) && (sa blk == 255 || (List.range n).any fun j => b.scale blk j == 255)
      (if b.count = 0 then zeros else (columns n cols).map passSum, flagIf nan fNANSCALE)
    else (if b.count = 0 then zeros else (columns n (prods.map fun p => p.2)).map passSum, 0)

/-! ### Metadata (R249, R250) -/

/-- The legal metadata codes. -/
def legalMeta (c : Nat) : Bool := c == 0x4 || c == 0x8 || c == 0x9 || c == 0xC || c == 0xD || c == 0xE

/-- The 64 metadata codes of slot index g. -/
def Ctx.metaCodes (x : Ctx) (sel : BitVec 2) (tile : BitVec 4) (g : Nat) : List Nat :=
  unpackElems 4 (((x.tileRow tile (g % 32)).drop (32 * sel.toNat)).take 32) 64

/-- The first illegal group below KVAL. -/
def badMeta (codes : List Nat) (kval : Nat) : Option Nat :=
  (List.range 64).find? fun j => decide (4 * j < kval) && !legalMeta (codes.getD j 0)

/-! ### Slots (R88, R245) -/

/-- The 64 lanes of a slot. -/
def Ctx.slotLanes (x : Ctx) (q : Nat) : List (BitVec 32) :=
  (List.range 64).map fun j => BitVec.ofNat 32 (x.acc.readLE (256 * q + 4 * j) 4)

/-- A slot holds INT32. -/
def Ctx.slotInt (x : Ctx) (q : Nat) : Bool := x.kind.getLsbD q

/-- A slot is poisoned. -/
def Ctx.slotPoison (x : Ctx) (q : Nat) : Bool := x.pois.getLsbD q

/-- Set or clear bit q. -/
def setBit512 (v : BitVec 512) (q : Nat) (b : Bool) : BitVec 512 := if b then v ||| (1#512 <<< q) else v &&& ~~~(1#512 <<< q)

/-- Write a slot's lanes. -/
def Ctx.setSlotLanes (x : Ctx) (q : Nat) (ls : List (BitVec 32)) : Ctx :=
  { x.regDrop (slotWords q) with acc := x.acc.writeBytes (256 * q) (ls.flatMap fun v => leBytes 4 v.toNat) }

/-- Set a slot's kind bit. -/
def Ctx.setSlotKind (x : Ctx) (q : Nat) (int : Bool) : Ctx := { x with kind := setBit512 x.kind q int }

/-- Set a slot's poison bit. -/
def Ctx.setSlotPoison (x : Ctx) (q : Nat) (p : Bool) : Ctx := { x with pois := setBit512 x.pois q p }

/-- A slot cleared: zero lanes, FP32, no poison. -/
def Ctx.clearSlot (x : Ctx) (q : Nat) : Ctx :=
  (({ x.regDrop (slotWords q) with acc := x.acc.clear (256 * q) 256 } : Ctx).setSlotKind q false).setSlotPoison q false

/-- Lane addition in a kind: the sums, and whether IOVF is set. -/
def addLanes (int : Bool) (xs ys : List (BitVec 32)) : List (BitVec 32) × Bool :=
  if int then
    let r := List.zipWith (fun a b => addInt32 a b.toInt) xs ys
    (r.map fun p => p.1, r.any fun p => p.2)
  else (List.zipWith addFp32 xs ys, false)

/-- A slot takes pass sums: they replace its lanes or are added to them. -/
def Ctx.slotTake (x : Ctx) (q : Nat) (int replace : Bool) (ps : List (BitVec 32)) : Ctx × Bool :=
  let (ls, o) := if replace then (ps, false) else addLanes int (x.slotLanes q) ps
  ((x.setSlotLanes q ls).setSlotKind q int, o)

/-! ### Drain formats (R252) -/

/-- A lane's value. -/
def laneNum (int : Bool) (v : BitVec 32) : Num := if int then Num.ofInt v.toInt else fp32Num v

/-- The code of a lane in an element format that is not MX. -/
def drainCode (f : Nat) (int : Bool) (mode sat : BitVec 2) (qscale v : BitVec 32) : Nat :=
  if f = 0 ∧ int = false then v.toNat
  else if f = 13 ∧ int = true then v.toNat
  else if f = 11 then (BitVec.ofInt 8 (rndi ((laneNum int v).mul (fp32Num qscale)) (-128) 127 0 true)).toNat
  else toElem (laneNum int v) f mode sat

/-- The row and scale bytes of a poisoned slot. -/
def drainPoison (f : Nat) : List Byte × List Byte :=
  if isMx f then (List.replicate (drainBytes f) 0, [0xFF, 0xFF])
  else
    let c := match floatOf f with | some g => canonNan g | none => 0
    (packElems (elemBits f) (List.replicate 64 c) (drainBytes f), [])

/-- The row and scale bytes of a slot's lanes, and MXINF. -/
def drainRow (f : Nat) (int : Bool) (mode sat : BitVec 2) (qscale : BitVec 32) (ls : List (BitVec 32)) :
    List Byte × List Byte × Bool :=
  if isMx f then
    let vs := ls.map (laneNum int)
    let (s0, c0, i0) := mxq (vs.take 32) f
    let (s1, c1, i1) := mxq (vs.drop 32) f
    (packElems (elemBits f) (c0 ++ c1) (drainBytes f), [BitVec.ofNat 8 s0, BitVec.ofNat 8 s1], i0 || i1)
  else (packElems (elemBits f) (ls.map (drainCode f int mode sat qscale)) (drainBytes f), [], false)

/-! ### MREADA and MPATCH (R255, R256) -/

/-- Copy a slot into rows w and w + 1 of a tile. -/
def Ctx.readSlot (x : Ctx) (q : Nat) (t : BitVec 4) (row : Nat) : Ctx :=
  let ls := if x.slotPoison q then List.replicate 64 0x7FC00000#32 else x.slotLanes q
  let bs := ls.flatMap fun v => leBytes 4 v.toNat
  (x.setTileBytes t (row % 32) 0 (bs.take 128)).setTileBytes t ((row + 1) % 32) 0 (bs.drop 128)

/-- Apply rows w and w + 1 of a tile to a slot; the second component is IOVF. -/
def Ctx.patchSlot (x : Ctx) (q : Nat) (t : BitVec 4) (row : Nat) (m : BitVec 3) : Ctx × Bool :=
  let bs := x.tileRow t (row % 32) ++ x.tileRow t ((row + 1) % 32)
  let ts := (unpackElems 32 bs 64).map fun c => BitVec.ofNat 32 c
  let int := m.getLsbD 2
  let old := x.slotLanes q
  let y := x.setSlotKind q int
  match (m.extractLsb' 0 2).toNat with
  | 0 => ((y.setSlotLanes q ts).setSlotPoison q false, false)
  | 1 => let (ls, o) := addLanes int old ts
         (y.setSlotLanes q ls, o)
  | _ => (y.setSlotLanes q (List.zipWith (fun a b => if int then a * b else mulFp32 a b) old ts), false)

end Sys2Proof.Machine
end

