-- ==== Sys2Proof/Machine/Save.lean ====
section
/-! DEFINITION. Saving a core's context, copying it out, what a switched-out node then does, and restoring it (R63, R64, R127,
R308 to R314). -/

namespace Sys2Proof.Machine

/-! ### When a core can be saved (R308, R332) -/

/-- The lowest slot index whose seen bit is 0. -/
def MCmd.unseen (c : MCmd) : Option Nat :=
  (List.range (bitsOf c.w[7].toNat 47 32)).find? fun g => !c.seen.getLsbD g

/-- WMOD is add, for the commands that run rows. -/
def MCmd.adds (c : MCmd) : Bool :=
  match c.op with
  | .run => bitsOf c.w[0].toNat 23 22 == 1
  | .gather _ => bitsOf c.w[0].toNat 23 22 == 1
  | _ => false

/-- The held rows of a pair, oldest first. -/
def TEngine.rowsOf (e : TEngine) (pair : Nat) : List HeldRow := e.held.filter fun h => h.pair == pair

/-- A command whose first row has entered and that a hard pre-emption lets complete: a tagged MGATHER that its fetched rows leave
incomplete is saved instead, and so is a drain, into which no row enters. -/
def MCmd.mustEnd (c : MCmd) (te : TEngine) : Bool :=
  c.started && c.stop.isNone && decide (0 < c.next)
    && (match c.op with
      | .gather p => p == 0 || decide (c.rows ≤ c.arrived + (te.rowsOf p).length)
      | .fence => false
      | .drain _ => false
      | _ => true)

/-- How many leading commands a hard pre-emption completes (R308): those that have begun, and then every one up to the last whose WMOD
is add and whose span meets that of a command completed so. `ended` holds the spans of the commands completed so far, `passed` those of
the commands since the last that must end. -/
def mDueFrom (i due : Nat) (ended passed : List (Nat × Nat)) (all : List MCmd) : Nat :=
  match all with
  | [] => due
  | c :: t =>
    if c.adds && ended.any (spansMeet c.span) then mDueFrom (i + 1) (i + 1) (c.span :: passed ++ ended) [] t
    else mDueFrom (i + 1) due ended (c.span :: passed) t

/-- The number of leading M commands that must complete before a hard pre-emption, with those that it has completed already. -/
def Ctx.mDue (x : Ctx) : Nat :=
  let q := x.me.queue
  let n := (List.range q.length).foldl (fun a i => if (q.getD i (fenceM 0 0 Fin'.none)).mustEnd x.te then i + 1 else a) 0
  mDueFrom n n (x.me.ended ++ (q.take n).map MCmd.span) [] (q.drop n)

/-- Slot g of command i of the queue may take a row now: nothing before it has it, or the row will not reach it (R244, R246, R258). -/
def MCmd.takesSlot (c : MCmd) (queue : List MCmd) (i g : Nat) : Bool :=
  decide (c.slots ≤ g) || (c.seen.getLsbD g && bitsOf c.w[0].toNat 21 20 != 0)
    || (List.range c.per).all fun j => slotFree queue i (c.slotb + c.per * g + j) true

/-- Command i is a tagged MGATHER whose first row has entered and that has a fetched row it can take: before a hard pre-emption it takes it
(R308). -/
def Ctx.takesRow (x : Ctx) (i : Nat) : Bool :=
  match x.me.queue[i]? with
  | none => false
  | some c =>
    match c.op with
    | .gather p =>
      p != 0 && c.started && c.stop.isNone && decide (0 < c.next)
        && (match x.te.rowsOf p with | h :: _ => c.takesSlot x.me.queue i ((h.tag + (2 ^ 24 - c.tagb)) % 2 ^ 24) | [] => false)
    | _ => false

/-- A tagged MGATHER has still a fetched row to take (R308). -/
def Ctx.rowsToTake (x : Ctx) : Bool := (List.range x.me.queue.length).any x.takesRow

/-- A T command of the core has read what has not landed yet. -/
def TEngine.flying (e : TEngine) : Bool :=
  e.queue.any fun c => match c.op with | .copy j => !j.flight.isEmpty && c.stop.isNone | _ => false

/-- A fold of the core runs on the fold engine. -/
def TEngine.folding (e : TEngine) : Bool :=
  e.queue.any fun c => match c.op with | .fold j => j.started | _ => false

/-- The engines of a core stand where a hard pre-emption saves them. (DEDUCED, log entry 28.) -/
def Ctx.engineBoundary (x : Ctx) : Bool :=
  x.mDue == 0 && x.me.queue.all (fun c => c.fly.isEmpty) && !x.rowsToTake && !x.te.folding && !x.te.flying && x.moves.isEmpty
    && !x.inTree && x.chain.toList.all fun c => !c.busy

/-- Nothing that a core has sent is on its way through its cluster's broadcast tree, and no store of it is held by a bank (R94, R126, R364). -/
def State.treeClear (s : State) (k : CoreId) : Bool :=
  !s.anyStuck k && (s.cluster k.die k.cluster).tree.all fun u => u.k != k

/-! ### The window (R310, R311) -/

/-- Tiles of a list of physical tiles. -/
def tileBits (ts : List (BitVec 4)) : Nat := ts.foldl (fun a t => if a.testBit t.toNat then a else a + 2 ^ t.toNat) 0

/-- What a weight buffer's header field says. -/
def WBuf.header (b : WBuf) : Nat := b.fmt.toNat + 16 * b.count + if b.poison then 2 ^ 13 else 0

/-- Set n bytes at an offset of a core's save window. -/
def State.putWindow (s : State) (k : CoreId) (off n : Nat) (sl : Memory) : State :=
  ({ s with mem := s.mem.put (bankKey k (0x1C0000 + off)) n sl } : State).clearPoison (bankKey k (0x1C0000 + off)) n

/-- Set a little-endian field of the window. -/
def State.putWindowLE (s : State) (k : CoreId) (off n v : Nat) : State :=
  { s with mem := s.mem.writeLE (bankKey k (0x1C0000 + off)) n v }

/-- The window bytes of the sequencer, core, M, T and chain blocks, whose layout the spec does not give: free bytes (log entry
8). -/
def freeBytes (n from_ : Nat) : Memory :=
  Memory.overlaySlice [] 0 ((List.range n).map fun i => (i, (Config.freeValue (from_ + i)).setWidth 8))

/-- Where in the window a register word lies whose block R310 lays out. -/
def RegWord.window (w : RegWord) : Option Nat :=
  match w.file with
  | .tile => some (4 * w.n)
  | .slot => some (0x10000 + 4 * w.n)
  | .weight => some (if w.n < 65536 then 0x34000 + 4 * w.n else 0x38200 + 4 * (w.n - 65536))
  | _ => none

/-- The block of the window that holds a register word whose place R310 does not give: offset and size. -/
def RegWord.block (w : RegWord) : Nat × Nat :=
  match w.file with
  | .scalar => (0x30D00, 1024)
  | .shadow => if w.q = .t then (0x31D00, 6144) else (0x31100, 3072)
  | .queue => if w.q = .t then (0x31D00, 6144) else (0x31100, 3072)
  | _ => (0x30100 + 768 * seqCode w.q, 768)

/-- The register word at an offset of the window in a file that is laid out. -/
def RegWord.atWindow (w : RegWord) (off : Nat) : RegWord :=
  match w.file with
  | .tile => { w with n := off / 4 }
  | .slot => { w with n := (off - 0x10000) / 4 }
  | _ => { w with n := if w.n < 65536 then (off - 0x34000) / 4 else 65536 + (off - 0x38200) / 4 }

/-- The number of a register file. -/
def RegFile.code (f : RegFile) : Nat :=
  match f with
  | .scalar => 0
  | .stack => 1
  | .predicate => 2
  | .branch => 3
  | .loop => 4
  | .tile => 5
  | .slot => 6
  | .weight => 7
  | .shadow => 8
  | .queue => 9

/-- The sector of its block that holds a register word whose place R310 does not give. (DESIGN CHOICE, log entry 50.) -/
def RegWord.blockSector (w : RegWord) : Nat := Config.windowSector w.file.code (seqCode w.q) w.n % (w.block.2 / 32)

/-- The register words of a context that lie in the block of one whose place R310 does not give. -/
def Ctx.blockWords (x : Ctx) (w : RegWord) : List RegWord :=
  let all := fun (f : RegFile) (q : Seq) (l : List Nat) => l.map fun n => ({ file := f, q := q, n := n } : RegWord)
  match w.file with
  | .scalar => all .scalar .c (List.range 16)
  | .shadow | .queue =>
    if w.q = .t then all .shadow .t (List.range 8) ++ all .queue .t (x.te.queue.map fun c => c.seqn.toNat)
    else all .shadow .m (List.range 16) ++ all .queue .m (x.me.queue.map fun c => c.seqn.toNat)
  | _ =>
    all .stack w.q (List.range (x.seq w.q).stack.length) ++ all .predicate w.q [0] ++ all .branch w.q (List.range 4)
      ++ all .loop w.q (List.range 4)

/-- The register words that the sector of an uncorrectable one holds: each is uncorrectable after a restoration (R313). -/
def Ctx.sectorOf (x : Ctx) (w : RegWord) : List RegWord :=
  match w.window with
  | some off => (List.range 8).map fun j => w.atWindow (off / 32 * 32 + 4 * j)
  | none => w :: (x.blockWords w).filter fun v => v.blockSector == w.blockSector

/-- Write the image of a saved context into the window: the tiles and slots saved, the header, and, for an array core, both
weight buffers. (DESIGN CHOICE, log entry 8.) -/
def State.writeWindow (s : State) (k : CoreId) (v : Saved) (tiles : BitVec 16) (slots : Nat) : State :=
  let x := v.ctx
  let s := (List.range 16).foldl (fun s t =>
    if tiles.getLsbD t then s.putWindow k (4096 * t) 4096 (x.tiles.slice (4096 * t) 4096) else s) s
  let s := if isMerge k then s else s.putWindow k 0x10000 (256 * slots) (x.acc.slice 0 (256 * slots))
  let s := s.putWindowLE k 0x30000 8 (v.skind.toNat + 256 * v.cause.toNat)
  let s := s.putWindowLE k 0x30008 8 (x.tmask.toNat + 2 ^ 16 * x.accn + if isMerge k then 2 ^ 32 else 0)
  let s := s.putWindowLE k 0x30010 8
    (tiles.toNat + 2 ^ 16 * (x.full &&& tiles).toNat + 2 ^ 32 * tileBits (x.lent.map fun l => l.tile))
  let s := s.putWindowLE k 0x30018 8 (x.wact.header + 2 ^ 16 * x.wshd.header)
  let s := s.putWindowLE k 0x30020 8 (modeCode v.mode + if v.mode = .fifo then 4 else 0)
  let s := s.putWindowLE k 0x30028 8 s.now
  let s := { (s.putWindow k 0x30100 0x3480 (freeBytes 0x3480 s.free)) with free := s.free + 0x3480 }
  let crc := crcBytes 0xFFFFFFFF#32 (s.mem.readBytes (bankKey k (0x1C0000 + 0x30100)) 0x3480)
  let s := s.putWindowLE k 0x30030 4 (~~~crc).toNat
  let s := if isMerge k then s
  else
    let buf := fun (s : State) (off : Nat) (b : WBuf) => (s.putWindow k off 16384 b.rows).putWindow k (off + 16384) 512 b.scales
    buf (buf s 0x34000 x.wact) 0x38200 x.wshd
  x.regEcc.foldl (fun s e =>
    if !e.2 then s
    else
      match e.1.window with
      | some off => s.setPoison (bankKey k (0x1C0000 + off)) 4
      | none => s.setPoison (bankKey k (0x1C0000 + e.1.block.1 + 32 * e.1.blockSector)) 4) s

/-- Bytes of the window that a save writes (R310). -/
def windowBytes (k : CoreId) (tiles : BitVec 16) (slots : Nat) : Nat :=
  4096 * (tileList tiles).length + 256 + 0x3480 + if isMerge k then 0 else 256 * slots + 2 * 16896
where
  /-- The tiles of a mask. -/
  tileList (m : BitVec 16) : List Nat := (List.range 16).filter m.getLsbD

/-! ### The save (R63, R308) -/

/-- A register word that a save of these tiles, slots and scalar registers writes. -/
def savesWord (tiles : BitVec 16) (slots : Nat) (regs : BitVec 16) (w : RegWord) : Bool :=
  match w.file with
  | .tile => tiles.getLsbD (w.n / 1024)
  | .slot => decide (w.n / 64 < slots)
  | .scalar => regs.getLsbD w.n
  | _ => true

/-- The context as a save holds it: blocked words and open groups undone, pins released, and only the tiles, slots and scalar
registers of the kept sets (the others read zero after a restoration, R313). -/
def Ctx.forSave (x : Ctx) (tiles : BitVec 16) (slots : Nat) (regs : BitVec 16) : Ctx :=
  let low : BitVec 512 := BitVec.ofNat 512 (2 ^ slots - 1)
  { x with
      c := x.c.undo, m := x.m.undo, v := x.v.undo, t := x.t.undo
      tiles := x.tiles.filter (fun b => tiles.getLsbD (b.1 / 4096))
      full := x.full &&& tiles
      acc := x.acc.filter (fun b => decide (b.1 < 256 * slots)), kind := x.kind &&& low, pois := x.pois &&& low
      regs := { x.regs with s := Vector.ofFn fun i => if regs.getLsbD i.val then x.regs.s[i.val] else 0 }
      me := { x.me with ended := [] }
      regEcc := ((x.regEcc.filter fun e => savesWord tiles slots regs e.1 && e.2).flatMap fun e => x.sectorOf e.1).eraseDups.map fun w => (w, true)
      pins := 0 }

/-- Save a core: the context into the window, its trace record, and the trap record to the Ostler where the save has one of
its own. `keep` is the kept-set word of a yield; a hard pre-emption keeps everything in the footprint. -/
def State.saveCore (s : State) (k : CoreId) (skind : BitVec 2) (cause : BitVec 8) (keep : Option W64) (rec_ : Option TrapRec) :
    State :=
  let s := [Seq.c, .m, .v, .t].foldl (fun s q => s.settle k q) (s.endTrial k)
  let c := s.core k
  let tiles := c.ctx.tmask &&& (match keep with | some w => w.extractLsb' 0 16 | none => 0xFFFF)
  let slots := match keep with | some w => min c.ctx.accn (bitsOf w.toNat 25 16) | none => c.ctx.accn
  let regs : BitVec 16 := match keep with | some w => w.extractLsb' 32 16 | none => 0xFFFF
  let v : Saved :=
    { skind := skind, cause := cause, ctx := c.ctx.forSave tiles slots regs, mode := c.mode, fifo := c.fifo, hook := c.hook
      version := c.version, whole := c.whole, phase := c.phase, barr := c.barr, haltLine := c.haltLine, pend := c.pend, record := rec_
      keep := [], keepPoison := [], segs := [] }
  let s := s.regFix k fun w => savesWord tiles slots regs w && !c.ctx.regEcc.contains (w, true)
  let s := (c.ctx.regEcc.filter fun e => savesWord tiles slots regs e.1 && e.2).foldl (fun s e => s.countLife (.regPoisonings k e.1.file)) s
  let s := (s.writeWindow k v tiles slots).keepPorts k (windowBytes k tiles slots)
  let s := s.trace k 6 .c c.ctx.c.pc 0 0 (BitVec.ofNat 64 (cause.toNat + if skind = 1 then 256 else 0))
  let s := s.modCore k fun c => { c with saved := some v, preempt := none, yielding := false, hook := none, hit := none }
  let s := match rec_ with | some r => s.takeRecord k r | none => s
  s.enqueue .saveCopyOut { k := k }

/-- Causes after which only the host driver's end request goes on (R300, R304). -/
def fatalCause (code : BitVec 8) : Bool := code == 0x01 || code == 0x02 || code == 0x03 || code == 0x04 || code == 0x32

/-- The first blocked sequencer of a core, for the record of a pre-emption point. -/
def Ctx.blockedSeq (x : Ctx) : Seq :=
  if x.c.run = .blocked then .c else if x.m.run = .blocked then .m else if x.v.run = .blocked then .v
  else if x.t.run = .blocked then .t else .c

/-- The record of a hard pre-emption with a cause of its own (0x20, 0x22, 0x3F); a core that is stopped because another of its gang has overrun
(R304) has none. -/
def State.preemptRecord (s : State) (k : CoreId) (cause : BitVec 8) : Option TrapRec :=
  let q := (s.ctx k).blockedSeq
  let wr := match (s.seq k q).wait with | some w => w.reason | none => 0
  let r := fun (info : W64) => some (s.record k q 0 (s.seq k q).trapPc { code := cause, wr := wr, info := info })
  if cause = 0x20 then (if (s.regs k).fi ≤ -4096 then r (BitVec.ofInt 64 (s.regs k).fi) else none)
  else if cause = 0x22 then r 2
  else if cause = 0x3F then r 0
  else none

/-- HARD_PREEMPTION (R308): at a command boundary, once the engines stand where they can be saved and no trap of the core
is in service, a core with a pre-emption due is saved. -/
def execHardPreemption (s : State) : Host.Outcome State Fault Refusal :=
  let k := s.arg.k
  let c := s.core k
  match c.preempt with
  | none => .next s
  | some cause =>
    let free := c.hook.isNone || cause == 0x20
    if free && c.hit.isNone && c.saved.isNone && c.node.isSome && (c.ctx.atBoundary || (c.hook.isSome && c.ctx.c.canStop)) && c.ctx.engineBoundary
        && s.treeClear k && !s.inTrapService k then
      .next (s.saveCore k (if fatalCause cause then 2 else 0) cause none (s.preemptRecord k cause))
    else .next s

/-! ### What a switched-out node does (R64, R304) -/

/-- A node is ready to resume on its own cores, with a new ready time (R50, R51). -/
def State.makeResumable (s : State) (n : NodeId) : State := s.enterStand n (.resumable s.now)

/-- One register of a saved context is topped up where it is due and the pool field is positive; TOPUPS counts it. The grant is kept within
2^31 − 1 − register, as that of FARETOP is, which R64 does not say of a top-up. (DESIGN CHOICE, log entry 18.) -/
def State.topUpReg (s : State) (t : Target) (v : Saved) (ft : Bool) : State × Saved :=
  let reg := if ft then v.ctx.regs.ft else v.ctx.regs.fi
  let off := if ft then 8 else 0
  let pool := s.poolField t off
  if 0 < reg ∨ pool ≤ 0 then (s, v)
  else
    let g := grantOf ((s.homeWord (t.add (if ft then 20 else 16)) 4).toNat) pool reg
    let s := s.setPoolField t off (pool - g)
    let s := s.setPoolField t 24 (s.poolField t 24 + 1)
    let r := v.ctx.regs
    let r := if ft then { r with ft := r.ft + g } else { r with fi := r.fi + g }
    (s, { v with ctx := { v.ctx with regs := r } })

/-- The top-up of every core's save of a node. -/
def State.topUpAll (s : State) (t : Target) (l : List (CoreId × Saved)) : State × List (CoreId × Saved) :=
  match l with
  | [] => (s, [])
  | (k, v) :: rest =>
    let (s, v) := s.topUpReg t v false
    let (s, v) := s.topUpReg t v true
    let (s, rest) := State.topUpAll s t rest
    (s, (k, v) :: rest)

/-- Some register of some core of a switched-out node is due. -/
def savesDue (l : List (CoreId × Saved)) : Bool := l.any fun x => x.2.ctx.regs.fareDue

/-- The access to the fare pool for a top-up of a node is held. -/
def State.topUpHeld (s : State) (nd : Node) : Bool :=
  match nd.saves with
  | [] => false
  | (k, _) :: _ => savesDue nd.saves && (s.poolHeld nd k).isSome

/-- The Ostler's top-up of a node (R64): it re-enters the Stand where nothing is due after it; else it stays switched out,
and a copy of the yield's record goes to the host driver once as notice. While a bank holds the pool the top-up is tried again. -/
def State.topUp (s : State) (n : NodeId) : State :=
  match s.node n with
  | none => s
  | some nd =>
    if s.topUpHeld nd then s.modNode n fun x => { x with st := .due }
    else
    let (s, saves) :=
      match nd.saves with
      | [] => (s, [])
      | (k, _) :: _ =>
        match s.poolTarget nd k with
        | none => (s, nd.saves)
        | some t => s.topUpAll t nd.saves
    let s := s.modNode n fun x => { x with saves := saves }
    if !savesDue saves then s.makeResumable n
    else
      let recs := saves.filterMap fun x => x.2.record
      let s :=
        match nd.noticed, recs with
        | false, r :: _ => s.modDie n.die fun d => { d with fwd := d.fwd ++ [r] }
        | _, _ => s
      s.modNode n fun x => { x with st := .due, noticed := true }

/-- Every core of a node has been copied out: the causes of the saves decide how the node goes on. -/
def State.switchedOut (s : State) (n : NodeId) : State :=
  match s.node n with
  | none => s
  | some nd =>
    let causes := nd.saves.map fun x => x.2.cause
    match causes.find? fun c => c != 0x20 && c != 0x22 && c != 0x3F with
    | some c => s.modNode n fun x => { x with st := .suspended c }
    | none =>
      if causes.contains 0x20 then s.modNode n fun x => { x with st := .suspended 0x20 }
      else if causes.contains 0x22 then s.topUp n
      else s.makeResumable n

/-- TOPUP_RETRY (R64): the Ostler retries the top-up of a node that is still due. -/
def execTopupRetry (s : State) : Host.Outcome State Fault Refusal :=
  match s.node s.arg.n with
  | some nd => if nd.st = .due then .next (s.topUp s.arg.n) else .next s
  | none => .next s

/-! ### Copy-out (R312) -/

/-- The pieces of a core's bank proper that the keep declarations of a node cover (R44, R314). -/
def State.keepPieces (s : State) (n : Node) (k : CoreId) : List (Nat × Nat) :=
  n.desc.oper.flatMap fun o =>
    if o.use.toNat % 4 = 0 ∨ o.use.toNat / 4 % 2 = 0 then []
    else
      (cutRange 4096 o.base.toNat o.size.toNat).filterMap fun p =>
        match s.translate n.root [] (BitVec.ofNat 64 p.1) .load with
        | .ok (pa, pol, _) =>
          match s.target pa pol with
          | some (.bank j off) => if j = k ∧ off < bankProper then some (off, p.2) else none
          | _ => none
        | .error _ => none

/-- The bytes of pieces of a bank, by bank offset. -/
def State.keepBytes (s : State) (k : CoreId) (l : List (Nat × Nat)) : Memory :=
  match l with
  | [] => []
  | (off, n) :: t => (s.keepBytes k t).put off n (s.mem.slice (bankKey k off) n)

/-- A core that holds no context: idle, its tiles and slots as they were left (R29). -/
def Ctx.vacate (x : Ctx) : Ctx :=
  { Ctx.reset with tiles := x.tiles, acc := x.acc, kind := x.kind, pois := x.pois, full := x.full
                   regEcc := x.regEcc.filter fun e => e.1.file == .tile || e.1.file == .slot }

/-- A spare position of an array core's cluster that holds a core in service. Of two it is 40: the spec does not say which. (DESIGN CHOICE, log
entry 42.) -/
def State.spareOf (s : State) (k : CoreId) : Option (Fin 48) :=
  if isMerge k then none
  else [40, 41].find? fun i : Fin 48 => let c := s.core ⟨k.die, k.cluster, i⟩; c.inService && !c.selfTest

/-- The physical cores of two logical positions of a cluster change places in the map, each with the repair of its bank and the state of its array
(R10, R12, R363). -/
def State.swapPhys (s : State) (k : CoreId) (pos : Fin 48) : State :=
  let cl := s.cluster k.die k.cluster
  let j : CoreId := ⟨k.die, k.cluster, pos⟩
  let old := s.core k
  let spare := s.core j
  let s := s.modCluster k.die k.cluster fun c =>
    { c with phys := vput (vput c.phys k.core cl.phys[pos.val]) pos cl.phys[k.core.val] }
  (s.modCore k fun c => { c with repair := spare.repair, halfArray := spare.halfArray }).modCore j fun c =>
    { c with repair := old.repair, halfArray := old.halfArray }

/-- The physical core in a spare position takes over the logical number of a core, with its bank; the core it replaces stands in the vacated
spare position and goes to self-test (R12, R365). -/
def State.swapCores (s : State) (k : CoreId) (pos : Fin 48) : State :=
  let cl := s.cluster k.die k.cluster
  let s := (s.swapPhys k pos).modCore k fun c => { c with tlb := [], icache := [] }
  let s := s.modCore ⟨k.die, k.cluster, pos⟩ fun c => { c with selfTest := true }
  (s.countLife (.promotions k.die k.cluster)).setLife (.retired k.die k.cluster) cl.phys[k.core.val].val

/-- A core falls free: it runs no node. One whose bank has no spare row left is replaced by a spare, where there is one (R364). -/
def State.freeCore (s : State) (k : CoreId) : State :=
  let s := s.modCore k fun c =>
    { c with ctx := c.ctx.vacate, node := none, version := [], whole := [], hook := none, hit := none, saved := none, pend := []
             preempt := none, yielding := false, haltLine := false, barr := [], serving := none, halted := false
             phase := Phase.first }
  let s := if (s.core k).repair.marked then (match s.spareOf k with | some pos => s.swapCores k pos | none => s) else s
  s.enqueue .dispatchStep { d := k.die }

/-- The pages of keep declarations that do not translate: the copy meets a fault there, which is a fault of the Ostler (R312). What still does
not translate once that has been serviced is left out. (DESIGN CHOICE, log entry 46.) -/
def State.keepFaults (s : State) (n : Node) : List TrapInfo :=
  n.desc.oper.flatMap fun o =>
    if o.use.toNat % 4 = 0 ∨ o.use.toNat / 4 % 2 = 0 then []
    else
      (cutRange 4096 o.base.toNat o.size.toNat).filterMap fun p =>
        match s.translate n.root [] (BitVec.ofNat 64 p.1) .load with
        | .error t => some { t with cls := 2 }
        | .ok _ => none

/-- The sectors of pieces of a bank that hold poison or an uncorrectable error, by number within the bank. -/
def State.keepBad (s : State) (k : CoreId) (l : List (Nat × Nat)) : List Nat :=
  let bad := s.poison ++ (s.ecc.filter fun e => e.2).map fun e => e.1
  ((bad.filter fun p => l.any fun (off, n) => (sectorsOf (bankKey k off) n).contains p).map fun p => p - bankKey k 0 / 32).dedup

/-- The poisoned sectors of a core's window, by number within it. -/
def State.windowBad (s : State) (k : CoreId) : List Nat :=
  let first := bankKey k 0x1C0000 / 32
  ((s.poison ++ (s.ecc.filter fun e => e.2).map fun e => e.1).filter fun p => decide (first ≤ p) && decide (p < first + 0x2000)).map fun p => p - first

/-- A save with what the copy takes from the bank: the window, and the keep regions with their poison, or the contents of a queue's overflow
segments. -/
def State.keepOf (s : State) (n : Node) (k : CoreId) (v : Saved) : Saved :=
  let v := { v with win := s.mem.slice (bankKey k 0x1C0000) 0x40000, winPoison := s.windowBad k, told := false }
  match (s.core k).mode with
  | .scratch => { v with keep := s.keepBytes k (s.keepPieces n k), keepPoison := s.keepBad k (s.keepPieces n k) }
  | .fifo => { v with segs := (s.core k).fifo.segs.map fun g => s.homeBytes (entryTarget g.base.toNat) (16 * g.filled) }
  | .cache => v

/-- The faults of the copy go to the Ostler's queue as its own. -/
def State.tellKeepFaults (s : State) (n : Node) (k : CoreId) : State :=
  (s.keepFaults n).foldl (fun s t => s.pushTrap k.die { s.record k .c 0 0 t with ids := 0 }) s

/-- A fault of a core's copy stands in the Ostler's queue or is in service. -/
def State.copyFault (s : State) (k : CoreId) : Bool :=
  let mine := fun r : TrapRec => r.core == cid k && r.ids == 0 && r.code == 0x10
  (s.die k.die).trapQ.any mine || s.cores.any fun c => match c.2.serving with | some r => mine r.1 | none => false

/-- SAVE_COPY_OUT (R312): the Ostler copies the window and the keep regions, or a FIFO bank's queue, to its save arena, the
bank returns to CACHE mode, and the core is free; with the last core of the node the node is switched out. A fault that the copy meets is
serviced first. -/
def execSaveCopyOut (s : State) : Host.Outcome State Fault Refusal :=
  let k := s.arg.k
  match (s.core k).saved, s.nodeOf k with
  | some v, some n =>
    if (s.core k).mode = .scratch ∧ !v.told ∧ !(s.keepFaults n).isEmpty then
      .next ((s.tellKeepFaults n k).modCore k fun c => { c with saved := some { v with told := true } })
    else if s.copyFault k then .next s
    else
    let v := s.keepOf n k v
    let s := s.keepPorts k (windowBytes k (v.ctx.tmask) v.ctx.accn + v.keep.length)
    let s := s.modNode n.id fun x => { x with saves := x.saves ++ [(k, v)] }
    let s := (s.setMode k .cache).freeCore k
    match s.node n.id with
    | some nd => if nd.saves.length = nd.cores.length then .next (s.switchedOut n.id) else .next s
    | none => .next s
  | _, _ => .next s

/-! ### Restoring (R313, R314) -/

/-- A sequencer after a resumption: every bN counts as prepared (R165), and a serviced stop is over. -/
def Seqr.resume (r : Seqr) : Seqr := { r with btAt := .replicate 4 r.issued, stopped := none, restart := false, bubbles := r.bubbles }

/-- A saved context over what the core's registers outside the footprint hold; a stopped command re-presents its row (R259). -/
def Ctx.restoreOver (x old : Ctx) : Ctx :=
  let out := old.tiles.filter fun b => !x.tmask.getLsbD (b.1 / 4096)
  let high := old.acc.filter fun b => !decide (b.1 < 256 * x.accn)
  { x with c := x.c.resume, m := x.m.resume, v := x.v.resume, t := x.t.resume
           pins := (x.te.held.map fun h => h.pins).sum
           me := { x.me with queue := x.me.queue.map fun c => { c with stop := none }, ended := [] }
           te := { x.te with queue := x.te.queue.map fun c => { c with stop := none } }
           tiles := x.tiles.overlaySlice 0 out, acc := x.acc.overlaySlice 0 high
           full := x.full ||| (old.full &&& ~~~x.tmask)
           regEcc := x.regEcc ++ old.regEcc.filter fun e =>
             (e.1.file == .tile && !x.tmask.getLsbD (e.1.n / 1024)) || (e.1.file == .slot && decide (x.accn ≤ e.1.n / 64)) }

/-- Restore one core of a node from its save. -/
def State.restoreCore (s : State) (n : Node) (k : CoreId) (v : Saved) : State :=
  let s := s.clearBank k
  let s := { s with mem := s.mem.overlaySlice (bankKey k 0) v.keep
                    poison := v.keepPoison.map (fun p => bankKey k 0 / 32 + p) ++ s.poison }
  let s := (v.fifo.segs.zip v.segs).foldl (fun s x => s.homeWrite (entryTarget x.1.base.toNat) x.2) s
  let s := s.modCore k fun c =>
    { c with ctx := v.ctx.restoreOver c.ctx, mode := v.mode, drain := 0, fifo := v.fifo, version := v.version, whole := v.whole
             phase := v.phase, hook := v.hook, barr := v.barr, pend := v.pend, saved := none, preempt := none, yielding := false
             haltLine := v.haltLine, halted := false, icache := [], withdrawn := c.withdrawn && v.mode == .cache }
  let s := s.rewithdraw k.die k.cluster
  let s := s.putWindow k 0 0x40000 v.win
  let s := { s with poison := v.winPoison.map (fun p => bankKey k 0x1C0000 / 32 + p) ++ s.poison }
  s.trace k 7 .c v.ctx.c.pc 0 0 (n.nodeWord.setWidth 64)

/-- RESUME_RESTORE (R313): a node placed again on its own cores is restored there. -/
def execResumeRestore (s : State) : Host.Outcome State Fault Refusal :=
  match s.node s.arg.n with
  | none => .next s
  | some nd =>
    if nd.st = .placed ∧ nd.saves ≠ [] ∧ nd.saves.all fun x => (s.core x.1).node == some nd.id then
      let s := nd.saves.foldl (fun s x => s.restoreCore nd x.1 x.2) s
      .next (s.modNode nd.id fun x => { x with saves := [] })
    else .next s

end Sys2Proof.Machine
end

