-- ==== Sys2Proof/Machine/Matrix.lean ====
section
/-! DEFINITION. The matrix engine: launch words (R232, R233, R237 to R239), the M queue with its order (R123, R258), rows
(R242 to R248), loads (R240, R241), drains (R251 to R253), slot words (R254 to R257), records (R254) and stops (R259). -/

namespace Sys2Proof.Machine

/-! ### Fields of the shadow command (R237, R238) -/

/-- The formats of the active and the shadow buffer after a queued command (R235). -/
def planStep (p : Option Nat × Option Nat) (c : MCmd) : Option Nat × Option Nat :=
  if c.isLoad && !c.started then (p.1, some (bFmt (c.f 0 15 12)).1)
  else if c.swaps && !c.swapped then (p.2, p.1) else p

/-- The formats that the buffers will have when the next command launched starts. -/
def Ctx.plan (x : Ctx) : Option Nat × Option Nat := x.me.queue.foldl planStep (x.wact.fmt?, x.wshd.fmt?)

/-! ### Launching (R232, R233) -/

/-- What a launch word has checked and asks for. -/
structure MLaunch where
  /-- Footprint failure (step 2). -/
  foot : Option TrapInfo := none
  /-- Malformed (step 3). -/
  bad : Bool := false
  /-- Limits by the number in ADDR, in the order checked (step 4). -/
  limits : List (W64 × Bool) := []
  /-- FI. -/
  cost : Nat := 1
  /-- Physical tiles in the read class, which are lent. -/
  reads : List (BitVec 4) := []
  /-- Physical tile in the fill class. -/
  fill : Option (BitVec 4) := none
  /-- It sends records, and so commits the version first (R291). -/
  sends : Bool := false
  /-- Sticky bits. -/
  flags : BitVec 32 := 0
  /-- It takes the next tagged stream (R243). -/
  tagged : Bool := false
  /-- The command. -/
  cmd : MCmd

/-- The command of a launch word as it stands before its checks. -/
def newM (w : Wd) (me : MEngine) (op : MOp) : MCmd :=
  { fenceM 0 w.pc Fin'.none with op := op, w := me.w, rnd := w.px.rnd, sat := w.px.sat }

/-- 0x03 where a slot of a span below 512 lies at or above ACCN (R40, R238). -/
def slotFoot (x : Ctx) (span : Nat × Nat) : Option TrapInfo :=
  let lo := max span.1 x.accn
  if lo < min 512 (span.1 + span.2) then some (privilege (BitVec.ofNat 64 lo) 4) else none

/-- 0x03 where a named tile lies outside the footprint. -/
def tilesFoot (x : Ctx) (names : List (BitVec 4)) : Option TrapInfo :=
  (names.find? fun n => x.outside (x.regs.phys n)).map footTrap

/-- The wait of a launch on its tiles (R33, R34). -/
def Ctx.launchWait (x : Ctx) (l : MLaunch) : Option WaitOn :=
  match l.fill with
  | some t => if x.isFull t then some (tileWait 2 t) else none
  | none =>
    match l.reads.find? fun t => !x.isFull t with
    | some t => some (tileWait 1 t)
    | none => (l.reads.find? x.portWrites).map (tileWait 2)

/-- The slots of a mask, with their bindings. -/
def maskSlots (r : Regs) (m : Nat) : List (Fin 16 × EventSlot) :=
  (List.finRange 16).filterMap fun i => if m.testBit i.val then some (i, r.ev[i.val]) else none

/-- A slot of an EVENT prefix as a mask. -/
def slotMask (n : Option (Fin 16)) : Nat := match n with | some i => 2 ^ i.val | none => 0

/-- The record of a new command. -/
def newMRec (seqn : BitVec 24) (pair : Nat) : MRec :=
  { status := seqn.setWidth 64 <<< 40, arrived := 0, poisonTag := none, unseen := none, nPoison := 0, nDup := 0, nExtra := 0
    entered := 0, pair := pair }

/-- Put a checked command into the queue: its tokens and events bound, its tiles lent, its number in W14. -/
def State.queueM (s : State) (w : Wd) (l : MLaunch) (pops pushes : List (Fin 6 × Nat)) : State :=
  let k := w.k
  let r := s.regs k
  let w14 := l.cmd.w[14].toNat
  let sigs := (maskSlots r (w14 / 65536 % 65536 ||| slotMask w.px.signal)).map fun p => p.1
  let waits := maskSlots r (w14 % 65536 ||| slotMask w.px.wait)
  let fin := s.dueOf k pushes sigs
  let me := (s.ctx k).me
  let seqn := me.seqn + 1
  let pair := if l.tagged then me.pairs + 1 else 0
  let op := if l.tagged then .gather pair else l.cmd.op
  let c := { l.cmd with op := op, seqn := seqn, pops := pops, waits := waits, fin := fin }
  let s := s.modRegs k fun r => r.tokReserve pushes
  let s := s.modCtx k fun x => { x with lent := x.lent ++ l.reads.map fun t => { tile := t, seqn := seqn } }
  let s := s.modMe k fun e =>
    { e with queue := e.queue ++ [c], seqn := seqn, pairs := if l.tagged then pair else e.pairs
             w := vput e.w 14 (e.w[14].extractLsb' 0 40 |>.setWidth 64 |> (· ||| seqn.setWidth 64 <<< 40))
             recs := (newMRec seqn pair :: e.recs).take 16 }
  s.trace k 4 .m w.pc seqn 0 (w.enc.setWidth 64)

/-- The checks, waits and effect of a launch word (R232). -/
def launchM (w : Wd) (l : MLaunch) (s : State) : Res :=
  let x := s.ctx w.k
  match l.foot with
  | some t => .trap t
  | none =>
    if l.bad then .trap { code := 0x01, addr := w.enc.setWidth 64 }
    else
      match l.limits.find? fun p => p.2 with
      | some p => .trap (badOperand p.1)
      | none =>
        let tok := (bitsOf l.cmd.w[14].toNat 39 32)
        let (pops, pushes) :=
          if w.px.tokens then (w.px.pops, w.px.pushes)
          else let t := tokFields .m false (BitVec.ofNat 8 tok)
               (t.1, t.2.1)
        match x.launchWait l with
        | some on => .wait on l.cost s
        | none =>
          match x.regs.tokRoom pushes with
          | some ix => .wait (tokWait ix) l.cost s
          | none =>
            if 8 ≤ x.me.queue.length then .wait (s.mQueueWait w.k) l.cost s
            else
              let s := s.settle w.k w.q
              let s := if l.sends then s.mgCommit w else s
              .done (s.queueM w l pops pushes) [] { cost := l.cost, flags := l.flags }

/-- What launch words share. -/
def launchSpec (pops : Nat) (rbits : BitVec 4) (acc : Accept) : Spec :=
  { pops := pops, on := [.m], rbits := rbits, launch := true, acc := { acc with event := true, blocks := true } }

/-- Reserved bits of W0 are set, or a code of IW, WMOD, DUP or SRC is reserved (R237). -/
def w0Bad (w0 : W64) : Bool :=
  let v := w0.toNat
  bitsOf v 63 56 != 0 || bitsOf v 31 27 != 0 || bitsOf v 7 3 != 0 || bitsOf v 26 25 == 3 || 2 ≤ bitsOf v 23 22
    || bitsOf v 21 20 == 3 || bitsOf v 1 0 == 3

/-- Reserved bits of W0 are set. -/
def w0Reserved (w0 : W64) : Bool := bitsOf w0.toNat 63 56 != 0 || bitsOf w0.toNat 31 27 != 0 || bitsOf w0.toNat 7 3 != 0

/-- The names of consecutive tiles. -/
def namesFrom (r : BitVec 4) (n : Nat) : List Nat := (List.range n).map fun i => r.toNat + i

/-- Tile names that exist, as operands. -/
def tileNames (l : List Nat) : List (BitVec 4) := (l.filter fun q => decide (q < 16)).map (BitVec.ofNat 4)

/-- The number of a shadow field or an operand out of limits. -/
def lim (field : Nat) (bad : Bool) : W64 × Bool := (BitVec.ofNat 64 field, bad)

/-- MSET r: v →. -/
def execMset (r : BitVec 4) (s : State) : Host.Outcome State Fault Refusal :=
  .next (runWord (.mset r) r { pops := 1, on := [.m], rbits := 15 }
    (fun w a s =>
      let v := a.headD 0
      ok (s.modMe w.k fun e =>
        { e with w := vput e.w (r4 r) (if r = 14 then (e.w[14] &&& 0xFFFFFF0000000000) ||| (v &&& 0xFFFFFFFFFF) else v) }) []) s)

/-- The limits of a load's scales (R239). -/
def loadLimits (c : MCmd) (f : Nat) : List (W64 × Bool) := [lim 2 (bScaleBytes f != 0 && c.w[2].toNat % 64 != 0)]

/-- MLOADB. -/
def execMloadb (r : BitVec 4) (s : State) : Host.Outcome State Fault Refusal :=
  .next (runWord (.mloadb r) r (launchSpec 0 0 {})
    (fun w _ s =>
      let c := newM w (s.ctx w.k).me .loadB
      let (f, flags) := bFmt (c.f 0 15 12)
      launchM w { bad := w0Reserved c.w[0], limits := lim 3 (c.w[3].toNat % 128 != 0) :: loadLimits c f, cost := 16, flags := flags
                  cmd := c } s) s)

/-- MLOADT r. -/
def execMloadt (r : BitVec 4) (s : State) : Host.Outcome State Fault Refusal :=
  .next (runWord (.mloadt r) r (launchSpec 0 15 {})
    (fun w _ s =>
      let x := s.ctx w.k
      let c := newM w x.me .loadB
      let (f, flags) := bFmt (c.f 0 15 12)
      let names := namesFrom r (bRowCount f (c.w[0].getLsbD 2) * bRowBytes f / 4096)
      let ts := (tileNames names).map x.regs.phys
      launchM w { foot := tilesFoot x (tileNames names), bad := w0Reserved c.w[0]
                  limits := lim 0 (names.any fun q => decide (15 < q)) :: loadLimits c f, cost := 5, flags := flags, reads := ts
                  cmd := { c with op := .loadT ts } } s) s)

/-- The SPARSE prefix of a command in the mode it will run in: selector and metadata tile's name, or SPSF (R162, R249). -/
def sparseOf (px : Px) (fa : Nat) (b : Option Nat) : Option (BitVec 2 × BitVec 4) × BitVec 32 :=
  match px.sparse with
  | none => (none, 0)
  | some p =>
    if isFp8 fa && isFp8 (b.getD fa) && p.extractLsb' 6 2 == 0 then (some (p.extractLsb' 0 2, p.extractLsb' 2 4), 0)
    else (none, fSPSF)

/-- MRUN and MGATHER as far as they agree: the command with its mode, and its checks. -/
def rowsLaunch (w : Wd) (s : State) (gather : Bool) : MLaunch :=
  let x := s.ctx w.k
  let c := newM w x.me (if gather then .gather 0 else .run)
  let p := x.plan
  let b := if c.w[0].getLsbD 24 then p.2 else p.1
  let (sp, flags) := sparseOf w.px (c.f 0 11 8) b
  let c := { c with sparse := sp.map fun (sel, t) => (sel, x.regs.phys t) }
  let m := (c.mode b).1
  let c := { c with quad := m.quad, tiles := (List.range 16).map fun q => x.regs.phys (BitVec.ofNat 4 q) }
  let names := (if !gather && c.src == 1 then tileNames c.reach else []) ++ (sp.toList.map Prod.snd)
  let span := c.span
  { foot := match slotFoot x span with | some t => some t | none => tilesFoot x names
    bad := w0Bad c.w[0] || c.f 15 63 41 != 0 || c.src == (if gather then 1 else 2)
    limits := [lim 15 (decide (512 < span.1 + span.2)), lim 7 (decide (m.k < c.f 7 63 48)), lim 1 ((gather || c.src == 0) && c.f 1 6 0 != 0),
               lim 2 (!gather && m.mx && c.f 2 2 0 != 0), lim 4 (gather && c.src == 0 && c.w[4].toNat % c.entryBytes != 0),
               lim 8 (!gather && levelProd (c.levels c.rows) != c.rows)]
    cost := 1 + (c.rows + 7) / 8, reads := names.map x.regs.phys, flags := flags, tagged := gather && c.src == 2, cmd := c }

/-- MRUN. -/
def execMrun (r : BitVec 4) (s : State) : Host.Outcome State Fault Refusal :=
  .next (runWord (.mrun r) r (launchSpec 0 0 { sparse := true }) (fun w _ s => launchM w (rowsLaunch w s false) s) s)

/-- MGATHER. -/
def execMgather (r : BitVec 4) (s : State) : Host.Outcome State Fault Refusal :=
  .next (runWord (.mgather r) r (launchSpec 0 0 { sparse := true }) (fun w _ s => launchM w (rowsLaunch w s true) s) s)

/-- MDRAIN r. -/
def execMdrain (r : BitVec 4) (s : State) : Host.Outcome State Fault Refusal :=
  .next (runWord (.mdrain r) r (launchSpec 0 7 { round := true, sat := true })
    (fun w _ s =>
      let x := s.ctx w.k
      let c := newM w x.me (.drain r)
      let dest := drainDest r
      let f := (drainFmt c.fmto).1
      let span := c.span
      let lv := c.levels c.slots
      let dense := dest == 0
      launchM w
        { foot := slotFoot x span, bad := w0Reserved c.w[0] || c.f 15 63 41 != 0 || c.f 0 26 25 == 3
          limits := [lim 15 (decide (512 < span.1 + span.2)), lim 1 (dest == 1 && c.f 1 3 0 != 0),
                     lim 5 (dest != 2 && c.f 5 3 0 != 0), lim 6 ((isMx f || dest == 2) && c.f 6 0 0 != 0)]
            ++ ((List.finRange 16).filter fun j => decide (8 ≤ j.val ∧ j.val ≤ 13)).map (fun j => lim j.val (dense && c.f j 43 40 != 0))
            ++ [lim 8 (dense && levelProd lv != c.slots)]
          cost := 1 + (c.slots + 7) / 8, sends := dest == 2
          flags := (if dest = 2 then 0 else (drainFmt c.fmto).2) ||| flagIf (r.toNat % 4 == 3) fRFLD, cmd := c } s) s)

/-- MZERO. -/
def execMzero (r : BitVec 4) (s : State) : Host.Outcome State Fault Refusal :=
  .next (runWord (.mzero r) r (launchSpec 0 0 {})
    (fun w _ s =>
      let x := s.ctx w.k
      let c := newM w x.me .zero
      let span := c.span
      launchM w { foot := slotFoot x span, bad := c.f 15 63 41 != 0, limits := [lim 15 (decide (512 < span.1 + span.2))]
                  cost := 1 + (c.slots + 7) / 8, cmd := c } s) s)

/-- The footprint and limits of a slot operand. -/
def slotOperand (x : Ctx) (v : W64) (name : BitVec 4) : Option TrapInfo × List (W64 × Bool) :=
  let foot := if v.toNat < 512 then slotFoot x (v.toNat, 1) else none
  (match foot with | some t => some t | none => tilesFoot x [name], [(v, decide (512 ≤ v.toNat))])

/-- The registers a slot word or an MLOADT reads as it completes. -/
def MCmd.endReads (c : MCmd) (w : RegWord) : Bool :=
  match c.op with
  | .readA _ q _ => slotWords q w
  | .patch t q row m => tileWords t (row % 32) 1 w || tileWords t ((row + 1) % 32) 1 w || (m.extractLsb' 0 2 != 0 && slotWords q w)
  | .loadT ts => ts.any fun t => tileWords t 0 32 w
  | _ => false

/-- A slot word of C inside a hook (R257): the same checks, no waits, and a lent tile refused. -/
def hookSlot (x : Ctx) (foot : Option TrapInfo) (limits : List (W64 × Bool)) (t : BitVec 4) (name : BitVec 4) (go : Unit → Res) : Res :=
  match foot with
  | some i => .trap i
  | none =>
    match limits.find? fun p => p.2 with
    | some p => .trap (badOperand p.1)
    | none => if x.isLent t then .trap (footTrap name) else go ()

/-- MREADA r: s w →. -/
def execMreada (r : BitVec 4) (s : State) : Host.Outcome State Fault Refusal :=
  .next (runWord (.mreada r) r { launchSpec 2 15 {} with hookC := true }
    (fun w a s =>
      let x := s.ctx w.k
      let q := a.headD 0
      let row := (a.getD 1 0).toNat % 32
      let t := x.regs.phys r
      let (foot, limits) := slotOperand x q r
      if w.q = .c then
        hookSlot x foot limits t r fun _ =>
          withRegs w (slotWords q.toNat) s fun s => ok (s.modCtx w.k fun x => (x.readSlot q.toNat t row).setFull t true) []
      else
        launchM w { foot := foot, limits := limits, fill := some t, cmd := newM w x.me (.readA t q.toNat row) } s) s)

/-- MPATCH r: s w m →. -/
def execMpatch (r : BitVec 4) (s : State) : Host.Outcome State Fault Refusal :=
  .next (runWord (.mpatch r) r { launchSpec 3 15 {} with hookC := true }
    (fun w a s =>
      let x := s.ctx w.k
      let q := a.headD 0
      let row := (a.getD 1 0).toNat % 32
      let m := a.getD 2 0
      let t := x.regs.phys r
      let (foot, limits) := slotOperand x q r
      let limits := limits ++ [(m, decide (8 ≤ m.toNat) || m.toNat % 4 == 3)]
      let op := m.extractLsb' 0 3
      if w.q = .c then
        hookSlot x foot limits t r fun _ =>
          withRegs w (newM w x.me (.patch t q.toNat row op)).endReads s fun s =>
          let (y, o) := (s.ctx w.k).patchSlot q.toNat t row op
          .done (s.setCtx w.k y) [] { flags := flagIf o fIOVF }
      else
        launchM w { foot := foot, limits := limits, reads := [t], cmd := newM w x.me (.patch t q.toNat row op) } s) s)

/-! ### Records (R254) -/

/-- The record of a command as it stands. -/
def MCmd.record (c : MCmd) (old : MRec) (done : Bool) : MRec :=
  let bit := fun (b : Bool) (n : Nat) => if b then 2 ^ n else 0
  let loss := c.deferred.any fun r => r.code == 0x38
  { old with
      status := BitVec.ofNat 64 (c.seqn.toNat * 2 ^ 40 + bit done 7 + bit (decide (0 < c.nDup)) 6 + bit (done && !c.deferred.isEmpty) 3
        + bit (decide (0 < c.nPoison)) 2 + bit loss 1)
      arrived := c.arrived, poisonTag := c.poisonTag, unseen := c.unseen, nPoison := c.nPoison, nDup := c.nDup, entered := c.next }

/-- The record of the j-th latest command, whether it is complete or not. -/
def Ctx.mRecord (x : Ctx) (j : Nat) : Option MRec :=
  match x.me.recs[j]? with
  | none => none
  | some r =>
    match x.me.queue.find? fun c => c.op != .fence && c.seqn.toNat == r.status.toNat / 2 ^ 40 with
    | some c => some (c.record r false)
    | none => some r

/-- A number, or all ones. -/
def orOnes (v : Option Nat) : W64 := match v with | some n => BitVec.ofNat 64 n | none => BitVec.allOnes 64

/-- What MSTAT reads. -/
def MRec.item (r : MRec) (k : Nat) : W64 :=
  match k with
  | 0 => if r.nExtra = 0 then r.status else r.status ||| 0x20
  | 1 => BitVec.ofNat 64 r.arrived
  | 2 => orOnes r.poisonTag
  | 3 => orOnes r.unseen
  | 4 => BitVec.ofNat 64 r.nPoison
  | 5 => BitVec.ofNat 64 r.nDup
  | 6 => BitVec.ofNat 64 r.nExtra
  | 7 => BitVec.ofNat 64 r.entered
  | _ => 0

/-- MSTAT: j k → v. (DEDUCED, log entry 17.) -/
def execMstat (r : BitVec 4) (s : State) : Host.Outcome State Fault Refusal :=
  .next (runWord (.mstat r) r { pops := 2, pushes := 1, on := [.m] }
    (fun w a s =>
      let k := (a.getD 1 0).toNat
      match (s.ctx w.k).mRecord (a.headD 0).toNat with
      | some m => ok s [m.item k]
      | none => ok s [if k = 0 then 0x100 else 0]) s)

/-- MWAITC: n →. Of its class it awaits every incomplete command, with n above 0 too, where the spec does not say which it awaits. (DESIGN CHOICE,
log entry 6.) -/
def execMwaitc (r : BitVec 4) (s : State) : Host.Outcome State Fault Refusal :=
  .next (runWord (.mwaitc r) r { pops := 1, on := [.m], acc := { blocks := true } }
    (fun w a s =>
      let q := (s.ctx w.k).me.queue.filter fun c => c.op != .fence
      if q.length ≤ (a.headD 0).toNat then ok s []
      else .wait { (s.mQueueWait w.k) with beyond := q.any (s.mBeyond w.k) } 1 s) s)

/-! ### Order (R123, R258) -/

/-- Command i may start: those before it have started, what it shares with them is theirs no longer, and its tokens and events
are there (R123, R233, R235, R258). (DEDUCED, log entry 12.) -/
def State.mCanStart (s : State) (k : CoreId) (i : Nat) (c : MCmd) : Bool :=
  let x := s.ctx k
  let before := x.me.queue.take i
  before.all (fun e => e.started) && (!c.isFence || before.isEmpty)
    && before.all (fun e => !s.shareBytes k e.rangesLeft c.rangesLeft)
    && (!c.isLoad || before.all fun e => !e.isLoad)
    && (!c.swaps || before.all fun e => !e.isLoad && (!e.isRows || e.allIn))
    && (x.regs.tokShort c.pops).isNone && c.waits.all fun p => s.slotMet p.2

/-- The pops and waits of a command that starts, its seen bits cleared, and a load's buffer set up. -/
def State.mBegin (s : State) (k : CoreId) (i : Nat) (c : MCmd) : State :=
  let s := s.modRegs k fun r => r.tokPop c.pops
  let s := c.waits.foldl (fun s p => s.bindingPass k p.1 p.2) s
  let s := s.modMe k fun e =>
    { e with queue := e.queue.modify i fun c => { c with started := true, waits := [], pops := [] } }
  if c.isLoad then
    let f := (bFmt (c.f 0 15 12)).1
    s.modCtx k fun x =>
      { x.regDrop (weightWords true) with wshd := { rows := [], scales := [], fmt := BitVec.ofNat 4 f, count := bRowCount f (c.w[0].getLsbD 2), poison := false } }
  else if c.isRows then
    let (_, legal) := c.mode (s.ctx k).wact.fmt?
    s.setFlags k (flagIf (!legal) fWFMT)
  else s

/-- Command i of a core may make progress (R23, R191, R308, R318): the engines run and the clock does not stand; after a hard pre-emption has
fallen due only the commands it completes go on, and those that take the rows already fetched for them. -/
def State.mGoes (s : State) (k : CoreId) (i : Nat) : Bool :=
  let c := s.core k
  c.enginesRun && !(s.die k.die).stoppedClk
    && (c.preempt.isNone || decide (i < c.ctx.mDue) || c.ctx.takesRow i)

/-- Find the first entry of a list, from number i, that satisfies a test of number and entry. -/
def findIx {α : Type} (l : List α) (i : Nat) (p : Nat → α → Bool) : Option (Nat × α) :=
  match l with
  | [] => none
  | x :: t => if p i x then some (i, x) else findIx t (i + 1) p

/-- The first command that satisfies a test and may go on; one that has not started is started, unless it must exchange the
buffers first. -/
def State.mNext (s : State) (k : CoreId) (p : Nat → MCmd → Bool) : Option (Nat × MCmd × State) :=
  let ready := fun i (c : MCmd) =>
    p i c && c.stop.isNone && s.mGoes k i && (c.started || (!c.swaps && s.mCanStart k i c))
  match findIx (s.ctx k).me.queue 0 ready with
  | none => none
  | some (i, c) =>
    let s := if c.started then s else s.mBegin k i c
    match (s.ctx k).me.queue[i]? with
    | some c => some (i, c, s)
    | none => none

/-- Change command i of the queue. -/
def State.modM (s : State) (k : CoreId) (i : Nat) (f : MCmd → MCmd) : State :=
  s.modMe k fun e => { e with queue := e.queue.modify i f }

/-- No row is inside the array. -/
def Ctx.arrayEmpty (x : Ctx) : Bool := x.me.queue.all fun c => c.fly.isEmpty

/-- Change the queued command of a sequence number. -/
def State.modSeqn (s : State) (k : CoreId) (seqn : BitVec 24) (f : MCmd → MCmd) : State :=
  s.modMe k fun e => { e with queue := e.queue.map fun c => if c.seqn = seqn ∧ c.op ≠ .fence then f c else c }

/-- A row-precise stop of a command at a row, which it presents again on resumption (R259): rows already entered land first, so until then nothing happens. -/
def State.mStop (s : State) (k : CoreId) (c : MCmd) (row : Nat) (t : TrapInfo) : State :=
  if (s.ctx k).arrayEmpty then
    (s.modSeqn k c.seqn fun c => { c with again := some row }).engineTrap k .m c.seqn c.pc { t with rowp := BitVec.ofNat 64 (row % 2 ^ 32 + c.arrived % 2 ^ 32 * 2 ^ 32) }
  else s

/-- The engine reads the registers of p for a row of command c, and the command itself: an uncorrectable one stops it with cause
0x31, once no row is inside the array (R326). (DEDUCED, log entry 50.) -/
def State.mReads (s : State) (k : CoreId) (c : MCmd) (row : Nat) (p : RegWord → Bool) (go : State → State) : State :=
  let p := fun w => p w || queueWord .m c.seqn w
  match (s.ctx k).regBad p with
  | some w => if (s.ctx k).arrayEmpty then (s.countBad k w).mStop k c row (regTrap w) else s
  | none => go (s.regFix k p)

/-- An access of command i at a row is not made. -/
def State.mRefused (s : State) (k : CoreId) (c : MCmd) (m : Mover) (row : Nat) (e : EStop) : State :=
  match e with
  | .trap t => s.mStop k c row t
  | .drain b => s.noteDrain k .m b
  | .hold => s
  | .watch j va wr =>
    if (s.ctx k).arrayEmpty then (s.modSeqn k c.seqn fun c => { c with again := some row }).engineWatch k m row j va wr else s

/-- WEIGHT_BUFFER_EXCHANGE (R235): a command whose SWAPB is set starts with the exchange of the buffers. (DEDUCED, log entry 12.) -/
def execWeightBufferExchange (s : State) : Host.Outcome State Fault Refusal :=
  let k := s.arg.k
  match findIx (s.ctx k).me.queue 0 fun i c => !c.started && c.swaps && s.mGoes k i && s.mCanStart k i c with
  | none => .next s
  | some (i, c) =>
    let s := s.modCtx k fun x =>
      { x with wact := x.wshd, wshd := x.wact
               regEcc := x.regEcc.map fun e =>
                 if e.1.file = .weight then ({ e.1 with n := if e.1.n < 65536 then e.1.n + 65536 else e.1.n - 65536 }, e.2) else e }
    .next ((s.mBegin k i c).modM k i fun c => { c with swapped := true })

/-! ### Rows (R242 to R248) -/

/-- A row that has arrived. -/
structure Arrived where
  /-- Row number: the linear counter, or the position. -/
  row : Nat
  /-- Tag. -/
  tag : Nat
  /-- 128 bytes. -/
  data : List Byte
  /-- Eight scale bytes. -/
  scales : List Byte
  /-- It arrives as a poisoned row. -/
  poison : Bool
  /-- Its deferred fault, for a translation fault, refusal or lost link. -/
  fault : Option TrapInfo

/-- A command still has a row to read from a physical tile, its rows before n having been read (R34). -/
def MCmd.readsTile (c : MCmd) (t : BitVec 4) (n : Nat) : Bool :=
  match c.op with
  | .run =>
    decide (n < c.rows) && ((match c.sparse with | some (_, m) => m == t | none => false)
      || (c.src == 1 && ((List.range (c.rows - n)).any fun j => c.tiles.getD (c.tileAt (n + j)).1 0 == t)))
  | .gather _ => decide (n < c.rows) && (match c.sparse with | some (_, m) => m == t | none => false)
  | _ => true

/-- What command i keeps of a row that has been presented: its position, and its deferred fault. A tile whose last row it has read
is no longer lent to it (R34). -/
def State.mTook (s : State) (k : CoreId) (i : Nat) (c : MCmd) (a : Arrived) : State :=
  let d := match a.fault with
    | some t => keepFault c.deferred (s.record k .m c.seqn c.pc { t with cls := 2, rowp := BitVec.ofNat 64 (a.row % 2 ^ 32) })
    | none => c.deferred
  let s := s.modCtx k fun x => { x with lent := x.lent.filter fun l => l.seqn != c.seqn || c.readsTile l.tile (c.arrived + 1) }
  s.modM k i fun c =>
    { c with arrived := c.arrived + 1, took := if c.op == .run then c.took else a.row :: c.took, deferred := d, skip := 0, again := none }

/-- The registers that a row of a command reads: the active weight buffer, the row itself with SRC 1, and its metadata (R234, R249). -/
def MCmd.rowReads (c : MCmd) (row g : Nat) (w : RegWord) : Bool :=
  weightWords false w
    || (c.op == .run && c.src == 1 && (let q := c.tileAt row; tileWords (c.tiles.getD q.1 0) q.2 1 w))
    || (match c.sparse with | some (_, t) => tileWords t (g % 32) 1 w | none => false)

/-- ROW_ENTRY's checks and entry for one row (R244, R246, R248, R250): `s` is the state after its fetch, `s0` the one before it,
to which a row that is not taken leaves the machine; `after` follows once the row has been taken. -/
def State.presentRow (s s0 : State) (k : CoreId) (i : Nat) (c : MCmd) (a : Arrived) (after : State → State) : State :=
  let g := (a.tag + (2 ^ 24 - c.tagb)) % 2 ^ 24
  if ((s.ctx k).regBad fun w => c.rowReads a.row g w || queueWord .m c.seqn w).isSome then s0.mReads k c a.row (c.rowReads a.row g) id
  else
  let s := s.mReads k c a.row (c.rowReads a.row g) id
  let x := s.ctx k
  let m := (c.mode x.wact.fmt?).1
  let kval := if c.f 7 63 48 = 0 then m.k else c.f 7 63 48
  let codes := match c.sparse with | some (sel, t) => x.metaCodes sel t g | none => []
  let info := fun n : Nat => BitVec.ofNat 64 (a.tag % 2 ^ 24 + n * 2 ^ 32)
  if c.slots ≤ g then s0.mStop k c a.row { code := 0x12, info := info (g % 65536) }
  else
    match (if c.sparse.isSome then badMeta codes kval else none) with
    | some j => s0.mStop k c a.row { code := 0x15, info := info j }
    | none =>
      let seen := c.seen.getLsbD g
      let dup := c.f 0 21 20
      if seen && dup == 1 then
        after (((s.mTook k i c a).modM k i fun c => { c with nDup := c.nDup + 1 }).setFlags k fDUPDROP)
      else if seen && dup == 2 then s0.mStop k c a.row { code := 0x13, info := info (g % 65536) }
      else
        let qs := (List.range c.per).map fun j => c.slotb + c.per * g + j
        if qs.all fun q => slotFree x.me.queue i q true then
          let poison := a.poison || x.wact.poison
          let precise := (s.die k.die).precision && s.right k 3
          let (sums, flags) := if poison then ([], 0) else passRow m precise x.wact (c.f 7 63 48) a.data a.scales codes
          let row : FlyRow := { left := if (s.core k).halfArray then 73 else 72, g := g, sums := sums, poison := poison, first := !seen, int := m.int }
          let s := s.mTook k i c a
          let s := s.modM k i fun c =>
            { c with next := c.next + 1, seen := setBit512 c.seen g true, fly := c.fly ++ [row]
                     nPoison := if poison then c.nPoison + 1 else c.nPoison
                     poisonTag := if poison then some (c.poisonTag.getD a.tag) else c.poisonTag }
          after (s.setFlags k flags)
        else s0

/-- 0x10 for a refused fetch of a row: its address and the level of the walk (R248); 0x03 for a save window (R16).
(DEDUCED, log entry 16.) -/
def rowFault (t : TrapInfo) : TrapInfo :=
  if t.code = 0x03 ∧ t.info = 2 then privilege t.addr 2 else { code := 0x10, kind := if t.code = 0x10 then t.kind else 0, addr := t.addr, info := if t.code = 0x10 then t.info else 0 }

/-- Fetch the bytes of a row, with its scales at an address where the mode has them: they arrive, with poison where a fetch is
refused or its link is lost; `precise` makes a translation fault stop the command instead (MRUN); `idx` is the row's index. A refusal as `EStop` means: not yet. (DEDUCED, log entry 16.) -/
def State.fetchRow (s : State) (k : CoreId) (m : Mover) (precise : Bool) (va n idx : Nat) :
    Except EStop (State × List Byte × Bool × Option TrapInfo) :=
  if s.moverCut m va n .load then .ok (s, List.replicate n 0, true, some { code := 0x38, info := BitVec.ofNat 64 idx })
  else
    match s.moverRead m va n with
    | .ok (s', bs) => .ok (s'.chargeFtUnits k (ftUnits (s.moverFar m va n)), plain bs, anyPoison bs, none)
    | .error (.trap t) => if precise && t.code == 0x10 then .error (.trap t) else .ok (s, List.replicate n 0, true, some (rowFault t))
    | .error e => .error e

/-- Fetch a row's scales where the mode is MX. -/
def State.fetchScales (s : State) (k : CoreId) (m : Mover) (precise mx : Bool) (va idx : Nat) :
    Except EStop (State × List Byte × Bool × Option TrapInfo) :=
  if mx then s.fetchRow k m precise va 8 idx else .ok (s, [], false, none)

/-- The first of two faults. -/
def firstFault (a b : Option TrapInfo) : Option TrapInfo := match a with | some t => some t | none => b

/-- The mover of an M command. -/
def State.mMover (s : State) (k : CoreId) (c : MCmd) : Mover := { s.coreMover k .m c.seqn c.pc c.skip with lost := c.lost }

/-- Row n of an MRUN enters. (DEDUCED, log entry 13.) -/
def State.runRow (s0 : State) (k : CoreId) (i : Nat) (c : MCmd) : State :=
  let s := s0
  let n := c.arrived
  let mv := s.mMover k c
  let mx := (c.mode (s.ctx k).wact.fmt?).1.mx
  let off := c.rowOff n
  let tag := c.tagb + n
  if c.src = 1 then
    let (q, row) := c.tileAt n
    if 15 < q then s.mStop k c n (badOperand 1)
    else
      match s.fetchScales k mv true mx (addr64 (c.w[2].toNat + 8 * n)) n with
      | .error e => s.mRefused k c mv n e
      | .ok (s, sc, p, f) =>
        let data := (s.ctx k).tileRow (c.tiles.getD q 0) row
        s.presentRow s0 k i c { row := n, tag := tag, data := data, scales := sc, poison := p, fault := f } id
  else
    match s.fetchRow k mv true (addr64 (c.w[1].toNat + off)) 128 n with
    | .error e => s.mRefused k c mv n e
    | .ok (s1, data, p, f) =>
      match s1.fetchScales k mv true mx (addr64 (c.w[2].toNat + off / 16)) n with
      | .error e => s.mRefused k c mv n e
      | .ok (s2, sc, p2, f2) =>
        s2.presentRow s0 k i c { row := n, tag := tag, data := data, scales := sc, poison := p || p2, fault := firstFault f f2 } id

/-- A position of an MGATHER with SRC 0 arrives: its list entry, its row and its scales. The list is one transfer of its
own, charged with the first row (R60). (DEDUCED, log entry 15.) -/
def State.gatherRow (s0 : State) (k : CoreId) (i : Nat) (c : MCmd) (pos : Nat) : State :=
  let mv := s0.mMover k c
  let s := if c.took.isEmpty
    then s0.chargeFtUnits k (ftUnits (s0.moverFar mv c.w[4].toNat (c.entryBytes * c.rows))) else s0
  let mx := (c.mode (s.ctx k).wact.fmt?).1.mx
  let n := c.entryBytes
  match s.moverRead mv (addr64 (c.w[4].toNat + n * pos)) n with
  | .error e => s.mRefused k c mv pos e
  | .ok (s', es) =>
    let e := leNat (plain es)
    let x := e % 2 ^ 40
    let tag := if n = 8 then e / 2 ^ 40 else pos
    -- its line is pinned only until the row has entered, but an entry must be free for that (R226)
    if 256 < (s.ctx k).pins + s.pinLines mv (addr64 (c.w[1].toNat + 128 * x)) 128 then s0
    else
    match s'.fetchRow k mv false (addr64 (c.w[1].toNat + 128 * x)) 128 pos with
    | .error e => s.mRefused k c mv pos e
    | .ok (s1, data, p, f) =>
      match s1.fetchScales k mv false mx (addr64 (c.w[2].toNat + 8 * x)) pos with
      | .error e => s.mRefused k c mv pos e
      | .ok (s2, sc, p2, f2) =>
        s2.presentRow s0 k i c { row := pos, tag := tag, data := data, scales := sc, poison := anyPoison es || p || p2, fault := firstFault f f2 } id

/-- A row of the tagged stream is taken out of the row buffer, with its pin (R226, R243). -/
def State.unhold (s : State) (k : CoreId) (h : HeldRow) : State :=
  let s := s.modTe k fun e => { e with held := e.held.filter (· != h) }
  s.modCtx k fun x => { x with pins := x.pins - h.pins }

/-- The oldest held row of a pair arrives at its MGATHER. -/
def State.streamRow (s0 : State) (k : CoreId) (i : Nat) (c : MCmd) (h : HeldRow) : State :=
  let s := s0
  let mv := s.mMover k c
  let mx := (c.mode (s.ctx k).wact.fmt?).1.mx
  match s.fetchScales k mv false mx (addr64 (c.w[2].toNat + 8 * h.tag)) h.tag with
  | .error e => s.mRefused k c mv c.arrived e
  | .ok (s, sc, p, f) =>
    let cause : Option TrapInfo := h.cause.map fun e => { code := e, info := if e = 0x38 then BitVec.ofNat 64 h.tag else if e = 0x03 then 2 else 0 }
    s.presentRow s0 k i c { row := h.tag, tag := h.tag, data := h.data, scales := sc, poison := h.poison || p, fault := firstFault cause f }
      fun s => s.unhold k h

/-- A command has a row that can be presented now. -/
def Ctx.rowReady (x : Ctx) (c : MCmd) : Bool :=
  c.arrived < c.rows && (match c.op with
    | .run => true
    | .gather 0 => true
    | .gather p => !(x.te.rowsOf p).isEmpty
    | _ => false)

/-- The second half of a row enters a half array in this cycle, so that no row begins to (R363). -/
def Core.halfBusy (c : Core) : Bool := c.halfArray && c.ctx.me.queue.any fun m => m.fly.any fun r => decide (72 ≤ r.left)

/-- ROW_ENTRY (R244): the first command with a row to present presents it; `num` picks a position of a gather. (DEDUCED, log entry 13.) -/
def execRowEntry (s : State) : Host.Outcome State Fault Refusal :=
  let k := s.arg.k
  let pick := s.arg.num
  if (s.core k).halfBusy then .next s
  else
  match s.mNext k fun _ c => (s.ctx k).rowReady c with
  | none => .next s
  | some (i, c, s) =>
    match c.op with
    | .run => .next (s.runRow k i c)
    | .gather 0 =>
      let left := (List.range c.rows).filter fun p => !c.took.contains p
      .next (s.gatherRow k i c (c.again.getD (left.getD (pick % left.length) 0)))
    | .gather p =>
      match (s.ctx k).te.rowsOf p with
      | h :: _ => .next (s.streamRow k i c h)
      | [] => .next s
    | _ => .next s

/-- A row reaches its slots (R245). -/
def Ctx.rowLands (x : Ctx) (c : MCmd) (r : FlyRow) : Ctx × Bool :=
  (List.range c.per).foldl (fun (y, o) j =>
    let q := c.slotb + c.per * r.g + j
    if r.poison then (y.setSlotPoison q true, o)
    else
      let (y, o') := y.slotTake q r.int (r.first && !c.adds) ((r.sums.drop (64 * j)).take 64)
      (y, o || o')) (x, false)

/-- The rows of one command that are due land. -/
def State.landRows (s : State) (k : CoreId) (c : MCmd) : State :=
  (c.fly.filter fun r => r.left == 0).foldl (fun s r =>
    let adds := !r.poison && !(r.first && !c.adds)
    let p := fun w => adds && (List.range c.per).any fun j => slotWords (c.slotb + c.per * r.g + j) w
    match (s.ctx k).regBad p with
    | some w => (s.countBad k w).engineTrap k .m c.seqn c.pc { regTrap w with rowp := BitVec.ofNat 64 (c.next % 2 ^ 32 + c.arrived % 2 ^ 32 * 2 ^ 32) }
    | none =>
      let s := s.regFix k p
      let (x, o) := (s.ctx k).rowLands c r
      (s.setCtx k x).setFlags k (flagIf o fIOVF)) s

/-- ROW_SLOT_UPDATE (R245): rows whose 72 cycles are over update their slots. -/
def execRowSlotUpdate (s : State) : Host.Outcome State Fault Refusal :=
  let k := s.arg.k
  let s := (s.ctx k).me.queue.foldl (fun s c => s.landRows k c) s
  .next (s.modMe k fun e => { e with queue := e.queue.map fun c => { c with fly := c.fly.filter fun r => r.left != 0 } })

/-! ### Loads (R240, R241) -/

/-- Put bytes into the shadow buffer. -/
def Ctx.loadRow (x : Ctx) (at_ : Nat) (bs : List Byte) (poison : Bool) : Ctx :=
  { x with wshd := { x.wshd with rows := x.wshd.rows.writeBytes at_ bs, poison := x.wshd.poison || poison } }

/-- The rows from number n of an MLOADB, in order; `fuel` bounds them. A refusal stops at its row; the rows before stay. -/
def State.loadFrom (s : State) (k : CoreId) (i : Nat) (c : MCmd) (rb : Nat) (fuel n : Nat) : State × Bool :=
  match fuel with
  | 0 => (s, true)
  | fuel + 1 =>
    let mv := s.mMover k { c with skip := if n = c.next then c.skip else 0 }
    match s.moverRead mv (addr64 (c.w[3].toNat + rb * n)) rb with
    | .error e => ((s.modM k i fun c => { c with next := n }).mRefused k c mv n e, false)
    | .ok (s, bs) =>
      let s := s.modCtx k fun x => x.loadRow (rb * n) (plain bs) (anyPoison bs)
      State.loadFrom s k i c rb fuel (n + 1)

/-- A load's scale image. -/
def State.loadScales (s : State) (k : CoreId) (i : Nat) (c : MCmd) (rows n : Nat) : State × Bool :=
  if n = 0 then (s, true)
  else
    let mv := s.mMover k c
    match s.moverRead mv c.w[2].toNat n with
    | .error e => ((s.modM k i fun c => { c with next := rows }).mRefused k c mv rows e, false)
    | .ok (s', bs) =>
      let s' := s'.modCtx k fun x =>
        { x with wshd := { x.wshd with scales := x.wshd.scales.writeBytes 0 (plain bs), poison := x.wshd.poison || anyPoison bs } }
      (s'.chargeFtUnits k (ftUnits (s.moverFar mv c.w[2].toNat n)), true)

/-- A load does its work: whether it is complete. -/
def State.loadWork (s : State) (k : CoreId) (i : Nat) (c : MCmd) : State × Bool :=
  let f := (bFmt (c.f 0 15 12)).1
  let rb := bRowBytes f
  let rows := bRowCount f (c.w[0].getLsbD 2)
  match c.op with
  | .loadT ts =>
    let img := ts.flatMap fun t => (s.ctx k).tiles.readBytes (4096 * t.toNat) 4096
    let s := s.modCtx k fun x => x.loadRow 0 img false
    s.loadScales k i c rows (bScaleBytes f)
  | _ =>
    let (s, done) := s.loadFrom k i c rb (rows - c.next) c.next
    if done then
      let far := s.moverFar (s.mMover k c) c.w[3].toNat (rb * rows)
      let (s, done) := s.loadScales k i c rows (bScaleBytes f)
      (if done then s.chargeFtUnits k (ftUnits far) else s, done)
    else (s, false)

/-! ### Completion (R247, R248) -/

/-- The deferred faults of a command as they are raised: arrived counts are filled in. -/
def MCmd.dueFault (c : MCmd) (now : Nat) : List TrapRec :=
  let arr := c.arrived % 2 ^ 32
  c.deferred.map fun r =>
    { r with time := BitVec.ofNat 64 now
             rowp := if r.code = 0x38 then BitVec.ofNat 64 arr else BitVec.ofNat 64 (r.rowp.toNat % 2 ^ 32 + arr * 2 ^ 32) }

/-- The tagged stream of a command, or 0. -/
def MCmd.pair (c : MCmd) : Nat := match c.op with | .gather p => p | _ => 0

/-- Command i is complete: its record is kept, its tiles are returned, its held rows discarded and counted, its deferred fault
raised, and its pushes and signals made (R125, R243, R247, R248). -/
def State.mComplete (s : State) (k : CoreId) (i : Nat) (c : MCmd) : State :=
  let extra := if c.pair = 0 then [] else (s.ctx k).te.rowsOf c.pair
  let s := extra.foldl (fun s h => s.unhold k h) s
  let s := s.modCtx k fun x => { x with lent := x.lent.filter fun l => l.seqn != c.seqn || c.op == .fence }
  let s := s.modMe k fun e =>
    { e with queue := e.queue.eraseIdx i
             ended := if (s.core k).preempt.isSome then c.span :: e.ended else e.ended
             recs := e.recs.map fun r =>
               if c.op != .fence && r.status.toNat / 2 ^ 40 == c.seqn.toNat then
                 let m := c.record r true
                 { m with nExtra := m.nExtra + extra.length }
               else r }
  let s := s.modCore k fun y => { y with pend := y.pend ++ c.dueFault s.now }
  let status := (((s.ctx k).me.recs.find? fun r => r.status.toNat / 2 ^ 40 == c.seqn.toNat).map fun r => r.item 0).getD 0
  let s := if c.op == .fence then s else s.trace k 5 .m c.pc c.seqn 0 status
  s.finish k c.fin

/-- A command other than a drain that can do its work and end now. -/
def Ctx.canEnd (x : Ctx) (i : Nat) (c : MCmd) : Bool :=
  let spanFree := fun change => (List.range c.span.2).all fun j => slotFree x.me.queue i (c.span.1 + j) change
  match c.op with
  | .loadB => (x.me.queue.take i).all fun e => !e.swaps || e.swapped
  | .loadT _ => (x.me.queue.take i).all fun e => !e.swaps || e.swapped
  | .run => c.allIn && c.fly.isEmpty
  | .gather _ => c.allIn && c.fly.isEmpty
  | .drain _ => c.next == c.slots
  | .zero => spanFree true
  | .readA _ _ _ => spanFree false
  | .patch _ _ _ _ => spanFree true
  | .fence => true

/-- M_COMMAND_COMPLETE (R247): the first command that can end does what is left of its work and is complete. -/
def execMCommandComplete (s : State) : Host.Outcome State Fault Refusal :=
  let k := s.arg.k
  match s.mNext k fun i c => (s.ctx k).canEnd i c with
  | none => .next s
  | some (i, c, s) =>
    .next (s.mReads k c c.next c.endReads fun s =>
      match c.op with
      | .zero =>
        let s := s.modCtx k fun x => (List.range c.span.2).foldl (fun x j => x.clearSlot (c.span.1 + j)) x
        s.mComplete k i { c with next := c.slots }
      | .readA t q row =>
        let p := (s.ctx k).slotPoison q
        let s := s.modCtx k fun x => (x.readSlot q t row).setFull t true
        s.mComplete k i { c with nPoison := if p then 1 else 0 }
      | .patch t q row m =>
        let (x, o) := (s.ctx k).patchSlot q t row m
        ((s.setCtx k x).setFlags k (flagIf o fIOVF)).mComplete k i c
      | .loadB =>
        let (s, done) := s.loadWork k i c
        if done then s.mComplete k i c else s
      | .loadT _ =>
        let (s, done) := s.loadWork k i c
        if done then s.mComplete k i c else s
      | _ => s.mComplete k i c)

/-! ### Drains (R251 to R253) -/

/-- A drained slot: the counter advances, and r[2] clears the slot. -/
def State.drained (s : State) (k : CoreId) (i : Nat) (r : BitVec 4) (q : Nat) (poison : Bool) : State :=
  let s := if r.getLsbD 2 then s.modCtx k fun x => x.clearSlot q else s
  s.modM k i fun c => { c with next := c.next + 1, skip := 0, nPoison := if poison then c.nPoison + 1 else c.nPoison }

/-- Write a row and its scales, or neither. -/
def State.drainWrite (s : State) (m : Mover) (va : Nat) (row : List Carried) (sva : Nat) (scales : List Carried) : Except EStop State :=
  match s.moverWrite m va row with
  | .error e => .error e
  | .ok s1 => if scales.isEmpty then .ok s1 else s1.moverWrite m sva scales

/-- One slot of a drain to memory. (DEDUCED, log entry 15.) -/
def State.drainMem (s : State) (k : CoreId) (i : Nat) (c : MCmd) (r : BitVec 4) : State :=
  let n := c.next
  let q := c.slotb + n
  let x := s.ctx k
  let f := (drainFmt c.fmto).1
  let poison := x.slotPoison q
  let (row, sc, inf) :=
    if poison then let p := drainPoison f
                   (p.1, p.2, false)
    else drainRow f (x.slotInt q) c.rnd c.sat (c.w[15].setWidth 32) (x.slotLanes q)
  let mv := s.mMover k c
  let write := fun (s : State) (va sva : Nat) (bad : Bool) =>
    let tag := fun bs : List Byte => bs.map fun b => (b, poison || bad)
    match s.drainWrite mv va (tag row) sva (tag sc) with
    | .error e => s.mRefused k c mv n e
    | .ok s' =>
      let far := ftUnits (s.moverFar mv va row.length) + ftUnits (s.moverFar mv sva sc.length)
      ((s'.chargeFtUnits k far).setFlags k (flagIf inf fMXINF)).drained k i r q (poison || bad)
  if drainDest r = 1 then
    let e := c.entryBytes
    match s.moverRead mv (addr64 (c.w[5].toNat + e * n)) e with
    | .error e => s.mRefused k c mv n e
    | .ok (s, es) =>
      let x := leNat (plain es) % 2 ^ 40
      write s (addr64 (c.w[1].toNat + drainBytes c.fmto * x)) (addr64 (c.w[6].toNat + 2 * x)) (anyPoison es)
  else
    let off := levelSum n (oStrides (c.levels c.slots))
    write s (((c.w[5].toNat : Int) + off) % 2 ^ 64).toNat (addr64 (c.w[6].toNat + 2 * n)) false

/-- One slot of a drain to a Mangle session (R253): a handle that is not live at the first record makes the command end with a
deferred 0x03, its records discarded; while the session refuses the record, the drain holds, with reason 14. -/
def State.drainMangle (s : State) (k : CoreId) (i : Nat) (c : MCmd) (r : BitVec 4) : State :=
  let n := c.next
  let q := c.slotb + n
  let x := s.ctx k
  let int := x.slotInt q
  let poison := x.slotPoison q
  let lanes := (x.slotLanes q).map fun v => if int then rneFp32 (Num.ofInt v.toInt) else v
  let key := (c.f 6 47 24 + ((c.f 6 23 0 + n) % 2 ^ 24) * 2 ^ 24)
  match s.live k c.w[5] with
  | none =>
    let d := keepFault c.deferred (s.record k .m c.seqn c.pc { code := 0x03, cls := 2, addr := c.w[5], rowp := BitVec.ofNat 64 n })
    (s.modM k i fun c => { c with deferred := d, refused := false }).drained k i r q poison
  | some ix =>
    let (s', ok) := s.mgSend ix (mgRec k (BitVec.ofNat 64 key) true poison lanes)
    let s' := s'.modM k i fun c => { c with refused := !ok }
    if ok then s'.drained k i r q poison else s'

/-- DRAIN_SLOT (R251): the first drain whose next slot no earlier command can change reads it. -/
def execDrainSlot (s : State) : Host.Outcome State Fault Refusal :=
  let k := s.arg.k
  let can := fun i (c : MCmd) =>
    match c.op with
    | .drain r => c.next < c.slots && slotFree (s.ctx k).me.queue i (c.slotb + c.next) (r.getLsbD 2)
    | _ => false
  match s.mNext k can with
  | none => .next s
  | some (i, c, s) =>
    match c.op with
    | .drain r =>
      .next (s.mReads k c c.next (slotWords (c.slotb + c.next)) fun s =>
        if drainDest r = 2 then s.drainMangle k i c r else s.drainMem k i c r)
    | _ => .next s

end Sys2Proof.Machine
end

