-- ==== Sys2Proof/Machine/Copy.lean ====
section
/-! DEFINITION. The COPY packet's form (R208), the movement of its bytes in landing units with the checksum (R209, R210), and
what is lost behind a failed link (R217). T commands, dray queues and chain contexts share it. -/

namespace Sys2Proof.Machine

/-! ### The packet (R208) -/

/-- One 10-byte dimension. -/
def dimAt (bs : List Byte) (off : Nat) : Dim :=
  { count := leAt bs off 2, ss := sAt bs (off + 2), ds := sAt bs (off + 6) }

/-- The offset of dimension j ≥ 1 in a COPY packet and the EXT packets behind it. -/
def dimOffset (j : Nat) : Nat :=
  if j ≤ 3 then 28 + 10 * (j - 1) else if j ≤ 8 then 64 + 4 + 10 * (j - 4) else 128 + 4 + 10 * (j - 9)

/-- The copy of a packet's bytes, or none where it is malformed. The type and the phase are not looked at. -/
def copyOf (bs : List Byte) : Option CopyJob :=
  let b0 := leAt bs 0 1
  let d := leAt bs 1 1 % 16
  let x := leAt bs 1 1 / 16 % 4
  let mode := leAt bs 2 1
  let ext := if d ≤ 4 then 0 else if d ≤ 9 then 1 else 2
  if d = 0 ∨ 14 < d ∨ x ≠ ext ∨ 4 < mode then none
  else some
    { src := BitVec.ofNat 64 (leAt bs 8 8), dst := BitVec.ofNat 64 (leAt bs 16 8), dim0 := leAt bs 24 4
      dims := (List.range (d - 1)).map fun i => dimAt bs (dimOffset (i + 1))
      ordered := b0.testBit 7, arrival := b0.testBit 5, interrupt := b0.testBit 6, mode := mode
      expect := BitVec.ofNat 32 (leAt bs 60 4), ctr := BitVec.ofNat 32 (leAt bs 4 4), read := 0, flight := [], far := 0, adler := 1
      poison := false, met := false, loss := none, lostBytes := 0, lost := [] }

/-- Total bytes B. -/
def CopyJob.total (j : CopyJob) : Nat := j.dim0 * (j.dims.map fun (d : Dim) => d.count).prod

/-- Bytes landed: those read and no longer on their way, but for the bytes lost behind a failed link (R217, R220). -/
def CopyJob.landed (j : CopyJob) : Nat := j.read - (j.flight.map fun u => u.size).sum - j.lostBytes

/-- Bytes done in canonical order. -/
def CopyJob.done (j : CopyJob) : Nat := match j.flight with | u :: _ => u.pos | [] => j.read

/-- Every byte has landed or been accounted for. -/
def CopyJob.over (j : CopyJob) : Bool := j.read == j.total && j.flight.isEmpty

/-- The register's value before the packet (R210). -/
def CopyJob.start (j : CopyJob) (csumr : BitVec 32) : CopyJob := { j with adler := if j.mode = 2 ∨ j.mode = 3 then csumr else 1 }

/-- The checksum compare fails, or the packet met poison (R210). -/
def CopyJob.csumBad (j : CopyJob) : Bool := (j.mode == 3 || j.mode == 4) && (j.adler != j.expect || j.met)

/-- One byte of Adler-32 (RFC 1950). -/
def adlerByte (a : BitVec 32) (b : Byte) : BitVec 32 :=
  let lo := (a.toNat % 65536 + b.toNat) % 65521
  let hi := (a.toNat / 65536 + lo) % 65521
  BitVec.ofNat 32 (hi * 65536 + lo)

/-- Adler-32 continued over bytes. -/
def adler32 (a : BitVec 32) (bs : List Byte) : BitVec 32 := bs.foldl adlerByte a

/-- The next landing unit: its place in canonical order, source, destination and length. The unit is the part of a row that
lies in one aligned 128-byte line of the destination. -/
def CopyJob.nextUnit (j : CopyJob) : CopyUnit :=
  let row := j.read / j.dim0
  let off := j.read % j.dim0
  let at_ := fun (base : W64) (f : Dim → Int) =>
    (((base.toNat : Int) + levelSum row (j.dims.map fun (d : Dim) => (d.count, f d)) + off) % 2 ^ 64).toNat
  let dst := at_ j.dst Dim.ds
  { pos := j.read, src := at_ j.src Dim.ss, dst := dst, size := min (j.dim0 - off) (128 - dst % 128), data := none }

/-! ### Movement (R209) -/

/-- Some byte of a range does not lie in the own bank of the core that is charged for it, if there is one (R60). -/
def State.endFar (s : State) (m : Mover) (own : Option CoreId) (va n : Nat) : Bool :=
  match own with
  | some k => decide (0 < s.farFrom m k va n)
  | none => false

/-- The bytes of a unit that are charged: all of it where one of its ends is not the own bank. The source is looked at as it is read. -/
def State.unitFar (s : State) (m : Mover) (own : Option CoreId) (u : CopyUnit) : Nat :=
  if u.far || s.endFar m own u.dst u.size then u.size else 0

/-- A VA is a local destination: it lies in a bank or in pool memory that can be reached (R217). -/
def State.localEnd (s : State) (m : Mover) (va n : Nat) : Bool :=
  (cutRange 32 va n).any fun p =>
    match s.moverPlace m p.1 with
    | some (.pool pa _) => !s.poolLost pa
    | some (.bank _ _) => true
    | _ => false

/-- The destination sectors of bytes that will not arrive are poisoned where they are local (R217, R228). What lies behind a lost link stays as it
is; a piece that is held is waited for, and one that is refused stops a copy (`strict`) as any other access of it, and is passed over by a
gather, but for a copy-on-write page. -/
def State.poisonPieces (s : State) (m : Mover) (strict : Bool) (l : List (Nat × Nat)) : Except EStop State :=
  match l with
  | [] => .ok s
  | (va, n) :: t =>
    if s.lostEnd m va then s.poisonPieces m strict t
    else
      match s.moverCheck m va n .store with
      | .ok (.pool pa _) => State.poisonPieces (if s.poolLost pa then s else s.setPoison pa n) m strict t
      | .ok (.bank k off) => State.poisonPieces (s.setPoison (bankKey k off) n) m strict t
      | .ok _ => s.poisonPieces m strict t
      | .error (.trap x) => if strict || (x.code = 0x10 && x.kind = 2) then .error (.trap x) else s.poisonPieces m strict t
      | .error e => .error e

/-- The next unit is read; whether its source is far from the core that is charged is noted. -/
def State.copyRead (s : State) (m : Mover) (own : Option CoreId) (j : CopyJob) : Except EStop (State × CopyJob) :=
  let u := { j.nextUnit with far := s.endFar m own j.nextUnit.src j.nextUnit.size }
  let j' := { j with read := j.read + u.size }
  if s.moverCut m u.src u.size .load then .ok (s, { j' with flight := j.flight ++ [u], loss := some (j.loss.getD u.pos) })
  else
    match s.moverRead m u.src u.size with
    | .error e => .error e
    | .ok (s, bs) =>
      .ok (s, { j' with flight := j.flight ++ [{ u with data := some bs }]
                        adler := if j.mode = 0 then j.adler else adler32 j.adler (plain bs)
                        met := j.met || anyPoison bs })

/-- A unit in flight is lost behind a failed link (R217): its destination bytes are poisoned where they are local. -/
def State.copyLose (s : State) (m : Mover) (j : CopyJob) (i : Nat) (u : CopyUnit) : Except EStop (State × CopyJob × Nat) :=
  match s.poisonPieces m true (cutRange 32 u.dst u.size) with
  | .error e => .error e
  | .ok s' =>
    .ok (s', { j with flight := j.flight.eraseIdx i, poison := j.poison || s.localEnd m u.dst u.size, loss := some (min u.pos (j.loss.getD u.pos))
                      lostBytes := j.lostBytes + u.size }, 0)

/-- The window of a group outside the issuer's cluster, where a unit's destination lies in one. -/
def State.farWindow (s : State) (m : Mover) (u : CopyUnit) : Option (BitVec 8 × Nat) :=
  match s.moverCheck m u.dst u.size .store with
  | .ok (.mcast g off) => if (s.members g).all fun p => sameCluster p.2 m.agent.core then none else some (g, off)
  | _ => none

/-- A unit of a multicast reaches one member, or the member is skipped (R126, R231). -/
def State.unitMember (s : State) (m : Mover) (p : NodeId × CoreId) (off : Nat) (bs : List Carried) : State :=
  if s.receives m.agent p then
    let s := ((s.homeWrite (.bank p.2 off) (plain bs)).landPoison (bankKey p.2 off) bs)
    if m.view.isSome then s else s.mcastWatch [p] off (plain bs) m.who m.site
  else match m.view with | some k => s.setFlags k 0x20000 | none => s

/-- A unit to the window of a group outside the issuer's cluster lands at one of the members it has still to reach, whichever comes first; one
whose bank holds it comes later (R126). With its last copy the unit has landed. -/
def State.copyMember (s : State) (m : Mover) (own : Option CoreId) (j : CopyJob) (i : Nat) (u : CopyUnit) (bs : List Carried) (g : BitVec 8)
    (off : Nat) : Except EStop (State × CopyJob × Nat) :=
  let todo := u.todo.getD (s.members g)
  let use := fun p : NodeId × CoreId => [(Target.bank p.2 off, u.size)]
  let free := todo.filter fun p => !s.memberHolds m.agent p off u.size && s.portsAllow (use p) true
  match if u.todo.isSome then none else s.putWatch m [(.mcast g off, u.dst, u.size)] bs with
  | some (w, a) => .error (.watch w (BitVec.ofNat 64 a) true)
  | none =>
    if free = [] then .error .hold
    else
      let s := match m.view with | some k => if u.todo.isSome then s else (s.commit k).escape k | none => s
      let (n, s) := s.pick free.length
      let p := free.getD n (⟨0, 0⟩, m.agent.core)
      let left := todo.erase p
      let s := (s.usePorts (use p) true).unitMember m p off bs
      if left ≠ [] then .ok (s, { j with flight := j.flight.set i { u with todo := some left } }, 0)
      else
        let far := j.far + s.unitFar m own u
        let s := match own with | some k => s.chargeFar k j.far far | none => s
        .ok (s, { j with flight := j.flight.eraseIdx i, far := far, poison := j.poison || anyPoison bs }, u.size)

/-- A unit lands, or is lost; the third component is the byte count that has landed, for a post. -/
def State.copyLand (s : State) (m : Mover) (own : Option CoreId) (j : CopyJob) (i : Nat) (u : CopyUnit) :
    Except EStop (State × CopyJob × Nat) :=
  match u.data with
  | none => s.copyLose m j i u
  | some bs =>
    if s.moverCut m u.dst u.size .store then s.copyLose m j i u
    else
      match s.farWindow m u with
      | some (g, off) => s.copyMember m own j i u bs g off
      | none =>
        match s.moverWrite m u.dst bs with
        | .error e => .error e
        | .ok s' =>
          let far := j.far + s.unitFar m own u
          let s' := match own with | some k => s'.chargeFar k j.far far | none => s'
          .ok (s', { j with flight := j.flight.eraseIdx i, far := far, poison := j.poison || anyPoison bs }, u.size)

/-- Units that may be read and not yet landed. (DEDUCED, log entry 19.) -/
def copyWindow : Nat := 8

/-- One movement of a copy: the next unit is read, or a unit in flight lands, as `pick` says; with ordered landing, the
earliest. A read that is refused waits for the units in flight, and where `more` is false none is made. (DEDUCED, log entry 19.) -/
def State.copyStep (s : State) (m : Mover) (own : Option CoreId) (j : CopyJob) (pick : Nat) (more : Bool) :
    Except EStop (State × CopyJob × Nat) :=
  let m := { m with lost := j.lost }
  let n := j.flight.length
  let land := fun i => match j.flight[i]? with | some u => s.copyLand m own j i u | none => .ok (s, j, 0)
  let choice := pick % (n + 1)
  if more && decide (j.read < j.total ∧ n < copyWindow ∧ (choice = n ∨ n = 0)) then
    match s.copyRead m own j with
    | .ok (s, j) => .ok (s, j, 0)
    | .error e => if n = 0 then .error e else land 0
  else land (if j.ordered then 0 else choice % n)

/-! ### Gathers and scatters, element by element (R224 to R228) -/

/-- What one element does. -/
structure ElemOut where
  /-- The state. -/
  s : State
  /-- The job. -/
  job : GatherJob
  /-- Byte counts of landing units, for posts. -/
  posts : List Nat
  /-- FT units. -/
  ft : Nat
  /-- A tagged row. -/
  row : Option HeldRow
  /-- A deferred fault. -/
  fault : Option TrapInfo

/-- Index k of a list; one behind a failed link is lost, with cause 0x38. -/
def State.gatherIndex (s : State) (m : Mover) (j : GatherJob) (k : Nat) : Except EStop (State × Nat × Bool) :=
  let va := addr64 (j.list.toNat + j.iw * k)
  if s.moverCut m va j.iw .load then .error (.trap { code := 0x38 })
  else
  match s.moverRead m va j.iw with
  | .error e => .error e
  | .ok (s, bs) => .ok (s, leNat (plain bs), anyPoison bs)

/-- The least of indices noted so far. -/
def noteIndex (old : Option Nat) (k : Nat) : Option Nat := some (match old with | some i => min i k | none => k)

/-- Element k is accounted for: failed. -/
def GatherJob.failed (j : GatherJob) (k : Nat) (loss : Bool) : GatherJob :=
  { j with took := k :: j.took, missing := noteIndex j.missing k, loss := j.loss || loss }

/-- Element k has arrived. -/
def GatherJob.got (j : GatherJob) (k : Nat) (poison : Bool) : GatherJob :=
  { j with took := k :: j.took, arrived := j.arrived + 1, poison := j.poison || poison
           missing := if poison then noteIndex j.missing k else j.missing }

/-- Where element k of a gather lands. -/
def GatherJob.destOf (j : GatherJob) (k : Nat) : Nat := addr64 (j.other.toNat + j.e * k)

/-- Landing units of an element. -/
def elemUnits (va n : Nat) : List Nat := (cutRange 128 va n).map fun p => p.2

/-- The cause of an element's failure: 0x38 for a lost link, 0x03 for a save window (R16), 0x10 for any other (R228). -/
def elemFault (t : TrapInfo) : TrapInfo := if t.code = 0x38 then t else rowFault t

/-- A gather's element k fails: a tagged row arrives poisoned and tells the cause to its MGATHER (R248), an ordered element leaves its sectors
poisoned. -/
def State.gatherFail (s : State) (m : Mover) (j : GatherJob) (k : Nat) (t : TrapInfo) : Except EStop ElemOut :=
  let f := { t with info := if t.code = 0x38 then BitVec.ofNat 64 k else t.info }
  let loss := t.code == 0x38
  if j.pair ≠ 0 then
    .ok { s := s, job := j.failed k loss, posts := [], ft := 0, fault := some f
          row := some { pair := j.pair, tag := k, data := List.replicate 128 0, poison := true, pins := 0, cause := some t.code } }
  else
    match s.poisonPieces m false (cutRange 32 (j.destOf k) j.e) with
    | .error e => .error e
    | .ok s' =>
      .ok { s := s', job := { j.failed k loss with poison := j.poison || s.localEnd m (j.destOf k) j.e }
            posts := [], ft := 0, row := none, fault := some f }

/-- FT units of a range where it lies outside the own bank. -/
def State.rangeFt (s : State) (m : Mover) (va n : Nat) : Nat := ftUnits (s.moverFar m va n)

/-- Element k of a gather (R225). A read from the L2 waits for pinned-line entries; an ordered element keeps its own only until it
has landed, in the same step (R226). Copy-on-write on the destination, watches and holds are `EStop`s. -/
def State.gatherElem (s : State) (m : Mover) (j : GatherJob) (k : Nat) : Except EStop ElemOut :=
  match s.gatherIndex m j k with
  | .error (.trap t) => s.gatherFail m j k (elemFault t)
  | .error e => .error e
  | .ok (s1, idx, pi) =>
    let va := addr64 (j.table.toNat + idx * j.e)
    let pins := if m.view.isSome then s1.pinLines m va j.e else 0
    if s1.moverCut m va j.e .load then s1.gatherFail m j k { code := 0x38 }
    else if (match m.view with | some c => decide (256 < (s1.ctx c).pins + pins) | none => false) && pins != 0 then .error .hold
    else
      match s1.moverRead m va j.e with
      | .error (.trap t) => s1.gatherFail m j k (rowFault t)
      | .error e => .error e
      | .ok (s2, bs) =>
        let p := pi || anyPoison bs
        let ft := s1.rangeFt m va j.e
        if j.pair ≠ 0 then
          .ok { s := s2, job := j.got k p, posts := [], ft := ft, fault := none
                row := some { pair := j.pair, tag := k, data := plain bs, poison := p, pins := pins } }
        else
          let d := j.destOf k
          if s2.moverCut m d j.e .store then s2.gatherFail m j k { code := 0x38 }
          else
          match s2.moverWrite m d (bs.map fun b => (b.1, b.2 || pi)) with
          | .error (.trap t) =>
            if t.code = 0x10 ∧ t.kind = 2 then .error (.trap t) else s2.gatherFail m j k (rowFault t)
          | .error e => .error e
          | .ok s3 =>
            .ok { s := s3, job := j.got k p, posts := elemUnits d j.e, ft := max ft (s2.rangeFt m d j.e), row := none, fault := none }

/-- The sum of a unit of SCATADD (R227). -/
def scatSum (fmt : BitVec 4) (old v : BitVec 32) : BitVec 32 :=
  if fmt = 13 then old + v
  else if fmt = 1 then
    let lane := fun i : Nat =>
      let f := fun w : BitVec 32 => decodeFloat bf16 (w.extractLsb' (16 * i) 16).toNat
      rnd ((f old).add (f v) 0) bf16 0 true
    BitVec.ofNat 32 (lane 0 + 65536 * lane 1)
  else addFp32 old v

/-- The new bytes of the units of an element. -/
def State.scatNew (s : State) (fmt : BitVec 4) (l : List (Target × Nat × Nat)) (bs : List Carried) : List Byte :=
  match l with
  | [] => []
  | (t, _, _) :: rest =>
    leBytes 4 (scatSum fmt ((s.homeWord t 4).setWidth 32) (BitVec.ofNat 32 (leNat (plain (bs.take 4))))).toNat
      ++ s.scatNew fmt rest (bs.drop 4)

/-- Write the new bytes of units at their homes. -/
def State.scatPut (s : State) (l : List (Target × Nat × Nat)) (new : List Byte) (bs : List Carried) : State :=
  match l with
  | [] => s
  | (t, _, _) :: rest => ((s.homeWrite t (new.take 4)).landPoison t.key (bs.take 4)).scatPut rest (new.drop 4) (bs.drop 4)

/-- Add the 4-byte units of an element at their homes, each in one atomic step; every one is checked before the first. A unit whose line the
core's version holds is added to at its home all the same, and the version stays as it is; R227 does not speak of it. (DESIGN CHOICE, log entry
12.) -/
def State.scatAdd (s : State) (m : Mover) (fmt : BitVec 4) (va : Nat) (bs : List Carried) : Except EStop State :=
  match s.moverTargets m .atomic (cutRange 4 va bs.length) with
  | .error e => .error e
  | .ok l =>
    let new := s.scatNew fmt l bs
    match s.putWatch m l (clean new) with
    | some (j, a) => .error (.watch j (BitVec.ofNat 64 a) true)
    | none =>
      let use := l.map fun p => (p.1, p.2.2)
      if s.portsAllow use false && s.portsAllow use true then .ok (((s.usePorts use false).usePorts use true).scatPut l new bs) else .error .hold

/-- Element k of a scatter (R227). -/
def State.scatterElem (s : State) (m : Mover) (j : GatherJob) (k : Nat) : Except EStop ElemOut :=
  let fail := fun (s : State) (t : TrapInfo) =>
    let f := { t with info := if t.code = 0x38 then BitVec.ofNat 64 k else t.info }
    ({ s := s, job := j.failed k (t.code == 0x38), posts := [], ft := 0, row := none, fault := some f } : ElemOut)
  match s.gatherIndex m j k with
  | .error (.trap t) => .ok (fail s (elemFault t))
  | .error e => .error e
  | .ok (s1, idx, pi) =>
    let src := j.destOf k
    let va := addr64 (j.table.toNat + idx * j.e)
    if s1.moverCut m src j.e .load || s1.moverCut m va j.e .store then .ok (fail s1 { code := 0x38 })
    else
      match s1.moverRead m src j.e with
      | .error (.trap t) => .ok (fail s1 (rowFault t))
      | .error e => .error e
      | .ok (s2, bs) =>
        let bs := bs.map fun b => (b.1, b.2 || pi)
        let put := if j.kind = 2 then s2.scatAdd m j.fmts.2 va bs else s2.moverWrite m va bs
        match put with
        | .error (.trap t) => if t.code = 0x10 ∧ t.kind = 2 then .error (.trap t) else .ok (fail s2 (rowFault t))
        | .error e => .error e
        | .ok s3 =>
          .ok { s := s3, job := j.got k (anyPoison bs), posts := [], row := none, fault := none
                ft := max (s1.rangeFt m src j.e) (s2.rangeFt m va j.e) }

/-- One element of a gather or scatter. -/
def State.elemStep (s : State) (m : Mover) (j : GatherJob) (k : Nat) : Except EStop ElemOut :=
  let m := { m with lost := j.lost }
  if j.kind = 0 then s.gatherElem m j k else s.scatterElem m j k

end Sys2Proof.Machine
end

