-- ==== Sys2Proof/Machine/Transfer.lean ====
section
/-! DEFINITION. The T engine: launch words (R201, R218, R224 to R231), its queue (R123), landing units, gather replies, folds and
their barrier, multicasts, completion and records (R220). -/

namespace Sys2Proof.Machine

/-! ### Launching (R201) -/

/-- A launch word of T after its checks. -/
structure TLaunch where
  /-- What it does. -/
  op : TOp
  /-- FI. -/
  cost : Nat
  /-- Sticky bits. -/
  flags : BitVec 32 := 0
  /-- Landing units post to the EVENT signal slot (flag 5, r[3]). -/
  arrival : Bool := false
  /-- It takes the next number of tagged streams (R243). -/
  tagged : Bool := false
  /-- The element format that FMT names (R224). -/
  fmt : Option (BitVec 4) := none

/-- FI of a word that moves bytes. -/
def moveCost (bytes : Nat) : Nat := 1 + (bytes + 1023) / 1024

/-- An event slot, or an unbound one. -/
def slotOr (r : Regs) (n : Option (Fin 16)) : EventSlot := match n with | some i => r.ev[i.val] | none => EventSlot.unbound

/-- VAL of the trace record of a launch: the word's encoding, and in bits 20 to 16 the element format that FMT names on an indexed word (R224,
R335). (DEDUCED, log entry 14.) -/
def launchVal (enc : Word16) (fmt : Option (BitVec 4)) : W64 :=
  match fmt with
  | some f => enc.setWidth 64 + ((16 + f.setWidth 64) <<< 16)
  | none => enc.setWidth 64

/-- Put a checked command into the T queue. -/
def State.queueT (s : State) (w : Wd) (l : TLaunch) : State :=
  let k := w.k
  let te := (s.ctx k).te
  let seqn := te.seqn + 1
  let waits := match w.px.wait with | some n => [(n, (s.regs k).ev[n.val])] | none => []
  let fin := if l.arrival then { w.fin with sig := [] } else w.fin
  let c : TCmd :=
    { fenceT seqn w.pc fin with
        op := l.op, pops := w.px.pops, waits := waits, fmt := l.fmt
        sigSlot := if l.arrival then slotOr (s.regs k) w.px.signal else EventSlot.unbound }
  let s := s.modRegs k fun r => r.tokReserve w.px.pushes
  let rec0 : TRec := { status := seqn.setWidth 64 <<< 40, arrived := 0, missing := none, bytes := 0, adler := 0 }
  let s := s.modTe k fun e =>
    { e with queue := e.queue ++ [c], seqn := seqn, recs := (rec0 :: e.recs).take 32, pairs := if l.tagged then e.pairs + 1 else e.pairs }
  s.trace k 4 .t w.pc seqn 0 (launchVal w.enc l.fmt)

/-- A launch word of T: room for its tokens and in the queue, earlier stores performed, the version committed (R124, R200). -/
def launchT (w : Wd) (l : TLaunch) (s : State) : Res :=
  match (s.regs w.k).tokRoom w.px.pushes with
  | some ix => .wait (tokWait ix) l.cost s
  | none =>
    if 32 ≤ (s.ctx w.k).te.queue.length then .wait (s.tQueueWait w.k) l.cost s
    else
      let s := ((s.settle w.k w.q).commit w.k).escape w.k
      .done (s.queueT w l) [] { cost := l.cost, flags := l.flags }

/-- What launch words of T share. -/
def launchTSpec (pops : Nat) (rbits : BitVec 4) (fmt : Bool) : Spec :=
  { pops := pops, on := [.t], rbits := rbits, launch := true, acc := { fmt := fmt, event := true, blocks := true } }

/-- The bytes of T's shadow image. -/
def TEngine.image (e : TEngine) : List Byte := e.w.toList.flatMap fun v => leBytes 8 v.toNat

/-- DSET r: v →. -/
def execDset (r : BitVec 4) (s : State) : Host.Outcome State Fault Refusal :=
  .next (runWord (.dset r) r { pops := 1, on := [.t], rbits := 7 }
    (fun w a s => ok (s.modTe w.k fun e => { e with w := vput e.w (r8 r) (a.headD 0) }) []) s)

/-- DCOPY. -/
def execDcopy (r : BitVec 4) (s : State) : Host.Outcome State Fault Refusal :=
  .next (runWord (.dcopy r) r (launchTSpec 0 0 false)
    (fun w _ s =>
      let img := (s.ctx w.k).te.image
      match copyOf img with
      | none => .trap { code := 0x01, addr := w.enc.setWidth 64 }
      | some j =>
        if leAt img 0 1 / 2 % 16 ≠ 1 ∨ j.dims.length > 3 then .trap { code := 0x01, addr := w.enc.setWidth 64 }
        else launchT w { op := .copy j, cost := moveCost j.total, arrival := j.arrival } s) s)

/-- DCSUM: v f → o. -/
def execDcsum (r : BitVec 4) (s : State) : Host.Outcome State Fault Refusal :=
  .next (runWord (.dcsum r) r { pops := 2, pushes := 1, on := [.t] }
    (fun w a s =>
      let o := (s.ctx w.k).te.adler
      let s := if (a.getD 1 0).getLsbD 0 then s.modTe w.k fun e => { e with adler := (a.headD 0).setWidth 32 } else s
      ok s [o.setWidth 64]) s)

/-- The bytes of an index, with RFLD for the illegal code (R224). -/
def indexWidth (r : BitVec 4) : Nat × BitVec 32 :=
  match r.toNat % 4 with
  | 0 => (2, 0)
  | 1 => (4, 0)
  | 2 => (8, 0)
  | _ => (4, fRFLD)

/-- A gather or scatter before anything of it has been done. -/
def gatherJob (kind : Fin 3) (table list : W64) (n e : Nat) (other : W64) (iw : Nat) (arrival : Bool) (pair : Nat)
    (fmts : BitVec 4 × BitVec 4) : GatherJob :=
  { kind := kind, table := table, list := list, n := n, e := e, other := other, iw := iw, pair := pair, arrival := arrival
    fmts := fmts, took := [], arrived := 0, missing := none, poison := false, loss := false, listed := false, lost := [] }

/-- The limits of a count and of element bytes: the operand that breaks one. -/
def gatherLimits (n e : W64) : Option TrapInfo :=
  if 2 ^ 24 < n.toNat then some (badOperand n) else if e = 0 ∨ 4096 < e.toNat then some (badOperand e) else none

/-- The element format that FMT names on an indexed word, which is recorded and leaves the bytes unchanged (R224); code 15 falls back
to 0 with WFMT (R162). (DEDUCED, log entry 14.) -/
def indexedFmt (px : Px) : Option (BitVec 4) × BitVec 32 :=
  match px.fmt with
  | none => (none, 0)
  | some p => if p.1 = 15 then (some 0, fWFMT) else (some (BitVec.ofNat 4 p.1), 0)

/-- GATHERR r: t i n e d →. -/
def execGatherr (r : BitVec 4) (s : State) : Host.Outcome State Fault Refusal :=
  .next (runWord (.gatherr r) r (launchTSpec 5 15 true)
    (fun w a s =>
      let n := a.getD 2 0
      let e := a.getD 3 0
      let tagged := r.getLsbD 2
      let (iw, flags) := indexWidth r
      if tagged && isMerge w.k then .trap { code := 0x01, addr := w.enc.setWidth 64 }
      else
        match gatherLimits n e with
        | some t => .trap t
        | none =>
          if tagged && e != 128 then .trap (badOperand e)
          else
            let arrival := r.getLsbD 3 && !tagged
            let pair := if tagged then (s.ctx w.k).te.pairs + 1 else 0
            let j := gatherJob 0 (a.headD 0) (a.getD 1 0) n.toNat e.toNat (a.getD 4 0) iw arrival pair (0, 0)
            let (fmt, f2) := indexedFmt w.px
            launchT w { op := .gather j, cost := moveCost (n.toNat * e.toNat), flags := flags ||| f2, arrival := arrival, tagged := tagged
                        fmt := fmt } s) s)

/-- SCATTERW r: s i n e t →. -/
def execScatterw (r : BitVec 4) (s : State) : Host.Outcome State Fault Refusal :=
  .next (runWord (.scatterw r) r (launchTSpec 5 3 true)
    (fun w a s =>
      let n := a.getD 2 0
      let e := a.getD 3 0
      let (iw, flags) := indexWidth r
      match gatherLimits n e with
      | some t => .trap t
      | none =>
        let j := gatherJob 1 (a.getD 4 0) (a.getD 1 0) n.toNat e.toNat (a.headD 0) iw false 0 (0, 0)
        let (fmt, f2) := indexedFmt w.px
        launchT w { op := .gather j, cost := moveCost (n.toNat * e.toNat), flags := flags ||| f2, fmt := fmt } s) s)

/-- The formats of SCATADD: addend and location, with WFMT for any other pair (R227). -/
def scatFmts (px : Px) : (BitVec 4 × BitVec 4) × BitVec 32 :=
  match px.fmt with
  | none => ((0, 0), 0)
  | some p =>
    if p.1 = p.2 ∧ (p.1 = 0 ∨ p.1 = 1 ∨ p.1 = 13) then ((BitVec.ofNat 4 p.1, BitVec.ofNat 4 p.2), 0) else ((0, 0), fWFMT)

/-- SCATADD r: s i n e t →. -/
def execScatadd (r : BitVec 4) (s : State) : Host.Outcome State Fault Refusal :=
  .next (runWord (.scatadd r) r (launchTSpec 5 3 true)
    (fun w a s =>
      let n := a.getD 2 0
      let e := a.getD 3 0
      let t := a.getD 4 0
      let (iw, flags) := indexWidth r
      let (fmts, f2) := scatFmts w.px
      match gatherLimits n e with
      | some t => .trap t
      | none =>
        if e.toNat % 4 ≠ 0 then .trap (badOperand e)
        else if t.toNat % 4 ≠ 0 then .trap (badOperand t)
        else
          let j := gatherJob 2 t (a.getD 1 0) n.toNat e.toNat (a.headD 0) iw false 0 fmts
          launchT w { op := .gather j, cost := moveCost (n.toNat * e.toNat), flags := flags ||| f2
                      fmt := (indexedFmt w.px).1 } s) s)

/-! ### FOLD (R229, R230) -/

/-- A range of the own cluster's bank proper, in SCRATCH mode and within the grants: its bank keys, or the trap of R170. -/
def withBankRange (w : Wd) (s : State) (va : W64) (n cost : Nat) (x : Acc) (go : List (Nat × Nat) → Res) : Res :=
  let rec walk (l : List (Nat × Nat)) (acc : List (Nat × Nat)) (bank : Option CoreId) : Res :=
    match l with
    | [] => go acc
    | (a, m) :: t =>
      match s.access w.k (BitVec.ofNat 64 a) m 1 x with
      | .error (.trap i) => .trap i
      | .error .hold => .hold s cost
      | .error (.fold v) => .wait { reason := 15, beyond := false, object := v } cost s
      | .ok (.bank k off, _) =>
        if !sameCluster k w.k || bank.any (· != k) then .trap (privilege (BitVec.ofNat 64 a) 1)
        else if 0x1C0000 < off + m then .trap (privilege (BitVec.ofNat 64 a) 2)
        else walk t (acc ++ [(bankKey k off, m)]) (some k)
      | .ok _ => .trap (privilege (BitVec.ofNat 64 a) 1)
  walk (cutRange 4096 va.toNat n) [] none

/-- The operation of a FOLD; codes 6 and 7 are performed as 5 (R229). -/
def foldOp (r : BitVec 4) : BitVec 3 × BitVec 32 := if r.toNat % 8 = 6 ∨ r.toNat % 8 = 7 then (5, fRFLD) else (r.extractLsb' 0 3, 0)

/-- Fields of the geometry word. -/
def foldRows (g : W64) : Nat := bitsOf g.toNat 15 0
/-- RB. -/
def foldRb (g : W64) : Nat := bitsOf g.toNat 31 16
/-- e. -/
def foldE (g : W64) : Nat := 2 ^ bitsOf g.toNat 33 32
/-- DRB. -/
def foldDrb (g : W64) : Nat := bitsOf g.toNat 63 48

/-- The limits of a FOLD: the operand that breaks one. -/
def foldLimits (op : BitVec 3) (g x : W64) : Option TrapInfo :=
  let rb := foldRb g
  let s := foldRows g * rb
  let e := foldE g
  let m := x.toNat
  let d := if op = 4 then foldRows g * foldDrb g else s
  if bitsOf g.toNat 47 34 ≠ 0 ∨ foldRows g = 0 ∨ rb = 0 then some (badOperand g)
  else if (op = 2 ∨ op = 3) ∧ (m < 2 ∨ 16 < m) then some (badOperand x)
  else if (op = 0 ∨ op = 2 ∨ op = 3) ∧ rb % e ≠ 0 then some (badOperand g)
  else if (op = 2 ∨ op = 3) ∧ s % (m * e) ≠ 0 then some (badOperand g)
  else if op = 4 ∧ foldDrb g < rb then some (badOperand g)
  else if 1835008 < s ∨ 1835008 < d then some (badOperand g)
  else none

/-- FOLD r: s d g x →. -/
def execFold (r : BitVec 4) (s : State) : Host.Outcome State Fault Refusal :=
  .next (runWord (.fold r) r (launchTSpec 4 7 false)
    (fun w a s =>
      let g := a.getD 2 0
      let x := a.getD 3 0
      let (op, flags) := foldOp r
      match foldLimits op g x with
      | some t => .trap t
      | none =>
        let size := foldRows g * foldRb g
        let dsize := if op = 4 then foldRows g * foldDrb g else size
        let cost := moveCost size
        withBankRange w s (a.headD 0) size cost .load fun src =>
          withBankRange w s (a.getD 1 0) dsize cost .store fun dst =>
            withChecks w (if op = 1 then cutRange 4096 x.toNat (4 * foldRows g) else []) 1 .load cost s fun s =>
              launchT w { op := .fold { op := op, src := src, dst := dst, g := g, x := x, since := s.now, started := false,
                                           left := (size + 255) / 256, poison := false }
                          cost := cost, flags := flags } s) s)

/-- A queued fold. -/
def TCmd.foldJob (c : TCmd) : Option FoldJob := match c.op with | .fold j => some j | _ => none

/-- FOLDWAIT. -/
def execFoldwait (r : BitVec 4) (s : State) : Host.Outcome State Fault Refusal :=
  .next (runWord (.foldwait r) r { on := [.t], acc := { blocks := true } }
    (fun w _ s =>
      match (s.ctx w.k).te.queue.find? fun c => c.foldJob.isSome with
      | none => ok s []
      | some c => .wait { reason := 15, beyond := false, object := cmdObject .t c.seqn } 1 s) s)

/-! ### MCAST (R231) -/

/-- MCAST: s g o n →. -/
def execMcast (r : BitVec 4) (s : State) : Host.Outcome State Fault Refusal :=
  .next (runWord (.mcast r) r (launchTSpec 4 0 false)
    (fun w a s =>
      let o := a.getD 2 0
      let n := a.getD 3 0
      if n = 0 ∨ 1835008 < n.toNat then .trap (badOperand n)
      else if 0x1C0000 < o.toNat + n.toNat then .trap (badOperand o)
      else
        let j : McastJob := { src := a.headD 0, group := (a.getD 1 0).setWidth 8, off := o.toNat, n := n.toNat, members := none, sent := 0, poison := false }
        launchT w { op := .mcast j, cost := moveCost n.toNat } s) s)

/-! ### Records, DWAIT, DSTAT (R220) -/

/-- Bytes of a gather or scatter done in canonical order: its leading elements that are accounted for. -/
def GatherJob.done (j : GatherJob) : Nat := ((List.range j.took.length).takeWhile fun i => j.took.contains i).length * j.e

/-- The record of a command as it stands. -/
def TCmd.record (c : TCmd) (done : Bool) : TRec :=
  let bit := fun (b : Bool) (n : Nat) => if b then 2 ^ n else 0
  let st := fun (poison loss bad : Bool) =>
    BitVec.ofNat 64 (c.seqn.toNat * 2 ^ 40 + bit done 7 + bit c.mcSkip 6 + bit c.badIdx 5 + bit (done && !c.deferred.isEmpty) 3
      + bit poison 2 + bit loss 1 + bit bad 0)
  match c.op with
  | .copy j =>
    { status := st j.poison j.loss.isSome (done && j.csumBad), arrived := j.landed, missing := j.loss, bytes := j.done
      adler := if done ∧ j.mode ≠ 0 then j.adler else 0 }
  | .gather j => { status := st j.poison j.loss false, arrived := j.arrived, missing := j.missing, bytes := j.done, adler := 0 }
  | .fold j => { status := st j.poison false false, arrived := 0, missing := none, bytes := if done then foldRows j.g * foldRb j.g else 0, adler := 0 }
  | .mcast j =>
    let n := match j.members with | some l => (l.map fun m => m.2).foldl min j.n | none => 0
    { status := st j.poison false false, arrived := n, missing := none, bytes := n, adler := 0 }
  | _ => { status := st false false false, arrived := 0, missing := none, bytes := 0, adler := 0 }

/-- The record of the j-th latest command. -/
def Ctx.tRecord (x : Ctx) (j : Nat) : Option TRec :=
  match x.te.recs[j]? with
  | none => none
  | some r =>
    match x.te.queue.find? fun c => c.op != .fence && c.seqn.toNat == r.status.toNat / 2 ^ 40 with
    | some c => some (c.record false)
    | none => some r

/-- What DSTAT reads. -/
def TRec.item (r : TRec) (k : Nat) : W64 :=
  match k with
  | 0 => r.status
  | 1 => BitVec.ofNat 64 r.arrived
  | 2 => orOnes r.missing
  | 3 => BitVec.ofNat 64 r.bytes
  | 4 => r.adler.setWidth 64
  | _ => 0

/-- DSTAT: j k → v. (DEDUCED, log entry 17.) -/
def execDstat (r : BitVec 4) (s : State) : Host.Outcome State Fault Refusal :=
  .next (runWord (.dstat r) r { pops := 2, pushes := 1, on := [.c, .t] }
    (fun w a s =>
      let k := (a.getD 1 0).toNat
      match (s.ctx w.k).tRecord (a.headD 0).toNat with
      | some m => ok s [m.item k]
      | none => ok s [if k = 0 then 0x100 else 0]) s)

/-- DWAIT: n →. -/
def execDwait (r : BitVec 4) (s : State) : Host.Outcome State Fault Refusal :=
  .next (runWord (.dwait r) r { pops := 1, on := [.c, .t], acc := { blocks := true } }
    (fun w a s =>
      let q := (s.ctx w.k).te.queue.filter fun c => c.op != .fence
      if q.length ≤ (a.headD 0).toNat then ok s [] else .wait (s.tQueueWait w.k) 1 s) s)

/-! ### Order (R123) -/

/-- Addresses a command may access, as ranges of VAs, but for the table of a gather or scatter. Those of a fold are held by its barrier
(R230). -/
def TCmd.rangesAt (c : TCmd) : List (Int × Int) :=
  match c.op with
  | .copy j =>
    let h := fun f => levelHull (j.dims.map fun (d : Dim) => (d.count, f d))
    let a := h Dim.ss
    let b := h Dim.ds
    if j.total = 0 then []
    else [((j.src.toNat : Int) + a.1, j.src.toNat + a.2 + j.dim0), ((j.dst.toNat : Int) + b.1, j.dst.toNat + b.2 + j.dim0)]
  | .gather j =>
    if j.n = 0 then []
    else
      let own := if j.pair = 0 then [((j.other.toNat : Int), (j.other.toNat + j.n * j.e : Int))] else []
      ((j.list.toNat : Int), (j.list.toNat + j.n * j.iw : Int)) :: own
  | .fold j => if j.op = 1 then [((j.x.toNat : Int), (j.x.toNat + 4 * foldRows j.g : Int))] else []
  | .mcast _ => everywhere
  | .fence => []

/-- A command that holds every later one until every earlier one is complete. -/
def TCmd.isFence (c : TCmd) : Bool := c.op == .fence || !c.pops.isEmpty || !c.waits.isEmpty

/-- A copy with a checksum: they fold into T's register in queue order (R210). -/
def TCmd.summed (c : TCmd) : Bool := match c.op with | .copy j => j.mode != 0 | _ => false

/-- The elements of the table that a gather or scatter has still to access, modulo 2^64 (R224): those its list names as it stands, or any at all
where the list cannot be read. -/
def State.tableRanges (s : State) (k : CoreId) (j : GatherJob) : List (Int × Int) :=
  ((List.range j.n).filter fun i => !j.took.contains i).flatMap fun i =>
    match s.bytesAt k (addr64 (j.list.toNat + j.iw * i)) j.iw with
    | some bs => [rangeAt (addr64 (j.table.toNat + leNat bs * j.e)) j.e]
    | none => everywhere

/-- Addresses a command may access. -/
def State.tRanges (s : State) (k : CoreId) (c : TCmd) : List (Int × Int) :=
  c.rangesAt ++ match c.op with | .gather j => s.tableRanges k j | _ => []

/-- The places of a command, as intervals of keys of memory: those of its ranges, and a fold's own. -/
def State.tPlaces (s : State) (k : CoreId) (c : TCmd) : List (Int × Int) :=
  match c.op with
  | .fold j => (j.src ++ j.dst).map (fun r => rangeAt r.1 r.2) ++ s.placesOf k c.rangesAt
  | .mcast _ => []
  | _ => s.placesOf k (s.tRanges k c)

/-- Two commands share a byte (R123): at one address, or through two addresses of one byte. -/
def State.tShares (s : State) (k : CoreId) (e c : TCmd) : Bool :=
  rangesShare (s.tRanges k e) (s.tRanges k c) || (s.tPlaces k e != [] && spansShare (s.tPlaces k e) (s.tPlaces k c))

/-- Command i may start (R123). -/
def State.tCanStart (s : State) (k : CoreId) (i : Nat) (c : TCmd) : Bool :=
  let x := s.ctx k
  let before := x.te.queue.take i
  before.all (fun e => e.started) && (!c.isFence || before.isEmpty)
    && before.all (fun e => !s.tShares k e c)
    && (c.foldJob.isNone || before.all fun e => e.op != .fence && (match e.op with | .mcast _ => false | _ => e.foldJob.isNone))
    && (!c.summed || before.all fun e => !e.summed)
    && (x.regs.tokShort c.pops).isNone && c.waits.all fun p => s.slotMet p.2

/-- Change command i of the T queue. -/
def State.modT (s : State) (k : CoreId) (i : Nat) (f : TCmd → TCmd) : State :=
  s.modTe k fun e => { e with queue := e.queue.modify i f }

/-- The pops and waits of a command that starts; a checksum takes up T's register, and in modes 1 and 4 sets it to 1 first (R210). -/
def State.tBegin (s : State) (k : CoreId) (i : Nat) (c : TCmd) : State :=
  let s := s.modRegs k fun r => r.tokPop c.pops
  let s := c.waits.foldl (fun s p => s.bindingPass k p.1 p.2) s
  let a := (s.ctx k).te.adler
  let op := match c.op with | .copy j => .copy (j.start a) | o => o
  let s := match c.op with | .copy j => (if j.mode = 1 ∨ j.mode = 4 then s.modTe k fun e => { e with adler := 1 } else s) | _ => s
  s.modT k i fun c => { c with started := true, waits := [], pops := [], op := op }

/-- The T engine and the chain contexts of a core may make progress. -/
def State.tGoes (s : State) (k : CoreId) : Bool :=
  let c := s.core k
  c.enginesRun && !(s.die k.die).stoppedClk

/-- The first command that satisfies a test and may go on, started where it has not been; after a hard pre-emption has fallen due,
only a test that allows it is asked for (R308). -/
def State.tNextIf (s : State) (k : CoreId) (p : Nat → TCmd → Bool) : Option (Nat × TCmd × State) :=
  let ready := fun i (c : TCmd) => p i c && c.stop.isNone && (c.started || s.tCanStart k i c)
  if !s.tGoes k then none
  else
    match findIx (s.ctx k).te.queue 0 ready with
    | none => none
    | some (i, c) =>
      let s := if c.started then s else s.tBegin k i c
      match (s.ctx k).te.queue[i]? with
      | some c => some (i, c, s)
      | none => none

/-- The first command that satisfies a test and may go on, before a hard pre-emption falls due. -/
def State.tNext (s : State) (k : CoreId) (p : Nat → TCmd → Bool) : Option (Nat × TCmd × State) :=
  if (s.core k).preempt.isSome then none else s.tNextIf k p

/-- The engine reads the command it works on: an uncorrectable word of it stops the command with cause 0x31 (R326). -/
def State.tReads (s : State) (k : CoreId) (c : TCmd) (go : State → State) : State :=
  match (s.ctx k).regBad (queueWord .t c.seqn) with
  | some w => (s.countBad k w).engineTrap k .t c.seqn c.pc (regTrap w)
  | none => go (s.regFix k (queueWord .t c.seqn))

/-- The mover of a T command. -/
def State.tMover (s : State) (k : CoreId) (c : TCmd) : Mover := s.coreMover k .t c.seqn c.pc c.skip

/-- The state as command i sees it: the barriers of the core's own later folds do not hold its accesses. (DEDUCED, log entry 20.) -/
def State.beforeFolds (s : State) (k : CoreId) (i : Nat) : State :=
  s.modTe k fun e => { e with queue := e.queue.take i }

/-- Put the T queue back. -/
def State.withQueueOf (s old : State) (k : CoreId) : State := s.modTe k fun e => { e with queue := (old.ctx k).te.queue }

/-- An access of command i is not made (R259, R328). -/
def State.tRefused (s : State) (k : CoreId) (c : TCmd) (m : Mover) (row arrived : Nat) (e : EStop) : State :=
  match e with
  | .trap t =>
    s.engineTrap k .t c.seqn c.pc { t with rowp := BitVec.ofNat 64 (row % 2 ^ 32 + arrived % 2 ^ 32 * 2 ^ 32) }
  | .drain b => s.noteDrain k .t b
  | .hold => s
  | .watch j va wr => s.engineWatch k m row j va wr

/-- A deferred fault of a command; the first of each cause stands. -/
def State.tFault (s : State) (k : CoreId) (i : Nat) (t : TrapInfo) : State :=
  s.modT k i fun c => { c with deferred := keepFault c.deferred (s.record k .t c.seqn c.pc { t with cls := 2 }) }

/-- A post of n bytes of landing units to the command's slot. -/
def State.tPost (s : State) (k : CoreId) (c : TCmd) (n : Nat) : State :=
  if n = 0 ∨ c.sigSlot.addr = 0 then s else s.signalSlot k { c.sigSlot with add := BitVec.ofNat 24 n }

/-! ### Copies of T -/

/-- A landing unit of T's first copy (R209). Once a hard pre-emption is due no unit is read; those read land (R308). -/
def State.tCopy (s0 : State) (k : CoreId) (pick : Nat) : State :=
  let due := (s0.core k).preempt.isSome
  let can := fun _ (c : TCmd) => match c.op with | .copy j => !j.over && !(due && j.flight.isEmpty) | _ => false
  match s0.tNextIf k can with
  | none => s0
  | some (i, c, s) =>
    s.tReads k c fun s =>
    match c.op with
    | .copy j =>
      let m := s.tMover k c
      match (s.beforeFolds k i).copyStep m (some k) j pick (!due) with
      | .error e => s.tRefused k c m j.done j.landed e
      | .ok (s', j', n) =>
        let s := (s'.withQueueOf s k).modT k i fun c => { c with op := .copy j', skip := 0 }
        let s := if j.loss.isNone && j'.loss.isSome then s.tFault k i { code := 0x38, info := orOnes j'.loss } else s
        if j.arrival then s.tPost k c n else s
    | _ => s

/-! ### Gather replies (R225 to R228) -/

/-- The tagged rows of a pair that are held undelivered. -/
def Ctx.undelivered (x : Ctx) (pair : Nat) : Nat := (x.te.rowsOf pair).length

/-- A gather may read another element: fewer than 64 rows of a tagged one are held (R226). -/
def Ctx.mayRead (x : Ctx) (j : GatherJob) : Bool := j.took.length < j.n && (j.pair == 0 || x.undelivered j.pair < 64)

/-- A tagged row is held for its MGATHER, or discarded and counted where that is complete (R243). -/
def State.deliver (s : State) (k : CoreId) (h : HeldRow) : State :=
  let me := (s.ctx k).me
  let late := h.pair ≤ me.pairs && !me.queue.any fun c => c.pair == h.pair
  if late then
    s.modMe k fun e => { e with recs := e.recs.map fun r => if r.pair = h.pair then { r with nExtra := r.nExtra + 1 } else r }
  else
    let s := s.modTe k fun e => { e with held := e.held ++ [h] }
    s.modCtx k fun x => { x with pins := x.pins + h.pins }

/-- The element a gather or scatter takes next: ordered landing goes in order; otherwise any that is left. -/
def GatherJob.pick (j : GatherJob) (n : Nat) : Nat :=
  if j.kind = 0 ∧ j.pair = 0 then j.took.length
  else
    let left := (List.range j.n).filter fun i => !j.took.contains i
    left.getD (n % left.length) 0

/-- GATHER_REPLY (R225, R227): one element of the first gather or scatter arrives; `num` picks which. -/
def execGatherReply (s0 : State) : Host.Outcome State Fault Refusal :=
  let k := s0.arg.k
  let can := fun _ (c : TCmd) => match c.op with | .gather j => (s0.ctx k).mayRead j | _ => false
  match s0.tNext k can with
  | none => .next s0
  | some (i, c, s) =>
    .next (s.tReads k c fun s =>
    match c.op with
    | .gather j =>
      let m := s.tMover k c
      let n := j.pick s.arg.num
      match (s.beforeFolds k i).elemStep m j n with
      | .error e => s.tRefused k c m n j.arrived e
      | .ok o =>
        let list := if j.listed then 0 else s.rangeFt m j.list.toNat (j.n * j.iw)
        let s := ((o.s.withQueueOf s k).chargeFtUnits k (o.ft + list)).modT k i fun c =>
          { c with op := .gather { o.job with listed := true }, skip := 0 }
        let s := match o.fault with | some t => s.tFault k i t | none => s
        let s := match o.row with | some h => s.deliver k h | none => s
        if j.arrival then o.posts.foldl (fun s b => s.tPost k c b) s else s
    | _ => s)

/-! ### Multicasts (R126, R231) -/

/-- Every member of a group lies in a core's cluster. -/
def groupNear (k : CoreId) (l : List ((NodeId × CoreId) × Nat)) : Bool := l.all fun m => sameCluster m.1.2 k

/-- One unit of a multicast lands at one member, or the member is skipped. (DEDUCED, log entry 21.) -/
def State.mcastMember (s : State) (k : CoreId) (p : NodeId × CoreId) (off : Nat) (bs : List Carried) : State × Bool :=
  if s.receives (s.agent k) p then
    (((s.usePorts [(.bank p.2 off, bs.length)] true).homeWrite (.bank p.2 off) (plain bs)).landPoison (bankKey p.2 off) bs, false)
  else (s, true)

/-- One unit lands at members in turn. -/
def State.mcastAll (s : State) (k : CoreId) (l : List (NodeId × CoreId)) (off : Nat) (bs : List Carried) : State × Bool :=
  match l with
  | [] => (s, false)
  | p :: t =>
    let (s, a) := s.mcastMember k p off bs
    let (s, b) := State.mcastAll s k t off bs
    (s, a || b)

/-- A member that would be written holds the bytes back: its bank drains, a row of it is being darned, or a fold barrier holds the range
(R94, R230, R364). -/
def State.mcHeld (s : State) (k : CoreId) (l : List (NodeId × CoreId)) (off n : Nat) : Bool :=
  l.any fun p =>
    s.receives (s.agent k) p
      && (decide (0 < (s.core p.2).drain) || (s.core p.2).repair.holds off n || s.foldHeld p.2 off n)

/-- The landing unit at byte n of a multicast: its length. -/
def McastJob.unit (j : McastJob) (n : Nat) : Nat := min (j.n - n) (128 - (j.off + n) % 128)

/-- The bytes that have entered a cluster's broadcast tree in this cycle. -/
def ClusterSt.entered (c : ClusterSt) : Nat := ((c.tree.filter fun u => u.left == 12).map fun u => u.data.length).sum

/-- What a multicast keeps of members that have had a unit of n bytes, one of which has been skipped or none. -/
def State.mcTook (s : State) (k : CoreId) (i : Nat) (j : McastJob) (l : List ((NodeId × CoreId) × Nat)) (skip : Bool) : State :=
  let s := if skip then s.setFlags k fMCNONE else s
  s.modT k i fun c => { c with op := .mcast { j with members := some l }, mcSkip := c.mcSkip || skip, skip := 0 }

/-- A unit in a broadcast tree whose 12 cycles are over lands in every member of its group in this cycle (R126). -/
def State.landUnit (s : State) (u : TreeUnit) : State :=
  match findIx (s.ctx u.k).te.queue 0 fun _ c => c.op != .fence && c.seqn == u.seqn with
  | some (i, c) =>
    (match c.op with
     | .mcast j =>
       let l := j.members.getD []
       let (s, skip) := s.mcastAll u.k (l.map fun x => x.1) u.off u.data
       s.mcTook u.k i j (l.map fun x => (x.1, x.2 + u.data.length)) skip
     | _ => s)
  | none => s

/-- A cycle of a cluster's broadcast tree ends: the units in it come nearer, and those that have arrived land (R126). -/
def State.tickTree (s : State) (d : Die) (c : Cluster) : State :=
  let t := (s.cluster d c).tree
  let s := s.modCluster d c fun x => { x with tree := (t.filter fun u => decide (1 < u.left)).map fun u => { u with left := u.left - 1 } }
  (t.filter fun u => decide (u.left ≤ 1)).foldl (fun s u => s.landUnit u) s

/-- The watch that a unit of a multicast meets, at the addresses of its group's window in the identity space (R104, R328). (DEDUCED, log entry
28.) -/
def State.mcWatch (s : State) (m : Mover) (g : BitVec 8) (off : Nat) (bs : List Carried) : Option EStop :=
  let t := Target.mcast g off
  (s.putWatch m [(t, 31 * 2 ^ 52 + s.paOf t, bs.length)] bs).map fun x => .watch x.1 (BitVec.ofNat 64 x.2) true

/-- The next unit of a multicast to a group of the cluster enters the broadcast tree, at most 256 bytes in a cycle (R17, R126). -/
def State.mcSend (s : State) (k : CoreId) (i : Nat) (c : TCmd) (j : McastJob) (l : List ((NodeId × CoreId) × Nat)) : State :=
  let m := s.tMover k c
  let n := j.unit j.sent
  if 256 < (s.cluster k.die k.cluster).entered + n || s.mcHeld k (l.map fun x => x.1) (j.off + j.sent) n then s
  else
    match (s.beforeFolds k i).moverRead m (addr64 (j.src.toNat + j.sent)) n with
    | .error e => s.tRefused k c m j.sent j.sent e
    | .ok (s', bs) =>
      match s.mcWatch m j.group (j.off + j.sent) bs with
      | some e => s.tRefused k c m j.sent j.sent e
      | none =>
      let s := s'.withQueueOf s k
      let u : TreeUnit := { left := 12, k := k, seqn := c.seqn, group := j.group, off := j.off + j.sent, data := bs }
      let s := s.modCluster k.die k.cluster fun x => { x with tree := x.tree ++ [u] }
      s.modT k i fun c => { c with op := .mcast { j with sent := j.sent + n, poison := j.poison || anyPoison bs }, skip := 0 }

/-- The next unit of a multicast to a group outside the cluster lands at the member that `num` picks, in an order that is not fixed
(R126). A unit is checked against the watches before the first of its copies lands (R328). (DEDUCED, log entry 21.) -/
def State.mcFar (s : State) (k : CoreId) (i : Nat) (c : TCmd) (j : McastJob) (l : List ((NodeId × CoreId) × Nat)) (num : Nat) : State :=
  let left := l.filter fun m => decide (m.2 < j.n)
  match left[num % left.length]? with
  | none => s
  | some (p, at_) =>
    let m := s.tMover k c
    let n := j.unit at_
    if s.mcHeld k [p] (j.off + at_) n || !s.portsAllow [(.bank p.2 (j.off + at_), n)] true then s
    else
      match (s.beforeFolds k i).moverRead m (addr64 (j.src.toNat + at_)) n with
      | .error e => s.tRefused k c m at_ at_ e
      | .ok (s', bs) =>
        match if l.all fun x => decide (x.2 ≤ at_) then s.mcWatch m j.group (j.off + at_) bs else none with
        | some e => s.tRefused k c m at_ at_ e
        | none =>
        let s := s'.withQueueOf s k
        let (s, skip) := s.mcastMember k p (j.off + at_) bs
        s.mcTook k i { j with poison := j.poison || anyPoison bs } (l.map fun x => if x.1 = p then (x.1, x.2 + n) else x) skip

/-- MULTICAST_LANDING (R126): one landing unit of the first multicast enters the cluster's broadcast tree, which lands it in every member
in one and the same cycle, where the group lies within the cluster; elsewhere it lands in one member. (DEDUCED, log entry 21.) -/
def execMulticastLanding (s0 : State) : Host.Outcome State Fault Refusal :=
  let k := s0.arg.k
  let can := fun _ (c : TCmd) =>
    match c.op with
    | .mcast j =>
      (match j.members with
       | none => true
       | some l => if groupNear k l then decide (j.sent < j.n) && !l.isEmpty else l.any fun m => decide (m.2 < j.n))
    | _ => false
  match s0.tNext k can with
  | none => .next s0
  | some (i, c, s) =>
    .next (s.tReads k c fun s =>
    match c.op with
    | .mcast j =>
      match j.members with
      | none =>
        let l := (s.members j.group).map fun p => (p, 0)
        let s := s.chargeFtUnits k (ftUnits j.n)
        let s := if l.isEmpty then s.setFlags k fMCNONE else s
        s.modT k i fun c => { c with op := .mcast { j with members := some l } }
      | some l => if groupNear k l then s.mcSend k i c j l else s.mcFar k i c j l s.arg.num
    | _ => s)

/-! ### Folds (R229, R230) -/

/-- The bytes of bank ranges, with poison. -/
def State.foldRead (s : State) (l : List (Nat × Nat)) : List Carried :=
  l.flatMap fun r => (List.range r.2).map fun i => (s.mem.read (r.1 + i), s.poisoned (r.1 + i) 1)

/-- The bank and offset of a bank key. -/
def keyTarget (key : Nat) : Option Target :=
  match coreOf (bitsOf key 38 37) (bitsOf key 36 33) (bitsOf key 32 27) with
  | some k => some (.bank k (bitsOf key 20 0))
  | none => none

/-- The fold engine writes bytes into bank ranges at their homes, for the fold launched at a site (R329, R331). -/
def State.foldWrite (s : State) (site : Site) (l : List (Nat × Nat)) (bs : List Carried) : State :=
  match l with
  | [] => s
  | (key, n) :: rest =>
    let part := bs.take n
    let s :=
      match keyTarget key with
      | some t => (((s.homeWrite t (plain part)).landPoison key part).homeWatch (s.paOf t) (plain part) 0 site)
      | none => s
    State.foldWrite s site rest (bs.drop n)

/-- Bytes [i, i + n) of a list. -/
def cut {α : Type} (l : List α) (i n : Nat) : List α := (l.drop i).take n

/-- The destination bytes of a fold, from its source bytes and the index list's bytes; and whether an index was out of range. -/
def foldBytes (op : BitVec 3) (g x : W64) (src : List Carried) (idx : List Byte) : List Carried × Bool :=
  let rows := foldRows g
  let rb := foldRb g
  let e := foldE g
  let size := rows * rb
  match op.toNat with
  | 0 =>
    let c := rb / e
    ((List.range c).flatMap fun j => (List.range rows).flatMap fun i => cut src ((i * c + j) * e) e, false)
  | 1 =>
    let ix := fun k => leAt idx (4 * k) 4
    ((List.range rows).flatMap fun k => if ix k < rows then cut src (ix k * rb) rb else List.replicate rb (0, false),
      (List.range rows).any fun k => decide (rows ≤ ix k))
  | 2 =>
    let m := x.toNat
    let plane := size / m
    ((List.range (plane / e)).flatMap fun j => (List.range m).flatMap fun p => cut src (p * plane + j * e) e, false)
  | 3 =>
    let m := x.toNat
    ((List.range m).flatMap fun p => (List.range (size / m / e)).flatMap fun j => cut src ((j * m + p) * e) e, false)
  | 4 =>
    ((List.range rows).flatMap fun k => cut src (k * rb) rb ++ List.replicate (foldDrb g - rb) (x.setWidth 8, false), false)
  | _ => (src, false)

/-- The fold that a core has next, with its place in the queue. -/
def State.foldReady (s : State) (k : CoreId) : Option (Nat × TCmd × FoldJob) :=
  match findIx (s.ctx k).te.queue 0 fun i c => c.foldJob.isSome && c.stop.isNone && (c.started || s.tCanStart k i c) with
  | some (i, c) => c.foldJob.map fun j => (i, c, j)
  | none => none

/-- The core of a cluster whose fold arrived first. (DEDUCED, log entry 20.) -/
def State.firstFold (s : State) (d : Die) (c : Cluster) : Option (CoreId × Nat) :=
  s.cores.foldl (fun best x =>
    if x.1.die = d ∧ x.1.cluster = c ∧ s.tGoes x.1 ∧ (s.core x.1).preempt.isNone then
      match s.foldReady x.1, best with
      | some (_, _, j), some (_, t) => if j.since < t then some (x.1, j.since) else best
      | some (_, _, j), none => some (x.1, j.since)
      | none, _ => best
    else best) none

/-- No access that has been issued, and not yet performed, reaches ranges of keys: no pending store, no load whose answer is still to
come, and nothing in the cluster's broadcast tree (R230). -/
def State.accessed (s : State) (d : Die) (c : Cluster) (l : List (Nat × Nat)) : Bool :=
  let meets := fun (key n : Nat) => l.any fun r => decide (r.1 < key + n ∧ key < r.1 + r.2)
  let at_ := fun (t : Option Target) (n : Nat) =>
    match t with
    | some (.mcast g off) => (s.members g).any fun p => meets (bankKey p.2 off) n
    | some t => meets t.key n
    | none => false
  (s.cores.any fun x =>
      [x.2.ctx.c, x.2.ctx.m, x.2.ctx.v, x.2.ctx.t].any fun r =>
        r.stores.any fun p => at_ (s.storeTarget p) p.data.length)
    || (s.cluster d c).tree.any fun u => (s.members u.group).any fun p => meets (bankKey p.2 u.off) u.data.length

/-- FOLD_START (R230): the cluster's fold engine, if it is free, starts the fold that arrived first, once every earlier access to
its ranges is complete. -/
def execFoldStart (s : State) : Host.Outcome State Fault Refusal :=
  let d := s.arg.d
  let c := s.arg.c
  if (s.cluster d c).folding.isSome then .next s
  else
    match s.firstFold d c with
    | none => .next s
    | some (k, _) =>
      match s.foldReady k with
      | none => .next s
      | some (i, cmd, j) =>
        if s.accessed d c (j.src ++ j.dst) then .next s
        else
        .next (s.tReads k cmd fun s =>
          let s := if cmd.started then s else s.tBegin k i cmd
          let s := s.modT k i fun c => { c with op := .fold { j with started := true } }
          s.modCluster d c fun x => { x with folding := some k })

/-! ### Completion -/

/-- The deferred faults of a command as they are raised. -/
def TCmd.dueFault (c : TCmd) (now : Nat) : List TrapRec :=
  let m := c.record true
  let arr := m.arrived % 2 ^ 32
  c.deferred.map fun r =>
    { r with time := BitVec.ofNat 64 now
             rowp := if r.code = 0x38 then BitVec.ofNat 64 arr else BitVec.ofNat 64 (r.rowp.toNat % 2 ^ 32 + arr * 2 ^ 32)
             info := if r.code = 0x38 then orOnes m.missing else r.info }

/-- Command i is complete: its record, its deferred faults, its pushes and signals, and its counter, for which what it wrote is
committed first (R125, R201). -/
def State.tComplete (s : State) (k : CoreId) (i : Nat) (c : TCmd) : State :=
  let m := c.record true
  let s := s.modTe k fun e =>
    { e with queue := e.queue.eraseIdx i
             adler := match c.op with | .copy j => if j.mode = 0 then e.adler else j.adler | _ => e.adler
             recs := e.recs.map fun r => if c.op != .fence && r.status.toNat / 2 ^ 40 == c.seqn.toNat then m else r }
  let s := s.modCore k fun y => { y with pend := y.pend ++ c.dueFault s.now }
  let s := if c.op == .fence then s else s.trace k 5 .t c.pc c.seqn 0 m.status
  let s := s.finish k c.fin
  match c.op with
  | .copy j => if idIndex j.ctr = 0 then s else (s.commit k).decrement j.ctr 1
  | _ => s

/-- A command other than a fold has nothing left to do: a tagged gather's rows have all been delivered (R226). -/
def Ctx.tOver (x : Ctx) (c : TCmd) : Bool :=
  match c.op with
  | .copy j => j.over
  | .gather j => j.took.length == j.n && (j.pair == 0 || x.undelivered j.pair == 0)
  | .mcast j => (match j.members with | some l => l.all fun m => decide (j.n ≤ m.2) | none => false)
  | .fold _ => false
  | .fence => true

/-- T_COMMAND_COMPLETE (R201): the first command that has nothing left to do is complete. -/
def execTCommandComplete (s : State) : Host.Outcome State Fault Refusal :=
  let k := s.arg.k
  match s.tNext k fun _ c => (s.ctx k).tOver c with
  | none => .next s
  | some (i, c, s) => .next (s.tReads k c fun s => s.tComplete k i c)

/-- The fold that runs for a core, with its place in the queue. -/
def Ctx.running (x : Ctx) : Option (Nat × TCmd × FoldJob) :=
  match findIx x.te.queue 0 fun _ c => (match c.foldJob with | some j => j.started | none => false) with
  | some (i, c) => c.foldJob.map fun j => (i, c, j)
  | none => none

/-- FOLD_COMPLETE (R229): at 256 bytes per cycle; every source byte, and the index list, is read before any destination byte is written; the barrier is
released. An index list that cannot be read stops the command row-precisely. -/
def execFoldComplete (s : State) : Host.Outcome State Fault Refusal :=
  let d := s.arg.d
  let cl := s.arg.c
  match (s.cluster d cl).folding with
  | none => .next s
  | some k =>
    let free := fun s : State => s.modCluster d cl fun x => { x with folding := none }
    match (s.ctx k).running with
    | none => .next (free s)
    | some (i, c, j) =>
      if 0 < j.left then .next s
      else
      let m := s.tMover k c
      let idx := if j.op = 1 then (s.beforeFolds k i).moverRead m j.x.toNat (4 * foldRows j.g) else .ok (s, [])
      match idx with
      | .error .hold => .next s
      | .error (.drain b) => .next (s.noteDrain k .t b)
      | .error e =>
        let s := s.modT k i fun c => { c with op := .fold { j with started := false } }
        .next (free (s.tRefused k c m 0 0 e))
      | .ok (s', ib) =>
        let s := s'.withQueueOf s k
        let (bs, bad) := foldBytes j.op j.g j.x (s.foldRead j.src) (plain ib)
        let s := s.foldWrite { q := .t, pc := c.pc, seqn := c.seqn } j.dst bs
        let own := fun l : List (Nat × Nat) => l.all fun p => match keyTarget p.1 with | some (.bank b _) => b == k | _ => true
        let far := if own j.src && own j.dst then 0 else ftUnits (foldRows j.g * foldRb j.g)
        let list := if j.op = 1 then ftUnits (s.moverFar m j.x.toNat (4 * foldRows j.g)) else 0
        let c := { c with badIdx := bad, op := .fold { j with poison := anyPoison bs } }
        .next (free ((s.chargeFtUnits k (far + list)).tComplete k i c))

end Sys2Proof.Machine
end

