-- ==== Sys2Proof/Machine/Chains.lean ====
section
/-! DEFINITION. Carriage chains (R221 to R223): the chain words, and a context's life from one entry to the next. -/

namespace Sys2Proof.Machine

/-! ### Chain contexts -/

/-- A chain context of a core. -/
def State.chainOf (s : State) (k : CoreId) (x : Fin 4) : Chain := (s.ctx k).chain[x.val]

/-- Change a chain context. -/
def State.modChain (s : State) (k : CoreId) (x : Fin 4) (f : Chain → Chain) : State :=
  s.modCtx k fun c => { c with chain := vput c.chain x (f c.chain[x.val]) }

/-- The code of a state in CHSTAT. -/
def chainCode (st : ChainSt) : Nat :=
  match st with
  | .never => 0
  | .running => 1
  | .waiting => 2
  | .ended => 3
  | .stopped => 4
  | .suspended => 5

/-- The mover of a chain context: the node's address space and grants, at the homes. -/
def State.chainMover (s : State) (k : CoreId) (c : Chain) : Mover :=
  { agent := s.agent k, view := none, q := .t, seqn := 0, pc := c.pc, skip := 0, who := s.chainWho k c.entry }

/-- A little-endian field of an entry. -/
def Chain.at (c : Chain) (off n : Nat) : Nat := leAt c.img off n

/-- FLAGS. -/
def Chain.flags (c : Chain) : Nat := c.at 0x60 8

/-- Write a little-endian value at a VA of the node, for the engine. -/
def State.chainPut (s : State) (m : Mover) (va : W64) (n v : Nat) : Except EStop State := s.moverWrite m va.toNat (clean (leBytes n v))

/-- A context starts at an entry. -/
def Chain.startAt (c : Chain) (e : W64) (pc : VA) (q : Seq) (fin : Fin') : Chain :=
  { c with st := .running, entry := e, img := [], job := none, met := false, pc := pc, q := q, faults := [], fin := fin }

/-! ### The chain words (R223) -/

/-- A context number on the stack. -/
def chainIx (v : W64) : Fin 4 := ⟨v.toNat % 4, Nat.mod_lt _ (by decide)⟩

/-- CHKICK: k e → st. An entry address on the stack is checked in the order of R170. (DEDUCED, log entry 22.) -/
def execChkick (r : BitVec 4) (s : State) : Host.Outcome State Fault Refusal :=
  .next (runWord (.chkick r) r { pops := 2, pushes := 1, on := [.c, .t], acc := { event := s.cur.2 == .t, blocks := true } }
    (fun w a s =>
      let x := chainIx (a.headD 0)
      let e := a.getD 1 0
      let c := s.chainOf w.k x
      let done := fun (s : State) (st : W64) =>
        .done s [st] { deferred := true, after := fun s => s.finish w.k { push := w.fin.push, sig := [], unbound := false } }
      let go := fun (s : State) (e : W64) => done (s.modChain w.k x fun c => c.startAt e w.pc w.q { w.fin with push := [] }) 0
      let busy := c.active || c.st == .suspended
      if e ≠ 0 then withAccess w s e 128 128 .load 1 fun _ _ => if busy then done s 1 else go s e
      else if busy then done s 1
      else
        match c.st with
        | .never => done s 2
        | .stopped => go s c.entry
        | _ =>
          let va := c.entry + 0x40
          withAccess w s va 8 8 .load 1 fun t s =>
            let bs := s.viewBytes w.k t 8
            withWatch w s va bs false fun _ => withConsume w s t 8 fun s =>
              let n := BitVec.ofNat 64 (leNat bs)
              let s := s.chargeFt w.k t 8
              if n = 0 then done s 2 else go s n) s)

/-- CHLINK: a n → f. -/
def execChlink (r : BitVec 4) (s : State) : Host.Outcome State Fault Refusal :=
  .next (runWord (.chlink r) r { pops := 2, pushes := 1, on := [.c, .t] }
    (fun w a s =>
      let e := a.headD 0
      let n := a.getD 1 0
      withAccess w s e 128 128 .atomic 1 fun _ _ =>
        withAccess w s (e + 0x40) 64 8 .atomic 1 fun t s =>
          let s := ((s.settle w.k w.q).commit w.k).escape w.k
          withWatch w s (e + 0x40) (leBytes 8 n.toNat) true fun _ => withConsume w s (t.add 0x28) 8 fun s =>
            let nrd := (s.homeWord (t.add 0x28) 8).getLsbD 7
            ok ((s.homeWrite t (leBytes 8 n.toNat)).chargeFt w.k t 8) [if nrd then 0 else 1]) s)

/-- CHSTAT: k → v. -/
def execChstat (r : BitVec 4) (s : State) : Host.Outcome State Fault Refusal :=
  .next (runWord (.chstat r) r { pops := 1, pushes := 1, on := [.c, .t] }
    (fun w a s =>
      let c := s.chainOf w.k (chainIx (a.headD 0))
      ok s [BitVec.ofNat 64 (c.entry.toNat % 2 ^ 57 / 128 * 128 + chainCode c.st)]) s)

/-! ### Entries (R222) -/

/-- A context's access is refused: it is suspended under the COPY rules of R217, with a trap to the Ostler. -/
def State.chainStop (s : State) (k : CoreId) (x : Fin 4) (done arrived : Nat) (e : EStop) : State :=
  match e with
  | .trap t =>
    let c := s.chainOf k x
    let r := s.record k c.q 0 c.pc
      { t with cls := 1, rowp := BitVec.ofNat 64 (done % 2 ^ 32 + arrived % 2 ^ 32 * 2 ^ 32), who := s.chainWho k c.entry }
    (s.modChain k x fun c => { c with st := .suspended }).takeRecord k r
  | .drain b => s.noteDrain k (s.chainOf k x).q b
  | .hold => s
  | .watch _ _ _ => s

/-- A context comes to an end: ended or stopped, with its signal (R223). -/
def State.chainEnd (s : State) (k : CoreId) (x : Fin 4) (st : ChainSt) : State :=
  let fin := (s.chainOf k x).fin
  (s.modChain k x fun c => { c with st := st, img := [], job := none, met := false, fin := Fin'.none }).finish k fin

/-- The entry's wait is met, or it has none; a wait word that cannot be read is a fault of the entry's (R217, R222). -/
def State.chainMet (s : State) (m : Mover) (c : Chain) : Except EStop Bool :=
  if !c.flags.testBit 0 then .ok true
  else
    let va := BitVec.ofNat 64 (c.at 0x48 8)
    match s.check m.agent [] va 8 8 .load with
    | .ok (t, _) => .ok (genReached (signalGen (s.homeWord t 8)) (BitVec.ofNat 16 (c.at 0x50 2)))
    | .error st => .error (s.eStop m.agent.root [] va .load st)

/-- A deferred fault of an arrival post of the entry: the first of each cause is kept (R211). -/
def Chain.noteFault (c : Chain) (code : BitVec 8) (va : W64) : Chain :=
  if c.faults.any fun f => f.1 == code then c else { c with faults := c.faults ++ [(code, va)] }

/-- A new chain entry may begin: no yield or hard pre-emption is under way (R222). -/
def State.chainMayStart (s : State) (k : CoreId) : Bool :=
  s.tGoes k && (s.core k).preempt.isNone && !(s.core k).yielding

/-- CHAIN_ENTRY_START (R222): STATUS is cleared and the entry read; a malformed one stops the context; once its wait is met, its
copy starts. (DEDUCED, log entry 22.) -/
def execChainEntryStart (s : State) : Host.Outcome State Fault Refusal :=
  let k := s.arg.k
  let x := s.arg.x
  let c := s.chainOf k x
  if !c.active || c.job.isSome || !s.chainMayStart k then .next s
  else
    let m := s.chainMover k c
    let begin := fun (s : State) (c : Chain) =>
      match copyOf c.img with
      | some j =>
        match s.chainMet m c with
        | .ok true =>
          s.modChain k x fun y =>
            { c with st := .running, job := some (j.start y.adler), met := true, adler := if j.mode = 1 ∨ j.mode = 4 then 1 else y.adler }
        | .ok false => s.modChain k x fun _ => { c with st := .waiting }
        | .error e => (s.modChain k x fun _ => c).chainStop k x 0 0 e
      | none => s
    if !c.img.isEmpty then .next (begin s c)
    else
      match s.chainPut m (c.entry + 0x68) 8 0 with
      | .error e => .next (s.chainStop k x 0 0 e)
      | .ok s1 =>
        match s1.moverRead m c.entry.toNat 128 with
        | .error e => .next (s.chainStop k x 0 0 e)
        | .ok (s2, bs) =>
          let img := plain bs
          let bad :=
            match copyOf img with
            | none => true
            | some j => decide (3 < j.dims.length) || leAt img 0 1 / 2 % 16 != 1 || decide (8 ≤ leAt img 0x60 8)
          if bad then
            match s2.chainPut m (c.entry + 0x68) 8 0x20 with
            | .error e => .next (s.chainStop k x 0 0 e)
            | .ok s3 => .next (s3.chainEnd k x .stopped)
          else .next (begin s2 { c with img := img })

/-- A landing unit of a context's copy (R209); a refusal suspends the context; while the post of its bytes is held, it does not land. Of flag 5
in an entry R222 says nothing but that bytes 58 and 59 are ignored: each unit's bytes are posted to POSTA where POSTV is set, besides POSTADD at
the end. (DESIGN CHOICE, log entry 22.) -/
def State.chainCopy (s : State) (k : CoreId) (x : Fin 4) (pick : Nat) : State :=
  let c := s.chainOf k x
  match c.st, c.job with
  | .running, some j =>
    if j.over || !s.tGoes k then s
    else
      match s.copyStep (s.chainMover k c) (some k) j pick true with
      | .error e => s.chainStop k x j.done j.landed e
      | .ok (s', j', n) =>
        let u := s'.modChain k x fun c => { c with job := some j' }
        if j.arrival && n != 0 && c.flags.testBit 1 then
          let va := BitVec.ofNat 64 (c.at 0x58 8)
          match u.postVa (s.agent k) va (BitVec.ofNat 24 n) (s.chainWho k c.entry) (s.chainMover k c).site with
          | .done u => u
          | .skip code => u.modChain k x fun c => c.noteFault code va
          | .held => s
        else u
  | _, _ => s

/-- CHAIN_ENTRY_COMPLETE (R222): STATUS, the post, which where it is held keeps the entry incomplete, the counter, and the one atomic step that
reads NEXT. A NEXT that is not aligned to 128 bytes R221 leaves open: the entry at that address runs. (DESIGN CHOICE, log entry 22.) -/
def execChainEntryComplete (s : State) : Host.Outcome State Fault Refusal :=
  let k := s.arg.k
  let x := s.arg.x
  let c := s.chainOf k x
  match c.st, c.job with
  | .running, some j =>
    if !j.over || !s.tGoes k then .next s
    else
      let m := s.chainMover k c
      match s.moverCheck m (c.entry + 0x40).toNat 64 .atomic with
      | .error (.trap t) => .next (s.chainStop k x j.done j.landed (.trap t))
      | .error _ => .next s
      | .ok t =>
        let va := BitVec.ofNat 64 (c.at 0x58 8)
        let post := fun s : State =>
          if c.flags.testBit 1 then s.postVa m.agent va (BitVec.ofNat 24 (c.at 0x54 3)) m.who m.site else .done s
        match post s with
        | .held => .next s
        | first =>
        let c := match first with | .skip code => c.noteFault code va | _ => c
        let bit := fun (b : Bool) (n : Nat) => if b then 2 ^ n else 0
        let bits : Nat := 1 + bit j.poison 3 + bit j.loss.isSome 2 + bit j.csumBad 1 + bit (!c.faults.isEmpty || j.loss.isSome) 4
          + j.total % 2 ^ 32 * 2 ^ 32
        let status := fun (s : State) (v : Nat) =>
          (s.homeWrite (t.add 0x28) (leBytes 8 v)).homeWatch (s.paOf t + 0x28) (leBytes 8 v) m.who m.site
        let s1 := status s bits
        let s1 := match post s1 with | .done s1 => s1 | _ => s1
        let s1 := s1.decrement j.ctr 1
        let rep := fun (s : State) (code : BitVec 8) (a i : W64) =>
          s.defer k c.q 0 c.pc { code := code, addr := a, info := i, rowp := BitVec.ofNat 64 (j.total % 2 ^ 32), who := m.who }
        let s1 := c.faults.foldl (fun s1 f => rep s1 f.1 f.2 0) s1
        let s1 := match j.loss with | some i => rep s1 0x38 0 (BitVec.ofNat 64 i) | none => s1
        let nx : W64 := s1.homeWord t 8
        let last : Bool := c.flags.testBit 2 || nx == 0
        let s1 := status s1 (bits + 0x80 + bit last 6)
        let s1 := s1.modChain k x fun c => { c with adler := if j.mode = 0 then c.adler else j.adler }
        if last then .next (s1.chainEnd k x .ended)
        else .next (s1.modChain k x fun c => { c with entry := nx, img := [], job := none, met := false, faults := [] })
  | _, _ => .next s

end Sys2Proof.Machine
end

