-- ==== Sys2Proof/Machine/Fare.lean ====
section
/-! DEFINITION. The fare words and the events of fare and waiting: FARERD, FARETOP, STATION, YIELD, the Ostler's grant, the
charge of blocked cycles, and the expiry of waits (R60 to R70, R193, R247). -/

namespace Sys2Proof.Machine

/-- FARERD r: → v, after the word's own charge. -/
def execFarerd (r : BitVec 4) (s : State) : Host.Outcome State Fault Refusal :=
  .next (runWord (.farerd r) r { pushes := 1, rbits := 1 }
    (body0 fun w s => BitVec.ofInt 64 (if r.getLsbD 0 then (s.regs w.k).ft else s.fiAfter w 1)) s)

/-- FARETOP r: q → g (R64). With TOPR the grant is made at once; without it the word waits for the Ostler's policy. The move of fare
between pool and register is no access that FT is charged for, as at HALT. -/
def execFaretop (r : BitVec 4) (s : State) : Host.Outcome State Fault Refusal :=
  .next (runWord (.faretop r) r { pops := 1, pushes := 1, on := [.c], rbits := 1, acc := { blocks := true } }
    (fun w a s =>
      let q := (a.headD 0).toInt
      let pool := match s.nodeOf w.k with | some n => n.desc.pool | none => 0
      if q ≤ 0 ∨ pool = 0 then ok s [0]
      else
        withAccess w s pool 32 32 .atomic 1 fun t s =>
          if s.right w.k 0 then
            let ft := r.getLsbD 0
            let reg := if ft then (s.regs w.k).ft else s.fiAfter w 1
            let off := if ft then 8 else 0
            let have_ := s.poolField t off
            let g := grantOf q have_ reg
            let bytes := fun v : Int => leBytes 8 (BitVec.ofInt 64 v).toNat
            let field := pool + BitVec.ofNat 64 off
            withWatch w s field (bytes have_) false fun _ => withWatch w s field (bytes (have_ - g)) true fun _ =>
            ok (s.moveFare w.k t ft g) [BitVec.ofInt 64 g]
          else .wait { reason := 4, beyond := true, object := pool } 1 s) s)

/-- FARETOP_POLICY_GRANT (R64): the Ostler grants `num`, within the bound, to the FARETOP that waits on C of core `k`; the
grant moves in one step and FARETOP returns it. -/
def execFaretopPolicyGrant (s : State) : Host.Outcome State Fault Refusal :=
  let k := s.arg.k
  let x := s.seq k .c
  match x.held, s.nodeOf k with
  | some (.faretop r), some n =>
    match s.poolTarget n k with
    | none => .next s
    | some t =>
      let ft := r.getLsbD 0
      let reg := if ft then (s.regs k).ft else (s.regs k).fi
      let g := grantOf (min s.arg.num (x.stack.headD 0).toInt) (s.poolField t (if ft then 8 else 0)) reg
      let px := resolvePx .c (isMerge k) { blocks := true } x.pfx
      let s := (s.moveFare k t ft g).setFlags k (px.flags ||| flagIf (rUnused r 1) fRFLD)
      .next (s.complete k .c 1 [BitVec.ofInt 64 g] (wordOf (.faretop r)) {})
  | _, _ => .next s

/-! ### Stations (R63) -/

/-- A yield's drain is over: M, V and T stand at a boundary, every command is complete and every result has landed. -/
def State.yieldReady (s : State) (k : CoreId) : Bool :=
  let x := s.ctx k
  x.m.canStop && x.v.canStop && x.t.canStop && x.enginesIdle && x.landings.isEmpty && s.treeClear k && x.chain.toList.all fun c => !c.busy

/-- The save of a yield, with its trap record (cause 0x22; INFO 0 station, 1 YIELD). -/
def State.yieldSave (s : State) (k : CoreId) (keep : W64) (info : W64) (pc : VA) : State :=
  let r := s.record k .c 0 pc { code := 0x22, info := info }
  s.saveCore k 1 0x22 (some keep) (some r)

/-- Every other core of the node takes a hard pre-emption with cause 0x22 (R63). -/
def State.yieldGang (s : State) (k : CoreId) : State :=
  ((s.gangOf k).filter (· != k)).foldl (fun s j => s.modCore j fun c => { c with preempt := askPreempt c.preempt 0x22 }) s

/-- STATION and YIELD: the version is committed; a task that is due, or any with YIELD, drains and is saved. -/
def yieldBody (always : Bool) : Wd → List W64 → State → Res := fun w a s =>
  let pc := (s.seq w.k w.q).trapPc
  let keep := a.headD 0
  if (s.core w.k).yielding then
    if s.yieldReady w.k then
      .done s [] { after := fun s => s.yieldSave w.k keep (if always then 1 else 0) pc }
    else .hold s
  else
    let s := ((s.settle w.k w.q).commit w.k).escape w.k
    if always || decide (s.fiAfter w 1 ≤ 0) || decide ((s.regs w.k).ft ≤ 0) then
      .hold ((s.yieldGang w.k).modCore w.k fun c => { c with yielding := true })
    else ok s []

/-- STATION: k →. -/
def execStation (r : BitVec 4) (s : State) : Host.Outcome State Fault Refusal :=
  .next (runWord (.station r) r { pops := 1, on := [.c], ban := true } (fun w a s => yieldBody false w a s) s)

/-- YIELD: k →. -/
def execYield (r : BitVec 4) (s : State) : Host.Outcome State Fault Refusal :=
  .next (runWord (.yield r) r { pops := 1, on := [.c], ban := true } (fun w a s => yieldBody true w a s) s)

/-! ### Blocked words (R60, R65, R68, R69) -/

/-- Cycles of 10 ms of wall time at the rated clock (R22, R69). -/
def watchdogCycles : Nat := 22500000

/-- BLOCKED_CYCLE_CHARGE (R60): 256 further cycles of a blocked word charge 1 FI, while FI is positive; the charge that brings FI to 0 makes the
wait a pre-emption point (R65, R66). Those of a drain hold charge 1 FI whatever FI is (R66, R94). -/
def execBlockedCycleCharge (s : State) : Host.Outcome State Fault Refusal :=
  let k := s.arg.k
  let q := s.arg.q
  if (s.core k).yielding then .next s
  else
    match (s.seq k q).wait with
    | some w =>
      if w.blocked % 256 = 0 ∧ 0 < w.blocked ∧ (w.reason = 0 ∨ 0 < (s.regs k).fi) then
        let s := s.chargeFi k 1
        if w.reason = 0 then .next s else .next (s.duePoint k)
      else .next s
    | none => .next s

/-- The position of a sequencer: number 0, its code and the PC at which it stands; a parked one stands at its RVZ (R68). -/
def Ctx.position (x : Ctx) (p : Seq) : Nat × Seq × VA :=
  (0, p, if (x.seq p).run = .parked then (x.seq p).pc - 2 else (x.seq p).trapPc)

/-- The producer where the spec's machine has none to name: number 0, sequencer C, PC 0. (DESIGN CHOICE, log entry 53.) -/
def noProducer : Nat × Seq × VA := (0, .c, 0)

/-- Who fills or frees a tile that a word waits for (R33, R34): the oldest TLD or TST on it, the command that has it lent, the MREADA that
fills it (R255), or V, whose port is bound to it. -/
def Ctx.tileProducer (x : Ctx) (t : BitVec 4) : Nat × Seq × VA :=
  match x.moves.find? fun m => m.tile == t with
  | some m => (0, m.q, m.pc)
  | none =>
    let fills := fun c : MCmd => match c.op with | .readA u _ _ => u == t | _ => false
    match x.me.queue.find? fun c => fills c || (c.op != .fence && x.lent.any fun l => l.tile == t && l.seqn == c.seqn) with
    | some c => (c.seqn.toNat, .m, c.pc)
    | none => if x.portWrites t then x.position .v else noProducer

/-- The producer of what a word of sequencer q waits for: command sequence number, sequencer and PC (R68). Of the sequencers that a
rendezvous awaits it is the first of M, V, T. (DESIGN CHOICE, log entry 53.) -/
def State.producer (s : State) (k : CoreId) (q : Seq) (w : Wait) : Nat × Seq × VA :=
  let x := s.ctx k
  let seqn := bitsOf w.object.toNat 23 0
  match w.reason.toNat with
  | 1 => x.tileProducer (BitVec.ofNat 4 w.object.toNat)
  | 2 => x.tileProducer (BitVec.ofNat 4 w.object.toNat)
  | 3 =>
    let from_ := seqOf (w.object.toNat / 16)
    let owes := fun f : Fin' => f.push.any fun p => (tokWait p.1).object == w.object
    if from_ = q then x.position (seqOf (w.object.toNat % 16))
    else
      match from_ with
      | .m => (match x.me.queue.find? fun c => owes c.fin with | some c => (c.seqn.toNat, .m, c.pc) | none => x.position .m)
      | .t => (match x.te.queue.find? fun c => owes c.fin with | some c => (c.seqn.toNat, .t, c.pc) | none => x.position .t)
      | p => x.position p
  | 8 =>
    match seqOf (bitsOf w.object.toNat 25 24) with
    | .m => (match x.me.queue.find? fun c => c.seqn.toNat == seqn with | some c => (seqn, .m, c.pc) | none => noProducer)
    | .t => (match x.te.queue.find? fun c => c.seqn.toNat == seqn with | some c => (seqn, .t, c.pc) | none => noProducer)
    | _ => (match x.moves.head? with | some m => (0, m.q, m.pc) | none => noProducer)
  | 11 =>
    match [Seq.m, .v, .t].find? fun p => (x.seq p).run != .idle && (x.seq p).run != .parked with
    | some p => x.position p
    | none => noProducer
  | 15 =>
    match x.te.queue.find? fun c => match c.op with | .fold _ => true | _ => false with
    | some c => (c.seqn.toNat, .t, c.pc)
    | none => noProducer
  | _ => noProducer

/-- The MRUN or MGATHER that a wait on M's queue depends on (R247): the one that the command it names is or waits for, and otherwise the oldest
there. -/
def State.rowsAwaited (s : State) (k : CoreId) (w : Wait) : Option MCmd :=
  if w.reason = 8 ∧ bitsOf w.object.toNat 25 24 = 1 then
    let named := (s.rowDeps k).findSome? fun d => if cmdObject .m d.cmd.seqn = w.object ∧ d.cmd.op ≠ .fence then d.fin else none
    named <|> (s.ctx k).me.queue.find? MCmd.isRows
  else none

/-- The trap of an expired wait: 0x18 or 0x19, or 0x14 where rows are missing. -/
def State.expiryTrap (s : State) (k : CoreId) (q : Seq) (w : Wait) (code : BitVec 8) : TrapInfo :=
  let (n, p, pc) := s.producer k q w
  match s.rowsAwaited k w with
  | some c =>
    { code := 0x14, wr := w.reason, addr := w.object, rowp := BitVec.ofNat 64 (c.next % 2 ^ 32 + 2 ^ 32 * (c.arrived % 2 ^ 32)),
      info := BitVec.ofNat 64 (bitsOf c.w[7].toNat 31 0 + 2 ^ 32 * (c.unseen.getD 0xFFFF)) }
  | none =>
    { code := code, wr := w.reason, addr := w.object, rowp := BitVec.ofNat 64 (n + 2 ^ 24 * seqCode p), info := pc.setWidth 64 }

/-- WAIT_BOUND_EXPIRY (R68): an in-cluster wait whose stall counter has passed its bound traps. -/
def execWaitBoundExpiry (s : State) : Host.Outcome State Fault Refusal :=
  let k := s.arg.k
  let q := s.arg.q
  match (s.seq k q).wait with
  | some w =>
    if w.reason ≠ 0 ∧ !w.beyond ∧ w.bound < w.stalled then .next (s.takeTrap k q (s.expiryTrap k q w 0x18)) else .next s
  | none => .next s

/-- WATCHDOG_EXPIRY (R69): a beyond-cluster wait blocked for 10 ms traps. -/
def execWatchdogExpiry (s : State) : Host.Outcome State Fault Refusal :=
  let k := s.arg.k
  let q := s.arg.q
  match (s.seq k q).wait with
  | some w =>
    if w.reason ≠ 0 ∧ w.beyond ∧ watchdogCycles ≤ w.stalled then .next (s.takeTrap k q (s.expiryTrap k q w 0x19)) else .next s
  | none => .next s

/-- Two nodes share a group: each has a position that is a member of it (R55). -/
def State.shareGroup (s : State) (a b : Node) : Bool :=
  a.groups.any fun g => (s.members g).any (fun p => p.1 == a.id) && (s.members g).any fun p => p.1 == b.id

/-- The watchdog of a core stands still: a task that shares a group with its node is switched out or has a fault in service
(R69), or the die's Ostler firmware is being installed (R367). -/
def State.watchdogFrozen (s : State) (k : CoreId) : Bool :=
  s.installing k.die ||
  match s.nodeOf k with
  | none => false
  | some n =>
    s.nodes.any fun m => s.shareGroup n m &&
      (!m.saves.isEmpty || m.cores.any fun j => (s.core j).saved.isSome || ((s.core j).node == some m.id && s.inTrapService j))

end Sys2Proof.Machine
end

