-- ==== Sys2Proof/Machine/Dray.lean ====
section
/-! DEFINITION. Dray queues (R202 to R217): DQAPP, the parser, the packets apart from REDUCE, landing units, completion, and what
the Ostler does for a queue. -/

namespace Sys2Proof.Machine

/-! ### The descriptor (R202) -/

/-- A field of a queue descriptor. (DEDUCED, log entry 38.) -/
def State.qField (s : State) (pa off n : Nat) : Nat := s.homeLE (pa + off) n

/-- An engine writes at a physical address; watches see it (R329). (DEDUCED, log entry 38.) -/
def State.putPa (s : State) (pa : Nat) (bs : List Byte) (who : W64) : State :=
  match s.target pa .cached with
  | some t => (s.homeWrite t bs).homeWatch pa bs who
  | none => s

/-- Bytes at a physical address that a draining bank, a darned row or a fold barrier holds (R94, R230, R364). -/
def State.paHeld (s : State) (pa n : Nat) : Bool :=
  match s.target pa .cached with
  | some t => s.holds t n
  | none => false

/-- Write a field of a queue descriptor. -/
def State.setQField (s : State) (pa off n v : Nat) : State := s.putPa (pa + off) (leBytes n v) 0

/-- CFG. -/
def State.qCfg (s : State) (pa : Nat) : Nat := s.qField pa 8 8
/-- LOG2N of a CFG. -/
def cfgLog (cfg : Nat) : Nat := cfg % 32
/-- The queue is enabled. -/
def cfgEnabled (cfg : Nat) : Bool := cfg.testBit 11 && 4 ≤ cfgLog cfg && cfgLog cfg ≤ 16
/-- MGMT. -/
def cfgMgmt (cfg : Nat) : Bool := cfg.testBit 12
/-- Engine e is bound to the queue. -/
def cfgBinds (cfg : Nat) (e : Fin 4) : Bool := cfg.testBit (16 + e.val)
/-- The die that serves the queue. -/
def cfgDie (cfg : Nat) : Die := ⟨bitsOf cfg 25 24 % 4, Nat.mod_lt _ (by decide)⟩

/-- The cluster that serves a queue. -/
def cfgCluster (cfg : Nat) : Cluster := ⟨bitsOf cfg 23 20 % 9, Nat.mod_lt _ (by decide)⟩

/-- PA of slot i of the ring. -/
def State.slotPa (s : State) (pa i : Nat) : Nat := s.qField pa 0 8 + 64 * (i % 2 ^ cfgLog (s.qCfg pa))

/-- Some of n slots from slot i are held. -/
def State.ringHeld (s : State) (pa i n : Nat) : Bool := (List.range n).any fun j => s.paHeld (s.slotPa pa (i + j)) 64

/-- Byte 0 of slot i carries the phase of index i. -/
def State.phaseOk (s : State) (pa i : Nat) : Bool :=
  s.homeLE (s.slotPa pa i) 1 % 2 == i / 2 ^ cfgLog (s.qCfg pa) % 2

/-- Write STATUS: SLOT, WR, STOP and SUSP; BUSY is kept. -/
def State.setQStatus (s : State) (pa slot wr : Nat) (stop susp : Bool) : State :=
  let busy := s.qField pa 0x34 4 / 2 % 2
  let b := fun (x : Bool) (n : Nat) => if x then n else 0
  s.setQField pa 0x34 4 (slot % 65536 * 65536 + wr * 4096 + b stop 8 + b susp 4 + busy * 2)

/-- The queue is stopped or suspended. -/
def State.qHalted (s : State) (pa : Nat) : Bool := s.qField pa 0x34 4 / 4 % 4 != 0

/-- The queue is suspended: its packets stand still, while those of one that is stopped on a malformed packet go on (R217). -/
def State.qSuspended (s : State) (pa : Nat) : Bool := (s.qField pa 0x34 4).testBit 2

/-- The Ostler's state of a queue. -/
def State.dray (s : State) (pa : PA) : DrayQ :=
  (s.queues.find? fun q => q.pa == pa).getD { pa := pa, owner := none, pkts := [], fence := none, waitSince := none, told := false }

/-- Replace the Ostler's state of a queue; BUSY says whether packets are in progress. -/
def State.setDray (s : State) (q : DrayQ) : State :=
  let rest := s.queues.filter fun x => x.pa != q.pa
  let s := { s with queues := rest ++ [q] }
  let st := s.qField q.pa.toNat 0x34 4
  let busy := if q.pkts.isEmpty then 0 else 1
  if st / 2 % 2 = busy then s else s.setQField q.pa.toNat 0x34 4 (st / 4 * 4 + busy * 2 + st % 2)

/-- WHO of a queue and slot (R302). -/
def queueWho (pa : PA) (idx : Nat) : W64 := BitVec.ofNat 64 (2 ^ 62 + pa.toNat / 64 % 2 ^ 46 * 2 ^ 16 + idx % 65536)

/-- IDS of a queue's owner, or 0. -/
def DrayQ.ids (q : DrayQ) : W64 := match q.owner with | some o => o.ids | none => 0

/-- The launch site of a packet that the owner's own word has appended (R331). -/
def DrayQ.site (q : DrayQ) (idx : Nat) : Option QSite := q.sites.find? fun x => x.idx == idx

/-- A record that names a queue and slot, and the launch site of a packet that the owner's own word has appended (R331). -/
def State.queueRecord (s : State) (q : DrayQ) (idx : Nat) (t : TrapInfo) : TrapRec :=
  let at_ := q.site idx
  { code := t.code, cls := t.cls, kind := t.kind, wr := t.wr
    seq := (match at_ with | some x => BitVec.ofNat 2 (seqCode x.q) | none => 0)
    core := (match at_ with | some x => cid x.k | none => 0), seqn := 0
    pc := (match at_ with | some x => x.pc | none => 0), addr := t.addr
    rowp := t.rowp, info := t.info, ids := q.ids, who := queueWho q.pa idx, time := BitVec.ofNat 64 s.now }

/-- Forward a record to the host driver. -/
def State.forwardRec (s : State) (d : Die) (r : TrapRec) : State := s.modDie d fun x => { x with fwd := x.fwd ++ [r] }

/-- Whose accesses a queue makes (R203). -/
def State.queueAgent (s : State) (q : DrayQ) : Agent :=
  let cfg := s.qCfg q.pa.toNat
  let root := s.qField q.pa.toNat 0x28 8
  match q.owner with
  | some o => { root := root, core := o.core, grant := o.grant, groups := o.groups, priv := false }
  | none => { root := root, core := (coreOf (bitsOf cfg 25 24) (bitsOf cfg 23 20) 0).getD ⟨0, 0, 0⟩, grant := 0, groups := [], priv := cfgMgmt cfg }

/-- The mover of a queue's packet: at the homes, with no core's version. -/
def State.queueMover (s : State) (q : DrayQ) (idx : Nat) : Mover :=
  let at_ := q.site idx
  { agent := s.queueAgent q, view := none, q := (match at_ with | some x => x.q | none => .c), seqn := 0
    pc := (match at_ with | some x => x.pc | none => 0), skip := 0, who := queueWho q.pa idx }

/-! ### DQAPP (R205, R219) -/

/-- Bytes of the units of a copy, from the next one on, that have an end outside the own bank (R60); `fuel` bounds the units. -/
def State.copyFar (s : State) (m : Mover) (k : CoreId) (j : CopyJob) (fuel : Nat) : Nat :=
  match fuel with
  | 0 => 0
  | fuel + 1 =>
    if j.total ≤ j.read then 0
    else
      let u := { j.nextUnit with far := s.endFar m (some k) j.nextUnit.src j.nextUnit.size }
      s.unitFar m (some k) u + s.copyFar m k { j with read := j.read + u.size } fuel

/-- The packets of images that are COPYs: their bytes moved, and the FT units of those with an end outside the own bank of the core that
appends them, in the queue's address space (R202, R219). -/
def State.imageCopies (s : State) (w : Wd) (m : Mover) (img : List Byte) (k : Nat) : Nat × Nat :=
  (List.range k).foldl (fun acc i =>
    let b := (img.drop (64 * i)).take (64 * (k - i))
    if leAt b 0 1 / 2 % 16 ≠ 1 then acc
    else
      match copyOf b with
      | none => acc
      | some j =>
        (acc.1 + j.total, acc.2 + ftUnits (s.copyFar m w.k j j.total))) (0, 0)

/-- Byte 0 of image j as it is written into slot i + j. -/
def State.slotHead (s : State) (pa i j : Nat) (img : List Byte) : Byte :=
  BitVec.ofNat 8 (leAt img (64 * j) 1 / 2 * 2 + (i + j) / 2 ^ cfgLog (s.qCfg pa) % 2)

/-- A core writes at a physical address of a ring. -/
def State.slotPut (s : State) (pa : Nat) (bs : List Byte) : State :=
  match s.target pa .cached with
  | some t => s.homeWrite t bs
  | none => s

/-- Write k images into slots from index i: bytes 1 to 63 of all, then byte 0 of each with its phase (R205). -/
def State.appendSlots (s : State) (pa i k : Nat) (img : List Byte) : State :=
  let js := List.range k
  let s := js.foldl (fun s j => s.slotPut (s.slotPa pa (i + j) + 1) ((img.drop (64 * j + 1)).take 63)) s
  js.foldl (fun s j => s.slotPut (s.slotPa pa (i + j)) [s.slotHead pa i j img]) s

/-- The watch of the core's node that the writes of k images into slots meet, where the ring is mapped in a watched range (R328). -/
def State.ringWatch (s : State) (w : Wd) (pa i k : Nat) (img : List Byte) : Option (Fin 8 × Nat) :=
  if (s.core w.k).hook.isSome then none
  else
    (s.nodeOf w.k).bind fun nd => (List.range k).findSome? fun j =>
      nd.homeMatch (s.slotPa pa (i + j)) (s.slotHead pa i j img :: (img.drop (64 * j + 1)).take 63) (s.seq w.k w.q).skip

/-- Go on with the writing of k images into slots, unless the ring is held (R94, R230, R364) or a watch stops the word (R328). -/
def withRing (w : Wd) (s : State) (va : W64) (pa i k cost : Nat) (img : List Byte) (go : Unit → Res) : Res :=
  if s.ringHeld pa i k then
    let fold := (List.range k).any fun j =>
      match s.target (s.slotPa pa (i + j)) .cached with | some (.bank b off) => s.foldHeld b off 64 | _ => false
    if fold then .wait { reason := 15, beyond := false, object := va } cost s else .hold s cost
  else
    match s.ringWatch w pa i k img with
    | some (j, u) =>
      .seen s { q := w.q, engine := false, watch := j, write := true, addr := BitVec.ofNat 64 u, seqn := 0, row := 0
                pc := (s.seq w.k w.q).trapPc }
    | none => go ()

/-- The slots that the owner of a queue appends are noted with their launch site, and those of packets that are done with are forgotten. -/
def State.noteSite (s : State) (w : Wd) (pa : PA) (i k : Nat) : State :=
  match s.queues.find? fun q => q.pa == pa, s.nodeOf w.k with
  | some q, some nd =>
    if q.ids ≠ nd.ids then s
    else
      let live := fun x : QSite =>
        decide (s.qField pa.toNat 0x18 8 ≤ x.idx) || q.pkts.any (fun p => p.idx == x.idx) || (match q.fence with | some f => f.1 == x.idx | none => false)
      let new := (List.range k).map fun j => { idx := i + j, k := w.k, q := w.q, pc := w.pc }
      { s with queues := s.queues.map fun x => if x.pa = pa then { x with sites := x.sites.filter live ++ new } else x }
  | _, _ => s

/-- Far bytes of ring slots. -/
def State.ringFar (s : State) (k : CoreId) (pa i n : Nat) : Nat :=
  ((List.range n).map fun j =>
    match s.target (s.slotPa pa (i + j)) .cached with
    | some t => farBytes k t 64
    | none => 64).sum

/-- DQAPP: q p k → i. The slots are claimed first, in one atomic step, and the claim is kept while the word waits for room (R205).
(DEDUCED, log entry 37.) -/
def execDqapp (r : BitVec 4) (s : State) : Host.Outcome State Fault Refusal :=
  .next (runWord (.dqapp r) r { pops := 3, pushes := 1, on := [.c, .t], acc := { event := s.cur.2 == .t, blocks := true } }
    (fun w a s =>
      let va := a.headD 0
      let p := a.getD 1 0
      let k := a.getD 2 0
      let own := w.q == .t && p == 0 && k == 1
      if k = 0 ∨ 3 < k.toNat then .trap (badOperand k)
      else
        withAccess w s va 64 64 .load 1 fun t s =>
          withAccess w s (va + 0x10) 8 8 .atomic 1 fun _ s =>
            let body := fun (img : List Byte) (s : State) =>
              let pa := s.paOf t
              let cfg := s.qCfg pa
              let n := k.toNat
              let (moved, ft) := s.imageCopies w (s.queueMover (s.dray (BitVec.ofNat 52 pa)) 0) img n
              let cost := if moved = 0 then 1 else moveCost moved
              let old := (s.seq w.k w.q).claim
              withWatch w s va (s.homeBytes t 64) false fun _ =>
              if !cfgEnabled cfg && old.isNone then .trap (privilege va 0)
              else
                let i := old.getD (s.qField pa 0x10 8)
                let next := leBytes 8 ((i + n) % 2 ^ 64)
                let fill := fun (s : State) =>
                  if 2 ^ cfgLog cfg < i + n - s.qField pa 0x18 8 then .wait { reason := 6, beyond := true, object := va } cost s
                  else
                    withRing w s va pa i n cost img fun _ =>
                      let ft := ftUnits (s.ringFar w.k pa i n) + ft
                      .done (((s.appendSlots pa i n img).noteSite w (BitVec.ofNat 52 pa) i n).chargeFtUnits w.k ft) [BitVec.ofNat 64 i] { cost := cost }
                if old.isSome then fill s
                else
                  withWatch w s (va + 0x10) (s.homeBytes (t.add 0x10) 8) false fun _ =>
                  withWatch w s (va + 0x10) next true fun _ =>
                    fill (((((s.settle w.k w.q).commit w.k).escape w.k).homeWrite (t.add 0x10) next).modSeq w.k w.q fun r =>
                      { r with claim := some i })
            if own then withRegs w (fun x => x.file == .shadow && x.q == .t) s (body (s.ctx w.k).te.image)
            else withRange w s p (64 * k.toNat) 8 1 fun img _ s => body img s) s)

/-! ### Parsing (R206, R207, R217) -/

/-- The type of a packet. -/
def Packet.type (p : Packet) : Nat := leAt p.bytes 0 1 / 2 % 16
/-- A flag of a packet. -/
def Packet.flag (p : Packet) (n : Nat) : Bool := (leAt p.bytes 0 1).testBit n
/-- A little-endian field of a packet. -/
def Packet.at (p : Packet) (off n : Nat) : Nat := leAt p.bytes off n

/-- A packet of these bytes is malformed. -/
def packetBad (bs : List Byte) : Bool :=
  match leAt bs 0 1 / 2 % 16 with
  | 0 => false
  | 1 => (copyOf bs).isNone || (List.range (leAt bs 1 1 / 16 % 4)).any fun j => leAt bs (64 * (j + 1)) 1 / 2 % 16 != 2
  | 3 => decide (12 < leAt bs 1 1 % 16)
  | 4 => false
  | 5 => false
  | 6 =>
    let f := leAt bs 2 1
    decide (1 < leAt bs 1 1 % 16) || !(f == 0 || f == 1 || f == 13) || leAt bs 36 4 == 0 || leAt bs 36 4 % 64 != 0
  | 7 =>
    leAt bs 1 1 % 4 == 3 || leAt bs 36 2 == 0 || decide (4096 < leAt bs 36 2) || decide (2 ^ 24 < leAt bs 32 4)
  | _ => true

/-- Slots a packet takes, from its first 64 bytes. -/
def packetSlots (bs : List Byte) : Nat :=
  if leAt bs 0 1 / 2 % 16 = 1 ∧ (copyOf bs).isSome then 1 + leAt bs 1 1 / 16 % 4 else 1

/-- The bytes of slot i. -/
def State.slotBytes (s : State) (pa i : Nat) : List Byte :=
  match s.target (s.slotPa pa i) .cached with
  | some t => s.homeBytes t 64
  | none => List.replicate 64 0

/-- A packet as it is parsed. -/
def newPacket (idx : Nat) (bs : List Byte) (now : Nat) : Packet :=
  { idx := idx, bytes := bs, job := none, gjob := none, worked := false, stat := 0, deferred := [], since := now, told := false
    chunks := [], results := [], origin := none, lost := false, mismatch := false }

/-- The parser may read a slot: the queue is enabled and bound to an engine, neither stopped nor suspended, held by no FENCE or SIGNAL, and
its descriptor and slots by no bank or barrier; a queue with MGMT = 0 has its owner. -/
def State.parserGoes (s : State) (q : DrayQ) : Bool :=
  let pa := q.pa.toNat
  let cfg := s.qCfg pa
  cfgEnabled cfg && (List.finRange 4).any (cfgBinds cfg) && !s.qHalted pa && q.fence.isNone && !(q.pkts.any fun p => p.type == 4)
    && (cfgMgmt cfg || q.owner.isSome) && !s.paHeld pa 64 && !s.ringHeld pa (s.qField pa 0x18 8) 4

/-- The packet at RIDX can be parsed: its slots carry their phases. -/
def State.parserReady (s : State) (q : DrayQ) : Bool :=
  let pa := q.pa.toNat
  let ridx := s.qField pa 0x18 8
  s.parserGoes q && decide (ridx < s.qField pa 0x10 8)
    && (List.range (packetSlots (s.slotBytes pa ridx))).all fun j => decide (ridx + j < s.qField pa 0x10 8) && s.phaseOk pa (ridx + j)

/-! ### Engines (R203) -/

/-- A queue has work for an engine: a packet that has lost its engine, or one to be parsed. -/
def State.wantsEngine (s : State) (q : DrayQ) : Bool :=
  !s.qSuspended q.pa.toNat && !s.paHeld q.pa.toNat 64 && (q.pkts.any (fun p => p.eng.isNone) || s.parserReady q)

/-- Engine e of a cluster serves a queue. -/
def State.serves (s : State) (d : Die) (c : Cluster) (e : Fin 4) (q : DrayQ) : Bool :=
  let cfg := s.qCfg q.pa.toNat
  cfgDie cfg == d && cfgCluster cfg == c && cfgBinds cfg e

/-- Engine e of a cluster works on a packet. -/
def State.engineBusy (s : State) (d : Die) (c : Cluster) (e : Fin 4) : Bool :=
  s.queues.any fun q => q.pkts.any (fun p => p.eng == some e) && (let cfg := s.qCfg q.pa.toNat; cfgDie cfg == d && cfgCluster cfg == c)

/-- The least of some addresses. -/
def leastPa (l : List PA) : Option PA :=
  l.foldl (fun m x => match m with | none => some x | some y => some (if x < y then x else y)) none

/-- The queue that an engine serves next: of those with work for it, the one whose descriptor comes after that of the queue served last. The order
of the turns is the model's. (DESIGN CHOICE, log entry 38.) -/
def State.engineNext (s : State) (d : Die) (c : Cluster) (e : Fin 4) : Option PA :=
  let l := (s.queues.filter fun q => s.serves d c e q && s.wantsEngine q).map fun q => q.pa
  leastPa (l.filter fun p => (s.cluster d c).turn[e.val] < p) <|> leastPa l

/-- The engine whose turn it is to take a packet of a queue. -/
def State.engineTurn (s : State) (q : DrayQ) : Option (Fin 4) :=
  let cfg := s.qCfg q.pa.toNat
  let d := cfgDie cfg
  let c := cfgCluster cfg
  (List.finRange 4).find? fun e => !s.engineBusy d c e && s.engineNext d c e == some q.pa

/-- An engine has taken a packet of a queue. -/
def State.tookTurn (s : State) (q : DrayQ) (e : Fin 4) : State :=
  let cfg := s.qCfg q.pa.toNat
  s.modCluster (cfgDie cfg) (cfgCluster cfg) fun x => { x with turn := vput x.turn e q.pa }

/-- PACKET_PARSE (R203, R206): an engine takes up a packet of the queue that has none, or parses the next one. -/
def execPacketParse (s : State) : Host.Outcome State Fault Refusal :=
  let pa := s.arg.pa.toNat
  let q0 := s.dray s.arg.pa
  let q := if cfgMgmt (s.qCfg pa) then { q0 with owner := none } else q0
  let s := s.setDray q
  let ridx := s.qField pa 0x18 8
  let widx := s.qField pa 0x10 8
  let n := packetSlots (s.slotBytes pa ridx)
  match q.pkts.findIdx? fun p => p.eng.isNone with
  | some i =>
    (match s.engineTurn q with
     | none => .next s
     | some e => .next ((s.setDray { q with pkts := q.pkts.modify i fun p => { p with eng := some e } }).tookTurn q e))
  | none =>
    if !s.parserGoes q || widx ≤ ridx then .next s
    else if !s.parserReady q then
      if q.waitSince.isSome then .next s else .next ((s.setQStatus pa ridx 9 false false).setDray { q with waitSince := some s.now })
    else
      match s.engineTurn q with
      | none => .next s
      | some e =>
      let s := s.tookTurn q e
      let q := { q with waitSince := none, told := false }
      let bs := (List.range n).flatMap fun j => s.slotBytes pa (ridx + j)
      let s := if s.qField pa 0x34 4 / 4096 % 16 = 0 then s else s.setQStatus pa ridx 0 false false
      if packetBad bs then
        let r := s.queueRecord q ridx { code := 0x01, cls := 2, addr := BitVec.ofNat 64 (leAt bs 0 1) }
        .next (((s.setQStatus pa ridx 0 true false).setDray q).forwardRec (cfgDie (s.qCfg pa)) r)
      else
        let s := s.setQField pa 0x18 8 ((ridx + n) % 2 ^ 64)
        if leAt bs 0 1 / 2 % 16 = 3 then .next (s.setDray { q with fence := some (ridx, bs) })
        else .next (s.setDray { q with pkts := q.pkts ++ [{ newPacket ridx bs s.now with eng := some e }] })

/-- The first slot of the packet at RIDX that does not carry its phase. -/
def State.stalledAt (s : State) (pa : Nat) : Option Nat :=
  let i := s.qField pa 0x18 8
  ((List.range (packetSlots (s.slotBytes pa i))).map (i + ·)).find? fun j => !s.phaseOk pa j

/-- PARSER_STALL_TIMEOUT (R206): after 10 ms of reason 9 the Ostler writes a NOP into the slot whose phase still does not match, and
forwards the record. -/
def execParserStallTimeout (s : State) : Host.Outcome State Fault Refusal :=
  let pa := s.arg.pa.toNat
  let q := s.dray s.arg.pa
  match q.waitSince with
  | none => .next s
  | some t =>
    if s.now < t + watchdogCycles || !q.fence.isNone || s.ringHeld pa (s.qField pa 0x18 8) 4 then .next s
    else
      match s.stalledAt pa with
      | none => .next s
      | some i =>
      let s := s.putPa (s.slotPa pa i) [BitVec.ofNat 8 (i / 2 ^ cfgLog (s.qCfg pa) % 2)] 0
      let r := s.queueRecord q i { code := 0x19, wr := 9, addr := BitVec.ofNat 64 pa }
      .next ((s.setDray { q with waitSince := none }).forwardRec (cfgDie (s.qCfg pa)) r)

/-! ### Packets in progress -/

/-- Packet i of a queue is changed. -/
def State.modPkt (s : State) (pa : PA) (i : Nat) (f : Packet → Packet) : State :=
  let q := s.dray pa
  s.setDray { q with pkts := q.pkts.modify i f }

/-- A queue's packets go on: it is not suspended, its descriptor is not held, and its die's clock runs. -/
def State.queueRuns (s : State) (pa : PA) : Bool :=
  !s.qSuspended pa.toNat && !s.paHeld pa.toNat 64 && !(s.die (cfgDie (s.qCfg pa.toNat))).stoppedClk

/-- The first packet of a queue that an engine works on and that satisfies a test, where the queue's packets go on. -/
def State.pktWhere (s : State) (pa : PA) (p : Nat → Packet → Bool) : Option (Nat × Packet) :=
  if s.queueRuns pa then findIx (s.dray pa).pkts 0 fun i x => x.eng.isSome && p i x else none

/-- The engines let go of the packets of a queue. -/
def State.freeEngines (s : State) (pa : PA) : State :=
  { s with queues := s.queues.map fun q => if q.pa = pa then { q with pkts := q.pkts.map fun p => { p with eng := none } } else q }

/-- An access of a packet is refused: the queue is suspended, with DONEB and a trap to the Ostler (R217). -/
def State.qSuspend (s : State) (q : DrayQ) (p : Packet) (done arrived : Nat) (e : EStop) : State :=
  match e with
  | .trap t =>
    let r := s.queueRecord q p.idx { t with cls := 1, rowp := BitVec.ofNat 64 (done % 2 ^ 32 + arrived % 2 ^ 32 * 2 ^ 32) }
    (((s.freeEngines q.pa).setQStatus q.pa.toNat p.idx 0 false true).setQField q.pa.toNat 0x38 8 done).pushTrap (cfgDie (s.qCfg q.pa.toNat)) r
  | _ => s

/-- PA of the signal-table entry a packet names. -/
def State.sigEntry (s : State) (q : DrayQ) (p : Packet) : Option Nat :=
  if p.at 58 2 = 0xFFFF then none else some (s.qField q.pa.toNat 0x20 8 + 16 * p.at 58 2)

/-- Landing units are posted (flag 5). -/
def Packet.arrival (p : Packet) : Bool := p.flag 5 && (p.type == 1 || p.type == 7)

/-- Note a deferred fault of a packet; the first of each cause stands. -/
def Packet.noteFault (p : Packet) (r : TrapRec) : Packet := { p with deferred := keepFault p.deferred r }

/-- Landing units of a packet post their byte counts; a post that cannot be made is a deferred fault (R211). There is no answer while one
is held. -/
def State.unitPosts (s : State) (pa : PA) (i : Nat) (l : List Nat) : Option State :=
  match l with
  | [] => some s
  | n :: rest =>
    let q := s.dray pa
    match q.pkts[i]? with
    | none => some s
    | some p =>
      match s.sigEntry q p with
      | none => some s
      | some ent =>
        let va := BitVec.ofNat 64 (s.homeLE ent 8)
        if s.paHeld ent 16 then none
        else if n = 0 ∨ va = 0 then s.unitPosts pa i rest
        else
          match s.postVa (s.queueAgent q) va (BitVec.ofNat 24 n) (queueWho pa p.idx) (s.queueMover q p.idx).site with
          | .done s => s.unitPosts pa i rest
          | .skip c =>
            (s.modPkt pa i fun p => p.noteFault (s.queueRecord q p.idx { code := c, cls := 2, addr := va })).unitPosts pa i rest
          | .held => none

/-- An MSI-X vector is raised. -/
def State.raiseIrq (s : State) (v : Nat) : State := { s with irqs := v :: s.irqs }

/-- BAR0 offset of the interrupt table (R343). -/
def interruptBase : Nat := 0x10000

/-- The vector of a queue's host interrupt (R346). -/
def State.queueVector (s : State) (pa : PA) : Nat :=
  match (List.range 2046).find? fun j => s.bar0.readLE (interruptBase + 16 * j) 8 == pa.toNat && pa != 0 with
  | some j => j + 2
  | none => 1

/-- What a packet posts at its completion: `direct` is the post of SIGNAL to an address of its own. -/
def State.pktPost (s : State) (q : DrayQ) (p : Packet) (direct : Option (W64 × BitVec 24)) : Option (W64 × BitVec 24) :=
  match direct, s.sigEntry q p with
  | some d, _ => some d
  | none, some e =>
    let va := BitVec.ofNat 64 (s.homeLE e 8)
    if p.arrival || va = 0 then none else some (va, BitVec.ofNat 24 (s.homeLE (e + 8) 4))
  | none, none => none

/-- The post of a packet's completion, where there is one. -/
def State.tryPost (s : State) (q : DrayQ) (p : Packet) (post : Option (W64 × BitVec 24)) : Posted :=
  match post with
  | some (va, n) => s.postVa (s.queueAgent q) va n (queueWho q.pa p.idx) (s.queueMover q p.idx).site
  | none => .done s

/-- The completion of packet i waits for its entry of the signal table or for a post, either of which is held. -/
def State.pktHeld (s : State) (pa : PA) (i : Nat) (direct : Option (W64 × BitVec 24)) : Bool :=
  let q := s.dray pa
  match q.pkts[i]? with
  | none => false
  | some p =>
    (match s.sigEntry q p with | some e => s.paHeld e 16 | none => false)
      || (match s.tryPost q p (s.pktPost q p direct) with | .held => true | _ => false)

/-- Packet i completes (R211): STAT, the post, the counter, the interrupt, and its deferred faults. -/
def State.pktComplete (s : State) (pa : PA) (i : Nat) (direct : Option (W64 × BitVec 24)) : State :=
  let q := s.dray pa
  match q.pkts[i]? with
  | none => s
  | some p =>
    let who := queueWho pa p.idx
    let post := s.pktPost q p direct
    let code := match s.tryPost q p post with | .skip c => some c | _ => none
    let fault := code.isSome || !p.deferred.isEmpty || p.mismatch
    let s := match s.sigEntry q p with
      | some e => s.putPa (e + 12) (leBytes 4 (p.stat.toNat + if fault then 8 else 0)) who
      | none => s
    let s := match s.tryPost q p post with | .done s => s | _ => s
    let id := BitVec.ofNat 32 (p.at 4 4)
    let s := s.decrement id 1 [p.bytes]
    let s := if p.flag 6 then s.raiseIrq (s.queueVector pa) else s
    let d := cfgDie (s.qCfg pa.toNat)
    let s := match code, post with
      | some c, some (va, _) => s.forwardRec d (s.queueRecord q p.idx { code := c, cls := 2, addr := va })
      | _, _ => s
    let s := p.deferred.foldl (fun s r => s.forwardRec d { r with time := BitVec.ofNat 64 s.now }) s
    s.setDray { q with pkts := q.pkts.eraseIdx i }

/-- NOP_PACKET (R207). -/
def execNopPacket (s : State) : Host.Outcome State Fault Refusal :=
  let q := s.dray s.arg.pa
  match s.pktWhere s.arg.pa fun _ p => p.type == 0 with
  | none => .next s
  | some (i, _) => .next (s.setDray { q with pkts := q.pkts.eraseIdx i })

/-- A checksummed COPY that is not complete. -/
def Packet.summed (p : Packet) : Bool := p.type == 1 && p.at 2 1 != 0

/-- COPY (R208): the first COPY packet that has not begun begins; a checksummed one once every earlier one is complete, with CSUMR := 1 in modes
1 and 4 (R210). -/
def execCopy (s : State) : Host.Outcome State Fault Refusal :=
  let pa := s.arg.pa
  let before := fun i => (s.dray pa).pkts.take i
  match s.pktWhere pa fun i p => p.type == 1 && p.job.isNone && !(p.summed && (before i).any Packet.summed) with
  | none => .next s
  | some (i, p) =>
    let j := copyOf p.bytes
    let fresh := match j with | some j => j.mode == 1 || j.mode == 4 | none => false
    let s := if fresh then s.setQField pa.toNat 0x30 4 1 else s
    let sum := BitVec.ofNat 32 (s.qField pa.toNat 0x30 4)
    .next (s.modPkt pa i fun _ => { p with job := j.map fun j => j.start sum })

/-- A landing unit of a queue's copy (R209): `n` picks the packet and what it does. -/
def State.queueCopy (s : State) (pa : PA) (n : Nat) : State :=
  let q := s.dray pa
  let can := fun (p : Packet) => match p.job with | some j => !j.over | none => false
  let live := (List.range q.pkts.length).filter fun i => match q.pkts[i]? with | some p => can p | none => false
  let i := live.getD (n % live.length) 0
  match s.pktWhere pa fun x p => x == i && can p with
  | none => s
  | some (i, p) =>
    match p.job with
    | none => s
    | some j =>
      match s.copyStep (s.queueMover q p.idx) none j (n / live.length) true with
      | .error e => s.qSuspend q p j.done j.landed e
      | .ok (u, j', n) =>
        let s0 := s
        let s := u
        let s := s.modPkt pa i fun p => { p with job := some j' }
        let s := if j.loss.isNone && j'.loss.isSome then
            s.modPkt pa i fun p => p.noteFault (s.queueRecord q p.idx { code := 0x38, cls := 2, info := orOnes j'.loss })
          else s
        if j.arrival then (s.unitPosts pa i [n]).getD s0 else s

/-- A movement of a dray engine of a cluster (R19): the four together read and land at most 16 units in a cycle. -/
def State.drayMove (s : State) (d : Die) (c : Cluster) (f : State → State) : State :=
  if 16 ≤ (s.cluster d c).moved then s else (f s).modCluster d c fun x => { x with moved := x.moved + 1 }

/-- LANDING_UNIT (R209): for a T engine, a dray queue or a chain context; `num` picks among what may land or be read. -/
def execLandingUnit (s : State) : Host.Outcome State Fault Refusal :=
  match s.arg.job with
  | .core k => .next (s.tCopy k s.arg.num)
  | .queue pa =>
    let cfg := s.qCfg pa.toNat
    .next (s.drayMove (cfgDie cfg) (cfgCluster cfg) fun s => s.queueCopy pa s.arg.num)
  | .chain k x => .next (s.drayMove k.die k.cluster fun s => s.chainCopy k x s.arg.num)

/-! ### FENCE, SIGNAL, SPAWN, GATHER -/

/-- A reference of a FENCE is met (R212); one whose signal word cannot be read is not. -/
def State.fenceRef (s : State) (q : DrayQ) (v : Nat) : Bool :=
  let ent := s.qField q.pa.toNat 0x20 8 + 16 * (v / 4096)
  let va := BitVec.ofNat 64 (s.homeLE ent 8)
  if s.paHeld ent 8 then false
  else
  match s.check (s.queueAgent q) [] va 8 8 .load with
  | .ok (t, _) => decide (((signalGen (s.homeWord t 8)).toNat % 4096 + 4096 - v % 4096) % 4096 < 2048)
  | .error _ => false

/-- FENCE_PACKET (R212): the parser passes the FENCE once every reference is met; until then it waits with reason 10. -/
def execFencePacket (s : State) : Host.Outcome State Fault Refusal :=
  let pa := s.arg.pa
  let q := s.dray pa
  match q.fence with
  | none => .next s
  | some (i, bs) =>
    if s.qHalted pa.toNat || s.paHeld pa.toNat 64 then .next s
    else if (List.range (leAt bs 1 1 % 16)).all fun j => s.fenceRef q (leAt bs (16 + 4 * j) 4) then
      let s := s.setQStatus pa.toNat i 0 false false
      let s := s.setDray { q with fence := none, waitSince := none, told := false }
      .next (if (leAt bs 0 1).testBit 6 then s.raiseIrq (s.queueVector pa) else s)
    else if q.waitSince.isSome then .next s
    else .next ((s.setQStatus pa.toNat i 10 false false).setDray { q with waitSince := some s.now })

/-- FENCE_PACKET_TIMEOUT (R212): after 10 ms a record is forwarded, once, and the queue stays stalled. -/
def execFencePacketTimeout (s : State) : Host.Outcome State Fault Refusal :=
  let pa := s.arg.pa
  let q := s.dray pa
  match q.fence, q.waitSince with
  | some (i, _), some t =>
    if q.told || s.now < t + watchdogCycles then .next s
    else
      let r := s.queueRecord q i { code := 0x19, wr := 10, addr := BitVec.ofNat 64 pa.toNat }
      .next ((s.setDray { q with told := true }).forwardRec (cfgDie (s.qCfg pa.toNat)) r)
  | _, _ => .next s

/-- SIGNAL_PACKET (R213): once every earlier packet is complete, the post, which is waited for while it is held, and the counter. -/
def execSignalPacket (s : State) : Host.Outcome State Fault Refusal :=
  let pa := s.arg.pa
  match s.pktWhere pa fun i p => i == 0 && p.type == 4 with
  | none => .next s
  | some (i, p) =>
    let va := BitVec.ofNat 64 (p.at 8 8)
    let direct := if va = 0 then none else some (va, BitVec.ofNat 24 (p.at 16 4))
    .next (if s.pktHeld pa i direct then s else s.pktComplete pa i direct)

/-- The pool that pays for a packet's node, as FIPOOL and FTPOOL (R46). -/
def State.packetPool (s : State) (a : Agent) (va : W64) : Option Target :=
  match s.check { a with priv := true } [] va 32 32 .atomic with
  | .ok (t, _) => some t
  | .error _ => none

/-- The pool's words are held by a draining bank or a fold barrier. -/
def State.packetHeld (s : State) (a : Agent) (va : W64) : Bool :=
  match s.check { a with priv := true } [] va 32 32 .atomic with
  | .error (.trap _) => false
  | .error _ => va != 0
  | .ok _ => false

/-- The fare of a packet's node is not to be had: so it is, too, where POOL names no pool that can be reached. (DESIGN CHOICE, log entry
27.) -/
def State.packetNoFare (s : State) (a : Agent) (pool : W64) (fi ft : Int) (g : Nat) : Bool :=
  if pool = 0 then !a.priv
  else if pool.toNat % 32 ≠ 0 then false
  else
    match s.packetPool a pool with
    | some t => decide (s.poolField t 0 < g * fi) || decide (s.poolField t 8 < g * ft)
    | none => true

/-- The fare of a packet's node is deducted. -/
def State.packetPay (s : State) (a : Agent) (pool : W64) (fi ft : Int) (g : Nat) : State :=
  match (if pool = 0 then none else s.packetPool a pool) with
  | some t => (s.setPoolField t 0 (s.poolField t 0 - g * fi)).setPoolField t 8 (s.poolField t 8 - g * ft)
  | none => s

/-- SPAWN_PACKET (R214). A descriptor or a successor list that cannot be read is a deferred fault with cause 0x10, and so is a status
address that cannot be written; what is held is tried again. (DEDUCED, log entry 27.) -/
def execSpawnPacket (s : State) : Host.Outcome State Fault Refusal :=
  let pa := s.arg.pa
  let q := s.dray pa
  match s.pktWhere pa fun _ p => p.type == 5 && !p.worked with
  | none => .next s
  | some (i, p) =>
    let a := s.queueAgent q
    let m := s.queueMover q p.idx
    let d := BitVec.ofNat 64 (p.at 8 8)
    let fault := fun (s : State) (t : TrapInfo) =>
      s.modPkt pa i fun p => { p.noteFault (s.queueRecord q p.idx { rowFault t with cls := 2 }) with worked := true }
    let status := fun (u : State) (st : Nat) =>
      let u := u.modPkt pa i fun p =>
        { p with worked := true, stat := BitVec.ofNat 32 (p.stat.toNat + st * 2 ^ 24 + if st = 0 then 0 else 16) }
      let va := p.at 16 8
      if va = 0 then u
      else
        match u.moverWrite m va (clean (leBytes 8 st)) with
        | .ok u => u
        | .error (.trap t) => fault u t
        | .error _ => s
    match s.moverRead m d.toNat 256 with
    | .error (.trap t) => .next (fault s t)
    | .error _ => .next s
    | .ok (u, cs) =>
      let bs := plain cs
      let pool := BitVec.ofNat 64 (leAt bs 0x18 8)
      let sp : Spawner :=
        { priv := a.priv, rights := match q.owner with | some o => o.rights | none => 15, noFare := u.packetNoFare a pool }
      if u.packetHeld a pool then .next s
      else
        let st := u.spawnStatus sp d.toNat bs
        if st ≠ 0 then .next (status u st)
        else
          let dd := descOf bs d
          let n := bitsOf dd.deps.toNat 15 0
          match u.moverRead m (leAt bs 0x28 8) (4 * n) with
          | .error (.trap t) => .next (fault u t)
          | .error _ => .next s
          | .ok (u, sb) =>
            let u := u.packetPay a dd.pool dd.fi dd.ft (bitsOf dd.ctrl.toNat 10 5)
            let u := u.accept bs d (succOf n (plain sb)) a.root
            .next (status (u.captureCopy (u.nodes.getLast?.map fun x => x.id) 3 p.bytes) 0)

/-- GATHER_PACKET (R216): the first gather that is not over begins, or takes its next element. -/
def execGatherPacket (s : State) : Host.Outcome State Fault Refusal :=
  let pa := s.arg.pa
  let q := s.dray pa
  match s.pktWhere pa fun _ p => p.type == 7 && !p.worked with
  | none => .next s
  | some (i, p) =>
    let iw := match p.at 1 1 % 4 with | 0 => 2 | 1 => 4 | _ => 8
    let w := fun off => BitVec.ofNat 64 (p.at off 8)
    let j := p.gjob.getD (gatherJob 0 (w 8) (w 16) (p.at 32 4) (p.at 36 2) (w 24) iw p.arrival 0 (0, 0))
    if j.took.length = j.n then
      let b := fun (x : Bool) (n : Nat) => if x then n else 0
      let p' := { p with worked := true, gjob := some j, stat := BitVec.ofNat 32 (b j.poison 4 + b j.loss 2) }
      let p' := { p' with deferred := p'.deferred.map fun r => if r.code = 0x38 then { r with rowp := BitVec.ofNat 64 j.arrived, info := orOnes j.missing } else r }
      .next (s.modPkt pa i fun _ => p')
    else
      match s.elemStep (s.queueMover q p.idx) j j.took.length with
      | .error e => .next (s.qSuspend q p (j.took.length * j.e) j.arrived e)
      | .ok o =>
        let s0 := s
        let s := o.s.modPkt pa i fun p =>
          let p := { p with gjob := some o.job }
          match o.fault with
          | some t => p.noteFault (o.s.queueRecord q p.idx { t with cls := 2 })
          | none => p
        .next (if j.arrival then (s.unitPosts pa i o.posts).getD s0 else s)

/-! ### What the Ostler does for a suspended queue (R217) -/

/-- The task of a queue's owner, where it has not ended. -/
def State.queueTask (s : State) (q : DrayQ) : Option NodeId :=
  q.owner.bind fun o => (s.nodes.find? fun n => n.ids == o.ids).map fun n => n.id

/-- QUEUE_FAULT_SERVICE (R217): a fault the Ostler resolves lets the queue go on from DONEB; one it cannot resolve is forwarded, and
the queue stays suspended. A copy-on-write fault is served as R115 says, under the queue's own root table. -/
def execQueueFaultService (s : State) : Host.Outcome State Fault Refusal :=
  let pa := s.arg.pa
  let d := cfgDie (s.qCfg pa.toNat)
  let mine := fun r : TrapRec => r.who.toNat / 2 ^ 16 == (queueWho pa 0).toNat / 2 ^ 16
  if s.qField pa.toNat 0x34 4 / 4 % 2 = 0 ∨ s.installing d then .next s
  else
    let recs := (s.die d).trapQ.filter mine
    let s := s.modDie d fun x => { x with trapQ := x.trapQ.filter fun r => !mine r }
    let forward := fun (s : State) (recs : List TrapRec) => recs.foldl (fun s r => s.forwardRec d r) s
    match recs.find? fun r => r.code == 0x10 && r.kind == 2 with
    | some r =>
      (match s.cow (s.queueAgent (s.dray pa)).root (s.queueTask (s.dray pa)) r.addr.toNat with
       | .done s => .next (s.setQStatus pa.toNat 0 0 false false)
       | c => .next (forward s (recs.map c.record)))
    | none => if s.arg.yes then .next (s.setQStatus pa.toNat 0 0 false false) else .next (forward s recs)

end Sys2Proof.Machine
end

