-- ==== Sys2Proof/Machine/Collect.lean ====
section
/-! DEFINITION. REDUCE packets and their ring collectives (R215, R358 to R361), and the completion of packets (R211). -/

namespace Sys2Proof.Machine

/-! ### The ring table (R358) -/

/-- BAR0 offset of a collective ring table entry (R343). -/
def ringEntry (g : Nat) : Nat := 0x20000 + 256 * (g % 256)

/-- NPART. -/
def State.ringSize (s : State) (g : Nat) : Nat := s.bar0.readLE (ringEntry g + 8) 2

/-- This module's position in a ring of 2 to 64 participants. -/
def State.ringPos (s : State) (g : Nat) : Option Nat :=
  let n := s.ringSize g
  if n < 2 ∨ 64 < n then none
  else (List.range n).find? fun i => s.bar0.readLE (ringEntry g + 0x10 + 2 * i) 2 == s.nodeId.toNat

/-! ### A REDUCE packet (R215, R359) -/

/-- The operation is max. -/
def Packet.isMax (p : Packet) : Bool := p.at 1 1 % 16 == 1
/-- Element width. -/
def Packet.width (p : Packet) : Nat := if p.at 2 1 = 1 then 2 else 4
/-- Total bytes of a participant. -/
def Packet.reduceBytes (p : Packet) : Nat := p.at 24 4 * p.width
/-- Chunks. With E = 0 there is nothing to combine: an empty chunk goes round, by which the participants learn that their packets agree (R360).
(DEDUCED, log entry 46.) -/
def Packet.chunkCount (p : Packet) : Nat := max 1 ((p.reduceBytes + p.at 36 4 - 1) / p.at 36 4)
/-- Bytes of chunk i. -/
def Packet.chunkSize (p : Packet) (i : Nat) : Nat := min (p.at 36 4) (p.reduceBytes - i * p.at 36 4)
/-- Elements of chunk i. -/
def Packet.chunkElems (p : Packet) (i : Nat) : Nat := p.chunkSize i / p.width

/-- An element as partials hold it: BF16 widened to FP32. -/
def widenElem (fmt : Nat) (code : Nat) : BitVec 32 := BitVec.ofNat 32 (if fmt = 1 then code * 65536 else code)

/-- The element code of a result. -/
def resultElem (fmt : Nat) (v : BitVec 32) : BitVec 32 :=
  if fmt = 1 then BitVec.ofNat 32 (rnd (fp32Num v) bf16 0 true) else v

/-- A partial combined with a contribution. -/
def combineElem (isMax : Bool) (fmt : Nat) (a b : BitVec 32) : BitVec 32 :=
  if fmt = 13 then (if isMax then (if a.toInt < b.toInt then b else a) else a + b)
  else if isMax then mgMax a b else addFp32 a b

/-- This module's contribution to chunk i, as partials hold it, with its poison. -/
def State.contribution (s : State) (m : Mover) (p : Packet) (i : Nat) : Except EStop (State × Chunk) :=
  match s.moverRead m (addr64 (p.at 8 8 + i * p.at 36 4)) (p.chunkSize i) with
  | .error e => .error e
  | .ok (s, bs) =>
    .ok (s, { i := i, poison := anyPoison bs
              words := (List.range (p.chunkElems i)).map fun j => widenElem (p.at 2 1) (leAt (plain bs) (p.width * j) p.width) })

/-- The contributions that this module starts chunks with. -/
def State.starts (s : State) (m : Mover) (p : Packet) (l : List Nat) : Except EStop (State × List Chunk) :=
  match l with
  | [] => .ok (s, [])
  | i :: t =>
    match s.contribution m p i with
    | .error e => .error e
    | .ok (s, c) =>
      match s.starts m p t with
      | .error e => .error e
      | .ok (s, cs) => .ok (s, c :: cs)

/-- Note who first contributed poison. -/
def Packet.noteOrigin (p : Packet) (poison : Bool) (n : BitVec 16) : Packet :=
  if poison then { p with origin := some (p.origin.getD n) } else p

/-- The packet's collective still waits for chunks. -/
def Packet.collecting (p : Packet) : Bool := p.type == 6 && p.worked && !p.mismatch && p.results.length < p.chunkCount

/-- A partial that has arrived is combined with this module's contribution and forwarded, or is the result where the chunk's owner is reached
(R359). -/
def Packet.combined (p : Packet) (node : BitVec 16) (last : Bool) (c own : Chunk) : Packet :=
  let sum := List.zipWith (combineElem p.isMax (p.at 2 1)) c.words own.words
  let bad := c.poison || own.poison
  let p := ({ p with got := p.got.filter fun x => x.i != c.i } : Packet).noteOrigin own.poison node
  if last then { p with results := p.results ++ [{ i := c.i, words := sum.map (resultElem (p.at 2 1)), poison := bad }] }
  else { p with chunks := p.chunks ++ [{ i := c.i, words := sum, poison := bad }] }

/-- Packet i of a queue goes on with a partial: a contribution that cannot be read leaves it waiting, and suspends the queue where it is
refused (R217). -/
def State.reduceGot (s : State) (q : DrayQ) (i : Nat) (p : Packet) (pos : Nat) (c : Chunk) : State :=
  match s.contribution (s.queueMover q p.idx) p c.i with
  | .error e => s.qSuspend q p 0 0 e
  | .ok (s, own) => s.modPkt q.pa i fun p => p.combined (s.nodeId.setWidth 16) (pos == c.i % s.ringSize (p.at 28 1)) c own

/-- REDUCE (R215, R359): the packet begins by forwarding this module's contribution to every chunk that starts here; later it combines what has
arrived and could not be combined. -/
def execReduce (s : State) : Host.Outcome State Fault Refusal :=
  let pa := s.arg.pa
  let q := s.dray pa
  match s.pktWhere pa fun _ p => p.type == 6 && (!p.worked || (p.collecting && !p.got.isEmpty)) with
  | none => .next s
  | some (i, p) =>
    let g := p.at 28 1
    match s.ringPos g with
    | none => .next s
    | some pos =>
      match (if p.worked then p.got else []) with
      | c :: _ => .next (s.reduceGot q i p pos c)
      | [] =>
      let mine := (List.range p.chunkCount).filter fun c => (c + 1) % s.ringSize g == pos
      match s.starts (s.queueMover q p.idx) p mine with
      | .error e => .next (s.qSuspend q p 0 0 e)
      | .ok (s, cs) =>
        .next (s.modPkt pa i fun p =>
          ({ p with worked := true, chunks := cs, since := s.now }).noteOrigin (cs.any fun c => c.poison) (s.nodeId.setWidth 16))

/-- REDUCE_CHUNK (R359): chunk `num` of collective `num2` arrives with `words`, one for each element. At a position that has not
contributed yet it is a partial, which is combined and forwarded, or kept while this module's contribution cannot be read; elsewhere it is the
result. `yes2` says that it is poisoned, `v` by whom first, `yes` that a link loss has cut it off, and `code` other than 0 that the sender's E,
format, operation or C differs. -/
def execReduceChunk (s : State) : Host.Outcome State Fault Refusal :=
  let pa := s.arg.pa
  let q := s.dray pa
  let c := s.arg.num
  match findIx q.pkts 0 fun _ p => p.collecting && p.at 32 4 == s.arg.num2 % 2 ^ 32 with
  | none => .next s
  | some (i, p) =>
    match s.ringPos (p.at 28 1) with
    | none => .next s
    | some pos =>
      let words := s.arg.words.map fun w => w.setWidth 32
      if s.arg.code ≠ 0 ∨ p.chunkCount ≤ c ∨ words.length ≠ p.chunkElems c then .next (s.modPkt pa i fun p => { p with mismatch := true })
      else if p.results.any (fun x => x.i == c) ∨ p.got.any (fun x => x.i == c) then .next s
      else
        let chunk : Chunk := { i := c, words := words, poison := s.arg.yes2 || s.arg.yes }
        let note := fun (p : Packet) =>
          ({ p with since := s.now, told := false, lost := p.lost || s.arg.yes }).noteOrigin s.arg.yes2 (s.arg.v.setWidth 16)
        if p.chunks.any fun x => x.i == c then .next (s.modPkt pa i fun p => note { p with results := p.results ++ [chunk] })
        else
          let s := s.modPkt pa i fun p => note { p with got := p.got ++ [chunk] }
          if s.queueRuns pa && p.eng.isSome then .next (s.reduceGot (s.dray pa) i (note p) pos chunk) else .next s

/-- COLLECTIVE_TIMEOUT (R360): 10 ms without a participant's chunk: a record is forwarded, once, and the packet keeps waiting. -/
def execCollectiveTimeout (s : State) : Host.Outcome State Fault Refusal :=
  let pa := s.arg.pa
  let q := s.dray pa
  match s.pktWhere pa fun _ p => p.collecting && !p.told && decide (p.since + watchdogCycles ≤ s.now) with
  | none => .next s
  | some (i, p) =>
    let r := s.queueRecord q p.idx { code := 0x19, addr := BitVec.ofNat 64 pa.toNat }
    .next ((s.modPkt pa i fun p => { p with told := true }).forwardRec (cfgDie (s.qCfg pa.toNat)) r)

/-! ### The collective record (R361) -/

/-- Numbers in ascending order. -/
def insertAsc (l : List Nat) (n : Nat) : List Nat :=
  match l with
  | [] => [n]
  | x :: t => if n ≤ x then n :: x :: t else x :: insertAsc t n

/-- The 64 bytes of the collective record. -/
def Packet.collective (p : Packet) : List Byte :=
  let bad := ((p.results.filter fun c => c.poison).map fun c => c.i).foldl insertAsc []
  let bit := fun (b : Bool) (n : Nat) => if b then 2 ^ n else 0
  let st := bit (!bad.isEmpty) 0 + bit p.lost 1 + bit p.mismatch 2 + 8
  let origin := match p.origin with | some n => n.toNat | none => 0xFFFF
  leBytes 4 (p.at 32 4) ++ leBytes 4 st ++ leBytes 2 origin ++ leBytes 2 (min bad.length 0xFFFF) ++ leBytes 4 0
    ++ (List.range 12).flatMap fun i => leBytes 4 (bad.getD i 0xFFFFFFFF)

/-- The results of a collective, at their places in the destination; a chunk that a lost link has cut off has no words, and its sectors are
poisoned as they stand (R356, R361). -/
def State.writeResults (s : State) (m : Mover) (p : Packet) (l : List Chunk) : Except EStop State :=
  match l with
  | [] => .ok s
  | c :: t =>
    let va := addr64 (p.at 16 8 + c.i * p.at 36 4)
    let bs := c.words.flatMap fun w => (leBytes p.width w.toNat).map fun b => (b, c.poison)
    match (if c.words.isEmpty then s.poisonPieces m true (cutRange 32 va (p.chunkSize c.i)) else s.moverWrite m va bs) with
    | .error e => .error e
    | .ok s => s.writeResults m p t

/-- A REDUCE packet completes: the results are written at once, unless the packets differ; the collective record comes before STAT. -/
def State.reduceComplete (s : State) (q : DrayQ) (i : Nat) (p : Packet) : State :=
  match (if p.mismatch then .ok s else s.writeResults (s.queueMover q p.idx) p p.results) with
  | .error e => s.qSuspend q p 0 0 e
  | .ok s =>
    let crec := s.bar0.readLE (ringEntry (p.at 28 1)) 8
    let who := queueWho q.pa p.idx
    let s := if crec = 0 then s else s.putPa crec p.collective who
    let bit := fun (b : Bool) (n : Nat) => if b then 2 ^ n else 0
    let s := s.modPkt q.pa i fun p =>
      { p with stat := BitVec.ofNat 32 (bit (p.results.any fun c => c.poison) 2 + bit p.lost 1)
               deferred := if p.lost then keepFault p.deferred (s.queueRecord q p.idx { code := 0x38, cls := 2 }) else p.deferred }
    s.pktComplete q.pa i none

/-! ### Completion (R211) -/

/-- A packet has nothing left but its completion. -/
def Packet.over (p : Packet) : Bool :=
  match p.type with
  | 1 => (match p.job with | some j => j.over | none => false)
  | 5 => p.worked
  | 6 => p.worked && (p.mismatch || p.chunkCount ≤ p.results.length)
  | 7 => p.worked
  | _ => false

/-- STAT bits of a copy. -/
def CopyJob.stat (j : CopyJob) : BitVec 32 :=
  let bit := fun (b : Bool) (n : Nat) => if b then 2 ^ n else 0
  BitVec.ofNat 32 (bit j.poison 2 + bit j.loss.isSome 1 + bit j.csumBad 0)

/-- PACKET_COMPLETION (R211): the packet that `num` picks among those with nothing left to do completes, once
its post is not held. -/
def execPacketCompletion (s : State) : Host.Outcome State Fault Refusal :=
  let pa := s.arg.pa
  let q := s.dray pa
  let ready := (List.range q.pkts.length).filter fun i => match q.pkts[i]? with | some p => p.over | none => false
  match s.pktWhere pa fun i p => p.over && i == ready.getD (s.arg.num % ready.length) 0 with
  | none => .next s
  | some (i, p) =>
    if s.pktHeld pa i none then .next s
    else
    match p.job with
    | some j =>
      let s := if j.mode = 0 then s else s.setQField pa.toNat 0x30 4 j.adler.toNat
      let r := fun (x : TrapRec) => { x with rowp := BitVec.ofNat 64 (j.total % 2 ^ 32), info := orOnes j.loss }
      let s := s.modPkt pa i fun p =>
        { p with stat := j.stat, deferred := p.deferred.map fun x => if x.code = 0x38 then r x else x }
      .next (s.pktComplete pa i none)
    | none => if p.type = 6 then .next (s.reduceComplete q i p) else .next (s.pktComplete pa i none)

end Sys2Proof.Machine
end

