-- ==== Sys2Proof/Machine/Reliab.lean ====
section
/-! DEFINITION. Reliability and measurement: TRCW, SCRUB, POISONQ, CSUM, TRIAL, sampling and trials, scrubbers, and the SRAM
rail (R99, R199, R326, R327, R334 to R338). -/

namespace Sys2Proof.Machine

/-! ### Words (R199, R337, R338) -/

/-- TRCW: v →. -/
def execTrcw (r : BitVec 4) (s : State) : Host.Outcome State Fault Refusal :=
  .next (runWord (.trcw r) r { pops := 1 } (fun w a s => ok (s.trace w.k 1 w.q w.pc 0 0 (a.headD 0)) []) s)

/-- Scrub a sector that the bank of a core holds at an offset: 0 clean, 1 corrected, 2 now poisoned, 3 already poisoned (R199, R327). -/
def State.scrubAt (s : State) (k : CoreId) (off sec : Nat) : Nat × State :=
  if s.poison.contains sec then (3, s)
  else
    match s.ecc.find? fun e => e.1 == sec with
    | none => (0, s)
    | some (_, bad) =>
      let s := { s with ecc := s.ecc.filter fun e => e.1 != sec }
      if bad then (2, (({ s with poison := sec :: s.poison } : State).countLife (.uncorrectable k)).countLife (.poisonings k))
      else (1, (s.countLife (.corrected k (off / 65536))).countRow k off 1)

/-- Scrub one sector of a bank. -/
def State.scrubSector (s : State) (k : CoreId) (off : Nat) : Nat × State := s.scrubAt k off (bankKey k off / 32)

/-- Sectors of pool memory with an error, in lines that the L2 holds. -/
def State.l2Errors (s : State) : List Nat :=
  (s.ecc.filter fun e => decide (e.1 < 2 ^ 46) && (s.resident.contains e.1 || s.l2.touches (32 * e.1) 32)).map fun e => e.1

/-- Scrub what a sector of a CACHE bank holds of the L2's lines: which of them, and whether it is one with an error, is free. (DESIGN CHOICE, log
entry 52.) -/
def State.scrubLine (s : State) (k : CoreId) (off : Nat) : State :=
  let l := s.l2Errors
  if (s.core k).mode ≠ .cache ∨ l = [] then s
  else
    let (i, s) := s.pick (l.length + 1)
    match l[i]? with
    | some sec => (s.scrubAt k off sec).2
    | none => s

/-- SCRUB: a → st; the own bank proper in SCRATCH or FIFO mode only. -/
def execScrub (r : BitVec 4) (s : State) : Host.Outcome State Fault Refusal :=
  .next (runWord (.scrub r) r { pops := 1, pushes := 1, on := [.c] }
    (fun w a s =>
      let va := a.headD 0
      match s.translate (s.agent w.k).root (s.tlbOf w.k) va .load with
      | .error t => .trap t
      | .ok (pa, pol, e) =>
        match s.target pa pol with
        | none => .trap (notPresent va 0)
        | some (.bank k off) =>
          if k ≠ w.k then .trap (privilege va 1)
          else if bankProper ≤ off then .trap (privilege va 2)
          else if 0 < (s.core k).drain then .hold s
          else if (s.core k).mode = .cache then .trap (privilege va 3)
          else if (s.core k).repair.holds off 32 then .hold s
          else if s.foldHeld k off 32 then .wait { reason := 15, beyond := false, object := va } 1 s
          else
            let (st, s) := ((s.useTlb k e).settle w.k w.q).scrubSector k off
            ok s [BitVec.ofNat 64 st]
        | some _ => .trap (privilege va 1)) s)

/-- POISONQ: a → p, like a 1-byte load that does not consume poison. -/
def execPoisonq (r : BitVec 4) (s : State) : Host.Outcome State Fault Refusal :=
  .next (runWord (.poisonq r) r { pops := 1, pushes := 1, acc := { blocks := true } }
    (fun w a s =>
      let va := a.headD 0
      withAccess w s va 1 1 .load 1 fun t s =>
        let s := s.settle w.k w.q
        withWatch w s va (s.viewBytes w.k t 1) false fun _ =>
          let (s, p) := s.peek t 1
          ok (s.chargeFt w.k t 1) [if p then 1 else 0]) s)

/-- CSUM: a n → c. -/
def execCsum (r : BitVec 4) (s : State) : Host.Outcome State Fault Refusal :=
  .next (runWord (.csum r) r { pops := 2, pushes := 1, on := onCVT, acc := { blocks := true } }
    (fun w a s =>
      let n := (a.getD 1 0).toNat % 2 ^ 32
      let cost := 1 + (n + 1023) / 1024
      withRange w s (a.headD 0) n 1 cost fun bs far s =>
        .done (s.chargeFtUnits w.k (ftUnits far)) [(crc32c bs).setWidth 64] { cost := cost }) s)

/-- The first operand of TRIAL 1 outside its limits. (DEDUCED, log entry 30.) -/
def trialBad (lo hi d : W64) : Option W64 :=
  if lo.getLsbD 0 then some lo else if hi.getLsbD 0 then some hi else if hi.toNat ≤ lo.toNat then some hi
  else if 4095 < d.toNat then some d else none

/-- TRIAL r: lo hi d →. (DEDUCED, log entry 30.) -/
def execTrial (r : BitVec 4) (s : State) : Host.Outcome State Fault Refusal :=
  .next (runWord (.trial r) r { pops := 3, on := [.c], rbits := 1, right := some 1 }
    (fun w a s =>
      let lo := a.headD 0
      let hi := a.getD 1 0
      let d := a.getD 2 0
      if !r.getLsbD 0 then .done s [] { after := fun s => s.endTrial w.k }
      else
        match trialBad lo hi d with
        | some x => .trap (badOperand x)
        | none =>
          .done s [] { after := fun s => (s.endTrial w.k).modCore w.k fun c =>
            { c with trial := some { lo := lo, hi := hi, d := d.toNat, inserted := 0 } } }) s)

/-- TRIAL_HOLD (R338): a sequencer whose count has reached 256 restarts it and holds for d cycles. (DEDUCED, log entry 51.) -/
def execTrialHold (s : State) : Host.Outcome State Fault Refusal :=
  let k := s.arg.k
  let q := s.arg.q
  match (s.core k).trial with
  | none => .next s
  | some t =>
    if (s.seq k q).trialCount < 256 then .next s
    else
      let s := s.modSeq k q fun r => { r with trialCount := 0, hold := r.hold + t.d }
      .next (s.modCore k fun c => { c with trial := some { t with inserted := t.inserted + t.d } })

/-! ### Sampling (R334, R335) -/

/-- TCTL_WRITE (R334): TCTL takes the writable bits of `v`; TWP and TLOST become 0. -/
def execTctlWrite (s : State) : Host.Outcome State Fault Refusal :=
  .next (s.writeTctl s.arg.k s.arg.v)

/-- log2 of the sample period, where sampling is on. -/
def Trace.period (t : Trace) : Option Nat :=
  let p := bitsOf t.tctl.toNat 20 16
  if p = 0 then none else some (max p 10)

/-- The state code of a sequencer (R27). -/
def RunState.code (r : RunState) : Nat :=
  match r with
  | .idle => 0
  | .running => 1
  | .blocked => 2
  | .parked => 3

/-- TRACE_SAMPLE (R335): one record for each sequencer that is not idle. -/
def execTraceSample (s : State) : Host.Outcome State Fault Refusal :=
  let k := s.arg.k
  match (s.core k).trace.period with
  | none => .next s
  | some _ =>
    .next ([Seq.c, .m, .v, .t].foldl (fun s q =>
      let r := s.seq k q
      if r.run = .idle then s
      else
        let wr := match r.wait with | some w => w.reason.toNat | none => 0
        s.trace k 2 q r.pc 0 0 (BitVec.ofNat 64 (wr + 16 * r.run.code))) s)

/-! ### Scrubbers (R326, R327) -/

/-- BANK_SCRUB (R327): the bank's scrubber reads its next sector, once the row it lies in is not held (R364). -/
def execBankScrub (s : State) : Host.Outcome State Fault Refusal :=
  let k := s.arg.k
  let i := (s.core k).scrub
  if (s.core k).repair.holds (32 * i) 32 then .next (s.holdAccess .bankScrub)
  else
  let (_, s) := s.scrubSector k (32 * i)
  .next ((s.scrubLine k (32 * i)).modCore k fun c => { c with scrub := (i + 1) % 57344 })

/-- REGISTER_SCRUB (R326): single-bit errors are corrected in place; uncorrectable words stay so until they are read. (DEDUCED, log entry 50.) -/
def execRegisterScrub (s : State) : Host.Outcome State Fault Refusal :=
  let k := s.arg.k
  let fixed := (s.ctx k).regEcc.filter fun e => !e.2
  let s := s.modCtx k fun x => { x with regEcc := x.regEcc.filter fun e => e.2 }
  .next (fixed.foldl (fun s e => s.countLife (.regCorrected k e.1.file)) s)

/-! ### The SRAM rail (R99) -/

/-- SRAM_RAIL_LOW (R99): the cluster's CACHE banks use DEC-TED, and an eighth of them, rounded up, is withdrawn. -/
def execSramRailLow (s : State) : Host.Outcome State Fault Refusal :=
  let d := s.arg.d
  let c := s.arg.c
  if (s.cluster d c).dected.isSome then .next s
  else
    let l := s.withdrawOrder d c
    let s := (l.take ((l.length + 7) / 8)).foldl (fun s k => s.modCore k fun x => { x with withdrawn := true }) s
    .next ((s.modCluster d c fun x => { x with dected := some s.now }).countLife (.dected d c))

/-- SRAM_RAIL_RECOVER (R99): the slice returns to SEC-DED, and its banks to use. -/
def execSramRailRecover (s : State) : Host.Outcome State Fault Refusal :=
  let d := s.arg.d
  let c := s.arg.c
  match (s.cluster d c).dected with
  | none => .next s
  | some t =>
    let s := s.addLife (.dectedMs d c) ((s.now - t) / msCounts)
    let s := (List.finRange 48).foldl (fun s k =>
      let id : CoreId := ⟨d, c, k⟩
      if (s.core id).withdrawn then s.modCore id fun x => { x with withdrawn := false } else s) s
    .next ((s.modCluster d c fun x => { x with dected := none }).enqueue .dispatchStep { d := d })

end Sys2Proof.Machine
end

