-- ==== Sys2Proof/Machine/Stand.lean ====
section
/-! DEFINITION. The Stand: readiness, dispatch, gang reservations, and the clear engine (R29, R39, R49 to R54). -/

namespace Sys2Proof.Machine

/-! ### Cores and clusters -/

/-- Every core of a cluster, in ascending logical number. -/
def clusterCores (d : Die) (c : Cluster) : List CoreId := (List.finRange 48).map fun k => ⟨d, c, k⟩

/-- A core is free (R51). -/
def State.isFree (s : State) (k : CoreId) : Bool :=
  let c := s.core k
  !isSpare k && c.node.isNone && c.saved.isNone && !c.selfTest && c.inService

/-- A core is in service for the Stand: no spare, and not withdrawn from scheduling (R53). -/
def State.inServiceCore (s : State) (k : CoreId) : Bool := !isSpare k && (s.core k).inService

/-- A core is of a KIND: 0 array, 1 merge, 2 any. -/
def ofKind (kind : Nat) (k : CoreId) : Bool :=
  match kind with
  | 0 => !isMerge k
  | 1 => isMerge k
  | _ => true

/-- Free cores of a kind in a cluster: array cores first, then merge cores. -/
def State.freeCores (s : State) (d : Die) (c : Cluster) (kind : Nat) : List CoreId :=
  (clusterCores d c).filter fun k => ofKind kind k && s.isFree k

/-- A cluster holds enough in-service cores for a node. (DEDUCED, log entry 45.) -/
def State.canHold (s : State) (n : Node) (c : Cluster) : Bool :=
  decide (n.gang ≤ ((clusterCores n.id.die c).filter fun k => ofKind n.kind k && s.inServiceCore k).length)

/-- Bytes of a node's declarations that are homed in a cluster's banks (R44, R52). -/
def State.homedBytes (s : State) (n : Node) (c : Cluster) : Nat :=
  (n.desc.oper.map fun o =>
    if o.use.toNat % 4 = 0 then 0
    else
      ((cutRange 4096 o.base.toNat o.size.toNat).map fun p =>
        match s.translate n.root [] (BitVec.ofNat 64 p.1) .load with
        | .ok (pa, pol, _) =>
          match s.target pa pol with
          | some (.bank j _) => if j.die = n.id.die ∧ j.cluster = c then p.2 else 0
          | _ => 0
        | .error _ => 0).sum).sum

/-- The best of a list by a first measure and then a second, the earliest of equals. -/
def bestOf {α : Type} (f g : α → Nat) (l : List α) : Option α :=
  l.foldl (fun b x =>
    match b with
    | none => some x
    | some y => if f y < f x ∨ (f y = f x ∧ g y < g x) then some x else some y) none

/-! ### Readiness and order (R49, R50, R52) -/

/-- Timer counts of 256 µs (R22). -/
def gangCounts : Nat := 576000

/-- Effective priority; Ostler work comes first and does not age. -/
def Node.effective (n : Node) (now : Nat) : Nat :=
  if n.prio = 7 then 7 else min 6 (n.prio + (now - n.readySince.getD now) / msCounts)

/-- One ready node comes before another. (DEDUCED, log entry 45.) -/
def nodeBefore (now : Nat) (a b : Node) : Bool :=
  let ta := a.readySince.getD 0
  let tb := b.readySince.getD 0
  decide (b.effective now < a.effective now)
    || (a.effective now == b.effective now && (decide (ta < tb) || (ta == tb && decide (a.entry.toNat ≤ b.entry.toNat))))

/-- Insert a node in order. -/
def insertNode (lt : Node → Node → Bool) (n : Node) (l : List Node) : List Node :=
  match l with
  | [] => [n]
  | m :: t => if lt m n then m :: insertNode lt n t else n :: m :: t

/-- Nodes of a list in an order. -/
def sortNodes (lt : Node → Node → Bool) (l : List Node) : List Node := l.foldr (insertNode lt) []

/-! ### Placement (R29, R51, R52, R340) -/

/-- A node may use a cluster as far as reservations and withdrawn banks go (R51). -/
def State.clusterOpen (s : State) (n : Node) (c : Cluster) : Bool :=
  let cl := s.cluster n.id.die c
  (cl.reserved == none || cl.reserved == some n.id)
    && (List.finRange 9).all (fun j => j == c || (s.cluster n.id.die j).reserved != some n.id)
    && (List.finRange 48).all fun j => !(n.desc.grant.getLsbD j.val && (s.core ⟨n.id.die, c, j⟩).withdrawn)

/-- The cores a node fits now in a cluster. -/
def State.fitsIn (s : State) (n : Node) (c : Cluster) : Option (List CoreId) :=
  if !s.clusterOpen n c then none
  else
    match n.st with
    | .resumable _ =>
      if n.cores.all fun k => k.cluster == c && s.isFree k then some n.cores else none
    | _ =>
      let l := (s.freeCores n.id.die c n.kind).take n.gang
      if l.length = n.gang then some l else none

/-- Bytes of a declaration as they stand in memory, for capture (R340). -/
def State.operBytes (s : State) (n : Node) (o : Oper) : List Byte :=
  (cutRange 4096 o.base.toNat o.size.toNat).flatMap fun p =>
    match s.translate n.root [] (BitVec.ofNat 64 p.1) .load with
    | .ok (pa, pol, _) => (match s.target pa pol with | some t => s.homeBytes t p.2 | none => List.replicate p.2 0)
    | .error _ => List.replicate p.2 0

/-- Capture's snapshot at placement: every declaration whose USE is read or read-write. -/
def State.captureIn (s : State) (n : Node) : State :=
  s.captureCopy (some n.id) 1 ((n.desc.oper.filter fun o => o.use.getLsbD 0).flatMap (s.operBytes n))

/-- The Ostler hands a node of priority 7 the first trap record of its die whose turn has come (R307) as its current record (R305), but none
that arrived while new firmware is being installed (R367); the PA at which the record stands is a free value. (DESIGN CHOICE, log entry 3.) -/
def State.handRecord (s : State) (n : Node) (k : CoreId) : State :=
  if n.prio ≠ 7 ∨ s.installing n.id.die then s
  else
    match (s.die n.id.die).trapQ.find? (s.recordDue n.id.die) with
    | none => s
    | some r =>
      let (pa, s) := s.fresh
      (s.modDie n.id.die fun d => { d with trapQ := d.trapQ.erase r }).modCore k fun c => { c with serving := some (r, pa) }

/-- Place a node on cores: it joins its groups, and is cleared or restored there. -/
def State.place (s : State) (n : Node) (ks : List CoreId) : State :=
  let s := ks.foldl (fun s k => s.modCore k fun c => { c with node := some n.id }) s
  let s := s.modNode n.id fun x => { x with st := .placed, cores := ks, tstart := if n.saves.isEmpty then s.now else x.tstart }
  let s := (List.finRange 9).foldl (fun s c =>
    if (s.cluster n.id.die c).reserved = some n.id then s.modCluster n.id.die c fun x => { x with reserved := none } else s) s
  if n.saves.isEmpty then
    let s := (s.captureIn n).handRecord n (ks.headD ⟨n.id.die, 0, 0⟩)
    ks.foldl (fun s k => s.enqueue .clearEngine { k := k }) s
  else s.enqueue .resumeRestore { n := n.id }

/-- Try to place one ready node. -/
def State.tryPlace (s : State) (n : Node) : State :=
  let cands := (List.finRange 9).filterMap fun c => (s.fitsIn n c).map fun l => (c, l)
  match cands with
  | [] => s
  | [x] => s.place n x.2
  | _ =>
    match bestOf (fun x : Cluster × List CoreId => s.homedBytes n x.1) (fun _ => 0) cands with
    | some x => s.place n x.2
    | none => s

/-- Reservations of clusters that can no longer hold their gang end (R53). -/
def State.dropReservations (s : State) (d : Die) : State :=
  (List.finRange 9).foldl (fun s c =>
    match (s.cluster d c).reserved with
    | none => s
    | some id =>
      match s.node id with
      | none => s.modCluster d c fun x => { x with reserved := none }
      | some n => if s.canHold n c then s else s.modCluster d c fun x => { x with reserved := none }) s

/-- DISPATCH_STEP (R52): the Stand of a die places the ready nodes that fit, in order. -/
def execDispatchStep (s : State) : Host.Outcome State Fault Refusal :=
  let d := s.arg.d
  let s := (s.dropReservations d).detach d
  .next (((sortNodes (nodeBefore s.now) (s.readyPool d)).foldl State.tryPlace s).detach d)

/-- A cluster that a gang may reserve: it is not reserved and can hold the gang; for a node that is to resume, it is the cluster of
its cores, since it fits no other (R51, R53). (DEDUCED, log entry 45.) -/
def State.reservable (s : State) (n : Node) (c : Cluster) : Bool :=
  (s.cluster n.id.die c).reserved.isNone && s.canHold n c
    && (match n.st with | .resumable _ => n.cores.all fun k => k.cluster == c | _ => true)

/-- GANG_RESERVATION (R53): a gang ready for 256 µs without being placed reserves the eligible cluster with the most free
cores of its kind, then the most declared bytes, then the lowest number. -/
def execGangReservation (s : State) : Host.Outcome State Fault Refusal :=
  match s.node s.arg.n with
  | none => .next s
  | some n =>
    match n.readySince with
    | some t =>
      let held := (List.finRange 9).any fun c => (s.cluster n.id.die c).reserved == some n.id
      if n.gang < 2 ∨ s.now < t + gangCounts ∨ held then .next s
      else
        match bestOf (fun c => (s.freeCores n.id.die c n.kind).length) (s.homedBytes n) ((List.finRange 9).filter (s.reservable n)) with
        | some c => .next ((s.modCluster n.id.die c fun x => { x with reserved := some n.id }).enqueue .dispatchStep { d := n.id.die })
        | none => .next s
    | none => .next s

/-- The gangs of the module in the order in which their 256 µs expire (R53). -/
def State.gangsDue (s : State) : List Node :=
  sortNodes (fun a b => decide (a.readySince.getD 0 < b.readySince.getD 0) || (a.readySince == b.readySince && decide (a.readyNo ≤ b.readyNo)))
    (s.nodes.filter fun n => n.readySince.isSome && decide (1 < n.gang))

/-- Since when each ready node has stood in the state in which no cluster of its die can hold it (R53). -/
def State.markStuck (s : State) : State :=
  let stays := fun n : Node => n.readySince.isSome && !(List.finRange 9).any (s.canHold n)
  { s with
      nodes := s.nodes.map fun n => { n with stuck := if stays n then some (n.stuck.getD s.now) else none }
      dies := s.dies.map fun d => { d with reported := d.reported.filter fun i => s.nodes.any fun n => n.id == i && stays n } }

/-- GANG_UNPLACEABLE_REPORT (R53): a node that has been ready for 10 ms while no cluster of its die holds enough in-service cores is
reported to the host driver, once, with cause 0x19 and wait reason 0. -/
def execGangUnplaceableReport (s : State) : Host.Outcome State Fault Refusal :=
  match s.node s.arg.n with
  | none => .next s
  | some n =>
    match n.stuck with
    | none => .next s
    | some t =>
      if s.now < t + watchdogCycles ∨ (s.die n.id.die).reported.contains n.id ∨ (List.finRange 9).any (s.canHold n) then .next s
      else
        let r : TrapRec := { s.record ⟨n.id.die, 0, 0⟩ .c 0 0 { code := 0x19 } with core := 0, ids := n.ids }
        .next (s.modDie n.id.die fun d => { d with reported := n.id :: d.reported, fwd := d.fwd ++ [r] })

/-! ### The clear engine (R29, R39) -/

/-- Tiles of a mask. -/
def popTiles (m : BitVec 16) : Nat := ((List.range 16).filter fun i => m.getLsbD i).length

/-- Cycles of clearing. -/
def clearCycles (tmask : BitVec 16) (accn : Nat) : Nat := 8 * popTiles tmask + (accn + 1) / 2 + 4

/-- Tiles of a mask zero and empty, slots below a count zero, of FP32 kind and without poison. -/
def Ctx.clearFootprint (x : Ctx) (tiles : BitVec 16) (slots : Nat) : Ctx :=
  let high := fun b : BitVec 512 => b &&& ~~~(BitVec.ofNat 512 (2 ^ slots - 1))
  let gone := fun w : RegWord => (w.file == .tile && tiles.getLsbD (w.n / 1024)) || (w.file == .slot && decide (w.n / 64 < slots))
  { x with tiles := x.tiles.filter (fun b => !tiles.getLsbD (b.1 / 4096)), full := x.full &&& ~~~tiles
           acc := x.acc.filter (fun b => decide (256 * slots ≤ b.1)), kind := high x.kind, pois := high x.pois
           regEcc := x.regEcc.filter fun e => !gone e.1 }

/-- The context at a node's first word (R29): gang rank `rank` of `size`. -/
def Ctx.first (x : Ctx) (d : Desc) (rank size : Nat) (merge : Bool) : Ctx :=
  let x := { x.vacate with tmask := d.tmask, accn := d.accn }
  let x := x.clearFootprint d.tmask d.accn
  let sv : Vector W64 16 :=
    vput (vput (vput (vput (.replicate 16 0) 0 d.args) 1 d.va) 2 (BitVec.ofNat 64 rank)) 3 (BitVec.ofNat 64 size)
  { x with
      c := { x.c with run := .running, pc := d.code.setWidth 57, hold := clearCycles d.tmask d.accn }
      regs := { x.regs with s := sv, fi := d.fi, ft := d.ft, tb := { value := 0, owner := if merge then 2 else 1 } }
      te := { x.te with adler := 1 }, chain := .replicate 4 (Chain.never_ 1) }

/-- CLEAR_ENGINE (R39): on a core on which a node has just been placed, the footprint is zeroed and the state set; C holds for
the cycles that takes, which are not charged. -/
def execClearEngine (s : State) : Host.Outcome State Fault Refusal :=
  let k := s.arg.k
  let c := s.core k
  match s.nodeOf k with
  | none => .next s
  | some n =>
    if n.st = .placed ∧ c.ctx.c.run = .idle ∧ !c.haltLine ∧ c.saved.isNone ∧ n.saves.isEmpty then
      .next (s.modCore k fun c =>
        { c with ctx := c.ctx.first n.desc (n.cores.idxOf k) n.gang (isMerge k), version := [], whole := [], barr := [], pend := []
                 hook := none, hit := none, preempt := none, halted := false, icache := [], phase := Phase.first })
    else .next s

end Sys2Proof.Machine
end

