-- ==== Sys2Proof/Machine/Ending.lean ====
section
/-! DEFINITION. How a node ends: launch end (R59, R93, R297, R340), a fatal end with its dump and IDEM's relaunch (R306), and
the host driver's end requests. -/

namespace Sys2Proof.Machine

/-! ### What every end does -/

/-- A fold of a core is abandoned. -/
def State.dropFold (s : State) (k : CoreId) : State :=
  if (s.cluster k.die k.cluster).folding = some k then s.modCluster k.die k.cluster fun c => { c with folding := none } else s

/-- What a core has sent into its cluster's broadcast tree is abandoned. -/
def State.dropTree (s : State) (k : CoreId) : State :=
  s.modCluster k.die k.cluster fun c => { c with tree := c.tree.filter fun u => u.k != k }

/-- Reservations of a node end. -/
def State.unreserve (s : State) (n : NodeId) : State :=
  (List.finRange 9).foldl (fun s c =>
    if (s.cluster n.die c).reserved = some n then s.modCluster n.die c fun x => { x with reserved := none } else s) s

/-- A counter bound to a node is unbound. -/
def State.unbind (s : State) (n : NodeId) : State :=
  s.modDie n.die fun d =>
    { d with counters := (d.counters.map fun c => if c.bound = some n then { c with bound := none } else c).filter fun c =>
               c.value != 0 || c.bound.isSome }

/-- A trap that stopped a node is not serviced any more; deferred faults are still forwarded. -/
def State.dropTraps (s : State) (n : Node) : State :=
  s.modDie n.id.die fun d =>
    { d with trapQ := d.trapQ.filter fun r => !(r.ids == n.ids && r.cls != 2 && r.who.toNat / 2 ^ 62 != 1) }

/-- Each successor counter is decremented by 1, in list order (R59). -/
def State.releaseSucc (s : State) (l : List (BitVec 32)) : State := l.foldl (fun s c => s.decrement c 1) s

/-- The post of DONEADD to DONE, where DONE is not 0 (R59). -/
def State.tryDone (s : State) (n : Node) : Posted :=
  if n.desc.done = 0 then .done s
  else
    let a : Agent :=
      { root := n.root, core := n.cores.headD ⟨n.id.die, 0, 0⟩, grant := n.desc.grant, groups := n.groups, priv := n.prio == 7 }
    s.postVa a n.desc.done n.desc.doneadd 0

/-- The post of DONE is held by a draining bank or a fold barrier: the end waits for it. -/
def State.doneHeld (s : State) (n : Node) : Bool := match s.tryDone n with | .held => true | _ => false

/-- DONEADD is posted to DONE; a DONE that cannot be used is skipped and reported (R59, R211). -/
def State.postDone (s : State) (n : Node) : State :=
  match s.tryDone n with
  | .done s => s
  | .skip c =>
    let k := n.cores.headD ⟨n.id.die, 0, 0⟩
    s.forwardRec n.id.die { s.record k .c 0 0 { code := c, cls := 2, addr := n.desc.done } with ids := n.ids }
  | .held => s

/-- A core leaves a node: its bank returns to CACHE mode and it falls free (R93). -/
def State.leaveCore (s : State) (k : CoreId) : State := (((s.dropFold k).dropTree k).setMode k .cache).freeCore k

/-! ### Launch end (R59, R340) -/

/-- CRC-32C of a declaration's bytes as they stand. -/
def State.operCrc (s : State) (n : Node) (o : Oper) : BitVec 32 := crc32c (s.operBytes n o)

/-- Two slots of the capture ring are taken for a record (R202, R340). (DEDUCED, log entry 30.) -/
def State.ringPut (s : State) (pa : PA) (bs : List Byte) : State :=
  let i := s.qField pa.toNat 0x10 8
  let s := (s.putPa (s.slotPa pa.toNat i) (bs.take 64) 0).putPa (s.slotPa pa.toNat (i + 1)) (bs.drop 64) 0
  s.setQField pa.toNat 0x10 8 (i + 2)

/-- The capture ring has room for a record, and no bank holds it. -/
def State.captureRoom (s : State) (pa : PA) : Bool :=
  let i := s.qField pa.toNat 0x10 8
  decide (i + 2 ≤ s.qField pa.toNat 0x18 8 + 2 ^ cfgLog (s.qCfg pa.toNat)) && !s.paHeld pa.toNat 64 && !s.ringHeld pa.toNat i 2

/-- The node of a captured copy keeps where its first record stands. -/
def CapPiece.note (p : CapPiece) (at_ : Nat) (x : Node) : Node :=
  if !p.first then x
  else if p.kind = 0 then { x with dpa := some at_ }
  else if p.kind = 1 then { x with spa := some at_ }
  else x

/-- What capture has to store goes to the ring, as far as it has room; `fuel` bounds the records. -/
def State.pourCapture (s : State) (fuel : Nat) : State :=
  match fuel, s.captureDue, s.captureRing with
  | fuel + 1, p :: rest, some pa =>
    if !s.captureRoom pa then s
    else
      let at_ := s.slotPa pa.toNat (s.qField pa.toNat 0x10 8)
      ((({ s with captureDue := rest } : State).ringPut pa p.data).modNode p.n (p.note at_)).pourCapture fuel
  | _, _, _ => s

/-- The launch end of a node with CAPT = 1 is held while its record has no room, or earlier copies still wait for theirs (R340). -/
def State.captureHeld (s : State) (n : Node) : Bool :=
  match s.captureRing with
  | none => false
  | some pa => n.desc.ctrl.getLsbD 16 && (!s.captureDue.isEmpty || !s.captureRoom pa)

/-- A place in the capture ring; where no ring has been named it is nowhere, and the value is free. -/
def State.capturePlace (s : State) (p : Option Nat) : W64 × State :=
  match p with
  | some a => (BitVec.ofNat 64 a, s)
  | none => s.fresh

/-- The 128-byte node record. (DEDUCED, log entry 30.) -/
def State.captureOut (s : State) (n : Node) : State :=
  if !n.desc.ctrl.getLsbD 16 then s
  else
    let (dpa, s) := s.capturePlace n.dpa
    let ix := List.range 8
    let out := fun (j : Nat) => match n.desc.oper[j]? with | some o => o.use.getLsbD 1 | none => false
    let mask := (ix.filter out).foldl (fun a j => a + 2 ^ j) 0
    let any := n.desc.oper.any fun o => o.use.getLsbD 0 && o.size != 0
    let (spa, s) := if any then s.capturePlace n.spa else (0, s)
    let crc := fun (j : Nat) => match n.desc.oper[j]? with | some o => if o.use.getLsbD 1 then (s.operCrc n o).toNat else 0 | none => 0
    let bs := leBytes 8 n.ids.toNat ++ leBytes 8 dpa.toNat ++ leBytes 8 spa.toNat ++ leBytes 8 n.tstart
      ++ leBytes 8 s.now ++ leBytes 4 mask ++ leBytes 4 0 ++ ix.flatMap (fun j => leBytes 4 (crc j)) ++ List.replicate 48 0
    let s := { s with capture := s.capture ++ [(n.ids, 2, bs)] }
    match s.captureRing with
    | some pa => s.ringPut pa bs
    | none => s

/-- Deferred faults still due when a node ends are raised (R299, R335). -/
def State.flushPend (s : State) (k : CoreId) : State :=
  ((s.core k).pend.foldl (fun s r => s.takeRecord k r) s).modCore k fun c => { c with pend := [] }

/-- Step 1 of a launch end: the versions of a node's cores become visible, and what was deferred is raised. -/
def State.settleCores (s : State) (l : List CoreId) : State := l.foldl (fun s k => (s.commit k).flushPend k) s

/-- A launch end has something to do: it is held neither by a full ring nor by the bank of its DONE, or its step 1 is still due. -/
def State.endDue (s : State) (n : Node) : Bool :=
  (!s.captureHeld n && !s.doneHeld n) || n.cores.any fun k => !(s.core k).version.isEmpty || !(s.core k).pend.isEmpty

/-- LAUNCH_END (R59): once every core has raised its halt line, the node's stores are visible, the node record is captured, DONE is
posted, the successors are released, and the cores fall free. -/
def execLaunchEnd (s : State) : Host.Outcome State Fault Refusal :=
  match s.node s.arg.n with
  | none => .next s
  | some n =>
    if n.st ≠ .placed ∨ !s.allHalted n then .next s
    else
      let s := s.settleCores n.cores
      if s.captureHeld n || s.doneHeld n then .next s
      else
        let s := s.captureOut n
        let s := (s.postDone n).releaseSucc n.desc.succ
        let s := n.cores.foldl State.leaveCore (s.mgFreeAll n.id)
        .next (s.dropNode n.id)

/-! ### Ends without launch end (R306) -/

/-- A core's save as a dump: the context as it stands, or the save that is in the window; the version is discarded. A trial ends with a save
(R338). -/
def State.dumpCore (s : State) (n : Node) (k : CoreId) (cause : BitVec 8) : State × (CoreId × Saved) :=
  let c := s.core k
  match c.saved with
  | some v => (s, (k, s.keepOf n k { v with version := [], whole := [] }))
  | none =>
    let s := s.endTrial k
    let c := s.core k
    let v : Saved :=
      { skind := 2, cause := cause, ctx := c.ctx.forSave c.ctx.tmask c.ctx.accn 0xFFFF, mode := c.mode, fifo := c.fifo, hook := c.hook
        version := [], whole := [], phase := c.phase, barr := c.barr, haltLine := c.haltLine, pend := c.pend, record := none, keep := []
        keepPoison := [], segs := [] }
    (s.writeWindow k v c.ctx.tmask c.ctx.accn, (k, s.keepOf n k v))

/-- The dumps of the cores on which a node stands. -/
def State.dumpAll (s : State) (n : Node) (cause : BitVec 8) (l : List CoreId) : State × List (CoreId × Saved) :=
  match l with
  | [] => (s, [])
  | k :: t =>
    let (s, d) := s.dumpCore n k cause
    let (s, ds) := State.dumpAll s n cause t
    (s, d :: ds)

/-- A node stops for good: its version is discarded, its cores fall free and leave their groups, and what it had in its cores stays as
a dump. Its sessions are freed. -/
def State.stopNode (s : State) (n : Node) (cause : BitVec 8) : State :=
  let on := n.cores.filter fun k => (s.core k).node == some n.id
  let (s, ds) := s.dumpAll n cause on
  let s := on.foldl (fun s k => (s.flushPend k).leaveCore k) s
  let s := (((s.mgFreeAll n.id).unreserve n.id).unbind n.id).dropTraps n
  s.modNode n.id fun x =>
    { x with st := .dumped, cores := [], saves := [], dump := x.dump ++ (n.saves.map fun v => (v.1, { v.2 with version := [], whole := [] })) ++ ds
             desc := { x.desc with gvalid := 0 }, watch := .replicate 8 none, imprecise := none }

/-- A node that has ended and holds no dump is gone. -/
def State.sweepNode (s : State) (n : NodeId) : State :=
  match s.node n with
  | some x => if x.st = .dumped ∧ x.dump = [] then s.dropNode n else s
  | none => s

/-- The fare of a relaunch is drawn from POOL, as R46 states; the second component says whether it could be paid. -/
def State.relaunchFare (s : State) (n : Node) : State × Bool :=
  let a : Agent := { root := n.root, core := n.cores.headD ⟨n.id.die, 0, 0⟩, grant := n.desc.grant, groups := n.groups, priv := false }
  let d := n.desc
  if s.packetNoFare a d.pool d.fi d.ft n.gang then (s, false) else (s.packetPay a d.pool d.fi d.ft n.gang, true)

/-- Where the end comes from a load whose port was lost, the deferred 0x38 that names the port is not raised (R356). -/
def State.dropLinkFault (s : State) (r : TrapRec) : State :=
  match r.coreId with
  | some k =>
    if r.code = 0x16 ∧ r.info = 5 then
      s.modCore k fun c =>
        { c with pend := c.pend.filter fun p => !(p.code == 0x38 && p.seqn == 0 && p.seq == r.seq && p.pc == r.pc && p.time == r.time) }
    else s
  | none => s

/-- A node ends at once with cause 0x32 (R306): IDEM relaunches it once from CODE, with fresh fare; otherwise the record is forwarded. -/
def State.endFatal (s : State) (n : Node) (r : TrapRec) : State :=
  let s1 := (s.dropLinkFault r).stopNode n 0x32
  let (s2, paid) := s1.relaunchFare n
  if n.desc.ctrl.getLsbD 18 && !n.relaunched && paid then
    (s2.modNode n.id fun x => { x with relaunched := true }).makeReady n.id
  else s1.forwardRec n.id.die { r with code := 0x32, cls := 3, kind := 0, wr := 0, addr := 0, rowp := 0, info := r.code.setWidth 64, time := BitVec.ofNat 64 s.now }

/-! ### The host driver's requests (R306, R348) -/

/-- The node that a request names, where it has been accepted and has not ended. -/
def State.liveNode (s : State) (n : NodeId) : Option Node :=
  match s.node n with
  | some x => if x.st = .dumped then none else some x
  | none => none

/-- END_ABANDON (R306): request 2. -/
def State.endAbandon (s : State) (n : NodeId) : State × Nat :=
  match s.liveNode n with
  | none => (s, 1)
  | some x => ((s.stopNode x 0).sweepNode n, 0)

/-- END_COMPLETE (R306): request 3, which posts DONE and releases the successors; the version is discarded. -/
def State.endComplete (s : State) (n : NodeId) : State × Nat :=
  match s.liveNode n with
  | none => (s, 1)
  | some x =>
    let s := s.stopNode x 0
    (((s.postDone x).releaseSucc x.desc.succ).sweepNode n, 0)

/-- RELEASE_DUMP (R348): request 4. -/
def State.releaseDump (s : State) (n : NodeId) : State × Nat :=
  match s.node n with
  | none => (s, 1)
  | some x =>
    if x.dump = [] then (s, 1)
    else ((s.modNode n fun x => { x with dump := [] }).sweepNode n, 0)

end Sys2Proof.Machine
end

