-- ==== Sys2Proof/Machine/Phase.lean ====
section
/-! DEFINITION. Phases: FLIP and SEGCHK (R195, R197), rollback with its refetch and migration (R315 to R321), and ERET (R305). -/

namespace Sys2Proof.Machine

/-! ### FLIP (R195, R315) -/

/-- The snapshot of a core as it stands. -/
def Core.snapshot (c : Core) (carried : BitVec 16) (e : W64) : Snapshot :=
  let x := c.ctx
  { c := x.c, m := x.m, v := x.v, t := x.t, regs := x.regs, carried := carried
    tiles := x.tiles.filter fun b => carried.getLsbD (b.1 / 4096), full := x.full &&& carried, e := e, bad := false
    landings := x.landings }

/-- A new phase begins: its snapshot is written, while C holds. -/
def State.beginPhase (s : State) (k : CoreId) (carried : BitVec 16) (e : W64) : State :=
  let norb := match s.nodeOf k with | some n => n.desc.ctrl.getLsbD 17 | none => true
  let s := s.modCore k fun c =>
    { c with phase := { num := c.phase.num + 1, rb := !norb, snap := some (c.snapshot carried e), tries := 0, missPc := none, told := none } }
  s.modSeq k .c fun r => { r with hold := r.hold + 12 + 16 * popTiles carried }

/-- FLIP r: e k →. (DEDUCED, log entry 29.) -/
def execFlip (r : BitVec 4) (s : State) : Host.Outcome State Fault Refusal :=
  .next (runWord (.flip r) r { pops := 2, on := [.c], rbits := 1, ban := true, acc := { blocks := true } }
    (fun w a s =>
      let x := s.ctx w.k
      let carried := (a.getD 1 0).setWidth 16
      if carried &&& ~~~x.tmask ≠ 0 then .trap (privilege 0 4)
      else if !x.restIdle false then .wait rvzWait 1 s
      else if !x.enginesIdle then .wait (s.engineWait w.k) 1 s
      else
        let s := [Seq.c, .m, .v, .t].foldl (fun s q => s.settle w.k q) s
        let s := s.commit w.k
        let s := if r.getLsbD 0 then s.modRegs w.k fun g => { g with bufa := g.bufb, bufb := g.bufa } else s
        .done s [] { after := fun s => s.beginPhase w.k carried (a.headD 0) }) s)

/-! ### SEGCHK (R197, R323) -/

/-- SEGCHK: n s →. The segment goes up to the word before it; the next one begins with the word after it. -/
def execSegchk (r : BitVec 4) (s : State) : Host.Outcome State Fault Refusal :=
  .next (runWord (.segchk r) r { pops := 2 }
    (fun w a s =>
      let q := s.seq w.k w.q
      let n : BitVec 32 := (a.headD 0).setWidth 32
      let g : BitVec 32 := (a.getD 1 0).setWidth 32
      let count : BitVec 32 := BitVec.ofNat 32 q.segCount
      let sig := ~~~q.segCrc
      if (n = 0 ∧ g = 0) ∨ (n = count ∧ g = sig) then
        .done s [] { after := fun s => s.modSeq w.k w.q fun r => { r with segCount := 0, segCrc := 0xFFFFFFFF#32 } }
      else
        .found ((s.countLife (.mismatches w.k)).setLife (.mismatchCause w.k) 0x30)
          { code := 0x30, cls := 3, addr := (g ++ n).setWidth 64, info := (sig ++ count).setWidth 64 }) s)

/-! ### Refetch (R319) -/

/-- How a refetch goes. -/
inductive Refetch where
  /-- The buffer is filled again. -/
  | done (s : State)
  /-- The rollback becomes cause 0x32. -/
  | dead (s : State)
  /-- An access of an entry is refused: the entry, bytes done and landed. -/
  | fault (e : W64) (done arrived : Nat) (t : TrapInfo)
  /-- A bank drains or a fold holds it: the refetch is tried again. -/
  | later

/-- A copy from its beginning to its end; `fuel` bounds its movements. -/
def State.copyAll (s : State) (fuel : Nat) (m : Mover) (j : CopyJob) : Except (EStop × CopyJob) (State × CopyJob) :=
  match fuel with
  | 0 => .ok (s, j)
  | fuel + 1 =>
    if j.over then .ok (s, j)
    else
      match s.copyStep m none j 0 true with
      | .error e => .error (e, j)
      | .ok (s, j, _) => State.copyAll s fuel m j

/-- What a refused access makes of a refetch. -/
def refetchStop (e : W64) (done arrived : Nat) (x : EStop) : Refetch :=
  match x with
  | .trap t => .fault e done arrived t
  | _ => .later

/-- Refetch the chain entries from `e`; `fuel` is the number of entries still allowed. -/
def State.refetch (s : State) (fuel : Nat) (k : CoreId) (e : W64) (adler : BitVec 32) : Refetch :=
  match fuel with
  | 0 => .dead s
  | fuel + 1 =>
    if e = 0 then .dead s
    else
      let m := s.chainMover k { Chain.never_ adler with entry := e }
      match s.moverRead m e.toNat 128 with
      | .error x => refetchStop e 0 0 x
      | .ok (s, cs) =>
        let img := plain cs
        let put := fun (s : State) (v : Nat) => s.chainPut m (e + 0x68) 8 v
        match copyOf img with
        | none => (match put s 0x20 with | .ok s => .dead s | .error _ => .dead s)
        | some j0 =>
          if anyPoison cs then .dead s
          else if 3 < j0.dims.length ∨ leAt img 0 1 / 2 % 16 ≠ 1 ∨ 8 ≤ leAt img 0x60 8 then
            (match put s 0x20 with | .ok s => .dead s | .error _ => .dead s)
          else
            let j := j0.start adler
            match s.copyAll (2 * j.total + 2) m j with
            | .error (x, j) => refetchStop e j.done j.landed x
            | .ok (s, j) =>
              let bit := fun (b : Bool) (n : Nat) => if b then 2 ^ n else 0
              let st := 1 + bit j.poison 3 + bit j.loss.isSome 2 + bit j.csumBad 1 + bit j.loss.isSome 4 + j.total % 2 ^ 32 * 2 ^ 32
              match put s st with
              | .error x => refetchStop e j.done j.landed x
              | .ok s =>
                if (leAt img 0x60 8).testBit 2 then .done s
                else State.refetch s fuel k (BitVec.ofNat 64 (leAt img 0x40 8)) (if j.mode = 0 then adler else j.adler)

/-! ### Rollback (R318, R320, R321) -/

/-- A core's context after a restoration of its snapshot: engine commands abandoned, tiles outside the snapshot and the slots clear. WFLAGS
and the fare stand. -/
def Ctx.rollback (x : Ctx) (p : Snapshot) : Ctx :=
  let seg := fun r : Seqr => { r with segCount := 0, segCrc := 0xFFFFFFFF#32, stopped := none, restart := false, held := none, wait := none, load := none
                                      late := [], reads := [], latch := [], claim := none, mark := (r.issued, r.bubbles) }
  let cleared := x.tmask &&& ~~~p.carried
  let n := max x.me.pairs x.te.pairs
  let y := x.clearFootprint cleared x.accn
  let hold := 12 + 16 * popTiles p.carried + clearCycles cleared x.accn
  { y with
      c := { seg p.c with run := .running, hold := hold, btAt := .replicate 4 p.c.issued }, m := seg p.m, v := seg p.v, t := seg p.t
      regs := { p.regs with wflags := x.regs.wflags, wfNow := x.regs.wfNow, fi := x.regs.fi, ft := x.regs.ft }
      tiles := Memory.overlaySlice (y.tiles.filter fun (b : Host.Cell) => !p.carried.getLsbD (b.1 / 4096)) 0 p.tiles
      full := (y.full &&& ~~~p.carried) ||| p.full
      regEcc := y.regEcc.filter fun e =>
        e.1.file == .slot || e.1.file == .weight || e.1.file == .shadow || (e.1.file == .tile && !x.tmask.getLsbD (e.1.n / 1024))
      lent := [], closing := [], landings := p.landings.map fun l => { l with replay := true }, moves := []
      me := { x.me with queue := [], pairs := n, ended := [] }, te := { x.te with queue := [], held := [], pairs := n }, pins := 0 }

/-- A core after R318, apart from the refetch: lower events of the cancelled phase are discarded, a deferred 0x38 stays. -/
def Core.rollback (c : Core) (p : Snapshot) (gang : Bool) : Core :=
  { c with
      ctx := c.ctx.rollback p, version := [], whole := [], icache := [], halted := false, drained := [], hook := none, hit := none, yielding := false
      pend := c.pend.filter fun r => r.code == 0x38
      preempt := match c.preempt with
        | some x => if x = 0x20 ∨ (x = 0x22 ∧ !gang) then none else some x
        | none => none }

/-- The traps of the cancelled phase that still wait for service are discarded. -/
def State.dropPhaseTraps (s : State) (k : CoreId) : State :=
  s.modDie k.die fun d =>
    { d with trapQ := d.trapQ.filter fun r => !(r.core == cid k && r.cls != 2 && r.who.toNat / 2 ^ 62 != 1) }

/-- The core is rolled back to its snapshot, which ends a trial (R338), and the input buffer refetched. -/
def State.rollTo (s : State) (k : CoreId) (n : Node) (p : Snapshot) (r : TrapRec) : State :=
  let s1 := ((((s.endTrial k).dropFold k).dropTree k).dropPhaseTraps k).modCore k fun c => c.rollback p (1 < n.gang)
  let s1 := s1.modCore k fun c =>
    { c with phase := { c.phase with tries := c.phase.tries + 1, missPc := if r.code = 0x30 then some r.pc else none, told := none } }
  match (if p.e = 0 then .done s1 else s1.refetch 4096 k p.e 1) with
  | .done s => (s.trace k 10 .c p.c.pc 0 0 (r.code.setWidth 64)).countLife (.rollbacks k) |>.setLife (.rollbackCause k) r.code.toNat
  | .dead s => s.endFatal n r
  | .later => s.pushTrap k.die r
  | .fault e done arrived t =>
    let s := s.pushTrap k.die r
    if (s.core k).phase.told = some t.addr then s
    else
      let f := s.record k .t 0 0
        { t with cls := 1, rowp := BitVec.ofNat 64 (done % 2 ^ 32 + arrived % 2 ^ 32 * 2 ^ 32), who := s.chainWho k e }
      (s.modCore k fun c => { c with phase := { c.phase with told := some t.addr } }).takeRecord k f

/-- A spare takes over the logical number of a failing core (R12, R320): the bank holds the keep regions only, and the retired core
stands in the vacated spare position and goes to self-test. -/
def State.promote (s : State) (n : Node) (k : CoreId) (pos : Fin 48) : State :=
  let pieces := if (s.core k).mode = .scratch then s.keepPieces n k else []
  let keep := s.keepBytes k pieces
  let bad := s.keepBad k pieces
  let s := s.clearBank k
  let s := { s with mem := s.mem.overlaySlice (bankKey k 0) keep, poison := bad.map (fun p => bankKey k 0 / 32 + p) ++ s.poison }
  s.swapCores k pos

/-- The Stand never treats a core as free again, or not before a self-test (R320, R321). -/
def State.retire (s : State) (k : CoreId) : State :=
  let s := s.modCore k fun c => { c with inService := false, selfTest := isMerge k }
  if isMerge k then s.modCluster k.die k.cluster fun c => { c with noOpen := true } else s

/-- A rollback-class record is serviced (R318): a rollback, a migration on a repeated segment mismatch, or cause 0x32. -/
def State.rollback (s : State) (k : CoreId) (r : TrapRec) : State :=
  match s.nodeOf k with
  | none => s
  | some n =>
    let ph := (s.core k).phase
    match ph.rb, ph.snap with
    | true, some p =>
      if p.bad ∨ 3 ≤ ph.tries then s.endFatal n r
      else if r.code = 0x30 ∧ ph.missPc = some r.pc then
        match s.spareOf k with
        | some pos =>
          -- one migration for one mismatch, even where the refetch has to be tried again
          let s := (s.promote n k pos).modCore k fun c => { c with phase := { c.phase with missPc := none } }
          s.rollTo k n p r
        | none => (s.endFatal n r).retire k
      else s.rollTo k n p r
    | _, _ => s.endFatal n r

/-! ### ERET (R305) -/

/-- The queue whose descriptor a record names. -/
def State.recordQueue (s : State) (r : TrapRec) : Option DrayQ :=
  s.queues.find? fun q => (queueWho q.pa 0).toNat / 2 ^ 16 == r.who.toNat / 2 ^ 16

/-- What the end of a service does to the object a record names: a queue or a chain context (WKIND 1) goes on, a core rolls back, a
node whose context is saved re-enters the Stand, and one that is stopped in place resumes. -/
def State.serviced (s : State) (r : TrapRec) : State :=
  let owner := s.nodes.find? fun n => n.ids == r.ids
  match r.coreId with
  | none => s
  | some k =>
    if r.objects then
      (match s.recordQueue r with
        | some q => if s.qSuspended q.pa.toNat then s.setQStatus q.pa.toNat 0 0 false false else s
        | none => s.resumeEngine k .t)
    else if r.cls = 2 then s
    else if r.cls = 3 then (if (s.core k).node == (owner.map fun n => n.id) then s.rollback k r else s)
    else
      match owner with
      | none => s
      | some n =>
        match n.st with
        | .suspended c => if fatalCause c then s else s.makeResumable n.id
        | .due => if savesDue n.saves then s else s.makeResumable n.id
        | .placed => if (s.core k).node = some n.id ∧ (s.core k).saved.isNone then s.resumeRecord r else s
        | _ => s

/-- ERET: the service of the current record is complete. -/
def execEret (r : BitVec 4) (s : State) : Host.Outcome State Fault Refusal :=
  .next (runWord (.eret r) r { on := [.c], ostler := true }
    (fun w _ s =>
      match (s.core w.k).serving with
      | none => .trap (privilege 0 0)
      | some (t, _) => .done s [] { after := fun s => (s.modCore w.k fun c => { c with serving := none }).serviced t }) s)

end Sys2Proof.Machine
end

