-- ==== Sys2Proof/Machine/Deliver.lean ====
section
/-! DEFINITION. Delivery of traps: deferred faults (R299, R307), what the Ostler does with its trap queue, and the host driver's trap
queue (R301, R304, R346, R347). -/

namespace Sys2Proof.Machine

/-- DEFERRED_FAULT (R299): at a command boundary, with nothing of higher order in service, the oldest deferred fault of a core goes to
the Ostler. -/
def execDeferredFault (s : State) : Host.Outcome State Fault Refusal :=
  let k := s.arg.k
  let c := s.core k
  match c.pend with
  | [] => .next s
  | r :: rest =>
    if c.node.isSome && c.saved.isNone && c.hook.isNone && c.hit.isNone && c.ctx.outsideGroups && !s.inTrapService k then
      let s := s.modCore k fun c => { c with pend := rest }
      .next (s.takeRecord k r)
    else .next s

/-- A record that a service of its own answers: copy-on-write, queue overflow, an exhausted hamper (R300). (DEDUCED, log entry 46.) -/
def TrapRec.ownService (r : TrapRec) : Bool := (r.code == 0x10 && r.kind == 2) || r.code == 0x28 || r.code == 0x29

/-- What the Ostler does with the first record whose turn has come (R307) and that no service of its own answers. (DEDUCED, log entry 46.) -/
def State.ostlerStep (s : State) (d : Die) : State :=
  match (s.die d).trapQ.find? fun r => !r.ownService && s.recordDue d r with
  | none => s
  | some r =>
    let s := s.modDie d fun x => { x with trapQ := x.trapQ.erase r }
    if r.objects then s.forwardRec d r
    else if r.cls = 3 then (match r.coreId with | some k => s.rollback k r | none => s)
    else if r.code = 0x22 ∨ r.code = 0x3F then s
    else (s.forwardRec d r).stopOwner r

/-- BAR0 offset of the host trap queue (R343). -/
def trapBase : Nat := 0x8000

/-- A forwarded record is written to the host driver's trap queue, unless it is full (R347); vector 0 is raised where the queue was
empty (R346). -/
def State.flushRec (s : State) (d : Die) : State :=
  match (s.die d).fwd with
  | [] => s
  | r :: rest =>
    let w := s.host.tqw.toNat
    if 256 ≤ w - s.host.tqr.toNat then s
    else
      let s := s.modDie d fun x => { x with fwd := rest }
      let empty := s.host.tqw == s.host.tqr
      let s := { s with bar0 := s.bar0.writeBytes (trapBase + 64 * (w % 256)) r.bytes, host := { s.host with tqw := s.host.tqw + 1 } }
      if empty then s.raiseIrq 0 else s

/-- TRAP_FORWARD (R301): the Ostler of a die takes up its next record, and forwards the oldest one that it has to forward. While its firmware is
being installed traps are held (R367). -/
def execTrapForward (s : State) : Host.Outcome State Fault Refusal :=
  if s.installing s.arg.d then .next s else .next ((s.ostlerStep s.arg.d).flushRec s.arg.d)

end Sys2Proof.Machine
end

