-- ==== Sys2Proof/Machine/Links.lean ====
section
/-! DEFINITION. The links: CXL ports (R351), Hitch ports (R352 to R354, R356), and accesses of other modules (R355). -/

namespace Sys2Proof.Machine

/-! ### CXL (R351) -/

/-- A CXL port of a number. -/
def cxlPort (n : Nat) : Fin 24 := ⟨n % 24, Nat.mod_lt _ (by decide)⟩

/-- CXL_LINK_FAIL (R351): traffic moves to the failover partner, which no program can tell, or, where the partner path is lost too (`yes`), what
of the pool ranges lies at the port is out of reach. -/
def execCxlLinkFail (s : State) : Host.Outcome State Fault Refusal :=
  let p := cxlPort s.arg.num
  let one := 1#24 <<< p.val
  let s := { s with cxlFailed := s.cxlFailed ||| one, cxlLost := if s.arg.yes then s.cxlLost ||| one else s.cxlLost }
  .next (s.countLife (.cxlRetries p))

/-! ### Hitch flits and lanes (R352, R353) -/

/-- A Hitch port of a number. -/
def hitchPort (n : Nat) : Fin 16 := ⟨n % 16, Nat.mod_lt _ (by decide)⟩

/-- The payload bytes of a flit, at most 56 (R352). -/
def flitBytes (v : W64) : Nat := min 56 (max 1 v.toNat)

/-- LANE_SPARING (R353): the spare lane is used; with the spare used already the port goes on with 4 lanes. One of a CXL port (`yes`) is counted
(R341). -/
def execLaneSparing (s : State) : Host.Outcome State Fault Refusal :=
  if s.arg.yes then .next (s.countLife (.cxlSparings (cxlPort s.arg.num))) else
  let p := hitchPort s.arg.num
  let h := s.hitch[p.val]
  let h := if h.spared then { h with halved := true } else { h with spared := true }
  .next (({ s with hitch := vput s.hitch p h } : State).countLife (.sparings p))

/-! ### The loss of a port (R353, R354, R356, R217) -/

/-- WHO of a link loss: the node and the link sequence number (R356). -/
def linkWho (node num : Nat) : W64 := BitVec.ofNat 64 (2 ^ 63 + node * 2 ^ 48 + num * 2 ^ 16)

/-- NODE of a physical address of another module. -/
def State.remoteNode (s : State) (pa : Nat) : Option Nat :=
  if pa / 2 ^ 51 % 2 = 1 ∧ bitsOf pa 50 41 ≠ s.nodeId.toNat then some (bitsOf pa 50 41) else none

/-- Sequencers of listed cores. -/
def State.allSeqs (s : State) : List (CoreId × Seq) := s.cores.flatMap fun c => [(c.1, Seq.c), (c.1, .m), (c.1, .v), (c.1, .t)]

/-- The i-th of the ports of a mask. -/
def maskPort (mask i : Nat) : Nat :=
  let l := (List.range 16).filter fun p => mask.testBit p
  l.getD (i % max 1 l.length) 16

/-- The port that the traffic to a PA of another module leaves by: one for each NODE and 4 KiB page while the entry stands (R354). -/
def State.portTo (s : State) (pa : Nat) : Option Nat :=
  let e := s.routeTo pa
  if (s.remoteNode pa).isSome && leads e then some (maskPort (e % 65536) (Config.routePort (pa / 4096) e)) else none

/-- A request to a PA is lost with a port. -/
def State.lostWith (s : State) (p : Fin 16) (pa : Nat) : Bool := s.portTo pa == some p.val

/-- The copies in progress, each with its mover, and what they are after a change. -/
def State.mapJobs (s : State) (f : Mover → CopyJob → CopyJob) : State :=
  let s := s.cores.foldl (fun s x =>
    let k := x.1
    let s := x.2.ctx.te.queue.zipIdx.foldl (fun s c =>
      match c.1.op with
      | .copy j => s.modT k c.2 fun c' => { c' with op := .copy (f (s.tMover k c.1) j) }
      | _ => s) s
    (List.finRange 4).foldl (fun s i =>
      match (s.chainOf k i).job with
      | some j => let m := s.chainMover k (s.chainOf k i); s.modChain k i fun c => { c with job := some (f m j) }
      | none => s) s) s
  s.queues.foldl (fun s q =>
    q.pkts.zipIdx.foldl (fun s p =>
      match p.1.job with
      | some j => s.modPkt q.pa p.2 fun p' => { p' with job := some (f (s.queueMover q p.1.idx) j) }
      | none => s) s) s

/-- The copies in progress, each with its mover. -/
def State.jobs (s : State) : List (Mover × CopyJob) :=
  (s.cores.flatMap fun x =>
    (x.2.ctx.te.queue.filterMap fun c => match c.op with | .copy j => some (s.tMover x.1 c, j) | _ => none)
      ++ (List.finRange 4).filterMap fun i => (s.chainOf x.1 i).job.map fun j => (s.chainMover x.1 (s.chainOf x.1 i), j))
    ++ s.queues.flatMap fun q => q.pkts.filterMap fun p => p.job.map fun j => (s.queueMover q p.idx, j)

/-- Where the pieces of a range of a mover's addresses lie in other modules, each with its place in the range. -/
def State.remotePieces (s : State) (m : Mover) (va n : Nat) (x : Acc) : List (Nat × Nat × Nat) :=
  match s.moverTargets m x (cutRange 32 va n) with
  | .ok l => l.filterMap fun p => match p.1 with | .remote pa => some (pa, p.2.1 - va, p.2.2) | _ => none
  | .error _ => []

/-- The places in other modules that accesses in flight go to: stores, loads and reads of fibres that have issued, and units of copies that
have been read. -/
def State.inFlight (s : State) : List Nat :=
  (s.allSeqs.flatMap fun x =>
    let r := s.seq x.1 x.2
    (r.stores.map fun p => p.pa) ++ (r.load.toList.filter fun l => l.value.isNone).map (fun l => l.pa)
      ++ (r.reads.filter fun y => y.value.isNone).map fun y => y.pa)
    ++ s.jobs.flatMap fun j => (j.2.flight.filter fun u => u.data.isSome).flatMap fun u =>
        (s.remotePieces j.1 u.dst u.size .store).map fun p => p.1

/-- A page whose accesses on an old route have all completed takes the new one (R354). -/
def State.dropOldRoutes (s : State) : State :=
  if s.oldRoutes = [] then s
  else
    let pages := s.inFlight.map fun pa => pa / 4096
    { s with oldRoutes := s.oldRoutes.filter fun x => pages.contains x.1 }

/-! ### Poisoned flits (R352) -/

/-- Of the bytes of a unit those are poisoned that a flit with the n bytes at a PA brought. -/
def State.poisonUnit (s : State) (m : Mover) (pa n : Nat) (u : CopyUnit) : CopyUnit :=
  let bad := ((s.remotePieces m u.src u.size .load).filter fun p => decide (p.1 < pa + n ∧ pa < p.1 + p.2.2)).flatMap fun p =>
    (List.range p.2.2).map fun i => p.2.1 + i
  { u with data := u.data.map fun bs => bs.zipIdx.map fun x => if bad.contains x.2 then (x.1.1, true) else x.1 }

/-- A flit of a reply with the n bytes at a PA of another module is poisoned: the load that awaits them consumes the poison (R325, R356), and the
units of copies that read them carry it. -/
def State.poisonReplies (s : State) (pa n : Nat) : State :=
  let s := s.allSeqs.foldl (fun s x =>
    match (s.seq x.1 x.2).load with
    | some l => if decide (l.pa < pa + n ∧ pa < l.pa + 2 ^ l.z.val) then s.takeTrap x.1 x.2 (lostRead l.pa) else s
    | none => s) s
  s.mapJobs fun m j => { j with flight := j.flight.map (s.poisonUnit m pa n) }

/-- The n bytes at a PA that a poisoned flit carried: in a bank, at the members of a multicast, or of a reply. -/
def State.poisonFlit (s : State) (pa n : Nat) : State :=
  match s.target pa .device with
  | some (.bank k off) => (s.setPoison (bankKey k off) n).countLife (.poisonings k)
  | some (.mcast g off) =>
    ((s.members g).filter s.present).foldl (fun s m => (s.setPoison (bankKey m.2 off) n).countLife (.poisonings m.2)) s
  | some (.remote _) => s.poisonReplies pa n
  | _ => s

/-- FLIT_RECEIVE (R352): a flit in sequence is taken, and one with its poison bit set poisons every sector of the `v` bytes at `pa` that it
carries; one whose CRC fails is replayed. -/
def execFlitReceive (s : State) : Host.Outcome State Fault Refusal :=
  let p := hitchPort s.arg.num
  let h := s.hitch[p.val]
  if h.lost then .next s
  else if !s.arg.yes then
    .next (({ s with hitch := vput s.hitch p { h with replay := some (h.replay.getD s.now) } } : State).countLife (.retries p))
  else if s.arg.num2 % 2 ^ 32 ≠ h.num.toNat then .next s
  else
    let s := { s with hitch := vput s.hitch p { h with num := h.num + 1, replay := none } }
    if !s.arg.yes2 then .next s
    else
      .next (s.poisonFlit s.arg.pa.toNat (flitBytes s.arg.v))

/-- A request of a sequencer that awaits an answer is lost with its port: every store that has not been acknowledged, and the load, atomic or
fibre read that waits for its reply, which brings poison (R356). -/
def State.loseRequest (s : State) (p : Fin 16) (num : Nat) (x : CoreId × Seq) : State :=
  let (k, q) := x
  let r := s.seq k q
  let who := fun (pa : Nat) => linkWho ((s.remoteNode pa).getD 0) num
  let out := r.stores.filter fun st => s.lostWith p st.pa
  let s := out.foldl (fun s st => s.defer k q 0 st.pc { code := 0x38, who := who st.pa }) s
  let s := out.foldl (fun s st =>
    let (did, s) := s.pick 2
    let s := match s.storeTarget st with | some t => if did = 1 then s.performStore k q 0 st.pc t st.data else s | none => s
    s.modSeq k q fun r => { r with stores := r.stores.erase st, late := lateAfter r.late st }) s
  let waits := (r.load.toList.filter fun l => l.value.isNone).map (fun l => l.pa) ++ (r.reads.filter fun x => x.value.isNone).map fun x => x.pa
  match waits.find? fun pa => s.lostWith p pa with
  | some pa => (s.defer k q 0 r.trapPc { code := 0x38, who := who pa }).takeTrap k q (lostRead pa)
  | none => s

/-- A unit of a copy that has been read and whose destination lies behind the port is lost (R217). (DEDUCED, log entry 44.) -/
def State.loseUnits (s : State) (p : Fin 16) (m : Mover) (j : CopyJob) : CopyJob :=
  j.flight.foldl (fun j u =>
    if (s.remotePieces m u.dst u.size .store).any fun x => s.lostWith p x.1 then
      { j with flight := j.flight ++ [{ u with data := none }], loss := some (min u.pos (j.loss.getD u.pos)) }
    else { j with flight := j.flight ++ [u] }) { j with flight := [] }

/-- NODEs that can be reached by one port only (R354). -/
def State.onlyBy (s : State) (p : Fin 16) : List Nat :=
  (List.range 1024).filter fun n => s.routed n && s.route n % 65536 == 2 ^ p.val

/-- What the M engine, the gathers and the scatters of a core still read or write at NODEs whose last link is lost will not arrive (R228,
R248). -/
def Ctx.loseNodes (x : Ctx) (gone : List Nat) : Ctx :=
  { x with
      me := { x.me with queue := x.me.queue.map fun c => if c.started then { c with lost := c.lost ++ gone } else c }
      te := { x.te with queue := x.te.queue.map fun c =>
                if c.started then
                  (match c.op with | .gather j => { c with op := .gather { j with lost := j.lost ++ gone } } | _ => c)
                else c } }

/-- The copies of a core's T engine and chain contexts at the loss of a port. -/
def State.loseCopies (s : State) (p : Fin 16) (gone : List Nat) (k : CoreId) : State :=
  let s := s.modCtx k fun x => x.loseNodes gone
  let s := (List.range (s.ctx k).te.queue.length).foldl (fun s i =>
    match (s.ctx k).te.queue[i]? with
    | none => s
    | some c =>
      match c.op with
      | .copy j =>
        let j' := s.loseUnits p (s.tMover k c) j
        let j' := if c.started then { j' with lost := j.lost ++ gone } else j'
        let s := s.modT k i fun c => { c with op := .copy j' }
        if j.loss.isNone && j'.loss.isSome then s.tFault k i { code := 0x38, info := orOnes j'.loss } else s
      | _ => s) s
  (List.finRange 4).foldl (fun s x =>
    match (s.chainOf k x).job with
    | none => s
    | some j =>
      let j := s.loseUnits p (s.chainMover k (s.chainOf k x)) j
      s.modChain k x fun c => { c with job := some { j with lost := j.lost ++ gone } }) s

/-- The last link to a neighbour in a collective's ring is lost. -/
def State.ringCut (s : State) (gone : List Nat) (g : Nat) : Bool :=
  match s.ringPos g with
  | none => false
  | some pos =>
    let n := s.ringSize g
    [(pos + 1) % n, (pos + n - 1) % n].any fun i => gone.contains (s.bar0.readLE (ringEntry g + 0x10 + 2 * i) 2)

/-- A ring that is cut brings no more chunks: those that have no result yet are cut off and poisoned, with LINKLOSS (R361). Every chunk goes
the whole way round. (DEDUCED, log entry 46.) -/
def Packet.cutOff (k : Packet) : Packet :=
  let missing := (List.range k.chunkCount).filter fun i => !k.results.any fun x => x.i == i
  { k with lost := true, got := [], results := k.results ++ missing.map fun i => { i := i, words := [], poison := true } }

/-- The copies, gathers and collectives of a dray queue at the loss of a port. -/
def State.losePackets (s : State) (p : Fin 16) (gone : List Nat) (pa : PA) : State :=
  (List.range (s.dray pa).pkts.length).foldl (fun s i =>
    let q := s.dray pa
    match q.pkts[i]? with
    | none => s
    | some k =>
      match k.job with
      | none =>
        s.modPkt pa i fun k =>
          let k := { k with gjob := k.gjob.map fun j => { j with lost := j.lost ++ gone } }
          if k.collecting && s.ringCut gone (k.at 28 1) then k.cutOff else k
      | some j =>
        let j' := s.loseUnits p (s.queueMover q k.idx) j
        let j' := { j' with lost := j.lost ++ gone }
        let s := s.modPkt pa i fun k => { k with job := some j' }
        if j.loss.isNone && j'.loss.isSome then
          s.modPkt pa i fun k => k.noteFault (s.queueRecord q k.idx { code := 0x38, cls := 2, info := orOnes j'.loss })
        else s) s

/-- The port is removed from every route mask. -/
def State.unroute (s : State) (p : Fin 16) : State :=
  let s := { s with oldRoutes := s.oldRoutes.map fun x => if x.2.testBit p.val then (x.1, x.2 - 2 ^ p.val) else x }
  (List.range 1024).foldl (fun s n =>
    let e := s.route n
    if e.testBit p.val then { s with bar0 := s.bar0.writeLE (routeBase + 8 * n) 8 (e - 2 ^ p.val) } else s) s

/-- HITCH_PORT_LOST (R353): after 2 ms of failed replay. Commands that run do not reach the NODEs that only this port led to any more (R217,
R228, R248). -/
def execHitchPortLost (s : State) : Host.Outcome State Fault Refusal :=
  let p := hitchPort s.arg.num
  let h := s.hitch[p.val]
  match h.replay with
  | none => .next s
  | some t =>
    if h.lost || s.now < t + 2 * msCounts then .next s
    else
      let ks := s.cores.map fun c => c.1
      let s := s.allSeqs.foldl (fun s x => s.loseRequest p h.num.toNat x) s
      let gone := s.onlyBy p
      let s := ks.foldl (fun s k => s.loseCopies p gone k) s
      let s := (s.queues.map fun q => q.pa).foldl (fun s pa => s.losePackets p gone pa) s
      .next { (s.unroute p) with hitch := vput s.hitch p { h with lost := true } }

/-! ### Accesses from other modules (R355) -/

/-- An access from another module to a bank is accepted: its issuer holds XGRANT and a group of the bank's current task. -/
def State.peerGranted (s : State) (xgrant : Bool) (groups : List Byte) (k : CoreId) : Bool :=
  xgrant && groups.any (s.bankGroups k).contains

/-- The bytes that an atomic acts on (R182, R183). -/
def peerAtomicBytes (a : RemoteAtomic) : Nat :=
  match a with
  | .fadd form _ => if form = 2 then 8 else 4
  | _ => 8

/-- What an atomic leaves of an old value, or none where it writes nothing (R182, R183, R185). -/
def peerNew (a : RemoteAtomic) (m v : W64) : Option W64 :=
  match a with
  | .xchg => some v
  | .cas e => if m = e then some v else none
  | .min => some (if m.slt v then m else v)
  | .max => some (if m.slt v then v else m)
  | .minu => some (if m.ult v then m else v)
  | .maxu => some (if m.ult v then v else m)
  | .and => some (m &&& v)
  | .or => some (m ||| v)
  | .xor => some (m ^^^ v)
  | .fadd form narrow => some (afaddNew form.val narrow m v)
  | .post => some (signalAdd m (v.setWidth 24))

/-- The bytes that a remote access touches. -/
def peerBytes (o : RemoteOp) : Nat :=
  match o with
  | .load z => 2 ^ z.val
  | .store z _ => 2 ^ z.val
  | .fetchAdd _ => 8
  | .atomic a _ => peerAtomicBytes a

/-- What another module asks of a bank is performed there. -/
def State.peerPerform (s : State) (who : W64) (t : Target) (o : RemoteOp) : State :=
  let put := fun (s : State) (bs : List Byte) => (s.homeWrite t bs).homeWatch (s.paOf t) bs who
  match o with
  | .load z => (s.peek t (2 ^ z.val)).1
  | .store z v => put s (leBytes (2 ^ z.val) v.toNat)
  | .fetchAdd v =>
    let (s, _) := s.peek t 8
    put s (leBytes 8 (s.homeWord t 8 + v).toNat)
  | .atomic a v =>
    let n := peerAtomicBytes a
    let (s, _) := s.peek t n
    match peerNew a (s.homeWord t n) v with
    | some x => put s (leBytes n x.toNat)
    | none => s

/-- REMOTE_ACCESS (R355): an access from NODE `num`, whose issuer holds XGRANT as `yes` says and the groups `bytes`, at `pa`, with link
sequence number `num2`. The reply leaves the module. While the bank drains, darns the row or is held by a fold, or while an access before it is
held, it waits. (DEDUCED, log entry 43.) (DESIGN CHOICE, log entry 49.) (DESIGN CHOICE, log entry 57.) -/
def execRemoteAccess (s : State) : Host.Outcome State Fault Refusal :=
  let who := linkWho (s.arg.num % 1024) (s.arg.num2 % 2 ^ 32)
  let put := fun (s : State) (t : Target) (bs : List Byte) => (s.homeWrite t bs).homeWatch (s.paOf t) bs who
  match s.target s.arg.pa.toNat .device with
  | some (.bank k off) =>
    let c := s.core k
    let n := peerBytes s.arg.op
    let held := decide (0 < c.drain) || c.repair.holds off n || s.foldHeld k off n || !s.waiting.isEmpty
    if !s.peerGranted s.arg.yes s.arg.bytes k || decide (0x1C0000 ≤ off) then .next s
    else if held then .next (s.holdAccess .remoteAccess)
    else if c.mode != .scratch then .next s
    else .next (s.peerPerform who (.bank k off) s.arg.op)
  | some (.mcast g off) =>
    match s.arg.op with
    | .store z v =>
      let bs := leBytes (2 ^ z.val) v.toNat
      let into := fun p : NodeId × CoreId =>
        s.present p && (s.core p.2).mode == .scratch && s.peerGranted s.arg.yes s.arg.bytes p.2
      let held := fun p : NodeId × CoreId =>
        decide (0 < (s.core p.2).drain) || (s.core p.2).repair.holds off bs.length || s.foldHeld p.2 off bs.length
      if 0x1C0000 < off + bs.length then .next s
      else if !s.waiting.isEmpty || (s.members g).any fun p => into p && held p then .next (s.holdAccess .remoteAccess)
      else .next ((s.members g).foldl (fun s p => if into p then put s (.bank p.2 off) bs else s) s)
    | _ => .next s
  | _ => .next s

end Sys2Proof.Machine
end

