-- ==== Sys2Proof/Machine/HostIf.lean ====
section
/-! DEFINITION. The host interface: BAR0 and BAR2 accesses (R343 to R345) and the request ring (R348). -/

namespace Sys2Proof.Machine

/-! ### BAR0 (R343, R344) -/

/-- Stores in flight that satisfy a test are performed, each after the earlier ones of its sequencer. -/
def State.performIf (s : State) (p : PendingStore → Bool) : State :=
  s.allSeqs.foldl (fun s x => if (s.seq x.1 x.2).stores.any p then s.settle x.1 x.2 else s) s

/-- A value for word i of a format window, its reserved bits at 0 (R5, R102). -/
def windowBits (i : Nat) (v : W64) : W64 := if i = 1 then v &&& 0x8000000FFFFFFFFF else v

/-- A value for the word at an offset of a ring table entry, its reserved bytes at 0 (R5, R358). -/
def ringBits (o : Nat) (v : W64) : W64 := if o = 8 then v &&& 0xFFFF else if 0x90 ≤ o then 0 else v

/-- Loads and reads of fibres in flight that satisfy a test are performed, a sequencer's reads in their order; a load that has taken its value
keeps it, and every earlier one (R120). -/
def State.readIf (s : State) (p : Nat → Nat → Bool) : State :=
  s.allSeqs.foldl (fun s x =>
    let r := s.seq x.1 x.2
    let s := match r.load with
      | some l => if l.value.isNone && p l.pa (2 ^ l.z.val) then s.loadPending x.1 x.2 l else s
      | none => s
    let s := r.reads.foldl (fun s _ =>
      if (s.seq x.1 x.2).reads.any fun y => y.value.isNone && p y.pa y.n then s.fibPerform x.1 x.2 else s) s
    if r.late = [] then s else s.modSeq x.1 x.2 fun r => { r with late := after r.late fun l => p l.pa (2 ^ l.z.val) }) s

/-- A write of 8 bytes to a format window. While it is enabled only the enable bit changes, once every access in flight through the alias
is performed. -/
def State.writeWindowReg (s : State) (w off : Nat) (v : W64) : State :=
  let b := windowBase + 32 * (w % 32)
  let on := (s.bar0.readLE (b + 12) 4).testBit 31
  if !on then { s with bar0 := s.bar0.writeLE (b + off / 8 % 4 * 8) 8 (windowBits (off / 8 % 4) v).toNat }
  else if off / 8 % 4 ≠ 1 ∨ v.getLsbD 63 then s
  else
    let a := s.bar0.readLE b 8
    let n := 64 * s.bar0.readLE (b + 8) 4
    let meets := fun pa m : Nat => decide (pa < a + n ∧ a < pa + m)
    let s := (s.performIf fun p => meets p.pa p.data.length).readIf meets
    { s with bar0 := s.bar0.writeLE (b + 12) 4 (s.bar0.readLE (b + 12) 4 - 2 ^ 31) }

/-- FORMAT_WINDOW_WRITE (R343). -/
def execFormatWindowWrite (s : State) : Host.Outcome State Fault Refusal := .next (s.writeWindowReg s.arg.num s.arg.num2 s.arg.v)

/-- A write of a route-table entry. Pages with accesses in flight keep the old route until those have completed (R354). -/
def State.writeRoute (s : State) (n : Nat) (v : W64) : State :=
  let n := n % 1024
  let kept := ((s.inFlight.filter fun pa => s.remoteNode pa == some n).map fun pa => (pa / 4096, s.routeTo pa)).dedup
  { s with bar0 := s.bar0.writeLE (routeBase + 8 * n) 8 (v.toNat % 2 ^ 17)
           oldRoutes := kept ++ s.oldRoutes.filter fun x => s.remoteNode (x.1 * 4096) != some n }

/-- ROUTE_TABLE_WRITE (R354). -/
def execRouteTableWrite (s : State) : Host.Outcome State Fault Refusal := .next (s.writeRoute s.arg.num s.arg.v)

/-- A host write of 8 bytes to BAR0. -/
def State.bar0Write (s : State) (o : Nat) (v : W64) : State :=
  let plain := { s with bar0 := s.bar0.writeLE o 8 v.toNat }
  if o % 8 ≠ 0 then s
  else if 0x1000 ≤ o ∧ o < 0x1040 then
    match o - 0x1000 with
    | 0x08 => { s with host := { s.host with tqr := v } }
    | 0x10 => { s with host := { s.host with rqw := v } }
    | 0x20 => { s with host := { s.host with apbase := v } }
    | 0x28 => { s with host := { s.host with herr := s.host.herr &&& ~~~v } }
    | _ => s
  else if windowBase ≤ o ∧ o < windowBase + 0x400 then s.writeWindowReg ((o - windowBase) / 32) (o % 32) v
  else if routeBase ≤ o ∧ o < routeBase + 0x2000 then s.writeRoute ((o - routeBase) / 8) v
  else if 0xC000 ≤ o ∧ o < 0x10000 then plain
  else if interruptBase ≤ o ∧ o < interruptBase + 16 * 2046 then plain
  else if 0x20000 ≤ o ∧ o < 0x30000 then { s with bar0 := s.bar0.writeLE o 8 (ringBits (o % 256) v).toNat }
  else s

/-- The kind and place of an item of the lifetime record. -/
def LifeItem.code (i : LifeItem) : List Nat :=
  let core := fun k : CoreId => (cid k).toNat
  match i with
  | .corrected k r => [0, core k, r]
  | .regCorrected k f => [1, core k, f.code]
  | .uncorrectable k => [2, core k]
  | .poisonings k => [3, core k]
  | .regUncorrectable k f => [4, core k, f.code]
  | .regPoisonings k f => [5, core k, f.code]
  | .dected d c => [6, d.val, c.val]
  | .dectedMs d c => [7, d.val, c.val]
  | .rollbackCause k => [8, core k]
  | .mismatchCause k => [9, core k]
  | .retired d c => [10, d.val, c.val]
  | .rollbacks k => [11, core k]
  | .mismatches k => [12, core k]
  | .promotions d c => [13, d.val, c.val]
  | .fenced k => [14, core k]
  | .retries p => [15, p.val]
  | .sparings p => [16, p.val]
  | .cxlRetries p => [17, p.val]
  | .cxlSparings p => [18, p.val]
  | .railSeconds d b => [19, d.val, b.val]
  | .heatSeconds d b => [20, d.val, b.val]
  | .ioHeatSeconds d b => [21, d.val, b.val]
  | .stepSeconds d k => [22, d.val, k.val]

/-- A byte of the lifetime record in BAR0, as it was written last. Where in it each count stands no rule says; a byte that belongs to no count, or
to one of 0, reads zero. (DESIGN CHOICE, log entry 39.) -/
def State.lifeByte (s : State) (o : Nat) : Byte :=
  match s.lifeNv.find? fun x => decide (Config.lifeOffset x.1.code ≤ o) && decide (o < Config.lifeOffset x.1.code + 4) with
  | some x => x.2.extractLsb' (8 * (o - Config.lifeOffset x.1.code)) 8
  | none => 0

/-- What a host read of 8 bytes of BAR0 answers. -/
def State.bar0Read (s : State) (o : Nat) : W64 :=
  match o with
  | 0x0000 => 0x0D09
  | 0x0008 => 0x00B0
  | 0x0010 => s.nodeId.setWidth 64
  | 0x1000 => s.host.tqw
  | 0x1008 => s.host.tqr
  | 0x1010 => s.host.rqw
  | 0x1018 => s.host.rqr
  | 0x1020 => s.host.apbase
  | 0x1028 => s.host.herr
  | _ =>
    if 0x1000 ≤ o ∧ o < 0x1040 then 0
    else if 0x100000 ≤ o ∧ o < 0x200000 then BitVec.ofNat 64 (leNat (bytesFrom (fun a => s.lifeByte (a - 0x100000)) o 8))
    else BitVec.ofNat 64 (s.bar0.readLE o 8)

/-- REGISTER_WRITE (R344): 8 bytes at offset `num` of BAR0, which are then read. -/
def execRegisterWrite (s : State) : Host.Outcome State Fault Refusal :=
  let s := s.bar0Write s.arg.num s.arg.v
  .next { s with hostData := s.bar0Read s.arg.num }

/-! ### BAR2 (R345) -/

/-- The management level as an agent. -/
def hostAgent : Agent := { root := 0, core := ⟨0, 0, 0⟩, grant := 0, groups := [], priv := true }

/-- WHO of the host (R302). -/
def hostWho : W64 := BitVec.ofNat 64 (3 * 2 ^ 62)

/-- What becomes of a host access. -/
inductive HostAcc where
  /-- It reaches a target. -/
  | at (t : Target)
  /-- It is refused. -/
  | refused
  /-- The bank drains, or a fold holds the range: it waits. -/
  | later

/-- The checks of a host access; one to a multicast group that is not open, or has no member, is refused (R105, R345). -/
def State.hostCheck (s : State) (pa n : Nat) (x : Acc) : HostAcc :=
  match s.target pa .device with
  | none => .refused
  | some t =>
    match s.refusal hostAgent (BitVec.ofNat 64 pa) t n x, t with
    | none, .mcast g off =>
      if s.members g = [] then .refused
      else if (s.members g).any fun m => s.memberHolds hostAgent m off n then .later
      else .at t
    | none, _ => .at t
    | some (.trap _), _ => .refused
    | some _, _ => .later

/-- PA of a BAR2 offset. -/
def State.aperture (s : State) (o : Nat) : Nat := (s.host.apbase.toNat + o) % 2 ^ 52

/-- A refused access sets HERR; while an earlier one stands there, HERR keeps it. (DESIGN CHOICE, log entry 39.) -/
def State.hostError (s : State) (pa : Nat) : State :=
  if s.host.herr.getLsbD 63 then s else { s with host := { s.host with herr := BitVec.ofNat 64 (2 ^ 63 + pa) } }

/-- A host access by instruction i goes to its target, is refused, or is held: those held go first, in their order. (DESIGN CHOICE, log entry 57.) -/
def State.hostAccess (s : State) (i : Instr) (pa n : Nat) (x : Acc) (refused : State) (go : Target → State) : State :=
  match s.hostCheck pa n x with
  | .refused => refused
  | .later => s.holdAccess i
  | .at t => if s.waiting.isEmpty then go t else s.holdAccess i

/-- HOST_APERTURE_READ (R345): 2^`num2` bytes at offset `num`; a refused read answers all ones. -/
def execHostApertureRead (s : State) : Host.Outcome State Fault Refusal :=
  let pa := s.aperture s.arg.num
  let n := 2 ^ (s.arg.num2 % 4)
  .next (s.hostAccess .hostApertureRead pa n .load { (s.hostError pa) with hostData := BitVec.allOnes 64 } fun t =>
    let (s, _) := (s.meet t n).peek t n
    { s with hostData := s.homeWord t n })

/-- A host write at its home; it may create queues (R203). -/
def State.hostPut (s : State) (t : Target) (bs : List Byte) : State :=
  match t with
  | .mcast g off =>
    (s.multicast hostAgent g off bs).1.mcastWatch ((s.members g).filter (s.receives hostAgent)) off bs hostWho
  | .ctrl _ _ => s.homeWrite t bs
  | _ => ((s.homeWrite t bs).homeWatch (s.paOf t) bs hostWho).noteWrite t (s.paOf t) bs.length

/-- HOST_APERTURE_WRITE (R345): byte 0 of a 64-byte ring slot that the write covers is performed last. -/
def execHostApertureWrite (s : State) : Host.Outcome State Fault Refusal :=
  let pa := s.aperture s.arg.num
  let bs := s.arg.bytes
  .next (s.hostAccess .hostApertureWrite pa bs.length .store (s.hostError pa) fun t =>
    if pa % 64 = 0 ∧ 1 < bs.length then (s.hostPut (t.add 1) (bs.drop 1)).hostPut t (bs.take 1) else s.hostPut t bs)

/-- HOST_ATOMIC (R342, R345): 0 FetchAdd, 1 Swap, 2 CAS at offset `num`, of 8 bytes (`yes`) or 4, a CAS always of 8; `v` is the operand and `v2`
what CAS expects. -/
def execHostAtomic (s : State) : Host.Outcome State Fault Refusal :=
  let pa := s.aperture s.arg.num
  let n := if s.arg.yes || decide (2 ≤ s.arg.num2) then 8 else 4
  let refused := { (s.hostError pa) with hostData := BitVec.allOnes 64 }
  if pa % n ≠ 0 then .next refused
  else
    .next (s.hostAccess .hostAtomic pa n .atomic refused fun t =>
      let (s, _) := (s.meet t n).peek t n
      let old := s.homeWord t n
      let mask := fun x : W64 => BitVec.ofNat 64 (x.toNat % 2 ^ (8 * n))
      let new := match s.arg.num2 with
        | 0 => some (old + s.arg.v)
        | 1 => some s.arg.v
        | _ => if mask s.arg.v2 = old then some s.arg.v else none
      let s := match new with | some v => s.hostPut t (leBytes n (mask v).toNat) | none => s
      { s with hostData := old })

/-! ### Requests (R348) -/

/-- BAR0 offset of request slot i. -/
def requestSlot (i : Nat) : Nat := 0xC000 + 64 * (i % 256)

/-- A request completes with a status: where the ring holds one not yet completed, the status goes into its byte 1, RQR counts, and
vector 1 is raised. -/
def State.answer (x : State × Nat) : Host.Outcome State Fault Refusal :=
  let s := { x.1 with hostData := BitVec.ofNat 64 x.2 }
  if s.host.rqr = s.host.rqw then .next s
  else
    let s := { s with bar0 := s.bar0.writeLE (requestSlot s.host.rqr.toNat + 1) 1 x.2, host := { s.host with rqr := s.host.rqr + 1 } }
    .next (s.raiseIrq 1)

/-- REQUEST_NONE: code 0. -/
def execRequestNone (s : State) : Host.Outcome State Fault Refusal := State.answer (s, 0)

/-- RESUME_NODE: request 1. -/
def State.resumeNode (s : State) (n : NodeId) : State × Nat :=
  match s.node n with
  | none => (s, 1)
  | some x =>
    match x.st with
    | .suspended c => if fatalCause c then (s, 2) else if savesDue x.saves then (s, 3) else (s.makeResumable n, 0)
    | _ => (s, 1)

/-- A node is on its way to being suspended: a core of it is being stopped for a forwarded trap, or has been. -/
def State.suspending (s : State) (n : NodeId) : Bool :=
  let stops := fun c : BitVec 8 => c != 0x22 && c != 0x3F
  match s.node n with
  | some x => x.st == .placed && x.cores.any fun k => (s.core k).node == some n &&
      ((match (s.core k).preempt with | some c => stops c | none => false)
        || (match (s.core k).saved with | some v => stops v.cause | none => false))
  | none => false

/-- RESUME_NODE (R304, R348). While the node is being stopped for the forwarded trap the request waits. -/
def execResumeNode (s : State) : Host.Outcome State Fault Refusal :=
  if s.suspending s.arg.n then .next s else State.answer (s.resumeNode s.arg.n)

/-- An end request first stops a running node by a hard pre-emption (R308); until its cores are saved the request waits. -/
def State.endWith (s : State) (n : NodeId) (f : State → NodeId → State × Nat) : Host.Outcome State Fault Refusal :=
  match s.liveNode n with
  | none => State.answer (f s n)
  | some x =>
    let on := x.cores.filter fun k => (s.core k).node == some n
    if x.st = .placed ∧ on ≠ [] then
      .next (on.foldl (fun s k => if (s.core k).saved.isSome then s else s.modCore k fun c => { c with preempt := some 0 }) s)
    else State.answer (f s n)

/-- END_ABANDON (R306): request 2. -/
def execEndAbandon (s : State) : Host.Outcome State Fault Refusal := s.endWith s.arg.n State.endAbandon

/-- END_COMPLETE (R306): request 3, which waits while the post of DONE is held. -/
def execEndComplete (s : State) : Host.Outcome State Fault Refusal :=
  match s.liveNode s.arg.n with
  | some x => if x.st ≠ .placed ∧ s.doneHeld x then .next s else s.endWith s.arg.n State.endComplete
  | none => s.endWith s.arg.n State.endComplete

/-- RELEASE_DUMP (R348): request 4. -/
def execReleaseDump (s : State) : Host.Outcome State Fault Refusal := State.answer (s.releaseDump s.arg.n)

/-- Add to FI and FT, saturating at 2^31 − 1. -/
def Regs.credit (r : Regs) (fi ft : Int) : Regs := { r with fi := min fareMax (r.fi + fi), ft := min fareMax (r.ft + ft) }

/-- CREDIT_FARE: request 5. -/
def State.creditFare (s : State) (n : NodeId) (fi ft : Int) : State × Nat :=
  match s.liveNode n with
  | none => (s, 1)
  | some x =>
    let more := fun (v : Saved) => { v with ctx := { v.ctx with regs := v.ctx.regs.credit fi ft } }
    let s := x.cores.foldl (fun s k =>
      if (s.core k).node = some n then
        s.modCore k fun c => { c with ctx := { c.ctx with regs := c.ctx.regs.credit fi ft }, saved := c.saved.map more }
      else s) s
    let s := s.modNode n fun x =>
      { x with saves := x.saves.map fun p => (p.1, more p.2)
               desc := if x.cores.isEmpty then { x.desc with fi := min fareMax (x.desc.fi + fi), ft := min fareMax (x.desc.ft + ft) } else x.desc }
    match s.node n with
    | some y => if (y.st = .due ∨ y.st = .suspended 0x20) ∧ !savesDue y.saves then (s.makeResumable n, 0) else (s, 0)
    | none => (s, 0)

/-- CREDIT_FARE (R348): FI and FT are the low 32 bits of `v` and `v2`, signed. -/
def execCreditFare (s : State) : Host.Outcome State Fault Refusal :=
  let i := fun w : W64 => (w.setWidth 32).toInt
  State.answer (s.creditFare s.arg.n (i s.arg.v) (i s.arg.v2))

/-- The cores on which a running node stands. -/
def State.runningCores (s : State) (n : NodeId) : List CoreId :=
  match s.node n with
  | some x => if x.st = .placed then x.cores.filter fun k => (s.core k).node == some n && (s.core k).saved.isNone else []
  | none => []

/-- Change every core of a running node; status 1 where it does not run. -/
def State.onRunning (s : State) (n : NodeId) (f : Core → Core) : State × Nat :=
  match s.runningCores n with
  | [] => (s, 1)
  | ks => (ks.foldl (fun s k => s.modCore k f) s, 0)

/-- SOFT_PREEMPT (R61): request 6 writes FI := 0. -/
def execSoftPreempt (s : State) : Host.Outcome State Fault Refusal :=
  State.answer (s.onRunning s.arg.n fun c => { c with ctx := { c.ctx with regs := { c.ctx.regs with fi := 0 } } })

/-- HARD_PREEMPT_REQUEST (R61): request 7, cause 0x3F. -/
def execHardPreemptRequest (s : State) : Host.Outcome State Fault Refusal :=
  State.answer (s.onRunning s.arg.n fun c => { c with preempt := askPreempt c.preempt 0x3F })

/-- SET_WATCH_REQUEST (R333): request 8 on a suspended node: watch `v` from the descriptor at PA `v2`, or cleared where that is 0. Of several
statuses the lowest is answered. -/
def execSetWatchRequest (s : State) : Host.Outcome State Fault Refusal :=
  let n := s.node s.arg.n
  let j : Fin 8 := ⟨s.arg.v.toNat % 8, Nat.mod_lt _ (by decide)⟩
  let clear := s.arg.v2 == 0
  let full := decide (16 ≤ s.watchesUsed) && (match n with | some n => n.watch[j.val].isNone | none => true)
  let bs := (s.target s.arg.v2.toNat .cached).map fun t => s.homeBytes t 48
  if !clear && full then State.answer (s, 1)
  else if !clear && (bs.bind watchOf).isNone then State.answer (s, 2)
  else
    match n with
    | none => State.answer (s, 3)
    | some n =>
      match n.st with
      | .suspended _ => State.answer (if clear then s.clearWatch n.id j else (s.setWatch n j (bs.getD [])).2, 0)
      | _ => State.answer (s, 3)

/-- The cores of a 216-byte bitmap, and whether it names a spare (R348). -/
def bitmapCores (bs : List Byte) : List CoreId × Bool :=
  let v := leNat bs
  let l := (List.range 1728).filter fun i => v.testBit i
  let ks := l.filterMap fun i => coreOf (i / 432) (i % 432 / 48) (i % 48)
  (ks, ks.any isSpare)

/-- OPEN_GROUP (R55): request 9. -/
def State.openGroup (s : State) (g : BitVec 8) (pa : Nat) : State × Nat :=
  if (s.group g).isSome then (s, 1)
  else
  match s.target pa .cached with
  | none => (s, 2)
  | some t =>
    let (ks, bad) := bitmapCores (s.homeBytes t 216)
    if bad then (s, 2)
    else if ks.any fun k => 4 ≤ (s.groups.filter fun x => x.domain.contains k).length then (s, 3)
    else ({ s with groups := s.groups ++ [{ id := g, domain := ks }] }, 0)

/-- OPEN_GROUP: group `v`, bitmap at PA `v2`. (DEDUCED, log entry 39.) -/
def execOpenGroup (s : State) : Host.Outcome State Fault Refusal :=
  State.answer (s.openGroup (s.arg.v.setWidth 8) s.arg.v2.toNat)

/-- CLOSE_GROUP (R55): request 10. Counts of its barriers end with it. -/
def execCloseGroup (s : State) : Host.Outcome State Fault Refusal :=
  let g : BitVec 8 := s.arg.v.setWidth 8
  if (s.group g).isNone then State.answer (s, 1)
  else
    let drop := fun l : List (BitVec 8 × Nat) => l.filter fun x => x.1 != g
    let s := { s with
      groups := s.groups.filter fun x => x.id != g
      cores := s.cores.map fun x => (x.1, { x.2 with barr := drop x.2.barr, saved := x.2.saved.map fun v => { v with barr := drop v.barr } })
      nodes := s.nodes.map fun n => { n with saves := n.saves.map fun x => (x.1, { x.2 with barr := drop x.2.barr }) } }
    State.answer (s, 0)

/-- RESTART_QUEUE (R217): request 11 on a queue stopped on a malformed packet. -/
def execRestartQueue (s : State) : Host.Outcome State Fault Refusal :=
  let pa := s.arg.pa.toNat
  let st := s.qField pa 0x34 4
  if !st.testBit 3 then State.answer (s, 1) else State.answer (s.setQField pa 0x34 4 (st - 8), 0)

/-- TLB_INVALIDATION (R110): request 12. -/
def execTlbInvalidation (s : State) : Host.Outcome State Fault Refusal :=
  State.answer (s.invalidateTlb s.arg.pa.toNat s.arg.v.toNat s.arg.v2.toNat, 0)

/-- Every uncommitted version of the module, those of switched-out tasks among them (R309). -/
def State.versions (s : State) : List Overlay :=
  (s.cores.flatMap fun c => c.2.version :: (match c.2.saved with | some v => [v.version] | none => []))
    ++ s.nodes.flatMap fun n => n.saves.map fun x => x.2.version

/-- The addresses [pa, e) lie in pool memory, in as many ranges as `fuel` that follow each other (R350). -/
def State.poolCovers (s : State) (fuel pa e : Nat) : Bool :=
  match fuel with
  | 0 => false
  | fuel + 1 =>
    decide (e ≤ pa) ||
      match s.pools.find? fun r => r.base ≤ pa && pa < r.base + r.size with
      | some r => State.poolCovers s fuel (r.base + r.size) e
      | none => false

/-- L2_WRITEBACK_INVALIDATE (R98): request 13 over pool addresses [v, v + v2); a range that is not aligned answers 1 too. (DESIGN CHOICE, log
entry 39.) -/
def State.writeBackRange (s : State) (pa n : Nat) : State × Nat :=
  if pa % 128 ≠ 0 ∨ n % 128 ≠ 0 ∨ !s.poolCovers (s.pools.length + 1) pa (pa + n) then (s, 1)
  else
    let held := s.versions.flatMap fun (o : Overlay) => (o.lines.filter fun l => decide (pa ≤ 128 * l ∧ 128 * l < pa + n))
    let goes := fun a : Nat => decide (pa ≤ a ∧ a < pa + n) && !held.contains (a / 128)
    let out := s.l2.filter fun c => goes c.1
    let s := { s with l2 := s.l2.filter (fun c => !goes c.1), stale := s.stale.filter (fun c => !goes c.1)
                      resident := s.resident.filter fun p => !goes (32 * p) }
    (s.writeBack out, if held.isEmpty then 0 else 2)

/-- L2_WRITEBACK_INVALIDATE (R98). (DEDUCED, log entry 39.) -/
def execL2WritebackInvalidate (s : State) : Host.Outcome State Fault Refusal :=
  State.answer (s.writeBackRange s.arg.v.toNat s.arg.v2.toNat)

/-- An arena descriptor is malformed (R348). -/
def State.arenaBad (s : State) (pa : Nat) : Bool :=
  let a := s.arena pa
  pa % 64 != 0 || a.vbase % 65536 != 0 || a.vlim % 65536 != 0 || a.fbase % 65536 != 0 || a.vlim ≤ a.vbase || a.fbase == 0
    || a.fcnt == 0 || a.recs % 8 != 0 || s.homeLE (pa + 0x1C) 4 != 0 || s.homeLE (pa + 0x38) 8 != 0

/-- Two arenas share a frame. -/
def framesMeet (a b : Arena) : Bool := decide (a.fbase < b.fbase + b.fcnt * 65536 ∧ b.fbase < a.fbase + a.fcnt * 65536)

/-- REGISTER_ARENA (R112): request 14; LOCKW becomes 0. -/
def State.registerArena (s : State) (pa : Nat) : State × Nat :=
  let a := s.arena pa
  if 64 ≤ s.arenas.length then (s, 1)
  else if (s.arenas.map s.arena).any (framesMeet a) then (s, 2)
  else if s.arenaBad pa then (s, 3)
  else ({ (s.homeSetLE (pa + 0x30) 8 0) with arenas := s.arenas ++ [pa] }, 0)

/-- REGISTER_ARENA: descriptor at PA `v`. -/
def execRegisterArena (s : State) : Host.Outcome State Fault Refusal := State.answer (s.registerArena s.arg.v.toNat)

/-- UNREGISTER_ARENA (R348): request 15. -/
def execUnregisterArena (s : State) : Host.Outcome State Fault Refusal :=
  let pa := s.arg.v.toNat
  if s.arenas.contains pa then State.answer ({ s with arenas := s.arenas.filter (· != pa) }, 0) else State.answer (s, 1)

/-- UNKNOWN_REQUEST (R348): codes 16 to 255. -/
def execUnknownRequest (s : State) : Host.Outcome State Fault Refusal := State.answer (s, 255)

/-- The id of no node. -/
def State.noNode (s : State) : NodeId :=
  let free := (List.range (s.nodes.length + 1)).find? fun i => s.nodes.all fun n => n.id != ⟨0, BitVec.ofNat 32 i⟩
  ⟨0, BitVec.ofNat 32 (free.getD 0)⟩

/-- The node that an IDS names, if one stands there. -/
def State.nodeOfIds (s : State) (ids : W64) : NodeId :=
  match s.nodes.find? fun n => n.ids == ids with
  | some n => n.id
  | none => s.noNode

/-- The request in the oldest slot that the driver has published and the device has not completed. -/
def State.nextRequest (s : State) : Option (Instr × EvArg) :=
  if s.host.rqr = s.host.rqw then none
  else
    let b := requestSlot s.host.rqr.toNat
    let w := fun o => BitVec.ofNat 64 (s.bar0.readLE (b + o) 8)
    let target := w 8
    let code := s.bar0.readLE b 1
    let n : EvArg := { n := s.nodeOfIds target }
    let half := fun o => BitVec.ofNat 64 (s.bar0.readLE (b + o) 4)
    some (match code with
      | 0 => (.requestNone, {})
      | 1 => (.resumeNode, n)
      | 2 => (.endAbandon, n)
      | 3 => (.endComplete, n)
      | 4 => (.releaseDump, n)
      | 5 => (.creditFare, { n with v := half 16, v2 := half 20 })
      | 6 => (.softPreempt, n)
      | 7 => (.hardPreemptRequest, n)
      | 8 => (.setWatchRequest, { n with v := w 16, v2 := w 24 })
      | 9 => (.openGroup, { v := target, v2 := w 16 })
      | 10 => (.closeGroup, { v := target })
      | 11 => (.restartQueue, { pa := target.setWidth 52 })
      | 12 => (.tlbInvalidation, { pa := target.setWidth 52, v := w 16, v2 := w 24 })
      | 13 => (.l2WritebackInvalidate, { v := target, v2 := w 16 })
      | 14 => (.registerArena, { v := target })
      | 15 => (.unregisterArena, { v := target })
      | c => (.unknownRequest, { code := BitVec.ofNat 8 c }))

end Sys2Proof.Machine
end

