-- ==== Sys2Proof/Machine/Integer.lean ====
section
/-! DEFINITION. The integer words (R82, R175): 64-bit two's complement, wrapping; none sets a flag and none traps beyond
the stack check. -/

namespace Sys2Proof.Machine

/-- A binary word a b → f. -/
def binWord (i : Instr) (r : BitVec 4) (f : W64 → W64 → W64) (s : State) : Host.Outcome State Fault Refusal :=
  .next (runWord i r { pops := 2, pushes := 1 } (body2 f) s)

/-- A unary word x → f. -/
def unWord (i : Instr) (r used : BitVec 4) (f : W64 → W64) (s : State) : Host.Outcome State Fault Refusal :=
  .next (runWord i r { pops := 1, pushes := 1, rbits := used } (body1 f) s)

/-- Signed quotient (R82). -/
def divS (a b : W64) : W64 := if b = 0 then BitVec.allOnes 64 else a.sdiv b
/-- Unsigned quotient. -/
def divU (a b : W64) : W64 := if b = 0 then BitVec.allOnes 64 else a / b
/-- Signed remainder, with the sign of a. -/
def remS (a b : W64) : W64 := if b = 0 then a else a.srem b
/-- Unsigned remainder. -/
def remU (a b : W64) : W64 := if b = 0 then a else a % b
/-- Bits [127:64] of the signed product. -/
def mulHigh (a b : W64) : W64 := BitVec.ofInt 64 (a.toInt * b.toInt / 2 ^ 64)
/-- Bits [127:64] of the unsigned product. -/
def mulHighU (a b : W64) : W64 := BitVec.ofNat 64 (a.toNat * b.toNat / 2 ^ 64)
/-- Leading zeros, 0 to 64. -/
def clz64 (x : W64) : W64 := if x = 0 then 64 else BitVec.ofNat 64 (63 - Nat.log2 x.toNat)
/-- Number of 1 bits. -/
def popc64 (x : W64) : W64 := BitVec.ofNat 64 ((List.range 64).filter fun i => x.getLsbD i).length
/-- Shift amount, modulo 64. -/
def shAmt (b : W64) : Nat := b.toNat % 64
/-- Width of SEXT and ZEXT: 8, 16, 32 or 64 bits. -/
def extWidth (r : BitVec 4) : Nat := 8 * 2 ^ (r.toNat % 4)

/-- ADD. -/
def execAdd (r : BitVec 4) (s : State) : Host.Outcome State Fault Refusal := binWord (.add r) r (· + ·) s
/-- SUB. -/
def execSub (r : BitVec 4) (s : State) : Host.Outcome State Fault Refusal := binWord (.sub r) r (· - ·) s
/-- MUL. -/
def execMul (r : BitVec 4) (s : State) : Host.Outcome State Fault Refusal := binWord (.mul r) r (· * ·) s
/-- MULH. -/
def execMulh (r : BitVec 4) (s : State) : Host.Outcome State Fault Refusal := binWord (.mulh r) r mulHigh s
/-- MULHU. -/
def execMulhu (r : BitVec 4) (s : State) : Host.Outcome State Fault Refusal := binWord (.mulhu r) r mulHighU s
/-- DIV. -/
def execDiv (r : BitVec 4) (s : State) : Host.Outcome State Fault Refusal := binWord (.div r) r divS s
/-- DIVU. -/
def execDivu (r : BitVec 4) (s : State) : Host.Outcome State Fault Refusal := binWord (.divu r) r divU s
/-- REM. -/
def execRem (r : BitVec 4) (s : State) : Host.Outcome State Fault Refusal := binWord (.rem r) r remS s
/-- REMU. -/
def execRemu (r : BitVec 4) (s : State) : Host.Outcome State Fault Refusal := binWord (.remu r) r remU s
/-- AND. -/
def execAnd (r : BitVec 4) (s : State) : Host.Outcome State Fault Refusal := binWord (.and r) r (· &&& ·) s
/-- OR. -/
def execOr (r : BitVec 4) (s : State) : Host.Outcome State Fault Refusal := binWord (.or r) r (· ||| ·) s
/-- XOR. -/
def execXor (r : BitVec 4) (s : State) : Host.Outcome State Fault Refusal := binWord (.xor r) r (· ^^^ ·) s
/-- NOT. -/
def execNot (r : BitVec 4) (s : State) : Host.Outcome State Fault Refusal := unWord (.not r) r 0 (fun x => ~~~x) s
/-- NEG. -/
def execNeg (r : BitVec 4) (s : State) : Host.Outcome State Fault Refusal := unWord (.neg r) r 0 (fun x => -x) s
/-- SHL. -/
def execShl (r : BitVec 4) (s : State) : Host.Outcome State Fault Refusal :=
  binWord (.shl r) r (fun a b => a <<< shAmt b) s
/-- SHR. -/
def execShr (r : BitVec 4) (s : State) : Host.Outcome State Fault Refusal :=
  binWord (.shr r) r (fun a b => a >>> shAmt b) s
/-- SAR. -/
def execSar (r : BitVec 4) (s : State) : Host.Outcome State Fault Refusal :=
  binWord (.sar r) r (fun a b => a.sshiftRight (shAmt b)) s
/-- MIN, signed. -/
def execMin (r : BitVec 4) (s : State) : Host.Outcome State Fault Refusal :=
  binWord (.min r) r (fun a b => if a.slt b then a else b) s
/-- MAX, signed. -/
def execMax (r : BitVec 4) (s : State) : Host.Outcome State Fault Refusal :=
  binWord (.max r) r (fun a b => if a.slt b then b else a) s
/-- MINU. -/
def execMinu (r : BitVec 4) (s : State) : Host.Outcome State Fault Refusal :=
  binWord (.minu r) r (fun a b => if a.ult b then a else b) s
/-- MAXU. -/
def execMaxu (r : BitVec 4) (s : State) : Host.Outcome State Fault Refusal :=
  binWord (.maxu r) r (fun a b => if a.ult b then b else a) s
/-- CLZ. -/
def execClz (r : BitVec 4) (s : State) : Host.Outcome State Fault Refusal := unWord (.clz r) r 0 clz64 s
/-- POPC. -/
def execPopc (r : BitVec 4) (s : State) : Host.Outcome State Fault Refusal := unWord (.popc r) r 0 popc64 s
/-- ADDI r. -/
def execAddi (r : BitVec 4) (s : State) : Host.Outcome State Fault Refusal :=
  unWord (.addi r) r 15 (fun x => x + rSext r) s
/-- SHLI r: shift 1 to 16. -/
def execShli (r : BitVec 4) (s : State) : Host.Outcome State Fault Refusal :=
  unWord (.shli r) r 15 (fun x => x <<< (r.toNat + 1)) s
/-- SHRI r: logical, 1 to 16. -/
def execShri (r : BitVec 4) (s : State) : Host.Outcome State Fault Refusal :=
  unWord (.shri r) r 15 (fun x => x >>> (r.toNat + 1)) s
/-- SEXT r. -/
def execSext (r : BitVec 4) (s : State) : Host.Outcome State Fault Refusal :=
  unWord (.sext r) r 3 (fun x => (x.setWidth (extWidth r)).signExtend 64) s
/-- ZEXT r. -/
def execZext (r : BitVec 4) (s : State) : Host.Outcome State Fault Refusal :=
  unWord (.zext r) r 3 (fun x => (x.setWidth (extWidth r)).setWidth 64) s
/-- LEA r: a + (b << r). -/
def execLea (r : BitVec 4) (s : State) : Host.Outcome State Fault Refusal :=
  .next (runWord (.lea r) r { pops := 2, pushes := 1, rbits := 15 } (body2 fun a b => a + (b <<< r.toNat)) s)

/-! ### Comparisons and predicates (R176, R177) -/

/-- A comparison word a b →: c[r[2:0]] := (a ? b). -/
def cmpWord (i : Instr) (r : BitVec 4) (f : W64 → W64 → Bool) (s : State) : Host.Outcome State Fault Refusal :=
  .next (runWord i r { pops := 2, rbits := 7 }
    (bodySeq fun x a => x.setPred (r3 r) (f (a.headD 0) (a.getD 1 0))) s)

/-- CEQ. -/
def execCeq (r : BitVec 4) (s : State) : Host.Outcome State Fault Refusal := cmpWord (.ceq r) r (· == ·) s
/-- CNE. -/
def execCne (r : BitVec 4) (s : State) : Host.Outcome State Fault Refusal := cmpWord (.cne r) r (· != ·) s
/-- CLT, signed. -/
def execClt (r : BitVec 4) (s : State) : Host.Outcome State Fault Refusal := cmpWord (.clt r) r (fun a b => a.slt b) s
/-- CLTU. -/
def execCltu (r : BitVec 4) (s : State) : Host.Outcome State Fault Refusal := cmpWord (.cltu r) r (fun a b => a.ult b) s
/-- CLE, signed. -/
def execCle (r : BitVec 4) (s : State) : Host.Outcome State Fault Refusal := cmpWord (.cle r) r (fun a b => a.sle b) s
/-- CLEU. -/
def execCleu (r : BitVec 4) (s : State) : Host.Outcome State Fault Refusal := cmpWord (.cleu r) r (fun a b => a.ule b) s

/-- A predicate word: c[x[2:0]] := f(c[x[5:3]], c[x[8:6]]). -/
def predWord (i : Instr) (r : BitVec 4) (f : Bool → Bool → Bool) (s : State) : Host.Outcome State Fault Refusal :=
  .next (runWord i r { pops := 1 }
    (bodySeq fun y a =>
      let x := a.headD 0
      y.setPred (x.extractLsb' 0 3) (f (y.pred (x.extractLsb' 3 3)) (y.pred (x.extractLsb' 6 3)))) s)

/-- PAND. -/
def execPand (r : BitVec 4) (s : State) : Host.Outcome State Fault Refusal := predWord (.pand r) r (· && ·) s
/-- POR. -/
def execPor (r : BitVec 4) (s : State) : Host.Outcome State Fault Refusal := predWord (.por r) r (· || ·) s
/-- PNOT. -/
def execPnot (r : BitVec 4) (s : State) : Host.Outcome State Fault Refusal := predWord (.pnot r) r (fun a _ => !a) s

/-- SEL: a b f → v. -/
def execSel (r : BitVec 4) (s : State) : Host.Outcome State Fault Refusal :=
  .next (runWord (.sel r) r { pops := 3, pushes := 1 }
    (fun _ a s => ok s [if a.getD 2 0 ≠ 0 then a.headD 0 else a.getD 1 0]) s)

end Sys2Proof.Machine
end

