-- ==== Sys2Proof/Machine/Service.lean ====
section
/-! DEFINITION. The management level: clocks (R21 to R23), power (R362), degraded modes (R363), self-test (R365), bring-up and
power loss (R366, R341), firmware (R367), removal (R368), attestation (R369), and the lifetime record (R341). -/

namespace Sys2Proof.Machine

/-! ### Clock steps (R23) -/

/-- A step of a number, at most 14. -/
def clockStep (n : Nat) : Fin 15 := ⟨min n 14, by omega⟩

/-- The step that a die is at or on its way to. -/
def DieSt.aim (x : DieSt) : Fin 15 := x.nextStep.getD (x.wantStep.getD x.step)

/-- A step change of a die is asked for. The spec does not say what becomes of a request while another change is under way or the clock stands
still: the latest one is kept, and taken up when the clock restarts. (DESIGN CHOICE, log entry 42.) -/
def State.wantStep (s : State) (d : Die) (k : Fin 15) : State :=
  s.modDie d fun x =>
    if x.wantStep.isSome || x.stoppedClk then { x with nextStep := some k }
    else if x.step == k then x
    else { x with wantStep := some k }

/-- CLOCK_STEP_REQUEST (R23). -/
def execClockStepRequest (s : State) : Host.Outcome State Fault Refusal := .next (s.wantStep s.arg.d (clockStep s.arg.num))

/-- Every sequencer of a die stands between words or is blocked, no row is between entry and slot, and every broadcast tree is empty, of
units (R126) and of stores alike. -/
def State.dieStill (s : State) (d : Die) : Bool :=
  (s.cores.all fun c => c.1.die != d
    || (c.2.ctx.atBoundary && !c.2.ctx.inTree && c.2.ctx.me.queue.all fun m => m.fly.isEmpty))
    && ((List.finRange 9).all fun c => (s.cluster d c).tree.isEmpty)

/-- CLOCK_STOP (R23): once the conditions hold, the die's clock stops. -/
def execClockStop (s : State) : Host.Outcome State Fault Refusal :=
  let d := s.arg.d
  if (s.die d).wantStep.isSome && !(s.die d).stoppedClk && s.dieStill d then
    .next (s.modDie d fun x => { x with stoppedClk := true, stoppedAt := s.now })
  else .next s

/-- The cores of a die. -/
def dieCores (d : Die) : List CoreId := (List.finRange 9).flatMap fun c => clusterCores d c

/-- CLOCK_RESTART (R23): the clock goes on at the new step, and every core of the die traces the stop. -/
def execClockRestart (s : State) : Host.Outcome State Fault Refusal :=
  let d := s.arg.d
  let x := s.die d
  if !x.stoppedClk then .next s
  else
    let k := x.wantStep.getD x.step
    let v := BitVec.ofNat 64 (k.val + (s.now - x.stoppedAt) % 2 ^ 32 * 2 ^ 32)
    let s := s.modDie d fun x =>
      { x with step := k, wantStep := (match x.nextStep with | some n => if n = k then none else some n | none => none), nextStep := none
               stoppedClk := false }
    .next ((dieCores d).foldl (fun s j => s.trace j 8 .c (s.seq j .c).pc 0 0 v) s)

/-! ### Power and temperature (R362) -/

/-- One step down or up of a die. -/
def State.stepDie (s : State) (d : Die) (down : Bool) : State :=
  let k := (s.die d).aim.val
  if down then (if k < 14 then s.wantStep d (clockStep (k + 1)) else s)
  else if 0 < k then s.wantStep d (clockStep (k - 1)) else s

/-- POWER_MEASUREMENT (R362): every 100 µs. A mean of 10 ms above 3,200 W moves one or more dies down, which ones the spec leaves open; a mean that stays
below 3,000 W for 100 ms moves the slowed dies up one step. (DEDUCED, log entry 42.) -/
def execPowerMeasurement (s : State) : Host.Outcome State Fault Refusal :=
  let ws := (s.arg.num :: s.draws).take 100
  let sum := ws.sum
  let full := ws.length == 100
  let calm := if full && decide (sum < 300000) then s.calm + 1 else 0
  let s := { s with draws := ws, calm := calm }
  if full && decide (320000 < sum) then
    let can := (List.finRange 4).filter fun d => decide ((s.die d).aim.val < 14)
    let (i, s) := s.pick (2 ^ can.length - 1)
    .next (can.zipIdx.foldl (fun s d => if (i + 1).testBit d.2 then s.stepDie d.1 true else s) s)
  else if 1000 ≤ calm then
    .next ((List.finRange 4).foldl (fun s d => s.stepDie d false) { s with calm := 0 })
  else .next s

/-- THERMAL_LIMIT (R362): the die moves down one step. -/
def execThermalLimit (s : State) : Host.Outcome State Fault Refusal := .next (s.stepDie s.arg.d true)

/-- DEGRADED_MODE_SET (R363). -/
def execDegradedModeSet (s : State) : Host.Outcome State Fault Refusal :=
  match s.arg.mode with
  | .halfArray k => .next (s.modCore k fun c => { c with halfArray := s.arg.yes })
  | .precision d => .next (s.modDie d fun x => { x with precision := s.arg.yes })

/-! ### Self-test (R321, R365) -/

/-- SELF_TEST: a retired core is tested while no node holds it, a merge core once no session is open on its Mangle. One that passes returns to
service, in a spare position as a spare; one that fails is fenced. -/
def execSelfTest (s : State) : Host.Outcome State Fault Refusal :=
  let k := s.arg.k
  let c := s.core k
  let busy := isMerge k && (s.cluster k.die k.cluster).sess.toList.any fun x => x.st != .free
  if !c.selfTest || c.node.isSome || busy then .next s
  else
    let s := if isMerge k then s.modCluster k.die k.cluster fun x => { x with noOpen := false } else s
    if s.arg.yes then .next ((s.modCore k fun c => { c with selfTest := false, inService := true }).enqueue .dispatchStep { d := k.die })
    else
      let s := s.modCore k fun c => { c with selfTest := false, inService := false }
      let s := if isMerge k then s.modCluster k.die k.cluster fun x => { x with fenced := k.core :: x.fenced } else s
      .next (s.countLife (.fenced k))

/-! ### The lifetime record (R341) -/

/-- A bin of a residency histogram. -/
def lifeBin (v : W64) : Fin 16 := ⟨min v.toNat 15, by omega⟩

/-- The whole milliseconds that the clusters in DEC-TED have spent there since they were last counted (R341). -/
def State.countDected (s : State) : State :=
  (List.finRange 4).foldl (fun s d => (List.finRange 9).foldl (fun s c =>
    match (s.cluster d c).dected with
    | none => s
    | some t =>
      let n := (s.now - t) / msCounts
      (s.addLife (.dectedMs d c) n).modCluster d c fun x => { x with dected := some (t + n * msCounts) }) s) s

/-- LIFETIME_RECORD_WRITE (R341): every second. The residencies take the second that has passed: each die's clock step, and the bins of its rail and
temperature, which `words` gives for dies 0 to 3 in turn, with the temperatures of the two I/O dies after them. The record goes into the
nonvolatile store. -/
def execLifetimeRecordWrite (s : State) : Host.Outcome State Fault Refusal :=
  let s := (List.finRange 4).foldl (fun s d => s.countLife (.stepSeconds d (s.die d).step)) s
  let s := if s.arg.words.length < 8 then s
    else (List.finRange 4).foldl (fun s d =>
      (s.countLife (.railSeconds d (lifeBin (s.arg.words.getD d.val 0)))).countLife (.heatSeconds d (lifeBin (s.arg.words.getD (4 + d.val) 0)))) s
  let s := if s.arg.words.length < 10 then s
    else (List.finRange 2).foldl (fun s d => s.countLife (.ioHeatSeconds d (lifeBin (s.arg.words.getD (8 + d.val) 0)))) s
  let s := s.countDected
  .next { s with lifeNv := s.life }

/-! ### Bring-up, firmware, removal (R366 to R368) -/

/-- A core after bring-up: what is physically retired stays so. -/
def Core.afterPower (c : Core) : Core :=
  { Core.reset with inService := c.inService, selfTest := c.selfTest, halfArray := c.halfArray, repair := { c.repair with darn := none } }

/-- A core fails the self-test of bring-up: it is fenced, and a spare of its cluster, where there is one, takes its logical number (R10, R366). -/
def State.failAtPower (s : State) (k : CoreId) : State :=
  let out := fun (s : State) (j : CoreId) =>
    (s.modCore j fun c => { c with inService := false, selfTest := false }).modCluster j.die j.cluster fun x => { x with fenced := j.core :: x.fenced }
  if !(s.core k).inService then s
  else if isSpare k then out s k
  else
    match s.spareOf k with
    | some pos => out (s.swapPhys k pos) ⟨k.die, k.cluster, pos⟩
    | none => out s k

/-- The core of a 12-bit identifier (R13). -/
def coreOfCid (v : W64) : Option CoreId := coreOf (bitsOf v.toNat 11 10) (bitsOf v.toNat 9 6) (bitsOf v.toNat 5 0)

/-- POWER_ON (R366): the firmware of the management level and of the Ostlers is verified and measured, `digest` and `bytes` being the measurements;
where `yes2` says that one of them fails, which R366 leaves open, the module does not start. Then banks, windows and registers are zero, the cores that `words` names fail their self-test, the pool ranges can be reached,
queues are disabled, groups closed, routes invalid. Pool memory, the nonvolatile record and else the core maps are as they were.
(DEDUCED, log entry 42.) -/
def execPowerOn (s : State) : Host.Outcome State Fault Refusal :=
  if s.powered || s.arg.yes2 then .next s
  else
    let r := State.reset
    let pool : Memory := s.mem.filter fun c => decide (c.1 < 2 ^ 51)
    let cores := (s.cores.map fun c => (c.1, c.2.afterPower)).filter fun c => decide (c.2 ≠ Core.reset)
    let s' : State :=
      { r with
          free := s.free, cores := cores, mem := pool, poison := s.poison.filter fun p => decide (p < 2 ^ 46)
          dies := s.dies.map fun d => { DieSt.reset with fw := BitVec.ofNat 256 (leNat s.arg.bytes), precision := d.precision }
          clusters := s.clusters.map fun c => { ClusterSt.reset with phys := c.phys, fenced := c.fenced }
          nodeId := s.nodeId, pools := s.pools
          mgmtFw := s.arg.digest, life := s.lifeNv, lifeNv := s.lifeNv, capture := s.capture, captureDue := [], captureRing := s.captureRing }
    let s' := (s.arg.words.filterMap coreOfCid).foldl State.failAtPower s'
    .next (s.queues.foldl (fun s q => s.homeSetLE (q.pa.toNat + 8) 8 (s.homeLE (q.pa.toNat + 8) 8 / 4096 * 4096 + s.homeLE (q.pa.toNat + 8) 8 % 2048)) s')

/-- POWER_LOSS (R341): counts since the last write of the lifetime record are lost. -/
def execPowerLoss (s : State) : Host.Outcome State Fault Refusal := .next { s with powered := false, events := [], waiting := [], life := s.lifeNv }

/-- HOT_REMOVAL (R368): the module leaves, with an orderly write of the lifetime record. -/
def execHotRemoval (s : State) : Host.Outcome State Fault Refusal :=
  let s := s.countDected
  .next { s with powered := false, events := [], waiting := [], lifeNv := s.life }

/-- Timer counts for which an installation holds traps, at most 5 ms (R22, R367). -/
def installCounts (n : Nat) : Nat := min n (5 * msCounts)

/-- FIRMWARE_REPLACEMENT (R367): a verified image is installed on a die whose trap queue is empty, which takes `num` timer counts; otherwise the
old firmware runs on. -/
def execFirmwareReplacement (s : State) : Host.Outcome State Fault Refusal :=
  if s.arg.yes && (s.die s.arg.d).trapQ.isEmpty then
    .next (s.modDie s.arg.d fun x => { x with fw := s.arg.digest, install := s.now + installCounts s.arg.num })
  else .next s

/-! ### Attestation (R369) -/

/-- The 32 bytes of a digest. -/
def digestBytes (d : BitVec 256) : List Byte := leBytes 32 d.toNat

/-- What the report hashes of the settings: format windows, route table and pool ranges. The order of their bytes the spec does not give. (DESIGN
CHOICE, log entry 42.) -/
def State.settings (s : State) : BitVec 256 :=
  Config.settingsHash (s.bar0.readBytes windowBase 0x400) (s.bar0.readBytes routeBase 0x2000)
    (s.pools.map fun r => [r.base, r.size, r.first, r.ports, r.gran])

/-- ATTESTATION_REQUEST (R369): the mailbox answers the report over a nonce; with `num` 1 it gives the public key, and with 2 the certificate. The
signature is free. (DEDUCED, log entry 42.) -/
def execAttestationRequest (s : State) : Host.Outcome State Fault Refusal :=
  match s.arg.num with
  | 1 => .next { s with report := (List.range 1312).map Config.publicKey }
  | 2 => .next { s with report := (List.range Config.certificateLength).map Config.certificate }
  | _ =>
    let sign := (List.range 2420).map fun j => (Config.freeValue (s.free + j)).setWidth 8
    let bs := digestBytes s.arg.digest ++ digestBytes s.mgmtFw ++ digestBytes (s.die 0).fw ++ digestBytes s.settings ++ leBytes 8 s.now ++ sign
    .next { s with report := bs, free := s.free + 2420 }

end Sys2Proof.Machine
end

