-- ==== Sys2Proof/Machine/Stack.lean ====
section
/-! DEFINITION. LIT, EXT, the undefined word, the prefixes, and the stack, register, branch and loop words (R149, R150,
R152, R157, R171 to R174, R198). -/

namespace Sys2Proof.Machine

/-- LIT (R149). -/
def execLit (i : BitVec 15) (s : State) : Host.Outcome State Fault Refusal :=
  .next (runWord (.lit i) 0 { pushes := 1, acc := { any := false } } (body0 fun _ _ => i.signExtend 64) s)

/-- EXT (R150). -/
def execExt (i : BitVec 13) (s : State) : Host.Outcome State Fault Refusal :=
  .next (runWord (.ext i) 0 { pops := 1, pushes := 1, acc := { any := false } }
    (body1 fun x => (x <<< 13) ||| i.setWidth 64) s)

/-- The undefined word (R26, R152): 0x01, with no effect on the stack and no charge. -/
def execUndefinedWord (w : Word16) (s : State) : Host.Outcome State Fault Refusal :=
  .next (s.takeTrap s.cur.1 s.cur.2 { code := 0x01, addr := w.setWidth 64 })

/-- SCOPE (R158, R159). -/
def execScope (p : BitVec 8) (s : State) : Host.Outcome State Fault Refusal := .next (issuePrefix (.scope p) .scope p s)
/-- TOKEN (R158, R161). -/
def execToken (p : BitVec 8) (s : State) : Host.Outcome State Fault Refusal := .next (issuePrefix (.token p) .token p s)
/-- IF (R158, R160). -/
def execIfp (p : BitVec 8) (s : State) : Host.Outcome State Fault Refusal := .next (issuePrefix (.ifp p) .cond p s)
/-- FMT (R158). -/
def execFmt (p : BitVec 8) (s : State) : Host.Outcome State Fault Refusal := .next (issuePrefix (.fmt p) .fmt p s)
/-- SPARSE (R158). -/
def execSparse (p : BitVec 8) (s : State) : Host.Outcome State Fault Refusal :=
  .next (issuePrefix (.sparse p) .sparse p s)
/-- WAITMAX (R68, R158). -/
def execWaitmax (p : BitVec 8) (s : State) : Host.Outcome State Fault Refusal :=
  .next (issuePrefix (.waitmax p) .waitmax p s)
/-- ROUND (R78, R158). -/
def execRound (p : BitVec 8) (s : State) : Host.Outcome State Fault Refusal := .next (issuePrefix (.round p) .round p s)
/-- SAT (R79, R158). -/
def execSat (p : BitVec 8) (s : State) : Host.Outcome State Fault Refusal := .next (issuePrefix (.sat p) .sat p s)
/-- EVENT (R158, R161). -/
def execEvent (p : BitVec 8) (s : State) : Host.Outcome State Fault Refusal := .next (issuePrefix (.event p) .event p s)

/-! ### Stack words (R171) -/

/-- NOP: with TOKEN or EVENT, pure synchronisation (R161). -/
def execNop (r : BitVec 4) (s : State) : Host.Outcome State Fault Refusal :=
  .next (runWord (.nop r) r { acc := { event := true } } (fun _ _ s => ok s []) s)

/-- DUP. -/
def execDup (r : BitVec 4) (s : State) : Host.Outcome State Fault Refusal :=
  .next (runWord (.dup r) r { pops := 1, pushes := 2 } (fun _ a s => ok s (a ++ a)) s)

/-- DROP. -/
def execDrop (r : BitVec 4) (s : State) : Host.Outcome State Fault Refusal :=
  .next (runWord (.drop r) r { pops := 1 } (fun _ _ s => ok s []) s)

/-- SWAP: a b → b a. -/
def execSwap (r : BitVec 4) (s : State) : Host.Outcome State Fault Refusal :=
  .next (runWord (.swap r) r { pops := 2, pushes := 2 } (fun _ a s => ok s a.reverse) s)

/-- OVER: a b → a b a. -/
def execOver (r : BitVec 4) (s : State) : Host.Outcome State Fault Refusal :=
  .next (runWord (.over r) r { pops := 2, pushes := 3 } (fun _ a s => ok s (a ++ a.take 1)) s)

/-- ROT: a b c → b c a. -/
def execRot (r : BitVec 4) (s : State) : Host.Outcome State Fault Refusal :=
  .next (runWord (.rot r) r { pops := 3, pushes := 3 } (fun _ a s => ok s (a.drop 1 ++ a.take 1)) s)

/-- PICK r: for R28 it pops k + 1 entries and pushes k + 2. -/
def execPick (r : BitVec 4) (s : State) : Host.Outcome State Fault Refusal :=
  .next (runWord (.pick r) r { pops := r.toNat % 8 + 1, pushes := r.toNat % 8 + 2, rbits := 7 }
    (fun _ a s => ok s (a ++ a.take 1)) s)

/-- DEPTH: the depth before the word. -/
def execDepth (r : BitVec 4) (s : State) : Host.Outcome State Fault Refusal :=
  .next (runWord (.depth r) r { pushes := 1 } (body0 fun w s => BitVec.ofNat 64 (s.seq w.k w.q).stack.length) s)

/-! ### Registers (R172) -/

/-- GET r (R30). -/
def execGet (r : BitVec 4) (s : State) : Host.Outcome State Fault Refusal :=
  .next (runWord (.get r) r { pushes := 1, rbits := 15 } (body0 fun w s => (s.regs w.k).getS (r4 r)) s)

/-- PUT r (R30). -/
def execPut (r : BitVec 4) (s : State) : Host.Outcome State Fault Refusal :=
  .next (runWord (.put r) r { pops := 1, rbits := 15 }
    (fun w a s => ok (s.modRegs w.k fun g => g.putS (r4 r) (a.headD 0)) []) s)

/-- GETC r. -/
def execGetc (r : BitVec 4) (s : State) : Host.Outcome State Fault Refusal :=
  .next (runWord (.getc r) r { pushes := 1, rbits := 7 }
    (body0 fun w s => if (s.seq w.k w.q).pred (r3 r) then 1 else 0) s)

/-- PUTC r. -/
def execPutc (r : BitVec 4) (s : State) : Host.Outcome State Fault Refusal :=
  .next (runWord (.putc r) r { pops := 1, rbits := 7 } (bodySeq fun x a => x.setPred (r3 r) (a.headD 0 != 0)) s)

/-- SETN r. -/
def execSetn (r : BitVec 4) (s : State) : Host.Outcome State Fault Refusal :=
  .next (runWord (.setn r) r { pops := 1, rbits := 3 }
    (bodySeq fun x a => { x with ln := vput x.ln (r2 r) ((a.headD 0).setWidth 32) }) s)

/-- GETN r. -/
def execGetn (r : BitVec 4) (s : State) : Host.Outcome State Fault Refusal :=
  .next (runWord (.getn r) r { pushes := 1, rbits := 3 }
    (body0 fun w s => (s.seq w.k w.q).ln[(r2 r).val].setWidth 64) s)

/-- TBSET. -/
def execTbset (r : BitVec 4) (s : State) : Host.Outcome State Fault Refusal :=
  .next (runWord (.tbset r) r { pops := 1 }
    (fun w a s =>
      let x := a.headD 0
      ok (s.modRegs w.k fun g => g.setTb { value := x.extractLsb' 0 3, owner := x.extractLsb' 3 2 }) []) s)

/-- TBGET. -/
def execTbget (r : BitVec 4) (s : State) : Host.Outcome State Fault Refusal :=
  .next (runWord (.tbget r) r { pushes := 1 }
    (body0 fun w s => BitVec.ofNat 64 ((s.regs w.k).tb.owner.toNat * 8 + (s.regs w.k).tb.value.toNat)) s)

/-! ### Branches and loops (R165 to R167, R173) -/

/-- Bubbles of a taken branch through bN (R165). -/
def bubblesOf (x : Seqr) (b : Fin 4) : Nat := 3 - (x.issued - x.btAt[b.val] + 1)

/-- A taken branch; a target with bit 0 set traps with cause 0x04 and nothing commits (R166). -/
def jumpTo (s : State) (target : VA) (bubbles : Nat) : Res :=
  if target.getLsbD 0 then .trap (badOperand (target.setWidth 64))
  else .done s [] { jump := some (target, bubbles) }

/-- Branch to bN. -/
def branchTo (w : Wd) (s : State) (b : Fin 4) : Res :=
  let x := s.seq w.k w.q
  jumpTo s x.bt[b.val] (bubblesOf x b)

/-- The line of code that a core reads at a target: 128 bytes, as its memory and its own version hold them now. -/
def State.codeLine (s : State) (k : CoreId) (t : Target) : CodeLine :=
  let n := s.paOf t / 128
  { line := n, data := s.viewBytes k ((s.target (128 * n) t.policy).getD t) 128, live := 0xF }

/-- A core's instruction cache holds 256 lines (R18); the least recently filled gives way. -/
def Core.fillLine (c : Core) (l : CodeLine) : Core := { c with icache := (l :: c.icache.filter fun x => x.line != l.line).take 256 }

/-- The line of a word that a core's instruction cache holds for a sequencer. -/
def State.heldLine (s : State) (k : CoreId) (q : Seq) (t : Target) : Option CodeLine :=
  (s.core k).icache.find? fun l => l.line == s.paOf t / 128 && l.live.getLsbD (seqCode q)

/-- A fetch begins at a PC (R165, R168): the line comes into the instruction cache as memory holds it now. It checks nothing: where the PC does
not translate nothing happens. -/
def State.beginFetch (s : State) (k : CoreId) (q : Seq) (pc : VA) : State :=
  match s.access k (pc.setWidth 64) 2 2 .fetch with
  | .error _ => s
  | .ok (t, _) => if (s.heldLine k q t).isSome then s else s.modCore k fun c => c.fillLine (s.codeLine k t)

/-- PREP r: the target, whose fetch begins. -/
def execPrep (r : BitVec 4) (s : State) : Host.Outcome State Fault Refusal :=
  .next (runWord (.prep r) r { pops := 1, rbits := 3 }
    (fun w a s =>
      let target : VA := (a.headD 0).setWidth 57
      ok ((s.modSeq w.k w.q fun x => { x with bt := vput x.bt (r2 r) target, btAt := vput x.btAt (r2 r) (x.issued + 1) }).beginFetch w.k w.q target) []) s)

/-- BR r. -/
def execBr (r : BitVec 4) (s : State) : Host.Outcome State Fault Refusal :=
  .next (runWord (.br r) r { rbits := 15 }
    (fun w _ s => if (s.seq w.k w.q).pred (r.extractLsb' 0 2 |>.setWidth 3) then branchTo w s (r2hi r) else ok s []) s)

/-- BRN r: with r[1:0] = 0 it is never taken and sets RFLD. -/
def execBrn (r : BitVec 4) (s : State) : Host.Outcome State Fault Refusal :=
  .next (runWord (.brn r) r { rbits := 15 }
    (fun w _ s =>
      if r.extractLsb' 0 2 = 0 then .done s [] { flags := fRFLD }
      else if (s.seq w.k w.q).pred (r.extractLsb' 0 2 |>.setWidth 3) then ok s []
      else branchTo w s (r2hi r)) s)

/-- CALL r: s15 := PC + 2, unless the target traps (R174). -/
def execCall (r : BitVec 4) (s : State) : Host.Outcome State Fault Refusal :=
  .next (runWord (.call r) r { rbits := 3 }
    (fun w _ s => branchTo w (s.modRegs w.k fun g => g.putS 15 ((w.pc + 2).setWidth 64)) (r2 r)) s)

/-- RET: 3 bubbles. -/
def execRet (r : BitVec 4) (s : State) : Host.Outcome State Fault Refusal :=
  .next (runWord (.ret r) r {} (fun w _ s => jumpTo s (((s.regs w.k).getS 15).setWidth 57) 3) s)

/-- LOOP r (R167): decrement, rotation by the owner and branch commit together. -/
def execLoop (r : BitVec 4) (s : State) : Host.Outcome State Fault Refusal :=
  .next (runWord (.loop r) r { rbits := 15 }
    (fun w _ s =>
      let n := (s.seq w.k w.q).ln[(r2hi r).val] - 1
      let s1 := s.modSeq w.k w.q fun x => { x with ln := vput x.ln (r2hi r) n }
      let tb := (s.regs w.k).tb
      let s2 :=
        if tb.owner.toNat = seqCode w.q then s1.modRegs w.k fun g => g.setTb { tb with value := tb.value + 1 } else s1
      if n = 0 then ok s2 [] else branchTo w s2 (r2 r)) s)

/-- ICSYNC (R168, R198): the sequencer's fetches see every performed store, for it uses no line of the instruction cache that was filled before; every bN counts as prepared at the next word. -/
def execIcsync (r : BitVec 4) (s : State) : Host.Outcome State Fault Refusal :=
  .next (runWord (.icsync r) r {} (fun w _ s =>
    let s := s.modCore w.k fun c => { c with icache := c.icache.map fun l => { l with live := l.live &&& ~~~(1#4 <<< seqCode w.q) } }
    ok (s.modSeq w.k w.q fun x => { x with btAt := .replicate 4 (x.issued + 1) }) []) s)

end Sys2Proof.Machine
end

