-- ==== Sys2Proof/Machine/Table.lean ====
section
/-! DEFINITION. The entries of the word tables (R148 to R154 and the tables of each family): for every word but the prefixes
and the undefined word, how many entries it pops and pushes, on which sequencers it is accepted, which bits of r and which
prefixes it takes, and the rights it needs. The meanings state the same entries beside each word; claims over all words use
this table. -/

namespace Sys2Proof.Machine

/-- The table entries of a word on a sequencer; a few words take an EVENT prefix on T alone (R181). -/
def wordSpec (q : Seq) (i : Instr) : Option Spec :=
  match i with
  | .lit _ =>
    some { pushes := 1, acc := { any := false } }
  | .ext _ =>
    some { pops := 1, pushes := 1, acc := { any := false } }
  | .nop _ =>
    some { acc := { event := true } }
  | .dup _ =>
    some { pops := 1, pushes := 2 }
  | .drop _ | .pand _ | .por _ | .pnot _ | .tbset _ | .trcw _ =>
    some { pops := 1 }
  | .swap _ =>
    some { pops := 2, pushes := 2 }
  | .over _ =>
    some { pops := 2, pushes := 3 }
  | .rot _ =>
    some { pops := 3, pushes := 3 }
  | .pick r =>
    some { pops := r.toNat % 8 + 1, pushes := r.toNat % 8 + 2, rbits := 7 }
  | .depth _ | .tbget _ | .clock _ =>
    some { pushes := 1 }
  | .get _ =>
    some { pushes := 1, rbits := 15 }
  | .put _ =>
    some { pops := 1, rbits := 15 }
  | .getc _ =>
    some { pushes := 1, rbits := 7 }
  | .putc _ =>
    some { pops := 1, rbits := 7 }
  | .prep _ | .setn _ =>
    some { pops := 1, rbits := 3 }
  | .br _ | .brn _ | .loop _ | .trap _ =>
    some { rbits := 15 }
  | .call _ =>
    some { rbits := 3 }
  | .ret _ | .brk _ | .qmark _ | .icsync _ =>
    some {}
  | .getn _ =>
    some { pushes := 1, rbits := 3 }
  | .add _ | .sub _ | .mul _ | .mulh _ | .mulhu _ | .div _ | .divu _ | .rem _ | .remu _ | .and _ | .or _ | .xor _ | .shl _
  | .shr _ | .sar _ | .min _ | .max _ | .minu _ | .maxu _ =>
    some { pops := 2, pushes := 1 }
  | .not _ | .neg _ | .clz _ | .popc _ =>
    some { pops := 1, pushes := 1, rbits := 0 }
  | .addi _ | .shli _ | .shri _ =>
    some { pops := 1, pushes := 1, rbits := 15 }
  | .sext _ | .zext _ =>
    some { pops := 1, pushes := 1, rbits := 3 }
  | .ceq _ | .cne _ | .clt _ | .cltu _ | .cle _ | .cleu _ =>
    some { pops := 2, rbits := 7 }
  | .sel _ =>
    some { pops := 3, pushes := 1 }
  | .lea _ =>
    some { pops := 2, pushes := 1, rbits := 15 }
  | .csrr _ =>
    some { pops := 1, pushes := 1 }
  | .csrw _ | .segchk _ =>
    some { pops := 2 }
  | .ld _ =>
    some { pops := 1, pushes := 1, rbits := 7, acc := { scope := true, blocks := true } }
  | .st _ =>
    some { pops := 2, rbits := 3, acc := { scope := true, blocks := true } }
  | .ldx _ =>
    some { pops := 2, pushes := 1, rbits := 7, acc := { scope := true, blocks := true } }
  | .stx _ =>
    some { pops := 3, rbits := 3, acc := { scope := true, blocks := true } }
  | .fence _ =>
    some { acc := { scope := true, event := true, blocks := true } }
  | .aadd _ | .axchg _ | .amin _ | .amax _ | .aminu _ | .amaxu _ | .aand _ | .aor _ | .axor _ =>
    some { pops := 2, pushes := 1, on := [.c, .v, .t], acc := { scope := true, blocks := true } }
  | .acas _ =>
    some { pops := 3, pushes := 1, on := [.c, .v, .t], acc := { scope := true, blocks := true } }
  | .afadd _ =>
    some { pops := 2, pushes := 1, on := [.c, .v, .t], rbits := 3, acc := { scope := true, fmt := true, blocks := true } }
  | .mwait _ | .sigpost _ | .sigwait _ | .sigset _ =>
    some { pops := 2, on := [.c, .v, .t], acc := { scope := true, blocks := true } }
  | .qpush _ =>
    some { pops := 2, pushes := 0, on := [.c, .v, .t], rbits := 7, acc := { scope := true, blocks := true } }
  | .qpop _ =>
    some { pops := 0, pushes := 2, on := [.c, .v, .t], rbits := 7, acc := { scope := true, blocks := true } }
  | .qtry _ =>
    some { pops := 0, pushes := 3, on := [.c, .v, .t], rbits := 7, acc := { scope := true, blocks := true } }
  | .qbind _ =>
    some { pops := 1, on := [.c], rbits := 7 }
  | .evbind _ =>
    some { pops := 3, on := [.c], rbits := 15, acc := { blocks := true } }
  | .barg _ =>
    some { pops := 1, on := [.c], acc := { scope := true, blocks := true } }
  | .pgshare _ =>
    some { pops := 4, pushes := 0, on := [.c], right := some 2, acc := { blocks := true } }
  | .pgdrop _ =>
    some { pops := 3, pushes := 0, on := [.c], right := some 2, acc := { blocks := true } }
  | .pgrefs _ =>
    some { pops := 2, pushes := 1, on := [.c], right := some 2, acc := { blocks := true } }
  | .wpset _ =>
    some { pops := 1, pushes := 1, on := [.c], rbits := 7, ban := true, right := some 1, acc := { blocks := true } }
  | .wpclr _ =>
    some { pops := 0, pushes := 0, on := [.c], rbits := 7, ban := true, right := some 1 }
  | .farerd _ =>
    some { pushes := 1, rbits := 1 }
  | .faretop _ =>
    some { pops := 1, pushes := 1, on := [.c], rbits := 1, acc := { blocks := true } }
  | .station _ | .yield _ | .phase _ =>
    some { pops := 1, on := [.c], ban := true }
  | .spawn _ =>
    some { pops := 1, pushes := 1, on := [.c], ban := true, acc := { blocks := true } }
  | .depdec _ =>
    some { pops := 2, on := [.c, .t] }
  | .fork r =>
    some { pops := (if (r3 r).getLsbD 0 then 1 else 0) + (if (r3 r).getLsbD 1 then 1 else 0) + (if (r3 r).getLsbD 2 then 1 else 0), on := [.c], rbits := 7, ban := true, acc := { blocks := true } }
  | .rvz _ =>
    some { ban := true, acc := { blocks := true } }
  | .halt _ =>
    some { on := [.c], ban := true, acc := { blocks := true } }
  | .flip _ =>
    some { pops := 2, on := [.c], rbits := 1, ban := true, acc := { blocks := true } }
  | .eret _ =>
    some { on := [.c], ostler := true }
  | .prog _ =>
    some { rbits := 7 }
  | .mset _ =>
    some { pops := 1, on := [.m], rbits := 15 }
  | .mloadb _ | .mzero _ =>
    some { pops := 0, on := [.m], rbits := 0, launch := true, acc := { event := true, blocks := true } }
  | .mloadt _ =>
    some { pops := 0, on := [.m], rbits := 15, launch := true, acc := { event := true, blocks := true } }
  | .mrun _ | .mgather _ =>
    some { pops := 0, on := [.m], rbits := 0, launch := true, acc := { sparse := true, event := true, blocks := true } }
  | .mdrain _ =>
    some { pops := 0, on := [.m], rbits := 7, launch := true, acc := { round := true, sat := true, event := true, blocks := true } }
  | .mreada _ =>
    some { pops := 2, on := [.m], rbits := 15, launch := true, acc := { event := true, blocks := true }, hookC := true }
  | .mpatch _ =>
    some { pops := 3, on := [.m], rbits := 15, launch := true, acc := { event := true, blocks := true }, hookC := true }
  | .mwaitc _ =>
    some { pops := 1, on := [.m], acc := { blocks := true } }
  | .mstat _ =>
    some { pops := 2, pushes := 1, on := [.m] }
  | .dset _ =>
    some { pops := 1, on := [.t], rbits := 7 }
  | .dcopy _ =>
    some { pops := 0, on := [.t], rbits := 0, launch := true, acc := { fmt := false, event := true, blocks := true } }
  | .dqapp _ =>
    some { pops := 3, pushes := 1, on := [.c, .t], acc := { event := q == .t, blocks := true } }
  | .gatherr _ =>
    some { pops := 5, on := [.t], rbits := 15, launch := true, acc := { fmt := true, event := true, blocks := true } }
  | .scatterw _ | .scatadd _ =>
    some { pops := 5, on := [.t], rbits := 3, launch := true, acc := { fmt := true, event := true, blocks := true } }
  | .fold _ =>
    some { pops := 4, on := [.t], rbits := 7, launch := true, acc := { fmt := false, event := true, blocks := true } }
  | .foldwait _ =>
    some { on := [.t], acc := { blocks := true } }
  | .chkick _ =>
    some { pops := 2, pushes := 1, on := [.c, .t], acc := { event := q == .t, blocks := true } }
  | .chlink _ | .dstat _ =>
    some { pops := 2, pushes := 1, on := [.c, .t] }
  | .chstat _ =>
    some { pops := 1, pushes := 1, on := [.c, .t] }
  | .dwait _ =>
    some { pops := 1, on := [.c, .t], acc := { blocks := true } }
  | .mcast _ =>
    some { pops := 4, on := [.t], rbits := 0, launch := true, acc := { fmt := false, event := true, blocks := true } }
  | .dcsum _ =>
    some { pops := 2, pushes := 1, on := [.t] }
  | .pbind _ =>
    some { pops := 1, on := [.v], rbits := 7, acc := { fmt := true, blocks := true } }
  | .pstep _ =>
    some { on := [.v], rbits := 7 }
  | .pread _ =>
    some { pushes := 1, on := [.v], rbits := 7 }
  | .tld _ | .tst _ =>
    some { pops := 3, on := [.v, .t], rbits := 15, acc := { fmt := true, conv := true, codes := fmtScalar, event := true, blocks := true } }
  | .tfree _ | .twaitf _ =>
    some { on := [.v, .t], rbits := 15, acc := { blocks := true } }
  | .tfill _ =>
    some { on := [.v, .t], rbits := 15, acc := { blocks := false } }
  | .fopen _ =>
    some { pops := 1, pushes := 0, on := [.c, .v], rbits := 7, acc := { fmt := true, blocks := true } }
  | .fadv _ | .fclose _ =>
    some { pops := 0, pushes := 0, on := [.c, .v], rbits := 7, acc := { blocks := false } }
  | .fseek _ =>
    some { pops := 1, pushes := 0, on := [.c, .v], rbits := 7, acc := { blocks := true } }
  | .fend _ =>
    some { pops := 0, pushes := 1, on := [.c, .v], rbits := 7, acc := { blocks := false } }
  | .fcrd _ | .fval _ | .fmatch _ =>
    some { pops := 0, pushes := 1, on := [.c, .v], rbits := 7, acc := { blocks := true } }
  | .frow _ =>
    some { pops := 1, pushes := 0, on := [.c, .v], rbits := 7, acc := { round := true, sat := true, blocks := true } }
  | .vsplat _ =>
    some { pops := 1, on := [.v], rbits := 7 }
  | .vlane _ =>
    some { pops := 1, pushes := 1, on := [.v], rbits := 7 }
  | .vputl _ =>
    some { pops := 2, on := [.v], rbits := 7 }
  | .vwait _ =>
    some { on := [.v], acc := { blocks := true } }
  | .mgopen _ =>
    some { pops := 1, pushes := 2, on := [.c], acc := { blocks := true } }
  | .mgput _ =>
    some { pops := 3, on := [.v, .t], rbits := 1, acc := { fmt := true, blocks := true } }
  | .mgrow _ =>
    some { pops := 3, on := [.m, .v], rbits := 15, acc := { blocks := true } }
  | .mgend _ =>
    some { pops := 1, on := [.m, .v, .t], rbits := 1, acc := { blocks := true } }
  | .mgclose _ =>
    some { pops := 1, on := [.c], rbits := 1, acc := { blocks := true } }
  | .mgstat _ =>
    some { pops := 1, pushes := 1, on := [.c], rbits := 15 }
  | .mgspill _ =>
    some { pops := 1, on := [.c], rbits := 1 }
  | .mgexpand _ =>
    some { pops := 1, on := [.v, .t], rbits := 7, acc := { blocks := true } }
  | .scrub _ =>
    some { pops := 1, pushes := 1, on := [.c] }
  | .poisonq _ =>
    some { pops := 1, pushes := 1, acc := { blocks := true } }
  | .wpstat _ =>
    some { pops := 1, pushes := 1, on := [.c], rbits := 0, ban := false, right := some 1 }
  | .csum _ =>
    some { pops := 2, pushes := 1, on := [.c, .v, .t], acc := { blocks := true } }
  | .hret _ =>
    some { pops := 0, pushes := 0, on := [.c], rbits := 0, ban := false, right := some 1 }
  | .trial _ =>
    some { pops := 3, on := [.c], rbits := 1, right := some 1 }
  | .vmov _ _ _ | .vmin _ _ _ | .vmax _ _ _ | .vand _ _ _ | .vor _ _ _ | .vxor _ _ _ | .vshl _ _ _ | .vshr _ _ _
  | .vsar _ _ _ | .vclt _ _ _ | .vceq _ _ _ | .vsel _ _ _ | .vmaxr _ _ _ | .vbcast _ _ _ | .vshuf _ _ _ | .vpk24 _ _ _
  | .vclr _ _ _ =>
    some { on := [.v], acc := { event := true } }
  | .vadd _ _ _ | .vsub _ _ _ | .vmul _ _ _ | .vfma _ _ _ | .vexp2 _ _ _ | .vlog2 _ _ _ | .vrcp _ _ _ | .vrsq _ _ _
  | .vsumr _ _ _ | .vscale _ _ _ =>
    some { on := [.v], acc := { round := true, sat := true, event := true } }
  | .vabs _ _ _ | .vneg _ _ _ =>
    some { on := [.v], acc := { sat := true, event := true } }
  | .vcvt _ _ _ | .vdqmx _ _ _ =>
    some { on := [.v], acc := { round := true, sat := true, fmt := true, event := true } }
  | .vqmx _ _ _ =>
    some { on := [.v], acc := { fmt := true, event := true } }
  | .scope _ | .token _ | .ifp _ | .fmt _ | .sparse _ | .waitmax _ | .round _ | .sat _ | .event _ | .undefinedWord _
  | .clearEngine | .dispatchStep | .gangReservation | .gangUnplaceableReport | .launchEnd | .waitCompletion
  | .waitBoundExpiry | .watchdogExpiry | .blockedCycleCharge | .hardPreemption | .topupRetry | .faretopPolicyGrant
  | .saveCopyOut | .resumeRestore | .clockStepRequest | .clockStop | .clockRestart | .powerMeasurement | .bankDrainEnd
  | .fifoOverflowService | .loadPerform | .storePerform | .multicastLanding | .cowService | .sramRailLow | .sramRailRecover
  | .bankScrub | .registerScrub | .vResultLanding | .tileMoveComplete | .packetParse | .nopPacket | .copy | .fencePacket
  | .signalPacket | .spawnPacket | .reduce | .gatherPacket | .parserStallTimeout | .fencePacketTimeout | .landingUnit
  | .packetCompletion | .queueFaultService | .chainEntryStart | .chainEntryComplete | .tCommandComplete | .gatherReply
  | .foldStart | .foldComplete | .weightBufferExchange | .rowEntry | .rowSlotUpdate | .mCommandComplete | .drainSlot
  | .watchStop | .impreciseWatchStop | .mangleRecord | .mangleSpill | .hamperService | .mergePass | .finalPass
  | .trapForward | .deferredFault | .selfTest | .traceSample | .tctlWrite | .trialHold | .lifetimeRecordWrite
  | .hostApertureRead | .hostApertureWrite | .hostAtomic | .formatWindowWrite | .routeTableWrite | .registerWrite
  | .requestNone | .resumeNode | .endAbandon | .endComplete | .releaseDump | .creditFare | .softPreempt
  | .hardPreemptRequest | .setWatchRequest | .openGroup | .closeGroup | .restartQueue | .tlbInvalidation
  | .l2WritebackInvalidate | .registerArena | .unregisterArena | .unknownRequest | .cxlLinkFail | .flitReceive
  | .hitchPortLost | .laneSparing | .remoteAccess | .reduceChunk | .collectiveTimeout | .powerOn | .firmwareReplacement
  | .hotRemoval | .attestationRequest | .spuriousWake | .thermalLimit | .degradedModeSet | .powerLoss => none

/-- The r field of a word (R153); words without one have 0. -/
def rField (i : Instr) : BitVec 4 :=
  match i with
  | .nop r | .dup r | .drop r | .swap r | .over r | .rot r | .pick r | .depth r | .get r | .put r | .getc r | .putc r
  | .prep r | .br r | .brn r | .call r | .ret r | .loop r | .setn r | .getn r | .add r | .sub r | .mul r | .mulh r
  | .mulhu r | .div r | .divu r | .rem r | .remu r | .and r | .or r | .xor r | .not r | .neg r | .shl r | .shr r | .sar r
  | .min r | .max r | .minu r | .maxu r | .clz r | .popc r | .addi r | .shli r | .shri r | .sext r | .zext r | .ceq r
  | .cne r | .clt r | .cltu r | .cle r | .cleu r | .pand r | .por r | .pnot r | .sel r | .lea r | .csrr r | .csrw r
  | .tbset r | .tbget r | .brk r | .ld r | .st r | .ldx r | .stx r | .qmark r | .fence r | .aadd r | .axchg r | .acas r
  | .amin r | .amax r | .aminu r | .amaxu r | .aand r | .aor r | .axor r | .afadd r | .mwait r | .sigpost r | .sigwait r
  | .sigset r | .qpush r | .qpop r | .qtry r | .qbind r | .evbind r | .barg r | .pgshare r | .pgdrop r | .pgrefs r
  | .wpset r | .wpclr r | .farerd r | .faretop r | .station r | .yield r | .spawn r | .depdec r | .fork r | .rvz r | .halt r
  | .flip r | .phase r | .segchk r | .trap r | .eret r | .prog r | .clock r | .mset r | .mloadb r | .mloadt r | .mrun r
  | .mgather r | .mdrain r | .mzero r | .mreada r | .mpatch r | .mwaitc r | .mstat r | .dset r | .dcopy r | .dqapp r
  | .gatherr r | .scatterw r | .scatadd r | .fold r | .foldwait r | .chkick r | .chlink r | .chstat r | .dwait r | .mcast r
  | .dstat r | .dcsum r | .pbind r | .pstep r | .pread r | .tld r | .tst r | .tfree r | .tfill r | .twaitf r | .fopen r
  | .fadv r | .fseek r | .fend r | .fcrd r | .fval r | .frow r | .fmatch r | .fclose r | .vsplat r | .vlane r | .vputl r
  | .vwait r | .mgopen r | .mgput r | .mgrow r | .mgend r | .mgclose r | .mgstat r | .mgspill r | .mgexpand r | .trcw r
  | .scrub r | .poisonq r | .wpstat r | .csum r | .hret r | .icsync r | .trial r => r
  | .lit _ | .ext _ | .vmov _ _ _ | .vadd _ _ _ | .vsub _ _ _ | .vmul _ _ _ | .vfma _ _ _ | .vmin _ _ _ | .vmax _ _ _
  | .vabs _ _ _ | .vneg _ _ _ | .vand _ _ _ | .vor _ _ _ | .vxor _ _ _ | .vshl _ _ _ | .vshr _ _ _ | .vsar _ _ _
  | .vclt _ _ _ | .vceq _ _ _ | .vsel _ _ _ | .vcvt _ _ _ | .vexp2 _ _ _ | .vlog2 _ _ _ | .vrcp _ _ _ | .vrsq _ _ _
  | .vsumr _ _ _ | .vmaxr _ _ _ | .vbcast _ _ _ | .vshuf _ _ _ | .vscale _ _ _ | .vqmx _ _ _ | .vdqmx _ _ _ | .vpk24 _ _ _
  | .vclr _ _ _ | .scope _ | .token _ | .ifp _ | .fmt _ | .sparse _ | .waitmax _ | .round _ | .sat _ | .event _
  | .undefinedWord _ | .clearEngine | .dispatchStep | .gangReservation | .gangUnplaceableReport | .launchEnd
  | .waitCompletion | .waitBoundExpiry | .watchdogExpiry | .blockedCycleCharge | .hardPreemption | .topupRetry
  | .faretopPolicyGrant | .saveCopyOut | .resumeRestore | .clockStepRequest | .clockStop | .clockRestart | .powerMeasurement
  | .bankDrainEnd | .fifoOverflowService | .loadPerform | .storePerform | .multicastLanding | .cowService | .sramRailLow
  | .sramRailRecover | .bankScrub | .registerScrub | .vResultLanding | .tileMoveComplete | .packetParse | .nopPacket | .copy
  | .fencePacket | .signalPacket | .spawnPacket | .reduce | .gatherPacket | .parserStallTimeout | .fencePacketTimeout
  | .landingUnit | .packetCompletion | .queueFaultService | .chainEntryStart | .chainEntryComplete | .tCommandComplete
  | .gatherReply | .foldStart | .foldComplete | .weightBufferExchange | .rowEntry | .rowSlotUpdate | .mCommandComplete
  | .drainSlot | .watchStop | .impreciseWatchStop | .mangleRecord | .mangleSpill | .hamperService | .mergePass | .finalPass
  | .trapForward | .deferredFault | .selfTest | .traceSample | .tctlWrite | .trialHold | .lifetimeRecordWrite
  | .hostApertureRead | .hostApertureWrite | .hostAtomic | .formatWindowWrite | .routeTableWrite | .registerWrite
  | .requestNone | .resumeNode | .endAbandon | .endComplete | .releaseDump | .creditFare | .softPreempt
  | .hardPreemptRequest | .setWatchRequest | .openGroup | .closeGroup | .restartQueue | .tlbInvalidation
  | .l2WritebackInvalidate | .registerArena | .unregisterArena | .unknownRequest | .cxlLinkFail | .flitReceive
  | .hitchPortLost | .laneSparing | .remoteAccess | .reduceChunk | .collectiveTimeout | .powerOn | .firmwareReplacement
  | .hotRemoval | .attestationRequest | .spuriousWake | .thermalLimit | .degradedModeSet | .powerLoss => 0

end Sys2Proof.Machine
end

