-- ==== Sys2Proof/Machine/Sched.lean ====
section
/-! DEFINITION. Whose turn it is and what it does with it: fetching a word (R26, R166), the cycle of the cores and its
end. `Step` only calls what stands here. -/

namespace Sys2Proof.Machine

/-! ### Fetch -/

/-- The word a sequencer fetches at a target (R168). A line that the cache does not hold for the sequencer is filled from memory. Where a line
it does hold differs from memory, the store behind that may or may not have reached the fetch: the old word comes or the new one, by a free
choice. (DEDUCED, log entry 56.) -/
def State.codeWord (s : State) (k : CoreId) (q : Seq) (t : Target) : Word16 × State :=
  let pa := s.paOf t
  let new := BitVec.ofNat 16 (leNat (s.viewBytes k t 2))
  match s.heldLine k q t with
  | none => (new, s.modCore k fun c => c.fillLine (s.codeLine k t))
  | some l =>
    let old := BitVec.ofNat 16 (leNat ((l.data.drop (pa % 128)).take 2))
    if old = new then (new, s)
    else
      let (i, s) := s.pick 2
      (if i = 0 then old else new, s)

/-- The word at a PC, or why there is none: a fetch translates like a load, sees the core's own version, and consumes poison
(R26, R166, R325). -/
def State.fetch (s : State) (k : CoreId) (q : Seq) (pc : VA) : Except (Stop × State) (Word16 × State) :=
  match s.access k (pc.setWidth 64) 2 2 .fetch with
  | .error e => .error (e, s)
  | .ok (t, e) =>
    match ((s.useTlb k e).meet t 2).consumeBy k t 2 with
    | (s, some p) => .error (.trap p, s)
    | (s, none) => .ok (s.codeWord k q t)

/-- A word that reads memory for its sequencer or orders its accesses, and so has the earlier loads performed first (R120, R122): an atomic too,
for it reads, and the words that wait, release, end a phase or leave the core. (DEDUCED, log entry 11.) -/
def readsOrOrders (i : Instr) : Bool :=
  match i with
  | .fence _ | .qmark _ | .icsync _ | .aadd _ | .axchg _ | .acas _ | .amin _ | .amax _ | .aminu _ | .amaxu _ | .aand _ | .aor _ | .axor _
  | .afadd _ | .mwait _ | .sigpost _ | .sigwait _ | .sigset _ | .qpush _ | .qpop _ | .qtry _ | .qbind _ | .evbind _ | .barg _ | .pgshare _
  | .pgdrop _ | .pgrefs _ | .wpset _ | .wpclr _ | .wpstat _ | .hret _ | .faretop _ | .station _ | .yield _ | .spawn _ | .depdec _ | .fork _
  | .rvz _ | .halt _ | .flip _ | .phase _ | .trap _ | .eret _ | .mwaitc _ | .dwait _ | .foldwait _ | .twaitf _ | .vwait _ | .mreada _ | .mpatch _
  | .tld _ | .tst _ | .fopen _ | .fadv _ | .fseek _ | .fend _ | .fcrd _ | .fval _ | .frow _ | .fmatch _ | .fclose _ | .mgopen _ | .mgput _
  | .mgrow _ | .mgend _ | .mgclose _ | .mgspill _ | .mgexpand _ | .csum _ | .scrub _ | .poisonq _ | .dcsum _ | .chkick _ | .chlink _ => true
  | _ => false

/-- How many entries from the top a word uses of the parameter stack, for the words that leave earlier loads of their sequencer to be performed
later (R120); none for those that have them performed first. -/
def lateUses (q : Seq) (i : Instr) : Option Nat :=
  match i with
  | .scope _ | .token _ | .ifp _ | .fmt _ | .sparse _ | .waitmax _ | .round _ | .sat _ | .event _ => some 0
  | _ => if readsOrOrders i then none else (wordSpec q i).map fun p => p.pops

/-- A word under these prefixes releases (R122). -/
def Seqr.releases (r : Seqr) : Bool := r.pfx.any fun p => p.kind == .scope && p.payload.getLsbD 2

/-- The loads that a word leaves to be performed later: those after the last one whose value it uses, for loads are performed in order (R120,
R134). A word that releases leaves none (R122). -/
def Seqr.latePast (r : Seqr) (q : Seq) (i : Instr) : List LateLoad :=
  match if r.releases then none else lateUses q i with
  | none => []
  | some n => after r.late fun l => decide (r.stack.length ≤ l.ix + n)

/-- A word is to be issued: the loads it does not leave to be performed later keep the values they have taken. -/
def State.firmLoads (s : State) (k : CoreId) (q : Seq) (i : Instr) : State :=
  if (s.seq k q).late = [] then s else s.modSeq k q fun r => { r with late := r.latePast q i }

/-- The instruction at a PC, to be issued on a sequencer. -/
def State.fetchInstr (s : State) (k : CoreId) (q : Seq) (pc : VA) : Except (Stop × State) (Instr × State) :=
  match s.fetch k q pc with
  | .error e => .error e
  | .ok (w, s) => .ok (decodeWord w, s.firmLoads k q (decodeWord w))

/-! ### Clocks (R21, R22) -/

/-- The die's clock has a cycle in a timer count: it runs at 2,250 − 75 k MHz beside a timer of 2,250 MHz. -/
def DieSt.cycles (d : DieSt) (now : Nat) : Bool :=
  let f := 2250 - 75 * d.step.val
  !d.stoppedClk && (now + 1) * f / 2250 != now * f / 2250

/-! ### A turn -/

/-- What a turn does. -/
inductive Turn where
  /-- Perform an instruction. -/
  | run (i : Instr) (s : State)
  /-- Nothing issues in this cycle. -/
  | pass (s : State)

/-- Some sequencer of the core stands inside an issue group (R157, R332). -/
def Ctx.inGroup (x : Ctx) : Bool :=
  x.c.grpPc.isSome || x.m.grpPc.isSome || x.v.grpPc.isSome || x.t.grpPc.isSome

/-- A new issue group may not begin on the sequencer now, nor a blocked word be issued again: a pre-emption is due (R308), which a hook on C puts off until it has ended (R191), a
clock step is wanted (R23), a yield is under way (R63), or the context is saved. -/
def State.noNewGroup (s : State) (k : CoreId) (q : Seq) : Bool :=
  let c := s.core k
  (c.preempt.isSome && !(c.hook.isSome && q == .c)) || (s.die k.die).wantStep.isSome || (c.yielding && q != .c) || c.saved.isSome

/-- A sequencer of a core issues nothing: it stands at a trap, a hook runs on C (R191), or a watch stop is to be taken. -/
def Core.stands (c : Core) (q : Seq) : Bool := (c.ctx.seq q).stopped.isSome || (c.hook.isSome && q != .c) || c.hit.isSome

/-- The sequencer issues nothing in any case: it stands, or the die has no cycle now. -/
def State.stands (s : State) (k : CoreId) (q : Seq) : Bool := !(s.die k.die).cycles s.now || (s.core k).stands q

/-- A sequencer has been kept from issuing in the present cycle: its results in flight stand still with it (R127). -/
def State.markStood (s : State) (k : CoreId) (q : Seq) : State :=
  if (s.die k.die).cycles s.now then s.modCore k fun c => { c with stood := c.stood ||| (1#4 <<< seqCode q) } else s

/-- The turn of a sequencer that may issue: a held word is issued again, or the word at the PC is fetched. -/
def State.issueTurn (s : State) (k : CoreId) (q : Seq) : Turn :=
  let r := s.seq k q
  match r.held with
  | some _ => .run .waitCompletion { s with arg := { k := k, q := q } }
  | none =>
    match s.fetchInstr k q r.pc with
    | .ok (i, s) => .run i s
    | .error (.trap t, s) => .pass (s.takeTrap k q t)
    | .error (_, s) => .pass s

/-- The turn of the sequencer that `cur` names. (DESIGN CHOICE, log entry 10.) -/
def State.turn (s : State) : Turn :=
  let k := s.cur.1
  let q := s.cur.2
  let r := s.seq k q
  if s.stands k q then .pass (if (s.core k).stands q then s.markStood k q else s)
  else
    match r.run with
    | .idle => .pass s
    | .parked => .pass s
    | _ =>
      if (r.grpPc.isNone || r.held.isSome) && s.noNewGroup k q then .pass (if (s.core k).preempt.isSome then s.markStood k q else s)
      else if 0 < r.bubbles then .pass (s.modSeq k q fun r => { r with bubbles := r.bubbles - 1 })
      else if 0 < r.hold then .pass (s.modSeq k q fun r => { r with hold := r.hold - 1 })
      else s.issueTurn k q

/-! ### The cycle -/

/-- The core after one in the list of cores; `none` at the end of the cycle. -/
def nextCore (cs : List CoreId) (k : CoreId) : Option CoreId :=
  match cs with
  | [] => none
  | j :: t => if j = k then t.head? else nextCore t k

/-- A sequencer of a core was kept from issuing in the cycle that ends. -/
def Core.stoodNow (c : Core) (q : Seq) : Bool := c.stands q || c.saved.isSome || c.stood.getLsbD (seqCode q)

/-- The cycle that ends was an issue cycle of a sequencer (R165), or the sequencer has no word to issue. One that holds an RVZ until its results
have landed counts too, for they could not come otherwise; a blocked wait does not. (DEDUCED, log entry 10.) -/
def Seqr.counted (r : Seqr) : Bool :=
  r.run == .idle || r.run == .parked || (r.issued, r.bubbles) != r.mark || match r.held with | some (.rvz _) => true | _ => false

/-- A result in flight comes nearer by a cycle (R262). It stands still while its sequencer is kept from issuing, and lands as many issue cycles
after the sequencer's first word as it then had left (R127). -/
def Core.nearer (c : Core) (l : Landing) : Landing :=
  let q := if l.fromC then .c else .v
  if c.stoodNow q then { l with replay := true }
  else if l.replay && !(c.ctx.seq q).counted then l
  else { l with left := l.left - 1 }

/-- A cycle of a sequencer ends: its stores in the broadcast tree come nearer (R126). -/
def Seqr.endCycle (r : Seqr) : Seqr :=
  { r with mark := (r.issued, r.bubbles), stores := r.stores.map fun p => { p with land := p.land - 1 } }

/-- A cycle of a core ends: the old values of the cycle are forgotten (R30, R164, R167), results and rows in flight come nearer
(R245, R262), a drain goes on (R94), and the bank's ports are free again (R17). -/
def Core.endCycle (c : Core) : Core :=
  let x := c.ctx
  { c with
      drain := if c.drain ≤ 1 then c.drain else c.drain - 1
      ports := c.ports.endCycle, stood := 0
      ctx := { x with
        c := x.c.endCycle, m := x.m.endCycle, v := x.v.endCycle, t := x.t.endCycle
        landings := x.landings.map c.nearer
        me := { x.me with queue := x.me.queue.map fun m => { m with fly := m.fly.map fun r => { r with left := r.left - 1 } } }
        regs := { x.regs with sOld := [], tbOld := none, wfNow := 0 } } }

/-- A beyond-cluster wait counts one timer count (R69). -/
def Seqr.tickWait (r : Seqr) : Seqr :=
  match r.wait with
  | some w =>
    if w.beyond && w.reason != 0 && r.stopped.isNone then { r with wait := some { w with stalled := w.stalled + 1 } } else r
  | none => r

/-- Some word of a core is in a beyond-cluster wait. -/
def Ctx.waitsBeyond (x : Ctx) : Bool :=
  [x.c, x.m, x.v, x.t].any fun r => match r.wait with | some w => w.beyond | none => false

/-- The beyond-cluster waits of a core count in timer counts (R22), unless its watchdog stands still or a hook runs; the trace records of the
count are written (R336). -/
def State.tickCore (s : State) (k : CoreId) (c : Core) : Core :=
  let c := if (s.die k.die).cycles s.now then c.endCycle else c
  let c := if c.trace.due = [] then c else { c with trace := c.trace.publish }
  let x := c.ctx
  if !x.waitsBeyond || c.hook.isSome || c.saved.isSome || s.watchdogFrozen k then c
  else { c with ctx := { x with c := x.c.tickWait, m := x.m.tickWait, v := x.v.tickWait, t := x.t.tickWait } }

/-- Stores that have passed the broadcast tree land at the end of a cycle. -/
def State.landAll (s : State) (k : CoreId) : State :=
  if (s.ctx k).inTree then [Seq.c, .m, .v, .t].foldl (fun s q => s.landStores k q) s else s

/-- A cycle of the darning of a bank row (R364): when the hold ends, the row stands corrected on its spare; what cannot be corrected is
poisoned (R324). -/
def State.tickRepair (s : State) (k : CoreId) : State :=
  match (s.core k).repair.darn with
  | none => s
  | some (row, n) =>
    let (h, s) := if 1 < n then (0, s) else s.pick 64
    let s := s.modCore k fun c => { c with repair := c.repair.tick (h + 1) }
    if 1 < n then s
    else
      let lo := bankKey k (1024 * row) / 32
      let here := fun p : Nat => decide (lo ≤ p ∧ p < lo + 32)
      let bad := (s.ecc.filter fun e => here e.1 && e.2 && !s.poison.contains e.1).map fun e => e.1
      { s with poison := bad ++ s.poison, ecc := s.ecc.filter fun e => !here e.1 }

/-- A fold that the fold engine performs comes nearer to its end (R229). -/
def TCmd.tickFold (c : TCmd) : TCmd :=
  match c.op with
  | .fold j => if j.started then { c with op := .fold { j with left := j.left - 1 } } else c
  | _ => c

/-- A bank of a key. -/
def keyBank (key : Nat) : Option CoreId := match keyTarget key with | some (.bank k _) => some k | _ => none

/-- The fold engine moves the 256 bytes of a cycle of a core's fold, where the ports of its two banks can carry them (R17, R229). -/
def State.tickFolding (s : State) (k : CoreId) : State :=
  match (s.ctx k).running with
  | none => s
  | some (_, _, j) =>
    let b := fun l : List (Nat × Nat) => (l.head?.bind fun r => keyBank r.1).getD k
    let src := b j.src
    let dst := b j.dst
    if j.left = 0 ∨ !(s.core src).ports.allow s.serial 256 [] false ∨ !(s.core dst).ports.allow s.serial 256 [] true then s
    else
      let s := s.modCore src fun c => { c with ports := c.ports.carry s.serial 256 [] false }
      let s := s.modCore dst fun c => { c with ports := c.ports.carry s.serial 256 [] true }
      s.modTe k fun e => { e with queue := e.queue.map TCmd.tickFold }

/-- A cycle of a cluster's engines ends (R19, R126, R229). -/
def State.tickCluster (s : State) (d : Die) (c : Cluster) : State :=
  let x := s.cluster d c
  let s := if x.moved = 0 ∧ x.emit = 6 then s else s.modCluster d c fun y => { y with moved := 0, emit := 6 }
  let s := match x.folding with
    | some k => s.tickFolding k
    | none => s
  if x.tree = [] then s else s.tickTree d c

/-- A cycle of a die's clock ends: what the banks, engines and trees of the die have in progress goes on by one cycle (R21). -/
def State.tickDie (s : State) (d : Die) : State :=
  let s := s.modDie d fun x => { x with cycle := x.cycle + 1 }
  let ks := (s.cores.map fun c => c.1).filter fun k => k.die == d
  let s := ks.foldl (fun s k => (s.tickRepair k).tickDrains k) s
  (List.finRange 9).foldl (fun s c => s.tickCluster d c) s

/-- The dies whose clock has a cycle in the present timer count. -/
def State.ticking (s : State) : List Die := (List.finRange 4).filter fun d => (s.die d).cycles s.now

/-! ### What is due at the end of a cycle

The events below come before the next turn. Each one checks for itself whether it can happen; those whose moment the spec leaves
open are offered by a free choice. -/

/-- An event that comes now. (DESIGN CHOICE, log entry 40.) (DESIGN CHOICE, log entry 49.) -/
def State.due (s : State) (p : Bool) (i : Instr) (a : EvArg) : State := if p then s.enqueue i a else s

/-- An event that may come now or later, with a free number for what it may choose. (DESIGN CHOICE, log entry 40.) -/
def State.offer (s : State) (p : Bool) (i : Instr) (a : EvArg) : State :=
  if p then
    let n := Config.pick s.free
    let s := { s with free := s.free + 1 }
    if n % 2 = 0 then s.enqueue i { a with num := n / 2 } else s
  else s

/-- What a core's boundary may bring, in the order of R307. -/
def State.dueBoundary (s : State) (k : CoreId) : State :=
  let c := s.core k
  let a : EvArg := { k := k }
  let s := s.due c.hit.isSome .watchStop a
  let s := s.due (match s.nodeOf k with | some n => n.imprecise.isSome | none => false) .impreciseWatchStop a
  let s := s.due (!c.pend.isEmpty) .deferredFault a
  s.due c.preempt.isSome .hardPreemption a

/-- A sequencer has a load or a read of a fibre that is still to be performed, or may be performed later than it was (R120, R276). -/
def Seqr.readDue (r : Seqr) : Bool :=
  (match r.load with | some l => l.value.isNone | none => false) || (r.reads.any fun x => x.value.isNone) || !r.late.isEmpty

/-- What the sequencers of a core have due. -/
def State.dueSeqs (s : State) (k : CoreId) : State :=
  [Seq.c, .m, .v, .t].foldl (fun s q =>
    let r := s.seq k q
    let a : EvArg := { k := k, q := q }
    let s := s.offer (!r.stores.isEmpty) .storePerform a
    s.offer r.readDue .loadPerform a) s

/-- A beyond-cluster wait of a core has reached the watchdog's 10 ms (R69). -/
def State.dueWatchdog (s : State) (k : CoreId) : State :=
  [Seq.c, .m, .v, .t].foldl (fun s q =>
    let late := match (s.seq k q).wait with | some w => w.beyond && decide (watchdogCycles ≤ w.stalled) | none => false
    s.due late .watchdogExpiry { k := k, q := q }) s

/-- What the engines of a core have due. -/
def State.dueEngines (s : State) (k : CoreId) : State :=
  let x := s.ctx k
  let a : EvArg := { k := k }
  let s := s.due (x.landings.any fun l => l.left == 0) .vResultLanding a
  let s := s.offer (!x.moves.isEmpty) .tileMoveComplete a
  let m := !x.me.queue.isEmpty
  let s := s.due m .drainSlot a
  let s := s.due (x.me.queue.any fun c => c.fly.any fun r => r.left == 0) .rowSlotUpdate a
  let s := s.due (x.me.queue.any fun c => c.swaps && !c.swapped) .weightBufferExchange a
  let s := s.offer (m && (s.die k.die).wantStep.isNone) .rowEntry a
  let s := s.due m .mCommandComplete a
  let t := !x.te.queue.isEmpty
  let s := s.offer t .landingUnit { a with job := .core k }
  let s := s.offer t .gatherReply a
  let s := s.offer t .multicastLanding a
  let s := s.due t .tCommandComplete a
  (List.finRange 4).foldl (fun s j =>
    let act := (s.chainOf k j).active
    let b := { a with x := j }
    let s := s.offer act .chainEntryStart b
    let s := s.offer act .landingUnit { b with job := .chain k j }
    s.offer act .chainEntryComplete b) s

/-- What a core has due at the end of a timer count; its engines and its bank go by the cycles of its die (R7, R21). -/
def State.dueCore (s : State) (old : Core) (ticks : List Die) (k : CoreId) : State :=
  let away := (s.core k).saved.isSome || (s.core k).node.isNone
  let s := if away then s else s.dueWatchdog k
  let s := s.due (s.core k).saved.isSome .saveCopyOut { k := k }
  if !ticks.contains k.die then s
  else
    let n := (s.die k.die).cycle
    let s := s.due (old.drain == 1 && (s.core k).drain == 1) .bankDrainEnd { k := k }
    let s := s.due (match (s.core k).trace.period with | some p => n % 2 ^ p == 0 | none => false) .traceSample { k := k }
    let s := s.due (n % 256 == 0) .registerScrub { k := k }
    if away then s else ((s.dueEngines k).dueSeqs k).dueBoundary k

/-- Cores whose banks hold errors that scrubbing could find, with those of the list. -/
def State.scrubbed (s : State) : List CoreId :=
  (s.cores.map (fun c => c.1) ++ s.ecc.filterMap fun p =>
    if p.1 * 32 / 2 ^ 51 = 1 then (match keyTarget (p.1 * 32) with | some (.bank k _) => some k | _ => none) else none).dedup

/-- What the clusters of the dies that have a cycle have due: the fold engines and the Mangles. -/
def State.dueClusters (s : State) (ticks : List Die) : State :=
  ticks.foldl (fun s d => (List.finRange 9).foldl (fun s c =>
    let a : EvArg := { d := d, c := c }
    let cl := s.cluster d c
    let s := s.due (s.cores.any fun k => k.1.die == d && k.1.cluster == c && !k.2.ctx.te.queue.isEmpty) .foldStart a
    let s := s.offer cl.folding.isSome .foldComplete a
    if cl.sess.toList.all fun x => x.st == .free then s
    else
      (List.finRange 8).foldl (fun s j =>
        let b := { a with j := j }
        let x := cl.sess[j.val]
        let s := s.offer (x.wantSpill != 0 || x.header) .mangleSpill b
        let s := s.due (x.st == .merging) .mergePass b
        s.due (x.st == .merging) .finalPass b) s) s) s

/-- What the dray queues have due; their engines go by the cycles of their die, the bounds of their waits by the timer. -/
def State.dueQueues (s : State) (ticks : List Die) : State :=
  s.queues.foldl (fun s q =>
    let a : EvArg := { pa := q.pa }
    let p := !q.pkts.isEmpty
    let s := s.due q.waitSince.isSome .parserStallTimeout a
    if !ticks.contains (cfgDie (s.qCfg q.pa.toNat)) then s
    else
    let s := s.offer true .packetParse a
    let s := s.offer q.fence.isSome .fencePacket a
    let s := s.due q.fence.isSome .fencePacketTimeout a
    let s := s.offer p .nopPacket a
    let s := s.offer p .copy a
    let s := s.offer p .landingUnit { a with job := .queue q.pa }
    let s := s.offer p .signalPacket a
    let s := s.offer p .spawnPacket a
    let s := s.offer p .reduce a
    let s := s.due p .collectiveTimeout a
    let s := s.offer p .gatherPacket a
    s.offer p .packetCompletion a) s

/-- What the nodes have due; gangs reserve in the order in which their 256 µs expire (R53). -/
def State.dueNodes (s : State) (ticks : List Die) : State :=
  let s := if s.nodes.isEmpty then s else s.markStuck
  let s := s.gangsDue.foldl (fun s n => s.enqueue .gangReservation { n := n.id, d := n.id.die }) s
  s.nodes.foldl (fun s n =>
    let a : EvArg := { n := n.id, d := n.id.die }
    let s := s.due (n.readySince.isSome && ticks.contains n.id.die) .dispatchStep a
    let s := s.due (match n.stuck with | some t => decide (t + watchdogCycles ≤ s.now) | none => false) .gangUnplaceableReport a
    let s := s.due (n.st == .due && s.now % msCounts == 0) .topupRetry a
    s.due (n.st == .placed && ticks.contains n.id.die && s.allHalted n && s.endDue n) .launchEnd a) s

/-- What the dies have due: the Ostler's trap queue, and a clock that changes its step. The clock stands still for at most 2 µs. -/
def State.dueDies (s : State) (ticks : List Die) : State :=
  (List.finRange 4).foldl (fun s d =>
    let x := s.die d
    let a : EvArg := { d := d }
    let on := ticks.contains d
    let s := x.trapQ.foldl (fun s r =>
      match coreOf (bitsOf r.core.toNat 11 10) (bitsOf r.core.toNat 9 6) (bitsOf r.core.toNat 5 0) with
      | some k => s.offer (on && r.code == 0x10 && r.kind == 2) .cowService { k := k, q := seqOf r.seq.toNat }
      | none => s) s
    let s := s.offer (on && (!x.trapQ.isEmpty || !x.fwd.isEmpty)) .trapForward a
    let s := s.due (x.wantStep.isSome && !x.stoppedClk) .clockStop a
    let late := decide (x.stoppedAt + 4499 ≤ s.now)
    let s := s.due (x.stoppedClk && late) .clockRestart a
    s.offer (x.stoppedClk && !late) .clockRestart a) s

/-- A Hitch port whose replay has failed for 2 ms is declared lost (R353). -/
def State.duePorts (s : State) : State :=
  (List.finRange 16).foldl (fun s p =>
    let h := s.hitch[p.val]
    let late := match h.replay with | some t => !h.lost && decide (t + 2 * msCounts ≤ s.now) | none => false
    s.due late .hitchPortLost { num := p.val }) s

/-- The scrubbers of the banks of a die read a sector in every 256th of its cycles (R327). -/
def State.dueScrubs (s : State) (d : Die) : State :=
  if (s.die d).cycle % 256 = 0 then
    (s.scrubbed.filter fun k => k.die == d).foldl (fun s k => s.enqueue .bankScrub { k := k }) s
  else s

/-- The lifetime record is written every second (R341), with the bins that the management level then reads. -/
def State.dueLifetime (s : State) : State :=
  if s.now % (1000 * msCounts) = 0 then
    let ws := (List.range 10).map fun i => Config.freeValue (s.free + i)
    ({ s with free := s.free + 10 } : State).enqueue .lifetimeRecordWrite { words := ws }
  else s

/-- The end of a timer count of the module (R22): on the dies whose clock has a cycle in it, the cores' cycles end and the engines go on; what
is due, and each access that was held, comes before the next turn. -/
def State.endCycle (s : State) : State :=
  let ticks := s.ticking
  let s := (s.cores.filter fun c => ticks.contains c.1.die).foldl (fun s c => s.landAll c.1) s
  let old := s.cores
  let s := ticks.foldl State.tickDie { s with cores := old.map fun (k, c) => (k, s.tickCore k c), now := s.now + 1 }
  let s : State := old.foldl (fun s x => s.dueCore x.2 ticks x.1) s
  let s := ticks.foldl State.dueScrubs s
  let s := ((((s.dueClusters ticks).dueQueues ticks).dueNodes ticks).dueDies ticks).duePorts
  let s := ({ s with events := s.events ++ s.waiting, waiting := [] } : State).retryPosts.dropOldRoutes
  let s := (s.pourCapture s.captureDue.length).dueLifetime
  match s.nextRequest with
  | some (i, a) => s.enqueue i a
  | none => s

/-- The next turn: C, M, V, T of a core, then the next core; after the last one the cycle ends (R30). (DESIGN CHOICE, log entry 10.) -/
def State.advance (s : State) : State :=
  let k := s.cur.1
  let s := if (s.seq k s.cur.2).stopped.isSome then s.markStood k s.cur.2 else s
  match s.cur.2 with
  | .c => { s with cur := (k, .m) }
  | .m => { s with cur := (k, .v) }
  | .v => { s with cur := (k, .t) }
  | .t =>
    let cs := s.cores.map fun c => c.1
    match nextCore cs k with
    | some j => { s with cur := (j, .c) }
    | none => ({ s with cur := (cs.headD k, .c) } : State).endCycle

/-! ### Placing a word for the next turn -/

/-- The sequencer that issues a word placed by the host's probe: the first of C, M, V, T that accepts it (R154). -/
def seqForWord (w : Word16) : Seq :=
  let v := w.toNat
  if 0xC000 ≤ v then .v
  else if v < 0xA000 ∨ 0xB000 ≤ v then .c
  else
    let op := v / 16 % 256
    if 0x70 ≤ op ∧ op ≤ 0x7A then .m
    else if op = 0x90 ∨ op = 0x91 ∨ (0x93 ≤ op ∧ op ≤ 0x97) ∨ op = 0x9C ∨ op = 0x9E then .t
    else if 0xB0 ≤ op ∧ op ≤ 0xB7 then .v
    else if 0xC1 ≤ op ∧ op ≤ 0xC4 then .v
    else if op = 0xD1 ∨ op = 0xD7 then .v
    else if op = 0xD2 ∨ op = 0xD3 then .m
    else .c

/-- The PC of byte 0 of core 0.0.0's bank, untranslated (R106). -/
def State.probePc (s : State) : VA := BitVec.ofNat 57 (31 * 2 ^ 52 + s.bankPa ⟨0, 0, 0⟩ 0)

/-- A sequencer that fetches at a PC next. -/
def Seqr.fetchAt (r : Seqr) (pc : VA) : Seqr :=
  { r with run := .running, pc := pc, pfx := [], grpPc := none, held := none, wait := none, stopped := none, late := [],
           bubbles := 0, hold := 0 }

/-- Store a word at the start of core 0.0.0's own bank, in SCRATCH mode, and make it the next word to be fetched. (DESIGN CHOICE, log entry 5.) -/
def State.placeWord (s : State) (w : Word16) : State :=
  let k : CoreId := ⟨0, 0, 0⟩
  let q := seqForWord w
  let s := { s with powered := true, events := [], cur := (k, q), poison := s.poison.filter (· != bankKey k 0 / 32),
                    ecc := s.ecc.filter fun p => p.1 != bankKey k 0 / 32, mem := s.mem.writeLE (bankKey k 0) 2 w.toNat }
  let s := s.modDie 0 fun d => { d with stoppedClk := false, wantStep := none, nextStep := none, step := 0 }
  let s := s.modCore k fun c =>
    { c with mode := .scratch, drain := 0, preempt := none, yielding := false, hook := none, hit := none, saved := none, icache := []
             repair := { c.repair with darn := none } }
  s.modSeq k q fun r => r.fetchAt s.probePc

end Sys2Proof.Machine
end

