-- ==== Sys2Proof/Machine/StateWords.lean ====
section
/-! DEFINITION. State words, breakpoints, program traps, progress counters and the clock (R178, R179). -/

namespace Sys2Proof.Machine

/-- State word n of a core as a sequencer reads it (R178); `none` traps with cause 0x03. TRAPREC reads the PA at which the
record in service stands. (DESIGN CHOICE, log entry 3.) -/
def State.csr (s : State) (k : CoreId) (q : Seq) (n : Nat) : Option W64 :=
  let r := s.regs k
  match n with
  | 0x000 => some ((cid k).setWidth 64)
  | 0x001 => some (r.wflags.setWidth 64)
  | 0x002 => some (BitVec.ofNat 64 (seqCode q + (if isMerge k then 4 else 0)))
  | 0x003 => some (match s.nodeOf k with | some n => n.nodeWord.setWidth 64 | none => 0)
  | 0x004 => some (match s.nodeOf k with | some n => n.rights.setWidth 64 | none => 0)
  | 0x005 => some r.bufa
  | 0x006 => some r.bufb
  | 0x008 => some (BitVec.ofNat 64 ((List.range 8).foldl (fun a i => a + if (r.q.toList.getD i none).isSome then 2 ^ i else 0) 0))
  | 0x009 => if s.ostler k then some (match (s.core k).serving with | some x => x.2 | none => 0) else none
  | n => if h : 0x010 ≤ n ∧ n < 0x018 then some r.prog[n - 0x010] else none

/-- CSRR: n → v. -/
def execCsrr (r : BitVec 4) (s : State) : Host.Outcome State Fault Refusal :=
  .next (runWord (.csrr r) r { pops := 1, pushes := 1 }
    (fun w a s =>
      let n := a.headD 0
      match s.csr w.k w.q (n.toNat % 4096) with
      | some v => ok s [v]
      | none => .trap (privilege n 0)) s)

/-- CSRW: v n →. A write to an RO word is ignored (R4). -/
def execCsrw (r : BitVec 4) (s : State) : Host.Outcome State Fault Refusal :=
  .next (runWord (.csrw r) r { pops := 2 }
    (fun w a s =>
      let v := a.headD 0
      let n := a.getD 1 0
      match n.toNat % 4096 with
      | 0x001 => ok (s.modRegs w.k fun g => g.clearFlags (v.setWidth 32 &&& fAll)) []
      | 0x005 => ok (s.modRegs w.k fun g => { g with bufa := v }) []
      | 0x006 => ok (s.modRegs w.k fun g => { g with bufb := v }) []
      | m => if (s.csr w.k w.q m).isSome then ok s [] else .trap (privilege n 0)) s)

/-- A word that takes effect and then traps, recording its own PC; resumption is at the next word (R179). (DEDUCED, log entry 24.) -/
def thenTrap (w : Wd) (t : TrapInfo) : Wd → List W64 → State → Res := fun _ _ s =>
  .done s [] { after := fun s => s.takeTrapAt w.k w.q t w.pc (s.seq w.k w.q).pc }

/-- BRK: cause 0x11, kind breakpoint. (DEDUCED, log entry 24.) -/
def execBrk (r : BitVec 4) (s : State) : Host.Outcome State Fault Refusal :=
  .next (runWord (.brk r) r {} (fun w a s => thenTrap w { code := 0x11, kind := 2 } w a s) s)

/-- TRAP r: cause 0x05, r in ADDR. -/
def execTrap (r : BitVec 4) (s : State) : Host.Outcome State Fault Refusal :=
  .next (runWord (.trap r) r { rbits := 15 }
    (fun w a s => thenTrap w { code := 0x05, addr := r.setWidth 64 } w a s) s)

/-- PROG r (R339). -/
def execProg (r : BitVec 4) (s : State) : Host.Outcome State Fault Refusal :=
  .next (runWord (.prog r) r { rbits := 7 }
    (fun w _ s => ok (s.modRegs w.k fun g => { g with prog := vput g.prog (r8 r) (g.prog[(r8 r).val] + 1) }) []) s)

/-- CLOCK: the module timer (R22). -/
def execClock (r : BitVec 4) (s : State) : Host.Outcome State Fault Refusal :=
  .next (runWord (.clock r) r { pushes := 1 } (body0 fun _ s => BitVec.ofNat 64 s.now) s)

end Sys2Proof.Machine
end

