-- ==== Sys2Proof/Machine/Vector.lean ====
section
/-! DEFINITION. The V-format words (R156, R262 to R269): lane arithmetic, the fixed procedures, conversions, and MX and
sparsity rows. -/

namespace Sys2Proof.Machine

/-! ### Fixed procedures (R266) -/

/-- a − b in FP32, RNE. -/
def subFp32 (a b : BitVec 32) : BitVec 32 := rneFp32 ((fp32Num a).add (fp32Num b).negate 0)

/-- The integer square root, of `bits` bits. -/
def isqrt (bits n r : Nat) : Nat :=
  match bits with
  | 0 => r
  | b + 1 => isqrt b n (if (r + 2 ^ b) * (r + 2 ^ b) ≤ n then r + 2 ^ b else r)

/-- RNE_FP32(256 / (257 + 2j)): the seed of RCP; no tie can occur. -/
def rcpSeed (j : Nat) : BitVec 32 :=
  let d := 257 + 2 * j
  let q := 2 ^ 32 / d
  let q := if d < 2 * (2 ^ 32 % d) then q + 1 else q
  rneFp32 (.fin false q (-24))

/-- RNE_FP32(1 / sqrt(1 + (j + 0.5) / 32)), which is sqrt(64 / (65 + 2j)): the seed of RSQ; no tie can occur. -/
def rsqSeed (j : Nat) : BitVec 32 :=
  let d := 65 + 2 * j
  let q := isqrt 25 (2 ^ 54 / d) 0
  let q := if (2 * q + 1) * (2 * q + 1) * d < 2 ^ 56 then q + 1 else q
  rneFp32 (.fin false q (-24))

/-- The FP32 infinity of a sign. -/
def infFp32 (neg : Bool) : BitVec 32 := if neg then 0xFF800000#32 else 0x7F800000#32
/-- The FP32 zero of a sign. -/
def zeroFp32 (neg : Bool) : BitVec 32 := if neg then 0x80000000#32 else 0#32
/-- The canonical NaN of FP32. -/
def nanFp32 : BitVec 32 := 0x7FC00000#32

/-- RCP. -/
def rcpFp32 (x : BitVec 32) : BitVec 32 :=
  match fp32Num x with
  | .nan => nanFp32
  | .inf n => zeroFp32 n
  | .fin n m e =>
    if m = 0 then infFp32 n
    else
      let bl := Nat.log2 m
      let j := (m - 2 ^ bl) * 128 / 2 ^ bl
      let mm := rneFp32 (.fin false m (-(bl : Int)))
      let one := fun y => mulFp32 y (subFp32 0x40000000#32 (mulFp32 mm y))
      let y := fp32Num (one (one (rcpSeed j)))
      rneFp32 ((if n then y.negate else y).scale (-(e + bl)))

/-- RSQ. -/
def rsqFp32 (x : BitVec 32) : BitVec 32 :=
  match fp32Num x with
  | .nan => nanFp32
  | .inf n => if n then nanFp32 else 0#32
  | .fin n m e =>
    if m = 0 then infFp32 n
    else if n then nanFp32
    else
      let bl := Nat.log2 m
      let ee := e + bl
      let odd := ee % 2 == 1
      let m2 := if odd then 2 * m else m
      let ee := if odd then ee - 1 else ee
      let j := (m2 - 2 ^ bl) * 32 / 2 ^ bl
      let mm := rneFp32 (.fin false m2 (-(bl : Int)))
      let one := fun y =>
        mulFp32 y (subFp32 0x3FC00000#32 (mulFp32 0x3F000000#32 (mulFp32 mm (mulFp32 y y))))
      rneFp32 ((fp32Num (one (one (rsqSeed j)))).scale (-(ee / 2)))

/-- c[0] to c[6] of EXP2, highest first, after c[7]: RNE_FP32((ln 2)^i / i!). -/
def exp2Coef : List (BitVec 32) :=
  [0x39218489#32, 0x3AAEC3FF#32, 0x3C1D955B#32, 0x3D635847#32, 0x3E75FDF0#32, 0x3F317218#32, 0x3F800000#32]

/-- EXP2. (DEDUCED, log entry 47.) -/
def exp2Fp32 (x : BitVec 32) : BitVec 32 :=
  match fp32Num x with
  | .nan => nanFp32
  | .inf n => if n then 0#32 else infFp32 false
  | .fin n m e =>
    let v := Num.fin n m e
    if !v.lt (.fin false 128 0) then infFp32 false
    else if v.lt (.fin true 150 0) then 0#32
    else
      let k := roundInt n m e 3
      let f := v.add (Num.ofInt (-k)) 0
      let p := exp2Coef.foldl (fun p c => addFp32 (rneFp32 ((fp32Num p).mul f)) c) 0x377FE5FE#32
      rneFp32 ((fp32Num p).scale k)

/-- q[4] to q[0] of LOG2, after q[5]: RNE_FP32(2 / ((2i + 1) · ln 2)). -/
def log2Coef : List (BitVec 32) := [0x3EA4258A#32, 0x3ED30BB1#32, 0x3F13BB63#32, 0x3F76384F#32, 0x4038AA3B#32]

/-- LOG2. -/
def log2Fp32 (x : BitVec 32) : BitVec 32 :=
  match fp32Num x with
  | .nan => nanFp32
  | .inf n => if n then nanFp32 else infFp32 false
  | .fin n m e =>
    if m = 0 then infFp32 true
    else if n then nanFp32
    else
      let bl := Nat.log2 m
      let mv := Num.fin false m (-(bl : Int))
      let big := (fp32Num 0x3FB504F3#32).lt mv
      let mc := rneFp32 (if big then mv.scale (-1) else mv)
      let ee : Int := if big then e + bl + 1 else e + bl
      let z := mulFp32 (subFp32 mc 0x3F800000#32) (rcpFp32 (addFp32 mc 0x3F800000#32))
      let w := mulFp32 z z
      let p := log2Coef.foldl (fun p c => addFp32 (mulFp32 p w) c) 0x3E864D42#32
      rneFp32 ((fp32Num (mulFp32 z p)).add (Num.ofInt ee) 0)

/-! ### Lane operations (R264) -/

/-- The prefix values of a lane operation, and its format. -/
structure Lane where
  /-- Format. -/
  f : Nat
  /-- Rounding mode. -/
  rnd : BitVec 2
  /-- SAT bits. -/
  sat : BitVec 2

/-- Bits of a lane. -/
def Lane.bits (l : Lane) : Nat := elemBits l.f
/-- A lane's value. -/
def Lane.num (l : Lane) (c : Nat) : Num := elemNum l.f c
/-- A result rounded, clamped or wrapped (R82, R89). -/
def Lane.enc (l : Lane) (x : Num) : Nat := toElem x l.f l.rnd l.sat
/-- All bits of a lane. -/
def Lane.ones (l : Lane) : Nat := 2 ^ l.bits - 1
/-- The canonical NaN of the lane's format. -/
def Lane.nan (l : Lane) : Nat := toElem .nan l.f 0 0

/-- The lesser (or greater) of two lanes: NaN gives canonical NaN, and zeros are ordered by sign. -/
def Lane.pickMin (l : Lane) (greater : Bool) (a b : Nat) : Nat :=
  let x := l.num a
  let y := l.num b
  if x = .nan ∨ y = .nan then l.nan
  else if x.isZero && y.isZero then (if x.neg? != greater then a else b)
  else if x.lt y != greater then a else if y.lt x != greater then b else a

/-- |a| and −a: a float changes its sign bit only. -/
def Lane.sign (l : Lane) (negate : Bool) (a : Nat) : Nat :=
  let x := l.num a
  let top := 2 ^ (l.bits - 1)
  if (floatOf l.f).isSome then
    (if x = .nan then l.nan else if a < top then (if negate then a + top else a) else a - top)
  else l.enc (if negate then x.negate else x.abs)

/-- A mask lane. -/
def Lane.mask (l : Lane) (b : Bool) : Nat := if b then l.ones else 0

/-- The tree of VSUMR and VMAXR: each level combines neighbours; `fuel` is the number of levels. -/
def treeFold (fuel : Nat) (f : Nat → Nat → Nat) (cs : List Nat) : Nat :=
  match fuel with
  | 0 => cs.headD 0
  | fuel + 1 =>
    let rec level (l : List Nat) : List Nat :=
      match l with
      | a :: b :: t => f a b :: level t
      | l => l
    treeFold fuel f (level cs)

/-- Float and integer formats. -/
def fmtArith : List Nat := [0, 1, 2, 11, 12, 13]
/-- Float formats. -/
def fmtFloat : List Nat := [0, 1, 2]
/-- Every format a port can be bound to. -/
def fmtAny : List Nat := List.range 15

/-! ### The frame of a V-format word -/

/-- A source row read in format f: its bytes, with PUNB or WFMT (R35, R162). -/
def Ctx.vsrc (x : Ctx) (p : BitVec 3) (f : Nat) : List Byte × BitVec 32 :=
  let b := x.regs.port[p.toNat]
  let (bs, fl) := x.portBytes b
  (bs, fl ||| flagIf (b.mode != 0 && b.fmt.toNat != f) fWFMT)

/-- A source row read in a format of its own (R260). (DEDUCED, log entry 33.) -/
def Ctx.vown (x : Ctx) (p : BitVec 3) : List Byte × BitVec 32 := x.portBytes x.regs.port[p.toNat]

/-- A port number as an index. -/
def portIx (p : BitVec 3) : Fin 8 := ⟨p.toNat, p.isLt⟩

/-- A V-format word of a latency: `f` gives the destination row and sticky bits from the context and the prefixes. -/
def vword (i : Instr) (d : BitVec 3) (acc : Accept) (lat : Nat) (f : Ctx → Px → List Byte × BitVec 32) (s : State) :
    Host.Outcome State Fault Refusal :=
  .next (runWord i 0 { on := [.v], acc := { acc with event := true } }
    (fun w _ s =>
      let x := s.ctx w.k
      let b := x.regs.port[d.toNat]
      let (row, flags) := f x w.px
      if !b.writes then .done s [] { flags := flags ||| fPUNB }
      else .done (s.fly w.k (landing (portIx d) b lat 0 row 0xFF false w.fin)) [] { flags := flags, deferred := true }) s)

/-- The format of port d's binding, with the fallback of R162. -/
def Ctx.vfmt (x : Ctx) (d : BitVec 3) (accepted : List Nat) : Nat × BitVec 32 :=
  fmtOr accepted x.regs.port[d.toNat].fmt.toNat

/-- No prefix beyond those of every V-format word. -/
def accNone : Accept := {}
/-- ROUND and SAT. -/
def accRound : Accept := { round := true, sat := true }
/-- SAT alone. -/
def accSat : Accept := { sat := true }

/-- A word of one source: lane codes to lane codes. -/
def vword1 (i : Instr) (d a : BitVec 3) (acc : Accept) (lat : Nat) (accepted : List Nat) (g : Lane → List Nat → List Nat)
    (s : State) : Host.Outcome State Fault Refusal :=
  vword i d acc lat (fun x px =>
    let (f, fl) := x.vfmt d accepted
    let (ra, fa) := x.vsrc a f
    (laneRow f (g { f := f, rnd := px.rnd, sat := px.sat } (rowLanes f ra)), fl ||| fa)) s

/-- A word of two sources. -/
def vword2 (i : Instr) (d a b : BitVec 3) (acc : Accept) (lat : Nat) (accepted : List Nat)
    (g : Lane → List Nat → List Nat → List Nat) (s : State) : Host.Outcome State Fault Refusal :=
  vword i d acc lat (fun x px =>
    let (f, fl) := x.vfmt d accepted
    let (ra, fa) := x.vsrc a f
    let (rb, fb) := x.vsrc b f
    (laneRow f (g { f := f, rnd := px.rnd, sat := px.sat } (rowLanes f ra) (rowLanes f rb)), fl ||| fa ||| fb)) s

/-- A word of two sources, lane by lane. -/
def vlanes2 (i : Instr) (d a b : BitVec 3) (acc : Accept) (lat : Nat) (accepted : List Nat) (g : Lane → Nat → Nat → Nat)
    (s : State) : Host.Outcome State Fault Refusal :=
  vword2 i d a b acc lat accepted (fun l ca cb => List.zipWith (g l) ca cb) s

/-- A word of two sources and the old d row, read through a port in update mode. -/
def vlanes3 (i : Instr) (d a b : BitVec 3) (acc : Accept) (lat : Nat) (accepted : List Nat)
    (g : Lane → Nat → Nat → Nat → Nat) (s : State) : Host.Outcome State Fault Refusal :=
  vword i d acc lat (fun x px =>
    let (f, fl) := x.vfmt d accepted
    let (ra, fa) := x.vsrc a f
    let (rb, fb) := x.vsrc b f
    let (rd, fd) := x.vown d
    let l : Lane := { f := f, rnd := px.rnd, sat := px.sat }
    let cs := List.zipWith (fun p c => g l p.1 p.2 c) ((rowLanes f ra).zip (rowLanes f rb)) (rowLanes f rd)
    (laneRow f cs, fl ||| fa ||| fb ||| fd)) s

/-- A bitwise word over the 128 bytes. -/
def vbits (i : Instr) (d a b : BitVec 3) (g : Byte → Byte → Byte) (s : State) : Host.Outcome State Fault Refusal :=
  vword i d accNone 3 (fun x _ =>
    let (f, fl) := x.vfmt d fmtAny
    let (ra, fa) := x.vsrc a f
    let (rb, fb) := x.vsrc b f
    (List.zipWith g ra rb, fl ||| fa ||| fb)) s

/-- VMOV. -/
def execVmov (d a b : BitVec 3) (s : State) : Host.Outcome State Fault Refusal :=
  vword (.vmov d a b) d accNone 2 (fun x _ =>
    let (f, fl) := x.vfmt d fmtAny
    let (ra, fa) := x.vsrc a f
    (ra, fl ||| fa)) s
/-- VADD. -/
def execVadd (d a b : BitVec 3) (s : State) : Host.Outcome State Fault Refusal :=
  vlanes2 (.vadd d a b) d a b accRound 3 fmtArith (fun l x y => l.enc ((l.num x).add (l.num y) l.rnd)) s
/-- VSUB. -/
def execVsub (d a b : BitVec 3) (s : State) : Host.Outcome State Fault Refusal :=
  vlanes2 (.vsub d a b) d a b accRound 3 fmtArith (fun l x y => l.enc ((l.num x).add (l.num y).negate l.rnd)) s
/-- VMUL. -/
def execVmul (d a b : BitVec 3) (s : State) : Host.Outcome State Fault Refusal :=
  vlanes2 (.vmul d a b) d a b accRound 4 fmtArith (fun l x y => l.enc ((l.num x).mul (l.num y))) s
/-- VFMA: rounded once. -/
def execVfma (d a b : BitVec 3) (s : State) : Host.Outcome State Fault Refusal :=
  vlanes3 (.vfma d a b) d a b accRound 5 fmtArith
    (fun l x y z => l.enc (((l.num x).mul (l.num y)).add (l.num z) l.rnd)) s
/-- VMIN. -/
def execVmin (d a b : BitVec 3) (s : State) : Host.Outcome State Fault Refusal :=
  vlanes2 (.vmin d a b) d a b accNone 3 fmtArith (fun l => l.pickMin false) s
/-- VMAX. -/
def execVmax (d a b : BitVec 3) (s : State) : Host.Outcome State Fault Refusal :=
  vlanes2 (.vmax d a b) d a b accNone 3 fmtArith (fun l => l.pickMin true) s
/-- VABS. -/
def execVabs (d a b : BitVec 3) (s : State) : Host.Outcome State Fault Refusal :=
  vword1 (.vabs d a b) d a accSat 3 fmtArith (fun l => List.map (l.sign false)) s
/-- VNEG. -/
def execVneg (d a b : BitVec 3) (s : State) : Host.Outcome State Fault Refusal :=
  vword1 (.vneg d a b) d a accSat 3 fmtArith (fun l => List.map (l.sign true)) s
/-- VAND. -/
def execVand (d a b : BitVec 3) (s : State) : Host.Outcome State Fault Refusal := vbits (.vand d a b) d a b (· &&& ·) s
/-- VOR. -/
def execVor (d a b : BitVec 3) (s : State) : Host.Outcome State Fault Refusal := vbits (.vor d a b) d a b (· ||| ·) s
/-- VXOR. -/
def execVxor (d a b : BitVec 3) (s : State) : Host.Outcome State Fault Refusal := vbits (.vxor d a b) d a b (· ^^^ ·) s
/-- VSHL. -/
def execVshl (d a b : BitVec 3) (s : State) : Host.Outcome State Fault Refusal :=
  vlanes2 (.vshl d a b) d a b accNone 3 fmtScalar (fun l x y => x * 2 ^ (y % l.bits) % 2 ^ l.bits) s
/-- VSHR. -/
def execVshr (d a b : BitVec 3) (s : State) : Host.Outcome State Fault Refusal :=
  vlanes2 (.vshr d a b) d a b accNone 3 fmtScalar (fun l x y => x / 2 ^ (y % l.bits)) s
/-- VSAR. -/
def execVsar (d a b : BitVec 3) (s : State) : Host.Outcome State Fault Refusal :=
  vlanes2 (.vsar d a b) d a b accNone 3 fmtScalar
    (fun l x y => ((BitVec.ofNat l.bits x).sshiftRight (y % l.bits)).toNat) s
/-- VCLT. -/
def execVclt (d a b : BitVec 3) (s : State) : Host.Outcome State Fault Refusal :=
  vlanes2 (.vclt d a b) d a b accNone 3 fmtArith (fun l x y => l.mask ((l.num x).lt (l.num y))) s
/-- VCEQ. -/
def execVceq (d a b : BitVec 3) (s : State) : Host.Outcome State Fault Refusal :=
  vlanes2 (.vceq d a b) d a b accNone 3 fmtArith (fun l x y => l.mask ((l.num x).eq (l.num y))) s
/-- VSEL. -/
def execVsel (d a b : BitVec 3) (s : State) : Host.Outcome State Fault Refusal :=
  vlanes3 (.vsel d a b) d a b accNone 3 fmtScalar (fun _ x y z => if z = 0 then y else x) s
/-- VSUMR. -/
def execVsumr (d a b : BitVec 3) (s : State) : Host.Outcome State Fault Refusal :=
  vword1 (.vsumr d a b) d a accRound 8 fmtArith
    (fun l cs => treeFold 7 (fun x y => l.enc ((l.num x).add (l.num y) l.rnd)) cs :: List.replicate (cs.length - 1) 0) s
/-- VMAXR. -/
def execVmaxr (d a b : BitVec 3) (s : State) : Host.Outcome State Fault Refusal :=
  vword1 (.vmaxr d a b) d a accNone 8 fmtArith
    (fun l cs => treeFold 7 (l.pickMin true) cs :: List.replicate (cs.length - 1) 0) s
/-- VBCAST. -/
def execVbcast (d a b : BitVec 3) (s : State) : Host.Outcome State Fault Refusal :=
  vword2 (.vbcast d a b) d a b accNone 3 fmtScalar
    (fun _ ca cb => ca.map fun _ => ca.getD (cb.headD 0 % ca.length) 0) s
/-- VSHUF. -/
def execVshuf (d a b : BitVec 3) (s : State) : Host.Outcome State Fault Refusal :=
  vword2 (.vshuf d a b) d a b accNone 3 fmtScalar (fun _ ca cb => cb.map fun j => ca.getD j 0) s
/-- VSCALE: b's lanes are signed integers, whatever its binding. -/
def execVscale (d a b : BitVec 3) (s : State) : Host.Outcome State Fault Refusal :=
  vword (.vscale d a b) d accRound 3 (fun x px =>
    let (f, fl) := x.vfmt d fmtFloat
    let (ra, fa) := x.vsrc a f
    let (rb, fb) := x.vown b
    let l : Lane := { f := f, rnd := px.rnd, sat := px.sat }
    let cs := List.zipWith (fun c n => l.enc ((l.num c).scale (sintOf l.bits n))) (rowLanes f ra) (rowLanes f rb)
    (laneRow f cs, fl ||| fa ||| fb)) s
/-- VCLR. -/
def execVclr (d a b : BitVec 3) (s : State) : Host.Outcome State Fault Refusal :=
  vword (.vclr d a b) d accNone 1 (fun x _ => (List.replicate 128 0, (x.vfmt d fmtAny).2)) s

/-! ### Fixed procedures and conversion (R265, R266) -/

/-- A fixed procedure: the lane is widened to FP32, and its result rounded to d's format. -/
def vproc (i : Instr) (d a : BitVec 3) (lat : Nat) (g : BitVec 32 → BitVec 32) (s : State) :
    Host.Outcome State Fault Refusal :=
  vword1 i d a accRound lat fmtFloat (fun l => List.map fun c => l.enc (fp32Num (g (rneFp32 (l.num c))))) s

/-- VEXP2. -/
def execVexp2 (d a b : BitVec 3) (s : State) : Host.Outcome State Fault Refusal := vproc (.vexp2 d a b) d a 14 exp2Fp32 s
/-- VLOG2. -/
def execVlog2 (d a b : BitVec 3) (s : State) : Host.Outcome State Fault Refusal := vproc (.vlog2 d a b) d a 14 log2Fp32 s
/-- VRCP. -/
def execVrcp (d a b : BitVec 3) (s : State) : Host.Outcome State Fault Refusal := vproc (.vrcp d a b) d a 12 rcpFp32 s
/-- VRSQ. -/
def execVrsq (d a b : BitVec 3) (s : State) : Host.Outcome State Fault Refusal := vproc (.vrsq d a b) d a 12 rsqFp32 s

/-- A ternary row is read with code 0b10 in it (R76). -/
def tern10 (code : Nat) (cs : List Nat) : BitVec 32 := flagIf (code == 14 && cs.contains 2) fTERN10

/-- VCVT. -/
def execVcvt (d a b : BitVec 3) (s : State) : Host.Outcome State Fault Refusal :=
  vword (.vcvt d a b) d { accRound with fmt := true } 3 (fun x px =>
    let src := match px.fmt with | some p => p.1 | none => x.regs.port[a.toNat].fmt.toNat
    let dst := match px.fmt with | some p => p.2 | none => x.regs.port[d.toNat].fmt.toNat
    let (fs, w1) := fmtOr fmtLane src
    let (fd, w2) := fmtOr fmtLane dst
    let (ra, fa) := x.vown a
    let (rb, fb) := x.vown b
    let n := lanesOf fd
    let cs := ((rowLanes fs ra) ++ (rowLanes fs rb)).take n
    let out := cs.map fun c => convElem c fs fd px.rnd px.sat
    (laneRow fd (out ++ List.replicate (n - out.length) 0), w1 ||| w2 ||| fa ||| fb ||| tern10 fs cs)) s

/-! ### MX and sparsity rows (R267 to R269) -/

/-- An MX format from an FMT prefix's first format, else the bound one; an unaccepted code sets WFMT. -/
def mxOr (px : Px) (bound : Nat) : Nat × BitVec 32 :=
  match px.fmt with
  | some p => if isMx p.1 then (p.1, 0) else (bound, flagIf (p.1 != 0) fWFMT)
  | none => (bound, 0)

/-- An MX row of two blocks: codes and scale of each (R261). -/
def mxRow (code : Nat) (c0 : List Nat) (s0 : Nat) (c1 : List Nat) (s1 : Nat) : List Byte :=
  let bb := 4 * elemBits code
  packElems (elemBits code) c0 bb ++ packElems (elemBits code) c1 bb ++ List.replicate (126 - 2 * bb) 0
    ++ [BitVec.ofNat 8 s0, BitVec.ofNat 8 s1]

/-- VQMX. -/
def execVqmx (d a b : BitVec 3) (s : State) : Host.Outcome State Fault Refusal :=
  vword (.vqmx d a b) d { accNone with fmt := true } 6 (fun x px =>
    let (f, w1) := mxOr px x.regs.port[d.toNat].fmt.toNat
    let (ra, fa) := x.vown a
    if isMx f then
      let (rb, fb) := x.vown b
      let q := fun r : List Byte => mxq ((rowLanes 0 r).map fun c => decodeFloat fp32 c) f
      let (s0, c0, i0) := q ra
      let (s1, c1, i1) := q rb
      (mxRow f c0 s0 c1 s1, w1 ||| fa ||| fb ||| flagIf (i0 || i1) fMXINF)
    else (ra, w1 ||| fa ||| fWFMT)) s

/-- VDQMX. -/
def execVdqmx (d a b : BitVec 3) (s : State) : Host.Outcome State Fault Refusal :=
  vword (.vdqmx d a b) d { accRound with fmt := true } 4 (fun x px =>
    let (f, w1) := mxOr px x.regs.port[a.toNat].fmt.toNat
    let (f, w2) := if isMx f then (f, (0 : BitVec 32)) else (5, fWFMT)
    let (fd, w3) := x.vfmt d fmtFloat
    let (ra, fa) := x.vown a
    let bb := 4 * elemBits f
    let blk := fun (j : Nat) =>
      (unpackElems (elemBits f) ((ra.drop (j * bb)).take bb) 32).map fun c =>
        toElem (mxdq f (leAt ra (126 + j) 1) c) fd (if fd = 0 then 0 else px.rnd) px.sat
    (laneRow fd (if fd = 0 then blk 0 else blk 0 ++ blk 1), w1 ||| w2 ||| w3 ||| fa)) s

/-- The 2:4 codes of a row's 64 groups. -/
def pack24 (bs : List Byte) : List Nat :=
  (List.range 64).map fun j => leAt bs (2 * j) 1 % 4 + 4 * (leAt bs (2 * j + 1) 1 % 4)

/-- VPK24. -/
def execVpk24 (d a b : BitVec 3) (s : State) : Host.Outcome State Fault Refusal :=
  vword (.vpk24 d a b) d accNone 2 (fun x _ =>
    let fl := (x.vfmt d fmtAny).2
    let (ra, fa) := x.vown a
    let (rb, fb) := x.vown b
    (packElems 4 (pack24 ra) 32 ++ packElems 4 (pack24 rb) 32 ++ List.replicate 64 0, fl ||| fa ||| fb)) s

end Sys2Proof.Machine
end

