-- ==== Sys2Proof/Machine/Reissue.lean ====
section
/-! DEFINITION. Blocked words: a word that waits is issued again in each cycle of its sequencer, and completes in the cycle in which
what it waits for is true (R70). -/

namespace Sys2Proof.Machine

/-- Issue a word of the table again; no operation or event is ever held. -/
def reissue (i : Instr) (s : State) : Host.Outcome State Fault Refusal :=
  match i with
  | .lit i => execLit i s
  | .ext i => execExt i s
  | .undefinedWord w => execUndefinedWord w s
  | .scope p => execScope p s
  | .token p => execToken p s
  | .ifp p => execIfp p s
  | .fmt p => execFmt p s
  | .sparse p => execSparse p s
  | .waitmax p => execWaitmax p s
  | .round p => execRound p s
  | .sat p => execSat p s
  | .event p => execEvent p s
  | .nop r => execNop r s
  | .dup r => execDup r s
  | .drop r => execDrop r s
  | .swap r => execSwap r s
  | .over r => execOver r s
  | .rot r => execRot r s
  | .pick r => execPick r s
  | .depth r => execDepth r s
  | .get r => execGet r s
  | .put r => execPut r s
  | .getc r => execGetc r s
  | .putc r => execPutc r s
  | .prep r => execPrep r s
  | .br r => execBr r s
  | .brn r => execBrn r s
  | .call r => execCall r s
  | .ret r => execRet r s
  | .loop r => execLoop r s
  | .setn r => execSetn r s
  | .getn r => execGetn r s
  | .add r => execAdd r s
  | .sub r => execSub r s
  | .mul r => execMul r s
  | .mulh r => execMulh r s
  | .mulhu r => execMulhu r s
  | .div r => execDiv r s
  | .divu r => execDivu r s
  | .rem r => execRem r s
  | .remu r => execRemu r s
  | .and r => execAnd r s
  | .or r => execOr r s
  | .xor r => execXor r s
  | .not r => execNot r s
  | .neg r => execNeg r s
  | .shl r => execShl r s
  | .shr r => execShr r s
  | .sar r => execSar r s
  | .min r => execMin r s
  | .max r => execMax r s
  | .minu r => execMinu r s
  | .maxu r => execMaxu r s
  | .clz r => execClz r s
  | .popc r => execPopc r s
  | .addi r => execAddi r s
  | .shli r => execShli r s
  | .shri r => execShri r s
  | .sext r => execSext r s
  | .zext r => execZext r s
  | .ceq r => execCeq r s
  | .cne r => execCne r s
  | .clt r => execClt r s
  | .cltu r => execCltu r s
  | .cle r => execCle r s
  | .cleu r => execCleu r s
  | .pand r => execPand r s
  | .por r => execPor r s
  | .pnot r => execPnot r s
  | .sel r => execSel r s
  | .lea r => execLea r s
  | .csrr r => execCsrr r s
  | .csrw r => execCsrw r s
  | .tbset r => execTbset r s
  | .tbget r => execTbget r s
  | .brk r => execBrk r s
  | .ld r => execLd r s
  | .st r => execSt r s
  | .ldx r => execLdx r s
  | .stx r => execStx r s
  | .qmark r => execQmark r s
  | .fence r => execFence r s
  | .aadd r => execAadd r s
  | .axchg r => execAxchg r s
  | .acas r => execAcas r s
  | .amin r => execAmin r s
  | .amax r => execAmax r s
  | .aminu r => execAminu r s
  | .amaxu r => execAmaxu r s
  | .aand r => execAand r s
  | .aor r => execAor r s
  | .axor r => execAxor r s
  | .afadd r => execAfadd r s
  | .mwait r => execMwait r s
  | .sigpost r => execSigpost r s
  | .sigwait r => execSigwait r s
  | .sigset r => execSigset r s
  | .qpush r => execQpush r s
  | .qpop r => execQpop r s
  | .qtry r => execQtry r s
  | .qbind r => execQbind r s
  | .evbind r => execEvbind r s
  | .barg r => execBarg r s
  | .pgshare r => execPgshare r s
  | .pgdrop r => execPgdrop r s
  | .pgrefs r => execPgrefs r s
  | .wpset r => execWpset r s
  | .wpclr r => execWpclr r s
  | .farerd r => execFarerd r s
  | .faretop r => execFaretop r s
  | .station r => execStation r s
  | .yield r => execYield r s
  | .spawn r => execSpawn r s
  | .depdec r => execDepdec r s
  | .fork r => execFork r s
  | .rvz r => execRvz r s
  | .halt r => execHalt r s
  | .flip r => execFlip r s
  | .phase r => execPhase r s
  | .segchk r => execSegchk r s
  | .trap r => execTrap r s
  | .eret r => execEret r s
  | .prog r => execProg r s
  | .clock r => execClock r s
  | .mset r => execMset r s
  | .mloadb r => execMloadb r s
  | .mloadt r => execMloadt r s
  | .mrun r => execMrun r s
  | .mgather r => execMgather r s
  | .mdrain r => execMdrain r s
  | .mzero r => execMzero r s
  | .mreada r => execMreada r s
  | .mpatch r => execMpatch r s
  | .mwaitc r => execMwaitc r s
  | .mstat r => execMstat r s
  | .dset r => execDset r s
  | .dcopy r => execDcopy r s
  | .dqapp r => execDqapp r s
  | .gatherr r => execGatherr r s
  | .scatterw r => execScatterw r s
  | .scatadd r => execScatadd r s
  | .fold r => execFold r s
  | .foldwait r => execFoldwait r s
  | .chkick r => execChkick r s
  | .chlink r => execChlink r s
  | .chstat r => execChstat r s
  | .dwait r => execDwait r s
  | .mcast r => execMcast r s
  | .dstat r => execDstat r s
  | .dcsum r => execDcsum r s
  | .pbind r => execPbind r s
  | .pstep r => execPstep r s
  | .pread r => execPread r s
  | .tld r => execTld r s
  | .tst r => execTst r s
  | .tfree r => execTfree r s
  | .tfill r => execTfill r s
  | .twaitf r => execTwaitf r s
  | .fopen r => execFopen r s
  | .fadv r => execFadv r s
  | .fseek r => execFseek r s
  | .fend r => execFend r s
  | .fcrd r => execFcrd r s
  | .fval r => execFval r s
  | .frow r => execFrow r s
  | .fmatch r => execFmatch r s
  | .fclose r => execFclose r s
  | .vsplat r => execVsplat r s
  | .vlane r => execVlane r s
  | .vputl r => execVputl r s
  | .vwait r => execVwait r s
  | .mgopen r => execMgopen r s
  | .mgput r => execMgput r s
  | .mgrow r => execMgrow r s
  | .mgend r => execMgend r s
  | .mgclose r => execMgclose r s
  | .mgstat r => execMgstat r s
  | .mgspill r => execMgspill r s
  | .mgexpand r => execMgexpand r s
  | .trcw r => execTrcw r s
  | .scrub r => execScrub r s
  | .poisonq r => execPoisonq r s
  | .wpstat r => execWpstat r s
  | .csum r => execCsum r s
  | .hret r => execHret r s
  | .icsync r => execIcsync r s
  | .trial r => execTrial r s
  | .vmov d a b => execVmov d a b s
  | .vadd d a b => execVadd d a b s
  | .vsub d a b => execVsub d a b s
  | .vmul d a b => execVmul d a b s
  | .vfma d a b => execVfma d a b s
  | .vmin d a b => execVmin d a b s
  | .vmax d a b => execVmax d a b s
  | .vabs d a b => execVabs d a b s
  | .vneg d a b => execVneg d a b s
  | .vand d a b => execVand d a b s
  | .vor d a b => execVor d a b s
  | .vxor d a b => execVxor d a b s
  | .vshl d a b => execVshl d a b s
  | .vshr d a b => execVshr d a b s
  | .vsar d a b => execVsar d a b s
  | .vclt d a b => execVclt d a b s
  | .vceq d a b => execVceq d a b s
  | .vsel d a b => execVsel d a b s
  | .vcvt d a b => execVcvt d a b s
  | .vexp2 d a b => execVexp2 d a b s
  | .vlog2 d a b => execVlog2 d a b s
  | .vrcp d a b => execVrcp d a b s
  | .vrsq d a b => execVrsq d a b s
  | .vsumr d a b => execVsumr d a b s
  | .vmaxr d a b => execVmaxr d a b s
  | .vbcast d a b => execVbcast d a b s
  | .vshuf d a b => execVshuf d a b s
  | .vscale d a b => execVscale d a b s
  | .vqmx d a b => execVqmx d a b s
  | .vdqmx d a b => execVdqmx d a b s
  | .vpk24 d a b => execVpk24 d a b s
  | .vclr d a b => execVclr d a b s
  | .clearEngine => .next s
  | .dispatchStep => .next s
  | .gangReservation => .next s
  | .gangUnplaceableReport => .next s
  | .launchEnd => .next s
  | .waitCompletion => .next s
  | .waitBoundExpiry => .next s
  | .watchdogExpiry => .next s
  | .blockedCycleCharge => .next s
  | .hardPreemption => .next s
  | .topupRetry => .next s
  | .faretopPolicyGrant => .next s
  | .saveCopyOut => .next s
  | .resumeRestore => .next s
  | .clockStepRequest => .next s
  | .clockStop => .next s
  | .clockRestart => .next s
  | .powerMeasurement => .next s
  | .bankDrainEnd => .next s
  | .fifoOverflowService => .next s
  | .loadPerform => .next s
  | .storePerform => .next s
  | .multicastLanding => .next s
  | .cowService => .next s
  | .sramRailLow => .next s
  | .sramRailRecover => .next s
  | .bankScrub => .next s
  | .registerScrub => .next s
  | .vResultLanding => .next s
  | .tileMoveComplete => .next s
  | .packetParse => .next s
  | .nopPacket => .next s
  | .copy => .next s
  | .fencePacket => .next s
  | .signalPacket => .next s
  | .spawnPacket => .next s
  | .reduce => .next s
  | .gatherPacket => .next s
  | .parserStallTimeout => .next s
  | .fencePacketTimeout => .next s
  | .landingUnit => .next s
  | .packetCompletion => .next s
  | .queueFaultService => .next s
  | .chainEntryStart => .next s
  | .chainEntryComplete => .next s
  | .tCommandComplete => .next s
  | .gatherReply => .next s
  | .foldStart => .next s
  | .foldComplete => .next s
  | .weightBufferExchange => .next s
  | .rowEntry => .next s
  | .rowSlotUpdate => .next s
  | .mCommandComplete => .next s
  | .drainSlot => .next s
  | .watchStop => .next s
  | .impreciseWatchStop => .next s
  | .mangleRecord => .next s
  | .mangleSpill => .next s
  | .hamperService => .next s
  | .mergePass => .next s
  | .finalPass => .next s
  | .trapForward => .next s
  | .deferredFault => .next s
  | .selfTest => .next s
  | .traceSample => .next s
  | .tctlWrite => .next s
  | .trialHold => .next s
  | .lifetimeRecordWrite => .next s
  | .hostApertureRead => .next s
  | .hostApertureWrite => .next s
  | .hostAtomic => .next s
  | .formatWindowWrite => .next s
  | .routeTableWrite => .next s
  | .registerWrite => .next s
  | .requestNone => .next s
  | .resumeNode => .next s
  | .endAbandon => .next s
  | .endComplete => .next s
  | .releaseDump => .next s
  | .creditFare => .next s
  | .softPreempt => .next s
  | .hardPreemptRequest => .next s
  | .setWatchRequest => .next s
  | .openGroup => .next s
  | .closeGroup => .next s
  | .restartQueue => .next s
  | .tlbInvalidation => .next s
  | .l2WritebackInvalidate => .next s
  | .registerArena => .next s
  | .unregisterArena => .next s
  | .unknownRequest => .next s
  | .cxlLinkFail => .next s
  | .flitReceive => .next s
  | .hitchPortLost => .next s
  | .laneSparing => .next s
  | .remoteAccess => .next s
  | .reduceChunk => .next s
  | .collectiveTimeout => .next s
  | .powerOn => .next s
  | .firmwareReplacement => .next s
  | .hotRemoval => .next s
  | .attestationRequest => .next s
  | .spuriousWake => .next s
  | .thermalLimit => .next s
  | .degradedModeSet => .next s
  | .powerLoss => .next s

/-- WAIT_COMPLETION (R70): the blocked word of a sequencer is issued again; it completes where its wait is over, and stays blocked
where it is not. -/
def execWaitCompletion (s : State) : Host.Outcome State Fault Refusal :=
  let k := s.arg.k
  let q := s.arg.q
  match (s.seq k q).held with
  | none => .next s
  | some i =>
    if s.stands k q then .next s
    else
      match reissue i { s with cur := (k, q) } with
      | .next t => .next { t with cur := s.cur }
      | .fault f => .fault f
      | .refused f => .refused f

end Sys2Proof.Machine
end

