-- ==== Sys2Proof/Machine/Dispatch.lean ====
section
/-! DEFINITION. One arm for each instruction of the table. -/

namespace Sys2Proof.Machine

def exec (i : Instr) (s : State) : Host.Outcome State Fault Refusal :=
  match i with
  | .lit imm => Sys2Proof.Machine.execLit imm s
  | .ext imm => Sys2Proof.Machine.execExt imm s
  | .undefinedWord w => Sys2Proof.Machine.execUndefinedWord w s
  | .scope p => Sys2Proof.Machine.execScope p s
  | .token p => Sys2Proof.Machine.execToken p s
  | .ifp p => Sys2Proof.Machine.execIfp p s
  | .fmt p => Sys2Proof.Machine.execFmt p s
  | .sparse p => Sys2Proof.Machine.execSparse p s
  | .waitmax p => Sys2Proof.Machine.execWaitmax p s
  | .round p => Sys2Proof.Machine.execRound p s
  | .sat p => Sys2Proof.Machine.execSat p s
  | .event p => Sys2Proof.Machine.execEvent p s
  | .nop r => Sys2Proof.Machine.execNop r s
  | .dup r => Sys2Proof.Machine.execDup r s
  | .drop r => Sys2Proof.Machine.execDrop r s
  | .swap r => Sys2Proof.Machine.execSwap r s
  | .over r => Sys2Proof.Machine.execOver r s
  | .rot r => Sys2Proof.Machine.execRot r s
  | .pick r => Sys2Proof.Machine.execPick r s
  | .depth r => Sys2Proof.Machine.execDepth r s
  | .get r => Sys2Proof.Machine.execGet r s
  | .put r => Sys2Proof.Machine.execPut r s
  | .getc r => Sys2Proof.Machine.execGetc r s
  | .putc r => Sys2Proof.Machine.execPutc r s
  | .prep r => Sys2Proof.Machine.execPrep r s
  | .br r => Sys2Proof.Machine.execBr r s
  | .brn r => Sys2Proof.Machine.execBrn r s
  | .call r => Sys2Proof.Machine.execCall r s
  | .ret r => Sys2Proof.Machine.execRet r s
  | .loop r => Sys2Proof.Machine.execLoop r s
  | .setn r => Sys2Proof.Machine.execSetn r s
  | .getn r => Sys2Proof.Machine.execGetn r s
  | .add r => Sys2Proof.Machine.execAdd r s
  | .sub r => Sys2Proof.Machine.execSub r s
  | .mul r => Sys2Proof.Machine.execMul r s
  | .mulh r => Sys2Proof.Machine.execMulh r s
  | .mulhu r => Sys2Proof.Machine.execMulhu r s
  | .div r => Sys2Proof.Machine.execDiv r s
  | .divu r => Sys2Proof.Machine.execDivu r s
  | .rem r => Sys2Proof.Machine.execRem r s
  | .remu r => Sys2Proof.Machine.execRemu r s
  | .and r => Sys2Proof.Machine.execAnd r s
  | .or r => Sys2Proof.Machine.execOr r s
  | .xor r => Sys2Proof.Machine.execXor r s
  | .not r => Sys2Proof.Machine.execNot r s
  | .neg r => Sys2Proof.Machine.execNeg r s
  | .shl r => Sys2Proof.Machine.execShl r s
  | .shr r => Sys2Proof.Machine.execShr r s
  | .sar r => Sys2Proof.Machine.execSar r s
  | .min r => Sys2Proof.Machine.execMin r s
  | .max r => Sys2Proof.Machine.execMax r s
  | .minu r => Sys2Proof.Machine.execMinu r s
  | .maxu r => Sys2Proof.Machine.execMaxu r s
  | .clz r => Sys2Proof.Machine.execClz r s
  | .popc r => Sys2Proof.Machine.execPopc r s
  | .addi r => Sys2Proof.Machine.execAddi r s
  | .shli r => Sys2Proof.Machine.execShli r s
  | .shri r => Sys2Proof.Machine.execShri r s
  | .sext r => Sys2Proof.Machine.execSext r s
  | .zext r => Sys2Proof.Machine.execZext r s
  | .ceq r => Sys2Proof.Machine.execCeq r s
  | .cne r => Sys2Proof.Machine.execCne r s
  | .clt r => Sys2Proof.Machine.execClt r s
  | .cltu r => Sys2Proof.Machine.execCltu r s
  | .cle r => Sys2Proof.Machine.execCle r s
  | .cleu r => Sys2Proof.Machine.execCleu r s
  | .pand r => Sys2Proof.Machine.execPand r s
  | .por r => Sys2Proof.Machine.execPor r s
  | .pnot r => Sys2Proof.Machine.execPnot r s
  | .sel r => Sys2Proof.Machine.execSel r s
  | .lea r => Sys2Proof.Machine.execLea r s
  | .csrr r => Sys2Proof.Machine.execCsrr r s
  | .csrw r => Sys2Proof.Machine.execCsrw r s
  | .tbset r => Sys2Proof.Machine.execTbset r s
  | .tbget r => Sys2Proof.Machine.execTbget r s
  | .brk r => Sys2Proof.Machine.execBrk r s
  | .ld r => Sys2Proof.Machine.execLd r s
  | .st r => Sys2Proof.Machine.execSt r s
  | .ldx r => Sys2Proof.Machine.execLdx r s
  | .stx r => Sys2Proof.Machine.execStx r s
  | .qmark r => Sys2Proof.Machine.execQmark r s
  | .fence r => Sys2Proof.Machine.execFence r s
  | .aadd r => Sys2Proof.Machine.execAadd r s
  | .axchg r => Sys2Proof.Machine.execAxchg r s
  | .acas r => Sys2Proof.Machine.execAcas r s
  | .amin r => Sys2Proof.Machine.execAmin r s
  | .amax r => Sys2Proof.Machine.execAmax r s
  | .aminu r => Sys2Proof.Machine.execAminu r s
  | .amaxu r => Sys2Proof.Machine.execAmaxu r s
  | .aand r => Sys2Proof.Machine.execAand r s
  | .aor r => Sys2Proof.Machine.execAor r s
  | .axor r => Sys2Proof.Machine.execAxor r s
  | .afadd r => Sys2Proof.Machine.execAfadd r s
  | .mwait r => Sys2Proof.Machine.execMwait r s
  | .sigpost r => Sys2Proof.Machine.execSigpost r s
  | .sigwait r => Sys2Proof.Machine.execSigwait r s
  | .sigset r => Sys2Proof.Machine.execSigset r s
  | .qpush r => Sys2Proof.Machine.execQpush r s
  | .qpop r => Sys2Proof.Machine.execQpop r s
  | .qtry r => Sys2Proof.Machine.execQtry r s
  | .qbind r => Sys2Proof.Machine.execQbind r s
  | .evbind r => Sys2Proof.Machine.execEvbind r s
  | .barg r => Sys2Proof.Machine.execBarg r s
  | .pgshare r => Sys2Proof.Machine.execPgshare r s
  | .pgdrop r => Sys2Proof.Machine.execPgdrop r s
  | .pgrefs r => Sys2Proof.Machine.execPgrefs r s
  | .wpset r => Sys2Proof.Machine.execWpset r s
  | .wpclr r => Sys2Proof.Machine.execWpclr r s
  | .farerd r => Sys2Proof.Machine.execFarerd r s
  | .faretop r => Sys2Proof.Machine.execFaretop r s
  | .station r => Sys2Proof.Machine.execStation r s
  | .yield r => Sys2Proof.Machine.execYield r s
  | .spawn r => Sys2Proof.Machine.execSpawn r s
  | .depdec r => Sys2Proof.Machine.execDepdec r s
  | .fork r => Sys2Proof.Machine.execFork r s
  | .rvz r => Sys2Proof.Machine.execRvz r s
  | .halt r => Sys2Proof.Machine.execHalt r s
  | .flip r => Sys2Proof.Machine.execFlip r s
  | .phase r => Sys2Proof.Machine.execPhase r s
  | .segchk r => Sys2Proof.Machine.execSegchk r s
  | .trap r => Sys2Proof.Machine.execTrap r s
  | .eret r => Sys2Proof.Machine.execEret r s
  | .prog r => Sys2Proof.Machine.execProg r s
  | .clock r => Sys2Proof.Machine.execClock r s
  | .mset r => Sys2Proof.Machine.execMset r s
  | .mloadb r => Sys2Proof.Machine.execMloadb r s
  | .mloadt r => Sys2Proof.Machine.execMloadt r s
  | .mrun r => Sys2Proof.Machine.execMrun r s
  | .mgather r => Sys2Proof.Machine.execMgather r s
  | .mdrain r => Sys2Proof.Machine.execMdrain r s
  | .mzero r => Sys2Proof.Machine.execMzero r s
  | .mreada r => Sys2Proof.Machine.execMreada r s
  | .mpatch r => Sys2Proof.Machine.execMpatch r s
  | .mwaitc r => Sys2Proof.Machine.execMwaitc r s
  | .mstat r => Sys2Proof.Machine.execMstat r s
  | .dset r => Sys2Proof.Machine.execDset r s
  | .dcopy r => Sys2Proof.Machine.execDcopy r s
  | .dqapp r => Sys2Proof.Machine.execDqapp r s
  | .gatherr r => Sys2Proof.Machine.execGatherr r s
  | .scatterw r => Sys2Proof.Machine.execScatterw r s
  | .scatadd r => Sys2Proof.Machine.execScatadd r s
  | .fold r => Sys2Proof.Machine.execFold r s
  | .foldwait r => Sys2Proof.Machine.execFoldwait r s
  | .chkick r => Sys2Proof.Machine.execChkick r s
  | .chlink r => Sys2Proof.Machine.execChlink r s
  | .chstat r => Sys2Proof.Machine.execChstat r s
  | .dwait r => Sys2Proof.Machine.execDwait r s
  | .mcast r => Sys2Proof.Machine.execMcast r s
  | .dstat r => Sys2Proof.Machine.execDstat r s
  | .dcsum r => Sys2Proof.Machine.execDcsum r s
  | .pbind r => Sys2Proof.Machine.execPbind r s
  | .pstep r => Sys2Proof.Machine.execPstep r s
  | .pread r => Sys2Proof.Machine.execPread r s
  | .tld r => Sys2Proof.Machine.execTld r s
  | .tst r => Sys2Proof.Machine.execTst r s
  | .tfree r => Sys2Proof.Machine.execTfree r s
  | .tfill r => Sys2Proof.Machine.execTfill r s
  | .twaitf r => Sys2Proof.Machine.execTwaitf r s
  | .fopen r => Sys2Proof.Machine.execFopen r s
  | .fadv r => Sys2Proof.Machine.execFadv r s
  | .fseek r => Sys2Proof.Machine.execFseek r s
  | .fend r => Sys2Proof.Machine.execFend r s
  | .fcrd r => Sys2Proof.Machine.execFcrd r s
  | .fval r => Sys2Proof.Machine.execFval r s
  | .frow r => Sys2Proof.Machine.execFrow r s
  | .fmatch r => Sys2Proof.Machine.execFmatch r s
  | .fclose r => Sys2Proof.Machine.execFclose r s
  | .vsplat r => Sys2Proof.Machine.execVsplat r s
  | .vlane r => Sys2Proof.Machine.execVlane r s
  | .vputl r => Sys2Proof.Machine.execVputl r s
  | .vwait r => Sys2Proof.Machine.execVwait r s
  | .mgopen r => Sys2Proof.Machine.execMgopen r s
  | .mgput r => Sys2Proof.Machine.execMgput r s
  | .mgrow r => Sys2Proof.Machine.execMgrow r s
  | .mgend r => Sys2Proof.Machine.execMgend r s
  | .mgclose r => Sys2Proof.Machine.execMgclose r s
  | .mgstat r => Sys2Proof.Machine.execMgstat r s
  | .mgspill r => Sys2Proof.Machine.execMgspill r s
  | .mgexpand r => Sys2Proof.Machine.execMgexpand r s
  | .trcw r => Sys2Proof.Machine.execTrcw r s
  | .scrub r => Sys2Proof.Machine.execScrub r s
  | .poisonq r => Sys2Proof.Machine.execPoisonq r s
  | .wpstat r => Sys2Proof.Machine.execWpstat r s
  | .csum r => Sys2Proof.Machine.execCsum r s
  | .hret r => Sys2Proof.Machine.execHret r s
  | .icsync r => Sys2Proof.Machine.execIcsync r s
  | .trial r => Sys2Proof.Machine.execTrial r s
  | .vmov d a b => Sys2Proof.Machine.execVmov d a b s
  | .vadd d a b => Sys2Proof.Machine.execVadd d a b s
  | .vsub d a b => Sys2Proof.Machine.execVsub d a b s
  | .vmul d a b => Sys2Proof.Machine.execVmul d a b s
  | .vfma d a b => Sys2Proof.Machine.execVfma d a b s
  | .vmin d a b => Sys2Proof.Machine.execVmin d a b s
  | .vmax d a b => Sys2Proof.Machine.execVmax d a b s
  | .vabs d a b => Sys2Proof.Machine.execVabs d a b s
  | .vneg d a b => Sys2Proof.Machine.execVneg d a b s
  | .vand d a b => Sys2Proof.Machine.execVand d a b s
  | .vor d a b => Sys2Proof.Machine.execVor d a b s
  | .vxor d a b => Sys2Proof.Machine.execVxor d a b s
  | .vshl d a b => Sys2Proof.Machine.execVshl d a b s
  | .vshr d a b => Sys2Proof.Machine.execVshr d a b s
  | .vsar d a b => Sys2Proof.Machine.execVsar d a b s
  | .vclt d a b => Sys2Proof.Machine.execVclt d a b s
  | .vceq d a b => Sys2Proof.Machine.execVceq d a b s
  | .vsel d a b => Sys2Proof.Machine.execVsel d a b s
  | .vcvt d a b => Sys2Proof.Machine.execVcvt d a b s
  | .vexp2 d a b => Sys2Proof.Machine.execVexp2 d a b s
  | .vlog2 d a b => Sys2Proof.Machine.execVlog2 d a b s
  | .vrcp d a b => Sys2Proof.Machine.execVrcp d a b s
  | .vrsq d a b => Sys2Proof.Machine.execVrsq d a b s
  | .vsumr d a b => Sys2Proof.Machine.execVsumr d a b s
  | .vmaxr d a b => Sys2Proof.Machine.execVmaxr d a b s
  | .vbcast d a b => Sys2Proof.Machine.execVbcast d a b s
  | .vshuf d a b => Sys2Proof.Machine.execVshuf d a b s
  | .vscale d a b => Sys2Proof.Machine.execVscale d a b s
  | .vqmx d a b => Sys2Proof.Machine.execVqmx d a b s
  | .vdqmx d a b => Sys2Proof.Machine.execVdqmx d a b s
  | .vpk24 d a b => Sys2Proof.Machine.execVpk24 d a b s
  | .vclr d a b => Sys2Proof.Machine.execVclr d a b s
  | .clearEngine => Sys2Proof.Machine.execClearEngine s
  | .dispatchStep => Sys2Proof.Machine.execDispatchStep s
  | .gangReservation => Sys2Proof.Machine.execGangReservation s
  | .gangUnplaceableReport => Sys2Proof.Machine.execGangUnplaceableReport s
  | .launchEnd => Sys2Proof.Machine.execLaunchEnd s
  | .waitCompletion => Sys2Proof.Machine.execWaitCompletion s
  | .waitBoundExpiry => Sys2Proof.Machine.execWaitBoundExpiry s
  | .watchdogExpiry => Sys2Proof.Machine.execWatchdogExpiry s
  | .blockedCycleCharge => Sys2Proof.Machine.execBlockedCycleCharge s
  | .hardPreemption => Sys2Proof.Machine.execHardPreemption s
  | .topupRetry => Sys2Proof.Machine.execTopupRetry s
  | .faretopPolicyGrant => Sys2Proof.Machine.execFaretopPolicyGrant s
  | .saveCopyOut => Sys2Proof.Machine.execSaveCopyOut s
  | .resumeRestore => Sys2Proof.Machine.execResumeRestore s
  | .clockStepRequest => Sys2Proof.Machine.execClockStepRequest s
  | .clockStop => Sys2Proof.Machine.execClockStop s
  | .clockRestart => Sys2Proof.Machine.execClockRestart s
  | .powerMeasurement => Sys2Proof.Machine.execPowerMeasurement s
  | .bankDrainEnd => Sys2Proof.Machine.execBankDrainEnd s
  | .fifoOverflowService => Sys2Proof.Machine.execFifoOverflowService s
  | .loadPerform => Sys2Proof.Machine.execLoadPerform s
  | .storePerform => Sys2Proof.Machine.execStorePerform s
  | .multicastLanding => Sys2Proof.Machine.execMulticastLanding s
  | .cowService => Sys2Proof.Machine.execCowService s
  | .sramRailLow => Sys2Proof.Machine.execSramRailLow s
  | .sramRailRecover => Sys2Proof.Machine.execSramRailRecover s
  | .bankScrub => Sys2Proof.Machine.execBankScrub s
  | .registerScrub => Sys2Proof.Machine.execRegisterScrub s
  | .vResultLanding => Sys2Proof.Machine.execVResultLanding s
  | .tileMoveComplete => Sys2Proof.Machine.execTileMoveComplete s
  | .packetParse => Sys2Proof.Machine.execPacketParse s
  | .nopPacket => Sys2Proof.Machine.execNopPacket s
  | .copy => Sys2Proof.Machine.execCopy s
  | .fencePacket => Sys2Proof.Machine.execFencePacket s
  | .signalPacket => Sys2Proof.Machine.execSignalPacket s
  | .spawnPacket => Sys2Proof.Machine.execSpawnPacket s
  | .reduce => Sys2Proof.Machine.execReduce s
  | .gatherPacket => Sys2Proof.Machine.execGatherPacket s
  | .parserStallTimeout => Sys2Proof.Machine.execParserStallTimeout s
  | .fencePacketTimeout => Sys2Proof.Machine.execFencePacketTimeout s
  | .landingUnit => Sys2Proof.Machine.execLandingUnit s
  | .packetCompletion => Sys2Proof.Machine.execPacketCompletion s
  | .queueFaultService => Sys2Proof.Machine.execQueueFaultService s
  | .chainEntryStart => Sys2Proof.Machine.execChainEntryStart s
  | .chainEntryComplete => Sys2Proof.Machine.execChainEntryComplete s
  | .tCommandComplete => Sys2Proof.Machine.execTCommandComplete s
  | .gatherReply => Sys2Proof.Machine.execGatherReply s
  | .foldStart => Sys2Proof.Machine.execFoldStart s
  | .foldComplete => Sys2Proof.Machine.execFoldComplete s
  | .weightBufferExchange => Sys2Proof.Machine.execWeightBufferExchange s
  | .rowEntry => Sys2Proof.Machine.execRowEntry s
  | .rowSlotUpdate => Sys2Proof.Machine.execRowSlotUpdate s
  | .mCommandComplete => Sys2Proof.Machine.execMCommandComplete s
  | .drainSlot => Sys2Proof.Machine.execDrainSlot s
  | .watchStop => Sys2Proof.Machine.execWatchStop s
  | .impreciseWatchStop => Sys2Proof.Machine.execImpreciseWatchStop s
  | .mangleRecord => Sys2Proof.Machine.execMangleRecord s
  | .mangleSpill => Sys2Proof.Machine.execMangleSpill s
  | .hamperService => Sys2Proof.Machine.execHamperService s
  | .mergePass => Sys2Proof.Machine.execMergePass s
  | .finalPass => Sys2Proof.Machine.execFinalPass s
  | .trapForward => Sys2Proof.Machine.execTrapForward s
  | .deferredFault => Sys2Proof.Machine.execDeferredFault s
  | .selfTest => Sys2Proof.Machine.execSelfTest s
  | .traceSample => Sys2Proof.Machine.execTraceSample s
  | .tctlWrite => Sys2Proof.Machine.execTctlWrite s
  | .trialHold => Sys2Proof.Machine.execTrialHold s
  | .lifetimeRecordWrite => Sys2Proof.Machine.execLifetimeRecordWrite s
  | .hostApertureRead => Sys2Proof.Machine.execHostApertureRead s
  | .hostApertureWrite => Sys2Proof.Machine.execHostApertureWrite s
  | .hostAtomic => Sys2Proof.Machine.execHostAtomic s
  | .formatWindowWrite => Sys2Proof.Machine.execFormatWindowWrite s
  | .routeTableWrite => Sys2Proof.Machine.execRouteTableWrite s
  | .registerWrite => Sys2Proof.Machine.execRegisterWrite s
  | .requestNone => Sys2Proof.Machine.execRequestNone s
  | .resumeNode => Sys2Proof.Machine.execResumeNode s
  | .endAbandon => Sys2Proof.Machine.execEndAbandon s
  | .endComplete => Sys2Proof.Machine.execEndComplete s
  | .releaseDump => Sys2Proof.Machine.execReleaseDump s
  | .creditFare => Sys2Proof.Machine.execCreditFare s
  | .softPreempt => Sys2Proof.Machine.execSoftPreempt s
  | .hardPreemptRequest => Sys2Proof.Machine.execHardPreemptRequest s
  | .setWatchRequest => Sys2Proof.Machine.execSetWatchRequest s
  | .openGroup => Sys2Proof.Machine.execOpenGroup s
  | .closeGroup => Sys2Proof.Machine.execCloseGroup s
  | .restartQueue => Sys2Proof.Machine.execRestartQueue s
  | .tlbInvalidation => Sys2Proof.Machine.execTlbInvalidation s
  | .l2WritebackInvalidate => Sys2Proof.Machine.execL2WritebackInvalidate s
  | .registerArena => Sys2Proof.Machine.execRegisterArena s
  | .unregisterArena => Sys2Proof.Machine.execUnregisterArena s
  | .unknownRequest => Sys2Proof.Machine.execUnknownRequest s
  | .cxlLinkFail => Sys2Proof.Machine.execCxlLinkFail s
  | .flitReceive => Sys2Proof.Machine.execFlitReceive s
  | .hitchPortLost => Sys2Proof.Machine.execHitchPortLost s
  | .laneSparing => Sys2Proof.Machine.execLaneSparing s
  | .remoteAccess => Sys2Proof.Machine.execRemoteAccess s
  | .reduceChunk => Sys2Proof.Machine.execReduceChunk s
  | .collectiveTimeout => Sys2Proof.Machine.execCollectiveTimeout s
  | .powerOn => Sys2Proof.Machine.execPowerOn s
  | .firmwareReplacement => Sys2Proof.Machine.execFirmwareReplacement s
  | .hotRemoval => Sys2Proof.Machine.execHotRemoval s
  | .attestationRequest => Sys2Proof.Machine.execAttestationRequest s
  | .spuriousWake => Sys2Proof.Machine.execSpuriousWake s
  | .thermalLimit => Sys2Proof.Machine.execThermalLimit s
  | .degradedModeSet => Sys2Proof.Machine.execDegradedModeSet s
  | .powerLoss => Sys2Proof.Machine.execPowerLoss s

end Sys2Proof.Machine
end

