-- ==== Sys2Proof/Machine/Step.lean ====
section
/-! DEFINITION. One step: the first operation or event of the event list, or else the turn of the sequencer that `cur`
names. A module without power takes only POWER_ON. -/

namespace Sys2Proof.Machine

/-- One step. (DESIGN CHOICE, log entry 9.) -/
def step (s : State) : Host.Outcome State Fault Refusal :=
  match s.events with
  | (i, a) :: rest =>
    if s.powered || i == .powerOn then exec i { s with events := rest, arg := a, serial := s.serial + 1 }
    else .next { s with events := rest }
  | [] =>
    if s.powered then
      match s.turn with
      | .pass t => .next t.advance
      | .run i t =>
        match exec i t with
        | .next u => .next u.advance
        | .fault f => .fault f
        | .refused f => .refused f
    else .fault .noPower

/-- The state with a word stored where the next step fetches it; the spec's words are 16 bits wide. (DESIGN CHOICE, log entry 5.) -/
def State.withFetchWord (s : State) (_nbits w : Nat) : State := s.placeWord (BitVec.ofNat 16 w)

end Sys2Proof.Machine
end

