-- ==== Sys2Proof/Safety.lean ====
section
/-! DEFINITION. The terms in which claims about the machine are stated: what counts as a safe run, when a word issues and
is performed, what issuing a word changes beside the word's own effect, and the form every reachable memory has. -/

namespace Sys2Proof.Machine

/-! ### Runs -/

/-- A state from which `n` steps end in no fault and no refusal. -/
def SafeFor (n : Nat) (s : State) : Prop :=
  match n with
  | 0 => True
  | n + 1 => ∃ t, step s = .next t ∧ SafeFor n t

/-- The state after a step, where there is one. -/
def StepsTo (s t : State) : Prop := step s = .next t

/-! ### The word whose turn it is -/

/-- The core whose turn it is. -/
abbrev State.k (s : State) : CoreId := s.cur.1

/-- Its sequencer whose turn it is. -/
abbrev State.q (s : State) : Seq := s.cur.2

/-- That sequencer. -/
abbrev State.me (s : State) : Seqr := s.seq s.k s.q

/-- The prefixes that govern a word of these table entries (R157 to R162). -/
def State.px (s : State) (sp : Spec) : Px := resolvePx s.q (isMerge s.k) (sp.accOn s.q) s.me.pfx

/-- A word with what its issue group governs, as its body sees it. -/
def State.wd (s : State) (i : Instr) (sp : Spec) : Wd :=
  { k := s.k, q := s.q, pc := s.me.pc, px := s.px sp, fin := s.dueOf s.k (s.px sp).pushes (s.px sp).signal.toList, enc := wordOf i }

/-- What R26 to R28, R155, R160, R161, R170 and R326 ask before word i, of these table entries, is performed: it is accepted on its
sequencer, the stack has its operands and room for its results, rights and privilege suffice, an IF holds, and for a word that
launches nothing the tokens and the event are there; no register it reads has an error; and where it may perform earlier stores, none of the
core is in the broadcast tree or held by a bank (R94, R126, R364). -/
structure State.Issues (s : State) (i : Instr) (sp : Spec) : Prop where
  /-- R26. -/
  accepted : s.accepts s.k s.q sp = true
  /-- R28: operands. -/
  operands : sp.pops ≤ s.me.stack.length
  /-- R28: room. -/
  room : s.me.stack.length - sp.pops + sp.pushes ≤ 8
  /-- R170 step 2. -/
  rights : s.rightsTrap s.k s.q sp = none
  /-- R160. -/
  cond : ∀ p, (s.px sp).cond = some p → s.me.condHolds p = true
  /-- R161. -/
  sync : sp.launch = false → s.syncWait s.k (s.px sp) = none
  /-- R326: operands, and the predicate of an IF. -/
  sound : (s.ctx s.k).regSound ((s.ctx s.k).issueReads s.q sp.pops (s.px sp).cond) = true
  /-- R326: the registers it reads beside them. -/
  reads : (s.ctx s.k).regSound ((s.ctx s.k).bodyReads s.q i) = true
  /-- R94, R122, R126, R364. -/
  landed : performsStores i = true → s.anyStuck s.k = false

/-- The EVENT wait of a word is passed, where it has one: its slot's ARM advances, or EVUNB is set (R37). -/
def State.passed (s : State) (k : CoreId) (w : Option (Fin 16)) : State :=
  match w with
  | some n => s.slotPass k n
  | none => s

/-- A word of the table issues in s. -/
def State.Ready (s : State) (i : Instr) : Prop := ∃ sp, wordSpec s.q i = some sp ∧ s.Issues i sp

/-- b is a, but for what issuing a word on sequencer q of core k changes whatever the word: where the sequencer stands, its
counts and its stack; the core's fare, tokens and sticky bits; errors of registers it has written; a pre-emption for an overrun (R61); and a trial's due hold
(R338). -/
structure OnlyIssue (k : CoreId) (q : Seq) (a b : State) : Prop where
  /-- Outside the cores nothing changes but the list of what is due. -/
  rest : b = { a with cores := b.cores, events := b.events }
  /-- No other core changes. -/
  others : ∀ j, j ≠ k → b.core j = a.core j
  /-- The core. -/
  core : b.core k = { a.core k with ctx := b.ctx k, preempt := (b.core k).preempt }
  /-- Its context. -/
  ctx : b.ctx k =
    { a.ctx k with
        c := (b.ctx k).c, m := (b.ctx k).m, v := (b.ctx k).v, t := (b.ctx k).t, regs := b.regs k, regEcc := (b.ctx k).regEcc }
  /-- No other sequencer. -/
  seqs : ∀ p, p ≠ q → b.seq k p = a.seq k p
  /-- The sequencer keeps its predicates, branch targets, loop counters and pending stores, and the loads that may still be performed. -/
  kept : b.seq k q =
    { b.seq k q with
        preds := (a.seq k q).preds, bt := (a.seq k q).bt, btAt := (a.seq k q).btAt, ln := (a.seq k q).ln
        stopped := (a.seq k q).stopped, restart := (a.seq k q).restart
        stores := (a.seq k q).stores, late := (a.seq k q).late, mark := (a.seq k q).mark, hold := (a.seq k q).hold
        started := (a.seq k q).started }
  /-- The core block keeps all but FI, tokens and WFLAGS. -/
  regs : b.regs k =
    { a.regs k with
        fi := (b.regs k).fi, tok := (b.regs k).tok, rsv := (b.regs k).rsv
        wflags := (b.regs k).wflags, wfNow := (b.regs k).wfNow }

/-- From u to t sequencer q of core k completes a word that pops n entries and pushes `out`, and goes on at `pc`: the issue
group is closed, and the word's charge is made, as far as it was not made when the word blocked (R60, R154). -/
structure Advanced (k : CoreId) (q : Seq) (u t : State) (n : Nat) (out : List W64) (pc : VA) (cost : Nat) : Prop where
  /-- Operands go, results come, the last on top. -/
  stack : (t.seq k q).stack = out.reverse ++ (u.seq k q).stack.drop n
  /-- PC. -/
  pc : (t.seq k q).pc = pc
  /-- It runs. -/
  run : (t.seq k q).run = .running
  /-- One more word has issued. -/
  issued : (t.seq k q).issued = (u.seq k q).issued + 1
  /-- Its issue group is closed. -/
  group : (t.seq k q).pfx = [] ∧ (t.seq k q).grpPc = none
  /-- It waits for nothing. -/
  wait : (t.seq k q).held = none ∧ (t.seq k q).wait = none
  /-- FI. -/
  fi : (t.regs k).fi =
    if (u.seq k q).owes cost = 0 then (u.regs k).fi else max ((u.regs k).fi - (u.seq k q).owes cost) (-2147483648)

/-- The sticky bits that every performed word sets: those of its group's prefixes, and RFLD for bits of r its entry does not use
(R153, R162). -/
def State.issueFlags (s : State) (i : Instr) (sp : Spec) : BitVec 32 :=
  (s.px sp).flags ||| flagIf (rUnused (rField i) sp.rbits) fRFLD

/-- From u to t issuing word i in s sets no sticky bit but those of its group and `fl`, moves no token without a TOKEN prefix, and
makes nothing due but what an overrun or a trial makes due. -/
structure Marks (i : Instr) (sp : Spec) (s u t : State) (fl : BitVec 32) : Prop where
  /-- WFLAGS. -/
  flags : (t.regs s.k).wflags = (u.regs s.k).wflags ||| (s.issueFlags i sp ||| fl)
  /-- Tokens (R161). -/
  tokens : (s.px sp).pops = [] → (s.px sp).pushes = [] → (t.regs s.k).tok = (u.regs s.k).tok ∧ (t.regs s.k).rsv = (u.regs s.k).rsv
  /-- R61. -/
  overrun : (t.core s.k).preempt = (u.core s.k).preempt ∨ (t.regs s.k).fi ≤ -4096
  /-- R326: what it writes whole has no error any more. -/
  ecc : (t.ctx s.k).regEcc =
    (u.ctx s.k).regEcc.filter fun e => !regWrites s.q ((u.seq s.k s.q).stack.length - sp.pops) i e.1
  /-- R338. -/
  due : t.events = u.events ∨ (u.core s.k).trial.isSome

/-- Word i completes in s: its own effect leads to u, it pops n entries and pushes `out`, it costs `cost`, and the next word is
the one after it; it sets `fl` beside the sticky bits of its group; beside that only what issuing changes is changed. -/
def Completes (i : Instr) (s u : State) (n : Nat) (out : List W64) (cost : Nat := 1) (fl : BitVec 32 := 0) : Prop :=
  ∃ t sp, exec i s = .next t ∧ wordSpec s.q i = some sp ∧ OnlyIssue s.k s.q u t ∧ Advanced s.k s.q u t n out (s.me.pc + 2) cost
    ∧ Marks i sp s u t fl

/-- Word i completes in s as `Completes` says, and what `f` says follows it in the same step. -/
def CompletesThen (i : Instr) (s u : State) (n : Nat) (out : List W64) (cost : Nat) (fl : BitVec 32) (f : State → State) : Prop :=
  ∃ t sp, exec i s = .next (f t) ∧ wordSpec s.q i = some sp ∧ OnlyIssue s.k s.q u t ∧ Advanced s.k s.q u t n out (s.me.pc + 2) cost
    ∧ Marks i sp s u t fl

/-- Word i completes in s as a taken branch to `pc`, with bubbles (R165). -/
def Branches (i : Instr) (s u : State) (n : Nat) (pc : VA) (bubbles : Nat) : Prop :=
  ∃ t sp, exec i s = .next t ∧ wordSpec s.q i = some sp ∧ OnlyIssue s.k s.q u t ∧ Advanced s.k s.q u t n [] pc 1
    ∧ Marks i sp s u t 0 ∧ (t.seq s.k s.q).bubbles = bubbles

/-- Word i traps in s as t says: nothing of it is performed, and the record goes to the Ostler (R299, R301). -/
def Traps (i : Instr) (s : State) (t : TrapInfo) : Prop := exec i s = .next (s.takeTrap s.k s.q t)

/-- An operation or event of the table is performed and leads to t. -/
def Leads (i : Instr) (s t : State) : Prop := exec i s = .next t

/-! ### The form of memory -/

/-- Every store of bytes is in its one canonical form. -/
def State.MemoryForm (s : State) : Prop :=
  s.mem.wf = true ∧ s.bar0.wf = true ∧ s.l2.wf = true ∧ s.stale.wf = true

end Sys2Proof.Machine
end

