-- ==== Sys2Proof/WellFormed.lean ====
section
/-! DEFINITION. Which instructions are well formed. The register fields and immediates of a word are bit vectors of the
field's own width, so every word is well formed but one: a term that names the undefined word must hold a word that is
undefined (R152). The operations and events of the table have no fields. -/

namespace Sys2Proof

/-- A word that no map defines (R152). -/
def isUndefinedWord (w : Word16) : Bool := decodeWord w == .undefinedWord w

/-- Well-formed instructions. -/
def Instr.wellFormed (i : Instr) : Bool :=
  match i with
  | .undefinedWord w => isUndefinedWord w
  | _ => true

end Sys2Proof
end

