-- ==== Sys2Proof/Certificates/Slice0/Obligations.lean ====
section
/-! DEFINITION. The statements for the provers. A word's effect is written as a function from the word, what its issue group
governs, its operands (deepest first, as the tables draw them) and the state to what the rules give; it answers none where the
rules make the word wait, trap or stop there, which other statements say. -/

namespace Sys2Proof.Claims

open Machine

/-- What a word does where it is performed. -/
structure Eff where
  /-- The state with the word's own effect. -/
  u : State
  /-- What it pushes, the last on top. -/
  out : List W64 := []
  /-- FI. -/
  cost : Nat := 1
  /-- Sticky bits beside those of its group. -/
  flags : BitVec 32 := 0
  /-- Its tokens and signal are due when something it has started ends (R38). -/
  late : Bool := false
  /-- What follows it in the same step. -/
  next : State → State := id

/-- An effect function. -/
abbrev Effect := Instr → Wd → List W64 → State → Option Eff

/-- Where a word issues and f gives its effect, it completes with that effect, and nothing else changes but what issuing
changes. -/
def Performs (f : Effect) : Prop :=
  ∀ (i : Instr) (s : State) (sp : Spec) (e : Eff), wordSpec s.q i = some sp → s.Issues i sp →
    f i (s.wd i sp) (popArgs s.me.stack sp.pops) s = some e →
      CompletesThen i s e.u sp.pops e.out e.cost e.flags e.next

/-- The same of words that take an EVENT prefix: with its effect the word's own wait is passed. For a word whose signal is due at its own
completion `PerformsSignal` says it. -/
def PerformsEvent (f : Effect) : Prop :=
  ∀ (i : Instr) (s : State) (sp : Spec) (e : Eff), wordSpec s.q i = some sp → s.Issues i sp →
    f i (s.wd i sp) (popArgs s.me.stack sp.pops) s = some e → e.late = true ∨ (s.px sp).signal = none →
      CompletesThen i s (e.u.passed s.k (s.px sp).wait) sp.pops e.out e.cost e.flags e.next

/-- The same of words that are complete at once: they signal through the slot of their EVENT prefix, as it was bound at issue (R37, R181). -/
def PerformsSignal (f : Effect) : Prop :=
  ∀ (i : Instr) (s : State) (sp : Spec) (e : Eff), wordSpec s.q i = some sp → s.Issues i sp →
    f i (s.wd i sp) (popArgs s.me.stack sp.pops) s = some e → e.late = false →
      let u := e.u.passed s.k (s.px sp).wait
      CompletesThen i s (match (s.px sp).signal with | some n => u.signalSlot s.k (s.regs s.k).ev[n.val] | none => u) sp.pops e.out e.cost
        e.flags e.next

/-! ### The stack words and the literals (R149, R150, R171) -/

/-- R171's pictures, and R149 and R150. -/
def stackWords : Effect := fun i w a s =>
  let put := fun out : List W64 => some { u := s, out := out }
  match i, a with
  | .lit v, [] => put [BitVec.ofInt 64 v.toInt]
  | .ext v, [x] => put [BitVec.ofNat 64 (x.toNat * 2 ^ 13 + v.toNat)]
  | .dup _, [a] => put [a, a]
  | .drop _, [_] => put []
  | .swap _, [a, b] => put [b, a]
  | .over _, [a, b] => put [a, b, a]
  | .rot _, [a, b, c] => put [b, c, a]
  | .pick _, a :: t => put (a :: t ++ [a])
  | .depth _, [] => put [BitVec.ofNat 64 (s.seq w.k w.q).stack.length]
  | _, _ => none

/-! ### The integer words (R82, R175) -/

/-- The two's complement word of an integer. -/
def ofZ (z : Int) : W64 := BitVec.ofInt 64 z

/-- The word of a natural number, modulo 2^64. -/
def ofN (n : Nat) : W64 := BitVec.ofNat 64 n

/-- The result of an integer word over its operands, in exact arithmetic. -/
def intResult (i : Instr) (a : List W64) : Option W64 :=
  match i, a with
  | .add _, [a, b] => some (ofZ (a.toInt + b.toInt))
  | .sub _, [a, b] => some (ofZ (a.toInt - b.toInt))
  | .mul _, [a, b] => some (ofZ (a.toInt * b.toInt))
  | .mulh _, [a, b] => some (ofZ (a.toInt * b.toInt / 2 ^ 64))
  | .mulhu _, [a, b] => some (ofN (a.toNat * b.toNat / 2 ^ 64))
  | .div _, [a, b] => some (if b = 0 then ofZ (-1) else ofZ (a.toInt.tdiv b.toInt))
  | .divu _, [a, b] => some (if b = 0 then ofN (2 ^ 64 - 1) else ofN (a.toNat / b.toNat))
  | .rem _, [a, b] => some (if b = 0 then a else ofZ (a.toInt.tmod b.toInt))
  | .remu _, [a, b] => some (if b = 0 then a else ofN (a.toNat % b.toNat))
  | .and _, [a, b] => some (ofN (a.toNat &&& b.toNat))
  | .or _, [a, b] => some (ofN (a.toNat ||| b.toNat))
  | .xor _, [a, b] => some (ofN (a.toNat ^^^ b.toNat))
  | .not _, [x] => some (ofZ (-1 - x.toInt))
  | .neg _, [x] => some (ofZ (-x.toInt))
  | .shl _, [a, b] => some (ofN (a.toNat * 2 ^ (b.toNat % 64)))
  | .shr _, [a, b] => some (ofN (a.toNat / 2 ^ (b.toNat % 64)))
  | .sar _, [a, b] => some (ofZ (a.toInt / 2 ^ (b.toNat % 64)))
  | .min _, [a, b] => some (ofZ (min a.toInt b.toInt))
  | .max _, [a, b] => some (ofZ (max a.toInt b.toInt))
  | .minu _, [a, b] => some (ofN (min a.toNat b.toNat))
  | .maxu _, [a, b] => some (ofN (max a.toNat b.toNat))
  | .clz _, [x] => some (ofN (64 - Nat.size x.toNat))
  | .popc _, [x] => some (ofN ((List.range 64).countP fun j => x.toNat / 2 ^ j % 2 = 1))
  | .addi r, [x] => some (ofZ (x.toInt + r.toInt))
  | .shli r, [x] => some (ofN (x.toNat * 2 ^ (r.toNat + 1)))
  | .shri r, [x] => some (ofN (x.toNat / 2 ^ (r.toNat + 1)))
  | .sext r, [x] => some (ofZ (Int.bmod x.toNat (2 ^ (8 * 2 ^ (r.toNat % 4)))))
  | .zext r, [x] => some (ofN (x.toNat % 2 ^ (8 * 2 ^ (r.toNat % 4))))
  | .lea r, [a, b] => some (ofN (a.toNat + b.toNat * 2 ^ r.toNat))
  | .sel _, [a, b, f] => some (if f = 0 then b else a)
  | _, _ => none

/-- The integer words change nothing but the stack. -/
def integerWords : Effect := fun i _ a s => (intResult i a).map fun f => { u := s, out := [f] }

/-! ### Predicates (R31, R176, R177) -/

/-- The predicate a comparison or predicate word writes, and the value it writes there. -/
def predResult (i : Instr) (c : BitVec 3 → Bool) (a : List W64) : Option (BitVec 3 × Bool) :=
  let field := fun (x : W64) (lo : Nat) => BitVec.ofNat 3 (x.toNat / 2 ^ lo % 8)
  let name := fun r : BitVec 4 => BitVec.ofNat 3 (r.toNat % 8)
  match i, a with
  | .ceq r, [a, b] => some (name r, a.toNat = b.toNat)
  | .cne r, [a, b] => some (name r, a.toNat ≠ b.toNat)
  | .clt r, [a, b] => some (name r, a.toInt < b.toInt)
  | .cltu r, [a, b] => some (name r, a.toNat < b.toNat)
  | .cle r, [a, b] => some (name r, a.toInt ≤ b.toInt)
  | .cleu r, [a, b] => some (name r, a.toNat ≤ b.toNat)
  | .pand _, [x] => some (field x 0, c (field x 3) && c (field x 6))
  | .por _, [x] => some (field x 0, c (field x 3) || c (field x 6))
  | .pnot _, [x] => some (field x 0, !c (field x 3))
  | .putc r, [x] => some (name r, x ≠ 0)
  | _, _ => none

/-! ### Registers, state words, counters and the clock (R30, R60, R165, R172, R178, R179) -/

/-- What CSRR reads for a word number, where it may be read and its value is given. -/
def stateWord (w : Wd) (s : State) (n : Nat) : Option W64 :=
  let node := fun (f : Node → W64) => match s.nodeOf w.k with | some x => f x | none => 0
  match n with
  | 0x000 => some (ofN (w.k.die.val * 1024 + w.k.cluster.val * 64 + w.k.core.val))
  | 0x001 => some ((s.regs w.k).wflags.setWidth 64)
  | 0x002 => some (ofN (seqCode w.q + if 42 ≤ w.k.core.val then 4 else 0))
  | 0x003 => some (node fun x => ofN (x.id.die.val * 2 ^ 30 + x.entry.toNat))
  | 0x004 => some (node fun x => ofN (x.desc.ctrl.toNat / 2 ^ 12 % 128))
  | 0x005 => some (s.regs w.k).bufa
  | 0x006 => some (s.regs w.k).bufb
  | 0x008 => some (ofN ((List.range 8).map fun j => if ((s.regs w.k).q.toList.getD j none).isSome then 2 ^ j else 0).sum)
  | 0x009 => if s.ostler w.k then some (match (s.core w.k).serving with | some x => x.2 | none => 0) else none
  | 0x010 => some (s.regs w.k).prog[0]
  | 0x011 => some (s.regs w.k).prog[1]
  | 0x012 => some (s.regs w.k).prog[2]
  | 0x013 => some (s.regs w.k).prog[3]
  | 0x014 => some (s.regs w.k).prog[4]
  | 0x015 => some (s.regs w.k).prog[5]
  | 0x016 => some (s.regs w.k).prog[6]
  | 0x017 => some (s.regs w.k).prog[7]
  | _ => none

/-- Words that read a register, and words that write one. -/
def registerWords : Effect := fun i w a s =>
  let rd := fun v : W64 => some { u := s, out := [v] }
  let regs := s.regs w.k
  let me := s.seq w.k w.q
  match i, a with
  | .get r, [] => rd (regs.getS (r4 r))
  | .getc r, [] => rd (if me.pred (BitVec.ofNat 3 (r.toNat % 8)) then 1 else 0)
  | .getn r, [] => rd (ofN (me.ln[r.toNat % 4]).toNat)
  | .tbget _, [] => rd (ofN (regs.tb.owner.toNat * 8 + regs.tb.value.toNat))
  | .clock _, [] => rd (ofN s.now)
  | .csrr _, [n] => (stateWord w s (n.toNat % 4096)).bind rd
  | .farerd r, [] => rd (ofZ (if r.getLsbD 0 then regs.ft else max (regs.fi - me.owes 1) (-2147483648)))
  | .put r, [v] =>
    some { u := s.modRegs w.k fun g => g.putS (r4 r) v }
  | .setn r, [v] => some { u := s.modSeq w.k w.q fun x => { x with ln := vput x.ln (r2 r) (v.setWidth 32) } }
  | .prep r, [x] =>
    some { u := (s.modSeq w.k w.q fun q => { q with bt := vput q.bt (r2 r) (x.setWidth 57), btAt := vput q.btAt (r2 r) (q.issued + 1) }).beginFetch
                  w.k w.q (x.setWidth 57) }
  | .icsync _, [] =>
    let s := s.modCore w.k fun c => { c with icache := c.icache.map fun l => { l with live := l.live &&& ~~~(1#4 <<< seqCode w.q) } }
    some { u := s.modSeq w.k w.q fun q => { q with btAt := .replicate 4 (q.issued + 1) } }
  | .tbset _, [x] => some { u := s.modRegs w.k fun g => g.setTb { value := x.extractLsb' 0 3, owner := x.extractLsb' 3 2 } }
  | .prog r, [] =>
    some { u := s.modRegs w.k fun g => { g with prog := vput g.prog (r8 r) (g.prog[r.toNat % 8]'(Nat.mod_lt _ (by decide)) + 1) } }
  | .csrw _, [v, n] =>
    match n.toNat % 4096 with
    | 0x001 => some { u := s.modRegs w.k fun g => { g with wflags := (g.wflags &&& ~~~(v.setWidth 32 &&& 0x3FFFF)) ||| g.wfNow } }
    | 0x005 => some { u := s.modRegs w.k fun g => { g with bufa := v } }
    | 0x006 => some { u := s.modRegs w.k fun g => { g with bufb := v } }
    | m => (stateWord w s m).map fun _ => { u := s }
  | _, _ => none

/-! ### Branches and loops (R165 to R167, R173, R174) -/

/-- The bubbles of a taken branch through bN: 3 less the words issued since its PREP. -/
def bubbles (x : Seqr) (b : Fin 4) : Nat := 3 - (x.issued - x.btAt[b.val] + 1)

/-- A branch that is taken: its effect beside the jump, its target and its bubbles. -/
def takenBranch (i : Instr) (s : State) : Option (State × VA × Nat) :=
  let x := s.me
  let c := fun r : BitVec 4 => x.pred (BitVec.ofNat 3 (r.toNat % 4))
  let bt := fun (s : State) (b : Fin 4) => some (s, x.bt[b.val], bubbles x b)
  match i with
  | .br r => if c r then bt s (r2hi r) else none
  | .brn r => if r.toNat % 4 ≠ 0 ∧ !c r then bt s (r2hi r) else none
  | .call r =>
    bt (s.modRegs s.k fun g => g.putS 15 (ofN (x.pc + 2).toNat)) (r2 r)
  | .ret _ =>
    some (s, ((s.regs s.k).getS 15).setWidth 57, 3)
  | .loop r =>
    let n := x.ln[(r2hi r).val] - 1
    let s1 := s.modSeq s.k s.q fun y => { y with ln := vput y.ln (r2hi r) n }
    let tb := (s.regs s.k).tb
    let s2 := if tb.owner.toNat = seqCode s.q then s1.modRegs s.k fun g => g.setTb { tb with value := tb.value + 1 } else s1
    if n = 0 then none else bt s2 (r2 r)
  | _ => none

/-- A branch that is not taken. -/
def untakenBranch : Effect := fun i w a s =>
  let x := s.seq w.k w.q
  let c := fun r : BitVec 4 => x.pred (BitVec.ofNat 3 (r.toNat % 4))
  match i, a with
  | .br r, [] => if c r then none else some { u := s }
  | .brn r, [] => if r.toNat % 4 = 0 then some { u := s, flags := 0x400 } else if c r then some { u := s } else none
  | .loop r, [] =>
    if x.ln[(r2hi r).val] = 1 then
      let s1 := s.modSeq w.k w.q fun y => { y with ln := vput y.ln (r2hi r) 0 }
      let tb := (s.regs w.k).tb
      some { u := if tb.owner.toNat = seqCode w.q then s1.modRegs w.k fun g => g.setTb { tb with value := tb.value + 1 } else s1 }
    else none
  | _, _ => none

end Sys2Proof.Claims

open Sys2Proof Sys2Proof.Machine

/-- R149, R150, R171: a literal or stack word that issues completes, and the stack is as its picture says. -/
def Obligations.StackWordsDoTheirPicture : Prop := Claims.Performs Claims.stackWords

/-- R175, R82, R177: an integer word that issues completes with the exact result, wrapped; nothing but its stack and what issuing
changes is changed. -/
def Obligations.IntegerWordsComputeExactly : Prop := Claims.Performs Claims.integerWords

/-- R176, R177, R172, R31: a word that writes a predicate completes; the predicate then reads the value, and a write to c0 is
discarded. -/
def Obligations.PredicateWordsWriteTheirPredicate : Prop :=
  ∀ (i : Instr) (s : State) (sp : Spec) (d : BitVec 3) (b : Bool), wordSpec s.q i = some sp → s.Issues i sp →
    Claims.predResult i s.me.pred (popArgs s.me.stack sp.pops) = some (d, b) →
      ∃ u, Completes i s u sp.pops [] ∧ u = s.modSeq s.k s.q (fun x => { x with preds := (u.seq s.k s.q).preds })
        ∧ ∀ c : BitVec 3, (u.seq s.k s.q).pred c = if c = d ∧ c ≠ 0 then b else s.me.pred c

/-- R172, R178, R179, R60, R164, R165: a word that reads or writes a register, a state word, a loop counter or a branch target, or
counts, or reads the clock, completes with exactly that effect; PREP begins to fetch at its target; ICSYNC, with every line of the instruction cache of no further use to its
sequencer (R168, R198). -/
def Obligations.RegisterWordsReadAndWrite : Prop := Claims.Performs Claims.registerWords

/-- R173, R165, R166, R174, R167: a branch that is taken to an even target completes there with the bubbles of R165, and its side
effect (s15, the loop counter, the rotation) commits with it; an odd target traps with cause 0x04 and nothing commits. A branch that is not taken
completes and goes on with the next word; a BRN whose r[1:0] is 0 sets RFLD. -/
def Obligations.BranchesGoWhereTheyShould : Prop :=
  (∀ (i : Instr) (s u : State) (t : VA) (b : Nat), s.Ready i → Claims.takenBranch i s = some (u, t, b) →
    if t.toNat % 2 = 0 then Branches i s u 0 t b else Traps i s { code := 0x04, addr := t.setWidth 64 })
  ∧ Claims.Performs Claims.untakenBranch


namespace Sys2Proof.Claims

open Machine

/-! ### Memory words (R120, R180 to R185) -/

/-- Where an access of a core goes that passes R170's checks, and the state with the TLB entry it used. -/
def reach (w : Wd) (s : State) (va : W64) (n al : Nat) (x : Acc) : Option (Target × State) :=
  match s.access w.k va n al x with
  | .ok (t, e) => some (t, (s.useTlb w.k e).meet t n)
  | .error _ => none

/-- No watch stops the access. -/
def unwatched (w : Wd) (s : State) (va : W64) (bs : List Byte) (write : Bool) : Bool :=
  (s.watchHit w.k (s.seq w.k w.q).skip va bs write).isNone

/-- A read that meets no error and no poison. -/
def clean (w : Wd) (s : State) (t : Target) (n : Nat) : Option State :=
  match s.consumeBy w.k t n with
  | (u, none) => some u
  | (_, some _) => none

/-- A loaded value: zero-extended, or the two's complement value of its 8 n bits. -/
def loaded (sx : Bool) (n : Nat) (bs : List Byte) : W64 := if sx then ofZ (Int.bmod (leNat bs) (2 ^ (8 * n))) else ofN (leNat bs)

/-- The loads of a sequencer that may still be performed later, with one more, which takes the place of the top `pops` entries of the stack
(R120): none across an access to DEVICE memory, nor across an acquire (R122). -/
def mayFollow (s : State) (w : Wd) (t : Target) (n pops : Nat) (sx : Bool) : List LateLoad :=
  let r := s.seq w.k w.q
  if t.ordered || w.px.acquires then []
  else r.late ++ [{ pa := s.paOf t, policy := t.policy, z := sizeLog n, sx := sx, ix := r.stack.length - pops, older := r.stores.length }]

/-- A load of n bytes: from the store queue, from the core's version or from the home; from another module, with the reply. -/
def loadEff (w : Wd) (s : State) (va : W64) (n pops : Nat) (sx : Bool) : Option Eff :=
  (reach w s va n n .load).bind fun (t, s) =>
    let fin := fun (s : State) (bs : List Byte) =>
      ({ u := (s.modSeq w.k w.q fun r => { r with late := mayFollow s w t n pops sx }).chargeFt w.k t n, out := [loaded sx n bs] } : Eff)
    match t with
    | .remote _ => ((s.seq w.k w.q).load.bind fun l => l.value).map fun v => { u := s.chargeFt w.k t n, out := [v] }
    | _ =>
      match s.loadBytes w.k w.q t n with
      | (s, some bs) => if unwatched w s va bs false then some (fin s bs) else none
      | (s, none) =>
        let bs := s.viewBytes w.k t n
        if unwatched w s va bs false then (clean w (s.usePorts [(t, n)] false) t n).map fun s => fin s bs else none

/-- A store of the low n bytes of a value: it enters the store queue. -/
def storeEff (w : Wd) (s : State) (v va : W64) (n : Nat) : Option Eff :=
  (reach w s va n n .store).bind fun (t, s) =>
    let bs := leBytes n v.toNat
    if unwatched w s va bs true then
      let p : PendingStore :=
        { pa := s.paOf t, policy := t.policy, data := bs, pc := (s.seq w.k w.q).trapPc
          land := (s.windowStore w.k t).1, todo := (s.windowStore w.k t).2, begun := false }
      some { u := (s.modSeq w.k w.q fun q => { q with stores := q.stores ++ [p] }).chargeFt w.k t n }
    else none

/-- LD, ST, LDX, STX and QMARK. -/
def memoryWords : Effect := fun i w a s =>
  let n := fun r : BitVec 4 => 2 ^ (r.toNat % 4)
  match i, a with
  | .ld r, [a] => loadEff w s a (n r) 1 (4 ≤ r.toNat % 8)
  | .ldx r, [a, x] => loadEff w s (ofN (a.toNat + x.toNat * n r)) (n r) 2 (4 ≤ r.toNat % 8)
  | .st r, [v, a] => storeEff w s v a (n r)
  | .stx r, [v, a, x] => storeEff w s v (ofN (a.toNat + x.toNat * n r)) (n r)
  | .qmark _, [] => some { u := s.settle w.k w.q }
  | _, _ => none

/-- The new memory word of an atomic, or none where nothing is written. -/
def atomicNew (i : Instr) (fmt : Nat) (a : List W64) (m : W64) : Option W64 :=
  match i, a with
  | .aadd _, [_, v] => some (ofN (m.toNat + v.toNat))
  | .axchg _, [_, v] => some v
  | .acas _, [_, e, n] => if m = e then some n else none
  | .amin _, [_, v] => some (ofZ (min m.toInt v.toInt))
  | .amax _, [_, v] => some (ofZ (max m.toInt v.toInt))
  | .aminu _, [_, v] => some (ofN (min m.toNat v.toNat))
  | .amaxu _, [_, v] => some (ofN (max m.toNat v.toNat))
  | .aand _, [_, v] => some (ofN (m.toNat &&& v.toNat))
  | .aor _, [_, v] => some (ofN (m.toNat ||| v.toNat))
  | .axor _, [_, v] => some (ofN (m.toNat ^^^ v.toNat))
  | .afadd r, [_, v] => some (afaddNew (r.toNat % 4 % 3) (fmt = 1) m v)
  | _, _ => none

/-- The bytes an atomic reads and writes; none for another word. -/
def atomicSize (i : Instr) : Option Nat :=
  match i with
  | .aadd _ | .axchg _ | .acas _ | .amin _ | .amax _ | .aminu _ | .amaxu _ | .aand _ | .aor _ | .axor _ => some 8
  | .afadd r => some (if r.toNat % 4 = 2 then 8 else 4)
  | _ => none

/-- The sticky bits of AFADD's fallbacks. -/
def atomicFlags (i : Instr) (fmt : Nat) : BitVec 32 :=
  match i with
  | .afadd r => (if r.toNat % 4 = 3 then 0x400 else 0) ||| if 1 < fmt then 0x40 else 0
  | _ => 0

/-- An atomic: the sequencer's stores are performed and the core's version committed, then the step is performed at the home and the
old value returned; one at another module, with its reply. With every path to its pool memory lost it is not performed, and returns a free value
(log entry 4). -/
def atomicWords : Effect := fun i w a s =>
  let fmt := (w.px.fmt.map fun p => p.1).getD 0
  (atomicSize i).bind fun n =>
    let va := a.headD 0
    (reach w s va n n .atomic).bind fun (t, s) =>
      let s := ((s.settle w.k w.q).commit w.k).escape w.k
      let old := s.homeWord t n
      let new := atomicNew i fmt a old
      if s.cut t then
        some { u := linkLoss w (({ s with free := s.free + 1 } : State).chargeFt w.k t n), out := [Config.freeValue s.free], cost := 4,
               flags := atomicFlags i fmt }
      else if unwatched w s va (s.homeBytes t n) false && unwatched w s va (leBytes n (new.getD old).toNat) true
          && (s.replyDue w.k w.q t).isNone then
        (clean w (s.usePorts [(t, n)] false) t n).map fun s =>
          let s := match new with | some v => s.coreWrite w.k t (leBytes n v.toNat) | none => s
          { u := s.chargeFt w.k t n, out := [old], cost := 4, flags := atomicFlags i fmt }
      else none

/-- MWAIT where its wait is over, SIGPOST, SIGWAIT where the generation is reached, and SIGSET. With every path to its pool memory lost a SIGPOST
or a SIGSET completes without being performed (log entry 4). -/
def signalWords : Effect := fun i w a s =>
  let pub := fun s : State => ((s.settle w.k w.q).commit w.k).escape w.k
  match i, a with
  | .mwait _, [va, v] =>
    (reach w s va 8 8 .load).bind fun (t, s) =>
      let x := s.seq w.k w.q
      if x.monitor.isSome && x.woke then some { u := s }
      else if x.monitor.isSome then none
      else
        let s := s.settle w.k w.q
        let bs := s.viewBytes w.k t 8
        if unwatched w s va bs false && decide (ofN (leNat bs) ≠ v) then (clean w s t 8).map fun s => { u := s.chargeFt w.k t 8 } else none
  | .sigpost _, [va, n] =>
    (reach w s va 8 8 .atomic).bind fun (t, s) =>
      let s := pub s
      let bs := leBytes 8 (signalAdd (s.homeWord t 8) (n.setWidth 24)).toNat
      if s.cut t then some { u := linkLoss w (s.chargeFt w.k t 8), cost := 4 }
      else if unwatched w s va bs true then (clean w s t 8).map fun s => { u := (s.coreWrite w.k t bs).chargeFt w.k t 8, cost := 4 }
      else none
  | .sigwait _, [va, g] =>
    (reach w s va 8 8 .load).bind fun (t, s) =>
      let s := s.settle w.k w.q
      let bs := s.viewBytes w.k t 8
      if unwatched w s va bs false && genReached (BitVec.ofNat 16 (leNat bs / 2 ^ 48)) (g.setWidth 16) then
        (clean w s t 8).map fun s => { u := s.chargeFt w.k t 8 }
      else none
  | .sigset _, [va, v] =>
    (reach w s va 8 8 .atomic).bind fun (t, s) =>
      let s := pub s
      let bs := leBytes 8 v.toNat
      if s.cut t then some { u := linkLoss w (s.chargeFt w.k t 8), cost := 4 }
      else if unwatched w s va bs true then some { u := (s.coreWrite w.k t bs).chargeFt w.k t 8, cost := 4 }
      else none
  | _, _ => none

/-- NOP, and FENCE: on C and V it is complete when the sequencer's accesses are performed; on M and T an entry joins the engine's
queue. -/
def syncWords : Effect := fun i w a s =>
  match i, a with
  | .nop _, [] => some { u := s }
  | .fence _, [] =>
    let s := s.settle w.k w.q
    match w.q with
    | .m =>
      if (s.ctx w.k).me.queue.length < 8 then
        some { u := s.modMe w.k fun e => { e with queue := e.queue ++ [fenceM 0 w.pc w.fin] }, late := true }
      else none
    | .t =>
      if (s.ctx w.k).te.queue.length < 32 then
        some { u := s.modTe w.k fun e => { e with queue := e.queue ++ [fenceT 0 w.pc w.fin] }, late := true }
      else none
    | _ => some { u := s }
  | _, _ => none

/-! ### Queues, event slots and barriers (R95, R186 to R188) -/

/-- The bank of a queue word's binding, where it is a FIFO bank of this module that does not drain and does not darn the row of the entry, which
stands at `at_` of the bank. -/
def boundBank (w : Wd) (s : State) (r : BitVec 4) (at_ : Fifo → Option Nat) : Option CoreId :=
  match (s.regs w.k).q[(r8 r).val] with
  | some (.own b) =>
    if (s.core b).drain = 0 ∧ (s.core b).mode = .fifo ∧ ((at_ (s.core b).fifo).all fun off => !(s.core b).repair.holds off 16) = true then some b
    else none
  | _ => none

/-- A queue word's binding names a bank of another module. -/
def farBound (w : Wd) (s : State) (r : BitVec 4) : Bool :=
  match (s.regs w.k).q[(r8 r).val] with
  | some (.far _) => true
  | _ => false

/-- A popped entry is pushed on the stack, with what follows it: one of the ring, or one that stands in an overflow segment and is read there,
which consumes no poison (R325). -/
def popEff (w : Wd) (s : State) (b : CoreId) (e : (W64 × W64) ⊕ Nat) (f : Fifo) (more : List W64) : Option Eff :=
  let put := fun s : State => (s.modCore b fun c => { c with fifo := f }).chargeFt w.k (.bank b 0) 16
  match e with
  | .inl v => some { u := put s, out := v.1 :: v.2 :: more, cost := 2 }
  | .inr pa =>
    let s := (s.consume (entryTarget pa) 16).1
    some { u := put s, out := s.homeWord (entryTarget pa) 8 :: s.homeWord (entryTarget (pa + 8)) 8 :: more, cost := 2 }

/-- What a word finds at a queue of another module is a free choice (log entry 43): 0, no FIFO bank; 1, no room or no entry; 2, room or an
entry. -/
def farChoice (s : State) : Nat := Config.pick s.free % 3

/-- A pop from a queue of another module that finds an entry, whose two words are free (log entry 43). -/
def farPopEff (w : Wd) (s : State) (more : List W64) : Option Eff :=
  if farChoice s ≠ 2 then none
  else
    some { u := ({ s with free := s.free + 3 } : State).chargeFtUnits w.k 1
           out := Config.freeValue (s.free + 1) :: Config.freeValue (s.free + 2) :: more, cost := 2 }

/-- QPUSH, QPOP, QTRY, QBIND, EVBIND and BARG. What a queue of another module answers is log entry 43. -/
def queueWords : Effect := fun i w a s =>
  let pub := fun s : State => ((s.settle w.k w.q).commit w.k).escape w.k
  let q := fun (s : State) (r : BitVec 4) (b : Option QBank) => s.modRegs w.k fun g => { g with q := vput g.q (r8 r) b }
  let ev := fun (s : State) (r : BitVec 4) (e : EventSlot) => s.modRegs w.k fun g => { g with ev := vput g.ev (r4 r) e }
  match i, a with
  | .qpush r, [lo, hi] =>
    if farBound w s r then
      (if farChoice s = 2 then some { u := (pub { s with free := s.free + 1 }).chargeFtUnits w.k 1, cost := 2 } else none)
    else (boundBank w s r Fifo.pushAt).bind fun b =>
      match (s.core b).fifo.push (lo, hi) with
      | .done f at_ =>
        let s := pub s
        let s := match at_ with | some pa => s.homeWrite (entryTarget pa) (leBytes 8 lo.toNat ++ leBytes 8 hi.toNat) | none => s
        some { u := (s.modCore b fun c => { c with fifo := f }).chargeFt w.k (.bank b 0) 16, cost := 2 }
      | _ => none
  | .qpop r, [] =>
    if farBound w s r then farPopEff w s []
    else (boundBank w s r Fifo.popAt).bind fun b => (s.core b).fifo.pop.bind fun (e, f) => popEff w s b e f []
  | .qtry r, [] =>
    if farBound w s r then
      (if farChoice s = 1 then some { u := ({ s with free := s.free + 1 } : State).chargeFtUnits w.k 1, out := [0, 0, 0], cost := 2 }
       else farPopEff w s [1])
    else (boundBank w s r Fifo.popAt).bind fun b =>
      match (s.core b).fifo.pop with
      | some (e, f) => popEff w s b e f [1]
      | none => some { u := s.chargeFt w.k (.bank b 0) 16, out := [0, 0, 0], cost := 2 }
  | .qbind r, [a] =>
    if a = 0 then some { u := q s r none }
    else match s.bindBank w.k a with
      | .ok (b, e) => some { u := q (s.useTlb w.k e) r (some b) }
      | .error _ => none
  | .evbind r, [a, d, g] =>
    if a = 0 then some { u := ev s r { addr := 0, arm := g.setWidth 16, add := d.setWidth 24, pa := 0, pol := .cached } }
    else (reach w s a 8 8 .atomic).map fun (t, s) =>
      { u := ev s r { addr := a, arm := g.setWidth 16, add := d.setWidth 24, pa := s.paOf t, pol := t.policy } }
  | .barg _, [x] =>
    let g : BitVec 8 := x.setWidth 8
    ((s.members g).find? fun p => p.2 == w.k && (s.core w.k).node == some p.1).bind fun me =>
      let u := s.settle w.k w.q
      let e := u.bargsOf me g + 1
      let near := (s.members g).all fun p => sameCluster w.k p.2
      if (s.members g).all fun p => p == me || u.arrivedAt p g e then
        some { u := u.modCore w.k fun c => { c with barr := (g, e) :: c.barr.filter fun x => x.1 != g }
               next := fun t => if near then (u.earlierBargs w.k (s.members g) g e).foldl (fun t p => t.passBarg p g) t else t }
      else none
  | _, _ => none

end Sys2Proof.Claims

/-- R180, R120, R155: a load completes with the bytes that the sequencer's latest covering store, the core's version or the home
holds, extended as r says; a store enters its sequencer's queue with its bytes and its place; QMARK performs what is queued. -/
def Obligations.LoadsAndStoresComplete : Prop := Claims.Performs Claims.memoryWords

/-- R182, R183, R116, R170: an atomic that meets no watch, error or poison completes with the old value, and the new one stands at
the home; one at another module, once its reply has come (R355). With every path to its pool memory lost (R351) it completes with a free value, is
not performed and raises a deferred 0x38, which is the model's choice (log entry 4). -/
def Obligations.AtomicsCompleteWithTheOldValue : Prop := Claims.Performs Claims.atomicWords

/-- R119, R185, R118: the signal words complete with their effect: a monitored wait that is over, a post, a generation reached,
a set. With every path to its pool memory lost (R351) a post or a set completes with a deferred 0x38 and is not performed, which is the model's
choice (log entry 4). -/
def Obligations.SignalWordsComplete : Prop := Claims.Performs Claims.signalWords

/-- R171, R161, R181: NOP and FENCE complete, with their wait slot passed; a FENCE of M or T leaves an entry in its engine's
queue, which signals later; a NOP, and a FENCE of C or V, signals through the slot of its EVENT prefix as it completes. -/
def Obligations.SynchronisationWordsComplete : Prop := Claims.PerformsEvent Claims.syncWords ∧ Claims.PerformsSignal Claims.syncWords

/-- R95, R186, R187, R188: queue, slot and barrier words complete with their effect where the entry, the room or the members are
there; with the last arrival at a barrier of one cluster the arrivals that wait complete too. What a queue of another module gives is a free
choice of the model (log entry 43): where it has room a push completes, where it has an entry a pop completes with two free words. -/
def Obligations.QueueWordsComplete : Prop := Claims.Performs Claims.queueWords


namespace Sys2Proof.Claims

open Machine

/-! ### Ranges read sector by sector -/

/-- Pieces read in address order as plain loads: the bytes, and how many of them come from elsewhere than the own bank. -/
def readPieces (w : Wd) (l : List (Nat × Nat)) (al : Nat) (bs : List Byte) (far : Nat) (s : State) : Option (List Byte × Nat × State) :=
  match l with
  | [] => some (bs, far, s)
  | (va, n) :: rest =>
    (reach w s (BitVec.ofNat 64 va) n al .load).bind fun (t, s) =>
      let b := s.viewBytes w.k t n
      if unwatched w s (BitVec.ofNat 64 va) b false then
        (clean w s t n).bind fun s => readPieces w rest 1 (bs ++ b) (far + farBytes w.k t n) s
      else none

/-- Every page of a range passes the checks of R170, with the TLB entries used. -/
def checkPieces (w : Wd) (l : List (Nat × Nat)) (al : Nat) (s : State) : Option State :=
  match l with
  | [] => some s
  | (va, n) :: rest => (reach w s (BitVec.ofNat 64 va) n al .load).bind fun (_, s) => checkPieces w rest al s

/-- The n bytes from an address aligned to `al`: its pages are checked, the sequencer's stores performed, and the bytes read. -/
def readRange (w : Wd) (s : State) (va : W64) (n al : Nat) : Option (List Byte × Nat × State) :=
  (checkPieces w (cutRange 4096 va.toNat n) al s).bind fun s => readPieces w (cutRange 32 va.toNat n) al [] 0 (s.settle w.k w.q)

/-! ### Shared frames (R112 to R114, R189) -/

/-- The registered arena at an address, whose descriptor no watch meets. -/
def arenaOf (w : Wd) (s : State) (va : W64) : Option (Arena × State) :=
  (reach w s va 64 64 .load).bind fun (t, s) =>
    if s.arenas.contains (s.paOf t) && unwatched w s va (s.homeBytes t 64) false then some (s.arena (s.paOf t), s) else none

/-- PGSHARE, PGDROP and PGREFS where every unit passes its checks. -/
def mapWords : Effect := fun i w a s =>
  match i, a with
  | .pgshare _, [ar, d, v, n] =>
    if n = 0 then some { u := s, cost := 0 }
    else (arenaOf w s ar).bind fun (r, s) =>
      let root := (s.agent w.k).root
      let s := s.settle w.k w.q
      match s.shareChecks r root d.toNat v.toNat n.toNat with
      | .ok _ =>
        if n.toNat ≤ 65536 then
          let s := [Seq.c, .m, .v, .t].foldl (fun s q => s.settle w.k q) s
          let s := ((s.commit w.k).escape w.k).shareUnits r root d.toNat v.toNat n.toNat
          some { u := (s.invalidateTlb root v.toNat (n.toNat * 65536)).invalidateTlb root d.toNat (n.toNat * 65536), cost := 4 * n.toNat }
        else none
      | .error _ => none
  | .pgdrop _, [ar, v, n] =>
    if n = 0 then some { u := s, cost := 0 }
    else (arenaOf w s ar).bind fun (r, s) =>
      let root := (s.agent w.k).root
      match s.dropChecks r root v.toNat n.toNat with
      | .ok _ =>
        if n.toNat ≤ 65536 then
          some { u := ((s.escape w.k).dropUnits r root v.toNat n.toNat).invalidateTlb root v.toNat (n.toNat * 65536), cost := 4 * n.toNat }
        else none
      | .error _ => none
  | .pgrefs _, [ar, v] =>
    (arenaOf w s ar).bind fun (r, s) =>
      match s.unit r (s.agent w.k).root v.toNat false with
      | .ok (_, pte) => some { u := s, out := [ofN (s.homeLE (r.recs + 8 * ((bitsOf pte 51 12 * 4096 - r.fbase) / 65536)) 8 % 65536)], cost := 4 }
      | .error _ => none
  | _, _ => none

/-! ### Watches (R190 to R192) -/

/-- WPSET, WPCLR, WPSTAT and HRET. -/
def watchWords : Effect := fun i w a s =>
  match i, a with
  | .wpset r, [d] =>
    (readRange w s d 48 8).bind fun (bs, far, s) =>
      (s.nodeOf w.k).map fun n =>
        let x := s.setWatch n (r8 r) bs
        { u := x.2.chargeFtUnits w.k ((far + 127) / 128), out := [ofN x.1] }
  | .wpclr r, [] =>
    (s.nodeOf w.k).map fun n =>
      { u := (s.freshWatch n.id (r8 r)).modNode n.id fun x => { x with watch := vput x.watch (r8 r) none } }
  | .wpstat _, [x] =>
    let h := (s.core w.k).hook
    let of := fun f : Hook → W64 => match h with | some h => f h | none => 0
    some { u := s, out := [match x.toNat with
      | 0 => s.wpstat w.k 0
      | 1 => of fun h => ofN (h.watch.toNat + 8 * h.acc.toNat + if h.precise then 32 else 0)
      | 2 => of fun h => h.addr
      | 3 => of fun h => ofN h.pc.toNat
      | 4 => of fun h => ofN (h.seqn.toNat + 2 ^ 32 * h.row.toNat)
      | 5 => of fun h => if h.precise then 0 else h.who
      | _ => 0] }
  | .hret _, [] =>
    (s.core w.k).hook.map fun h =>
      { u := s, next := fun t =>
        (t.modCore w.k fun c => { c with hook := none, ctx := c.ctx.regBack h.ecc }).modSeq w.k .c fun r => r.leaveHook h.saved }
  | _, _ => none

/-! ### Fare, nodes and phases (R45, R56 to R64, R193 to R197, R305) -/

/-- FI as the word's own charge leaves it. -/
def fiLeft (w : Wd) (s : State) (cost : Nat) : Int :=
  max ((s.regs w.k).fi - (s.seq w.k w.q).owes cost) (-2147483648)

/-- FARETOP; STATION and YIELD, which are saved when the drain of a due task is over. -/
def fareWords : Effect := fun i w a s =>
  let station := fun (always : Bool) (k : W64) =>
    let pc := (s.seq w.k w.q).trapPc
    if (s.core w.k).yielding then
      if s.yieldReady w.k then some { u := s, next := fun t => t.yieldSave w.k k (if always then 1 else 0) pc } else none
    else
      let s := ((s.settle w.k w.q).commit w.k).escape w.k
      if always = false ∧ 0 < fiLeft w s 1 ∧ 0 < (s.regs w.k).ft then some { u := s } else none
  match i, a with
  | .faretop r, [q] =>
    let pool := match s.nodeOf w.k with | some n => n.desc.pool | none => 0
    if q.toInt ≤ 0 ∨ pool = 0 then some { u := s, out := [0] }
    else (reach w s pool 32 32 .atomic).bind fun (t, s) =>
      if s.right w.k 0 then
        let ft := decide (r.toNat % 2 = 1)
        let reg := if ft then (s.regs w.k).ft else fiLeft w s 1
        let off := if ft then 8 else 0
        let f := s.poolField t off
        let g := min q.toInt (min (max f 0) (2147483647 - reg))
        let bytes := fun v : Int => leBytes 8 (ofZ v).toNat
        if unwatched w s (pool + ofN off) (bytes f) false && unwatched w s (pool + ofN off) (bytes (f - g)) true then
          some { u := s.moveFare w.k t ft g, out := [ofZ g] }
        else none
      else none
  | .station _, [k] => station false k
  | .yield _, [k] => station true k
  | _, _ => none

/-- The descriptor of a SPAWN, with the bytes of it that come from elsewhere than the own bank: as it is read, or as it was read before the word
waited for its successor list. -/
def descriptor (w : Wd) (s : State) (d : W64) : Option (List Byte × Nat × State) :=
  match (s.seq w.k w.q).latch with
  | [] => readRange w s d 256 1
  | far :: ws => some (ws.flatMap fun v => leBytes 4 v.toNat, far.toNat, s)

/-- SPAWN, DEPDEC, FORK, RVZ and HALT where their waits are over. -/
def nodeWords : Effect := fun i w a s =>
  match i, a with
  | .spawn _, [d] =>
    let out := fun (s : State) (st : Nat) => ({ u := s.escape w.k, out := [ofN st], cost := 8 } : Eff)
    (descriptor w s d).bind fun (bs, far, s0) =>
      let s := s0.chargeFtUnits w.k ((far + 127) / 128)
      let fi := fiLeft w s 8
      let ft := (s.regs w.k).ft
      let p : Spawner :=
        { priv := s.ostler w.k, rights := (match s.nodeOf w.k with | some n => n.rights.extractLsb' 0 4 | none => 0)
          noFare := fun cfi cft g => decide (fi - g * cfi < 1) || decide (ft - g * cft < 1) }
      let st := s.spawnStatus p d.toNat bs
      if st ≠ 0 then some (out s st)
      else
        let dd := descOf bs d
        let n := bitsOf dd.deps.toNat 15 0
        let kept := s0.modSeq w.k w.q fun r => { r with latch := BitVec.ofNat 32 far :: wordsOf bs }
        (readRange w kept (BitVec.ofNat 64 (leAt bs 0x28 8)) (4 * n) 4).map fun (sb, _, s) =>
          let g : Int := bitsOf dd.ctrl.toNat 10 5
          let s := (s.chargeFtUnits w.k ((far + 127) / 128)).accept bs d (succOf n sb) (s.agent w.k).root
          out (s.modRegs w.k fun x => { x with fi := x.fi - g * dd.fi, ft := x.ft - g * dd.ft }) 0
  | .depdec _, [id, n] =>
    if bitsOf id.toNat 29 14 = 0 then
      some { u := (((s.settle w.k w.q).commit w.k).escape w.k).decrement (id.setWidth 32) (n.toNat % 2 ^ 24) }
    else none
  | .fork r, a =>
    let merge := decide (42 ≤ w.k.core.val)
    let plan := (forkPlan (r3 r) a).filter fun p => !(merge && p.1 == .m)
    if plan.all fun p => p.2.toNat % 2 = 0 ∧ (s.seq w.k p.1).run = .idle then
      some { u := plan.foldl (fun s p => s.modSeq w.k p.1 fun x => x.start p.2) s, flags := if merge ∧ r.getLsbD 0 then 0x200 else 0 }
    else none
  | .rvz _, [] =>
    let x := s.ctx w.k
    if w.q = .c then
      if [x.m, x.v, x.t].all fun y => y.started = false ∨ y.run = .parked then some { u := s.modCtx w.k Ctx.endRvz } else none
    else if w.q = .v ∧ x.landings ≠ [] then none
    else some { u := s, next := fun t => t.modSeq w.k w.q fun r => { r with run := .parked } }
  | .halt _, [] =>
    let x := s.ctx w.k
    if x.restIdle true ∧ !x.chainActive ∧ x.enginesIdle ∧ ((s.nodeOf w.k).bind fun n => s.poolHeld n w.k) = none then
      let s := [Seq.c, .m, .v, .t].foldl (fun s q => s.settle w.k q) s
      some { u := (s.commit w.k).escape w.k, next := fun t => (t.modSeq w.k w.q fun r => { r with run := .idle }).haltCore w.k }
    else none
  | _, _ => none

/-- FLIP, PHASE, SEGCHK and ERET. -/
def phaseWords : Effect := fun i w a s =>
  match i, a with
  | .flip r, [e, k] =>
    let x := s.ctx w.k
    let carried : BitVec 16 := k.setWidth 16
    if carried &&& ~~~x.tmask = 0 ∧ x.restIdle false ∧ x.enginesIdle then
      let s := ([Seq.c, .m, .v, .t].foldl (fun s q => s.settle w.k q) s).commit w.k
      some { u := if r.getLsbD 0 then s.modRegs w.k fun g => { g with bufa := g.bufb, bufb := g.bufa } else s,
             next := fun t => t.beginPhase w.k carried e }
    else none
  | .phase _, [m] =>
    let c := s.core w.k
    (modeOf (m.toNat % 4)).bind fun md =>
      if md = c.mode then some { u := s }
      else if c.mode = .fifo ∧ c.fifo.tail ≠ c.fifo.head then none
      else if c.withdrawn then some { u := s, flags := 0x10000 }
      else if 0 < c.drain then none
      else some { u := (s.settle w.k w.q).setMode w.k md }
  | .segchk _, [n, g] =>
    let q := s.seq w.k w.q
    if (n.toNat % 2 ^ 32 = 0 ∧ g.toNat % 2 ^ 32 = 0)
        ∨ (n.toNat % 2 ^ 32 = q.segCount % 2 ^ 32 ∧ g.toNat % 2 ^ 32 = 2 ^ 32 - 1 - q.segCrc.toNat) then
      some { u := s, next := fun t => t.modSeq w.k w.q fun r => { r with segCount := 0, segCrc := 0xFFFFFFFF#32 } }
    else none
  | .eret _, [] =>
    (s.core w.k).serving.map fun t =>
      { u := s, next := fun s => (s.modCore w.k fun c => { c with serving := none }).serviced t.1 }
  | _, _ => none

/-! ### Reliability and measurement (R199, R337, R338) -/

/-- TRCW, SCRUB, POISONQ, CSUM and TRIAL. -/
def reliabilityWords : Effect := fun i w a s =>
  match i, a with
  | .trcw _, [v] =>
    let r : TraceRec := { time := ofN s.now, kind := 1, seq := BitVec.ofNat 2 (seqCode w.q), pc := w.pc, seqn := 0, row := 0, val := v }
    some { u := s.modCore w.k fun c => { c with trace := c.trace.append r } }
  | .scrub _, [va] =>
    match s.translate (s.agent w.k).root (s.tlbOf w.k) va .load with
    | .ok (pa, pol, e) =>
      match s.target pa pol with
      | some (.bank k off) =>
        if k = w.k ∧ off < 0x1C0000 ∧ (s.core k).drain = 0 ∧ (s.core k).mode ≠ .cache ∧ (s.core k).repair.holds off 32 = false
            ∧ s.foldHeld k off 32 = false then
          let x := ((s.useTlb k e).settle w.k w.q).scrubSector k off
          some { u := x.2, out := [ofN x.1] }
        else none
      | _ => none
    | .error _ => none
  | .poisonq _, [va] =>
    (reach w s va 1 1 .load).bind fun (t, s) =>
      let s := s.settle w.k w.q
      if unwatched w s va (s.viewBytes w.k t 1) false then
        let x := s.peek t 1
        some { u := x.1.chargeFt w.k t 1, out := [if x.2 then 1 else 0] }
      else none
  | .csum _, [va, n] =>
    let n := n.toNat % 2 ^ 32
    (readRange w s va n 1).map fun (bs, far, s) =>
      { u := s.chargeFtUnits w.k ((far + 127) / 128), out := [ofN (crc32c bs).toNat], cost := 1 + (n + 1023) / 1024 }
  | .trial r, [lo, hi, d] =>
    if r.toNat % 2 = 0 then some { u := s, next := fun s => s.endTrial w.k }
    else if lo.toNat % 2 = 0 ∧ hi.toNat % 2 = 0 ∧ lo.toNat < hi.toNat ∧ d.toNat ≤ 4095 then
      some { u := s, next := fun s => (s.endTrial w.k).modCore w.k fun c =>
               { c with trial := some { lo := lo, hi := hi, d := d.toNat, inserted := 0 } } }
    else none
  | _, _ => none

end Sys2Proof.Claims

/-- R112 to R114, R189, R117: PGSHARE, PGDROP and PGREFS complete where every unit passes its checks, with 4 FI for each unit. -/
def Obligations.MapWordsComplete : Prop := Claims.Performs Claims.mapWords

/-- R190 to R192: the watch words complete: WPSET with its status, WPCLR, WPSTAT with the item, HRET with C's saved state back. -/
def Obligations.WatchWordsComplete : Prop := Claims.Performs Claims.watchWords

/-- R63, R64, R193: FARETOP with TOPR completes with the grant; STATION completes for a task that is not due, and for one whose drain
is over with its save; YIELD always saves. -/
def Obligations.FareWordsComplete : Prop := Claims.Performs Claims.fareWords

/-- R45, R48, R56, R57, R58, R194: SPAWN answers its status and accepts the node where it is 0; DEPDEC decrements; FORK starts its
sequencers; RVZ and HALT complete when their waits are over. -/
def Obligations.NodeWordsComplete : Prop := Claims.Performs Claims.nodeWords

/-- R195, R196, R197, R305: FLIP begins a phase, PHASE changes the bank's mode, SEGCHK begins a segment where count and signature
agree, ERET ends the service of the current record. -/
def Obligations.PhaseWordsComplete : Prop := Claims.Performs Claims.phaseWords

/-- R199, R327, R337, R338: TRCW, SCRUB, POISONQ, CSUM and TRIAL complete with their effect. -/
def Obligations.ReliabilityWordsComplete : Prop := Claims.Performs Claims.reliabilityWords


namespace Sys2Proof.Claims

open Machine

/-! ### The M engine's words (R232 to R257) -/

/-- A launch of M that passes its checks and waits for nothing: its sequencer's stores are performed, and the command is in the
queue. -/
def mLaunched (w : Wd) (l : MLaunch) (s : State) : Option Eff :=
  let x := s.ctx w.k
  let t := tokFields .m false (BitVec.ofNat 8 (bitsOf l.cmd.w[14].toNat 39 32))
  let pops := if w.px.tokens then w.px.pops else t.1
  let pushes := if w.px.tokens then w.px.pushes else t.2.1
  if l.foot = none ∧ l.bad = false ∧ (l.limits.all fun p => !p.2) ∧ x.launchWait l = none ∧ x.regs.tokRoom pushes = none
      ∧ x.me.queue.length < 8 then
    let s := s.settle w.k w.q
    let s := if l.sends then ((s.settle w.k w.q).commit w.k).escape w.k else s
    some { u := s.queueM w l pops pushes, cost := l.cost, flags := l.flags }
  else none

/-- The FI of a command on a number of slots (R155). -/
def slotCost (n : Nat) : Nat := 1 + (n + 7) / 8

/-- What the launch words of M check and ask for (R238, R239). -/
def mLaunch (i : Instr) (w : Wd) (a : List W64) (s : State) : Option MLaunch :=
  let x := s.ctx w.k
  let new := fun op : MOp => newM w x.me op
  let limit := fun (n : Nat) (b : Bool) => (ofN n, b)
  let slots := fun c : MCmd => c.span.1 + c.span.2
  match i, a with
  | .mloadb _, [] =>
    let c := new .loadB
    let f := bFmt (c.f 0 15 12)
    some { bad := w0Reserved c.w[0], limits := [limit 3 (c.w[3].toNat % 128 ≠ 0), limit 2 (bScaleBytes f.1 ≠ 0 ∧ c.w[2].toNat % 64 ≠ 0)],
           cost := 16, flags := f.2, cmd := c }
  | .mloadt r, [] =>
    let c := new .loadB
    let f := bFmt (c.f 0 15 12)
    let names := (List.range (bRowCount f.1 (c.w[0].getLsbD 2) * bRowBytes f.1 / 4096)).map fun j => r.toNat + j
    let ts := (tileNames names).map x.regs.phys
    some { foot := tilesFoot x (tileNames names), bad := w0Reserved c.w[0]
           limits := [limit 0 (names.any fun q => 15 < q), limit 2 (bScaleBytes f.1 ≠ 0 ∧ c.w[2].toNat % 64 ≠ 0)], cost := 5, flags := f.2
           reads := ts, cmd := { c with op := .loadT ts } }
  | .mrun _, [] => some (rowsLaunch w s false)
  | .mgather _, [] => some (rowsLaunch w s true)
  | .mdrain r, [] =>
    let c := new (.drain r)
    let dest := r.toNat % 4 % 3
    let f := drainFmt c.fmto
    let lv := c.levels c.slots
    some { foot := slotFoot x c.span, bad := w0Reserved c.w[0] || c.f 15 63 41 != 0 || c.f 0 26 25 == 3
           limits := [limit 15 (512 < slots c), limit 1 (dest = 1 ∧ c.f 1 3 0 ≠ 0), limit 5 (dest ≠ 2 ∧ c.f 5 3 0 ≠ 0),
                      limit 6 ((isMx f.1 ∨ dest = 2) ∧ c.f 6 0 0 ≠ 0)]
             ++ (List.range 6).map (fun j => limit (8 + j) (dest = 0 ∧ bitsOf (c.w.toList.getD (8 + j) 0).toNat 43 40 ≠ 0))
             ++ [limit 8 (dest = 0 ∧ levelProd lv ≠ c.slots)]
           cost := slotCost c.slots, sends := dest == 2, flags := (if dest = 2 then 0 else f.2) ||| if r.toNat % 4 = 3 then 0x400 else 0
           cmd := c }
  | .mzero _, [] =>
    let c := new .zero
    some { foot := slotFoot x c.span, bad := c.f 15 63 41 != 0, limits := [limit 15 (512 < slots c)], cost := slotCost c.slots, cmd := c }
  | .mreada r, [q, row] =>
    let o := slotOperand x q r
    let t := x.regs.phys r
    some { foot := o.1, limits := o.2, fill := some t, cmd := new (.readA t q.toNat (row.toNat % 32)) }
  | .mpatch r, [q, row, m] =>
    let o := slotOperand x q r
    let t := x.regs.phys r
    some { foot := o.1, limits := o.2 ++ [(m, decide (8 ≤ m.toNat) || m.toNat % 4 == 3)], reads := [t]
           cmd := new (.patch t q.toNat (row.toNat % 32) (m.extractLsb' 0 3)) }
  | _, _ => none

/-- MSET, MWAITC, MSTAT, the launch words, and the slot words of C inside a hook. -/
def matrixWords : Effect := fun i w a s =>
  let x := s.ctx w.k
  match i, a with
  | .mset r, [v] =>
    some { u := s.modMe w.k fun e =>
             { e with w := vput e.w (r4 r) (if r = 14 then ofN (e.w[14].toNat / 2 ^ 40 * 2 ^ 40 + v.toNat % 2 ^ 40) else v) } }
  | .mwaitc _, [n] => if (x.me.queue.filter fun c => c.op != .fence).length ≤ n.toNat then some { u := s } else none
  | .mstat _, [j, k] =>
    let v := match x.mRecord j.toNat with
      | some m => m.item k.toNat
      | none => if k = 0 then 0x100 else 0
    some { u := s, out := [v] }
  | _, _ =>
    if w.q = .m then (mLaunch i w a s).bind fun l => mLaunched w l s
    else
      match i, a with
      | .mreada r, [q, row] =>
        let t := x.regs.phys r
        if (slotOperand x q r).1 = none ∧ q.toNat < 512 ∧ !x.isLent t ∧ x.regSound (slotWords q.toNat) then
          some { u := s.modCtx w.k fun x => (x.readSlot q.toNat t (row.toNat % 32)).setFull t true }
        else none
      | .mpatch r, [q, row, m] =>
        let t := x.regs.phys r
        if (slotOperand x q r).1 = none ∧ q.toNat < 512 ∧ m.toNat < 8 ∧ m.toNat % 4 ≠ 3 ∧ !x.isLent t
            ∧ x.regSound (fun z => slotWords q.toNat z || tileWords t (row.toNat % 32) 1 z || tileWords t ((row.toNat % 32 + 1) % 32) 1 z) then
          let y := x.patchSlot q.toNat t (row.toNat % 32) (m.extractLsb' 0 3)
          some { u := s.setCtx w.k y.1, flags := if y.2 then 0x4000 else 0 }
        else none
      | _, _ => none

/-! ### The T engine's words, chains and dray packets (R200 to R231) -/

/-- A launch of T that finds room: stores performed, the version committed, the command in the queue. -/
def tLaunched (w : Wd) (l : TLaunch) (s : State) : Option Eff :=
  if (s.regs w.k).tokRoom w.px.pushes = none ∧ (s.ctx w.k).te.queue.length < 32 then
    some { u := (((s.settle w.k w.q).commit w.k).escape w.k).queueT w l, cost := l.cost, flags := l.flags }
  else none

/-- The FI of a word that moves bytes (R155). -/
def byteCost (n : Nat) : Nat := 1 + (n + 1023) / 1024

/-- A range of one bank of the core's cluster, within its bank proper: its pieces by bank key. -/
def bankPieces (w : Wd) (s : State) (l : List (Nat × Nat)) (x : Acc) (acc : List (Nat × Nat)) (bank : Option CoreId) :
    Option (List (Nat × Nat)) :=
  match l with
  | [] => some acc
  | (a, m) :: t =>
    match s.access w.k (BitVec.ofNat 64 a) m 1 x with
    | .ok (.bank k off, _) =>
      if sameCluster k w.k ∧ bank.all (· = k) ∧ off + m ≤ 0x1C0000 then bankPieces w s t x (acc ++ [(bankKey k off, m)]) (some k) else none
    | _ => none

/-- Pieces that all pass their checks. -/
def checked (w : Wd) (l : List (Nat × Nat)) (al : Nat) (x : Acc) (s : State) : Option State :=
  match l with
  | [] => some s
  | (va, n) :: t => (reach w s (BitVec.ofNat 64 va) n al x).bind fun r => checked w t al x r.2

/-- DSET, DCSUM, DWAIT, DSTAT, FOLDWAIT and T's launch words. -/
def transferWords : Effect := fun i w a s =>
  let x := s.ctx w.k
  let job := fun (kind : Fin 3) (r : BitVec 4) (table list n e other : W64) (arrival : Bool) (pair : Nat) (f : BitVec 4 × BitVec 4) =>
    gatherJob kind table list n.toNat e.toNat other (if r.toNat % 4 = 0 then 2 else if r.toNat % 4 = 1 then 4 else if r.toNat % 4 = 2 then 8 else 4)
      arrival pair f
  let fl := fun r : BitVec 4 => if r.toNat % 4 = 3 then (0x400 : BitVec 32) else 0
  let sized := fun (n e : W64) => decide (n.toNat ≤ 2 ^ 24 ∧ 1 ≤ e.toNat ∧ e.toNat ≤ 4096)
  let named : Option (BitVec 4) × BitVec 32 :=
    match w.px.fmt with
    | none => (none, 0)
    | some p => if p.1 = 15 then (some 0, 0x40) else (some (BitVec.ofNat 4 p.1), 0)
  match i, a with
  | .dset r, [v] => some { u := s.modTe w.k fun e => { e with w := vput e.w (r8 r) v } }
  | .dcsum _, [v, f] =>
    some { u := if f.toNat % 2 = 1 then s.modTe w.k fun e => { e with adler := v.setWidth 32 } else s, out := [ofN x.te.adler.toNat] }
  | .dwait _, [n] => if (x.te.queue.filter fun c => c.op != .fence).length ≤ n.toNat then some { u := s } else none
  | .dstat _, [j, k] =>
    let v := match x.tRecord j.toNat with
      | some m => m.item k.toNat
      | none => if k = 0 then 0x100 else 0
    some { u := s, out := [v] }
  | .foldwait _, [] => if x.te.queue.all fun c => c.foldJob.isNone then some { u := s } else none
  | .dcopy _, [] =>
    (copyOf x.te.image).bind fun j =>
      if leAt x.te.image 0 1 / 2 % 16 = 1 ∧ j.dims.length ≤ 3 then
        tLaunched w { op := .copy j, cost := byteCost j.total, arrival := j.arrival } s
      else none
  | .gatherr r, [t, i, n, e, d] =>
    let tagged := r.getLsbD 2
    if sized n e ∧ !(tagged ∧ (e ≠ 128 ∨ 42 ≤ w.k.core.val)) then
      let arrival := r.getLsbD 3 && !tagged
      let j := job 0 r t i n e d arrival (if tagged then x.te.pairs + 1 else 0) (0, 0)
      tLaunched w { op := .gather j, cost := byteCost (n.toNat * e.toNat), flags := fl r ||| named.2, arrival := arrival, tagged := tagged
                    fmt := named.1 } s
    else none
  | .scatterw r, [d, i, n, e, t] =>
    if sized n e then
      tLaunched w { op := .gather (job 1 r t i n e d false 0 (0, 0)), cost := byteCost (n.toNat * e.toNat), flags := fl r ||| named.2
                    fmt := named.1 } s
    else none
  | .scatadd r, [d, i, n, e, t] =>
    let f := scatFmts w.px
    if sized n e ∧ e.toNat % 4 = 0 ∧ t.toNat % 4 = 0 then
      tLaunched w { op := .gather (job 2 r t i n e d false 0 f.1), cost := byteCost (n.toNat * e.toNat), flags := fl r ||| f.2
                    fmt := named.1 } s
    else none
  | .fold r, [sv, d, g, y] =>
    let op := foldOp r
    if foldLimits op.1 g y = none then
      let size := foldRows g * foldRb g
      let dsize := if op.1 = 4 then foldRows g * foldDrb g else size
      (bankPieces w s (cutRange 4096 sv.toNat size) .load [] none).bind fun src =>
        (bankPieces w s (cutRange 4096 d.toNat dsize) .store [] none).bind fun dst =>
          (checked w (if op.1 = 1 then cutRange 4096 y.toNat (4 * foldRows g) else []) 1 .load s).bind fun s =>
            tLaunched w { op := .fold { op := op.1, src := src, dst := dst, g := g, x := y, since := s.now, started := false,
                                          left := (size + 255) / 256, poison := false }
                          cost := byteCost size, flags := op.2 } s
    else none
  | .mcast _, [sv, g, o, n] =>
    if 1 ≤ n.toNat ∧ n.toNat ≤ 1835008 ∧ o.toNat + n.toNat ≤ 0x1C0000 then
      tLaunched w { op := .mcast { src := sv, group := g.setWidth 8, off := o.toNat, n := n.toNat, members := none, sent := 0, poison := false }
                    cost := byteCost n.toNat } s
    else none
  | _, _ => none

/-- CHKICK, CHLINK, CHSTAT and DQAPP. -/
def chainWords : Effect := fun i w a s =>
  match i, a with
  | .chkick _, [k, e] =>
    let x : Fin 4 := ⟨k.toNat % 4, Nat.mod_lt _ (by decide)⟩
    let c := s.chainOf w.k x
    let done := fun (s : State) (st : W64) =>
      ({ u := s, out := [st], late := true, next := fun t => t.finish w.k { push := w.fin.push, sig := [], unbound := false } } : Eff)
    let go := fun (s : State) (e : W64) =>
      done (s.modChain w.k x fun c =>
        { c with st := .running, entry := e, img := [], job := none, met := false, pc := w.pc, q := w.q, faults := []
                 fin := { w.fin with push := [] } }) 0
    let busy := decide (c.st = .running ∨ c.st = .waiting ∨ c.st = .suspended)
    if e ≠ 0 then (reach w s e 128 128 .load).map fun _ => if busy then done s 1 else go s e
    else if busy then some (done s 1)
    else if c.st = .never then some (done s 2)
    else if c.st = .stopped then some (go s c.entry)
    else (reach w s (c.entry + 0x40) 8 8 .load).bind fun (t, s) =>
      let bs := s.viewBytes w.k t 8
      if unwatched w s (c.entry + 0x40) bs false then
        (clean w s t 8).map fun s =>
          let s := s.chargeFt w.k t 8
          if leNat bs = 0 then done s 2 else go s (ofN (leNat bs))
      else none
  | .chlink _, [e, n] =>
    (reach w s e 128 128 .atomic).bind fun _ => (reach w s (e + 0x40) 64 8 .atomic).bind fun (t, s) =>
      let s := ((s.settle w.k w.q).commit w.k).escape w.k
      if unwatched w s (e + 0x40) (leBytes 8 n.toNat) true then
        (clean w s (t.add 0x28) 8).map fun s =>
          let nrd := (s.homeWord (t.add 0x28) 8).getLsbD 7
          { u := (s.homeWrite t (leBytes 8 n.toNat)).chargeFt w.k t 8, out := [if nrd then 0 else 1] }
      else none
  | .chstat _, [k] =>
    let c := s.chainOf w.k ⟨k.toNat % 4, Nat.mod_lt _ (by decide)⟩
    some { u := s, out := [ofN (c.entry.toNat % 2 ^ 57 / 128 * 128 + chainCode c.st)] }
  | .dqapp _, [q, p, k] =>
    if k = 0 ∨ 3 < k.toNat then none
    else (reach w s q 64 64 .load).bind fun (t, s) => (reach w s (q + 0x10) 8 8 .atomic).bind fun (_, s) =>
      let append := fun (img : List Byte) (s : State) =>
        let pa := s.paOf t
        let n := k.toNat
        let moved := s.imageCopies w (s.queueMover (s.dray (BitVec.ofNat 52 pa)) 0) img n
        let cfg := s.qCfg pa
        let old := (s.seq w.k w.q).claim
        let i := old.getD (s.qField pa 0x10 8)
        let next := leBytes 8 ((i + n) % 2 ^ 64)
        let seen := unwatched w s q (s.homeBytes t 64) false
          && (old.isSome || (unwatched w s (q + 0x10) (s.homeBytes (t.add 0x10) 8) false && unwatched w s (q + 0x10) next true))
        let s := if old ≠ none then s else
          ((((s.settle w.k w.q).commit w.k).escape w.k).homeWrite (t.add 0x10) next).modSeq w.k w.q fun r => { r with claim := some i }
        if seen ∧ (cfgEnabled cfg ∨ old ≠ none) ∧ i + n - s.qField pa 0x18 8 ≤ 2 ^ cfgLog cfg ∧ s.ringHeld pa i n = false
            ∧ s.ringWatch w pa i n img = none then
          some ({ u := ((s.appendSlots pa i n img).noteSite w (BitVec.ofNat 52 pa) i n).chargeFtUnits w.k
                         ((s.ringFar w.k pa i n + 127) / 128 + moved.2)
                  out := [ofN i], cost := if moved.1 = 0 then 1 else byteCost moved.1 } : Eff)
        else none
      if w.q = .t ∧ p = 0 ∧ k = 1 then
        (if (s.ctx w.k).regSound fun z => z.file == .shadow && z.q == .t then append (s.ctx w.k).te.image s else none)
      else (readRange w s p (64 * k.toNat) 8).bind fun (img, _, s) => append img s
  | _, _ => none

end Sys2Proof.Claims

/-- R232 to R239, R254, R257: the words of M complete with their effect: a launch that passes R232's checks and waits for nothing
leaves its command, with its tokens and events bound, in M's queue. -/
def Obligations.MatrixWordsComplete : Prop := Claims.Performs Claims.matrixWords

/-- R200, R201, R218, R220, R224 to R231: the words of T complete with their effect: a launch within its limits that finds room
leaves its command in T's queue, and the version is committed. -/
def Obligations.TransferWordsComplete : Prop := Claims.Performs Claims.transferWords

/-- R205, R223: CHKICK, CHLINK, CHSTAT and DQAPP complete with their effect and status. -/
def Obligations.ChainWordsComplete : Prop := Claims.PerformsEvent Claims.chainWords


namespace Sys2Proof.Claims

open Machine

/-! ### Ports, tiles and lanes (R33 to R35, R261, R262, R270 to R273) -/

/-- The row a port's binding addresses. -/
def portRow (p : Port) : Nat := (p.start.toNat + p.cur.toNat) % 32

/-- A result on its way to the row a port addresses. -/
def flight (w : Wd) (n : Fin 8) (p : Port) (left off : Nat) (data : List Byte) (mask : Byte) (fromC : Bool) (s : State) : State :=
  let l : Landing := { left := left, replay := false, port := n, tile := p.tile, row := portRow p, off := off, data := data, mask := mask, fromC := fromC,
                       ended := false, fin := w.fin }
  s.modCtx w.k fun x => { x with landings := x.landings ++ [l] }

/-- A port can be read; it can be written. -/
def portMode (p : Port) : Bool × Bool := (p.mode = 1 ∨ p.mode = 3, p.mode = 2 ∨ p.mode = 3)

/-- A code among those accepted, or code 0 with WFMT. -/
def fmtElse (l : List Nat) (c : Nat) : Nat × BitVec 32 := if c ∈ l then (c, 0) else (0, 0x40)

/-- PBIND, PSTEP, PREAD, the lane words, VWAIT, TFREE, TFILL and TWAITF. -/
def portWords : Effect := fun i w a s =>
  let x := s.ctx w.k
  let port := fun r : BitVec 4 => x.regs.port[(r8 r).val]
  let tile := fun (r : BitVec 4) (ok : BitVec 4 → Bool) (f : Ctx → BitVec 4 → Ctx) =>
    let t := x.regs.phys r
    if x.tmask.getLsbD t.toNat ∧ ok t then some ({ u := s.modCtx w.k fun x => f x t } : Eff) else none
  let lane := [0, 1, 2, 3, 4, 11, 12, 13, 14]
  match i, a with
  | .pbind r, [v] =>
    let mode : BitVec 2 := v.extractLsb' 18 2
    let t := x.regs.phys (v.extractLsb' 0 4)
    let f := fmtElse (List.range 15) (match w.px.fmt with | some p => p.1 | none => bitsOf v.toNat 17 14)
    if v.toNat < 2 ^ 30 ∧ bitsOf v.toNat 8 4 = 0 ∧ (mode = 0 ∨ x.tmask.getLsbD t.toNat) ∧ x.bindWait mode t = none then
      let p : Port := { cur := v.extractLsb' 25 5, stride := v.extractLsb' 20 5, mode := mode, fmt := BitVec.ofNat 4 f.1
                        start := v.extractLsb' 9 5, tile := t }
      some { u := (s.modCtx w.k fun x => x.endBinding (r8 r)).modRegs w.k fun g => { g with port := vput g.port (r8 r) p }, flags := f.2 }
    else none
  | .pstep r, [] =>
    let p := port r
    if p.mode = 0 then some { u := s, flags := 0x80 }
    else some { u := s.modRegs w.k fun g => { g with port := vput g.port (r8 r) { p with cur := BitVec.ofNat 5 (p.cur.toNat + p.stride.toNat) } } }
  | .pread r, [] =>
    let p := port r
    some { u := s, out := [ofN (p.cur.toNat * 2 ^ 25 + p.stride.toNat * 2 ^ 20 + p.mode.toNat * 2 ^ 18 + p.fmt.toNat * 2 ^ 14
                                + p.start.toNat * 2 ^ 9 + p.tile.toNat)] }
  | .vsplat r, [v] =>
    let p := port r
    if (portMode p).2 then
      let f := fmtElse lane p.fmt.toNat
      let b := elemBits f.1
      some { u := flight w (r8 r) p 2 0 (packElems b (List.replicate (1024 / b) v.toNat) 128) 0xFF false s, flags := f.2, late := true }
    else some { u := s, flags := 0x80 }
  | .vlane r, [k] =>
    let p := port r
    if (portMode p).1 then
      let f := fmtElse lane p.fmt.toNat
      let b := elemBits f.1
      let c := unpackElem b (x.tiles.readBytes (4096 * p.tile.toNat + 128 * portRow p) 128) (k.toNat % (1024 / b))
      some { u := s, out := [if f.1 = 11 ∨ f.1 = 13 then ofZ (sintOf b c) else ofN c], flags := f.2 }
    else some { u := s, out := [0], flags := 0x80 }
  | .vputl r, [v, k] =>
    let p := port r
    if (portMode p).2 then
      let f := fmtElse lane p.fmt.toNat
      let b := elemBits f.1
      let j := k.toNat % (1024 / b)
      let u := if b = 2 then
          flight w (r8 r) p 2 (j / 4) [BitVec.ofNat 8 (v.toNat % 4 * 4 ^ (j % 4))] (BitVec.ofNat 8 (3 * 4 ^ (j % 4))) false s
        else flight w (r8 r) p 2 (j * (b / 8)) (leBytes (b / 8) v.toNat) 0xFF false s
      some { u := u, flags := f.2, late := true }
    else some { u := s, flags := 0x80 }
  | .vwait _, [] => if (x.landings.all fun l => l.fromC) ∧ x.moves.all fun m => m.q != .v then some { u := s } else none
  | .tfree r, [] => tile r (fun t => !x.isLent t) fun x t => { x with full := x.full &&& ~~~(1#16 <<< t.toNat) }
  | .tfill r, [] => tile r (fun _ => true) fun x t => { x with full := x.full ||| (1#16 <<< t.toNat) }
  | .twaitf r, [] => tile r (fun t => x.full.getLsbD t.toNat) fun x _ => x
  | _, _ => none

/-- Rows read as plain loads, and the FT they cost. -/
def readRows (w : Wd) (l : List Nat) (n : Nat) (rows : List (List Byte)) (ft : Nat) (s : State) : Option (List (List Byte) × Nat × State) :=
  match l with
  | [] => some (rows, ft, s)
  | va :: t => (readPieces w (cutRange 32 va n) 1 [] 0 s).bind fun (bs, far, s) => readRows w t n (rows ++ [bs]) (ft + (far + 127) / 128) s

/-- TLD and TST of rows `first` to `first` + n − 1 at a, a + s, …; TLD's rows are read now and land when it is complete, TST's enter the
store queue now. -/
def tileMoves : Effect := fun i w a s =>
  match a with
  | [va, st, n] =>
    let x := s.ctx w.k
    let cnt := n.toNat % 64
    let first := bitsOf n.toNat 12 8
    let rows := (List.range cnt).map fun j => (va.toNat + j * st.toNat) % 2 ^ 64
    let f := moveFmt w.px
    let len := match f.1 with | none => 128 | some (m, t) => 1024 / elemBits t * elemBits m / 8
    let fits := decide (1 ≤ cnt ∧ cnt + first ≤ 32 ∧ n.toNat = cnt + 256 * first ∧ st.toNat % 16 = 0)
    let near := fun s : State => rows.all fun va => (cutRange 4096 va len).all fun p => s.nearVa w.k (BitVec.ofNat 64 p.1)
    let pc := (s.seq w.k w.q).trapPc
    let ends := fun (s : State) (m : TileMove) (ft : Nat) =>
      ({ u := (s.modCtx w.k fun x => { x with moves := x.moves ++ [m] }).chargeFtUnits w.k ft, cost := 1 + (cnt + 7) / 8, flags := f.2
         late := true } : Eff)
    match i with
    | .tld r =>
      let t := x.regs.phys r
      if fits ∧ x.tmask.getLsbD t.toNat ∧ !x.full.getLsbD t.toNat then
        (checked w (rows.flatMap fun va => cutRange 128 va len) 16 .load s).bind fun s =>
          (readRows w rows len [] 0 (s.settle w.k w.q)).map fun (bs, ft, s) =>
            ends s { q := w.q, load := true, tile := t, row := first, count := cnt, rows := bs.map (rowIn f.1 w.px), near := near s, pc := pc,
                      fin := w.fin } ft
      else none
    | .tst r =>
      let t := x.regs.phys r
      if fits ∧ x.tmask.getLsbD t.toNat ∧ x.full.getLsbD t.toNat ∧ x.regSound (tileWords t first cnt) then
        (checked w (rows.flatMap fun va => cutRange 128 va len) 16 .store s).bind fun s =>
          let data := (List.range cnt).map fun j => rowOut f.1 w.px (x.tileRow t (first + j))
          let ps := (rows.zip data).flatMap fun p => rowPieces p.1 p.2
          if ps.all fun p => unwatched w s (BitVec.ofNat 64 p.1) p.2 true then
            let ft := (rows.map fun va => s.rowFt w.k (cutRange 128 va len)).sum
            let s := ps.foldl (fun s p => s.storePiece w.k w.q p.1 p.2) s
            some (ends s { q := w.q, load := false, tile := t, row := first, count := cnt, rows := [], near := near s, pc := pc,
                            fin := w.fin } ft)
          else none
      else none
    | _ => none
  | _ => none

/-! ### V-format words (R156, R260 to R269) -/

/-- The destination port of a V-format word and its latency (R263). -/
def vLatency (i : Instr) : Option (BitVec 3 × Nat) :=
  match i with
  | .vclr d _ _ => some (d, 1)
  | .vmov d _ _ | .vpk24 d _ _ => some (d, 2)
  | .vadd d _ _ | .vsub d _ _ | .vmin d _ _ | .vmax d _ _ | .vabs d _ _ | .vneg d _ _ | .vand d _ _ | .vor d _ _ | .vxor d _ _
  | .vshl d _ _ | .vshr d _ _ | .vsar d _ _ | .vclt d _ _ | .vceq d _ _ | .vsel d _ _ | .vcvt d _ _ | .vbcast d _ _ | .vshuf d _ _
  | .vscale d _ _ => some (d, 3)
  | .vmul d _ _ | .vdqmx d _ _ => some (d, 4)
  | .vfma d _ _ => some (d, 5)
  | .vqmx d _ _ => some (d, 6)
  | .vsumr d _ _ | .vmaxr d _ _ => some (d, 8)
  | .vrcp d _ _ | .vrsq d _ _ => some (d, 12)
  | .vexp2 d _ _ | .vlog2 d _ _ => some (d, 14)
  | _ => none

/-- A source row: that of its port, or zeros with PUNB. -/
def source (x : Ctx) (p : BitVec 3) : List Byte × BitVec 32 :=
  let b := x.regs.port[p.toNat]
  if (portMode b).1 then (x.tiles.readBytes (4096 * b.tile.toNat + 128 * portRow b) 128, 0) else (List.replicate 128 0, 0x80)

/-- A source row in the word's format: WFMT where the port is bound with another. -/
def sourceAs (x : Ctx) (p : BitVec 3) (f : Nat) : List Byte × BitVec 32 :=
  let b := x.regs.port[p.toNat]
  let r := source x p
  (r.1, r.2 ||| if b.mode ≠ 0 ∧ b.fmt.toNat ≠ f then 0x40 else 0)

/-- The lane codes of a row. -/
def codes (f : Nat) (bs : List Byte) : List Nat := unpackElems (elemBits f) bs (1024 / elemBits f)

/-- A row of lane codes. -/
def rowOf (f : Nat) (l : List Nat) : List Byte := packElems (elemBits f) l 128

/-- The formats a lane word accepts on d. -/
def vFormats (i : Instr) : List Nat :=
  match i with
  | .vadd _ _ _ | .vsub _ _ _ | .vmul _ _ _ | .vfma _ _ _ | .vmin _ _ _ | .vmax _ _ _ | .vabs _ _ _ | .vneg _ _ _ | .vclt _ _ _
  | .vceq _ _ _ | .vsumr _ _ _ | .vmaxr _ _ _ => [0, 1, 2, 11, 12, 13]
  | .vshl _ _ _ | .vshr _ _ _ | .vsar _ _ _ | .vsel _ _ _ | .vbcast _ _ _ | .vshuf _ _ _ => [0, 1, 2, 3, 4, 11, 12, 13]
  | .vexp2 _ _ _ | .vlog2 _ _ _ | .vrcp _ _ _ | .vrsq _ _ _ | .vscale _ _ _ => [0, 1, 2]
  | _ => List.range 15

/-- A lane of two sources: the exact result, rounded or clamped to the lane's format. -/
def laneTwo (i : Instr) (l : Lane) (x y : Nat) : Option Nat :=
  let a := elemNum l.f x
  let b := elemNum l.f y
  let put := fun n : Machine.Num => some (toElem n l.f l.rnd l.sat)
  let ones := 2 ^ elemBits l.f - 1
  match i with
  | .vadd _ _ _ => put (a.add b l.rnd)
  | .vsub _ _ _ => put (a.add b.negate l.rnd)
  | .vmul _ _ _ => put (a.mul b)
  | .vmin _ _ _ => some (l.pickMin false x y)
  | .vmax _ _ _ => some (l.pickMin true x y)
  | .vshl _ _ _ => some (x * 2 ^ (y % elemBits l.f) % 2 ^ elemBits l.f)
  | .vshr _ _ _ => some (x / 2 ^ (y % elemBits l.f))
  | .vsar _ _ _ => some ((BitVec.ofNat (elemBits l.f) x).sshiftRight (y % elemBits l.f)).toNat
  | .vclt _ _ _ => some (if a.lt b then ones else 0)
  | .vceq _ _ _ => some (if a.eq b then ones else 0)
  | _ => none

/-- A lane of one source. -/
def laneOne (i : Instr) (l : Lane) (x : Nat) : Option Nat :=
  let proc := fun g : BitVec 32 → BitVec 32 => some (toElem (fp32Num (g (rneFp32 (elemNum l.f x)))) l.f l.rnd l.sat)
  match i with
  | .vabs _ _ _ => some (l.sign false x)
  | .vneg _ _ _ => some (l.sign true x)
  | .vexp2 _ _ _ => proc exp2Fp32
  | .vlog2 _ _ _ => proc log2Fp32
  | .vrcp _ _ _ => proc rcpFp32
  | .vrsq _ _ _ => proc rsqFp32
  | _ => none

/-- The destination row of a V-format word and its sticky bits. -/
def vRow (i : Instr) (x : Ctx) (px : Px) : Option (List Byte × BitVec 32) :=
  let bound := fun d : BitVec 3 => x.regs.port[d.toNat].fmt.toNat
  let as := fun d : BitVec 3 => fmtElse (vFormats i) (bound d)
  let lane := fun f : Nat => ({ f := f, rnd := px.rnd, sat := px.sat } : Lane)
  let one := fun (d a : BitVec 3) =>
    let f := as d
    let ra := sourceAs x a f.1
    some (rowOf f.1 ((codes f.1 ra.1).map fun c => (laneOne i (lane f.1) c).getD 0), f.2 ||| ra.2)
  let two := fun (d a b : BitVec 3) =>
    let f := as d
    let ra := sourceAs x a f.1
    let rb := sourceAs x b f.1
    some (rowOf f.1 (List.zipWith (fun c e => (laneTwo i (lane f.1) c e).getD 0) (codes f.1 ra.1) (codes f.1 rb.1)), f.2 ||| ra.2 ||| rb.2)
  let three := fun (d a b : BitVec 3) (g : Lane → Nat → Nat → Nat → Nat) =>
    let f := as d
    let ra := sourceAs x a f.1
    let rb := sourceAs x b f.1
    let rd := source x d
    some (rowOf f.1 (List.zipWith (fun p c => g (lane f.1) p.1 p.2 c) ((codes f.1 ra.1).zip (codes f.1 rb.1)) (codes f.1 rd.1)),
      f.2 ||| ra.2 ||| rb.2 ||| rd.2)
  let bits := fun (d a b : BitVec 3) (g : Byte → Byte → Byte) =>
    let f := as d
    let ra := sourceAs x a f.1
    let rb := sourceAs x b f.1
    some (List.zipWith g ra.1 rb.1, f.2 ||| ra.2 ||| rb.2)
  let tree := fun (d a : BitVec 3) (g : Lane → Nat → Nat → Nat) =>
    let f := as d
    let ra := sourceAs x a f.1
    let cs := codes f.1 ra.1
    some (rowOf f.1 (treeFold 7 (g (lane f.1)) cs :: List.replicate (cs.length - 1) 0), f.2 ||| ra.2)
  match i with
  | .vclr d _ _ => some (List.replicate 128 0, (as d).2)
  | .vmov d a _ => let ra := sourceAs x a (as d).1; some (ra.1, (as d).2 ||| ra.2)
  | .vadd d a b | .vsub d a b | .vmul d a b | .vmin d a b | .vmax d a b | .vshl d a b | .vshr d a b | .vsar d a b | .vclt d a b
  | .vceq d a b => two d a b
  | .vabs d a _ | .vneg d a _ | .vexp2 d a _ | .vlog2 d a _ | .vrcp d a _ | .vrsq d a _ => one d a
  | .vfma d a b =>
    three d a b fun l x y z => toElem (((elemNum l.f x).mul (elemNum l.f y)).add (elemNum l.f z) l.rnd) l.f l.rnd l.sat
  | .vsel d a b => three d a b fun _ x y z => if z = 0 then y else x
  | .vand d a b => bits d a b fun p q => p &&& q
  | .vor d a b => bits d a b fun p q => p ||| q
  | .vxor d a b => bits d a b fun p q => p ^^^ q
  | .vsumr d a _ => tree d a fun l x y => toElem ((elemNum l.f x).add (elemNum l.f y) l.rnd) l.f l.rnd l.sat
  | .vmaxr d a _ => tree d a fun l => l.pickMin true
  | .vbcast d a b =>
    let f := as d
    let ra := sourceAs x a f.1
    let rb := sourceAs x b f.1
    let ca := codes f.1 ra.1
    some (rowOf f.1 (ca.map fun _ => ca.getD ((codes f.1 rb.1).headD 0 % ca.length) 0), f.2 ||| ra.2 ||| rb.2)
  | .vshuf d a b =>
    let f := as d
    let ra := sourceAs x a f.1
    let rb := sourceAs x b f.1
    some (rowOf f.1 ((codes f.1 rb.1).map fun j => (codes f.1 ra.1).getD j 0), f.2 ||| ra.2 ||| rb.2)
  | .vscale d a b =>
    let f := as d
    let ra := sourceAs x a f.1
    let rb := source x b
    some (rowOf f.1 (List.zipWith (fun c n => toElem ((elemNum f.1 c).scale (sintOf (elemBits f.1) n)) f.1 px.rnd px.sat)
      (codes f.1 ra.1) (codes f.1 rb.1)), f.2 ||| ra.2 ||| rb.2)
  | .vcvt d a b =>
    let lane := [0, 1, 2, 3, 4, 11, 12, 13, 14]
    let fs := fmtElse lane (match px.fmt with | some p => p.1 | none => bound a)
    let fd := fmtElse lane (match px.fmt with | some p => p.2 | none => bound d)
    let ra := source x a
    let rb := source x b
    let n := 1024 / elemBits fd.1
    let cs := (codes fs.1 ra.1 ++ codes fs.1 rb.1).take n
    let out := cs.map fun c => convElem c fs.1 fd.1 px.rnd px.sat
    some (rowOf fd.1 (out ++ List.replicate (n - out.length) 0),
      fs.2 ||| fd.2 ||| ra.2 ||| rb.2 ||| if fs.1 = 14 ∧ 2 ∈ cs then 0x800 else 0)
  | .vqmx d a b =>
    let f := mxOr px (bound d)
    let ra := source x a
    if isMx f.1 then
      let rb := source x b
      let q := fun r : List Byte => mxq ((codes 0 r).map fun c => decodeFloat fp32 c) f.1
      let y := q ra.1
      let z := q rb.1
      some (mxRow f.1 y.2.1 y.1 z.2.1 z.1, f.2 ||| ra.2 ||| rb.2 ||| if y.2.2 ∨ z.2.2 then 0x1000 else 0)
    else some (ra.1, f.2 ||| ra.2 ||| 0x40)
  | .vdqmx d a _ =>
    let g := mxOr px (bound a)
    let f : Nat × BitVec 32 := if isMx g.1 then (g.1, 0) else (5, 0x40)
    let fd := fmtElse [0, 1, 2] (bound d)
    let ra := source x a
    let blk := fun (j : Nat) =>
      (unpackElems (elemBits f.1) ((ra.1.drop (j * (4 * elemBits f.1))).take (4 * elemBits f.1)) 32).map fun c =>
        toElem (mxdq f.1 (leAt ra.1 (126 + j) 1) c) fd.1 (if fd.1 = 0 then 0 else px.rnd) px.sat
    some (rowOf fd.1 (if fd.1 = 0 then blk 0 else blk 0 ++ blk 1), g.2 ||| f.2 ||| fd.2 ||| ra.2)
  | .vpk24 d a b =>
    let ra := source x a
    let rb := source x b
    let quads := fun bs : List Byte => (List.range 64).map fun j => leAt bs (2 * j) 1 % 4 + 4 * (leAt bs (2 * j + 1) 1 % 4)
    some (packElems 4 (quads ra.1) 32 ++ packElems 4 (quads rb.1) 32 ++ List.replicate 64 0, (as d).2 ||| ra.2 ||| rb.2)
  | _ => none

/-- A V-format word puts its row in flight to the row port d addresses; through a port that cannot be written nothing lands, with
PUNB. -/
def vectorWords : Effect := fun i w a s =>
  match a with
  | [] =>
    (vLatency i).bind fun (d, lat) =>
      let x := s.ctx w.k
      let p := x.regs.port[d.toNat]
      (vRow i x w.px).map fun (row, fl) =>
        if (portMode p).2 then { u := flight w ⟨d.toNat, d.isLt⟩ p lat 0 row 0xFF false s, flags := fl, late := true }
        else { u := s, flags := fl ||| 0x80 }
  | _ => none

/-! ### Fibres (R36, R274 to R277) -/

/-- A load of fibre j by its word: the little-endian value. One it has made while it was blocked is not made, nor charged, again; one from
another module is outstanding until it is performed there (R276). -/
def fibreLoad (w : Wd) (s : State) (j : Fin 8) (va : W64) (n : Nat) : Option (Nat × State) :=
  match s.madeRead w j va n with
  | some r => r.value.map fun v => (v, s)
  | none =>
    (reach w s va n n .load).bind fun (t, s) =>
      let x := s.loadBytes w.k w.q t n
      let bs := x.2.getD (x.1.viewBytes w.k t n)
      let kept := fun s : State =>
        s.noteRead w { fib := j, va := va, n := n, pa := x.1.paOf t, near := x.1.nearVa w.k va, carry := false, poison := false, value := some (leNat bs) }
      if unwatched w x.1 va bs false then
        let s := x.1.chargeFt w.k t n
        if x.2.isSome then some (leNat bs, kept s)
        else match t with
          | .remote _ => none
          | _ => (clean w s t n).map fun s => (leNat bs, kept s)
      else none

/-- Entries of a fibre: none where it is closed. -/
def entries (f : Fibre) : Nat := if f.opened then f.len.toNat else 0

/-- The coordinate of entry i: counted from CBASE, or read. -/
def coordOf (w : Wd) (s : State) (j : Fin 8) (i : Nat) : Option (W64 × State) :=
  let f := s.fib w.k j
  let n := if f.cw then 4 else 2
  if f.dense then some (f.cbase + BitVec.ofNat 64 i, s)
  else (fibreLoad w s j (f.cbase + BitVec.ofNat 64 (i * n)) n).map fun (v, s) => (ofN v, s)

/-- The raw value of entry i. -/
def valueOf (w : Wd) (s : State) (j : Fin 8) (i : Nat) : Option (Nat × State) :=
  let f := s.fib w.k j
  let n := elemBits f.vfmt.toNat / 8
  fibreLoad w s j (f.vbase + if f.dense then BitVec.ofNat 64 i * f.vstr.signExtend 64 else BitVec.ofNat 64 (i * n)) n

/-- SEEK: the position goes to the first entry from it on whose coordinate is not less than c. -/
def seek (fuel : Nat) (w : Wd) (s : State) (j : Fin 8) (c : W64) : Option State :=
  let f := s.fib w.k j
  if f.dense then
    some (if (f.cbase + BitVec.ofNat 64 f.pos).toNat < c.toNat then s.setPos w j (min (entries f) (c - f.cbase).toNat) else s)
  else
    match fuel with
    | 0 => none
    | fuel + 1 =>
      if entries f ≤ f.pos then some s
      else (coordOf w s j f.pos).bind fun (v, s) => if v.toNat < c.toNat then seek fuel w (s.setPos w j (f.pos + 1)) j c else some s

/-- MATCH: 1 at a common coordinate, 0 at an end. -/
def meet (fuel : Nat) (w : Wd) (s : State) (x y : Fin 8) : Option (W64 × State) :=
  match fuel with
  | 0 => none
  | fuel + 1 =>
    let fx := s.fib w.k x
    let fy := s.fib w.k y
    if entries fx ≤ fx.pos ∨ entries fy ≤ fy.pos then some (0, s)
    else (coordOf w s x fx.pos).bind fun (a, s) => (coordOf w s y fy.pos).bind fun (b, s) =>
      if a = b then some (1, s)
      else if a.toNat < b.toNat then (seek (entries fx - fx.pos + 1) w s x b).bind fun s => meet fuel w s x y
      else (seek (entries fy - fy.pos + 1) w s y a).bind fun s => meet fuel w s x y

/-- The lanes of FROW: n coordinates or converted values from entry i on. -/
def rowEntries (n : Nat) (w : Wd) (s : State) (j : Fin 8) (i : Nat) (coords : Bool) (f : Nat) : Option (List Nat × State) :=
  match n with
  | 0 => some ([], s)
  | n + 1 =>
    (if coords then (coordOf w s j i).map fun (v, s) => (v.toNat % 2 ^ elemBits f, s)
      else (valueOf w s j i).map fun (v, s) => (convElem v (s.fib w.k j).vfmt.toNat f w.px.rnd w.px.sat, s)).bind fun (c, s) =>
        (rowEntries n w s j (i + 1) coords f).map fun (l, s) => (c :: l, s)

/-- The fibre words, where no other sequencer's word awaits reads through one of their fibres (R36, R276). -/
def fibreWords : Effect := fun i w a s =>
  let fib := fun r : BitVec 4 => s.fib w.k (r8 r)
  if s.fibAhead w.k w.q (fibresOf i) ≠ none then none
  else
  match i, a with
  | .fopen r, [d] =>
    (fibreLoad w s (r8 r) d 32).bind fun (v, s) =>
      let bs := leBytes 32 v
      let f := fmtElse [0, 1, 2, 3, 4, 11, 12, 13] (match w.px.fmt with | some p => p.1 | none => bitsOf (leAt bs 24 8) 11 8)
      (fibreOf bs f.1).map fun x => { u := s.setFib w.k (r8 r) x, flags := f.2 }
  | .fadv r, [] => some { u := s.setFib w.k (r8 r) { fib r with pos := min ((fib r).pos + 1) (entries (fib r)) } }
  | .fclose r, [] => some { u := s.setFib w.k (r8 r) { fib r with opened := false, pos := 0 } }
  | .fseek r, [c] => (seek (entries (fib r) - (fib r).pos + 1) w s (r8 r) c).map fun s => { u := s }
  | .fend r, [] => some { u := s, out := [if (fib r).pos = entries (fib r) then 1 else 0] }
  | .fcrd r, [] =>
    if entries (fib r) ≤ (fib r).pos then some { u := s, out := [ofZ (-1)] }
    else (coordOf w s (r8 r) (fib r).pos).map fun (v, s) => { u := s, out := [v] }
  | .fval r, [] =>
    let f := (fib r).vfmt.toNat
    if entries (fib r) ≤ (fib r).pos then some { u := s, out := [0] }
    else (valueOf w s (r8 r) (fib r).pos).map fun (v, s) =>
      { u := s, out := [if f = 11 ∨ f = 13 then ofZ (sintOf (elemBits f) v) else ofN v] }
  | .fmatch r, [] =>
    let y : Fin 8 := ⟨(r.toNat + 1) % 8, Nat.mod_lt _ (by decide)⟩
    let g := s.fib w.k y
    (meet (entries (fib r) - (fib r).pos + 1 + (entries g - g.pos + 1)) w s (r8 r) y).map fun (m, s) => { u := s, out := [m] }
  | .frow r, [k] =>
    let j := r8 r
    let x := fib r
    let pn : Fin 8 := ⟨k.toNat % 8, Nat.mod_lt _ (by decide)⟩
    let p := (s.regs w.k).port[pn.val]
    let f := fmtElse [0, 1, 2, 3, 4, 11, 12, 13] p.fmt.toNat
    let n := 1024 / elemBits f.1
    let pass := fun s : State => s.setFib w.k j { s.fib w.k j with pos := min (entries x) (x.pos + n) }
    if 16 ≤ k.toNat then none
    else
      (rowEntries (min n (entries x - x.pos)) w s j x.pos (k.getLsbD 3) f.1).map fun (l, s) =>
        let row := packElems (elemBits f.1) (l ++ List.replicate (n - l.length) 0) 128
        if (portMode p).2 then { u := pass (flight w pn p 1 0 row 0xFF (w.q == .c) s), flags := f.2, late := true }
        else { u := pass s, flags := f.2 ||| 0x80 }
  | _, _ => none

end Sys2Proof.Claims

/-- R270, R261, R33, R34, R273: port, lane and full/empty words complete with their effect; a lane written through a port is in flight
for 2 cycles. -/
def Obligations.PortWordsComplete : Prop := Claims.Performs Claims.portWords

/-- R272, R33, R34, R60: TLD and TST within their limits, on a tile that is empty or full as they need it, complete at issue with
their move under way. -/
def Obligations.TileMovesComplete : Prop := Claims.PerformsEvent Claims.tileMoves

/-- R260 to R269, R82, R162: a V-format word completes, and its row, computed lane by lane in the word's format, is in flight for
R263's latency. -/
def Obligations.VectorWordsComplete : Prop := Claims.PerformsEvent Claims.vectorWords

/-- R274 to R277, R36: the fibre words complete with their effect. -/
def Obligations.FibreWordsComplete : Prop := Claims.Performs Claims.fibreWords


namespace Sys2Proof.Claims

open Machine

/-! ### The Mangle's words (R278 to R296) -/

/-- A value and its poison, as MGEXPAND reads them: poison is carried. A read made while the word was blocked is not made again. -/
def peekLoad (w : Wd) (s : State) (j : Fin 8) (va : W64) (n : Nat) : Option (Nat × Bool × State) :=
  match s.madeRead w j va n with
  | some r => r.value.map fun v => (v, r.poison, s)
  | none =>
    (reach w s va n n .load).bind fun (t, s) =>
      let x := s.loadBytes w.k w.q t n
      let bs := x.2.getD (x.1.viewBytes w.k t n)
      let kept := fun (p : Bool) (s : State) =>
        (leNat bs, p, s.noteRead w { fib := j, va := va, n := n, pa := x.1.paOf t, near := x.1.nearVa w.k va, carry := true, poison := p
                                     value := some (leNat bs) })
      if unwatched w x.1 va bs false then
        let s := x.1.chargeFt w.k t n
        if x.2.isSome then some (kept false s)
        else match t with
          | .remote _ => none
          | _ => some (kept (s.consumeBy w.k t n).2.isSome (s.consumeBy w.k t n).1)
      else none

/-- Coordinate, value and poison of entry i of a fibre. -/
def peekEntry (w : Wd) (s : State) (j : Fin 8) (i : Nat) : Option (W64 × Machine.Num × Bool × State) :=
  let f := s.fib w.k j
  let n := elemBits f.vfmt.toNat / 8
  let m := if f.cw then 4 else 2
  let off := if f.dense then BitVec.ofNat 64 i * f.vstr.signExtend 64 else BitVec.ofNat 64 (i * n)
  (if f.dense then some (f.cbase + BitVec.ofNat 64 i, s)
    else (peekLoad w s j (f.cbase + BitVec.ofNat 64 (i * m)) m).map fun x => (ofN x.1, x.2.2)).bind fun (c, s) =>
      (peekLoad w s j (f.vbase + off) n).map fun (v, p, s) => (c, elemNum f.vfmt.toNat v, p, s)

/-- A pair of entries: its record is sent, with 1 FI for each 64, or counted as out of range. -/
def sendPair (w : Wd) (x : SessIx) (ci cj : W64) (v : BitVec 32) (p : Bool) (s : State) : Option State :=
  if ci.toNat < 2 ^ 24 ∧ cj.toNat < 2 ^ 24 then
    match s.mgSend x (mgRec w.k (ofN (ci.toNat * 2 ^ 24 + cj.toNat)) false p [v]) with
    | (s, true) =>
      let s := s.modSeq w.k w.q fun r => { r with expand := (r.expand.1, r.expand.2 + 1) }
      some (if (s.seq w.k w.q).expand.2 % 64 = 0 then s.chargeFi w.k 1 else s)
    | (_, false) => none
  else some (s.modSess x fun se => { se with status := se.status ||| mgOOR, discarded := se.discarded + 1 })

/-- The pairs of an entry of x with y's. -/
def sendRow (fuel : Nat) (w : Wd) (x : SessIx) (fy : Fin 8) (ci : W64) (vi : Machine.Num) (pi : Bool) (s : State) : Option State :=
  match fuel with
  | 0 => none
  | fuel + 1 =>
    let y := s.fib w.k fy
    let j := y.pos + (s.seq w.k w.q).expand.1
    if entries y ≤ j then some s
    else (peekEntry w s fy j).bind fun (cj, vj, pj, s) =>
      (sendPair w x ci cj (rneFp32 (vi.mul vj)) (pi || pj) s).bind fun s =>
        sendRow fuel w x fy ci vi pi (s.modSeq w.k w.q fun r =>
          { r with expand := (r.expand.1 + 1, r.expand.2), skip := 0, reads := r.reads.filter fun z => z.fib != fy })

/-- Every pair of an entry of x and an entry of y. -/
def sendAll (fuel : Nat) (w : Wd) (x : SessIx) (fx fy : Fin 8) (s : State) : Option State :=
  match fuel with
  | 0 => none
  | fuel + 1 =>
    let f := s.fib w.k fx
    let y := s.fib w.k fy
    let next := fun s : State =>
      sendAll fuel w x fx fy ((s.setPos w fx (f.pos + 1)).modSeq w.k w.q fun r => { r with expand := (0, r.expand.2) })
    if entries f ≤ f.pos then some s
    else if entries y ≤ y.pos + (s.seq w.k w.q).expand.1 then next s
    else (peekEntry w s fx f.pos).bind fun (ci, vi, pi, s) => (sendRow (entries y - y.pos + 1) w x fy ci vi pi s).bind next

/-- The words of the Mangle where the handle is live and the session takes what is sent. -/
def mangleWords : Effect := fun i w a s =>
  let pub := fun s : State => ((s.settle w.k w.q).commit w.k).escape w.k
  match i, a with
  | .mgopen _, [d] =>
    (readRange w s d 128 1).bind fun (bs, far, s) =>
      let s := s.chargeFtUnits w.k ((far + 127) / 128)
      let c := s.cluster w.k.die w.k.cluster
      let se := sessOf bs d
      let no := fun n : Nat => some ({ u := s, out := [0, ofN n] } : Eff)
      match c.freeSlot with
      | none => no 1
      | some j =>
        if c.noOpen ∧ c.sess.toList.all (fun x => x.st == .free) then no 1
        else if c.places - (c.sess.toList.map fun x => if x.st = .free then 0 else x.cap).sum < se.1.cap then no 2
        else if se.2 then no 3
        else
          let x : SessIx := (w.k.die, w.k.cluster, j)
          let s := (s.escape w.k).modSess x fun old =>
            { se.1 with gen := nextGen old.gen, opener := (s.core w.k).node, root := (s.agent w.k).root, by_ := w.k }
          let se := s.sess x
          let head := leBytes 8 0 ++ leBytes 8 se.hsize.toNat ++ leBytes 4 0 ++ leBytes 4 se.dirn ++ leBytes 8 se.wpos ++ List.replicate 32 0
          match s.mgWrites (s.mgMover se) [(se.hamper.toNat, Machine.clean head)] with
          | .ok s => some { u := s.modSess x fun se => { se with header := false }, out := [se.handle x, 0] }
          | .error (.trap t) => some { u := s.mgTrap x t, out := [se.handle x, 0] }
          | .error _ => none
  | .mgput r, [h, key, v] =>
    (s.live w.k h).bind fun x =>
      let y := mgValue w.px v
      if key.toNat < 2 ^ 48 then
        match (pub s).mgSend x (mgRec w.k key false false [y.1]) with
        | (s, true) => some { u := if r.getLsbD 0 then s.mgEndStream x w.k else s, flags := y.2 }
        | (_, false) => none
      else none
  | .mgrow r, [h, key, row] =>
    (s.live w.k h).bind fun x =>
      let c := s.ctx w.k
      let t := c.regs.phys r
      let latch := (s.seq w.k w.q).latch
      if c.tmask.getLsbD t.toNat ∧ key.toNat < 2 ^ 48
          ∧ (latch ≠ [] ∨ c.full.getLsbD t.toNat
            ∧ c.regSound fun z => tileWords t (row.toNat % 32) 1 z || tileWords t ((row.toNat % 32 + 1) % 32) 1 z) then
        match (pub s).mgSend x (mgRec w.k key true false (if latch = [] then c.rowPair t row else latch)) with
        | (s, true) => some { u := s }
        | (_, false) => none
      else none
  | .mgend _, [h] => (s.live w.k h).map fun x => { u := s.mgEndStream x w.k }
  | .mgclose r, [h] =>
    if (s.seq w.k w.q).held.isSome ∧ s.live w.k h = none then some { u := s }
    else (s.live w.k h).bind fun x =>
      if r.getLsbD 0 then none
      else some { u := (pub s).modSess x fun se =>
                    ({ se with status := se.status ||| mgCLOSED, st := if se.st = .opened then .closing else se.st } : Session).tryMerge }
  | .mgstat r, [h] => (s.live w.k h).map fun x => { u := s, out := [(s.sess x).item r.toNat] }
  | .mgspill r, [h] =>
    (s.live w.k h).map fun x =>
      { u := s.modSess x fun se =>
          if se.st = .opened ∨ se.st = .closing ∨ se.st = .merging then
            if r.getLsbD 0 then se.spillAll else { se with wantSpill := se.wantSpill + 1 }
          else se }
  | .mgexpand r, [h] =>
    (s.live w.k h).bind fun x =>
      if s.fibAhead w.k w.q (fibresOf i) ≠ none then none
      else
      let s := pub s
      let f := s.fib w.k (r8 r)
      (sendAll (entries f - f.pos + 1) w x (r8 r) ⟨(r.toNat + 1) % 8, Nat.mod_lt _ (by decide)⟩ s).map fun s => { u := s }
  | _, _ => none

end Sys2Proof.Claims

/-- R278 to R284, R291 to R296: the words of the Mangle complete: MGOPEN with its status, MGPUT, MGROW and MGEXPAND once the session
has taken their records, MGEND, MGCLOSE, MGSTAT and MGSPILL with their effect. -/
def Obligations.MangleWordsComplete : Prop := Claims.Performs Claims.mangleWords

namespace Sys2Proof.Claims

open Machine

/-! ### Operations and events of the table: what each leads to -/

/-- Event i leads from s to a state of which p holds. -/
def Gives (i : Instr) (s : State) (p : State → Prop) : Prop := ∃ t, Leads i s t ∧ p t

/-- From s to t nothing changes but core k. -/
def OnlyCore (k : CoreId) (s t : State) : Prop := t = { s with cores := t.cores } ∧ ∀ j, j ≠ k → t.core j = s.core j

/-- Memory and what the L2 holds of it are as they were. -/
def SameMemory (s t : State) : Prop := t.mem = s.mem ∧ t.l2 = s.l2 ∧ t.stale = s.stale ∧ t.poison = s.poison ∧ t.ecc = s.ecc

/-- The bytes that stand at a target: a bank byte, or a pool byte under CACHED. -/
def plainTarget (t : Target) : Bool :=
  match t with
  | .bank _ _ => true
  | .pool _ .cached => true
  | _ => false

/-! #### The Stand (R29, R39, R52, R53) -/

/-- What the clear engine leaves on core k for a node n that has just been placed there. -/
def Cleared (k : CoreId) (n : Node) (s t : State) : Prop :=
  let x := t.ctx k
  let y := s.ctx k
  OnlyCore k s t
    ∧ x.c.run = .running ∧ x.c.pc = n.desc.code.setWidth 57 ∧ x.c.stack = []
    ∧ x.c.hold = 8 * ((List.range 16).filter fun i => n.desc.tmask.getLsbD i).length + (n.desc.accn + 1) / 2 + 4
    ∧ x.m.run = .idle ∧ x.v.run = .idle ∧ x.t.run = .idle
    ∧ x.regs.s.toList = [n.desc.args, n.desc.va, ofN (n.cores.idxOf k), ofN n.gang] ++ List.replicate 12 0
    ∧ x.regs = { Regs.reset with s := x.regs.s, fi := n.desc.fi, ft := n.desc.ft
                                 tb := { value := 0, owner := if 42 ≤ k.core.val then 2 else 1 } }
    ∧ (∀ a, x.tiles.read a = if n.desc.tmask.getLsbD (a / 4096) then 0 else y.tiles.read a)
    ∧ (∀ j, x.full.getLsbD j = (y.full.getLsbD j && !n.desc.tmask.getLsbD j))
    ∧ (∀ a, x.acc.read a = if a < 256 * n.desc.accn then 0 else y.acc.read a)
    ∧ (∀ j, j < n.desc.accn → x.kind.getLsbD j = false ∧ x.pois.getLsbD j = false)
    ∧ x.te.adler = 1 ∧ (∀ c ∈ x.chain.toList, c.adler = 1 ∧ c.st = .never)

/-- A die none of whose clusters is reserved. -/
def unreserved (s : State) (d : Die) : Prop := ∀ c, (s.cluster d c).reserved = none

end Sys2Proof.Claims

/-- R39, R29: the clear engine. R52: the Stand places the node that is ready where it fits, and moves no node that stands on a core.
R53: a gang ready for 256 µs reserves the eligible cluster with the most free cores of its kind; a node that no cluster has been able to hold
for 10 ms is reported with cause 0x19, once. -/
def Obligations.StandPlacesAndReserves : Prop :=
  (∀ (s : State) (n : Node), s.nodeOf s.arg.k = some n → n.st = .placed → (s.ctx s.arg.k).c.run = .idle →
    (s.core s.arg.k).haltLine = false → (s.core s.arg.k).saved = none → n.saves = [] →
      Claims.Gives .clearEngine s (Claims.Cleared s.arg.k n s))
  ∧ (∀ s : State, Claims.Gives .dispatchStep s fun t =>
      Claims.SameMemory s t ∧ (∀ k, t.ctx k = s.ctx k) ∧ ∀ k m, (s.core k).node = some m → (t.core k).node = some m)
  ∧ (∀ (s : State) (n : Node) (c : Cluster) (l : List CoreId), s.readyPool s.arg.d = [n] → Claims.unreserved s s.arg.d →
      (∀ x ∈ (s.die s.arg.d).counters, x.bound ≠ some n.id) →
      (∀ j, s.fitsIn n j = if j = c then some l else none) → Leads .dispatchStep s (s.place n l))
  ∧ (∀ (s : State) (n : Node) (since : Nat), s.node s.arg.n = some n → n.st = .ready since → 2 ≤ n.gang → since + 576000 ≤ s.now →
      (∀ c, (s.cluster n.id.die c).reserved ≠ some n.id) → (∃ c, (s.cluster n.id.die c).reserved = none ∧ s.canHold n c = true) →
        Claims.Gives .gangReservation s fun t => ∃ c, (s.cluster n.id.die c).reserved = none ∧ s.canHold n c = true
          ∧ (t.cluster n.id.die c).reserved = some n.id
          ∧ (∀ j, j ≠ c → t.cluster n.id.die j = s.cluster n.id.die j)
          ∧ (∀ j, (s.cluster n.id.die j).reserved = none → s.canHold n j = true →
              (s.freeCores n.id.die j n.kind).length ≤ (s.freeCores n.id.die c n.kind).length)
          ∧ t = { s with clusters := t.clusters, events := t.events })
  ∧ (∀ (s : State) (n : Node) (since : Nat), s.node s.arg.n = some n → n.stuck = some since → since + 22500000 ≤ s.now →
      (s.die n.id.die).reported.contains n.id = false → (∀ c, s.canHold n c = false) →
        Claims.Gives .gangUnplaceableReport s fun t => ∃ r : TrapRec,
          (t.die n.id.die).fwd = (s.die n.id.die).fwd ++ [r] ∧ r.code = 0x19 ∧ r.wr = 0 ∧ r.ids = n.ids
            ∧ (t.die n.id.die).reported = n.id :: (s.die n.id.die).reported ∧ t = { s with dies := t.dies })

namespace Sys2Proof.Claims

open Machine

/-- The turn is that of the sequencer that the event's parameters name. -/
def onTurn (s : State) : State := { s with cur := (s.arg.k, s.arg.q) }

/-- The blocked word of the sequencer that the event's parameters name completes in s, when it is issued again, as `CompletesThen` says of word i
in its turn. -/
def ResumesThen (i : Instr) (s u : State) (n : Nat) (out : List W64) (cost : Nat) (fl : BitVec 32) (f : State → State) : Prop :=
  ∃ t sp, exec .waitCompletion s = .next { f t with cur := s.cur } ∧ wordSpec s.arg.q i = some sp ∧ OnlyIssue s.arg.k s.arg.q u t
    ∧ Advanced s.arg.k s.arg.q u t n out ((s.seq s.arg.k s.arg.q).pc + 2) cost ∧ Marks i sp (onTurn s) u t fl

/-- The sequencer that the event's parameters name is blocked on word i, and does not stand at a trap, a hook or a watch stop. -/
def Blocked (i : Instr) (s : State) : Prop := (s.seq s.arg.k s.arg.q).held = some i ∧ s.stands s.arg.k s.arg.q = false

/-- Where a blocked word may issue again and f gives its effect, its wait is over, and it completes with that effect. -/
def Resumes (f : Effect) : Prop :=
  ∀ (i : Instr) (s : State) (sp : Spec) (e : Eff), Blocked i s → wordSpec s.arg.q i = some sp → (onTurn s).Issues i sp →
    f i ((onTurn s).wd i sp) (popArgs (s.seq s.arg.k s.arg.q).stack sp.pops) (onTurn s) = some e →
      ResumesThen i s e.u sp.pops e.out e.cost e.flags e.next

/-- The same of words that take an EVENT prefix. -/
def ResumesEvent (f : Effect) : Prop :=
  ∀ (i : Instr) (s : State) (sp : Spec) (e : Eff), Blocked i s → wordSpec s.arg.q i = some sp → (onTurn s).Issues i sp →
    f i ((onTurn s).wd i sp) (popArgs (s.seq s.arg.k s.arg.q).stack sp.pops) (onTurn s) = some e →
    e.late = true ∨ ((onTurn s).px sp).signal = none →
      ResumesThen i s (e.u.passed s.arg.k ((onTurn s).px sp).wait) sp.pops e.out e.cost e.flags e.next

end Sys2Proof.Claims

/-- R70: a blocked word is issued again, and completes in the cycle in which its condition is true, exactly as the word does: a word whose rules
give its effect there, of every family whose words can block, has that effect and its sequencer goes on with the next word; a sequencer that is blocked on no word, or stands, stays as it is. R68, R69, R247: a wait that has passed its bound, or 10 ms beyond the cluster, traps with 0x18 or 0x19, or with 0x14 where it waits for rows;
the record names the reason and the object. R60, R65, R66: 256 blocked cycles charge 1 FI while FI is positive, and make a pre-emption point
where the fare is due; 256 cycles of a drain hold (R94) charge it whatever FI is. R119: a monitored wait may wake without a write. -/
def Obligations.WaitsEndAsTheyShould : Prop :=
  (∀ (i : Instr) (s t : State), (s.seq s.arg.k s.arg.q).held = some i → (encodeWord i).isSome = true → s.stands s.arg.k s.arg.q = false →
    exec i { s with cur := (s.arg.k, s.arg.q) } = .next t → Leads .waitCompletion s { t with cur := s.cur })
  ∧ (∀ s : State, (s.seq s.arg.k s.arg.q).held = none ∨ s.stands s.arg.k s.arg.q = true → Leads .waitCompletion s s)
  ∧ Claims.Resumes Claims.memoryWords ∧ Claims.Resumes Claims.atomicWords ∧ Claims.Resumes Claims.signalWords
  ∧ Claims.ResumesEvent Claims.syncWords ∧ Claims.Resumes Claims.queueWords ∧ Claims.Resumes Claims.mapWords
  ∧ Claims.Resumes Claims.watchWords ∧ Claims.Resumes Claims.fareWords ∧ Claims.Resumes Claims.nodeWords ∧ Claims.Resumes Claims.phaseWords
  ∧ Claims.Resumes Claims.reliabilityWords ∧ Claims.Resumes Claims.matrixWords ∧ Claims.Resumes Claims.transferWords
  ∧ Claims.ResumesEvent Claims.chainWords ∧ Claims.Resumes Claims.portWords ∧ Claims.Resumes Claims.tileMoves
  ∧ Claims.Resumes Claims.fibreWords ∧ Claims.Resumes Claims.mangleWords
  ∧ (∀ (s : State) (w : Wait), (s.seq s.arg.k s.arg.q).wait = some w → w.reason ≠ 0 → w.beyond = false → w.bound < w.stalled →
    ∃ i : TrapInfo, Leads .waitBoundExpiry s (s.takeTrap s.arg.k s.arg.q i)
      ∧ i.code = (if (s.rowsAwaited s.arg.k w).isSome then 0x14 else 0x18) ∧ i.cls = 0 ∧ i.wr = w.reason ∧ i.addr = w.object)
  ∧ (∀ (s : State) (w : Wait), (s.seq s.arg.k s.arg.q).wait = some w → w.reason ≠ 0 → w.beyond = true → 22500000 ≤ w.stalled →
    ∃ i : TrapInfo, Leads .watchdogExpiry s (s.takeTrap s.arg.k s.arg.q i)
      ∧ i.code = (if (s.rowsAwaited s.arg.k w).isSome then 0x14 else 0x19) ∧ i.cls = 0 ∧ i.wr = w.reason ∧ i.addr = w.object)
  ∧ (∀ (s : State) (w : Wait), (s.core s.arg.k).yielding = false → (s.seq s.arg.k s.arg.q).wait = some w → w.blocked % 256 = 0 →
      0 < w.blocked → w.reason = 0 ∨ 0 < (s.regs s.arg.k).fi →
        Claims.Gives .blockedCycleCharge s fun t => t = { s with cores := t.cores }
          ∧ (t.regs s.arg.k).fi = max ((s.regs s.arg.k).fi - 1) (-2147483648)
          ∧ (w.reason ≠ 0 → (s.core s.arg.k).hook = none → (s.regs s.arg.k).fi = 1 ∨ (s.regs s.arg.k).ft ≤ 0 →
              ∀ j ∈ s.gangOf s.arg.k, (t.core j).preempt.isSome = true))
  ∧ (∀ s : State, Claims.Gives .spuriousWake s fun t => Claims.OnlyCore s.arg.k s t
      ∧ (t.seq s.arg.k s.arg.q) = { s.seq s.arg.k s.arg.q with
           woke := (s.seq s.arg.k s.arg.q).woke || (s.seq s.arg.k s.arg.q).monitor.isSome })

/-- R64: the Ostler's policy grants a waiting FARETOP an amount within the bound, which moves from the pool's field to the register, and
FARETOP returns it. The top-up of a node that has no pool changes no fare: it stays switched out while a register of it is due. With a pool,
a due FI takes the smaller of the grant field and the pool's field, and TOPUPS counts it; that it takes no more than the register has room for is
the model's choice (log entry 18). -/
def Obligations.FareMovesFromThePool : Prop :=
  (∀ (s : State) (r : BitVec 4) (n : Node) (p : Target), s.MemoryForm → (s.seq s.arg.k .c).held = some (.faretop r) → s.nodeOf s.arg.k = some n →
    s.poolTarget n s.arg.k = some p → Claims.plainTarget p = true → 0 < ((s.seq s.arg.k .c).stack.headD 0).toInt →
    1 ≤ (s.seq s.arg.k .c).paid → (if r.getLsbD 0 then (s.regs s.arg.k).ft else (s.regs s.arg.k).fi) ≤ 2147483647 →
      Claims.Gives .faretopPolicyGrant s fun t => ∃ g : Int, 0 ≤ g ∧ g ≤ ((s.seq s.arg.k .c).stack.headD 0).toInt
        ∧ g ≤ max (s.poolField p (if r.getLsbD 0 then 8 else 0)) 0
        ∧ g ≤ 2147483647 - (if r.getLsbD 0 then (s.regs s.arg.k).ft else (s.regs s.arg.k).fi)
        ∧ (t.regs s.arg.k).ft = (s.regs s.arg.k).ft + (if r.getLsbD 0 then g else 0)
        ∧ (t.regs s.arg.k).fi = (s.regs s.arg.k).fi + (if r.getLsbD 0 then 0 else g)
        ∧ t.poolField p (if r.getLsbD 0 then 8 else 0) = s.poolField p (if r.getLsbD 0 then 8 else 0) - g
        ∧ (t.seq s.arg.k .c).stack = Claims.ofZ g :: (s.seq s.arg.k .c).stack.drop 1
        ∧ (t.seq s.arg.k .c).pc = (s.seq s.arg.k .c).pc + 2 ∧ (t.seq s.arg.k .c).run = .running)
  ∧ (∀ (s : State) (n : Node), s.node s.arg.n = some n → n.st = .due → n.desc.pool = 0 → savesDue n.saves = true →
      Claims.Gives .topupRetry s fun t => Claims.SameMemory s t ∧ t.cores = s.cores
        ∧ (∃ m, t.node s.arg.n = some m ∧ m.st = .due ∧ m.saves = n.saves ∧ m.noticed = true)
        ∧ (n.noticed = true → t.dies = s.dies))
  ∧ (∀ (s : State) (n : Node), s.node s.arg.n = some n → n.st = .due → n.desc.pool = 0 → savesDue n.saves = false →
      Claims.Gives .topupRetry s fun t => Claims.SameMemory s t ∧ t.cores = s.cores
        ∧ (∃ m, t.node s.arg.n = some m ∧ m.st = .resumable s.now ∧ m.saves = n.saves)
        ∧ t.events = s.events ++ [(.dispatchStep, { d := s.arg.n.die })])
  ∧ (∀ (s : State) (n : Node) (k : CoreId) (v : Saved) (p : Target), s.MemoryForm → s.node s.arg.n = some n → n.st = .due → n.saves = [(k, v)] →
      s.poolTarget n k = some p → Claims.plainTarget p = true → v.ctx.regs.fi ≤ 0 → 0 < v.ctx.regs.ft → 0 < s.poolField p 0 →
        Claims.Gives .topupRetry s fun t =>
          let g := min ((s.homeWord (p.add 16) 4).toNat : Int) (min (s.poolField p 0) (2147483647 - v.ctx.regs.fi))
          (∃ m, t.node s.arg.n = some m ∧ m.saves = [(k, { v with ctx := { v.ctx with regs := { v.ctx.regs with fi := v.ctx.regs.fi + g } } })])
            ∧ t.poolField p 0 = s.poolField p 0 - g ∧ t.homeWord (p.add 24) 8 = s.homeWord (p.add 24) 8 + 1)

/-- R308: at a command boundary with a pre-emption due, the context is saved with its cause. R312: the copy-out frees the core, its bank in
CACHE mode, and the node keeps the save, once no fault of the copy is left to be serviced. R313: a node placed again has its context, version, bank
mode, window and keep regions back. -/
def Obligations.ContextsAreSavedAndRestored : Prop :=
  (∀ (s : State) (cause : BitVec 8), (s.core s.arg.k).preempt = some cause → (s.core s.arg.k).hook = none → (s.core s.arg.k).hit = none →
    (s.core s.arg.k).saved = none → (s.core s.arg.k).node.isSome = true → (s.ctx s.arg.k).atBoundary = true →
    (s.ctx s.arg.k).engineBoundary = true → s.treeClear s.arg.k = true → s.inTrapService s.arg.k = false →
      Claims.Gives .hardPreemption s fun t => (t.core s.arg.k).preempt = none ∧ ∃ v, (t.core s.arg.k).saved = some v ∧ v.cause = cause
        ∧ v.ctx.regs.s = (s.regs s.arg.k).s ∧ v.ctx.c.pc = (s.seq s.arg.k .c).undo.pc ∧ v.ctx.c.stack = (s.seq s.arg.k .c).stack
        ∧ v.mode = (s.core s.arg.k).mode ∧ (.saveCopyOut, { k := s.arg.k }) ∈ t.events)
  ∧ (∀ (s : State) (v : Saved) (n : Node), (s.core s.arg.k).saved = some v → s.nodeOf s.arg.k = some n → n.cores = [s.arg.k] → n.saves = [] →
      v.cause = 0x3F → ((s.core s.arg.k).mode = .scratch → v.told = true ∨ s.keepFaults n = []) → s.copyFault s.arg.k = false →
        Claims.Gives .saveCopyOut s fun t => (t.core s.arg.k).node = none ∧ (t.core s.arg.k).saved = none ∧ (t.core s.arg.k).mode = .cache
          ∧ ∃ m keep bad segs gone, t.node n.id = some m ∧ m.st = .resumable s.now
              ∧ m.saves = [(s.arg.k, { v with keep := keep, keepPoison := bad, segs := segs, winPoison := gone, told := false
                                              win := s.mem.slice (bankKey s.arg.k 0x1C0000) 0x40000 })])
  ∧ (∀ (s : State) (n : Node), s.node s.arg.n = some n → n.st = .placed → n.saves ≠ [] → (∀ x ∈ n.saves, (s.core x.1).node = some n.id) →
      (n.saves.map fun x => x.1).Nodup →
        Claims.Gives .resumeRestore s fun t => (∃ m, t.node n.id = some m ∧ m.saves = [])
          ∧ ∀ x ∈ n.saves, (t.ctx x.1).regs = x.2.ctx.regs ∧ (t.ctx x.1).c.pc = x.2.ctx.c.pc ∧ (t.ctx x.1).c.stack = x.2.ctx.c.stack
              ∧ (t.core x.1).mode = x.2.mode ∧ (t.core x.1).version = x.2.version
              ∧ (s.MemoryForm → (∀ y ∈ n.saves, y.2.keep.wf = true ∧ y.2.win.wf = true ∧ y.2.segs = [] ∧ (∀ c ∈ y.2.keep, c.1 < 0x1C0000)
                    ∧ ∀ c ∈ y.2.win, c.1 < 0x40000) →
                  (∀ a, a < 0x1C0000 → t.mem.read (bankKey x.1 a) = x.2.keep.read a)
                    ∧ ∀ a, a < 0x40000 → t.mem.read (bankKey x.1 (0x1C0000 + a)) = x.2.win.read a))

/-- R59: when every core of a node has raised its halt line, the node is gone and its cores are free with their banks in CACHE mode; without
a DONE, the dependence counters are those that the release of the successor list leaves, and the version of its one core is visible. R340:
while the capture ring is full, the launch end of a node with CAPT = 1 is held, and no record is written; it is held too while the bank of DONE holds
the post. -/
def Obligations.LaunchEndReleasesTheNode : Prop :=
  ∀ (s : State) (n : Node), s.node s.arg.n = some n → n.st = .placed → (∀ k ∈ n.cores, (s.core k).haltLine = true) →
    ((s.settleCores n.cores).captureHeld n = true ∨ (s.settleCores n.cores).doneHeld n = true →
      Claims.Gives .launchEnd s fun t => t.nodes = s.nodes ∧ t.capture = s.capture ∧ ∀ k, (t.core k).node = (s.core k).node)
    ∧ ((s.settleCores n.cores).captureHeld n = false → (s.settleCores n.cores).doneHeld n = false →
      Claims.Gives .launchEnd s fun t => t.node s.arg.n = none
      ∧ (∀ k ∈ n.cores, (t.core k).node = none ∧ (t.core k).mode = .cache ∧ (t.core k).haltLine = false ∧ (t.core k).version = [])
      ∧ (n.desc.done = 0 → t.dies.toList.map (fun d => d.counters) = (s.releaseSucc n.desc.succ).dies.toList.map fun d => d.counters)
      ∧ (∀ k a b, n.desc.done = 0 → n.cores = [k] → (s.core k).version.wf = true → (s.core k).version.find a = some b →
          (n.desc.ctrl.getLsbD 16 = false ∨ s.captureRing = none) → t.l2.find a = some b)
      ∧ (n.desc.ctrl.getLsbD 16 = true → t.capture.length = s.capture.length + 1))

namespace Sys2Proof.Claims

open Machine

/-! #### The management level (R21 to R23, R341, R362 to R369) -/

/-- No step change of a die is under way. -/
def steady (x : DieSt) : Bool := x.wantStep.isNone && !x.stoppedClk

/-- Nor is one kept for later. -/
def calm (x : DieSt) : Bool := steady x && x.nextStep.isNone

/-- A counter of the lifetime record. -/
def lifeOf (l : List (LifeItem × BitVec 32)) (i : LifeItem) : Nat := ((l.find? fun x => x.1 = i).map fun x => x.2.toNat).getD 0

/-- One more, up to all ones. -/
def oneMore (n : Nat) : Nat := min (n + 1) 0xFFFFFFFF

/-- From s to t nothing changes but die d. -/
def OnlyDie (d : Die) (s t : State) : Prop := t = { s with dies := t.dies } ∧ ∀ j, j ≠ d → t.die j = s.die j

end Sys2Proof.Claims

/-- R21, R23: a step is asked for where no change is under way, and else is kept until the clock restarts (log entry 42); the clock stops when every sequencer of the die stands between words, no
row is in flight and every broadcast tree is empty; it restarts at the step asked for, and disturbs no context.
R362: a 10 ms mean above 3,200 W, which is 100 measurements, moves one or more dies down a step, and only down; a mean that has stayed
below 3,000 W for 100 ms moves each slowed die up one; a die at its thermal limit moves down one. -/
def Obligations.ClocksChangeInOrder : Prop :=
  (∀ s : State, Claims.steady (s.die s.arg.d) = true → s.arg.num < 15 → s.arg.num ≠ (s.die s.arg.d).step.val →
    Claims.Gives .clockStepRequest s fun t => Claims.OnlyDie s.arg.d s t
      ∧ ∃ k : Fin 15, k.val = s.arg.num ∧ t.die s.arg.d = { s.die s.arg.d with wantStep := some k })
  ∧ (∀ s : State, Claims.steady (s.die s.arg.d) = false → s.arg.num < 15 →
    Claims.Gives .clockStepRequest s fun t => Claims.OnlyDie s.arg.d s t
      ∧ ∃ k : Fin 15, k.val = s.arg.num ∧ t.die s.arg.d = { s.die s.arg.d with nextStep := some k })
  ∧ (∀ s : State, (s.die s.arg.d).wantStep.isSome = true → (s.die s.arg.d).stoppedClk = false →
      (∀ x ∈ s.cores, x.1.die = s.arg.d → x.2.ctx.atBoundary = true ∧ x.2.ctx.inTree = false ∧ ∀ m ∈ x.2.ctx.me.queue, m.fly = []) →
      (∀ c, (s.cluster s.arg.d c).tree = []) →
        Claims.Gives .clockStop s fun t => Claims.OnlyDie s.arg.d s t
          ∧ t.die s.arg.d = { s.die s.arg.d with stoppedClk := true, stoppedAt := s.now })
  ∧ (∀ s : State, (s.die s.arg.d).stoppedClk = true →
      Claims.Gives .clockRestart s fun t => Claims.SameMemory s t ∧ t.nodes = s.nodes ∧ (∀ j, j ≠ s.arg.d → t.die j = s.die j)
        ∧ (let x := s.die s.arg.d
           let k := x.wantStep.getD x.step
           t.die s.arg.d = { x with step := k, wantStep := x.nextStep.filter fun n => n != k, nextStep := none, stoppedClk := false })
        ∧ (∀ k, t.core k = { s.core k with trace := (t.core k).trace }) ∧ ∀ k, k.die ≠ s.arg.d → t.core k = s.core k)
  ∧ (∀ s : State, ((s.arg.num :: s.draws).take 100).length = 100 → 320000 < ((s.arg.num :: s.draws).take 100).sum →
    (∀ d, Claims.calm (s.die d) = true ∧ (s.die d).step.val < 14) →
      Claims.Gives .powerMeasurement s fun t => t.draws = (s.arg.num :: s.draws).take 100 ∧ t.cores = s.cores ∧ t.mem = s.mem
        ∧ (∀ d, t.die d = s.die d ∨ ∃ k : Fin 15, k.val = (s.die d).step.val + 1 ∧ t.die d = { s.die d with wantStep := some k })
        ∧ ∃ d, t.die d ≠ s.die d)
  ∧ (∀ s : State, ((s.arg.num :: s.draws).take 100).length = 100 → ((s.arg.num :: s.draws).take 100).sum < 300000 → 999 ≤ s.calm →
      (∀ d, Claims.calm (s.die d) = true) →
        Claims.Gives .powerMeasurement s fun t => t.calm = 0 ∧ t.cores = s.cores ∧ t.mem = s.mem
          ∧ ∀ d, if (s.die d).step.val = 0 then t.die d = s.die d
              else ∃ k : Fin 15, k.val + 1 = (s.die d).step.val ∧ t.die d = { s.die d with wantStep := some k })
  ∧ (∀ s : State, ((s.arg.num :: s.draws).take 100).length < 100 →
      Leads .powerMeasurement s { s with draws := (s.arg.num :: s.draws).take 100, calm := 0 })
  ∧ (∀ s : State, Claims.calm (s.die s.arg.d) = true → (s.die s.arg.d).step.val < 14 →
      Claims.Gives .thermalLimit s fun t => Claims.OnlyDie s.arg.d s t
        ∧ ∃ k : Fin 15, k.val = (s.die s.arg.d).step.val + 1 ∧ t.die s.arg.d = { s.die s.arg.d with wantStep := some k })

/-- R363: degraded modes. R365, R321: a retired core that no node holds comes back into service where it passes its test, and is fenced and
counted where it fails. R341: the lifetime record takes the second that has passed, and the whole milliseconds in DEC-TED, and is stored. -/
def Obligations.RepairAndRecordKeeping : Prop :=
  (∀ (s : State) (k : CoreId), s.arg.mode = .halfArray k →
    Leads .degradedModeSet s (s.setCore k { s.core k with halfArray := s.arg.yes }))
  ∧ (∀ (s : State) (d : Die), s.arg.mode = .precision d → Claims.Gives .degradedModeSet s fun t => Claims.OnlyDie d s t
      ∧ t.die d = { s.die d with precision := s.arg.yes })
  ∧ (∀ s : State, (s.core s.arg.k).selfTest = true → (s.core s.arg.k).node = none → s.arg.yes = true →
      (42 ≤ s.arg.k.core.val → ∀ x ∈ (s.cluster s.arg.k.die s.arg.k.cluster).sess.toList, x.st = .free) →
        Claims.Gives .selfTest s fun t => t.core s.arg.k = { s.core s.arg.k with selfTest := false, inService := true }
          ∧ (∀ j, j ≠ s.arg.k → t.core j = s.core j) ∧ (42 ≤ s.arg.k.core.val → (t.cluster s.arg.k.die s.arg.k.cluster).noOpen = false)
          ∧ (.dispatchStep, { d := s.arg.k.die }) ∈ t.events)
  ∧ (∀ s : State, (s.core s.arg.k).selfTest = true → (s.core s.arg.k).node = none → s.arg.yes = false →
      (42 ≤ s.arg.k.core.val → ∀ x ∈ (s.cluster s.arg.k.die s.arg.k.cluster).sess.toList, x.st = .free) →
        Claims.Gives .selfTest s fun t => t.core s.arg.k = { s.core s.arg.k with selfTest := false, inService := false }
          ∧ (∀ j, j ≠ s.arg.k → t.core j = s.core j)
          ∧ (42 ≤ s.arg.k.core.val → s.arg.k.core ∈ (t.cluster s.arg.k.die s.arg.k.cluster).fenced)
          ∧ Claims.lifeOf t.life (.fenced s.arg.k) = Claims.oneMore (Claims.lifeOf s.life (.fenced s.arg.k)))
  ∧ (∀ s : State, Claims.Gives .lifetimeRecordWrite s fun t => t = { s with life := t.life, lifeNv := t.life, clusters := t.clusters }
      ∧ (∀ d c, t.cluster d c = { s.cluster d c with dected := (s.cluster d c).dected.map fun since => since + (s.now - since) / 2250000 * 2250000 }
        ∧ Claims.lifeOf t.life (.dectedMs d c) = min 0xFFFFFFFF (Claims.lifeOf s.life (.dectedMs d c)
            + match (s.cluster d c).dected with | some since => (s.now - since) / 2250000 | none => 0))
      ∧ (∀ d, Claims.lifeOf t.life (.stepSeconds d (s.die d).step) = Claims.oneMore (Claims.lifeOf s.life (.stepSeconds d (s.die d).step)))
      ∧ ∀ k r, Claims.lifeOf t.life (.corrected k r) = Claims.lifeOf s.life (.corrected k r))

/-- R366: after power-on the firmware is measured, banks, windows and registers are zero, no node, group or route stands, and pool memory is as it
was; a queue is disabled; a core that fails its self-test is fenced, and a spare takes its number (R10); which cores fail, and that a module whose
firmware does not verify stays dark, comes from log entry 42. R341: with power the counts since the last write are lost; that the accesses that
wait are dropped with it is the model's choice (log entry 57). R367, R368, R369: verified firmware is installed while the trap queue is empty, and
holds traps for at most 5 ms; a removed module is dark; a report carries the nonce, the measurements, the hash of the settings and the timer where
the layout places them, and the mailbox gives the public key. -/
def Obligations.PowerFirmwareAndIdentity : Prop :=
  (∀ s : State, s.powered = false → s.arg.yes2 = true → Leads .powerOn s s)
  ∧ (∀ s : State, s.powered = false → s.arg.yes2 = false → s.queues = [] →
    Claims.Gives .powerOn s fun t => t.powered = true ∧ t.mgmtFw = s.arg.digest
      ∧ (∀ d, (t.die d).fw = BitVec.ofNat 256 (leNat s.arg.bytes)) ∧ t.nodes = [] ∧ t.groups = [] ∧ t.bar0 = [] ∧ t.l2 = [] ∧ t.life = s.lifeNv
      ∧ (∀ k, (t.core k).ctx = Ctx.reset ∧ (t.core k).mode = .cache ∧ (t.core k).node = none ∧ (t.core k).version = [])
      ∧ ∀ a, t.mem.read a = if a < 2 ^ 51 then s.mem.read a else 0)
  ∧ (∀ (s : State) (q : DrayQ), s.MemoryForm → s.powered = false → s.arg.yes2 = false → s.queues = [q] → q.pa.toNat + 16 ≤ 2 ^ 51 → s.inPool (q.pa.toNat + 8) = true →
      Claims.Gives .powerOn s fun t => (t.homeLE (q.pa.toNat + 8) 8).testBit 11 = false)
  ∧ (∀ (s : State) (k : CoreId), s.powered = false → s.arg.yes2 = false → s.queues = [] → s.arg.words = [(cid k).setWidth 64] → k.core.val < 40 →
      (s.core k).inService = true → (s.core ⟨k.die, k.cluster, 40⟩).inService = true → (s.core ⟨k.die, k.cluster, 40⟩).selfTest = false →
        Claims.Gives .powerOn s fun t => (t.core ⟨k.die, k.cluster, 40⟩).inService = false ∧ (t.core k).inService = true
          ∧ (t.cluster k.die k.cluster).phys[k.core.val] = (s.cluster k.die k.cluster).phys[40]
          ∧ (t.cluster k.die k.cluster).phys[40] = (s.cluster k.die k.cluster).phys[k.core.val]
          ∧ 40 ∈ (t.cluster k.die k.cluster).fenced)
  ∧ (∀ s : State, Leads .powerLoss s { s with powered := false, events := [], waiting := [], life := s.lifeNv })
  ∧ (∀ s : State, Claims.Gives .hotRemoval s fun t => t.powered = false ∧ t.mem = s.mem)
  ∧ (∀ s : State, s.arg.yes = true → (s.die s.arg.d).trapQ = [] → Claims.Gives .firmwareReplacement s fun t =>
      Claims.OnlyDie s.arg.d s t ∧ t.die s.arg.d = { s.die s.arg.d with fw := s.arg.digest, install := s.now + min s.arg.num 11250000 })
  ∧ (∀ s : State, s.arg.yes = false → Leads .firmwareReplacement s s)
  ∧ (∀ s : State, s.arg.num = 1 → Claims.Gives .attestationRequest s fun t => t = { s with report := t.report } ∧ t.report.length = 1312)
  ∧ (∀ s : State, s.arg.num = 0 → Claims.Gives .attestationRequest s fun t => t = { s with report := t.report, free := t.free }
      ∧ t.report.length = 0x88 + 2420 ∧ t.report.take 32 = leBytes 32 s.arg.digest.toNat
      ∧ (t.report.drop 0x20).take 32 = leBytes 32 s.mgmtFw.toNat ∧ (t.report.drop 0x40).take 32 = leBytes 32 (s.die 0).fw.toNat
      ∧ (t.report.drop 0x60).take 32 = leBytes 32 s.settings.toNat ∧ (t.report.drop 0x80).take 8 = leBytes 8 s.now)

namespace Sys2Proof.Claims

open Machine

/-! #### Banks, scrubbers and measurement (R94, R96, R99, R326, R327, R334, R335, R338) -/

/-- The sector that a bank's scrubber reads next. -/
def nextSector (s : State) (k : CoreId) : Nat := bankKey k 0 / 32 + (s.core k).scrub

/-- The scrubber of a bank reads its next sector: no darning holds the row (R364), and the sector holds no line of the L2 with an error. -/
def scrubs (s : State) (k : CoreId) : Prop :=
  (s.core k).repair.holds (32 * (s.core k).scrub) 32 = false ∧ ((s.core k).mode ≠ .cache ∨ s.l2Errors = [])

/-- The core after its scrubber has read that sector. -/
def scrubbed (c : Core) : Core := { c with scrub := (c.scrub + 1) % 57344 }

/-- The record of a sample (R335). -/
def sampleOf (s : State) (k : CoreId) (q : Seq) : TraceRec :=
  { time := ofN s.now, kind := 2, seq := BitVec.ofNat 2 (seqCode q), pc := (s.seq k q).pc, seqn := 0, row := 0
    val := ofN ((match (s.seq k q).wait with | some w => w.reason.toNat | none => 0)
      + 16 * (match (s.seq k q).run with | .idle => 0 | .running => 1 | .blocked => 2 | .parked => 3)) }

/-- A trap record of a queue overflow of core k's bank. -/
def overflowOf (s : State) (k : CoreId) (r : TrapRec) : Bool := r.code == 0x28 && r.addr == ofN (s.bankPa k 0)

end Sys2Proof.Claims

/-- R94: a drain's end. R96: the Ostler links a segment to a queue that has overflowed, or declines, and every push stopped there goes on.
R99: below V_ECC the slice uses DEC-TED and an eighth of its CACHE banks, rounded up, is withdrawn; afterwards it is back.
R327: a bank's scrubber reads its 57,344 sectors in turn, each once the row it lies in is not held (R364): a correctable error is written back and counted, an uncorrectable one poisons
its sector. R326: the register scrubber corrects single-bit errors and leaves the others. A GET of a register with a single-bit error completes with the
corrected value and one hold cycle more; reading an uncorrectable scalar register, or an uncorrectable operand, is a trap with cause 0x31 of
class 3 (that ADDR is the register's number in its file is log entry 50). -/
def Obligations.BankEventsComplete : Prop :=
  (∀ s : State, Claims.Gives .bankDrainEnd s fun t => Claims.OnlyCore s.arg.k s t ∧ t.core s.arg.k = { s.core s.arg.k with drain := 0 })
  ∧ (∀ s : State, s.installing s.arg.k.die = false → (∃ d, ∃ r ∈ (s.die d).trapQ, Claims.overflowOf s s.arg.k r = true) →
      Claims.Gives .fifoOverflowService s fun t =>
        (t.core s.arg.k).fifo =
          (let f := (s.core s.arg.k).fifo
           if 12 ≤ s.arg.num ∧ s.arg.num ≤ 24 ∧ f.segs.length < 7 then
             { f with segs := f.segs ++ [{ base := BitVec.ofNat 52 (s.arg.pa.toNat / 4096 * 4096), size := BitVec.ofNat 6 s.arg.num, filled := 0, popped := 0 }] }
           else { f with declined := true, ovf := f.ovf && !f.segs.isEmpty })
        ∧ Claims.SameMemory s t
        ∧ (∀ d, (t.die d).trapQ = (s.die d).trapQ.filter fun r => !Claims.overflowOf s s.arg.k r)
        ∧ ∀ d, ∀ r ∈ (s.die d).trapQ, Claims.overflowOf s s.arg.k r = true → r.cls ≠ 1 →
            ∀ j, r.coreId = some j → (t.seq j (seqOf r.seq.toNat)).stopped = none)
  ∧ (∀ s : State, (s.cluster s.arg.d s.arg.c).dected = none →
      Claims.Gives .sramRailLow s fun t => (t.cluster s.arg.d s.arg.c).dected = some s.now ∧ Claims.SameMemory s t
        ∧ (∀ k, t.core k = { s.core k with withdrawn := (t.core k).withdrawn })
        ∧ (∀ k, (t.core k).withdrawn = ((s.core k).withdrawn
            || ((s.withdrawOrder s.arg.d s.arg.c).take (((s.withdrawOrder s.arg.d s.arg.c).length + 7) / 8)).contains k))
        ∧ Claims.lifeOf t.life (.dected s.arg.d s.arg.c) = Claims.oneMore (Claims.lifeOf s.life (.dected s.arg.d s.arg.c)))
  ∧ (∀ (s : State) (since : Nat), (s.cluster s.arg.d s.arg.c).dected = some since →
      Claims.Gives .sramRailRecover s fun t => (t.cluster s.arg.d s.arg.c).dected = none ∧ Claims.SameMemory s t
        ∧ ∀ k, t.core k = if k.die = s.arg.d ∧ k.cluster = s.arg.c then { s.core k with withdrawn := false } else s.core k)
  ∧ (∀ s : State, (s.core s.arg.k).repair.holds (32 * (s.core s.arg.k).scrub) 32 = true →
      Leads .bankScrub s { s with waiting := s.waiting ++ [(.bankScrub, s.arg)] })
  ∧ (∀ s : State, Claims.scrubs s s.arg.k →
      s.poison.contains (Claims.nextSector s s.arg.k) = true ∨ (∀ e ∈ s.ecc, e.1 ≠ Claims.nextSector s s.arg.k) →
    Claims.Gives .bankScrub s fun t => Claims.OnlyCore s.arg.k s t ∧ t.core s.arg.k = Claims.scrubbed (s.core s.arg.k))
  ∧ (∀ s : State, Claims.scrubs s s.arg.k → s.poison.contains (Claims.nextSector s s.arg.k) = false →
      (s.ecc.find? fun e => e.1 == Claims.nextSector s s.arg.k) = some (Claims.nextSector s s.arg.k, false) →
        Claims.Gives .bankScrub s fun t => t.core s.arg.k = { Claims.scrubbed (s.core s.arg.k) with repair := (t.core s.arg.k).repair }
          ∧ t.mem = s.mem ∧ t.poison = s.poison
          ∧ t.ecc = s.ecc.filter (fun e => e.1 != Claims.nextSector s s.arg.k)
          ∧ Claims.lifeOf t.life (.corrected s.arg.k ((s.core s.arg.k).scrub / 2048))
              = Claims.oneMore (Claims.lifeOf s.life (.corrected s.arg.k ((s.core s.arg.k).scrub / 2048))))
  ∧ (∀ s : State, Claims.scrubs s s.arg.k → s.poison.contains (Claims.nextSector s s.arg.k) = false →
      (s.ecc.find? fun e => e.1 == Claims.nextSector s s.arg.k) = some (Claims.nextSector s s.arg.k, true) →
        Claims.Gives .bankScrub s fun t => t.core s.arg.k = Claims.scrubbed (s.core s.arg.k) ∧ t.mem = s.mem
          ∧ t.poison = Claims.nextSector s s.arg.k :: s.poison
          ∧ t.ecc = s.ecc.filter (fun e => e.1 != Claims.nextSector s s.arg.k)
          ∧ Claims.lifeOf t.life (.uncorrectable s.arg.k) = Claims.oneMore (Claims.lifeOf s.life (.uncorrectable s.arg.k))
          ∧ Claims.lifeOf t.life (.poisonings s.arg.k) = Claims.oneMore (Claims.lifeOf s.life (.poisonings s.arg.k)))
  ∧ (∀ s : State, Claims.Gives .registerScrub s fun t => (∀ j, j ≠ s.arg.k → t.core j = s.core j) ∧ Claims.SameMemory s t
      ∧ t.ctx s.arg.k = { s.ctx s.arg.k with regEcc := (s.ctx s.arg.k).regEcc.filter fun e => e.2 })
  ∧ (∀ (s : State) (r : BitVec 4), (s.modCtx s.k fun x => { x with regEcc := [] }).Ready (.get r) →
      (s.ctx s.k).regEcc = [(⟨.scalar, .c, r.toNat⟩, false)] →
        Completes (.get r) s (((s.modCtx s.k fun x => { x with regEcc := [] }).countLife (.regCorrected s.k .scalar)).modSeq s.k s.q
          fun q => { q with hold := q.hold + 1 }) 0 [(s.regs s.k).getS (r4 r)])
  ∧ (∀ (s : State) (r : BitVec 4), (s.modCtx s.k fun x => { x with regEcc := [] }).Ready (.get r) →
      (s.ctx s.k).regEcc = [(⟨.scalar, .c, r.toNat⟩, true)] →
        Leads (.get r) s ((s.countLife (.regUncorrectable s.k .scalar)).takeTrap s.k s.q { code := 0x31, cls := 3, addr := r.setWidth 64, info := 3 }))
  ∧ (∀ (s : State) (i : Instr) (sp : Spec) (q : Seq) (n : Nat), wordSpec s.q i = some sp → s.accepts s.k s.q sp = true →
      sp.pops ≤ s.me.stack.length → s.me.stack.length - sp.pops + sp.pushes ≤ 8 → s.rightsTrap s.k s.q sp = none →
      (s.ctx s.k).regEcc = [(⟨.stack, q, n⟩, true)] → q = s.q → s.me.stack.length - sp.pops ≤ n → n < s.me.stack.length →
        Leads i s ((s.countLife (.regUncorrectable s.k .stack)).takeTrap s.k s.q { code := 0x31, cls := 3, addr := Claims.ofN n, info := 3 }))

/-- R334, R335: a write of TCTL, after the records that were due before it, and samples: one record for each sequencer that is not idle, in the order C, M, V, T. R338: a trial's hold. -/
def Obligations.MeasurementEventsComplete : Prop :=
  (∀ s : State, Claims.Gives .tctlWrite s fun t => Claims.OnlyCore s.arg.k s t
    ∧ t.core s.arg.k = { s.core s.arg.k with trace := { (s.core s.arg.k).trace.publish with tctl := s.arg.v &&& 0x1F07FF, twp := 0, tlost := 0 } })
  ∧ (∀ s : State, bitsOf (s.core s.arg.k).trace.tctl.toNat 20 16 ≠ 0 →
      Claims.Gives .traceSample s fun t => Claims.OnlyCore s.arg.k s t
        ∧ t.core s.arg.k = { s.core s.arg.k with
            trace := ([Seq.c, .m, .v, .t].filter fun q => (s.seq s.arg.k q).run != .idle).foldl
              (fun b q => b.append (Claims.sampleOf s s.arg.k q)) (s.core s.arg.k).trace })
  ∧ (∀ (s : State) (x : Trial), (s.core s.arg.k).trial = some x → 256 ≤ (s.seq s.arg.k s.arg.q).trialCount →
      Claims.Gives .trialHold s fun t => Claims.OnlyCore s.arg.k s t
        ∧ (t.core s.arg.k).trial = some { x with inserted := x.inserted + x.d }
        ∧ t.seq s.arg.k s.arg.q = { s.seq s.arg.k s.arg.q with trialCount := 0, hold := (s.seq s.arg.k s.arg.q).hold + x.d }
        ∧ ∀ q, q ≠ s.arg.q → t.seq s.arg.k q = s.seq s.arg.k q)

namespace Sys2Proof.Claims

open Machine

/-! #### The host's registers and accesses (R343 to R345, R354) -/

/-- A host access that goes to a target (R345). -/
def HostReaches (s : State) (n : Nat) (x : Acc) (t : Target) : Prop :=
  s.target (s.aperture s.arg.num) .device = some t ∧ s.refusal hostAgent (ofN (s.aperture s.arg.num)) t n x = none

/-- A host access that is refused: no such place, a refusal of R105 or R92, or a multicast to a group that is not open or has no member. -/
def HostRefused (s : State) (n : Nat) (x : Acc) : Prop :=
  s.target (s.aperture s.arg.num) .device = none
    ∨ (∃ t i, s.target (s.aperture s.arg.num) .device = some t ∧ s.refusal hostAgent (ofN (s.aperture s.arg.num)) t n x = some (.trap i))
    ∨ ∃ g off, HostReaches s n x (.mcast g off) ∧ s.members g = []

/-- A host access that its bank or a fold holds for now. -/
def HostHeld (s : State) (n : Nat) (x : Acc) (t : Target) : Prop :=
  s.target (s.aperture s.arg.num) .device = some t
    ∧ ∃ r, s.refusal hostAgent (ofN (s.aperture s.arg.num)) t n x = some r ∧ ∀ i, r ≠ .trap i

/-- HERR after a refused access: the first one stands (log entry 39). -/
def herrAfter (s : State) : W64 :=
  if s.host.herr.getLsbD 63 then s.host.herr else ofN (2 ^ 63 + s.aperture s.arg.num)

/-- The bytes of memory at [key, key + bs.length) are bs, and every other is as it was. -/
def Stored (s t : State) (key : Nat) (bs : List Byte) : Prop :=
  t.mem.readBytes key bs.length = bs ∧ ∀ a, a < key ∨ key + bs.length ≤ a → t.mem.read a = s.mem.read a

/-- The word that an AtomicOp of n bytes leaves: 0 FetchAdd, 1 Swap, 2 compare-and-swap. -/
def atomicLeaves (op n : Nat) (old v e : W64) : Nat :=
  match op with
  | 0 => (old.toNat + v.toNat) % 2 ^ (8 * n)
  | 1 => v.toNat % 2 ^ (8 * n)
  | _ => if e.toNat % 2 ^ (8 * n) = old.toNat then v.toNat % 2 ^ (8 * n) else old.toNat

end Sys2Proof.Claims

/-- R345, R342: a host read, write or AtomicOp through BAR2 is performed at the home of its bytes, here in a bank; a refused read or AtomicOp
answers all ones, a refused write is dropped, and either sets HERR. A CAS is of 64 bits. An access that a bank or a fold holds is not lost but
waits (R94, R364; that it holds those after it is log entry 57). A write to pool memory that no format window maps lands there too. A multicast
to a group that has no member is refused, and one that a member's bank holds waits. -/
def Obligations.HostAccessesReachMemory : Prop :=
  (∀ (s : State) (k : CoreId) (off : Nat), s.waiting = [] → Claims.HostReaches s (2 ^ (s.arg.num2 % 4)) .load (.bank k off) →
    Claims.Gives .hostApertureRead s fun t => t.hostData = Claims.ofN (leNat (s.mem.readBytes (bankKey k off) (2 ^ (s.arg.num2 % 4))))
      ∧ t.mem = s.mem ∧ (∀ j, t.core j = { s.core j with repair := (t.core j).repair }) ∧ t.host = s.host)
  ∧ (∀ s : State, Claims.HostRefused s (2 ^ (s.arg.num2 % 4)) .load →
      Leads .hostApertureRead s { s with hostData := BitVec.allOnes 64, host := { s.host with herr := Claims.herrAfter s } })
  ∧ (∀ (s : State) (k : CoreId) (off : Nat), s.MemoryForm → s.waiting = [] → Claims.HostReaches s s.arg.bytes.length .store (.bank k off) →
      Claims.Gives .hostApertureWrite s fun t => Claims.Stored s t (bankKey k off) s.arg.bytes ∧ t.host = s.host)
  ∧ (∀ (s : State) (pa : Nat) (p : Policy), s.MemoryForm → s.waiting = [] → (∀ a, s.windowAt a = none) → s.l2 = [] →
      Claims.HostReaches s s.arg.bytes.length .store (.pool pa p) →
        Claims.Gives .hostApertureWrite s fun t => Claims.Stored s t pa s.arg.bytes ∧ t.host = s.host)
  ∧ (∀ s : State, Claims.HostRefused s s.arg.bytes.length .store →
      Leads .hostApertureWrite s { s with host := { s.host with herr := Claims.herrAfter s } })
  ∧ (∀ (s : State) (k : CoreId) (off n : Nat), s.MemoryForm → s.waiting = [] → n = (if s.arg.yes = true ∨ 2 ≤ s.arg.num2 then 8 else 4) → s.aperture s.arg.num % n = 0 →
      Claims.HostReaches s n .atomic (.bank k off) →
        Claims.Gives .hostAtomic s fun t => t.hostData = Claims.ofN (leNat (s.mem.readBytes (bankKey k off) n))
          ∧ Claims.Stored s t (bankKey k off) (leBytes n (Claims.atomicLeaves s.arg.num2 n t.hostData s.arg.v s.arg.v2)))
  ∧ (∀ s : State, s.aperture s.arg.num % (if s.arg.yes = true ∨ 2 ≤ s.arg.num2 then 8 else 4) ≠ 0 →
      Leads .hostAtomic s { s with hostData := BitVec.allOnes 64, host := { s.host with herr := Claims.herrAfter s } })
  ∧ (∀ (s : State) (t : Target), Claims.HostHeld s s.arg.bytes.length .store t →
      Leads .hostApertureWrite s { s with waiting := s.waiting ++ [(.hostApertureWrite, s.arg)] })
  ∧ (∀ (s : State) (t : Target), s.waiting ≠ [] → Claims.HostReaches s s.arg.bytes.length .store t →
      (∀ g off, t = .mcast g off → s.members g ≠ []) →
        Leads .hostApertureWrite s { s with waiting := s.waiting ++ [(.hostApertureWrite, s.arg)] })
  ∧ (∀ (s : State) (g : BitVec 8) (off : Nat) (m : NodeId × CoreId), Claims.HostReaches s s.arg.bytes.length .store (.mcast g off) →
      m ∈ s.members g → s.memberHolds hostAgent m off s.arg.bytes.length = true →
        Leads .hostApertureWrite s { s with waiting := s.waiting ++ [(.hostApertureWrite, s.arg)] })

/-- R343: a format window that is not enabled takes what is written, its reserved bits apart (R5); an enabled one changes nothing but its enable bit. R354: a route entry
takes its 17 bits. R344: the registers the driver may write, the read-only ones, and HERR, whose bits are cleared by writing 1. -/
def Obligations.HostRegistersTakeWrites : Prop :=
  (∀ s : State, s.MemoryForm → s.arg.num < 32 → s.arg.num2 < 32 → s.arg.num2 % 8 = 0 →
    (s.bar0.readLE (0x2000 + 32 * s.arg.num + 12) 4).testBit 31 = false →
      Claims.Gives .formatWindowWrite s fun t => t.bar0.readLE (0x2000 + 32 * s.arg.num + s.arg.num2) 8
          = (if s.arg.num2 = 8 then s.arg.v &&& 0x8000000FFFFFFFFF else s.arg.v).toNat
        ∧ (∀ a, a < 0x2000 + 32 * s.arg.num + s.arg.num2 ∨ 0x2000 + 32 * s.arg.num + s.arg.num2 + 8 ≤ a → t.bar0.read a = s.bar0.read a)
        ∧ t.mem = s.mem ∧ t.cores = s.cores)
  ∧ (∀ s : State, s.arg.num < 32 → (s.bar0.readLE (0x2000 + 32 * s.arg.num + 12) 4).testBit 31 = true →
      (s.arg.num2 / 8 % 4 ≠ 1 ∨ s.arg.v.getLsbD 63 = true) → Leads .formatWindowWrite s s)
  ∧ (∀ s : State, s.MemoryForm → s.arg.num < 32 → (s.bar0.readLE (0x2000 + 32 * s.arg.num + 12) 4).testBit 31 = true →
      s.arg.num2 = 8 → s.arg.v.getLsbD 63 = false →
        Claims.Gives .formatWindowWrite s fun t =>
          t.bar0.readLE (0x2000 + 32 * s.arg.num + 12) 4 = s.bar0.readLE (0x2000 + 32 * s.arg.num + 12) 4 - 2 ^ 31
            ∧ ∀ a, a < 0x2000 + 32 * s.arg.num + 12 ∨ 0x2000 + 32 * s.arg.num + 16 ≤ a → t.bar0.read a = s.bar0.read a)
  ∧ (∀ s : State, s.MemoryForm → s.arg.num < 1024 →
      Claims.Gives .routeTableWrite s fun t => t.route s.arg.num = s.arg.v.toNat % 2 ^ 17 ∧ ∀ n, n ≠ s.arg.num → t.route n = s.route n)
  ∧ (∀ s : State, s.arg.num = 0x1008 → Leads .registerWrite s { s with host := { s.host with tqr := s.arg.v }, hostData := s.arg.v })
  ∧ (∀ s : State, s.arg.num = 0x1010 → Leads .registerWrite s { s with host := { s.host with rqw := s.arg.v }, hostData := s.arg.v })
  ∧ (∀ s : State, s.arg.num = 0x1020 → Leads .registerWrite s { s with host := { s.host with apbase := s.arg.v }, hostData := s.arg.v })
  ∧ (∀ s : State, s.arg.num = 0x1028 →
      Leads .registerWrite s { s with host := { s.host with herr := s.host.herr &&& ~~~s.arg.v }, hostData := s.host.herr &&& ~~~s.arg.v })
  ∧ (∀ s : State, 0x100000 ≤ s.arg.num → s.arg.num < 0x200000 →
      Leads .registerWrite s
        { s with hostData := Claims.ofN (leNat ((List.range 8).map fun i => s.lifeByte (s.arg.num - 0x100000 + i))) })
  ∧ (∀ s : State, s.arg.num = 0x1000 → Leads .registerWrite s { s with hostData := s.host.tqw })
  ∧ (∀ s : State, s.arg.num = 0x1018 → Leads .registerWrite s { s with hostData := s.host.rqr })

namespace Sys2Proof.Claims

open Machine

/-! #### The host's requests (R348) -/

/-- A request with effect u completes with status st: it goes into byte 1 of the oldest slot, RQR counts, and vector 1 is raised; the
status is also what the host is answered, where no slot is outstanding. -/
def Answers (u : State) (st : Nat) (t : State) : Prop :=
  t = if u.host.rqr = u.host.rqw then { u with hostData := ofN st }
      else { u with hostData := ofN st, host := { u.host with rqr := u.host.rqr + 1 }, irqs := 1 :: u.irqs
                    bar0 := u.bar0.write (0xC000 + 64 * (u.host.rqr.toNat % 256) + 1) (BitVec.ofNat 8 st) }

/-- A node that has been accepted and has not ended. -/
def lives (s : State) (n : NodeId) : Bool :=
  match s.node n with
  | some x => x.st != .dumped
  | none => false

/-- The fatal causes of R304. -/
def fatal (c : BitVec 8) : Bool := c ∈ [0x01, 0x02, 0x03, 0x04, 0x32]

/-- The end requests, whose effect on a node that does not run, where nothing holds the request, f gives. -/
def EndRequest (i : Instr) (held : State → Node → Prop) (f : State → Node → State → Prop) : Prop :=
  (∀ s : State, lives s s.arg.n = false → Gives i s (Answers s 1))
  ∧ (∀ (s : State) (n : Node), s.node s.arg.n = some n → n.st = .placed → (∃ k ∈ n.cores, (s.core k).node = some s.arg.n) →
      Gives i s fun t => t = { s with cores := t.cores } ∧ ∀ k ∈ n.cores, (s.core k).node = some s.arg.n → (s.core k).saved = none →
        t.core k = { s.core k with preempt := some 0 })
  ∧ (∀ (s : State) (n : Node), s.node s.arg.n = some n → n.st ≠ .dumped → (∀ k ∈ n.cores, (s.core k).node ≠ some s.arg.n) →
      ¬ held s n → Gives i s fun t => ∃ u, Answers u 0 t ∧ f s n u)

/-- The module has no entry for watch j of the node that a request names. -/
def WatchFull (s : State) (j : Fin 8) : Prop := 16 ≤ s.watchesUsed ∧ ∀ n, s.node s.arg.n = some n → n.watch[j.val] = none

/-- The watch of the descriptor that a request names, where it is legal. -/
def watchAsked (s : State) : Option Watch := (s.target s.arg.v2.toNat .cached).bind fun t => watchOf (s.homeBytes t 48)

/-- u is s with watch j of node n set to w, or cleared; what the node's engines have passed of the old watch is forgotten. -/
def SetsWatch (s u : State) (n : Node) (j : Fin 8) (w : Option Watch) : Prop :=
  u = { s with nodes := u.nodes, cores := u.cores } ∧ (∀ k, (s.core k).node ≠ some n.id → u.core k = s.core k) ∧ (∀ k, u.regs k = s.regs k)
    ∧ ∃ m, u.node n.id = some m ∧ m = { n with watch := m.watch, saves := m.saves } ∧ m.watch[j.val] = w
      ∧ ∀ i : Fin 8, i ≠ j → m.watch[i.val] = n.watch[i.val]

end Sys2Proof.Claims

/-- R304, R306, R333, R348, R61: the requests on a node and their statuses; of several that apply to SET_WATCH the lowest. -/
def Obligations.RequestsActOnNodes : Prop :=
  (∀ s : State, Claims.Gives .requestNone s (Claims.Answers s 0))
  ∧ (∀ s : State, s.node s.arg.n = none → Claims.Gives .resumeNode s (Claims.Answers s 1))
  ∧ (∀ (s : State) (n : Node) (c : BitVec 8), s.node s.arg.n = some n → n.st = .suspended c →
      Claims.Gives .resumeNode s (if Claims.fatal c then Claims.Answers s 2 else if savesDue n.saves then Claims.Answers s 3
        else Claims.Answers (s.makeResumable s.arg.n) 0))
  ∧ Claims.EndRequest .endAbandon (fun _ _ => False) (fun s _ u => u.node s.arg.n = none ∨ ∃ m, u.node s.arg.n = some m ∧ m.st = .dumped ∧ m.dump ≠ [])
  ∧ Claims.EndRequest .endComplete (fun s n => s.doneHeld n = true) (fun s n u =>
      u = (((s.stopNode n 0).postDone n).releaseSucc n.desc.succ).sweepNode s.arg.n)
  ∧ (∀ (s : State) (n : Node), s.node s.arg.n = some n → n.dump = [] → Claims.Gives .releaseDump s (Claims.Answers s 1))
  ∧ (∀ (s : State) (n : Node), s.node s.arg.n = some n → n.dump ≠ [] → n.st = .dumped →
      Claims.Gives .releaseDump s fun t => ∃ u, Claims.Answers u 0 t ∧ u = { s with nodes := u.nodes } ∧ u.node s.arg.n = none)
  ∧ (∀ s : State, Claims.lives s s.arg.n = false → Claims.Gives .creditFare s (Claims.Answers s 1))
  ∧ (∀ (s : State) (n : Node), s.node s.arg.n = some n → n.st = .placed → n.cores.Nodup → (∀ k ∈ n.cores, (s.core k).node = some s.arg.n) →
      Claims.Gives .creditFare s fun t => ∃ u, Claims.Answers u 0 t ∧ ∀ k ∈ n.cores,
        (u.regs k).fi = min 2147483647 ((s.regs k).fi + (s.arg.v.setWidth 32).toInt)
          ∧ (u.regs k).ft = min 2147483647 ((s.regs k).ft + (s.arg.v2.setWidth 32).toInt))
  ∧ (∀ s : State, s.runningCores s.arg.n = [] → Claims.Gives .softPreempt s (Claims.Answers s 1) ∧ Claims.Gives .hardPreemptRequest s (Claims.Answers s 1))
  ∧ (∀ s : State, s.runningCores s.arg.n ≠ [] →
      (Claims.Gives .softPreempt s fun t => ∃ u, Claims.Answers u 0 t ∧ u = { s with cores := u.cores }
        ∧ (∀ k ∈ s.runningCores s.arg.n, u.regs k = { s.regs k with fi := 0 }) ∧ ∀ k, k ∉ s.runningCores s.arg.n → u.core k = s.core k)
      ∧ (Claims.Gives .hardPreemptRequest s fun t => ∃ u, Claims.Answers u 0 t ∧ u = { s with cores := u.cores }
        ∧ (∀ k ∈ s.runningCores s.arg.n, (s.core k).preempt = none → (u.core k).preempt = some 0x3F)
        ∧ ∀ k, k ∉ s.runningCores s.arg.n → u.core k = s.core k))
  ∧ (∀ (s : State) (j : Fin 8), j.val = s.arg.v.toNat % 8 → s.arg.v2 ≠ 0 → Claims.WatchFull s j → Claims.Gives .setWatchRequest s (Claims.Answers s 1))
  ∧ (∀ (s : State) (j : Fin 8), j.val = s.arg.v.toNat % 8 → s.arg.v2 ≠ 0 → ¬ Claims.WatchFull s j → Claims.watchAsked s = none →
      Claims.Gives .setWatchRequest s (Claims.Answers s 2))
  ∧ (∀ (s : State) (j : Fin 8), j.val = s.arg.v.toNat % 8 → (s.arg.v2 = 0 ∨ (¬ Claims.WatchFull s j ∧ (Claims.watchAsked s).isSome = true)) →
      (∀ n, s.node s.arg.n = some n → ∀ c, n.st ≠ .suspended c) → Claims.Gives .setWatchRequest s (Claims.Answers s 3))
  ∧ (∀ (s : State) (n : Node) (c : BitVec 8) (j : Fin 8), s.node s.arg.n = some n → n.st = .suspended c → j.val = s.arg.v.toNat % 8 →
      s.arg.v2 = 0 → Claims.Gives .setWatchRequest s fun t => ∃ u, Claims.Answers u 0 t ∧ Claims.SetsWatch s u n j none)
  ∧ (∀ (s : State) (n : Node) (c : BitVec 8) (j : Fin 8) (w : Watch), s.node s.arg.n = some n → n.st = .suspended c → j.val = s.arg.v.toNat % 8 →
      s.arg.v2 ≠ 0 → ¬ Claims.WatchFull s j → Claims.watchAsked s = some w → Claims.Gives .setWatchRequest s fun t =>
        ∃ u, Claims.Answers u 0 t ∧ Claims.SetsWatch s u n j (some { w with frames := s.mappedFrames n.root w.base.toNat w.size.toNat }))

/-- R55, R98, R110, R112, R217, R348: the requests on the module and their statuses. That request 13 answers 1 to a range that is not aligned is the
model's choice (log entry 39). -/
def Obligations.RequestsActOnTheModule : Prop :=
  (∀ s : State, (s.group (s.arg.v.setWidth 8)).isSome = true → Claims.Gives .openGroup s (Claims.Answers s 1))
  ∧ (∀ (s : State) (p : Target) (ks : List CoreId), s.target s.arg.v2.toNat .cached = some p → s.group (s.arg.v.setWidth 8) = none →
      bitmapCores (s.homeBytes p 216) = (ks, false) → (∀ k ∈ ks, (s.groups.filter fun x => x.domain.contains k).length < 4) →
        Claims.Gives .openGroup s (Claims.Answers { s with groups := s.groups ++ [{ id := s.arg.v.setWidth 8, domain := ks }] } 0))
  ∧ (∀ s : State, s.group (s.arg.v.setWidth 8) = none → Claims.Gives .closeGroup s (Claims.Answers s 1))
  ∧ (∀ s : State, (s.group (s.arg.v.setWidth 8)).isSome = true → Claims.Gives .closeGroup s fun t => ∃ u, Claims.Answers u 0 t
      ∧ u.groups = s.groups.filter (fun x => x.id != s.arg.v.setWidth 8) ∧ Claims.SameMemory s u ∧ ∀ k, u.ctx k = s.ctx k)
  ∧ (∀ s : State, (s.qField s.arg.pa.toNat 0x34 4).testBit 3 = false → Claims.Gives .restartQueue s (Claims.Answers s 1))
  ∧ (∀ s : State, (s.qField s.arg.pa.toNat 0x34 4).testBit 3 = true → Claims.Gives .restartQueue s
      (Claims.Answers (s.setQField s.arg.pa.toNat 0x34 4 (s.qField s.arg.pa.toNat 0x34 4 - 8)) 0))
  ∧ (∀ s : State, Claims.Gives .tlbInvalidation s fun t => ∃ u, Claims.Answers u 0 t
      ∧ u = { s with cores := u.cores, clusters := u.clusters }
      ∧ (∀ k, u.core k = { s.core k with tlb := (u.core k).tlb }) ∧ (∀ d c, u.cluster d c = { s.cluster d c with tlb := (u.cluster d c).tlb })
      ∧ ∀ e : TlbEnt, (e.root = s.arg.pa.toNat
          ∧ e.page * 2 ^ pageShift e.level e.pte.toNat < s.arg.v.toNat + s.arg.v2.toNat
          ∧ s.arg.v.toNat < (e.page + 1) * 2 ^ pageShift e.level e.pte.toNat →
            (∀ k, e ∉ (u.core k).tlb) ∧ ∀ d c, e ∉ (u.cluster d c).tlb)
        ∧ (¬ (e.root = s.arg.pa.toNat
          ∧ e.page * 2 ^ pageShift e.level e.pte.toNat < s.arg.v.toNat + s.arg.v2.toNat
          ∧ s.arg.v.toNat < (e.page + 1) * 2 ^ pageShift e.level e.pte.toNat) →
            (∀ k, e ∈ (u.core k).tlb ↔ e ∈ (s.core k).tlb) ∧ ∀ d c, e ∈ (u.cluster d c).tlb ↔ e ∈ (s.cluster d c).tlb))
  ∧ (∀ s : State, s.arg.v.toNat % 128 ≠ 0 → Claims.Gives .l2WritebackInvalidate s (Claims.Answers s 1))
  ∧ (∀ s : State, s.MemoryForm → (∀ a, s.windowAt a = none) → s.arg.v.toNat % 128 = 0 → s.arg.v2.toNat % 128 = 0 →
      (∃ r ∈ s.pools, r.base ≤ s.arg.v.toNat ∧ s.arg.v.toNat + s.arg.v2.toNat ≤ r.base + r.size) → s.versions.flatten = [] →
        Claims.Gives .l2WritebackInvalidate s fun t => ∃ u, Claims.Answers u 0 t ∧ u.cores = s.cores ∧
          ∀ a, if s.arg.v.toNat ≤ a ∧ a < s.arg.v.toNat + s.arg.v2.toNat then
              u.l2.find a = none ∧ u.mem.read a = (s.l2.find a).getD (s.mem.read a)
            else u.l2.find a = s.l2.find a ∧ u.mem.read a = s.mem.read a)
  ∧ (∀ s : State, 64 ≤ s.arenas.length → Claims.Gives .registerArena s (Claims.Answers s 1))
  ∧ (∀ s : State, s.arenas.length < 64 → (s.arenas.all fun a => !framesMeet (s.arena s.arg.v.toNat) (s.arena a)) = true →
      s.arenaBad s.arg.v.toNat = false → (∃ p, s.target (s.arg.v.toNat + 0x30) .cached = some p ∧ Claims.plainTarget p = true) → s.MemoryForm →
        Claims.Gives .registerArena s fun t => ∃ u, Claims.Answers u 0 t ∧ u.arenas = s.arenas ++ [s.arg.v.toNat]
          ∧ u.homeLE (s.arg.v.toNat + 0x30) 8 = 0)
  ∧ (∀ s : State, s.arg.v.toNat ∉ s.arenas → Claims.Gives .unregisterArena s (Claims.Answers s 1))
  ∧ (∀ s : State, s.arg.v.toNat ∈ s.arenas → Claims.Gives .unregisterArena s
      (Claims.Answers { s with arenas := s.arenas.filter fun a => a != s.arg.v.toNat } 0))
  ∧ (∀ s : State, Claims.Gives .unknownRequest s (Claims.Answers s 255))

namespace Sys2Proof.Claims

open Machine

/-! #### Dray queues (R202 to R217, R358 to R361) -/

/-- x is the first entry of a list that satisfies p, at index i. -/
def First {α : Type} (l : List α) (i : Nat) (x : α) (p : α → Bool) : Prop :=
  l[i]? = some x ∧ p x = true ∧ ∀ j y, j < i → l[j]? = some y → p y = false

/-- The packets of a queue go on: it is not suspended, nothing holds its descriptor, and its die's clock runs. -/
def QueueGoes (s : State) (pa : PA) : Prop := s.queueRuns pa = true

/-- x is the first packet of a queue that an engine works on and that satisfies p, at index i. -/
def Worked (l : List Packet) (i : Nat) (x : Packet) (p : Packet → Bool) : Prop := First l i x fun y => y.eng.isSome && p y

/-- The descriptor of a queue lies in pool memory. -/
def PoolDesc (s : State) (pa : PA) : Prop := pa.toNat + 64 ≤ 2 ^ 51 ∧ ∀ o, o < 64 → s.inPool (pa.toNat + o) = true

/-- BUSY says whether packets of the queue are in progress. -/
def BusyRight (s : State) (pa : PA) : Prop :=
  s.qField pa.toNat 0x34 4 / 2 % 2 = if (s.dray pa).pkts.isEmpty then 0 else 1

/-- The parser of a queue may read the slot at RIDX: it is enabled and goes, no FENCE or SIGNAL holds it, nothing holds its descriptor and slots, its
owner is known where it has one, and every packet in progress has its engine; RIDX is below WIDX, and STATUS shows no wait. -/
structure ParserMay (s : State) (pa : PA) : Prop where
  /-- It may read a slot. -/
  goes : s.parserGoes (s.dray pa) = true
  /-- No packet has lost its engine. -/
  engines : ∀ p ∈ (s.dray pa).pkts, p.eng ≠ none
  /-- A queue with MGMT has no owner. -/
  owner : cfgMgmt (s.qCfg pa.toNat) = true → (s.dray pa).owner = none
  /-- There is a slot to read. -/
  slot : s.qField pa.toNat 0x18 8 < s.qField pa.toNat 0x10 8
  /-- STATUS is in order. -/
  status : s.qField pa.toNat 0x34 4 / 4096 % 16 = 0 ∧ BusyRight s pa
  /-- The descriptor can be read back. -/
  place : PoolDesc s pa

/-- It is engine e's turn to take a packet of a queue (R203). -/
def Turn (s : State) (pa : PA) (e : Fin 4) : Prop := (s.setDray (s.dray pa)).engineTurn (s.dray pa) = some e

/-- RIDX. -/
def ridx (s : State) (pa : PA) : Nat := s.qField pa.toNat 0x18 8

/-- The slots of the packet at RIDX. -/
def slotsAt (s : State) (pa : PA) : Nat := packetSlots (s.slotBytes pa.toNat (ridx s pa))

/-- Its bytes. -/
def bytesAt (s : State) (pa : PA) : List Byte := (List.range (slotsAt s pa)).flatMap fun j => s.slotBytes pa.toNat (ridx s pa + j)

/-- Every slot of the packet at RIDX has been published: its index is below WIDX and its byte 0 carries the phase. -/
def Published (s : State) (pa : PA) : Prop :=
  ∀ j, j < slotsAt s pa → ridx s pa + j < s.qField pa.toNat 0x10 8 ∧ s.phaseOk pa.toNat (ridx s pa + j) = true

/-- The records forwarded by the die of a queue are those of before and one more, of which f holds. -/
def Forwards (s t : State) (pa : PA) (f : TrapRec → Prop) : Prop :=
  ∃ r, (t.die (cfgDie (s.qCfg pa.toNat))).fwd = (s.die (cfgDie (s.qCfg pa.toNat))).fwd ++ [r] ∧ f r

/-- The records of a queue's faults in the Ostler's trap queue of its die. -/
def queueRecs (s : State) : List TrapRec :=
  (s.die (cfgDie (s.qCfg s.arg.pa.toNat))).trapQ.filter fun r => r.who.toNat / 2 ^ 16 == (queueWho s.arg.pa 0).toNat / 2 ^ 16

/-- The state once the Ostler has taken them. -/
def noQueueRecs (s : State) : State :=
  s.modDie (cfgDie (s.qCfg s.arg.pa.toNat)) fun x =>
    { x with trapQ := x.trapQ.filter fun r => !(r.who.toNat / 2 ^ 16 == (queueWho s.arg.pa 0).toNat / 2 ^ 16) }

/-- None of them is a copy-on-write fault. -/
def noQueueCow (s : State) : Prop := ∀ r ∈ queueRecs s, ¬ (r.code = 0x10 ∧ r.kind = 2)

/-- Who spawns with a SPAWN packet of a queue, whose descriptor's bytes are cs (R214, R46). -/
def queueSpawner (s s1 : State) (pa : PA) (cs : List Carried) : Spawner :=
  let a := s.queueAgent (s.dray pa)
  { priv := a.priv, rights := match (s.dray pa).owner with | some o => o.rights | none => 15
    noFare := s1.packetNoFare a (ofN (leAt (plain cs) 0x18 8)) }

/-- What CSUMR holds as a copy starts: 1 in modes 1 and 4, else what it held (R210). -/
def csumAt (s : State) (pa : PA) (j : CopyJob) : Nat := if j.mode = 1 ∨ j.mode = 4 then 1 else s.qField pa.toNat 0x30 4

end Sys2Proof.Claims

/-- R203, R206, R207, R212, R217: an engine whose turn it is takes a published packet, and RIDX advances past its slots; a FENCE is held instead; a
malformed packet stops the queue, is reported as 0x01, and RIDX stays; a packet that has lost its engine is taken up before another is parsed; an
unpublished slot makes the parser wait. After 10 ms the wait is broken with a NOP in the slot that
is still unpublished, where there is one, and reported as 0x19, reason 9. A FENCE is passed once every reference is met, waits until then, and is reported after 10 ms, once, with reason 10. -/
def Obligations.ParserTakesPublishedPackets : Prop :=
  (∀ (s : State) (e : Fin 4), Claims.ParserMay s s.arg.pa → Claims.Turn s s.arg.pa e → Claims.Published s s.arg.pa →
    packetBad (Claims.bytesAt s s.arg.pa) = false → Claims.Gives .packetParse s fun t => Claims.ridx t s.arg.pa = (Claims.ridx s s.arg.pa + Claims.slotsAt s s.arg.pa) % 2 ^ 64
      ∧ if leAt (Claims.bytesAt s s.arg.pa) 0 1 / 2 % 16 = 3 then
          (t.dray s.arg.pa).fence = some (Claims.ridx s s.arg.pa, Claims.bytesAt s s.arg.pa) ∧ (t.dray s.arg.pa).pkts = (s.dray s.arg.pa).pkts
        else (t.dray s.arg.pa).pkts =
          (s.dray s.arg.pa).pkts ++ [{ newPacket (Claims.ridx s s.arg.pa) (Claims.bytesAt s s.arg.pa) s.now with eng := some e }])
  ∧ (∀ (s : State) (e : Fin 4), Claims.ParserMay s s.arg.pa → Claims.Turn s s.arg.pa e → Claims.Published s s.arg.pa → packetBad (Claims.bytesAt s s.arg.pa) = true →
      Claims.Gives .packetParse s fun t => Claims.ridx t s.arg.pa = Claims.ridx s s.arg.pa ∧ (t.dray s.arg.pa).pkts = (s.dray s.arg.pa).pkts
        ∧ (t.qField s.arg.pa.toNat 0x34 4).testBit 3 = true ∧ Claims.Forwards s t s.arg.pa fun r => r.code = 0x01)
  ∧ (∀ (s : State) (e : Fin 4) (i : Nat) (p : Packet), cfgMgmt (s.qCfg s.arg.pa.toNat) = false → Claims.Turn s s.arg.pa e →
      Claims.First (s.dray s.arg.pa).pkts i p (fun x => x.eng.isNone) →
        Claims.Gives .packetParse s fun t => (t.dray s.arg.pa).pkts = (s.dray s.arg.pa).pkts.modify i (fun x => { x with eng := some e })
          ∧ (t.cluster (cfgDie (s.qCfg s.arg.pa.toNat)) (cfgCluster (s.qCfg s.arg.pa.toNat))).turn[e.val] = s.arg.pa)
  ∧ (∀ s : State, Claims.ParserMay s s.arg.pa → ¬ Claims.Published s s.arg.pa → (s.dray s.arg.pa).waitSince = none →
      Claims.Gives .packetParse s fun t => Claims.ridx t s.arg.pa = Claims.ridx s s.arg.pa ∧ (t.dray s.arg.pa).pkts = (s.dray s.arg.pa).pkts
        ∧ (t.dray s.arg.pa).waitSince = some s.now)
  ∧ (∀ (s : State) (since i : Nat) (x : Target), s.MemoryForm → (s.dray s.arg.pa).waitSince = some since → since + 22500000 ≤ s.now →
      (s.dray s.arg.pa).fence = none → s.ringHeld s.arg.pa.toNat (Claims.ridx s s.arg.pa) 4 = false → s.stalledAt s.arg.pa.toNat = some i →
      Claims.PoolDesc s s.arg.pa → s.target (s.slotPa s.arg.pa.toNat i) .cached = some x → Claims.plainTarget x = true →
      (s.slotPa s.arg.pa.toNat i < s.arg.pa.toNat ∨ s.arg.pa.toNat + 64 ≤ s.slotPa s.arg.pa.toNat i) →
      Claims.Gives .parserStallTimeout s fun t => (t.dray s.arg.pa).waitSince = none
        ∧ t.homeLE (s.slotPa s.arg.pa.toNat i) 1 = i / 2 ^ cfgLog (s.qCfg s.arg.pa.toNat) % 2
        ∧ Claims.Forwards s t s.arg.pa fun r => r.code = 0x19 ∧ r.wr = 9 ∧ r.addr = s.arg.pa.setWidth 64)
  ∧ (∀ s : State, s.stalledAt s.arg.pa.toNat = none → Leads .parserStallTimeout s s)
  ∧ (∀ (s : State) (i : Nat) (bs : List Byte), (s.dray s.arg.pa).fence = some (i, bs) → s.qHalted s.arg.pa.toNat = false → s.paHeld s.arg.pa.toNat 64 = false →
      (∀ j, j < leAt bs 1 1 % 16 → s.fenceRef (s.dray s.arg.pa) (leAt bs (16 + 4 * j) 4) = true) →
        Claims.Gives .fencePacket s fun t => (t.dray s.arg.pa).fence = none ∧ (t.dray s.arg.pa).waitSince = none
          ∧ (t.dray s.arg.pa).pkts = (s.dray s.arg.pa).pkts
          ∧ ((leAt bs 0 1).testBit 6 = false → t.irqs = s.irqs) ∧ ((leAt bs 0 1).testBit 6 = true → t.irqs.length = s.irqs.length + 1))
  ∧ (∀ (s : State) (i j : Nat) (bs : List Byte), (s.dray s.arg.pa).fence = some (i, bs) → s.qHalted s.arg.pa.toNat = false → s.paHeld s.arg.pa.toNat 64 = false →
      (s.dray s.arg.pa).waitSince = none → j < leAt bs 1 1 % 16 → s.fenceRef (s.dray s.arg.pa) (leAt bs (16 + 4 * j) 4) = false →
        Claims.Gives .fencePacket s fun t => (t.dray s.arg.pa).fence = some (i, bs) ∧ (t.dray s.arg.pa).waitSince = some s.now)
  ∧ (∀ (s : State) (i since : Nat) (bs : List Byte), (s.dray s.arg.pa).fence = some (i, bs) → (s.dray s.arg.pa).waitSince = some since →
      since + 22500000 ≤ s.now → (s.dray s.arg.pa).told = false →
        Claims.Gives .fencePacketTimeout s fun t => (t.dray s.arg.pa).told = true ∧ (t.dray s.arg.pa).fence = some (i, bs)
          ∧ Claims.Forwards s t s.arg.pa fun r => r.code = 0x19 ∧ r.wr = 10 ∧ r.addr = s.arg.pa.setWidth 64)

/-- R207 to R217: packets in progress. A NOP is complete when parsed; a COPY begins, with the register of R210 where its mode takes it up;
a landing unit read from a packet's source lands at its destination; a SIGNAL waits to be first and then posts; a SPAWN whose descriptor is not
in order has the status of R45 in STAT, and one that is has a new node accepted; a GATHER takes its elements in order. A packet with nothing left
to do completes: STAT, and the host interrupt where flag 6 asks for it. A suspended queue goes on where the Ostler resolves its fault, a
copy-on-write fault as R115 says. -/
def Obligations.PacketsDoTheirWork : Prop :=
  (∀ (s : State) (i : Nat) (p : Packet), Claims.QueueGoes s s.arg.pa → Claims.Worked (s.dray s.arg.pa).pkts i p (fun x => x.type == 0) →
    Claims.Gives .nopPacket s fun t => (t.dray s.arg.pa).pkts = (s.dray s.arg.pa).pkts.eraseIdx i)
  ∧ (∀ (s : State) (i : Nat) (p : Packet), Claims.QueueGoes s s.arg.pa →
      Claims.Worked (s.dray s.arg.pa).pkts i p (fun x => x.type == 1 && x.job.isNone) →
      (p.at 2 1 = 0 ∨ ∀ x ∈ (s.dray s.arg.pa).pkts.take i, x.summed = false) → Claims.PoolDesc s s.arg.pa → Claims.BusyRight s s.arg.pa →
        Claims.Gives .copy s fun t => (t.dray s.arg.pa).pkts = (s.dray s.arg.pa).pkts.modify i (fun _ =>
          { p with job := (copyOf p.bytes).map fun j => j.start (BitVec.ofNat 32 (Claims.csumAt s s.arg.pa j)) })
          ∧ ∀ j, copyOf p.bytes = some j → t.qField s.arg.pa.toNat 0x30 4 = Claims.csumAt s s.arg.pa j)
  ∧ (∀ (s : State) (pa : PA) (p : Packet) (j : CopyJob) (u : CopyUnit) (bs : List Byte) (k : CoreId) (off : Nat), s.MemoryForm →
      s.arg.job = .queue pa → Claims.QueueGoes s pa → Claims.PoolDesc s pa → Claims.BusyRight s pa → (s.dray pa).pkts = [p] → p.eng ≠ none → p.job = some j → j.flight = [u] →
      j.read = j.total → j.arrival = false → j.loss = none → u.data = some (Machine.clean bs) → bs.length = u.size →
      (s.cluster (cfgDie (s.qCfg pa.toNat)) (cfgCluster (s.qCfg pa.toNat))).moved < 16 → s.portsAllow [(.bank k off, u.size)] true = true →
      s.moverCut { s.queueMover (s.dray pa) p.idx with lost := j.lost } u.dst u.size .store = false →
      s.moverTargets (s.queueMover (s.dray pa) p.idx) .store (cutRange 128 u.dst u.size) = .ok [(.bank k off, u.dst, u.size)] →
        Claims.Gives .landingUnit s fun t => Claims.Stored s t (bankKey k off) bs
          ∧ ∃ x, (t.dray pa).pkts = [{ p with job := some x }] ∧ x.over = true ∧ x.poison = j.poison ∧ x.loss = none)
  ∧ (∀ (s : State) (p : Packet) (rest : List Packet) (k : CoreId) (off : Nat) (e : Option TlbEnt), s.MemoryForm →
      Claims.QueueGoes s s.arg.pa → Claims.PoolDesc s s.arg.pa → (s.dray s.arg.pa).pkts = p :: rest → p.eng ≠ none → p.type = 4 → p.at 58 2 = 0xFFFF →
      Claims.ofN (p.at 8 8) ≠ 0 →
      s.check (s.queueAgent (s.dray s.arg.pa)) [] (Claims.ofN (p.at 8 8)) 8 8 .atomic = .ok (.bank k off, e) →
        Claims.Gives .signalPacket s fun t => (t.dray s.arg.pa).pkts = rest
          ∧ t.mem.readLE (bankKey k off) 8
              = (signalAdd (Claims.ofN (s.mem.readLE (bankKey k off) 8)) (BitVec.ofNat 24 (p.at 16 4))).toNat)
  ∧ (∀ (s s1 : State) (i st : Nat) (p : Packet) (cs : List Carried), Claims.QueueGoes s s.arg.pa →
      Claims.Worked (s.dray s.arg.pa).pkts i p (fun x => x.type == 5 && !x.worked) → p.at 16 8 = 0 →
      s.moverRead (s.queueMover (s.dray s.arg.pa) p.idx) (Claims.ofN (p.at 8 8)).toNat 256 = .ok (s1, cs) →
      s1.packetHeld (s.queueAgent (s.dray s.arg.pa)) (Claims.ofN (leAt (Machine.plain cs) 0x18 8)) = false →
      st = s1.spawnStatus (Claims.queueSpawner s s1 s.arg.pa cs) (Claims.ofN (p.at 8 8)).toNat (Machine.plain cs) → st ≠ 0 →
        Claims.Gives .spawnPacket s fun t => t.nodes = s1.nodes ∧ (t.dray s.arg.pa).pkts = (s1.dray s.arg.pa).pkts.modify i fun x =>
          { x with worked := true, stat := BitVec.ofNat 32 (x.stat.toNat + st * 2 ^ 24 + 16) })
  ∧ (∀ (s s1 s2 : State) (i : Nat) (p : Packet) (cs sb : List Carried), Claims.QueueGoes s s.arg.pa →
      Claims.Worked (s.dray s.arg.pa).pkts i p (fun x => x.type == 5 && !x.worked) → p.at 16 8 = 0 →
      s.moverRead (s.queueMover (s.dray s.arg.pa) p.idx) (Claims.ofN (p.at 8 8)).toNat 256 = .ok (s1, cs) →
      s1.packetHeld (s.queueAgent (s.dray s.arg.pa)) (Claims.ofN (leAt (Machine.plain cs) 0x18 8)) = false →
      s1.spawnStatus (Claims.queueSpawner s s1 s.arg.pa cs) (Claims.ofN (p.at 8 8)).toNat (Machine.plain cs) = 0 →
      s1.moverRead (s.queueMover (s.dray s.arg.pa) p.idx) (leAt (Machine.plain cs) 0x28 8)
        (4 * bitsOf (descOf (Machine.plain cs) 0).deps.toNat 15 0) = .ok (s2, sb) → (s2.dray s.arg.pa).pkts = (s.dray s.arg.pa).pkts →
        Claims.Gives .spawnPacket s fun t => t.nodes.length = s2.nodes.length + 1 ∧ ∃ x, (t.dray s.arg.pa).pkts[i]? = some x ∧ x.worked = true)
  ∧ (∀ (s : State) (i : Nat) (p : Packet) (j : GatherJob) (o : ElemOut), Claims.QueueGoes s s.arg.pa →
      Claims.Worked (s.dray s.arg.pa).pkts i p (fun x => x.type == 7 && !x.worked) → p.gjob = some j → j.took.length ≠ j.n → j.arrival = false →
      s.elemStep (s.queueMover (s.dray s.arg.pa) p.idx) j j.took.length = .ok o → o.fault = none → o.s.dray s.arg.pa = s.dray s.arg.pa →
        Claims.Gives .gatherPacket s fun t => (t.dray s.arg.pa).pkts = (s.dray s.arg.pa).pkts.modify i (fun x => { x with gjob := some o.job })
          ∧ o.job.took = j.took.length :: j.took)
  ∧ (∀ (s : State) (i : Nat) (p : Packet) (j : GatherJob), Claims.QueueGoes s s.arg.pa →
      Claims.Worked (s.dray s.arg.pa).pkts i p (fun x => x.type == 7 && !x.worked) → p.gjob = some j → j.took.length = j.n →
        Claims.Gives .gatherPacket s fun t => ∃ x, (t.dray s.arg.pa).pkts[i]? = some x ∧ x.worked = true ∧ x.over = true)
  ∧ (∀ (s : State) (p : Packet), Claims.QueueGoes s s.arg.pa → (s.dray s.arg.pa).pkts = [p] → p.eng ≠ none → p.over = true → p.type ≠ 6 →
      p.at 58 2 = 0xFFFF → (∀ j, p.job = some j → j.mode = 0) →
        Claims.Gives .packetCompletion s fun t => (t.dray s.arg.pa).pkts = []
          ∧ t.irqs = (if p.flag 6 then s.queueVector s.arg.pa :: s.irqs else s.irqs))
  ∧ (∀ (s : State) (p : Packet) (ent : Nat), Claims.QueueGoes s s.arg.pa → Claims.PoolDesc s s.arg.pa → (s.dray s.arg.pa).pkts = [p] → p.eng ≠ none →
      p.over = true → p.type ≠ 6 → p.job = none → p.deferred = [] → p.mismatch = false →
      s.sigEntry (s.dray s.arg.pa) p = some ent → s.homeLE ent 8 = 0 → ent + 16 ≤ s.arg.pa.toNat →
      (∀ o, o < 16 → s.inPool (ent + o) = true) →
        Claims.Gives .packetCompletion s fun t => (t.dray s.arg.pa).pkts = [] ∧ t.homeLE (ent + 12) 4 = p.stat.toNat)
  ∧ (∀ s : State, s.qField s.arg.pa.toNat 0x34 4 / 4 % 2 = 1 → s.installing (cfgDie (s.qCfg s.arg.pa.toNat)) = false → s.arg.yes = true → Claims.PoolDesc s s.arg.pa → Claims.noQueueCow s →
      Claims.Gives .queueFaultService s fun t => (t.qField s.arg.pa.toNat 0x34 4).testBit 2 = false
        ∧ ∀ r ∈ (t.die (cfgDie (s.qCfg s.arg.pa.toNat))).trapQ, r.who.toNat / 2 ^ 16 ≠ (queueWho s.arg.pa 0).toNat / 2 ^ 16)
  ∧ (∀ (s u : State) (r : TrapRec), s.qField s.arg.pa.toNat 0x34 4 / 4 % 2 = 1 → s.installing (cfgDie (s.qCfg s.arg.pa.toNat)) = false → Claims.queueRecs s = [r] → r.code = 0x10 → r.kind = 2 →
      (Claims.noQueueRecs s).cow ((Claims.noQueueRecs s).queueAgent ((Claims.noQueueRecs s).dray s.arg.pa)).root
        ((Claims.noQueueRecs s).queueTask ((Claims.noQueueRecs s).dray s.arg.pa)) r.addr.toNat = .done u →
        Leads .queueFaultService s (u.setQStatus s.arg.pa.toNat 0 0 false false))
  ∧ (∀ s : State, s.qField s.arg.pa.toNat 0x34 4 / 4 % 2 = 1 → s.installing (cfgDie (s.qCfg s.arg.pa.toNat)) = false → s.arg.yes = false → Claims.noQueueCow s →
      Claims.Gives .queueFaultService s fun t => t = { s with dies := t.dies } ∧ (t.die (cfgDie (s.qCfg s.arg.pa.toNat))).fwd
        = (s.die (cfgDie (s.qCfg s.arg.pa.toNat))).fwd
          ++ (s.die (cfgDie (s.qCfg s.arg.pa.toNat))).trapQ.filter fun r => r.who.toNat / 2 ^ 16 == (queueWho s.arg.pa 0).toNat / 2 ^ 16)

namespace Sys2Proof.Claims

open Machine

/-- The next packet of a queue's collectives: one that has not begun, or one with a partial to combine. -/
def Reduces (s : State) (i : Nat) (p : Packet) : Prop :=
  Worked (s.dray s.arg.pa).pkts i p fun x => x.type == 6 && (!x.worked || (x.collecting && !x.got.isEmpty))

/-- The packet of the collective that a chunk names. -/
def Receives (s : State) (i : Nat) (p : Packet) : Prop :=
  First (s.dray s.arg.pa).pkts i p fun x => x.collecting && x.at 32 4 == s.arg.num2 % 2 ^ 32

/-- The chunk that arrives. -/
def theChunk (s : State) : Chunk := { i := s.arg.num, words := s.arg.words.map fun w => w.setWidth 32, poison := false }

/-- A chunk arrives that agrees with the packet, is new to it, and is neither poisoned nor cut off. -/
def Agrees (s : State) (p : Packet) : Prop :=
  s.arg.code = 0 ∧ s.arg.num < p.chunkCount ∧ s.arg.words.length = p.chunkElems s.arg.num ∧ (∀ c ∈ p.results, c.i ≠ s.arg.num)
    ∧ (∀ c ∈ p.got, c.i ≠ s.arg.num) ∧ s.arg.yes = false ∧ s.arg.yes2 = false

/-- A packet with the partial that has arrived. -/
def withPartial (s : State) (x : Packet) : Packet := { x with since := s.now, told := false, got := x.got ++ [theChunk s] }

/-- A packet once partial c is combined with this module's contribution: the chunk goes on, or is the result where its owner is reached. -/
def joined (s : State) (pos : Nat) (c own : Chunk) (x : Packet) : Packet :=
  let sum := List.zipWith (combineElem x.isMax (x.at 2 1)) c.words own.words
  let x := { x with got := x.got.filter fun y => y.i != c.i }
  if pos = c.i % s.ringSize (x.at 28 1) then
    { x with results := x.results ++ [{ i := c.i, words := sum.map (resultElem (x.at 2 1)), poison := false }] }
  else { x with chunks := x.chunks ++ [{ i := c.i, words := sum, poison := false }] }

end Sys2Proof.Claims

/-- R215, R359, R360: a REDUCE begins with this module's contributions; a chunk that comes where this module has not contributed is combined
and forwarded, or, at the last position of its round, is the result; it is kept and combined later where the packet cannot go on; one that comes back
is the result; one that differs marks the collective mismatched; a participant absent for 10 ms is reported as 0x19, once. -/
def Obligations.CollectivesGoRound : Prop :=
  (∀ (s s' : State) (i pos : Nat) (p : Packet) (cs : List Chunk), Claims.QueueGoes s s.arg.pa → Claims.Reduces s i p → p.worked = false →
    s.ringPos (p.at 28 1) = some pos →
    s.starts (s.queueMover (s.dray s.arg.pa) p.idx) p ((List.range p.chunkCount).filter fun c => (c + 1) % s.ringSize (p.at 28 1) == pos)
      = .ok (s', cs) → (∀ c ∈ cs, c.poison = false) →
      Claims.Gives .reduce s fun t =>
        (t.dray s.arg.pa).pkts = (s.dray s.arg.pa).pkts.modify i fun x => { x with worked := true, chunks := cs, since := s.now })
  ∧ (∀ (s s' : State) (i pos : Nat) (p : Packet) (c own : Chunk) (rest : List Chunk), Claims.QueueGoes s s.arg.pa → Claims.Reduces s i p →
      p.worked = true → p.got = c :: rest → c.poison = false → s.ringPos (p.at 28 1) = some pos →
      s.contribution (s.queueMover (s.dray s.arg.pa) p.idx) p c.i = .ok (s', own) → own.poison = false →
        Claims.Gives .reduce s fun t => (t.dray s.arg.pa).pkts = (s.dray s.arg.pa).pkts.modify i (Claims.joined s pos c own))
  ∧ (∀ (s : State) (i pos : Nat) (p : Packet), Claims.Receives s i p → s.ringPos (p.at 28 1) = some pos →
      (s.arg.code ≠ 0 ∨ p.chunkCount ≤ s.arg.num ∨ s.arg.words.length ≠ p.chunkElems s.arg.num) →
        Claims.Gives .reduceChunk s fun t =>
          (t.dray s.arg.pa).pkts = (s.dray s.arg.pa).pkts.modify i fun x => { x with mismatch := true })
  ∧ (∀ (s : State) (i pos : Nat) (p : Packet), Claims.Receives s i p → s.ringPos (p.at 28 1) = some pos → Claims.Agrees s p →
      (∃ c ∈ p.chunks, c.i = s.arg.num) →
        Claims.Gives .reduceChunk s fun t => (t.dray s.arg.pa).pkts = (s.dray s.arg.pa).pkts.modify i fun x =>
          { x with since := s.now, told := false, results := x.results ++ [Claims.theChunk s] })
  ∧ (∀ (s : State) (i pos : Nat) (p : Packet), Claims.Receives s i p → s.ringPos (p.at 28 1) = some pos → Claims.Agrees s p →
      (∀ c ∈ p.chunks, c.i ≠ s.arg.num) → p.eng = none →
        Claims.Gives .reduceChunk s fun t => (t.dray s.arg.pa).pkts = (s.dray s.arg.pa).pkts.modify i (Claims.withPartial s))
  ∧ (∀ (s s1 s' : State) (i pos : Nat) (p : Packet) (own : Chunk), Claims.Receives s i p → s.ringPos (p.at 28 1) = some pos → Claims.Agrees s p →
      (∀ c ∈ p.chunks, c.i ≠ s.arg.num) → p.eng ≠ none → s1 = s.modPkt s.arg.pa i (Claims.withPartial s) → Claims.QueueGoes s1 s.arg.pa →
      s1.ringSize (p.at 28 1) = s.ringSize (p.at 28 1) →
      s1.contribution (s1.queueMover (s1.dray s.arg.pa) p.idx) p s.arg.num = .ok (s', own) → own.poison = false →
        Claims.Gives .reduceChunk s fun t =>
          (t.dray s.arg.pa).pkts = (s1.dray s.arg.pa).pkts.modify i (Claims.joined s pos (Claims.theChunk s) own))
  ∧ (∀ (s : State) (i : Nat) (p : Packet), Claims.QueueGoes s s.arg.pa →
      Claims.Worked (s.dray s.arg.pa).pkts i p (fun x => x.collecting && !x.told && decide (x.since + 22500000 ≤ s.now)) →
        Claims.Gives .collectiveTimeout s fun t => (t.dray s.arg.pa).pkts = (s.dray s.arg.pa).pkts.modify i (fun x => { x with told := true })
          ∧ Claims.Forwards s t s.arg.pa fun r => r.code = 0x19 ∧ r.addr = s.arg.pa.setWidth 64)

namespace Sys2Proof.Claims

open Machine

/-! #### The T engine and the chains (R123, R201, R209, R222 to R231) -/

/-- T of core k may go on, its registers are sound, and its oldest command has begun and has not stopped. -/
def TFirst (s : State) (k : CoreId) (c : TCmd) (rest : List TCmd) : Prop :=
  s.tGoes k = true ∧ (s.core k).preempt = none ∧ (s.ctx k).te.queue = c :: rest ∧ c.started = true ∧ c.stop = none ∧ (s.ctx k).regEcc = []

/-- The queue of T. -/
def tq (s : State) (k : CoreId) : List TCmd := (s.ctx k).te.queue

/-- The index list of a fold that runs, which only PERMUTE reads (R229). -/
def indexList (s : State) (k : CoreId) (c : TCmd) (j : FoldJob) : Except EStop (State × List Carried) :=
  if j.op = 1 then (s.beforeFolds k 0).moverRead (s.tMover k c) j.x.toNat (4 * foldRows j.g) else .ok (s, [])

/-- Ranges of keys that lie in banks, no two of them meeting. -/
def Banks (l : List (Nat × Nat)) : Prop :=
  (∀ r ∈ l, ∃ b off, r.1 = bankKey b off ∧ keyTarget r.1 = some (.bank b off)) ∧ l.Pairwise fun a b => a.1 + a.2 ≤ b.1 ∨ b.1 + b.2 ≤ a.1

/-- The ranges l of memory hold bs, one after the other, and every byte outside them is as it was. -/
def Filled (s t : State) (l : List (Nat × Nat)) (bs : List Byte) : Prop :=
  (l.flatMap fun r => t.mem.readBytes r.1 r.2) = bs ∧ ∀ a, (∀ r ∈ l, a < r.1 ∨ r.1 + r.2 ≤ a) → t.mem.read a = s.mem.read a

end Sys2Proof.Claims

/-- R201, R209, R225, R126: T's oldest command. A unit of its copy lands where the copy's destination lies; an element of its gather or scatter is
taken, the one that ordered landing or the pick names; a multicast takes its members; a unit of one within the cluster enters the broadcast tree, and
lands in the members 12 cycles later; of one outside it lands in a member; a command with nothing left to do is complete: its deferred faults are due, its tokens are pushed, and the next command is the oldest. -/
def Obligations.TransferCommandsProgress : Prop :=
  (∀ (s : State) (k b : CoreId) (off : Nat) (c : TCmd) (rest : List TCmd) (j : CopyJob) (u : CopyUnit) (bs : List Byte), s.MemoryForm →
    s.arg.job = .core k → Claims.TFirst s k c rest → c.op = .copy j → j.flight = [u] → j.read = j.total → j.arrival = false → j.loss = none →
    u.data = some (Machine.clean bs) → bs.length = u.size → (∀ n, s.nodeOf k = some n → n.watch = .replicate 8 none) →
    (s.beforeFolds k 0).moverCut { s.tMover k c with lost := j.lost } u.dst u.size .store = false → s.portsAllow [(.bank b off, u.size)] true = true →
    (s.beforeFolds k 0).moverTargets (s.tMover k c) .store (cutRange 128 u.dst u.size) = .ok [(.bank b off, u.dst, u.size)] →
      Claims.Gives .landingUnit s fun t => Claims.Stored s t (bankKey b off) bs
        ∧ ∃ x, Claims.tq t k = { c with op := .copy x, skip := 0 } :: rest ∧ x.over = true ∧ x.poison = j.poison ∧ x.loss = none)
  ∧ (∀ (s : State) (c : TCmd) (rest : List TCmd) (j : GatherJob) (o : ElemOut), Claims.TFirst s s.arg.k c rest → c.op = .gather j →
      (s.ctx s.arg.k).mayRead j = true → j.arrival = false →
      (s.beforeFolds s.arg.k 0).elemStep (s.tMover s.arg.k c) j (j.pick s.arg.num) = .ok o → o.row = none → o.fault = none →
        Claims.Gives .gatherReply s fun t => o.job.took = j.pick s.arg.num :: j.took
          ∧ Claims.tq t s.arg.k = { c with op := .gather { o.job with listed := true }, skip := 0 } :: rest)
  ∧ (∀ (s : State) (c : TCmd) (rest : List TCmd) (j : McastJob), Claims.TFirst s s.arg.k c rest → c.op = .mcast j → j.members = none →
      Claims.Gives .multicastLanding s fun t => Claims.SameMemory s t
        ∧ Claims.tq t s.arg.k = { c with op := .mcast { j with members := some ((s.members j.group).map fun p => (p, 0)) } } :: rest
        ∧ (s.members j.group = [] → (t.regs s.arg.k).wflags = (s.regs s.arg.k).wflags ||| 0x20000))
  ∧ (∀ (s s' : State) (c : TCmd) (rest : List TCmd) (j : McastJob) (l : List ((NodeId × CoreId) × Nat)) (n : Nat) (bs : List Byte),
      Claims.TFirst s s.arg.k c rest → c.op = .mcast j → j.members = some l → l ≠ [] → (∀ m ∈ l, sameCluster m.1.2 s.arg.k = true) → j.sent < j.n →
      n = min (j.n - j.sent) (128 - (j.off + j.sent) % 128) → (s.cluster s.arg.k.die s.arg.k.cluster).entered + n ≤ 256 →
      s.mcHeld s.arg.k (l.map fun m => m.1) (j.off + j.sent) n = false →
      (s.beforeFolds s.arg.k 0).moverRead (s.tMover s.arg.k c) (addr64 (j.src.toNat + j.sent)) n = .ok (s', Machine.clean bs) →
      s.mcWatch (s.tMover s.arg.k c) j.group (j.off + j.sent) (Machine.clean bs) = none →
        Claims.Gives .multicastLanding s fun t => t.mem = s'.mem
          ∧ (t.cluster s.arg.k.die s.arg.k.cluster).tree = (s'.cluster s.arg.k.die s.arg.k.cluster).tree
              ++ [{ left := 12, k := s.arg.k, seqn := c.seqn, group := j.group, off := j.off + j.sent, data := Machine.clean bs }]
          ∧ Claims.tq t s.arg.k = { c with op := .mcast { j with sent := j.sent + n }, skip := 0 } :: rest)
  ∧ (∀ (s : State) (d : Die) (cl : Cluster) (u : TreeUnit), (s.cluster d cl).tree = [u] → 1 < u.left →
      ((s.tickTree d cl).cluster d cl).tree = [{ u with left := u.left - 1 }] ∧ Claims.SameMemory s (s.tickTree d cl))
  ∧ (∀ (s : State) (d : Die) (cl : Cluster) (u : TreeUnit) (c : TCmd) (rest : List TCmd) (j : McastJob) (p : NodeId × CoreId) (at_ : Nat)
      (bs : List Byte), s.MemoryForm → (s.cluster d cl).tree = [u] → u.left = 1 → u.data = Machine.clean bs →
      Claims.tq s u.k = c :: rest → c.op = .mcast j → c.seqn = u.seqn → j.members = some [(p, at_)] → s.receives (s.agent u.k) p = true →
        Claims.Stored s (s.tickTree d cl) (bankKey p.2 u.off) bs ∧ ((s.tickTree d cl).cluster d cl).tree = []
          ∧ Claims.tq (s.tickTree d cl) u.k = { c with op := .mcast { j with members := some [(p, at_ + bs.length)] }, skip := 0 } :: rest)
  ∧ (∀ (s s' : State) (c : TCmd) (rest : List TCmd) (j : McastJob) (p : NodeId × CoreId) (at_ n : Nat) (bs : List Byte), s.MemoryForm →
      Claims.TFirst s s.arg.k c rest → c.op = .mcast j → j.members = some [(p, at_)] → at_ < j.n → sameCluster p.2 s.arg.k = false →
      n = min (j.n - at_) (128 - (j.off + at_) % 128) → s.mcHeld s.arg.k [p] (j.off + at_) n = false →
      s.portsAllow [(.bank p.2 (j.off + at_), n)] true = true →
      s.mcWatch (s.tMover s.arg.k c) j.group (j.off + at_) (Machine.clean bs) = none →
      (s.beforeFolds s.arg.k 0).moverRead (s.tMover s.arg.k c) (addr64 (j.src.toNat + at_)) n = .ok (s', Machine.clean bs) →
      s'.mem = s.mem → bs.length = n → (s'.withQueueOf s s.arg.k).receives (s'.agent s.arg.k) p = true →
        Claims.Gives .multicastLanding s fun t => Claims.Stored s t (bankKey p.2 (j.off + at_)) bs
          ∧ Claims.tq t s.arg.k = { c with op := .mcast { j with members := some [(p, at_ + n)] }, skip := 0 } :: rest)
  ∧ (∀ (s : State) (c : TCmd) (rest : List TCmd), Claims.TFirst s s.arg.k c rest → (s.ctx s.arg.k).tOver c = true →
      Claims.Gives .tCommandComplete s fun t => Claims.tq t s.arg.k = rest
        ∧ (t.core s.arg.k).pend = (s.core s.arg.k).pend ++ c.dueFault s.now
        ∧ ∀ ix n, c.fin = { push := [(ix, n)], sig := [], unbound := false } →
            (t.regs s.arg.k).tok[ix.val] = (s.regs s.arg.k).tok[ix.val] + n)

/-- R229, R230: the cluster's fold engine, when free, starts the fold that arrived first, once no access issued before reaches its ranges. When the fold completes, the destination holds the
permuted, tiled, interleaved or padded source, every byte of which was read before any was written, and the engine is free. -/
def Obligations.FoldsRearrangeBanks : Prop :=
  (∀ (s : State) (k : CoreId) (since i : Nat) (c : TCmd) (j : FoldJob), (s.cluster s.arg.d s.arg.c).folding = none →
    s.firstFold s.arg.d s.arg.c = some (k, since) → s.foldReady k = some (i, c, j) → c.started = true → (s.ctx k).regEcc = [] →
    s.accessed s.arg.d s.arg.c (j.src ++ j.dst) = false →
      Claims.Gives .foldStart s fun t => (t.cluster s.arg.d s.arg.c).folding = some k ∧ Claims.SameMemory s t
        ∧ ∃ x, (Claims.tq t k)[i]? = some x ∧ x.op = .fold { j with started := true })
  ∧ (∀ (s s' : State) (k : CoreId) (c : TCmd) (j : FoldJob) (rest : List TCmd) (ib : List Carried), s.MemoryForm →
      (s.cluster s.arg.d s.arg.c).folding = some k → Claims.tq s k = c :: rest → c.op = .fold j → j.started = true → j.left = 0 →
      Claims.indexList s k c j = .ok (s', ib) → Claims.Banks j.dst →
      (foldBytes j.op j.g j.x (s'.foldRead j.src) (Machine.plain ib)).1.length = (j.dst.map fun r => r.2).sum → c.fin.sig = [] →
        Claims.Gives .foldComplete s fun t => (t.cluster s.arg.d s.arg.c).folding = none ∧ Claims.tq t k = rest
          ∧ Claims.Filled s' t j.dst (Machine.plain (foldBytes j.op j.g j.x (s'.foldRead j.src) (Machine.plain ib)).1))

/-- R222: a chain context reads its entry once STATUS is cleared, starts the copy of an entry whose wait is met, waits where it is not, is
suspended where the wait word cannot be read, with a record of CLASS 1, which is the model's choice (log entry 22), and stops on a malformed entry. When the copy is over STATUS says so, and NEXT, read in one atomic step, gives the next entry or ends the context. -/
def Obligations.ChainContextsRunTheirEntries : Prop :=
  (∀ (s : State) (c : Chain) (j : CopyJob) (met : Bool), c = s.chainOf s.arg.k s.arg.x → c.active = true → c.job = none →
    s.chainMayStart s.arg.k = true → c.img ≠ [] → copyOf c.img = some j → s.chainMet (s.chainMover s.arg.k c) c = .ok met →
      Claims.Gives .chainEntryStart s fun t => Claims.SameMemory s t ∧ t.chainOf s.arg.k s.arg.x =
        if met then { c with st := .running, job := some (j.start c.adler), met := true
                             adler := if j.mode = 1 ∨ j.mode = 4 then 1 else c.adler }
        else { c with st := .waiting })
  ∧ (∀ (s : State) (c : Chain) (j : CopyJob) (i : TrapInfo), c = s.chainOf s.arg.k s.arg.x → c.active = true → c.job = none →
      s.chainMayStart s.arg.k = true → c.img ≠ [] → copyOf c.img = some j → s.chainMet (s.chainMover s.arg.k c) c = .error (.trap i) →
        Claims.Gives .chainEntryStart s fun t => Claims.SameMemory s t ∧ t.chainOf s.arg.k s.arg.x = { c with st := .suspended }
          ∧ ∃ r : TrapRec, (t.die s.arg.k.die).trapQ = (s.die s.arg.k.die).trapQ ++ [r] ∧ r.code = i.code ∧ r.cls = 1)
  ∧ (∀ (s s1 s2 : State) (c : Chain) (j : CopyJob) (bs : List Carried), c = s.chainOf s.arg.k s.arg.x → c.active = true → c.job = none →
      s.chainMayStart s.arg.k = true → c.img = [] → s.chainPut (s.chainMover s.arg.k c) (c.entry + 0x68) 8 0 = .ok s1 →
      s1.moverRead (s.chainMover s.arg.k c) c.entry.toNat 128 = .ok (s2, bs) → copyOf (Machine.plain bs) = some j → j.dims.length ≤ 3 →
      leAt (Machine.plain bs) 0 1 / 2 % 16 = 1 → leAt (Machine.plain bs) 0x60 8 < 8 →
        Claims.Gives .chainEntryStart s fun t => (t.chainOf s.arg.k s.arg.x).img = Machine.plain bs
          ∧ ((leAt (Machine.plain bs) 0x60 8).testBit 0 = false →
              (t.chainOf s.arg.k s.arg.x).st = .running ∧ (t.chainOf s.arg.k s.arg.x).job = some (j.start c.adler)
                ∧ (t.chainOf s.arg.k s.arg.x).adler = if j.mode = 1 ∨ j.mode = 4 then 1 else c.adler))
  ∧ (∀ (s s1 s2 s3 : State) (c : Chain) (bs : List Carried), c = s.chainOf s.arg.k s.arg.x → c.active = true → c.job = none →
      s.chainMayStart s.arg.k = true → c.img = [] → s.chainPut (s.chainMover s.arg.k c) (c.entry + 0x68) 8 0 = .ok s1 →
      s1.moverRead (s.chainMover s.arg.k c) c.entry.toNat 128 = .ok (s2, bs) → copyOf (Machine.plain bs) = none →
      s2.chainPut (s.chainMover s.arg.k c) (c.entry + 0x68) 8 0x20 = .ok s3 →
        Claims.Gives .chainEntryStart s fun t => (t.chainOf s.arg.k s.arg.x).st = .stopped)
  ∧ (∀ (s : State) (k b : CoreId) (off : Nat) (c : Chain) (j : CopyJob) (bs : List Byte) , s.arg.job = .chain k s.arg.x → c = s.chainOf k s.arg.x →
      c.st = .running → c.job = some j → s.tGoes k = true → s.MemoryForm → (∃ u, j.flight = [u] ∧ u.data = some (Machine.clean bs)
        ∧ bs.length = u.size ∧ s.moverCut { s.chainMover k c with lost := j.lost } u.dst u.size .store = false
        ∧ s.portsAllow [(.bank b off, u.size)] true = true ∧ (s.cluster k.die k.cluster).moved < 16
        ∧ s.moverTargets (s.chainMover k c) .store (cutRange 128 u.dst u.size) = .ok [(.bank b off, u.dst, u.size)]) →
      j.read = j.total → j.arrival = false → j.loss = none →
        Claims.Gives .landingUnit s fun t => Claims.Stored s t (bankKey b off) bs ∧ ∃ x, (t.chainOf k s.arg.x).job = some x ∧ x.over = true)
  ∧ (∀ (s : State) (b : CoreId) (off : Nat) (c : Chain) (j : CopyJob), s.MemoryForm → c = s.chainOf s.arg.k s.arg.x → c.st = .running →
      c.job = some j → j.over = true → s.tGoes s.arg.k = true → c.fin = { push := [], sig := [], unbound := false } →
      c.flags.testBit 1 = false → idIndex j.ctr = 0 → j.loss = none → c.faults = [] →
      s.moverCheck (s.chainMover s.arg.k c) (c.entry + 0x40).toNat 64 .atomic = .ok (.bank b off) →
        Claims.Gives .chainEntryComplete s fun t =>
          let next := Claims.ofN (s.mem.readLE (bankKey b off) 8)
          let last := c.flags.testBit 2 || next == 0
          t.mem.readLE (bankKey b (off + 0x28)) 8 = 0x81 + (if j.poison then 8 else 0) + (if j.csumBad then 2 else 0)
              + (if last then 64 else 0) + j.total % 2 ^ 32 * 2 ^ 32
            ∧ (t.chainOf s.arg.k s.arg.x).job = none ∧ (t.chainOf s.arg.k s.arg.x).img = []
            ∧ if last then (t.chainOf s.arg.k s.arg.x).st = .ended
              else (t.chainOf s.arg.k s.arg.x).st = .running ∧ (t.chainOf s.arg.k s.arg.x).entry = next)

namespace Sys2Proof.Claims

open Machine

/-! #### The M engine (R123, R235, R244 to R253) -/

/-- M of core k may go on, its registers are sound, and its oldest command has begun and has not stopped. -/
def MFirst (s : State) (k : CoreId) (c : MCmd) (rest : List MCmd) : Prop :=
  s.mGoes k 0 = true ∧ (s.ctx k).me.queue = c :: rest ∧ c.started = true ∧ c.stop = none ∧ (s.ctx k).regEcc = []

/-- The queue of M. -/
def mq (s : State) (k : CoreId) : List MCmd := (s.ctx k).me.queue

/-- The pieces of n bytes at va, which lie one after the other in bank b from offset off on. -/
def banked (b : CoreId) (off va n : Nat) : List (Target × Nat × Nat) :=
  (cutRange 128 va n).map fun p => (.bank b (off + (p.1 - va)), p.1, p.2)

/-- The next row of an MRUN whose rows come from tiles, dense and without scales, lies in a tile that exists; a half array is not taking the second
half of a row (R363). -/
def TileRow (s : State) (k : CoreId) (c : MCmd) : Prop :=
  (s.core k).halfBusy = false ∧ c.op = .run ∧ c.arrived < c.rows ∧ c.arrived < 2 ^ 24 ∧ c.src = 1 ∧ c.sparse = none
    ∧ (c.mode (s.ctx k).wact.fmt?).1.mx = false ∧ (c.tileAt c.arrived).1 ≤ 15

end Sys2Proof.Claims

/-- R235: SWAPB exchanges the buffers and the command starts. R244, R246: the next row of an MRUN enters the array with the pass sums of its
elements, to reach its slot after 72 cycles, or 73 in half-array mode, and a tile of which it was the command's last row is lent to it no longer (R34); a row whose slot index lies outside the command stops it with 0x12; a row
whose slot has been taken is dropped under DUP 1 and stops the command with 0x13 under DUP 2. -/
def Obligations.RowsEnterTheArray : Prop :=
  (∀ (s : State) (c : MCmd) (rest : List MCmd), Claims.mq s s.arg.k = c :: rest → c.started = false → c.swaps = true → c.stop = none →
    s.mGoes s.arg.k 0 = true → s.mCanStart s.arg.k 0 c = true →
      Claims.Gives .weightBufferExchange s fun t => (t.ctx s.arg.k).wact = (s.ctx s.arg.k).wshd ∧ (t.ctx s.arg.k).wshd = (s.ctx s.arg.k).wact
        ∧ Claims.mq t s.arg.k = { c with started := true, swapped := true, waits := [], pops := [] } :: rest)
  ∧ (∀ (s : State) (c : MCmd) (rest : List MCmd), Claims.MFirst s s.arg.k c rest → Claims.TileRow s s.arg.k c → c.arrived < c.slots →
      c.seen.getLsbD c.arrived = false → (s.ctx s.arg.k).wact.poison = false →
        Claims.Gives .rowEntry s fun t =>
          let x := s.ctx s.arg.k
          let m := (c.mode x.wact.fmt?).1
          let precise := (s.die s.arg.k.die).precision && s.right s.arg.k 3
          Claims.mq t s.arg.k =
            { c with arrived := c.arrived + 1, next := c.next + 1, seen := c.seen ||| (1#512 <<< c.arrived), skip := 0, again := none
                     fly := c.fly ++ [{ left := if (s.core s.arg.k).halfArray then 73 else 72, g := c.arrived, poison := false, first := true, int := m.int
                                        sums := (passRow m precise x.wact (c.f 7 63 48)
                                          (x.tileRow (c.tiles.getD (c.tileAt c.arrived).1 0) (c.tileAt c.arrived).2) [] []).1 }] } :: rest
            ∧ (t.ctx s.arg.k).lent = x.lent.filter fun l => l.seqn != c.seqn || c.readsTile l.tile (c.arrived + 1))
  ∧ (∀ (s : State) (c : MCmd) (rest : List MCmd), Claims.MFirst s s.arg.k c rest → Claims.TileRow s s.arg.k c → c.slots ≤ c.arrived →
      (s.ctx s.arg.k).arrayEmpty = true → ∃ i : TrapInfo, i.code = 0x12
        ∧ Leads .rowEntry s ((s.modSeqn s.arg.k c.seqn fun x => { x with again := some c.arrived }).engineTrap s.arg.k .m c.seqn c.pc i))
  ∧ (∀ (s : State) (c : MCmd) (rest : List MCmd), Claims.MFirst s s.arg.k c rest → Claims.TileRow s s.arg.k c → c.arrived < c.slots →
      c.seen.getLsbD c.arrived = true → c.f 0 21 20 = 1 →
        Claims.Gives .rowEntry s fun t => Claims.mq t s.arg.k = { c with arrived := c.arrived + 1, nDup := c.nDup + 1, skip := 0, again := none } :: rest
          ∧ (t.regs s.arg.k).wflags = (s.regs s.arg.k).wflags ||| fDUPDROP)
  ∧ (∀ (s : State) (c : MCmd) (rest : List MCmd), Claims.MFirst s s.arg.k c rest → Claims.TileRow s s.arg.k c → c.arrived < c.slots →
      c.seen.getLsbD c.arrived = true → c.f 0 21 20 = 2 → (s.ctx s.arg.k).arrayEmpty = true →
        ∃ i : TrapInfo, i.code = 0x13
          ∧ Leads .rowEntry s ((s.modSeqn s.arg.k c.seqn fun x => { x with again := some c.arrived }).engineTrap s.arg.k .m c.seqn c.pc i))

/-- R245: a row that is due updates its slot: the first row of a tag replaces the lanes where WMOD is not add, and any other is added, in the
slot's kind; a poisoned row poisons the slot. R247, R248: an MRUN is complete once every row has entered and reached its slot; MZERO clears its slots.
R251: MDRAIN writes the oldest undrained slot's row where the O levels place it, and goes on; r[2] clears the slot. -/
def Obligations.SlotsAreUpdatedAndDrained : Prop :=
  (∀ (s : State) (c : MCmd) (r : FlyRow) (q : Nat), (s.ctx s.arg.k).acc.wf = true → Claims.mq s s.arg.k = [c] → c.fly = [r] → r.left = 0 →
    (s.ctx s.arg.k).regEcc = [] → r.poison = false → c.per = 1 → q = c.slotb + r.g → q < 512 → r.sums.length = 64 →
      Claims.Gives .rowSlotUpdate s fun t => Claims.mq t s.arg.k = [{ c with fly := [] }]
        ∧ (t.ctx s.arg.k).slotInt q = r.int
        ∧ (t.ctx s.arg.k).slotLanes q =
            if r.first && !c.adds then r.sums else (addLanes r.int ((s.ctx s.arg.k).slotLanes q) r.sums).1)
  ∧ (∀ (s : State) (c : MCmd) (r : FlyRow) (q : Nat), Claims.mq s s.arg.k = [c] → c.fly = [r] → r.left = 0 → r.poison = true → c.per = 1 →
      q = c.slotb + r.g → q < 512 →
        Claims.Gives .rowSlotUpdate s fun t => Claims.mq t s.arg.k = [{ c with fly := [] }] ∧ (t.ctx s.arg.k).slotPoison q = true
          ∧ (t.ctx s.arg.k).acc = (s.ctx s.arg.k).acc)
  ∧ (∀ (s : State) (c : MCmd) (rest : List MCmd), Claims.MFirst s s.arg.k c rest → c.op = .run → c.arrived = c.rows → c.fly = [] →
      Claims.Gives .mCommandComplete s fun t => Claims.mq t s.arg.k = rest
        ∧ (t.core s.arg.k).pend = (s.core s.arg.k).pend ++ c.dueFault s.now
        ∧ (t.ctx s.arg.k).lent = (s.ctx s.arg.k).lent.filter fun l => l.seqn != c.seqn)
  ∧ (∀ (s : State) (c : MCmd) (rest : List MCmd), Claims.MFirst s s.arg.k c rest → c.op = .zero →
      Claims.Gives .mCommandComplete s fun t => Claims.mq t s.arg.k = rest
        ∧ ∀ j, j < c.span.2 → (t.ctx s.arg.k).slotLanes (c.span.1 + j) = List.replicate 64 0
            ∧ (t.ctx s.arg.k).slotInt (c.span.1 + j) = false ∧ (t.ctx s.arg.k).slotPoison (c.span.1 + j) = false)
  ∧ (∀ (s : State) (b : CoreId) (off va f : Nat) (c : MCmd) (rest : List MCmd) (r : BitVec 4) (row : List Byte), s.MemoryForm →
      Claims.MFirst s s.arg.k c rest → c.op = .drain r → drainDest r = 0 → c.next < c.slots →
      (s.ctx s.arg.k).slotPoison (c.slotb + c.next) = false → f = (drainFmt c.fmto).1 → isMx f = false →
      row = (drainRow f ((s.ctx s.arg.k).slotInt (c.slotb + c.next)) c.rnd c.sat (c.w[15].setWidth 32)
        ((s.ctx s.arg.k).slotLanes (c.slotb + c.next))).1 →
      va = (((c.w[5].toNat : Int) + levelSum c.next (oStrides (c.levels c.slots))) % 2 ^ 64).toNat →
      (∀ n, s.nodeOf s.arg.k = some n → n.watch = .replicate 8 none) →
      s.moverTargets (s.mMover s.arg.k c) .store (cutRange 128 va row.length) = .ok (Claims.banked b off va row.length) →
      s.portsAllow ((Claims.banked b off va row.length).map fun p => (p.1, p.2.2)) true = true →
        Claims.Gives .drainSlot s fun t => Claims.Stored s t (bankKey b off) row
          ∧ Claims.mq t s.arg.k = { c with next := c.next + 1, skip := 0 } :: rest
          ∧ (r.getLsbD 2 = true → (t.ctx s.arg.k).slotLanes (c.slotb + c.next) = List.replicate 64 0))

namespace Sys2Proof.Claims

open Machine

/-! #### Accesses that are performed after their word has issued (R120, R262, R268, R270, R114) -/

/-- What t shows of a trap that sequencer q of core k takes in s with its PC at pc: the record in the trap queue of the die's Ostler (R301,
R302), the stopped sequencer, and nothing else but the trace of the core. -/
def TrapTaken (s t : State) (k : CoreId) (q : Seq) (i : TrapInfo) (pc : VA) : Prop :=
  (∃ r : TrapRec, (t.die k.die).trapQ = (s.die k.die).trapQ ++ [r] ∧ r.code = i.code ∧ r.cls = i.cls ∧ r.kind = i.kind ∧ r.wr = i.wr
      ∧ r.seq = BitVec.ofNat 2 (seqCode q) ∧ r.core = cid k ∧ r.seqn = 0 ∧ r.pc = pc ∧ r.addr = i.addr ∧ r.rowp = i.rowp ∧ r.info = i.info
      ∧ r.who = i.who ∧ r.time = ofN s.now ∧ ∀ n, s.nodeOf k = some n → r.ids = n.ids)
    ∧ (t.seq k q).stopped = some i.code ∧ (t.seq k q).pc = pc ∧ (t.seq k q).stack = (s.seq k q).stack ∧ (t.seq k q).pfx = []
    ∧ t = { s with cores := t.cores, dies := t.dies } ∧ OnlyDie k.die { s with cores := t.cores } t
    ∧ (∀ j, j ≠ k → t.core j = s.core j) ∧ t.regs k = s.regs k ∧ (i.cls ≠ 3 → ∀ p, p ≠ q → t.seq k p = s.seq k p)

/-- The sequencer's pending load, at a bank that no fault and no poison touches. -/
def cleanBank (s : State) (b : CoreId) (off n : Nat) : Prop := s.ecc = [] ∧ s.poisoned (bankKey b off) n = false

end Sys2Proof.Claims

/-- R120, R116: the oldest pending store of a sequencer is performed: a bank holds its bytes and no other byte changes; CACHED pool memory
changes in the core's own view only; a store whose route is lost raises a deferred 0x38. A pending load takes its value at its home, and consumes
poison, which a memory device may have reported before (R324, R349). R262, R33: a row of V that has no cycle left is in its tile, and only it. R268, R270: a tile move gives the tile its rows and its full
bit, but for a tile that a write port fills still (R271), or leaves the stores it made performed. R115: copy-on-write leaves what the Ostler makes of the
memory, and the stopped word is issued again; where the Ostler cannot, the record goes to the host driver. -/
def Obligations.PendingAccessesArePerformed : Prop :=
  (∀ (s : State) (p : PendingStore) (rest : List PendingStore) (b : CoreId) (off : Nat), s.MemoryForm →
    (s.seq s.arg.k s.arg.q).stores = p :: rest → p.land = 0 → p.begun = false → s.storeTarget p = some (.bank b off) →
    s.storeHeld s.arg.k p = false → s.portsAllow [(.bank b off, p.data.length)] true = true →
      Claims.Gives .storePerform s fun t => Claims.Stored s t (bankKey b off) p.data ∧ (t.seq s.arg.k s.arg.q).stores = rest ∧ t.l2 = s.l2)
  ∧ (∀ (s : State) (p : PendingStore) (rest : List PendingStore) (pa : Nat), (s.core s.arg.k).version = [] → p.data.length ≤ 8 →
      (s.seq s.arg.k s.arg.q).stores = p :: rest → p.land = 0 → p.begun = false → s.storeTarget p = some (.pool pa .cached) →
        Claims.Gives .storePerform s fun t => Claims.SameMemory s t ∧ (t.seq s.arg.k s.arg.q).stores = rest
          ∧ t.viewBytes s.arg.k (.pool pa .cached) p.data.length = p.data)
  ∧ (∀ (s : State) (p : PendingStore) (rest : List PendingStore), (s.seq s.arg.k s.arg.q).stores = p :: rest → p.land = 0 → s.storeTarget p = none →
      Claims.Gives .storePerform s fun t => Claims.SameMemory s t ∧ (t.seq s.arg.k s.arg.q).stores = rest
        ∧ ∃ r : TrapRec, (t.core s.arg.k).pend = (s.core s.arg.k).pend ++ [r] ∧ r.code = 0x38 ∧ r.cls = 2 ∧ r.pc = p.pc)
  ∧ (∀ (s : State) (p : PendingStore) (rest : List PendingStore), (s.seq s.arg.k s.arg.q).stores = p :: rest → 0 < p.land →
      Claims.Gives .storePerform s fun t => Claims.SameMemory s t ∧ t.seq s.arg.k s.arg.q = s.seq s.arg.k s.arg.q)
  ∧ (∀ (s : State) (l : PendingLoad) (b : CoreId) (off : Nat), s.arg.yes = false → (s.seq s.arg.k s.arg.q).load = some l →
      s.target l.pa l.policy = some (.bank b off) → Claims.cleanBank s b off (2 ^ l.z.val) →
        Claims.Gives .loadPerform s fun t => t = { s with cores := t.cores }
          ∧ (∀ j, j ≠ s.arg.k → t.core j = { s.core j with ports := (t.core j).ports }) ∧ (t.seq s.arg.k s.arg.q) = { s.seq s.arg.k s.arg.q with
          load := some { l with value := some (extend l.sx (2 ^ l.z.val) (s.mem.readBytes (bankKey b off) (2 ^ l.z.val))) } })
  ∧ (∀ (s : State) (l : PendingLoad) (b : CoreId) (off : Nat), s.arg.yes = false → (s.seq s.arg.k s.arg.q).load = some l →
      s.target l.pa l.policy = some (.bank b off) → off % 2 ^ l.z.val = 0 → s.ecc = [] → s.poisoned (bankKey b off) (2 ^ l.z.val) = true →
        Claims.Gives .loadPerform s fun t => ∃ i : TrapInfo, i.code = 0x16 ∧ i.cls = 3 ∧ i.addr = Claims.ofN (s.bankPa b off / 32 * 32)
          ∧ Claims.TrapTaken s t s.arg.k s.arg.q i (s.seq s.arg.k s.arg.q).trapPc)
  ∧ (∀ (s : State) (pa : Nat) (p : Policy), s.arg.yes = true → s.arg.num2 = 32 → pa % 32 = 0 → s.target s.arg.pa.toNat .cached = some (.pool pa p) →
      (s.seq s.arg.k s.arg.q).load = none → (s.seq s.arg.k s.arg.q).reads = [] → (s.seq s.arg.k s.arg.q).late = [] →
        Claims.Gives .loadPerform s fun t => t = { s with poison := t.poison, cores := t.cores } ∧ (∀ k, t.core k = s.core k)
          ∧ ∀ x, x ∈ t.poison ↔ x ∈ s.poison ∨ x = pa / 32)
  ∧ (∀ (s : State) (l : Landing), (s.core s.arg.k).saved = none → (s.ctx s.arg.k).tiles.wf = true →
      ((s.ctx s.arg.k).landings.filter fun x => x.left == 0) = [l] → l.mask = 0xFF#8 → l.row < 32 → l.off + l.data.length ≤ 128 →
      l.fin = { push := [], sig := [], unbound := false } →
        Claims.Gives .vResultLanding s fun t => Claims.SameMemory s t
          ∧ (((t.ctx s.arg.k).tileRow l.tile l.row).drop l.off).take l.data.length = l.data
          ∧ (∀ (x : BitVec 4) (r : Nat), r < 32 → (x, r) ≠ (l.tile, l.row) → (t.ctx s.arg.k).tileRow x r = (s.ctx s.arg.k).tileRow x r)
          ∧ (t.ctx s.arg.k).landings = (s.ctx s.arg.k).landings.filter fun x => x.left != 0)
  ∧ (∀ (s : State) (m : TileMove), (s.ctx s.arg.k).moves = [m] → m.load = true → (s.ctx s.arg.k).tiles.wf = true →
      m.row + m.rows.length ≤ 32 → (∀ r ∈ m.rows, r.length = 128) → m.fin = { push := [], sig := [], unbound := false } →
        Claims.Gives .tileMoveComplete s fun t => Claims.OnlyCore s.arg.k s t ∧ (t.ctx s.arg.k).moves = []
          ∧ (t.ctx s.arg.k).full = (if (s.ctx s.arg.k).writing m.tile then (s.ctx s.arg.k).full
              else (s.ctx s.arg.k).full ||| (1#16 <<< m.tile.toNat))
          ∧ (∀ i r, m.rows[i]? = some r → (t.ctx s.arg.k).tileRow m.tile (m.row + i) = r)
          ∧ ∀ (x : BitVec 4) (r : Nat), r < 32 → x ≠ m.tile ∨ r < m.row ∨ m.row + m.rows.length ≤ r →
              (t.ctx s.arg.k).tileRow x r = (s.ctx s.arg.k).tileRow x r)
  ∧ (∀ (s : State) (m : TileMove), (s.ctx s.arg.k).moves = [m] → m.load = false → s.stuck s.arg.k (s.seq s.arg.k m.q) = [] → m.fin = { push := [], sig := [], unbound := false } →
      Claims.Gives .tileMoveComplete s fun t => (t.ctx s.arg.k).moves = [] ∧ (t.seq s.arg.k m.q).stores = []
        ∧ (t.ctx s.arg.k).tiles = (s.ctx s.arg.k).tiles)
  ∧ (∀ (s u : State) (r : TrapRec) (n : Node), s.installing s.arg.k.die = false → (s.die s.arg.k.die).trapQ = [r] → s.recordDue s.arg.k.die r = true → r.code = 0x10 → r.kind = 2 → r.cls = 0 → r.objects = false → r.core = cid s.arg.k →
      seqOf r.seq.toNat = s.arg.q → s.nodeOf s.arg.k = some n →
      ({ s with dies := vput s.dies s.arg.k.die { s.die s.arg.k.die with trapQ := [] } } : State).cow n.root (some n.id) r.addr.toNat = .done u →
        Claims.Gives .cowService s fun t => (t.die s.arg.k.die).trapQ = [] ∧ Claims.SameMemory u t
          ∧ (t.seq s.arg.k s.arg.q).stopped = none)
  ∧ (∀ (s : State) (r : TrapRec) (n : Node) (kd : BitVec 4), s.installing s.arg.k.die = false → (s.die s.arg.k.die).trapQ = [r] → s.recordDue s.arg.k.die r = true → r.code = 0x10 → r.kind = 2 →
      r.objects = false → r.core = cid s.arg.k → seqOf r.seq.toNat = s.arg.q → s.nodeOf s.arg.k = some n →
      ({ s with dies := vput s.dies s.arg.k.die { s.die s.arg.k.die with trapQ := [] } } : State).cow n.root (some n.id) r.addr.toNat = .forward kd →
        Claims.Gives .cowService s fun t => Claims.SameMemory s t ∧ (t.die s.arg.k.die).trapQ = []
          ∧ (t.die s.arg.k.die).fwd = (s.die s.arg.k.die).fwd ++ [{ r with kind := kd }])
  ∧ (∀ (s : State) (r : TrapRec) (n : Node), s.installing s.arg.k.die = false → (s.die s.arg.k.die).trapQ = [r] → s.recordDue s.arg.k.die r = true → r.code = 0x10 → r.kind = 2 →
      r.objects = false → r.core = cid s.arg.k → seqOf r.seq.toNat = s.arg.q → s.nodeOf s.arg.k = some n →
      ({ s with dies := vput s.dies s.arg.k.die { s.die s.arg.k.die with trapQ := [] } } : State).cow n.root (some n.id) r.addr.toNat = .noFrame →
        Claims.Gives .cowService s fun t => Claims.SameMemory s t ∧ (t.die s.arg.k.die).trapQ = []
          ∧ (t.die s.arg.k.die).fwd = (s.die s.arg.k.die).fwd ++ [{ r with cls := 0 }])

namespace Sys2Proof.Claims

open Machine

/-! #### The Mangle (R283 to R289) -/

/-- The session that the event's parameters name. -/
def slotOf (s : State) : SessIx := (s.arg.d, s.arg.c, s.arg.j)

/-- The record that the event's parameters name. -/
def sentRec (s : State) : Rec := mgRec s.arg.k s.arg.v2 s.arg.yes s.arg.yes2 (s.arg.words.map fun v => v.setWidth 32)

/-- The number of a session's current segment. -/
def segNow (se : Session) : Nat := se.segs.length - 1

/-- The bytes of the run record of records at the session's write position (R287). -/
def runRecord (se : Session) (merged : Bool) (recs : List Rec) : List Byte := runBytes se.hruns.length (segNow se) se.wpos merged recs

/-- The writes of a run of records at the session's write position, of which the first n stand there already: the run record, its directory
entry, NRUNS and WPOS (R287). -/
def runWrites (se : Session) (base : W64) (merged : Bool) (recs : List Rec) (n : Nat) : List (Nat × List Carried) :=
  let id := se.hruns.length
  let seg := segNow se
  let bs := runRecord se merged recs
  [(base.toNat + se.wpos + runAt recs n, Machine.clean (bs.drop (runAt recs n))), (se.hamper.toNat + 64 + 32 * id, Machine.clean (dirEntry id seg se.wpos merged recs)),
   (se.hamper.toNat + 0x10, Machine.clean (leBytes 4 (id + 1))), (se.hamper.toNat + 0x18, Machine.clean (leBytes 8 (se.wpos + bs.length)))]

/-- The writes that mark runs consumed in their directory entries (R289). -/
def marks (se : Session) (l : List HRun) : List (Nat × List Carried) :=
  l.map fun r => (se.hamper.toNat + 64 + 32 * r.id + 15, Machine.clean [if r.merged then 3 else 2])

/-- The run of the hamper that those writes make. -/
def newRun (se : Session) (merged : Bool) (recs : List Rec) : HRun :=
  { id := se.hruns.length, seg := segNow se, off := se.wpos, merged := merged, consumed := false, recs := recs }

/-- A session may spill: no pass of it has begun. -/
def MaySpill (se : Session) : Prop := se.st ≠ .free ∧ se.st ≠ .stalled ∧ se.waiting = none ∧ se.emitted = 0

/-- A spill that has been asked for is made next, of the run r: u is s with a run of the session closed, where none was (R286). -/
def Spills (s u : State) (r : Run) : Prop :=
  MaySpill (s.sess (slotOf s)) ∧ (s.sess (slotOf s)).header = false ∧ (s.sess (slotOf s)).wantSpill ≠ 0
    ∧ u = s.modSess (slotOf s) Session.readySpill ∧ (u.sess (slotOf s)).closedRun = some r

/-- The hamper of a session has room for its next run: an entry of the directory, and place in the current segment, which begins at base. -/
def Room (se : Session) (merged : Bool) (recs : List Rec) (base : W64) : Prop :=
  se.hruns.length < se.dirn ∧ ∃ size : W64, se.segs.getLast? = some (base, size) ∧ se.wpos + (runRecord se merged recs).length ≤ size.toNat

/-- What the Mangle of the session's cluster can still emit in this cycle (R285). -/
def emits (s : State) : Nat := (s.cluster s.arg.d s.arg.c).emit

/-- The writes of the last cycle of a session's final pass: the output that is left, ROWPTR and FINAL (R289, R290). -/
def lastWrites (se : Session) : List (Nat × List Carried) :=
  let out := se.outputOf.take se.outcap
  let status := se.status ||| mgDONE ||| ((if se.outcap < se.outputOf.length then mgOVF else 0)
    ||| (if se.outputOf.any fun o => o.poison then mgPOISON else 0))
  se.newWrites se.merged.length ++
    [(se.rowptr.toNat, Machine.clean (rowPtr (se.rows + 1) 0 0 (out.map fun o => o.key / 2 ^ 24))),
     (se.desc.toNat + 0x60, Machine.clean (leBytes 8 status.toNat ++ leBytes 8 se.outputOf.length ++ leBytes 8 se.accepted
       ++ leBytes 8 se.discarded))]

end Sys2Proof.Claims

/-- R283 to R285: a record that reaches a session is accepted with the next sequence number of its stream, or discarded and counted, and a dead
handle takes nothing. R286, R287: a spill writes a run, its directory entry, NRUNS and WPOS, and the run leaves the buffer; without room it is
cause 0x29 to the Ostler, and with a full directory the session stalls; the header that MGOPEN could not write is written first. R288: the Ostler
links a segment, or reports a refused write resolved, or services a copy-on-write fault, or the session stalls; while a bank holds the link the
service waits. R285, R289: a pass emits no more records than are left of the 6 of the cycle; with the last of them a merge pass has made one run of
the 16 lowest and marks them consumed, and the final pass has written the output, and the slot is free with its generation kept, once its post is not
held. -/
def Obligations.MangleEventsComplete : Prop :=
  (∀ (s : State), s.live s.arg.k s.arg.v = none → Leads .mangleRecord s s)
  ∧ (∀ (s : State) (x : SessIx), s.live s.arg.k s.arg.v = some x → (s.sess x).st ≠ .stalled → (s.sess x).refuses (Claims.sentRec s) = 0 →
      (s.sess x).used + (Claims.sentRec s).places ≤ (s.sess x).cap →
        Claims.Gives .mangleRecord s fun t => Claims.SameMemory s t ∧ t.cores = s.cores ∧ (t.sess x).accepted = (s.sess x).accepted + 1
          ∧ (t.sess x).status = (s.sess x).status
          ∧ (t.sess x).runs = addToRuns (s.sess x).runs { Claims.sentRec s with
              seqn := BitVec.ofNat 32 ((s.sess x).seqs[s.arg.k.core.val]) })
  ∧ (∀ (s : State) (x : SessIx), s.live s.arg.k s.arg.v = some x → (s.sess x).st ≠ .stalled → (s.sess x).refuses (Claims.sentRec s) ≠ 0 →
      Claims.Gives .mangleRecord s fun t => Claims.SameMemory s t ∧ t.cores = s.cores ∧ t.sess x = { s.sess x with
        status := (s.sess x).status ||| (s.sess x).refuses (Claims.sentRec s), discarded := (s.sess x).discarded + 1 })
  ∧ (∀ (s s1 u : State) (r : Run) (base : W64), Claims.Spills s s1 r → Claims.Room (s1.sess (Claims.slotOf s)) false r.recs base →
      s1.mgWrites (s1.mgMover (s1.sess (Claims.slotOf s))) (Claims.runWrites (s1.sess (Claims.slotOf s)) base false r.recs 0) = .ok u →
        Claims.Gives .mangleSpill s fun t => Claims.SameMemory u t
          ∧ (t.sess (Claims.slotOf s)).runs = (s1.sess (Claims.slotOf s)).runs.erase r
          ∧ (t.sess (Claims.slotOf s)).hruns = (s.sess (Claims.slotOf s)).hruns ++ [Claims.newRun (s.sess (Claims.slotOf s)) false r.recs]
          ∧ (t.sess (Claims.slotOf s)).wantSpill = (s.sess (Claims.slotOf s)).wantSpill - 1
          ∧ (t.sess (Claims.slotOf s)).status = (s.sess (Claims.slotOf s)).status ||| mgSPILL)
  ∧ (∀ (s s1 : State) (r : Run) (base size : W64), Claims.Spills s s1 r → (s.sess (Claims.slotOf s)).hruns.length < (s.sess (Claims.slotOf s)).dirn →
      (s.sess (Claims.slotOf s)).segs.getLast? = some (base, size) →
      size.toNat < (s.sess (Claims.slotOf s)).wpos + (Claims.runRecord (s.sess (Claims.slotOf s)) false r.recs).length →
        Claims.Gives .mangleSpill s fun t => Claims.SameMemory s t ∧ ∃ x : TrapRec, x.code = 0x29 ∧ x.cls = 2
          ∧ x.addr = (s.sess (Claims.slotOf s)).hamper ∧ t.sess (Claims.slotOf s) = { s1.sess (Claims.slotOf s) with waiting := some x })
  ∧ (∀ (s s1 : State) (r : Run) (b : W64 × W64), Claims.Spills s s1 r → (s.sess (Claims.slotOf s)).dirn ≤ (s.sess (Claims.slotOf s)).hruns.length →
      (s.sess (Claims.slotOf s)).segs.getLast? = some b →
        Claims.Gives .mangleSpill s fun t => Claims.SameMemory s t ∧ (t.sess (Claims.slotOf s)).st = .stalled
          ∧ (t.sess (Claims.slotOf s)).status = (s.sess (Claims.slotOf s)).status ||| mgSTALL
          ∧ ∃ x : TrapRec, x.code = 0x29 ∧ x.addr = (s.sess (Claims.slotOf s)).hamper
            ∧ (t.die s.arg.d).fwd = (s.die s.arg.d).fwd ++ [x])
  ∧ (∀ (s : State) (r : TrapRec), s.installing s.arg.d = false → (s.sess (Claims.slotOf s)).waiting = some r → s.arg.v = 0 → ¬(r.code = 0x10 ∧ r.kind = 2) →
      Claims.Gives .hamperService s fun t => (t.sess (Claims.slotOf s)).st = .stalled ∧ (t.sess (Claims.slotOf s)).waiting = none
        ∧ (t.sess (Claims.slotOf s)).status = (s.sess (Claims.slotOf s)).status ||| mgSTALL
        ∧ (t.die s.arg.d).fwd = (s.die s.arg.d).fwd ++ [r] ∧ Claims.SameMemory s t)
  ∧ (∀ (s : State) (r : TrapRec), s.installing s.arg.d = false → (s.sess (Claims.slotOf s)).waiting = some r → s.arg.v ≠ 0 → r.code ≠ 0x29 → ¬(r.code = 0x10 ∧ r.kind = 2) →
      Claims.Gives .hamperService s fun t => t.sess (Claims.slotOf s) = { s.sess (Claims.slotOf s) with waiting := none }
        ∧ Claims.SameMemory s t)
  ∧ (∀ (s u : State) (r : TrapRec), s.installing s.arg.d = false → (s.sess (Claims.slotOf s)).waiting = some r → s.arg.v ≠ 0 → r.code = 0x29 →
      s.mgLink (Claims.slotOf s) s.arg.v s.arg.v2 = .ok u →
        Leads .hamperService s u ∧ u.sess (Claims.slotOf s) = { s.sess (Claims.slotOf s) with
          segs := (s.sess (Claims.slotOf s)).segs ++ [(s.arg.v, s.arg.v2)], wpos := 128, waiting := none })
  ∧ (∀ (s : State) (r : TrapRec) (e : EStop), s.installing s.arg.d = false → (s.sess (Claims.slotOf s)).waiting = some r → s.arg.v ≠ 0 →
      r.code = 0x29 → s.mgLink (Claims.slotOf s) s.arg.v s.arg.v2 = .error e → (∀ i, e ≠ .trap i) → Leads .hamperService s s)
  ∧ (∀ (s u : State) (r : TrapRec), s.installing s.arg.d = false → (s.sess (Claims.slotOf s)).waiting = some r → r.code = 0x10 → r.kind = 2 →
      s.cow (s.sess (Claims.slotOf s)).root (s.sess (Claims.slotOf s)).opener r.addr.toNat = .done u →
        Claims.Gives .hamperService s fun t => Claims.SameMemory u t
          ∧ t.sess (Claims.slotOf s) = { s.sess (Claims.slotOf s) with waiting := none })
  ∧ (∀ (s : State) (r : TrapRec) (kd : BitVec 4), s.installing s.arg.d = false → (s.sess (Claims.slotOf s)).waiting = some r → r.code = 0x10 → r.kind = 2 →
      s.cow (s.sess (Claims.slotOf s)).root (s.sess (Claims.slotOf s)).opener r.addr.toNat = .forward kd →
        Claims.Gives .hamperService s fun t => (t.sess (Claims.slotOf s)).st = .stalled ∧ Claims.SameMemory s t
          ∧ (t.die s.arg.d).fwd = (s.die s.arg.d).fwd ++ [{ r with kind := kd }])
  ∧ (∀ s u : State, Claims.MaySpill (s.sess (Claims.slotOf s)) → (s.sess (Claims.slotOf s)).header = true →
      s.mgWrites (s.mgMover (s.sess (Claims.slotOf s)))
        [((s.sess (Claims.slotOf s)).hamper.toNat, Machine.clean (s.sess (Claims.slotOf s)).headBytes)] = .ok u →
        Claims.Gives .mangleSpill s fun t => Claims.SameMemory u t
          ∧ t.sess (Claims.slotOf s) = { s.sess (Claims.slotOf s) with header := false })
  ∧ (∀ (s u : State) (base : W64), (s.sess (Claims.slotOf s)).passes = true → 16 < (s.sess (Claims.slotOf s)).standing.length →
      let se := s.sess (Claims.slotOf s)
      let grp := se.standing.take 16
      let recs := mergeRuns (grp.map fun r => r.recs)
      recs.length ≤ se.emitted + Claims.emits s → Claims.Room se true recs base →
      s.mgWrites (s.mgMover se) (Claims.runWrites se base true recs se.emitted ++ Claims.marks se grp) = .ok u →
        Claims.Gives .mergePass s fun t => Claims.SameMemory u t ∧ (t.sess (Claims.slotOf s)).runs = se.runs
          ∧ (t.sess (Claims.slotOf s)).emitted = 0
          ∧ (t.sess (Claims.slotOf s)).hruns = (se.hruns ++ [Claims.newRun se true recs]).map fun r =>
              if (grp.map fun g => g.id).contains r.id then { r with consumed := true } else r)
  ∧ (∀ (s u : State) (base : W64), (s.sess (Claims.slotOf s)).passes = true → 16 < (s.sess (Claims.slotOf s)).standing.length →
      let se := s.sess (Claims.slotOf s)
      let recs := mergeRuns ((se.standing.take 16).map fun r => r.recs)
      let n := se.emitted + Claims.emits s
      n < recs.length → Claims.Room se true recs base →
      s.mgWrites (s.mgMover se) [(base.toNat + se.wpos + runAt recs se.emitted,
        Machine.clean (((Claims.runRecord se true recs).take (runAt recs n)).drop (runAt recs se.emitted)))] = .ok u →
        Claims.Gives .mergePass s fun t => Claims.SameMemory u t ∧ t.sess (Claims.slotOf s) = { se with emitted := n } ∧ Claims.emits t = 0)
  ∧ (∀ (s u : State), (s.sess (Claims.slotOf s)).passes = true →
      (s.sess (Claims.slotOf s)).runs.length + (s.sess (Claims.slotOf s)).standing.length ≤ 16 →
      let se := s.sess (Claims.slotOf s)
      se.merged.length ≤ se.emitted + Claims.emits s → s.mgWrites (s.mgMover se) (Claims.lastWrites se) = .ok u →
        (se.done = 0 ∨ u.postVa (u.mgAgent se) se.done se.doneadd 0 ≠ .held →
          Claims.Gives .finalPass s fun t => t.sess (Claims.slotOf s) = { Session.reset with gen := se.gen }
            ∧ (se.done = 0 → Claims.SameMemory u t))
        ∧ (se.done ≠ 0 → u.postVa (u.mgAgent se) se.done se.doneadd 0 = .held → Leads .finalPass s s))
  ∧ (∀ (s u : State), (s.sess (Claims.slotOf s)).passes = true →
      (s.sess (Claims.slotOf s)).runs.length + (s.sess (Claims.slotOf s)).standing.length ≤ 16 →
      let se := s.sess (Claims.slotOf s)
      let n := se.emitted + Claims.emits s
      n < se.merged.length → s.mgWrites (s.mgMover se) (se.newWrites n) = .ok u →
        Claims.Gives .finalPass s fun t => Claims.SameMemory u t ∧ Claims.emits t = 0
          ∧ t.sess (Claims.slotOf s) = { se with emitted := n, output := (se.outputTo n).length, status := se.status ||| se.outBits (se.outputTo n) })

namespace Sys2Proof.Claims

open Machine

/-! #### The delivery of traps, and watch stops (R191, R299 to R301, R328 to R330, R346, R347) -/

/-- A record that the Ostler forwards to the host driver, and which stops its task. -/
def Forwarded (r : TrapRec) : Prop :=
  r.ownService = false ∧ r.objects = false ∧ r.cls ≠ 3 ∧ r.code ≠ 0x22 ∧ r.code ≠ 0x3F

/-- The host driver's trap queue has a place. -/
def HostRoom (s : State) : Prop := s.host.tqw.toNat - s.host.tqr.toNat < 256

end Sys2Proof.Claims

/-- R347: a forwarded record is written, 64 bytes unchanged, to slot TQW mod 256 and TQW counts one more; when TQW - TQR is 256 forwarding
holds: nothing is written, the record waits, and a suspended node stays suspended. R367: while Ostler firmware is being installed traps are
held. -/
def Obligations.TrapRecordsAreForwarded : Prop :=
  (∀ (s : State) (r : TrapRec) (rest : List TrapRec), s.MemoryForm → s.installing s.arg.d = false → (s.die s.arg.d).trapQ = [] → (s.die s.arg.d).fwd = r :: rest →
    Claims.HostRoom s →
      Claims.Gives .trapForward s fun t =>
        t.bar0.readBytes (0x8000 + 64 * (s.host.tqw.toNat % 256)) 64 = r.bytes ∧ r.bytes.length = 64
          ∧ (∀ a, a < 0x8000 + 64 * (s.host.tqw.toNat % 256) ∨ 0x8000 + 64 * (s.host.tqw.toNat % 256) + 64 ≤ a →
              t.bar0.read a = s.bar0.read a)
          ∧ t.host = { s.host with tqw := s.host.tqw + 1 } ∧ (t.die s.arg.d).fwd = rest ∧ Claims.SameMemory s t ∧ t.cores = s.cores
          ∧ t.irqs = if s.host.tqw = s.host.tqr then 0 :: s.irqs else s.irqs)
  ∧ (∀ s : State, s.now < (s.die s.arg.d).install → Leads .trapForward s s)
  ∧ (∀ (s : State) (r : TrapRec) (rest : List TrapRec), s.installing s.arg.d = false → (s.die s.arg.d).trapQ = r :: rest → Claims.Forwarded r →
      s.recordDue s.arg.d r = true → s.host.tqw.toNat - s.host.tqr.toNat = 256 →
        Claims.Gives .trapForward s fun t => t.bar0 = s.bar0 ∧ t.host = s.host ∧ t.irqs = s.irqs ∧ Claims.SameMemory s t
          ∧ (t.die s.arg.d).trapQ = rest ∧ (t.die s.arg.d).fwd = (s.die s.arg.d).fwd ++ [r]
          ∧ (∀ n, (s.nodes.find? fun n => n.ids == r.ids) = some n → n.st = .placed →
              ∀ k ∈ n.cores, (s.core k).saved = none → (t.core k).preempt.isSome = true)
          ∧ ∀ k q, (s.seq k q).stopped.isSome = true → (t.seq k q).stopped = (s.seq k q).stopped)

/-- R299, R307: at a command boundary, with nothing before it, the oldest deferred fault of a core goes to the Ostler. R330, R191: a precise
watch stop is a trap with cause 0x11 where the watch has no hook; with one, C goes on at the hook with an empty stack and keeps how it stood.
R329: an imprecise stop goes to the Ostler at a boundary, or starts the hook with the writer's name. -/
def Obligations.FaultsAndWatchStopsAreTaken : Prop :=
  (∀ (s : State) (r : TrapRec) (rest : List TrapRec), (s.core s.arg.k).pend = r :: rest → (s.core s.arg.k).node.isSome = true →
    (s.core s.arg.k).saved = none → (s.core s.arg.k).hook = none → (s.core s.arg.k).hit = none → (s.ctx s.arg.k).outsideGroups = true →
    s.inTrapService s.arg.k = false →
      Claims.Gives .deferredFault s fun t => (t.core s.arg.k).pend = rest ∧ (t.die s.arg.k.die).trapQ = (s.die s.arg.k.die).trapQ ++ [r]
        ∧ t.ctx s.arg.k = s.ctx s.arg.k ∧ Claims.SameMemory s t)
  ∧ (∀ (s : State) (h : WatchHit) (n : Node) (w : Watch), (s.core s.arg.k).hit = some h → s.inTrapService s.arg.k = false → (∀ c ∈ (s.ctx s.arg.k).me.queue, c.fly = []) →
      s.nodeOf s.arg.k = some n → n.watch[h.watch.val] = some w → w.hook = 0 → h.engine = false →
        Claims.Gives .watchStop s fun t => (t.core s.arg.k).hit = none ∧ Claims.SameMemory s t
          ∧ (t.seq s.arg.k h.q).stopped = some 0x11 ∧ (t.seq s.arg.k h.q).pc = (s.seq s.arg.k h.q).trapPc
          ∧ ∃ r : TrapRec, (t.die s.arg.k.die).trapQ = (s.die s.arg.k.die).trapQ ++ [r] ∧ r.code = 0x11 ∧ r.cls = 0 ∧ r.kind = 0
              ∧ r.addr = h.addr ∧ r.pc = (s.seq s.arg.k h.q).trapPc ∧ r.info = Claims.ofN h.watch.val)
  ∧ (∀ (s : State) (h : WatchHit) (n : Node) (w : Watch), (s.core s.arg.k).hit = some h → s.inTrapService s.arg.k = false → (∀ c ∈ (s.ctx s.arg.k).me.queue, c.fly = []) →
      s.nodeOf s.arg.k = some n → n.watch[h.watch.val] = some w → w.hook ≠ 0 → h.engine = false →
        Claims.Gives .watchStop s fun t => (t.core s.arg.k).hit = none ∧ Claims.SameMemory s t ∧ t.dies = s.dies
          ∧ (t.seq s.arg.k .c).pc = w.hook.setWidth 57 ∧ (t.seq s.arg.k .c).stack = [] ∧ (t.seq s.arg.k .c).run = .running
          ∧ (t.seq s.arg.k .c).preds = (s.seq s.arg.k .c).preds
          ∧ ∃ x : Hook, (t.core s.arg.k).hook = some x ∧ x.precise = true ∧ x.addr = h.addr ∧ x.pc = h.pc
              ∧ x.acc = (if h.write then 2 else 1) ∧ x.watch.toNat = h.watch.val ∧ x.saved.stack = (s.seq s.arg.k .c).stack
              ∧ (h.q = .c → x.saved.pc = (s.seq s.arg.k .c).trapPc))
  ∧ (∀ (s : State) (n : Node) (r : TrapRec) (m : Nat) (w : Watch), s.nodeOf s.arg.k = some n → n.imprecise = some (r, m) →
      (s.core s.arg.k).hook = none → (s.core s.arg.k).hit = none → (s.core s.arg.k).saved = none → s.inTrapService s.arg.k = false →
      (∀ c ∈ (s.ctx s.arg.k).me.queue, c.fly = []) → (s.ctx s.arg.k).outsideGroups = true →
      n.watch.toList[r.info.toNat % 8]? = some (some w) →
        Claims.Gives .impreciseWatchStop s fun t => Claims.SameMemory s t ∧ (∃ x, t.nodeOf s.arg.k = some x ∧ x.imprecise = none)
          ∧ if w.hook = 0 then (t.die s.arg.k.die).trapQ = (s.die s.arg.k.die).trapQ
                ++ [{ r with core := cid s.arg.k, time := Claims.ofN s.now }]
            else (t.seq s.arg.k .c).pc = w.hook.setWidth 57 ∧ (t.seq s.arg.k .c).stack = [] ∧ t.dies = s.dies
              ∧ ∃ x : Hook, (t.core s.arg.k).hook = some x ∧ x.precise = false ∧ x.who = r.who ∧ x.addr = r.addr ∧ x.acc = 2)

namespace Sys2Proof.Claims

open Machine

/-! #### The links (R351 to R356) -/

/-- The Hitch port that the event's parameters name. -/
def portOf (s : State) : HitchPort := s.hitch[(hitchPort s.arg.num).val]

end Sys2Proof.Claims

/-- R351: a failed CXL port is recorded, and the loss of every path loses what of the pool ranges lies at the port; which place of an interleaved
range lies at which port is the model's reading (log entry 44). R352: a flit in sequence is taken and counted,
one whose CRC fails is replayed, one out of sequence changes nothing, and one with its poison bit set poisons every sector it carries, at every
member of a multicast. R353: the
spare lane first, then 4 lanes; after 2 ms of failed replay the port is lost and leaves every route mask. R355, R182: an access of another module
that a group grants reads, stores, adds or exchanges; one that none grants changes nothing; one to a bank that drains waits. -/
def Obligations.LinkEventsComplete : Prop :=
  (∀ s : State, Claims.Gives .cxlLinkFail s fun t => t = { s with cxlFailed := t.cxlFailed, cxlLost := t.cxlLost, life := t.life }
    ∧ (s.arg.yes = false → t.cxlLost = s.cxlLost)
    ∧ (∀ pa, s.arg.yes = true → (t.poolLost pa = true ↔ s.poolLost pa = true ∨ ∃ r ∈ s.pools, r.base ≤ pa ∧ pa < r.base + r.size
        ∧ r.port pa = s.arg.num % 24))
    ∧ ∀ p : Fin 24, t.cxlFailed.getLsbD p.val = (s.cxlFailed.getLsbD p.val || p.val == s.arg.num % 24))
  ∧ (∀ s : State, (Claims.portOf s).lost = false → s.arg.yes = false → Claims.Gives .flitReceive s fun t =>
      t = { s with hitch := t.hitch, life := t.life }
        ∧ Claims.portOf t = { Claims.portOf s with replay := some ((Claims.portOf s).replay.getD s.now) })
  ∧ (∀ s : State, (Claims.portOf s).lost = false → s.arg.yes = true → s.arg.num2 % 2 ^ 32 ≠ (Claims.portOf s).num.toNat →
      Leads .flitReceive s s)
  ∧ (∀ s : State, (Claims.portOf s).lost = false → s.arg.yes = true → s.arg.num2 % 2 ^ 32 = (Claims.portOf s).num.toNat →
      s.arg.yes2 = false → Claims.Gives .flitReceive s fun t => t = { s with hitch := t.hitch }
        ∧ Claims.portOf t = { Claims.portOf s with num := (Claims.portOf s).num + 1, replay := none })
  ∧ (∀ (s : State) (b : CoreId) (off : Nat), (Claims.portOf s).lost = false → s.arg.yes = true →
      s.arg.num2 % 2 ^ 32 = (Claims.portOf s).num.toNat → s.arg.yes2 = true → s.target s.arg.pa.toNat .device = some (.bank b off) →
        Claims.Gives .flitReceive s fun t => t.mem = s.mem
          ∧ (∀ p, p ∈ t.poison ↔ p ∈ s.poison ∨ (bankKey b off / 32 ≤ p ∧ p ≤ (bankKey b off + min 56 (max 1 s.arg.v.toNat) - 1) / 32))
          ∧ Claims.portOf t = { Claims.portOf s with num := (Claims.portOf s).num + 1, replay := none })
  ∧ (∀ (s : State) (g : BitVec 8) (off : Nat) (m : NodeId × CoreId), (Claims.portOf s).lost = false → s.arg.yes = true →
      s.arg.num2 % 2 ^ 32 = (Claims.portOf s).num.toNat → s.arg.yes2 = true → s.target s.arg.pa.toNat .device = some (.mcast g off) →
      m ∈ s.members g → s.present m = true →
        Claims.Gives .flitReceive s fun t => t.mem = s.mem
          ∧ ∀ p, bankKey m.2 off / 32 ≤ p → p ≤ (bankKey m.2 off + min 56 (max 1 s.arg.v.toNat) - 1) / 32 → p ∈ t.poison)
  ∧ (∀ s : State, s.arg.yes = true → Claims.Gives .laneSparing s fun t => t = { s with life := t.life }
      ∧ ∀ p : Fin 24, p.val = s.arg.num % 24 → Claims.lifeOf t.life (.cxlSparings p) = Claims.oneMore (Claims.lifeOf s.life (.cxlSparings p)))
  ∧ (∀ s : State, s.arg.yes = false → Claims.Gives .laneSparing s fun t => t = { s with hitch := t.hitch, life := t.life }
      ∧ Claims.portOf t = if (Claims.portOf s).spared then { Claims.portOf s with halved := true } else { Claims.portOf s with spared := true })
  ∧ (∀ (s : State) (since : Nat), s.MemoryForm → (Claims.portOf s).lost = false → (Claims.portOf s).replay = some since →
      since + 4500000 ≤ s.now → Claims.Gives .hitchPortLost s fun t => (Claims.portOf t).lost = true
        ∧ ∀ n p, n < 1024 → p < 64 → (t.route n).testBit p = ((s.route n).testBit p && p != s.arg.num % 16))
  ∧ (∀ (s : State) (b : CoreId) (off : Nat), s.target s.arg.pa.toNat .device = some (.bank b off) → s.peerGranted s.arg.yes s.arg.bytes b = false →
      Leads .remoteAccess s s)
  ∧ (∀ (s : State) (b : CoreId) (off : Nat) (z : Fin 4) (v : W64), s.MemoryForm → s.target s.arg.pa.toNat .device = some (.bank b off) →
      s.peerGranted s.arg.yes s.arg.bytes b = true → off < 0x1C0000 → (s.core b).drain = 0 → s.waiting = [] → (s.core b).mode = .scratch →
      (s.core b).repair.holds off 8 = false → s.arg.op = .store z v → s.foldHeld b off (2 ^ z.val) = false →
        Claims.Gives .remoteAccess s fun t => Claims.Stored s t (bankKey b off) (leBytes (2 ^ z.val) v.toNat))
  ∧ (∀ (s : State) (b : CoreId) (off : Nat) (v : W64), s.MemoryForm → s.target s.arg.pa.toNat .device = some (.bank b off) →
      s.peerGranted s.arg.yes s.arg.bytes b = true → off < 0x1C0000 → (s.core b).drain = 0 → s.waiting = [] → (s.core b).mode = .scratch →
      (s.core b).repair.holds off 8 = false → s.arg.op = .fetchAdd v → s.foldHeld b off 8 = false →
        Claims.Gives .remoteAccess s fun t => Claims.Stored s t (bankKey b off)
          (leBytes 8 ((s.mem.readLE (bankKey b off) 8 + v.toNat) % 2 ^ 64)))
  ∧ (∀ (s : State) (b : CoreId) (off : Nat) (z : Fin 4), s.target s.arg.pa.toNat .device = some (.bank b off) →
      s.peerGranted s.arg.yes s.arg.bytes b = true → off < 0x1C0000 → (s.core b).drain = 0 → s.waiting = [] → (s.core b).mode = .scratch →
      (s.core b).repair.holds off 8 = false → s.arg.op = .load z → s.foldHeld b off (2 ^ z.val) = false → s.ecc = [] →
        Claims.Gives .remoteAccess s fun t => t = s)
  ∧ (∀ (s : State) (b : CoreId) (off : Nat) (v : W64), s.MemoryForm → s.target s.arg.pa.toNat .device = some (.bank b off) →
      s.peerGranted s.arg.yes s.arg.bytes b = true → off < 0x1C0000 → (s.core b).drain = 0 → s.waiting = [] → (s.core b).mode = .scratch →
      (s.core b).repair.holds off 8 = false → s.arg.op = .atomic .xchg v → s.foldHeld b off 8 = false →
        Claims.Gives .remoteAccess s fun t => Claims.Stored s t (bankKey b off) (leBytes 8 v.toNat))
  ∧ (∀ (s : State) (b : CoreId) (off : Nat) (e v : W64), s.MemoryForm → s.target s.arg.pa.toNat .device = some (.bank b off) →
      s.peerGranted s.arg.yes s.arg.bytes b = true → off < 0x1C0000 → (s.core b).drain = 0 → s.waiting = [] → (s.core b).mode = .scratch →
      (s.core b).repair.holds off 8 = false → s.arg.op = .atomic (.cas e) v → s.foldHeld b off 8 = false →
        Claims.Gives .remoteAccess s fun t => Claims.Stored s t (bankKey b off)
          (leBytes 8 (if s.mem.readLE (bankKey b off) 8 = e.toNat then v.toNat else s.mem.readLE (bankKey b off) 8)))
  ∧ (∀ (s : State) (b : CoreId) (off : Nat), s.target s.arg.pa.toNat .device = some (.bank b off) → s.peerGranted s.arg.yes s.arg.bytes b = true →
      off < 0x1C0000 → 0 < (s.core b).drain → Leads .remoteAccess s { s with waiting := s.waiting ++ [(.remoteAccess, s.arg)] })

namespace Sys2Proof.Claims

open Machine

/-! #### Issue (R26, R28, R40, R42, R152, R157, R160, R179) -/

/-- The kind and payload of a prefix (R158). -/
def prefixOf (i : Instr) : Option (PKind × BitVec 8) :=
  match i with
  | .scope p => some (.scope, p)
  | .token p => some (.token, p)
  | .ifp p => some (.cond, p)
  | .fmt p => some (.fmt, p)
  | .sparse p => some (.sparse, p)
  | .waitmax p => some (.waitmax, p)
  | .round p => some (.round, p)
  | .sat p => some (.sat, p)
  | .event p => some (.event, p)
  | _ => none

/-- Word i traps in s, word-precisely: the PC recorded, and stood at, is that of its group's first prefix, or its own (R157, R299). -/
def WordTraps (i : Instr) (s : State) (t : TrapInfo) : Prop :=
  Gives i s fun u => TrapTaken s u s.k s.q t s.me.trapPc

/-- The trap of a word that does not pass the stack check. -/
def stackTrap (s : State) (sp : Spec) : TrapInfo :=
  { code := 0x02, info := ofN (s.me.stack.length + sp.pops * 256 + sp.pushes * 4096) }

end Sys2Proof.Claims

/-- R28: a word that pops more entries than the depth holds, or that would leave more than eight, traps with cause 0x02 before it has any effect;
its PC and stack are unchanged. A word that passes the check and completes has popped and pushed as many entries as its entry states. -/
def Obligations.StackChecksComeFirst : Prop :=
  (∀ (i : Instr) (s : State) (sp : Spec), wordSpec s.q i = some sp → s.accepts s.k s.q sp = true →
    s.me.stack.length < sp.pops ∨ 8 < s.me.stack.length - sp.pops + sp.pushes → Claims.WordTraps i s (Claims.stackTrap s sp))
  ∧ (∀ (i : Instr) (s u : State) (sp : Spec) (out : List W64) (cost : Nat) (fl : BitVec 32), wordSpec s.q i = some sp → s.Issues i sp →
      (u.seq s.k s.q).stack = s.me.stack → out.length = sp.pushes → Completes i s u sp.pops out cost fl →
        Claims.Gives i s fun t => (t.seq s.k s.q).stack.length = s.me.stack.length - sp.pops + sp.pushes
          ∧ (t.seq s.k s.q).stack.length ≤ 8)

/-- R26, R152, R42: a word that its sequencer does not accept, or that no map defines, traps with cause 0x01 and the word in ADDR; a word whose right,
privilege or place the task lacks takes what step 2 of R170 names. R157: a prefix issues, is not charged, and joins its group. R160: under a
false IF a word pops its operands, pushes zeros and does nothing else. R179: BRK and TRAP take effect and then trap, recording their own PC,
and go on with the next word. -/
def Obligations.WordsThatOnlyIssueOrTrap : Prop :=
  (∀ (i : Instr) (s : State) (sp : Spec), wordSpec s.q i = some sp → s.accepts s.k s.q sp = false →
    Claims.WordTraps i s { code := 0x01, addr := (wordOf i).setWidth 64 })
  ∧ (∀ (w : Word16) (s : State), Claims.WordTraps (.undefinedWord w) s { code := 0x01, addr := w.setWidth 64 })
  ∧ (∀ (i : Instr) (s : State) (sp : Spec) (t : TrapInfo), wordSpec s.q i = some sp → s.accepts s.k s.q sp = true →
      sp.pops ≤ s.me.stack.length → s.me.stack.length - sp.pops + sp.pushes ≤ 8 → s.rightsTrap s.k s.q sp = some t →
        t.code = 0x03 ∧ Claims.WordTraps i s t)
  ∧ (∀ (i : Instr) (s : State) (sp : Spec) (p : BitVec 4), wordSpec s.q i = some sp → s.accepts s.k s.q sp = true →
      sp.pops ≤ s.me.stack.length → s.me.stack.length - sp.pops + sp.pushes ≤ 8 → s.rightsTrap s.k s.q sp = none →
      (s.ctx s.k).regSound ((s.ctx s.k).issueReads s.q sp.pops (s.px sp).cond) = true → (s.px sp).cond = some p → s.me.condHolds p = false →
        Claims.Gives i s fun t => OnlyIssue s.k s.q s t ∧ Advanced s.k s.q s t sp.pops (List.replicate sp.pushes 0) (s.me.pc + 2) 1
          ∧ (t.regs s.k).tok = (s.regs s.k).tok ∧ (t.regs s.k).wflags = (s.regs s.k).wflags)
  ∧ (∀ (i : Instr) (s : State) (kd : PKind) (p : BitVec 8), Claims.prefixOf i = some (kd, p) →
      Claims.Gives i s fun t => OnlyIssue s.k s.q s t ∧ t.regs s.k = s.regs s.k
        ∧ (t.seq s.k s.q).pfx = s.me.pfx ++ [{ kind := kd, payload := p }] ∧ (t.seq s.k s.q).pc = s.me.pc + 2
        ∧ (t.seq s.k s.q).grpPc = some s.me.trapPc ∧ (t.seq s.k s.q).stack = s.me.stack ∧ (t.seq s.k s.q).run = s.me.run)
  ∧ (∀ (s : State) (r : BitVec 4), s.Ready (.brk r) →
      CompletesThen (.brk r) s s 0 [] 1 0 fun t => t.takeTrapAt s.k s.q { code := 0x11, kind := 2 } s.me.pc (t.seq s.k s.q).pc)
  ∧ (∀ (s : State) (r : BitVec 4), s.Ready (.trap r) →
      CompletesThen (.trap r) s s 0 [] 1 0 fun t =>
        t.takeTrapAt s.k s.q { code := 0x05, addr := r.setWidth 64 } s.me.pc (t.seq s.k s.q).pc)

/-- R148 to R152, R156, R158: every word of an instruction decodes to it, every word decodes to a well-formed instruction whose word it is, and the
bytes of a word, least significant first, decode to it and leave the bytes after it. -/
def Obligations.DecodeAndEncodeAgree : Prop :=
  (∀ (i : Instr) (w : Word16), i.wellFormed = true → encodeWord i = some w → decodeWord w = i)
  ∧ (∀ w : Word16, (decodeWord w).wellFormed = true ∧ encodeWord (decodeWord w) = some w)
  ∧ (∀ (i : Instr) (bs rest : List Byte), i.wellFormed = true → encode i = some bs → decode (bs ++ rest) = .ok (i, rest))

namespace Sys2Proof.Claims

open Machine

/-- The sequencer whose turn it is issues a word now: nothing is due before it, it runs, a new group may begin, and it waits for nothing. -/
structure Issuing (s : State) : Prop where
  /-- The module has power. -/
  power : s.powered = true
  /-- Nothing is due. -/
  due : s.events = []
  /-- It stands at no trap, hook or watch stop, and its die has a cycle. -/
  goes : s.stands s.k s.q = false
  /-- It runs. -/
  runs : s.me.run = .running
  /-- It is inside a group, or a group may begin. -/
  group : s.me.grpPc.isSome = true ∨ s.noNewGroup s.k s.q = false
  /-- No bubble, hold or blocked word. -/
  free : s.me.bubbles = 0 ∧ s.me.hold = 0 ∧ s.me.held = none

/-- The line of the instruction cache in which the sequencer whose turn it is finds the word at a byte of a bank. -/
def heldLine (s : State) (b : CoreId) (off : Nat) : Option CodeLine :=
  (s.core s.k).icache.find? fun l => l.line == s.bankPa b off / 128 && l.live.getLsbD (seqCode s.q)

/-- The word that such a line holds there. -/
def lineWord (s : State) (l : CodeLine) (b : CoreId) (off : Nat) : Word16 :=
  BitVec.ofNat 16 (leNat ((l.data.drop (s.bankPa b off % 128)).take 2))

/-- The word that the bank holds there. -/
def bankWord (s : State) (b : CoreId) (off : Nat) : Word16 := BitVec.ofNat 16 (s.mem.readLE (bankKey b off) 2)

end Sys2Proof.Claims

/-- R26, R107, R166: with nothing due, the step of a sequencer that may issue performs the instruction that the two bytes at its PC decode to, and
the turn goes on; an instruction due before performs first. R168: a line of the instruction cache may give the old word or the new one; where none
is held, or where it holds what memory holds, the word is that in memory. -/
def Obligations.AStepRunsTheDecodedInstruction : Prop :=
  (∀ (s u : State) (i : Instr) (b : CoreId) (off : Nat) (e : Option TlbEnt), Claims.Issuing s →
    s.access s.k (s.me.pc.setWidth 64) 2 2 .fetch = .ok (.bank b off, e) → Claims.cleanBank s b off 2 →
    (∀ l, Claims.heldLine s b off = some l → Claims.lineWord s l b off = Claims.bankWord s b off) →
    decode (s.mem.readBytes (bankKey b off) 2) = .ok (i, []) →
    exec i ((((s.useTlb s.k e).codeWord s.k s.q (.bank b off)).2).firmLoads s.k s.q i) = .next u → StepsTo s u.advance)
  ∧ (∀ (s t : State) (w : Word16) (b : CoreId) (off : Nat) (e : Option TlbEnt) (l : CodeLine),
      s.access s.k (s.me.pc.setWidth 64) 2 2 .fetch = .ok (.bank b off, e) → Claims.heldLine s b off = some l →
      s.fetch s.k s.q s.me.pc = .ok (w, t) → w = Claims.lineWord s l b off ∨ w = Claims.bankWord s b off)
  ∧ (∀ (s u : State) (i : Instr) (a : EvArg) (rest : List (Instr × EvArg)), s.powered = true → s.events = (i, a) :: rest →
      exec i { s with events := rest, arg := a, serial := s.serial + 1 } = .next u → StepsTo s u)
  ∧ (∀ (s : State) (t : TrapInfo), Claims.Issuing s →
      s.access s.k (s.me.pc.setWidth 64) 2 2 .fetch = .error (.trap t) → StepsTo s (s.takeTrap s.k s.q t).advance)
  ∧ (∀ (s : State) (i : Instr), s.powered = true → s.events = [] → s.stands s.k s.q = false → s.me.run = .running ∨ s.me.run = .blocked →
      s.noNewGroup s.k s.q = false → s.me.bubbles = 0 → s.me.hold = 0 → s.me.held = some i →
        ∀ u, exec .waitCompletion { s with arg := { k := s.k, q := s.q } } = .next u → StepsTo s u.advance)

/-- R26, R152, R299: no instruction stops the machine: each answers a next state in every state, and a step of a module that has power answers one. -/
def Obligations.EveryInstructionAnswersANextState : Prop :=
  (∀ (i : Instr) (s : State), ∃ t, exec i s = .next t) ∧ (∀ s : State, s.powered = true → ∃ t, StepsTo s t)

/-- R91, R366: every step keeps the one canonical form of memory: addresses strictly rising, and no byte listed that equals what an unlisted address reads
as, or, where bytes stand over a memory, strictly rising addresses (log entry 1; the form is the model's own). -/
def Obligations.StepsKeepTheFormOfMemory : Prop := ∀ s t : State, s.MemoryForm → StepsTo s t → t.MemoryForm

/-- R366, R10, R29, R47, R93, R94, R278, R343: what reset leaves. Banks and register files are zero, no node, group, queue or arena stands, every
bank is in CACHE mode, every NODE is unrouted, the timer has counted nothing, every session slot is free with generation 0, and memory has its
canonical form. That pool memory reads zero and that the timer starts at zero are the model's choices (log
entry 1). -/
def Obligations.ResetState : Prop :=
  State.reset.powered = true ∧ State.reset.now = 0 ∧ State.reset.events = [] ∧ State.reset.MemoryForm
    ∧ (∀ a, State.reset.mem.read a = 0) ∧ State.reset.poison = [] ∧ State.reset.nodes = [] ∧ State.reset.groups = []
    ∧ State.reset.queues = [] ∧ State.reset.arenas = [] ∧ (∀ n, State.reset.routed n = false)
    ∧ (∀ k, (State.reset.core k).node = none ∧ (State.reset.core k).mode = .cache ∧ (State.reset.core k).version = [])
    ∧ (∀ k q, (State.reset.seq k q).run = .idle ∧ (State.reset.seq k q).stack = [] ∧ (State.reset.seq k q).preds = 0)
    ∧ (∀ k, (State.reset.regs k).s = .replicate 16 0 ∧ (State.reset.regs k).tok = .replicate 6 0 ∧ (State.reset.regs k).wflags = 0
        ∧ (State.reset.ctx k).tiles = [] ∧ (State.reset.ctx k).acc = [])
    ∧ (∀ x : SessIx, (State.reset.sess x).st = .free ∧ (State.reset.sess x).gen = 0)
    ∧ (∀ d, (State.reset.die d).trapQ = [] ∧ (State.reset.die d).counters = [] ∧ (State.reset.die d).step = 0)
    ∧ State.reset.host.tqw = 0 ∧ State.reset.host.tqr = 0

/-- R3, R30, R91: a value in memory lies least significant byte first. The value a PUT writes is visible from the next cycle on, and until then every read returns the old one; other registers keep
theirs. Bytes written at a home read back there and change no other byte: of a bank, of CACHED pool memory as the L2 shows it, and of another
module's bank. -/
def Obligations.WritesReadBackAndTouchNothingElse : Prop :=
  (∀ (r : Regs) (n m : Fin 16) (v : W64), r.sOld = [] →
    (r.putS n v).getS m = r.getS m ∧ ({ r.putS n v with sOld := [] } : Regs).getS m = if m = n then v else r.getS m)
  ∧ (∀ (m : Memory) (a n v i : Nat), m.wf = true → i < n → (m.writeLE a n v).read (a + i) = BitVec.ofNat 8 (v / 256 ^ i)
      ∧ (m.writeLE a n v).readLE a n = v % 256 ^ n)
  ∧ (∀ (s : State) (b : CoreId) (off : Nat) (bs : List Byte), s.MemoryForm → Claims.Stored s (s.homeWrite (.bank b off) bs) (bankKey b off) bs)
  ∧ (∀ (s : State) (pa : Nat) (bs : List Byte), s.MemoryForm → Claims.Stored s (s.homeWrite (.remote pa) bs) (remoteKey pa) bs)
  ∧ (∀ (s : State) (pa : Nat) (bs : List Byte), s.MemoryForm → (s.homeWrite (.pool pa .cached) bs).mem = s.mem
      ∧ ∀ a, (s.homeWrite (.pool pa .cached) bs).sliceByte a
          = if pa ≤ a ∧ a < pa + bs.length then bs.getD (a - pa) 0 else s.sliceByte a)

/-- R148 to R158: words written out from the encoding maps decode to the instructions they stand for: LIT -1, EXT 5, the S words 0xA145 (ADD with
r = 5), 0xA662 (FORK 2), 0xAB34 (TLD 4), 0xA740 (MGATHER), the prefix 0xB203 (IF with payload 3), the V word 0xC281 (VADD p2, p0, p1), and
0xBF00 as no word. -/
def Obligations.SampleWordsDecode : Prop :=
  decodeWord 0x7FFF = .lit 0x7FFF ∧ decodeWord 0x8005 = .ext 5 ∧ decodeWord 0xA145 = .add 5 ∧ decodeWord 0xA662 = .fork 2
    ∧ decodeWord 0xAB34 = .tld 4 ∧ decodeWord 0xA740 = .mgather 0 ∧ decodeWord 0xB203 = .ifp 3 ∧ decodeWord 0xC281 = .vadd 2 0 1
    ∧ decodeWord 0xBF00 = .undefinedWord 0xBF00 ∧ decodeTableWord 16 0xA662 = some (.fork 2)
end

