-- ==== Sys2Proof/Laws/Memory.lean ====
section
/-! SUPPORT. The laws of byte stores: what reading answers after a write, and that every operation keeps the canonical form of a
`Memory` and the rising addresses of an `Overlay`. -/

namespace Sys2Proof.Machine

/-! ### The canonical form of a memory -/

/-- Every listed address is above a. -/
def Memory.above (m : Memory) (a : Nat) : Prop := ∀ c ∈ m, a < c.1

theorem Memory.wf_cons {k : Nat} {b : Byte} {t : Memory} :
    Memory.wf ((k, b) :: t) = true ↔ b ≠ unlistedByte ∧ Memory.above t k ∧ Memory.wf t = true := by
  induction t generalizing k b with
  | nil => simp [Memory.wf, Memory.above]
  | cons c t ih =>
    obtain ⟨k', b'⟩ := c
    rw [Memory.wf]
    simp only [Bool.and_eq_true, bne_iff_ne, ne_eq, decide_eq_true_eq]
    constructor
    · rintro ⟨⟨hb, hk⟩, hw⟩
      refine ⟨hb, ?_, hw⟩
      intro c hc
      rcases List.mem_cons.1 hc with rfl | hc
      · exact hk
      · exact Nat.lt_trans hk ((ih.1 hw).2.1 c hc)
    · rintro ⟨hb, ha, hw⟩
      exact ⟨⟨hb, ha (k', b') (List.mem_cons_self ..)⟩, hw⟩

theorem Memory.read_above {m : Memory} {a x : Nat} (h : m.above a) (hx : x ≤ a) : m.read x = unlistedByte := by
  induction m with
  | nil => rfl
  | cons c t ih =>
    obtain ⟨k, b⟩ := c
    have := h (k, b) (List.mem_cons_self ..)
    rw [Memory.read, if_neg (by simp only at this; omega)]
    exact ih fun c hc => h c (List.mem_cons_of_mem _ hc)

theorem Memory.above_write {m : Memory} {a x : Nat} {b : Byte} (h : m.above a) (hx : a < x) : (m.write x b).above a := by
  induction m with
  | nil =>
    rw [Memory.write]
    split
    · exact fun c hc => absurd hc (List.not_mem_nil)
    · intro c hc; simp only [List.mem_singleton] at hc; subst hc; exact hx
  | cons c t ih =>
    obtain ⟨k, v⟩ := c
    have hk := h (k, v) (List.mem_cons_self ..)
    have ht : Memory.above t a := fun c hc => h c (List.mem_cons_of_mem _ hc)
    rw [Memory.write]
    split
    · split
      · exact h
      · intro c hc; rcases List.mem_cons.1 hc with rfl | hc; exacts [hx, h c hc]
    · split
      · split
        · exact ht
        · intro c hc; rcases List.mem_cons.1 hc with rfl | hc; exacts [hx, ht c hc]
      · intro c hc; rcases List.mem_cons.1 hc with rfl | hc; exacts [hk, ih ht c hc]

/-- A write keeps the canonical form. -/
theorem Memory.write_wf {m : Memory} (h : m.wf = true) (a : Nat) (b : Byte) : (m.write a b).wf = true := by
  induction m with
  | nil =>
    rw [Memory.write]
    split
    · rfl
    · rename_i hb; exact Memory.wf_cons.2 ⟨hb, fun c hc => absurd hc (List.not_mem_nil), rfl⟩
  | cons c t ih =>
    obtain ⟨k, v⟩ := c
    obtain ⟨hv, ha, ht⟩ := Memory.wf_cons.1 h
    rw [Memory.write]
    split
    · rename_i hk
      split
      · exact h
      · rename_i hb
        refine Memory.wf_cons.2 ⟨hb, ?_, h⟩
        intro c hc
        rcases List.mem_cons.1 hc with rfl | hc
        · exact hk
        · exact Nat.lt_trans hk (ha c hc)
    · split
      · rename_i _ hk
        subst hk
        split
        · exact ht
        · rename_i hb; exact Memory.wf_cons.2 ⟨hb, ha, ht⟩
      · exact Memory.wf_cons.2 ⟨hv, Memory.above_write ha (by omega), ih ht⟩

/-- What reading answers after a write. -/
theorem Memory.read_write {m : Memory} (h : m.wf = true) (a x : Nat) (b : Byte) :
    (m.write a b).read x = if x = a then b else m.read x := by
  induction m with
  | nil =>
    rw [Memory.write]
    split
    · rename_i hb; subst hb; split <;> rfl
    · simp only [Memory.read, eq_comm (a := a)]
  | cons c t ih =>
    obtain ⟨k, v⟩ := c
    obtain ⟨hv, ha, ht⟩ := Memory.wf_cons.1 h
    rw [Memory.write]
    split
    · rename_i hk
      split
      · rename_i hb
        subst hb
        split
        · rename_i hx
          subst hx
          rw [Memory.read, if_neg (by omega)]
          exact Memory.read_above ha (by omega)
        · rfl
      · rw [Memory.read]; simp only [eq_comm (a := a)]
    · split
      · rename_i _ hk
        subst hk
        split
        · rename_i hb
          subst hb
          split
          · rename_i hx; subst hx; exact Memory.read_above ha (Nat.le_refl _)
          · rename_i hx; rw [Memory.read, if_neg (fun e => hx e.symm)]
        · simp only [Memory.read, eq_comm (a := a)]
          split <;> rfl
      · rename_i h1 h2
        rw [Memory.read, ih ht, Memory.read]
        split
        · rw [if_neg (by omega)]
        · rfl

/-- Writes of bytes keep the canonical form. -/
theorem Memory.writeBytes_wf {m : Memory} (h : m.wf = true) (a : Nat) (bs : List Byte) : (m.writeBytes a bs).wf = true := by
  induction bs generalizing m a with
  | nil => exact h
  | cons b t ih => exact ih (Memory.write_wf h a b) (a + 1)

/-- What reading answers after writing bytes. -/
theorem Memory.read_writeBytes {m : Memory} (h : m.wf = true) (a x : Nat) (bs : List Byte) :
    (m.writeBytes a bs).read x = if a ≤ x ∧ x < a + bs.length then bs.getD (x - a) 0 else m.read x := by
  induction bs generalizing m a with
  | nil => rw [Memory.writeBytes, if_neg (by simp only [List.length_nil]; omega)]
  | cons b t ih =>
    rw [Memory.writeBytes, ih (Memory.write_wf h a b) (a + 1), Memory.read_write h]
    by_cases hx : x = a
    · subst hx
      rw [if_neg (by omega), if_pos rfl, if_pos (by simp), Nat.sub_self]
      rfl
    · rw [if_neg hx]
      by_cases hr : a + 1 ≤ x ∧ x < a + 1 + t.length
      · rw [if_pos hr, if_pos (by simp only [List.length_cons]; omega)]
        obtain ⟨n, hn⟩ : ∃ n, x - a = n + 1 := ⟨x - a - 1, by omega⟩
        rw [hn, show x - (a + 1) = n by omega, List.getD_cons_succ]
      · rw [if_neg hr, if_neg (by simp only [List.length_cons]; omega)]

theorem Memory.writeLE_wf {m : Memory} (h : m.wf = true) (a n v : Nat) : (m.writeLE a n v).wf = true := Memory.writeBytes_wf h _ _

/-- The bytes read, one by one. -/
theorem Memory.readBytes_eq (m : Memory) (a n : Nat) : m.readBytes a n = (List.range n).map fun i => m.read (a + i) := by
  induction n generalizing a with
  | zero => rfl
  | succ n ih =>
    rw [Memory.readBytes, ih, List.range_succ_eq_map, List.map_cons, List.map_map]
    congr 1
    apply List.map_congr_left
    intro i _
    simp only [Function.comp]
    congr 1
    omega

/-- Bytes written read back. -/
theorem Memory.readBytes_writeBytes {m : Memory} (h : m.wf = true) (a : Nat) (bs : List Byte) :
    (m.writeBytes a bs).readBytes a bs.length = bs := by
  rw [Memory.readBytes_eq]
  apply List.ext_getElem
  · simp
  · intro i h1 h2
    simp only [List.getElem_map, List.getElem_range]
    rw [Memory.read_writeBytes h, if_pos ⟨by omega, by omega⟩, Nat.add_sub_cancel_left, List.getD_eq_getElem?_getD,
      List.getElem?_eq_getElem h2]
    rfl

/-- A byte outside the range that is written reads as before. -/
theorem Memory.read_writeBytes_outside {m : Memory} (h : m.wf = true) (a x : Nat) (bs : List Byte) (hx : x < a ∨ a + bs.length ≤ x) :
    (m.writeBytes a bs).read x = m.read x := by
  rw [Memory.read_writeBytes h, if_neg (by omega)]

/-- A part of the list keeps the canonical form. -/
theorem Memory.filter_wf {m : Memory} (h : m.wf = true) (p : Host.Cell → Bool) : Memory.wf (List.filter p m) = true := by
  induction m with
  | nil => rfl
  | cons c t ih =>
    obtain ⟨k, v⟩ := c
    obtain ⟨hv, ha, ht⟩ := Memory.wf_cons.1 h
    rw [List.filter_cons]
    split
    · exact Memory.wf_cons.2 ⟨hv, fun c hc => ha c (List.mem_filter.1 hc).1, ih ht⟩
    · exact ih ht

theorem Memory.clear_wf {m : Memory} (h : m.wf = true) (a n : Nat) : (m.clear a n).wf = true := Memory.filter_wf h _

theorem Memory.overlaySlice_wf {m : Memory} (h : m.wf = true) (a : Nat) (sl : Memory) : (m.overlaySlice a sl).wf = true := by
  induction sl generalizing m with
  | nil => exact h
  | cons c t ih => exact ih (Memory.write_wf h _ _)

theorem Memory.put_wf {m : Memory} (h : m.wf = true) (a n : Nat) (sl : Memory) : (m.put a n sl).wf = true :=
  Memory.overlaySlice_wf (Memory.clear_wf h a n) a sl

theorem Memory.copy_wf {m : Memory} (h : m.wf = true) (dst src n : Nat) : (m.copy dst src n).wf = true := Memory.put_wf h _ _ _

/-! ### The form of an overlay -/

/-- Every listed address is above a. -/
def Overlay.above (o : Overlay) (a : Nat) : Prop := ∀ c ∈ o, a < c.1

theorem Overlay.wf_cons {k : Nat} {b : Byte} {t : Overlay} :
    Overlay.wf ((k, b) :: t) = true ↔ Overlay.above t k ∧ Overlay.wf t = true := by
  induction t generalizing k b with
  | nil => simp [Overlay.wf, Overlay.above]
  | cons c t ih =>
    obtain ⟨k', b'⟩ := c
    rw [Overlay.wf]
    simp only [Bool.and_eq_true, decide_eq_true_eq]
    constructor
    · rintro ⟨hk, hw⟩
      refine ⟨?_, hw⟩
      intro c hc
      rcases List.mem_cons.1 hc with rfl | hc
      · exact hk
      · exact Nat.lt_trans hk ((ih.1 hw).1 c hc)
    · rintro ⟨ha, hw⟩
      exact ⟨ha (k', b') (List.mem_cons_self ..), hw⟩

theorem Overlay.above_set {o : Overlay} {a x : Nat} {b : Byte} (h : o.above a) (hx : a < x) : (o.set x b).above a := by
  induction o with
  | nil => intro c hc; simp only [Overlay.set, List.mem_singleton] at hc; subst hc; exact hx
  | cons c t ih =>
    obtain ⟨k, v⟩ := c
    have hk := h (k, v) (List.mem_cons_self ..)
    have ht : Overlay.above t a := fun c hc => h c (List.mem_cons_of_mem _ hc)
    rw [Overlay.set]
    split
    · intro c hc; rcases List.mem_cons.1 hc with rfl | hc; exacts [hx, h c hc]
    · split
      · intro c hc; rcases List.mem_cons.1 hc with rfl | hc; exacts [hx, ht c hc]
      · intro c hc; rcases List.mem_cons.1 hc with rfl | hc; exacts [hk, ih ht c hc]

/-- Setting a byte keeps the form. -/
theorem Overlay.set_wf {o : Overlay} (h : o.wf = true) (a : Nat) (b : Byte) : (o.set a b).wf = true := by
  induction o with
  | nil => rfl
  | cons c t ih =>
    obtain ⟨k, v⟩ := c
    obtain ⟨ha, ht⟩ := Overlay.wf_cons.1 h
    rw [Overlay.set]
    split
    · rename_i hk
      refine Overlay.wf_cons.2 ⟨?_, h⟩
      intro c hc
      rcases List.mem_cons.1 hc with rfl | hc
      · exact hk
      · exact Nat.lt_trans hk (ha c hc)
    · split
      · rename_i _ hk; subst hk; exact Overlay.wf_cons.2 ⟨ha, ht⟩
      · exact Overlay.wf_cons.2 ⟨Overlay.above_set ha (by omega), ih ht⟩

/-- What an overlay holds after a byte is set. -/
theorem Overlay.find_set (o : Overlay) (a x : Nat) (b : Byte) : (o.set a b).find x = if x = a then some b else o.find x := by
  induction o with
  | nil => simp only [Overlay.set, Overlay.find, eq_comm (a := a)]
  | cons c t ih =>
    obtain ⟨k, v⟩ := c
    rw [Overlay.set]
    split
    · rw [Overlay.find]; simp only [eq_comm (a := a)]
    · split
      · rename_i _ hk
        subst hk
        simp only [Overlay.find, eq_comm (a := a)]
        split <;> rfl
      · rename_i h1 h2
        rw [Overlay.find, ih, Overlay.find]
        split
        · rw [if_neg (by omega)]
        · rfl

theorem Overlay.setBytes_wf {o : Overlay} (h : o.wf = true) (a : Nat) (bs : List Byte) : (o.setBytes a bs).wf = true := by
  induction bs generalizing o a with
  | nil => exact h
  | cons b t ih => exact ih (Overlay.set_wf h a b) (a + 1)

/-- What an overlay holds after bytes are set. -/
theorem Overlay.find_setBytes (o : Overlay) (a x : Nat) (bs : List Byte) :
    (o.setBytes a bs).find x = if a ≤ x ∧ x < a + bs.length then some (bs.getD (x - a) 0) else o.find x := by
  induction bs generalizing o a with
  | nil => rw [Overlay.setBytes, if_neg (by simp only [List.length_nil]; omega)]
  | cons b t ih =>
    rw [Overlay.setBytes, ih, Overlay.find_set]
    by_cases hx : x = a
    · subst hx
      rw [if_neg (by omega), if_pos rfl, if_pos (by simp), Nat.sub_self]
      rfl
    · rw [if_neg hx]
      by_cases hr : a + 1 ≤ x ∧ x < a + 1 + t.length
      · rw [if_pos hr, if_pos (by simp only [List.length_cons]; omega)]
        obtain ⟨n, hn⟩ : ∃ n, x - a = n + 1 := ⟨x - a - 1, by omega⟩
        rw [hn, show x - (a + 1) = n by omega, List.getD_cons_succ]
      · rw [if_neg hr, if_neg (by simp only [List.length_cons]; omega)]

theorem Overlay.filter_wf {o : Overlay} (h : o.wf = true) (p : Host.Cell → Bool) : Overlay.wf (List.filter p o) = true := by
  induction o with
  | nil => rfl
  | cons c t ih =>
    obtain ⟨k, v⟩ := c
    obtain ⟨ha, ht⟩ := Overlay.wf_cons.1 h
    rw [List.filter_cons]
    split
    · exact Overlay.wf_cons.2 ⟨fun c hc => ha c (List.mem_filter.1 hc).1, ih ht⟩
    · exact ih ht

/-! ### Little-endian values (R3) -/

@[simp] theorem leBytes_length (n v : Nat) : (leBytes n v).length = n := by
  induction n generalizing v with
  | zero => rfl
  | succ n ih => simp [leBytes, ih]

theorem leNat_leBytes (n v : Nat) : leNat (leBytes n v) = v % 256 ^ n := by
  induction n generalizing v with
  | zero => simp [leBytes, leNat, Nat.mod_one]
  | succ n ih =>
    rw [leBytes, leNat, ih, BitVec.toNat_ofNat, show (256 : Nat) ^ (n + 1) = 256 * 256 ^ n from pow_succ' 256 n, Nat.mod_mul]

/-- A value written reads back, modulo its width. -/
theorem Memory.readLE_writeLE {m : Memory} (h : m.wf = true) (a n v : Nat) : (m.writeLE a n v).readLE a n = v % 256 ^ n := by
  unfold Memory.readLE Memory.writeLE
  have := Memory.readBytes_writeBytes h a (leBytes n v)
  rw [leBytes_length] at this
  rw [this, leNat_leBytes]

end Sys2Proof.Machine
end

