-- ==== Sys2Proof/Laws/State.lean ====
section
/-! SUPPORT. The small laws of the state: what each update of a part leaves of every other part, true by unfolding, and
what reading a core, a context, a sequencer or its registers answers after an update of one. -/

namespace Sys2Proof.Machine

/-! ### setCore touches only the cores -/

@[simp] theorem State.setCore_powered (s : State) (k : CoreId) (c : Core) : (s.setCore k c).powered = s.powered := rfl
@[simp] theorem State.setCore_now (s : State) (k : CoreId) (c : Core) : (s.setCore k c).now = s.now := rfl
@[simp] theorem State.setCore_cur (s : State) (k : CoreId) (c : Core) : (s.setCore k c).cur = s.cur := rfl
@[simp] theorem State.setCore_events (s : State) (k : CoreId) (c : Core) : (s.setCore k c).events = s.events := rfl
@[simp] theorem State.setCore_arg (s : State) (k : CoreId) (c : Core) : (s.setCore k c).arg = s.arg := rfl
@[simp] theorem State.setCore_free (s : State) (k : CoreId) (c : Core) : (s.setCore k c).free = s.free := rfl
@[simp] theorem State.setCore_serial (s : State) (k : CoreId) (c : Core) : (s.setCore k c).serial = s.serial := rfl
@[simp] theorem State.setCore_mem (s : State) (k : CoreId) (c : Core) : (s.setCore k c).mem = s.mem := rfl
@[simp] theorem State.setCore_l2 (s : State) (k : CoreId) (c : Core) : (s.setCore k c).l2 = s.l2 := rfl
@[simp] theorem State.setCore_stale (s : State) (k : CoreId) (c : Core) : (s.setCore k c).stale = s.stale := rfl
@[simp] theorem State.setCore_resident (s : State) (k : CoreId) (c : Core) : (s.setCore k c).resident = s.resident := rfl
@[simp] theorem State.setCore_posts (s : State) (k : CoreId) (c : Core) : (s.setCore k c).posts = s.posts := rfl
@[simp] theorem State.setCore_poison (s : State) (k : CoreId) (c : Core) : (s.setCore k c).poison = s.poison := rfl
@[simp] theorem State.setCore_ecc (s : State) (k : CoreId) (c : Core) : (s.setCore k c).ecc = s.ecc := rfl
@[simp] theorem State.setCore_dies (s : State) (k : CoreId) (c : Core) : (s.setCore k c).dies = s.dies := rfl
@[simp] theorem State.setCore_clusters (s : State) (k : CoreId) (c : Core) : (s.setCore k c).clusters = s.clusters := rfl
@[simp] theorem State.setCore_nodes (s : State) (k : CoreId) (c : Core) : (s.setCore k c).nodes = s.nodes := rfl
@[simp] theorem State.setCore_groups (s : State) (k : CoreId) (c : Core) : (s.setCore k c).groups = s.groups := rfl
@[simp] theorem State.setCore_queues (s : State) (k : CoreId) (c : Core) : (s.setCore k c).queues = s.queues := rfl
@[simp] theorem State.setCore_arenas (s : State) (k : CoreId) (c : Core) : (s.setCore k c).arenas = s.arenas := rfl
@[simp] theorem State.setCore_host (s : State) (k : CoreId) (c : Core) : (s.setCore k c).host = s.host := rfl
@[simp] theorem State.setCore_bar0 (s : State) (k : CoreId) (c : Core) : (s.setCore k c).bar0 = s.bar0 := rfl
@[simp] theorem State.setCore_irqs (s : State) (k : CoreId) (c : Core) : (s.setCore k c).irqs = s.irqs := rfl
@[simp] theorem State.setCore_hostData (s : State) (k : CoreId) (c : Core) : (s.setCore k c).hostData = s.hostData := rfl
@[simp] theorem State.setCore_nodeId (s : State) (k : CoreId) (c : Core) : (s.setCore k c).nodeId = s.nodeId := rfl
@[simp] theorem State.setCore_peers (s : State) (k : CoreId) (c : Core) : (s.setCore k c).peers = s.peers := rfl
@[simp] theorem State.setCore_hitch (s : State) (k : CoreId) (c : Core) : (s.setCore k c).hitch = s.hitch := rfl
@[simp] theorem State.setCore_cxlFailed (s : State) (k : CoreId) (c : Core) : (s.setCore k c).cxlFailed = s.cxlFailed := rfl
@[simp] theorem State.setCore_cxlLost (s : State) (k : CoreId) (c : Core) : (s.setCore k c).cxlLost = s.cxlLost := rfl
@[simp] theorem State.setCore_oldRoutes (s : State) (k : CoreId) (c : Core) : (s.setCore k c).oldRoutes = s.oldRoutes := rfl
@[simp] theorem State.setCore_poolLost (s : State) (k : CoreId) (c : Core) (pa : Nat) : (s.setCore k c).poolLost pa = s.poolLost pa := rfl
@[simp] theorem State.setCore_pools (s : State) (k : CoreId) (c : Core) : (s.setCore k c).pools = s.pools := rfl
@[simp] theorem State.setCore_mgmtFw (s : State) (k : CoreId) (c : Core) : (s.setCore k c).mgmtFw = s.mgmtFw := rfl
@[simp] theorem State.setCore_report (s : State) (k : CoreId) (c : Core) : (s.setCore k c).report = s.report := rfl
@[simp] theorem State.setCore_life (s : State) (k : CoreId) (c : Core) : (s.setCore k c).life = s.life := rfl
@[simp] theorem State.setCore_lifeNv (s : State) (k : CoreId) (c : Core) : (s.setCore k c).lifeNv = s.lifeNv := rfl
@[simp] theorem State.setCore_draws (s : State) (k : CoreId) (c : Core) : (s.setCore k c).draws = s.draws := rfl
@[simp] theorem State.setCore_waiting (s : State) (k : CoreId) (c : Core) : (s.setCore k c).waiting = s.waiting := rfl
@[simp] theorem State.setCore_calm (s : State) (k : CoreId) (c : Core) : (s.setCore k c).calm = s.calm := rfl
@[simp] theorem State.setCore_capture (s : State) (k : CoreId) (c : Core) : (s.setCore k c).capture = s.capture := rfl
@[simp] theorem State.setCore_captureRing (s : State) (k : CoreId) (c : Core) : (s.setCore k c).captureRing = s.captureRing := rfl
@[simp] theorem State.setCore_captureDue (s : State) (k : CoreId) (c : Core) : (s.setCore k c).captureDue = s.captureDue := rfl

/-! ### modCore touches only the cores -/

@[simp] theorem State.modCore_powered (s : State) (k : CoreId) (f : Core → Core) : (s.modCore k f).powered = s.powered := rfl
@[simp] theorem State.modCore_now (s : State) (k : CoreId) (f : Core → Core) : (s.modCore k f).now = s.now := rfl
@[simp] theorem State.modCore_cur (s : State) (k : CoreId) (f : Core → Core) : (s.modCore k f).cur = s.cur := rfl
@[simp] theorem State.modCore_events (s : State) (k : CoreId) (f : Core → Core) : (s.modCore k f).events = s.events := rfl
@[simp] theorem State.modCore_arg (s : State) (k : CoreId) (f : Core → Core) : (s.modCore k f).arg = s.arg := rfl
@[simp] theorem State.modCore_free (s : State) (k : CoreId) (f : Core → Core) : (s.modCore k f).free = s.free := rfl
@[simp] theorem State.modCore_serial (s : State) (k : CoreId) (f : Core → Core) : (s.modCore k f).serial = s.serial := rfl
@[simp] theorem State.modCore_mem (s : State) (k : CoreId) (f : Core → Core) : (s.modCore k f).mem = s.mem := rfl
@[simp] theorem State.modCore_l2 (s : State) (k : CoreId) (f : Core → Core) : (s.modCore k f).l2 = s.l2 := rfl
@[simp] theorem State.modCore_stale (s : State) (k : CoreId) (f : Core → Core) : (s.modCore k f).stale = s.stale := rfl
@[simp] theorem State.modCore_resident (s : State) (k : CoreId) (f : Core → Core) : (s.modCore k f).resident = s.resident := rfl
@[simp] theorem State.modCore_posts (s : State) (k : CoreId) (f : Core → Core) : (s.modCore k f).posts = s.posts := rfl
@[simp] theorem State.modCore_poison (s : State) (k : CoreId) (f : Core → Core) : (s.modCore k f).poison = s.poison := rfl
@[simp] theorem State.modCore_ecc (s : State) (k : CoreId) (f : Core → Core) : (s.modCore k f).ecc = s.ecc := rfl
@[simp] theorem State.modCore_dies (s : State) (k : CoreId) (f : Core → Core) : (s.modCore k f).dies = s.dies := rfl
@[simp] theorem State.modCore_clusters (s : State) (k : CoreId) (f : Core → Core) : (s.modCore k f).clusters = s.clusters := rfl
@[simp] theorem State.modCore_nodes (s : State) (k : CoreId) (f : Core → Core) : (s.modCore k f).nodes = s.nodes := rfl
@[simp] theorem State.modCore_groups (s : State) (k : CoreId) (f : Core → Core) : (s.modCore k f).groups = s.groups := rfl
@[simp] theorem State.modCore_queues (s : State) (k : CoreId) (f : Core → Core) : (s.modCore k f).queues = s.queues := rfl
@[simp] theorem State.modCore_arenas (s : State) (k : CoreId) (f : Core → Core) : (s.modCore k f).arenas = s.arenas := rfl
@[simp] theorem State.modCore_host (s : State) (k : CoreId) (f : Core → Core) : (s.modCore k f).host = s.host := rfl
@[simp] theorem State.modCore_bar0 (s : State) (k : CoreId) (f : Core → Core) : (s.modCore k f).bar0 = s.bar0 := rfl
@[simp] theorem State.modCore_irqs (s : State) (k : CoreId) (f : Core → Core) : (s.modCore k f).irqs = s.irqs := rfl
@[simp] theorem State.modCore_hostData (s : State) (k : CoreId) (f : Core → Core) : (s.modCore k f).hostData = s.hostData := rfl
@[simp] theorem State.modCore_nodeId (s : State) (k : CoreId) (f : Core → Core) : (s.modCore k f).nodeId = s.nodeId := rfl
@[simp] theorem State.modCore_peers (s : State) (k : CoreId) (f : Core → Core) : (s.modCore k f).peers = s.peers := rfl
@[simp] theorem State.modCore_hitch (s : State) (k : CoreId) (f : Core → Core) : (s.modCore k f).hitch = s.hitch := rfl
@[simp] theorem State.modCore_cxlFailed (s : State) (k : CoreId) (f : Core → Core) : (s.modCore k f).cxlFailed = s.cxlFailed := rfl
@[simp] theorem State.modCore_cxlLost (s : State) (k : CoreId) (f : Core → Core) : (s.modCore k f).cxlLost = s.cxlLost := rfl
@[simp] theorem State.modCore_oldRoutes (s : State) (k : CoreId) (f : Core → Core) : (s.modCore k f).oldRoutes = s.oldRoutes := rfl
@[simp] theorem State.modCore_poolLost (s : State) (k : CoreId) (f : Core → Core) (pa : Nat) : (s.modCore k f).poolLost pa = s.poolLost pa := rfl
@[simp] theorem State.modCore_pools (s : State) (k : CoreId) (f : Core → Core) : (s.modCore k f).pools = s.pools := rfl
@[simp] theorem State.modCore_mgmtFw (s : State) (k : CoreId) (f : Core → Core) : (s.modCore k f).mgmtFw = s.mgmtFw := rfl
@[simp] theorem State.modCore_report (s : State) (k : CoreId) (f : Core → Core) : (s.modCore k f).report = s.report := rfl
@[simp] theorem State.modCore_life (s : State) (k : CoreId) (f : Core → Core) : (s.modCore k f).life = s.life := rfl
@[simp] theorem State.modCore_lifeNv (s : State) (k : CoreId) (f : Core → Core) : (s.modCore k f).lifeNv = s.lifeNv := rfl
@[simp] theorem State.modCore_draws (s : State) (k : CoreId) (f : Core → Core) : (s.modCore k f).draws = s.draws := rfl
@[simp] theorem State.modCore_waiting (s : State) (k : CoreId) (f : Core → Core) : (s.modCore k f).waiting = s.waiting := rfl
@[simp] theorem State.modCore_calm (s : State) (k : CoreId) (f : Core → Core) : (s.modCore k f).calm = s.calm := rfl
@[simp] theorem State.modCore_capture (s : State) (k : CoreId) (f : Core → Core) : (s.modCore k f).capture = s.capture := rfl
@[simp] theorem State.modCore_captureRing (s : State) (k : CoreId) (f : Core → Core) : (s.modCore k f).captureRing = s.captureRing := rfl
@[simp] theorem State.modCore_captureDue (s : State) (k : CoreId) (f : Core → Core) : (s.modCore k f).captureDue = s.captureDue := rfl

/-! ### modCtx touches only the cores -/

@[simp] theorem State.modCtx_powered (s : State) (k : CoreId) (f : Ctx → Ctx) : (s.modCtx k f).powered = s.powered := rfl
@[simp] theorem State.modCtx_now (s : State) (k : CoreId) (f : Ctx → Ctx) : (s.modCtx k f).now = s.now := rfl
@[simp] theorem State.modCtx_cur (s : State) (k : CoreId) (f : Ctx → Ctx) : (s.modCtx k f).cur = s.cur := rfl
@[simp] theorem State.modCtx_events (s : State) (k : CoreId) (f : Ctx → Ctx) : (s.modCtx k f).events = s.events := rfl
@[simp] theorem State.modCtx_arg (s : State) (k : CoreId) (f : Ctx → Ctx) : (s.modCtx k f).arg = s.arg := rfl
@[simp] theorem State.modCtx_free (s : State) (k : CoreId) (f : Ctx → Ctx) : (s.modCtx k f).free = s.free := rfl
@[simp] theorem State.modCtx_serial (s : State) (k : CoreId) (f : Ctx → Ctx) : (s.modCtx k f).serial = s.serial := rfl
@[simp] theorem State.modCtx_mem (s : State) (k : CoreId) (f : Ctx → Ctx) : (s.modCtx k f).mem = s.mem := rfl
@[simp] theorem State.modCtx_l2 (s : State) (k : CoreId) (f : Ctx → Ctx) : (s.modCtx k f).l2 = s.l2 := rfl
@[simp] theorem State.modCtx_stale (s : State) (k : CoreId) (f : Ctx → Ctx) : (s.modCtx k f).stale = s.stale := rfl
@[simp] theorem State.modCtx_resident (s : State) (k : CoreId) (f : Ctx → Ctx) : (s.modCtx k f).resident = s.resident := rfl
@[simp] theorem State.modCtx_posts (s : State) (k : CoreId) (f : Ctx → Ctx) : (s.modCtx k f).posts = s.posts := rfl
@[simp] theorem State.modCtx_poison (s : State) (k : CoreId) (f : Ctx → Ctx) : (s.modCtx k f).poison = s.poison := rfl
@[simp] theorem State.modCtx_ecc (s : State) (k : CoreId) (f : Ctx → Ctx) : (s.modCtx k f).ecc = s.ecc := rfl
@[simp] theorem State.modCtx_dies (s : State) (k : CoreId) (f : Ctx → Ctx) : (s.modCtx k f).dies = s.dies := rfl
@[simp] theorem State.modCtx_clusters (s : State) (k : CoreId) (f : Ctx → Ctx) : (s.modCtx k f).clusters = s.clusters := rfl
@[simp] theorem State.modCtx_nodes (s : State) (k : CoreId) (f : Ctx → Ctx) : (s.modCtx k f).nodes = s.nodes := rfl
@[simp] theorem State.modCtx_groups (s : State) (k : CoreId) (f : Ctx → Ctx) : (s.modCtx k f).groups = s.groups := rfl
@[simp] theorem State.modCtx_queues (s : State) (k : CoreId) (f : Ctx → Ctx) : (s.modCtx k f).queues = s.queues := rfl
@[simp] theorem State.modCtx_arenas (s : State) (k : CoreId) (f : Ctx → Ctx) : (s.modCtx k f).arenas = s.arenas := rfl
@[simp] theorem State.modCtx_host (s : State) (k : CoreId) (f : Ctx → Ctx) : (s.modCtx k f).host = s.host := rfl
@[simp] theorem State.modCtx_bar0 (s : State) (k : CoreId) (f : Ctx → Ctx) : (s.modCtx k f).bar0 = s.bar0 := rfl
@[simp] theorem State.modCtx_irqs (s : State) (k : CoreId) (f : Ctx → Ctx) : (s.modCtx k f).irqs = s.irqs := rfl
@[simp] theorem State.modCtx_hostData (s : State) (k : CoreId) (f : Ctx → Ctx) : (s.modCtx k f).hostData = s.hostData := rfl
@[simp] theorem State.modCtx_nodeId (s : State) (k : CoreId) (f : Ctx → Ctx) : (s.modCtx k f).nodeId = s.nodeId := rfl
@[simp] theorem State.modCtx_peers (s : State) (k : CoreId) (f : Ctx → Ctx) : (s.modCtx k f).peers = s.peers := rfl
@[simp] theorem State.modCtx_hitch (s : State) (k : CoreId) (f : Ctx → Ctx) : (s.modCtx k f).hitch = s.hitch := rfl
@[simp] theorem State.modCtx_cxlFailed (s : State) (k : CoreId) (f : Ctx → Ctx) : (s.modCtx k f).cxlFailed = s.cxlFailed := rfl
@[simp] theorem State.modCtx_cxlLost (s : State) (k : CoreId) (f : Ctx → Ctx) : (s.modCtx k f).cxlLost = s.cxlLost := rfl
@[simp] theorem State.modCtx_oldRoutes (s : State) (k : CoreId) (f : Ctx → Ctx) : (s.modCtx k f).oldRoutes = s.oldRoutes := rfl
@[simp] theorem State.modCtx_poolLost (s : State) (k : CoreId) (f : Ctx → Ctx) (pa : Nat) : (s.modCtx k f).poolLost pa = s.poolLost pa := rfl
@[simp] theorem State.modCtx_pools (s : State) (k : CoreId) (f : Ctx → Ctx) : (s.modCtx k f).pools = s.pools := rfl
@[simp] theorem State.modCtx_mgmtFw (s : State) (k : CoreId) (f : Ctx → Ctx) : (s.modCtx k f).mgmtFw = s.mgmtFw := rfl
@[simp] theorem State.modCtx_report (s : State) (k : CoreId) (f : Ctx → Ctx) : (s.modCtx k f).report = s.report := rfl
@[simp] theorem State.modCtx_life (s : State) (k : CoreId) (f : Ctx → Ctx) : (s.modCtx k f).life = s.life := rfl
@[simp] theorem State.modCtx_lifeNv (s : State) (k : CoreId) (f : Ctx → Ctx) : (s.modCtx k f).lifeNv = s.lifeNv := rfl
@[simp] theorem State.modCtx_draws (s : State) (k : CoreId) (f : Ctx → Ctx) : (s.modCtx k f).draws = s.draws := rfl
@[simp] theorem State.modCtx_waiting (s : State) (k : CoreId) (f : Ctx → Ctx) : (s.modCtx k f).waiting = s.waiting := rfl
@[simp] theorem State.modCtx_calm (s : State) (k : CoreId) (f : Ctx → Ctx) : (s.modCtx k f).calm = s.calm := rfl
@[simp] theorem State.modCtx_capture (s : State) (k : CoreId) (f : Ctx → Ctx) : (s.modCtx k f).capture = s.capture := rfl
@[simp] theorem State.modCtx_captureRing (s : State) (k : CoreId) (f : Ctx → Ctx) : (s.modCtx k f).captureRing = s.captureRing := rfl
@[simp] theorem State.modCtx_captureDue (s : State) (k : CoreId) (f : Ctx → Ctx) : (s.modCtx k f).captureDue = s.captureDue := rfl

/-! ### modSeq touches only the cores -/

@[simp] theorem State.modSeq_powered (s : State) (k : CoreId) (q : Seq) (f : Seqr → Seqr) : (s.modSeq k q f).powered = s.powered := rfl
@[simp] theorem State.modSeq_now (s : State) (k : CoreId) (q : Seq) (f : Seqr → Seqr) : (s.modSeq k q f).now = s.now := rfl
@[simp] theorem State.modSeq_cur (s : State) (k : CoreId) (q : Seq) (f : Seqr → Seqr) : (s.modSeq k q f).cur = s.cur := rfl
@[simp] theorem State.modSeq_events (s : State) (k : CoreId) (q : Seq) (f : Seqr → Seqr) : (s.modSeq k q f).events = s.events := rfl
@[simp] theorem State.modSeq_arg (s : State) (k : CoreId) (q : Seq) (f : Seqr → Seqr) : (s.modSeq k q f).arg = s.arg := rfl
@[simp] theorem State.modSeq_free (s : State) (k : CoreId) (q : Seq) (f : Seqr → Seqr) : (s.modSeq k q f).free = s.free := rfl
@[simp] theorem State.modSeq_serial (s : State) (k : CoreId) (q : Seq) (f : Seqr → Seqr) : (s.modSeq k q f).serial = s.serial := rfl
@[simp] theorem State.modSeq_mem (s : State) (k : CoreId) (q : Seq) (f : Seqr → Seqr) : (s.modSeq k q f).mem = s.mem := rfl
@[simp] theorem State.modSeq_l2 (s : State) (k : CoreId) (q : Seq) (f : Seqr → Seqr) : (s.modSeq k q f).l2 = s.l2 := rfl
@[simp] theorem State.modSeq_stale (s : State) (k : CoreId) (q : Seq) (f : Seqr → Seqr) : (s.modSeq k q f).stale = s.stale := rfl
@[simp] theorem State.modSeq_resident (s : State) (k : CoreId) (q : Seq) (f : Seqr → Seqr) : (s.modSeq k q f).resident = s.resident := rfl
@[simp] theorem State.modSeq_posts (s : State) (k : CoreId) (q : Seq) (f : Seqr → Seqr) : (s.modSeq k q f).posts = s.posts := rfl
@[simp] theorem State.modSeq_poison (s : State) (k : CoreId) (q : Seq) (f : Seqr → Seqr) : (s.modSeq k q f).poison = s.poison := rfl
@[simp] theorem State.modSeq_ecc (s : State) (k : CoreId) (q : Seq) (f : Seqr → Seqr) : (s.modSeq k q f).ecc = s.ecc := rfl
@[simp] theorem State.modSeq_dies (s : State) (k : CoreId) (q : Seq) (f : Seqr → Seqr) : (s.modSeq k q f).dies = s.dies := rfl
@[simp] theorem State.modSeq_clusters (s : State) (k : CoreId) (q : Seq) (f : Seqr → Seqr) : (s.modSeq k q f).clusters = s.clusters := rfl
@[simp] theorem State.modSeq_nodes (s : State) (k : CoreId) (q : Seq) (f : Seqr → Seqr) : (s.modSeq k q f).nodes = s.nodes := rfl
@[simp] theorem State.modSeq_groups (s : State) (k : CoreId) (q : Seq) (f : Seqr → Seqr) : (s.modSeq k q f).groups = s.groups := rfl
@[simp] theorem State.modSeq_queues (s : State) (k : CoreId) (q : Seq) (f : Seqr → Seqr) : (s.modSeq k q f).queues = s.queues := rfl
@[simp] theorem State.modSeq_arenas (s : State) (k : CoreId) (q : Seq) (f : Seqr → Seqr) : (s.modSeq k q f).arenas = s.arenas := rfl
@[simp] theorem State.modSeq_host (s : State) (k : CoreId) (q : Seq) (f : Seqr → Seqr) : (s.modSeq k q f).host = s.host := rfl
@[simp] theorem State.modSeq_bar0 (s : State) (k : CoreId) (q : Seq) (f : Seqr → Seqr) : (s.modSeq k q f).bar0 = s.bar0 := rfl
@[simp] theorem State.modSeq_irqs (s : State) (k : CoreId) (q : Seq) (f : Seqr → Seqr) : (s.modSeq k q f).irqs = s.irqs := rfl
@[simp] theorem State.modSeq_hostData (s : State) (k : CoreId) (q : Seq) (f : Seqr → Seqr) : (s.modSeq k q f).hostData = s.hostData := rfl
@[simp] theorem State.modSeq_nodeId (s : State) (k : CoreId) (q : Seq) (f : Seqr → Seqr) : (s.modSeq k q f).nodeId = s.nodeId := rfl
@[simp] theorem State.modSeq_peers (s : State) (k : CoreId) (q : Seq) (f : Seqr → Seqr) : (s.modSeq k q f).peers = s.peers := rfl
@[simp] theorem State.modSeq_hitch (s : State) (k : CoreId) (q : Seq) (f : Seqr → Seqr) : (s.modSeq k q f).hitch = s.hitch := rfl
@[simp] theorem State.modSeq_cxlFailed (s : State) (k : CoreId) (q : Seq) (f : Seqr → Seqr) : (s.modSeq k q f).cxlFailed = s.cxlFailed := rfl
@[simp] theorem State.modSeq_cxlLost (s : State) (k : CoreId) (q : Seq) (f : Seqr → Seqr) : (s.modSeq k q f).cxlLost = s.cxlLost := rfl
@[simp] theorem State.modSeq_oldRoutes (s : State) (k : CoreId) (q : Seq) (f : Seqr → Seqr) : (s.modSeq k q f).oldRoutes = s.oldRoutes := rfl
@[simp] theorem State.modSeq_poolLost (s : State) (k : CoreId) (q : Seq) (f : Seqr → Seqr) (pa : Nat) : (s.modSeq k q f).poolLost pa = s.poolLost pa := rfl
@[simp] theorem State.modSeq_pools (s : State) (k : CoreId) (q : Seq) (f : Seqr → Seqr) : (s.modSeq k q f).pools = s.pools := rfl
@[simp] theorem State.modSeq_mgmtFw (s : State) (k : CoreId) (q : Seq) (f : Seqr → Seqr) : (s.modSeq k q f).mgmtFw = s.mgmtFw := rfl
@[simp] theorem State.modSeq_report (s : State) (k : CoreId) (q : Seq) (f : Seqr → Seqr) : (s.modSeq k q f).report = s.report := rfl
@[simp] theorem State.modSeq_life (s : State) (k : CoreId) (q : Seq) (f : Seqr → Seqr) : (s.modSeq k q f).life = s.life := rfl
@[simp] theorem State.modSeq_lifeNv (s : State) (k : CoreId) (q : Seq) (f : Seqr → Seqr) : (s.modSeq k q f).lifeNv = s.lifeNv := rfl
@[simp] theorem State.modSeq_draws (s : State) (k : CoreId) (q : Seq) (f : Seqr → Seqr) : (s.modSeq k q f).draws = s.draws := rfl
@[simp] theorem State.modSeq_waiting (s : State) (k : CoreId) (q : Seq) (f : Seqr → Seqr) : (s.modSeq k q f).waiting = s.waiting := rfl
@[simp] theorem State.modSeq_calm (s : State) (k : CoreId) (q : Seq) (f : Seqr → Seqr) : (s.modSeq k q f).calm = s.calm := rfl
@[simp] theorem State.modSeq_capture (s : State) (k : CoreId) (q : Seq) (f : Seqr → Seqr) : (s.modSeq k q f).capture = s.capture := rfl
@[simp] theorem State.modSeq_captureRing (s : State) (k : CoreId) (q : Seq) (f : Seqr → Seqr) : (s.modSeq k q f).captureRing = s.captureRing := rfl
@[simp] theorem State.modSeq_captureDue (s : State) (k : CoreId) (q : Seq) (f : Seqr → Seqr) : (s.modSeq k q f).captureDue = s.captureDue := rfl

/-! ### modRegs touches only the cores -/

@[simp] theorem State.modRegs_powered (s : State) (k : CoreId) (f : Regs → Regs) : (s.modRegs k f).powered = s.powered := rfl
@[simp] theorem State.modRegs_now (s : State) (k : CoreId) (f : Regs → Regs) : (s.modRegs k f).now = s.now := rfl
@[simp] theorem State.modRegs_cur (s : State) (k : CoreId) (f : Regs → Regs) : (s.modRegs k f).cur = s.cur := rfl
@[simp] theorem State.modRegs_events (s : State) (k : CoreId) (f : Regs → Regs) : (s.modRegs k f).events = s.events := rfl
@[simp] theorem State.modRegs_arg (s : State) (k : CoreId) (f : Regs → Regs) : (s.modRegs k f).arg = s.arg := rfl
@[simp] theorem State.modRegs_free (s : State) (k : CoreId) (f : Regs → Regs) : (s.modRegs k f).free = s.free := rfl
@[simp] theorem State.modRegs_serial (s : State) (k : CoreId) (f : Regs → Regs) : (s.modRegs k f).serial = s.serial := rfl
@[simp] theorem State.modRegs_mem (s : State) (k : CoreId) (f : Regs → Regs) : (s.modRegs k f).mem = s.mem := rfl
@[simp] theorem State.modRegs_l2 (s : State) (k : CoreId) (f : Regs → Regs) : (s.modRegs k f).l2 = s.l2 := rfl
@[simp] theorem State.modRegs_stale (s : State) (k : CoreId) (f : Regs → Regs) : (s.modRegs k f).stale = s.stale := rfl
@[simp] theorem State.modRegs_resident (s : State) (k : CoreId) (f : Regs → Regs) : (s.modRegs k f).resident = s.resident := rfl
@[simp] theorem State.modRegs_posts (s : State) (k : CoreId) (f : Regs → Regs) : (s.modRegs k f).posts = s.posts := rfl
@[simp] theorem State.modRegs_poison (s : State) (k : CoreId) (f : Regs → Regs) : (s.modRegs k f).poison = s.poison := rfl
@[simp] theorem State.modRegs_ecc (s : State) (k : CoreId) (f : Regs → Regs) : (s.modRegs k f).ecc = s.ecc := rfl
@[simp] theorem State.modRegs_dies (s : State) (k : CoreId) (f : Regs → Regs) : (s.modRegs k f).dies = s.dies := rfl
@[simp] theorem State.modRegs_clusters (s : State) (k : CoreId) (f : Regs → Regs) : (s.modRegs k f).clusters = s.clusters := rfl
@[simp] theorem State.modRegs_nodes (s : State) (k : CoreId) (f : Regs → Regs) : (s.modRegs k f).nodes = s.nodes := rfl
@[simp] theorem State.modRegs_groups (s : State) (k : CoreId) (f : Regs → Regs) : (s.modRegs k f).groups = s.groups := rfl
@[simp] theorem State.modRegs_queues (s : State) (k : CoreId) (f : Regs → Regs) : (s.modRegs k f).queues = s.queues := rfl
@[simp] theorem State.modRegs_arenas (s : State) (k : CoreId) (f : Regs → Regs) : (s.modRegs k f).arenas = s.arenas := rfl
@[simp] theorem State.modRegs_host (s : State) (k : CoreId) (f : Regs → Regs) : (s.modRegs k f).host = s.host := rfl
@[simp] theorem State.modRegs_bar0 (s : State) (k : CoreId) (f : Regs → Regs) : (s.modRegs k f).bar0 = s.bar0 := rfl
@[simp] theorem State.modRegs_irqs (s : State) (k : CoreId) (f : Regs → Regs) : (s.modRegs k f).irqs = s.irqs := rfl
@[simp] theorem State.modRegs_hostData (s : State) (k : CoreId) (f : Regs → Regs) : (s.modRegs k f).hostData = s.hostData := rfl
@[simp] theorem State.modRegs_nodeId (s : State) (k : CoreId) (f : Regs → Regs) : (s.modRegs k f).nodeId = s.nodeId := rfl
@[simp] theorem State.modRegs_peers (s : State) (k : CoreId) (f : Regs → Regs) : (s.modRegs k f).peers = s.peers := rfl
@[simp] theorem State.modRegs_hitch (s : State) (k : CoreId) (f : Regs → Regs) : (s.modRegs k f).hitch = s.hitch := rfl
@[simp] theorem State.modRegs_cxlFailed (s : State) (k : CoreId) (f : Regs → Regs) : (s.modRegs k f).cxlFailed = s.cxlFailed := rfl
@[simp] theorem State.modRegs_cxlLost (s : State) (k : CoreId) (f : Regs → Regs) : (s.modRegs k f).cxlLost = s.cxlLost := rfl
@[simp] theorem State.modRegs_oldRoutes (s : State) (k : CoreId) (f : Regs → Regs) : (s.modRegs k f).oldRoutes = s.oldRoutes := rfl
@[simp] theorem State.modRegs_poolLost (s : State) (k : CoreId) (f : Regs → Regs) (pa : Nat) : (s.modRegs k f).poolLost pa = s.poolLost pa := rfl
@[simp] theorem State.modRegs_pools (s : State) (k : CoreId) (f : Regs → Regs) : (s.modRegs k f).pools = s.pools := rfl
@[simp] theorem State.modRegs_mgmtFw (s : State) (k : CoreId) (f : Regs → Regs) : (s.modRegs k f).mgmtFw = s.mgmtFw := rfl
@[simp] theorem State.modRegs_report (s : State) (k : CoreId) (f : Regs → Regs) : (s.modRegs k f).report = s.report := rfl
@[simp] theorem State.modRegs_life (s : State) (k : CoreId) (f : Regs → Regs) : (s.modRegs k f).life = s.life := rfl
@[simp] theorem State.modRegs_lifeNv (s : State) (k : CoreId) (f : Regs → Regs) : (s.modRegs k f).lifeNv = s.lifeNv := rfl
@[simp] theorem State.modRegs_draws (s : State) (k : CoreId) (f : Regs → Regs) : (s.modRegs k f).draws = s.draws := rfl
@[simp] theorem State.modRegs_waiting (s : State) (k : CoreId) (f : Regs → Regs) : (s.modRegs k f).waiting = s.waiting := rfl
@[simp] theorem State.modRegs_calm (s : State) (k : CoreId) (f : Regs → Regs) : (s.modRegs k f).calm = s.calm := rfl
@[simp] theorem State.modRegs_capture (s : State) (k : CoreId) (f : Regs → Regs) : (s.modRegs k f).capture = s.capture := rfl
@[simp] theorem State.modRegs_captureRing (s : State) (k : CoreId) (f : Regs → Regs) : (s.modRegs k f).captureRing = s.captureRing := rfl
@[simp] theorem State.modRegs_captureDue (s : State) (k : CoreId) (f : Regs → Regs) : (s.modRegs k f).captureDue = s.captureDue := rfl

/-! ### modMe touches only the cores -/

@[simp] theorem State.modMe_powered (s : State) (k : CoreId) (f : MEngine → MEngine) : (s.modMe k f).powered = s.powered := rfl
@[simp] theorem State.modMe_now (s : State) (k : CoreId) (f : MEngine → MEngine) : (s.modMe k f).now = s.now := rfl
@[simp] theorem State.modMe_cur (s : State) (k : CoreId) (f : MEngine → MEngine) : (s.modMe k f).cur = s.cur := rfl
@[simp] theorem State.modMe_events (s : State) (k : CoreId) (f : MEngine → MEngine) : (s.modMe k f).events = s.events := rfl
@[simp] theorem State.modMe_arg (s : State) (k : CoreId) (f : MEngine → MEngine) : (s.modMe k f).arg = s.arg := rfl
@[simp] theorem State.modMe_free (s : State) (k : CoreId) (f : MEngine → MEngine) : (s.modMe k f).free = s.free := rfl
@[simp] theorem State.modMe_serial (s : State) (k : CoreId) (f : MEngine → MEngine) : (s.modMe k f).serial = s.serial := rfl
@[simp] theorem State.modMe_mem (s : State) (k : CoreId) (f : MEngine → MEngine) : (s.modMe k f).mem = s.mem := rfl
@[simp] theorem State.modMe_l2 (s : State) (k : CoreId) (f : MEngine → MEngine) : (s.modMe k f).l2 = s.l2 := rfl
@[simp] theorem State.modMe_stale (s : State) (k : CoreId) (f : MEngine → MEngine) : (s.modMe k f).stale = s.stale := rfl
@[simp] theorem State.modMe_resident (s : State) (k : CoreId) (f : MEngine → MEngine) : (s.modMe k f).resident = s.resident := rfl
@[simp] theorem State.modMe_posts (s : State) (k : CoreId) (f : MEngine → MEngine) : (s.modMe k f).posts = s.posts := rfl
@[simp] theorem State.modMe_poison (s : State) (k : CoreId) (f : MEngine → MEngine) : (s.modMe k f).poison = s.poison := rfl
@[simp] theorem State.modMe_ecc (s : State) (k : CoreId) (f : MEngine → MEngine) : (s.modMe k f).ecc = s.ecc := rfl
@[simp] theorem State.modMe_dies (s : State) (k : CoreId) (f : MEngine → MEngine) : (s.modMe k f).dies = s.dies := rfl
@[simp] theorem State.modMe_clusters (s : State) (k : CoreId) (f : MEngine → MEngine) : (s.modMe k f).clusters = s.clusters := rfl
@[simp] theorem State.modMe_nodes (s : State) (k : CoreId) (f : MEngine → MEngine) : (s.modMe k f).nodes = s.nodes := rfl
@[simp] theorem State.modMe_groups (s : State) (k : CoreId) (f : MEngine → MEngine) : (s.modMe k f).groups = s.groups := rfl
@[simp] theorem State.modMe_queues (s : State) (k : CoreId) (f : MEngine → MEngine) : (s.modMe k f).queues = s.queues := rfl
@[simp] theorem State.modMe_arenas (s : State) (k : CoreId) (f : MEngine → MEngine) : (s.modMe k f).arenas = s.arenas := rfl
@[simp] theorem State.modMe_host (s : State) (k : CoreId) (f : MEngine → MEngine) : (s.modMe k f).host = s.host := rfl
@[simp] theorem State.modMe_bar0 (s : State) (k : CoreId) (f : MEngine → MEngine) : (s.modMe k f).bar0 = s.bar0 := rfl
@[simp] theorem State.modMe_irqs (s : State) (k : CoreId) (f : MEngine → MEngine) : (s.modMe k f).irqs = s.irqs := rfl
@[simp] theorem State.modMe_hostData (s : State) (k : CoreId) (f : MEngine → MEngine) : (s.modMe k f).hostData = s.hostData := rfl
@[simp] theorem State.modMe_nodeId (s : State) (k : CoreId) (f : MEngine → MEngine) : (s.modMe k f).nodeId = s.nodeId := rfl
@[simp] theorem State.modMe_peers (s : State) (k : CoreId) (f : MEngine → MEngine) : (s.modMe k f).peers = s.peers := rfl
@[simp] theorem State.modMe_hitch (s : State) (k : CoreId) (f : MEngine → MEngine) : (s.modMe k f).hitch = s.hitch := rfl
@[simp] theorem State.modMe_cxlFailed (s : State) (k : CoreId) (f : MEngine → MEngine) : (s.modMe k f).cxlFailed = s.cxlFailed := rfl
@[simp] theorem State.modMe_cxlLost (s : State) (k : CoreId) (f : MEngine → MEngine) : (s.modMe k f).cxlLost = s.cxlLost := rfl
@[simp] theorem State.modMe_oldRoutes (s : State) (k : CoreId) (f : MEngine → MEngine) : (s.modMe k f).oldRoutes = s.oldRoutes := rfl
@[simp] theorem State.modMe_poolLost (s : State) (k : CoreId) (f : MEngine → MEngine) (pa : Nat) : (s.modMe k f).poolLost pa = s.poolLost pa := rfl
@[simp] theorem State.modMe_pools (s : State) (k : CoreId) (f : MEngine → MEngine) : (s.modMe k f).pools = s.pools := rfl
@[simp] theorem State.modMe_mgmtFw (s : State) (k : CoreId) (f : MEngine → MEngine) : (s.modMe k f).mgmtFw = s.mgmtFw := rfl
@[simp] theorem State.modMe_report (s : State) (k : CoreId) (f : MEngine → MEngine) : (s.modMe k f).report = s.report := rfl
@[simp] theorem State.modMe_life (s : State) (k : CoreId) (f : MEngine → MEngine) : (s.modMe k f).life = s.life := rfl
@[simp] theorem State.modMe_lifeNv (s : State) (k : CoreId) (f : MEngine → MEngine) : (s.modMe k f).lifeNv = s.lifeNv := rfl
@[simp] theorem State.modMe_draws (s : State) (k : CoreId) (f : MEngine → MEngine) : (s.modMe k f).draws = s.draws := rfl
@[simp] theorem State.modMe_waiting (s : State) (k : CoreId) (f : MEngine → MEngine) : (s.modMe k f).waiting = s.waiting := rfl
@[simp] theorem State.modMe_calm (s : State) (k : CoreId) (f : MEngine → MEngine) : (s.modMe k f).calm = s.calm := rfl
@[simp] theorem State.modMe_capture (s : State) (k : CoreId) (f : MEngine → MEngine) : (s.modMe k f).capture = s.capture := rfl
@[simp] theorem State.modMe_captureRing (s : State) (k : CoreId) (f : MEngine → MEngine) : (s.modMe k f).captureRing = s.captureRing := rfl
@[simp] theorem State.modMe_captureDue (s : State) (k : CoreId) (f : MEngine → MEngine) : (s.modMe k f).captureDue = s.captureDue := rfl

/-! ### modTe touches only the cores -/

@[simp] theorem State.modTe_powered (s : State) (k : CoreId) (f : TEngine → TEngine) : (s.modTe k f).powered = s.powered := rfl
@[simp] theorem State.modTe_now (s : State) (k : CoreId) (f : TEngine → TEngine) : (s.modTe k f).now = s.now := rfl
@[simp] theorem State.modTe_cur (s : State) (k : CoreId) (f : TEngine → TEngine) : (s.modTe k f).cur = s.cur := rfl
@[simp] theorem State.modTe_events (s : State) (k : CoreId) (f : TEngine → TEngine) : (s.modTe k f).events = s.events := rfl
@[simp] theorem State.modTe_arg (s : State) (k : CoreId) (f : TEngine → TEngine) : (s.modTe k f).arg = s.arg := rfl
@[simp] theorem State.modTe_free (s : State) (k : CoreId) (f : TEngine → TEngine) : (s.modTe k f).free = s.free := rfl
@[simp] theorem State.modTe_serial (s : State) (k : CoreId) (f : TEngine → TEngine) : (s.modTe k f).serial = s.serial := rfl
@[simp] theorem State.modTe_mem (s : State) (k : CoreId) (f : TEngine → TEngine) : (s.modTe k f).mem = s.mem := rfl
@[simp] theorem State.modTe_l2 (s : State) (k : CoreId) (f : TEngine → TEngine) : (s.modTe k f).l2 = s.l2 := rfl
@[simp] theorem State.modTe_stale (s : State) (k : CoreId) (f : TEngine → TEngine) : (s.modTe k f).stale = s.stale := rfl
@[simp] theorem State.modTe_resident (s : State) (k : CoreId) (f : TEngine → TEngine) : (s.modTe k f).resident = s.resident := rfl
@[simp] theorem State.modTe_posts (s : State) (k : CoreId) (f : TEngine → TEngine) : (s.modTe k f).posts = s.posts := rfl
@[simp] theorem State.modTe_poison (s : State) (k : CoreId) (f : TEngine → TEngine) : (s.modTe k f).poison = s.poison := rfl
@[simp] theorem State.modTe_ecc (s : State) (k : CoreId) (f : TEngine → TEngine) : (s.modTe k f).ecc = s.ecc := rfl
@[simp] theorem State.modTe_dies (s : State) (k : CoreId) (f : TEngine → TEngine) : (s.modTe k f).dies = s.dies := rfl
@[simp] theorem State.modTe_clusters (s : State) (k : CoreId) (f : TEngine → TEngine) : (s.modTe k f).clusters = s.clusters := rfl
@[simp] theorem State.modTe_nodes (s : State) (k : CoreId) (f : TEngine → TEngine) : (s.modTe k f).nodes = s.nodes := rfl
@[simp] theorem State.modTe_groups (s : State) (k : CoreId) (f : TEngine → TEngine) : (s.modTe k f).groups = s.groups := rfl
@[simp] theorem State.modTe_queues (s : State) (k : CoreId) (f : TEngine → TEngine) : (s.modTe k f).queues = s.queues := rfl
@[simp] theorem State.modTe_arenas (s : State) (k : CoreId) (f : TEngine → TEngine) : (s.modTe k f).arenas = s.arenas := rfl
@[simp] theorem State.modTe_host (s : State) (k : CoreId) (f : TEngine → TEngine) : (s.modTe k f).host = s.host := rfl
@[simp] theorem State.modTe_bar0 (s : State) (k : CoreId) (f : TEngine → TEngine) : (s.modTe k f).bar0 = s.bar0 := rfl
@[simp] theorem State.modTe_irqs (s : State) (k : CoreId) (f : TEngine → TEngine) : (s.modTe k f).irqs = s.irqs := rfl
@[simp] theorem State.modTe_hostData (s : State) (k : CoreId) (f : TEngine → TEngine) : (s.modTe k f).hostData = s.hostData := rfl
@[simp] theorem State.modTe_nodeId (s : State) (k : CoreId) (f : TEngine → TEngine) : (s.modTe k f).nodeId = s.nodeId := rfl
@[simp] theorem State.modTe_peers (s : State) (k : CoreId) (f : TEngine → TEngine) : (s.modTe k f).peers = s.peers := rfl
@[simp] theorem State.modTe_hitch (s : State) (k : CoreId) (f : TEngine → TEngine) : (s.modTe k f).hitch = s.hitch := rfl
@[simp] theorem State.modTe_cxlFailed (s : State) (k : CoreId) (f : TEngine → TEngine) : (s.modTe k f).cxlFailed = s.cxlFailed := rfl
@[simp] theorem State.modTe_cxlLost (s : State) (k : CoreId) (f : TEngine → TEngine) : (s.modTe k f).cxlLost = s.cxlLost := rfl
@[simp] theorem State.modTe_oldRoutes (s : State) (k : CoreId) (f : TEngine → TEngine) : (s.modTe k f).oldRoutes = s.oldRoutes := rfl
@[simp] theorem State.modTe_poolLost (s : State) (k : CoreId) (f : TEngine → TEngine) (pa : Nat) : (s.modTe k f).poolLost pa = s.poolLost pa := rfl
@[simp] theorem State.modTe_pools (s : State) (k : CoreId) (f : TEngine → TEngine) : (s.modTe k f).pools = s.pools := rfl
@[simp] theorem State.modTe_mgmtFw (s : State) (k : CoreId) (f : TEngine → TEngine) : (s.modTe k f).mgmtFw = s.mgmtFw := rfl
@[simp] theorem State.modTe_report (s : State) (k : CoreId) (f : TEngine → TEngine) : (s.modTe k f).report = s.report := rfl
@[simp] theorem State.modTe_life (s : State) (k : CoreId) (f : TEngine → TEngine) : (s.modTe k f).life = s.life := rfl
@[simp] theorem State.modTe_lifeNv (s : State) (k : CoreId) (f : TEngine → TEngine) : (s.modTe k f).lifeNv = s.lifeNv := rfl
@[simp] theorem State.modTe_draws (s : State) (k : CoreId) (f : TEngine → TEngine) : (s.modTe k f).draws = s.draws := rfl
@[simp] theorem State.modTe_waiting (s : State) (k : CoreId) (f : TEngine → TEngine) : (s.modTe k f).waiting = s.waiting := rfl
@[simp] theorem State.modTe_calm (s : State) (k : CoreId) (f : TEngine → TEngine) : (s.modTe k f).calm = s.calm := rfl
@[simp] theorem State.modTe_capture (s : State) (k : CoreId) (f : TEngine → TEngine) : (s.modTe k f).capture = s.capture := rfl
@[simp] theorem State.modTe_captureRing (s : State) (k : CoreId) (f : TEngine → TEngine) : (s.modTe k f).captureRing = s.captureRing := rfl
@[simp] theorem State.modTe_captureDue (s : State) (k : CoreId) (f : TEngine → TEngine) : (s.modTe k f).captureDue = s.captureDue := rfl

/-! ### enqueue, modDie, modCluster, modNode and dropNode -/

@[simp] theorem State.enqueue_powered (s : State) (i : Instr) (a : EvArg) : (s.enqueue i a).powered = s.powered := rfl
@[simp] theorem State.enqueue_now (s : State) (i : Instr) (a : EvArg) : (s.enqueue i a).now = s.now := rfl
@[simp] theorem State.enqueue_cur (s : State) (i : Instr) (a : EvArg) : (s.enqueue i a).cur = s.cur := rfl
@[simp] theorem State.enqueue_arg (s : State) (i : Instr) (a : EvArg) : (s.enqueue i a).arg = s.arg := rfl
@[simp] theorem State.enqueue_free (s : State) (i : Instr) (a : EvArg) : (s.enqueue i a).free = s.free := rfl
@[simp] theorem State.enqueue_serial (s : State) (i : Instr) (a : EvArg) : (s.enqueue i a).serial = s.serial := rfl
@[simp] theorem State.enqueue_cores (s : State) (i : Instr) (a : EvArg) : (s.enqueue i a).cores = s.cores := rfl
@[simp] theorem State.enqueue_mem (s : State) (i : Instr) (a : EvArg) : (s.enqueue i a).mem = s.mem := rfl
@[simp] theorem State.enqueue_l2 (s : State) (i : Instr) (a : EvArg) : (s.enqueue i a).l2 = s.l2 := rfl
@[simp] theorem State.enqueue_stale (s : State) (i : Instr) (a : EvArg) : (s.enqueue i a).stale = s.stale := rfl
@[simp] theorem State.enqueue_resident (s : State) (i : Instr) (a : EvArg) : (s.enqueue i a).resident = s.resident := rfl
@[simp] theorem State.enqueue_posts (s : State) (i : Instr) (a : EvArg) : (s.enqueue i a).posts = s.posts := rfl
@[simp] theorem State.enqueue_poison (s : State) (i : Instr) (a : EvArg) : (s.enqueue i a).poison = s.poison := rfl
@[simp] theorem State.enqueue_ecc (s : State) (i : Instr) (a : EvArg) : (s.enqueue i a).ecc = s.ecc := rfl
@[simp] theorem State.enqueue_dies (s : State) (i : Instr) (a : EvArg) : (s.enqueue i a).dies = s.dies := rfl
@[simp] theorem State.enqueue_clusters (s : State) (i : Instr) (a : EvArg) : (s.enqueue i a).clusters = s.clusters := rfl
@[simp] theorem State.enqueue_nodes (s : State) (i : Instr) (a : EvArg) : (s.enqueue i a).nodes = s.nodes := rfl
@[simp] theorem State.enqueue_groups (s : State) (i : Instr) (a : EvArg) : (s.enqueue i a).groups = s.groups := rfl
@[simp] theorem State.enqueue_queues (s : State) (i : Instr) (a : EvArg) : (s.enqueue i a).queues = s.queues := rfl
@[simp] theorem State.enqueue_arenas (s : State) (i : Instr) (a : EvArg) : (s.enqueue i a).arenas = s.arenas := rfl
@[simp] theorem State.enqueue_host (s : State) (i : Instr) (a : EvArg) : (s.enqueue i a).host = s.host := rfl
@[simp] theorem State.enqueue_bar0 (s : State) (i : Instr) (a : EvArg) : (s.enqueue i a).bar0 = s.bar0 := rfl
@[simp] theorem State.enqueue_irqs (s : State) (i : Instr) (a : EvArg) : (s.enqueue i a).irqs = s.irqs := rfl
@[simp] theorem State.enqueue_hostData (s : State) (i : Instr) (a : EvArg) : (s.enqueue i a).hostData = s.hostData := rfl
@[simp] theorem State.enqueue_nodeId (s : State) (i : Instr) (a : EvArg) : (s.enqueue i a).nodeId = s.nodeId := rfl
@[simp] theorem State.enqueue_peers (s : State) (i : Instr) (a : EvArg) : (s.enqueue i a).peers = s.peers := rfl
@[simp] theorem State.enqueue_hitch (s : State) (i : Instr) (a : EvArg) : (s.enqueue i a).hitch = s.hitch := rfl
@[simp] theorem State.enqueue_cxlFailed (s : State) (i : Instr) (a : EvArg) : (s.enqueue i a).cxlFailed = s.cxlFailed := rfl
@[simp] theorem State.enqueue_cxlLost (s : State) (i : Instr) (a : EvArg) : (s.enqueue i a).cxlLost = s.cxlLost := rfl
@[simp] theorem State.enqueue_oldRoutes (s : State) (i : Instr) (a : EvArg) : (s.enqueue i a).oldRoutes = s.oldRoutes := rfl
@[simp] theorem State.enqueue_poolLost (s : State) (i : Instr) (a : EvArg) (pa : Nat) : (s.enqueue i a).poolLost pa = s.poolLost pa := rfl
@[simp] theorem State.enqueue_pools (s : State) (i : Instr) (a : EvArg) : (s.enqueue i a).pools = s.pools := rfl
@[simp] theorem State.enqueue_mgmtFw (s : State) (i : Instr) (a : EvArg) : (s.enqueue i a).mgmtFw = s.mgmtFw := rfl
@[simp] theorem State.enqueue_report (s : State) (i : Instr) (a : EvArg) : (s.enqueue i a).report = s.report := rfl
@[simp] theorem State.enqueue_life (s : State) (i : Instr) (a : EvArg) : (s.enqueue i a).life = s.life := rfl
@[simp] theorem State.enqueue_lifeNv (s : State) (i : Instr) (a : EvArg) : (s.enqueue i a).lifeNv = s.lifeNv := rfl
@[simp] theorem State.enqueue_draws (s : State) (i : Instr) (a : EvArg) : (s.enqueue i a).draws = s.draws := rfl
@[simp] theorem State.enqueue_waiting (s : State) (i : Instr) (a : EvArg) : (s.enqueue i a).waiting = s.waiting := rfl
@[simp] theorem State.enqueue_calm (s : State) (i : Instr) (a : EvArg) : (s.enqueue i a).calm = s.calm := rfl
@[simp] theorem State.enqueue_capture (s : State) (i : Instr) (a : EvArg) : (s.enqueue i a).capture = s.capture := rfl
@[simp] theorem State.enqueue_captureRing (s : State) (i : Instr) (a : EvArg) : (s.enqueue i a).captureRing = s.captureRing := rfl
@[simp] theorem State.enqueue_captureDue (s : State) (i : Instr) (a : EvArg) : (s.enqueue i a).captureDue = s.captureDue := rfl
@[simp] theorem State.enqueue_events (s : State) (i : Instr) (a : EvArg) : (s.enqueue i a).events = s.events ++ [(i, a)] := rfl
@[simp] theorem State.modDie_powered (s : State) (d : Die) (f : DieSt → DieSt) : (s.modDie d f).powered = s.powered := rfl
@[simp] theorem State.modDie_now (s : State) (d : Die) (f : DieSt → DieSt) : (s.modDie d f).now = s.now := rfl
@[simp] theorem State.modDie_cur (s : State) (d : Die) (f : DieSt → DieSt) : (s.modDie d f).cur = s.cur := rfl
@[simp] theorem State.modDie_events (s : State) (d : Die) (f : DieSt → DieSt) : (s.modDie d f).events = s.events := rfl
@[simp] theorem State.modDie_arg (s : State) (d : Die) (f : DieSt → DieSt) : (s.modDie d f).arg = s.arg := rfl
@[simp] theorem State.modDie_free (s : State) (d : Die) (f : DieSt → DieSt) : (s.modDie d f).free = s.free := rfl
@[simp] theorem State.modDie_serial (s : State) (d : Die) (f : DieSt → DieSt) : (s.modDie d f).serial = s.serial := rfl
@[simp] theorem State.modDie_cores (s : State) (d : Die) (f : DieSt → DieSt) : (s.modDie d f).cores = s.cores := rfl
@[simp] theorem State.modDie_mem (s : State) (d : Die) (f : DieSt → DieSt) : (s.modDie d f).mem = s.mem := rfl
@[simp] theorem State.modDie_l2 (s : State) (d : Die) (f : DieSt → DieSt) : (s.modDie d f).l2 = s.l2 := rfl
@[simp] theorem State.modDie_stale (s : State) (d : Die) (f : DieSt → DieSt) : (s.modDie d f).stale = s.stale := rfl
@[simp] theorem State.modDie_resident (s : State) (d : Die) (f : DieSt → DieSt) : (s.modDie d f).resident = s.resident := rfl
@[simp] theorem State.modDie_posts (s : State) (d : Die) (f : DieSt → DieSt) : (s.modDie d f).posts = s.posts := rfl
@[simp] theorem State.modDie_poison (s : State) (d : Die) (f : DieSt → DieSt) : (s.modDie d f).poison = s.poison := rfl
@[simp] theorem State.modDie_ecc (s : State) (d : Die) (f : DieSt → DieSt) : (s.modDie d f).ecc = s.ecc := rfl
@[simp] theorem State.modDie_clusters (s : State) (d : Die) (f : DieSt → DieSt) : (s.modDie d f).clusters = s.clusters := rfl
@[simp] theorem State.modDie_nodes (s : State) (d : Die) (f : DieSt → DieSt) : (s.modDie d f).nodes = s.nodes := rfl
@[simp] theorem State.modDie_groups (s : State) (d : Die) (f : DieSt → DieSt) : (s.modDie d f).groups = s.groups := rfl
@[simp] theorem State.modDie_queues (s : State) (d : Die) (f : DieSt → DieSt) : (s.modDie d f).queues = s.queues := rfl
@[simp] theorem State.modDie_arenas (s : State) (d : Die) (f : DieSt → DieSt) : (s.modDie d f).arenas = s.arenas := rfl
@[simp] theorem State.modDie_host (s : State) (d : Die) (f : DieSt → DieSt) : (s.modDie d f).host = s.host := rfl
@[simp] theorem State.modDie_bar0 (s : State) (d : Die) (f : DieSt → DieSt) : (s.modDie d f).bar0 = s.bar0 := rfl
@[simp] theorem State.modDie_irqs (s : State) (d : Die) (f : DieSt → DieSt) : (s.modDie d f).irqs = s.irqs := rfl
@[simp] theorem State.modDie_hostData (s : State) (d : Die) (f : DieSt → DieSt) : (s.modDie d f).hostData = s.hostData := rfl
@[simp] theorem State.modDie_nodeId (s : State) (d : Die) (f : DieSt → DieSt) : (s.modDie d f).nodeId = s.nodeId := rfl
@[simp] theorem State.modDie_peers (s : State) (d : Die) (f : DieSt → DieSt) : (s.modDie d f).peers = s.peers := rfl
@[simp] theorem State.modDie_hitch (s : State) (d : Die) (f : DieSt → DieSt) : (s.modDie d f).hitch = s.hitch := rfl
@[simp] theorem State.modDie_cxlFailed (s : State) (d : Die) (f : DieSt → DieSt) : (s.modDie d f).cxlFailed = s.cxlFailed := rfl
@[simp] theorem State.modDie_cxlLost (s : State) (d : Die) (f : DieSt → DieSt) : (s.modDie d f).cxlLost = s.cxlLost := rfl
@[simp] theorem State.modDie_oldRoutes (s : State) (d : Die) (f : DieSt → DieSt) : (s.modDie d f).oldRoutes = s.oldRoutes := rfl
@[simp] theorem State.modDie_poolLost (s : State) (d : Die) (f : DieSt → DieSt) (pa : Nat) : (s.modDie d f).poolLost pa = s.poolLost pa := rfl
@[simp] theorem State.modDie_pools (s : State) (d : Die) (f : DieSt → DieSt) : (s.modDie d f).pools = s.pools := rfl
@[simp] theorem State.modDie_mgmtFw (s : State) (d : Die) (f : DieSt → DieSt) : (s.modDie d f).mgmtFw = s.mgmtFw := rfl
@[simp] theorem State.modDie_report (s : State) (d : Die) (f : DieSt → DieSt) : (s.modDie d f).report = s.report := rfl
@[simp] theorem State.modDie_life (s : State) (d : Die) (f : DieSt → DieSt) : (s.modDie d f).life = s.life := rfl
@[simp] theorem State.modDie_lifeNv (s : State) (d : Die) (f : DieSt → DieSt) : (s.modDie d f).lifeNv = s.lifeNv := rfl
@[simp] theorem State.modDie_draws (s : State) (d : Die) (f : DieSt → DieSt) : (s.modDie d f).draws = s.draws := rfl
@[simp] theorem State.modDie_waiting (s : State) (d : Die) (f : DieSt → DieSt) : (s.modDie d f).waiting = s.waiting := rfl
@[simp] theorem State.modDie_calm (s : State) (d : Die) (f : DieSt → DieSt) : (s.modDie d f).calm = s.calm := rfl
@[simp] theorem State.modDie_capture (s : State) (d : Die) (f : DieSt → DieSt) : (s.modDie d f).capture = s.capture := rfl
@[simp] theorem State.modDie_captureRing (s : State) (d : Die) (f : DieSt → DieSt) : (s.modDie d f).captureRing = s.captureRing := rfl
@[simp] theorem State.modDie_captureDue (s : State) (d : Die) (f : DieSt → DieSt) : (s.modDie d f).captureDue = s.captureDue := rfl
@[simp] theorem State.modCluster_powered (s : State) (d : Die) (c : Cluster) (f : ClusterSt → ClusterSt) : (s.modCluster d c f).powered = s.powered := rfl
@[simp] theorem State.modCluster_now (s : State) (d : Die) (c : Cluster) (f : ClusterSt → ClusterSt) : (s.modCluster d c f).now = s.now := rfl
@[simp] theorem State.modCluster_cur (s : State) (d : Die) (c : Cluster) (f : ClusterSt → ClusterSt) : (s.modCluster d c f).cur = s.cur := rfl
@[simp] theorem State.modCluster_events (s : State) (d : Die) (c : Cluster) (f : ClusterSt → ClusterSt) : (s.modCluster d c f).events = s.events := rfl
@[simp] theorem State.modCluster_arg (s : State) (d : Die) (c : Cluster) (f : ClusterSt → ClusterSt) : (s.modCluster d c f).arg = s.arg := rfl
@[simp] theorem State.modCluster_free (s : State) (d : Die) (c : Cluster) (f : ClusterSt → ClusterSt) : (s.modCluster d c f).free = s.free := rfl
@[simp] theorem State.modCluster_serial (s : State) (d : Die) (c : Cluster) (f : ClusterSt → ClusterSt) : (s.modCluster d c f).serial = s.serial := rfl
@[simp] theorem State.modCluster_cores (s : State) (d : Die) (c : Cluster) (f : ClusterSt → ClusterSt) : (s.modCluster d c f).cores = s.cores := rfl
@[simp] theorem State.modCluster_mem (s : State) (d : Die) (c : Cluster) (f : ClusterSt → ClusterSt) : (s.modCluster d c f).mem = s.mem := rfl
@[simp] theorem State.modCluster_l2 (s : State) (d : Die) (c : Cluster) (f : ClusterSt → ClusterSt) : (s.modCluster d c f).l2 = s.l2 := rfl
@[simp] theorem State.modCluster_stale (s : State) (d : Die) (c : Cluster) (f : ClusterSt → ClusterSt) : (s.modCluster d c f).stale = s.stale := rfl
@[simp] theorem State.modCluster_resident (s : State) (d : Die) (c : Cluster) (f : ClusterSt → ClusterSt) : (s.modCluster d c f).resident = s.resident := rfl
@[simp] theorem State.modCluster_posts (s : State) (d : Die) (c : Cluster) (f : ClusterSt → ClusterSt) : (s.modCluster d c f).posts = s.posts := rfl
@[simp] theorem State.modCluster_poison (s : State) (d : Die) (c : Cluster) (f : ClusterSt → ClusterSt) : (s.modCluster d c f).poison = s.poison := rfl
@[simp] theorem State.modCluster_ecc (s : State) (d : Die) (c : Cluster) (f : ClusterSt → ClusterSt) : (s.modCluster d c f).ecc = s.ecc := rfl
@[simp] theorem State.modCluster_dies (s : State) (d : Die) (c : Cluster) (f : ClusterSt → ClusterSt) : (s.modCluster d c f).dies = s.dies := rfl
@[simp] theorem State.modCluster_nodes (s : State) (d : Die) (c : Cluster) (f : ClusterSt → ClusterSt) : (s.modCluster d c f).nodes = s.nodes := rfl
@[simp] theorem State.modCluster_groups (s : State) (d : Die) (c : Cluster) (f : ClusterSt → ClusterSt) : (s.modCluster d c f).groups = s.groups := rfl
@[simp] theorem State.modCluster_queues (s : State) (d : Die) (c : Cluster) (f : ClusterSt → ClusterSt) : (s.modCluster d c f).queues = s.queues := rfl
@[simp] theorem State.modCluster_arenas (s : State) (d : Die) (c : Cluster) (f : ClusterSt → ClusterSt) : (s.modCluster d c f).arenas = s.arenas := rfl
@[simp] theorem State.modCluster_host (s : State) (d : Die) (c : Cluster) (f : ClusterSt → ClusterSt) : (s.modCluster d c f).host = s.host := rfl
@[simp] theorem State.modCluster_bar0 (s : State) (d : Die) (c : Cluster) (f : ClusterSt → ClusterSt) : (s.modCluster d c f).bar0 = s.bar0 := rfl
@[simp] theorem State.modCluster_irqs (s : State) (d : Die) (c : Cluster) (f : ClusterSt → ClusterSt) : (s.modCluster d c f).irqs = s.irqs := rfl
@[simp] theorem State.modCluster_hostData (s : State) (d : Die) (c : Cluster) (f : ClusterSt → ClusterSt) : (s.modCluster d c f).hostData = s.hostData := rfl
@[simp] theorem State.modCluster_nodeId (s : State) (d : Die) (c : Cluster) (f : ClusterSt → ClusterSt) : (s.modCluster d c f).nodeId = s.nodeId := rfl
@[simp] theorem State.modCluster_peers (s : State) (d : Die) (c : Cluster) (f : ClusterSt → ClusterSt) : (s.modCluster d c f).peers = s.peers := rfl
@[simp] theorem State.modCluster_hitch (s : State) (d : Die) (c : Cluster) (f : ClusterSt → ClusterSt) : (s.modCluster d c f).hitch = s.hitch := rfl
@[simp] theorem State.modCluster_cxlFailed (s : State) (d : Die) (c : Cluster) (f : ClusterSt → ClusterSt) : (s.modCluster d c f).cxlFailed = s.cxlFailed := rfl
@[simp] theorem State.modCluster_cxlLost (s : State) (d : Die) (c : Cluster) (f : ClusterSt → ClusterSt) : (s.modCluster d c f).cxlLost = s.cxlLost := rfl
@[simp] theorem State.modCluster_oldRoutes (s : State) (d : Die) (c : Cluster) (f : ClusterSt → ClusterSt) : (s.modCluster d c f).oldRoutes = s.oldRoutes := rfl
@[simp] theorem State.modCluster_poolLost (s : State) (d : Die) (c : Cluster) (f : ClusterSt → ClusterSt) (pa : Nat) : (s.modCluster d c f).poolLost pa = s.poolLost pa := rfl
@[simp] theorem State.modCluster_pools (s : State) (d : Die) (c : Cluster) (f : ClusterSt → ClusterSt) : (s.modCluster d c f).pools = s.pools := rfl
@[simp] theorem State.modCluster_mgmtFw (s : State) (d : Die) (c : Cluster) (f : ClusterSt → ClusterSt) : (s.modCluster d c f).mgmtFw = s.mgmtFw := rfl
@[simp] theorem State.modCluster_report (s : State) (d : Die) (c : Cluster) (f : ClusterSt → ClusterSt) : (s.modCluster d c f).report = s.report := rfl
@[simp] theorem State.modCluster_life (s : State) (d : Die) (c : Cluster) (f : ClusterSt → ClusterSt) : (s.modCluster d c f).life = s.life := rfl
@[simp] theorem State.modCluster_lifeNv (s : State) (d : Die) (c : Cluster) (f : ClusterSt → ClusterSt) : (s.modCluster d c f).lifeNv = s.lifeNv := rfl
@[simp] theorem State.modCluster_draws (s : State) (d : Die) (c : Cluster) (f : ClusterSt → ClusterSt) : (s.modCluster d c f).draws = s.draws := rfl
@[simp] theorem State.modCluster_waiting (s : State) (d : Die) (c : Cluster) (f : ClusterSt → ClusterSt) : (s.modCluster d c f).waiting = s.waiting := rfl
@[simp] theorem State.modCluster_calm (s : State) (d : Die) (c : Cluster) (f : ClusterSt → ClusterSt) : (s.modCluster d c f).calm = s.calm := rfl
@[simp] theorem State.modCluster_capture (s : State) (d : Die) (c : Cluster) (f : ClusterSt → ClusterSt) : (s.modCluster d c f).capture = s.capture := rfl
@[simp] theorem State.modCluster_captureRing (s : State) (d : Die) (c : Cluster) (f : ClusterSt → ClusterSt) : (s.modCluster d c f).captureRing = s.captureRing := rfl
@[simp] theorem State.modCluster_captureDue (s : State) (d : Die) (c : Cluster) (f : ClusterSt → ClusterSt) : (s.modCluster d c f).captureDue = s.captureDue := rfl
@[simp] theorem State.modNode_powered (s : State) (n : NodeId) (f : Node → Node) : (s.modNode n f).powered = s.powered := rfl
@[simp] theorem State.modNode_now (s : State) (n : NodeId) (f : Node → Node) : (s.modNode n f).now = s.now := rfl
@[simp] theorem State.modNode_cur (s : State) (n : NodeId) (f : Node → Node) : (s.modNode n f).cur = s.cur := rfl
@[simp] theorem State.modNode_events (s : State) (n : NodeId) (f : Node → Node) : (s.modNode n f).events = s.events := rfl
@[simp] theorem State.modNode_arg (s : State) (n : NodeId) (f : Node → Node) : (s.modNode n f).arg = s.arg := rfl
@[simp] theorem State.modNode_free (s : State) (n : NodeId) (f : Node → Node) : (s.modNode n f).free = s.free := rfl
@[simp] theorem State.modNode_serial (s : State) (n : NodeId) (f : Node → Node) : (s.modNode n f).serial = s.serial := rfl
@[simp] theorem State.modNode_cores (s : State) (n : NodeId) (f : Node → Node) : (s.modNode n f).cores = s.cores := rfl
@[simp] theorem State.modNode_mem (s : State) (n : NodeId) (f : Node → Node) : (s.modNode n f).mem = s.mem := rfl
@[simp] theorem State.modNode_l2 (s : State) (n : NodeId) (f : Node → Node) : (s.modNode n f).l2 = s.l2 := rfl
@[simp] theorem State.modNode_stale (s : State) (n : NodeId) (f : Node → Node) : (s.modNode n f).stale = s.stale := rfl
@[simp] theorem State.modNode_resident (s : State) (n : NodeId) (f : Node → Node) : (s.modNode n f).resident = s.resident := rfl
@[simp] theorem State.modNode_posts (s : State) (n : NodeId) (f : Node → Node) : (s.modNode n f).posts = s.posts := rfl
@[simp] theorem State.modNode_poison (s : State) (n : NodeId) (f : Node → Node) : (s.modNode n f).poison = s.poison := rfl
@[simp] theorem State.modNode_ecc (s : State) (n : NodeId) (f : Node → Node) : (s.modNode n f).ecc = s.ecc := rfl
@[simp] theorem State.modNode_dies (s : State) (n : NodeId) (f : Node → Node) : (s.modNode n f).dies = s.dies := rfl
@[simp] theorem State.modNode_clusters (s : State) (n : NodeId) (f : Node → Node) : (s.modNode n f).clusters = s.clusters := rfl
@[simp] theorem State.modNode_groups (s : State) (n : NodeId) (f : Node → Node) : (s.modNode n f).groups = s.groups := rfl
@[simp] theorem State.modNode_queues (s : State) (n : NodeId) (f : Node → Node) : (s.modNode n f).queues = s.queues := rfl
@[simp] theorem State.modNode_arenas (s : State) (n : NodeId) (f : Node → Node) : (s.modNode n f).arenas = s.arenas := rfl
@[simp] theorem State.modNode_host (s : State) (n : NodeId) (f : Node → Node) : (s.modNode n f).host = s.host := rfl
@[simp] theorem State.modNode_bar0 (s : State) (n : NodeId) (f : Node → Node) : (s.modNode n f).bar0 = s.bar0 := rfl
@[simp] theorem State.modNode_irqs (s : State) (n : NodeId) (f : Node → Node) : (s.modNode n f).irqs = s.irqs := rfl
@[simp] theorem State.modNode_hostData (s : State) (n : NodeId) (f : Node → Node) : (s.modNode n f).hostData = s.hostData := rfl
@[simp] theorem State.modNode_nodeId (s : State) (n : NodeId) (f : Node → Node) : (s.modNode n f).nodeId = s.nodeId := rfl
@[simp] theorem State.modNode_peers (s : State) (n : NodeId) (f : Node → Node) : (s.modNode n f).peers = s.peers := rfl
@[simp] theorem State.modNode_hitch (s : State) (n : NodeId) (f : Node → Node) : (s.modNode n f).hitch = s.hitch := rfl
@[simp] theorem State.modNode_cxlFailed (s : State) (n : NodeId) (f : Node → Node) : (s.modNode n f).cxlFailed = s.cxlFailed := rfl
@[simp] theorem State.modNode_cxlLost (s : State) (n : NodeId) (f : Node → Node) : (s.modNode n f).cxlLost = s.cxlLost := rfl
@[simp] theorem State.modNode_oldRoutes (s : State) (n : NodeId) (f : Node → Node) : (s.modNode n f).oldRoutes = s.oldRoutes := rfl
@[simp] theorem State.modNode_poolLost (s : State) (n : NodeId) (f : Node → Node) (pa : Nat) : (s.modNode n f).poolLost pa = s.poolLost pa := rfl
@[simp] theorem State.modNode_pools (s : State) (n : NodeId) (f : Node → Node) : (s.modNode n f).pools = s.pools := rfl
@[simp] theorem State.modNode_mgmtFw (s : State) (n : NodeId) (f : Node → Node) : (s.modNode n f).mgmtFw = s.mgmtFw := rfl
@[simp] theorem State.modNode_report (s : State) (n : NodeId) (f : Node → Node) : (s.modNode n f).report = s.report := rfl
@[simp] theorem State.modNode_life (s : State) (n : NodeId) (f : Node → Node) : (s.modNode n f).life = s.life := rfl
@[simp] theorem State.modNode_lifeNv (s : State) (n : NodeId) (f : Node → Node) : (s.modNode n f).lifeNv = s.lifeNv := rfl
@[simp] theorem State.modNode_draws (s : State) (n : NodeId) (f : Node → Node) : (s.modNode n f).draws = s.draws := rfl
@[simp] theorem State.modNode_waiting (s : State) (n : NodeId) (f : Node → Node) : (s.modNode n f).waiting = s.waiting := rfl
@[simp] theorem State.modNode_calm (s : State) (n : NodeId) (f : Node → Node) : (s.modNode n f).calm = s.calm := rfl
@[simp] theorem State.modNode_capture (s : State) (n : NodeId) (f : Node → Node) : (s.modNode n f).capture = s.capture := rfl
@[simp] theorem State.modNode_captureRing (s : State) (n : NodeId) (f : Node → Node) : (s.modNode n f).captureRing = s.captureRing := rfl
@[simp] theorem State.modNode_captureDue (s : State) (n : NodeId) (f : Node → Node) : (s.modNode n f).captureDue = s.captureDue := rfl
@[simp] theorem State.dropNode_powered (s : State) (n : NodeId) : (s.dropNode n).powered = s.powered := rfl
@[simp] theorem State.dropNode_now (s : State) (n : NodeId) : (s.dropNode n).now = s.now := rfl
@[simp] theorem State.dropNode_cur (s : State) (n : NodeId) : (s.dropNode n).cur = s.cur := rfl
@[simp] theorem State.dropNode_events (s : State) (n : NodeId) : (s.dropNode n).events = s.events := rfl
@[simp] theorem State.dropNode_arg (s : State) (n : NodeId) : (s.dropNode n).arg = s.arg := rfl
@[simp] theorem State.dropNode_free (s : State) (n : NodeId) : (s.dropNode n).free = s.free := rfl
@[simp] theorem State.dropNode_serial (s : State) (n : NodeId) : (s.dropNode n).serial = s.serial := rfl
@[simp] theorem State.dropNode_cores (s : State) (n : NodeId) : (s.dropNode n).cores = s.cores := rfl
@[simp] theorem State.dropNode_mem (s : State) (n : NodeId) : (s.dropNode n).mem = s.mem := rfl
@[simp] theorem State.dropNode_l2 (s : State) (n : NodeId) : (s.dropNode n).l2 = s.l2 := rfl
@[simp] theorem State.dropNode_stale (s : State) (n : NodeId) : (s.dropNode n).stale = s.stale := rfl
@[simp] theorem State.dropNode_resident (s : State) (n : NodeId) : (s.dropNode n).resident = s.resident := rfl
@[simp] theorem State.dropNode_posts (s : State) (n : NodeId) : (s.dropNode n).posts = s.posts := rfl
@[simp] theorem State.dropNode_poison (s : State) (n : NodeId) : (s.dropNode n).poison = s.poison := rfl
@[simp] theorem State.dropNode_ecc (s : State) (n : NodeId) : (s.dropNode n).ecc = s.ecc := rfl
@[simp] theorem State.dropNode_dies (s : State) (n : NodeId) : (s.dropNode n).dies = s.dies := rfl
@[simp] theorem State.dropNode_clusters (s : State) (n : NodeId) : (s.dropNode n).clusters = s.clusters := rfl
@[simp] theorem State.dropNode_groups (s : State) (n : NodeId) : (s.dropNode n).groups = s.groups := rfl
@[simp] theorem State.dropNode_queues (s : State) (n : NodeId) : (s.dropNode n).queues = s.queues := rfl
@[simp] theorem State.dropNode_arenas (s : State) (n : NodeId) : (s.dropNode n).arenas = s.arenas := rfl
@[simp] theorem State.dropNode_host (s : State) (n : NodeId) : (s.dropNode n).host = s.host := rfl
@[simp] theorem State.dropNode_bar0 (s : State) (n : NodeId) : (s.dropNode n).bar0 = s.bar0 := rfl
@[simp] theorem State.dropNode_irqs (s : State) (n : NodeId) : (s.dropNode n).irqs = s.irqs := rfl
@[simp] theorem State.dropNode_hostData (s : State) (n : NodeId) : (s.dropNode n).hostData = s.hostData := rfl
@[simp] theorem State.dropNode_nodeId (s : State) (n : NodeId) : (s.dropNode n).nodeId = s.nodeId := rfl
@[simp] theorem State.dropNode_peers (s : State) (n : NodeId) : (s.dropNode n).peers = s.peers := rfl
@[simp] theorem State.dropNode_hitch (s : State) (n : NodeId) : (s.dropNode n).hitch = s.hitch := rfl
@[simp] theorem State.dropNode_cxlFailed (s : State) (n : NodeId) : (s.dropNode n).cxlFailed = s.cxlFailed := rfl
@[simp] theorem State.dropNode_cxlLost (s : State) (n : NodeId) : (s.dropNode n).cxlLost = s.cxlLost := rfl
@[simp] theorem State.dropNode_oldRoutes (s : State) (n : NodeId) : (s.dropNode n).oldRoutes = s.oldRoutes := rfl
@[simp] theorem State.dropNode_poolLost (s : State) (n : NodeId) (pa : Nat) : (s.dropNode n).poolLost pa = s.poolLost pa := rfl
@[simp] theorem State.dropNode_pools (s : State) (n : NodeId) : (s.dropNode n).pools = s.pools := rfl
@[simp] theorem State.dropNode_mgmtFw (s : State) (n : NodeId) : (s.dropNode n).mgmtFw = s.mgmtFw := rfl
@[simp] theorem State.dropNode_report (s : State) (n : NodeId) : (s.dropNode n).report = s.report := rfl
@[simp] theorem State.dropNode_life (s : State) (n : NodeId) : (s.dropNode n).life = s.life := rfl
@[simp] theorem State.dropNode_lifeNv (s : State) (n : NodeId) : (s.dropNode n).lifeNv = s.lifeNv := rfl
@[simp] theorem State.dropNode_draws (s : State) (n : NodeId) : (s.dropNode n).draws = s.draws := rfl
@[simp] theorem State.dropNode_waiting (s : State) (n : NodeId) : (s.dropNode n).waiting = s.waiting := rfl
@[simp] theorem State.dropNode_calm (s : State) (n : NodeId) : (s.dropNode n).calm = s.calm := rfl
@[simp] theorem State.dropNode_capture (s : State) (n : NodeId) : (s.dropNode n).capture = s.capture := rfl
@[simp] theorem State.dropNode_captureRing (s : State) (n : NodeId) : (s.dropNode n).captureRing = s.captureRing := rfl
@[simp] theorem State.dropNode_captureDue (s : State) (n : NodeId) : (s.dropNode n).captureDue = s.captureDue := rfl

/-! ### Cores by identifier -/

theorem lookupCore_insertCore_self (cs : List (CoreId × Core)) (k : CoreId) (c : Core) :
    lookupCore (insertCore cs k c) k = c := by
  induction cs with
  | nil => simp [insertCore, lookupCore]
  | cons p t ih =>
    obtain ⟨j, d⟩ := p
    by_cases h : j = k <;> simp [insertCore, lookupCore, h, ih]

theorem lookupCore_insertCore_ne (cs : List (CoreId × Core)) {k j : CoreId} (c : Core) (h : j ≠ k) :
    lookupCore (insertCore cs k c) j = lookupCore cs j := by
  induction cs with
  | nil => simp [insertCore, lookupCore, h.symm]
  | cons p t ih =>
    obtain ⟨i, d⟩ := p
    by_cases hi : i = k
    · subst hi; simp [insertCore, lookupCore, h.symm]
    · by_cases hj : i = j
      · subst hj; simp [insertCore, lookupCore, hi]
      · simp [insertCore, lookupCore, hi, hj, ih]

theorem insertCore_insertCore (cs : List (CoreId × Core)) (k : CoreId) (c d : Core) :
    insertCore (insertCore cs k c) k d = insertCore cs k d := by
  induction cs with
  | nil => simp [insertCore]
  | cons p t ih =>
    obtain ⟨j, e⟩ := p
    by_cases h : j = k <;> simp [insertCore, h, ih]

@[simp] theorem State.core_setCore (s : State) (k : CoreId) (c : Core) : (s.setCore k c).core k = c :=
  lookupCore_insertCore_self _ _ _

theorem State.core_setCore_ne (s : State) {k j : CoreId} (c : Core) (h : j ≠ k) : (s.setCore k c).core j = s.core j :=
  lookupCore_insertCore_ne _ _ h

@[simp] theorem State.setCore_setCore (s : State) (k : CoreId) (c d : Core) : (s.setCore k c).setCore k d = s.setCore k d := by
  simp [State.setCore, insertCore_insertCore]

@[simp] theorem State.core_modCore (s : State) (k : CoreId) (f : Core → Core) : (s.modCore k f).core k = f (s.core k) := by
  simp [State.modCore]

theorem State.core_modCore_ne (s : State) {k j : CoreId} (f : Core → Core) (h : j ≠ k) : (s.modCore k f).core j = s.core j :=
  s.core_setCore_ne _ h

@[simp] theorem State.ctx_setCtx (s : State) (k : CoreId) (x : Ctx) : (s.setCtx k x).ctx k = x := by
  simp [State.ctx, State.setCtx]

@[simp] theorem State.ctx_modCtx (s : State) (k : CoreId) (f : Ctx → Ctx) : (s.modCtx k f).ctx k = f (s.ctx k) := by
  simp [State.modCtx]

theorem State.core_setCtx (s : State) (k : CoreId) (x : Ctx) : (s.setCtx k x).core k = { s.core k with ctx := x } := by
  simp [State.setCtx]

theorem State.core_modCtx (s : State) (k : CoreId) (f : Ctx → Ctx) :
    (s.modCtx k f).core k = { s.core k with ctx := f (s.ctx k) } := by
  simp [State.modCtx, State.core_setCtx]

theorem State.core_modCtx_ne (s : State) {k j : CoreId} (f : Ctx → Ctx) (h : j ≠ k) : (s.modCtx k f).core j = s.core j :=
  s.core_setCore_ne _ h

@[simp] theorem Ctx.seq_setSeq (x : Ctx) (q : Seq) (r : Seqr) : (x.setSeq q r).seq q = r := by cases q <;> rfl

theorem Ctx.seq_setSeq_ne (x : Ctx) {q p : Seq} (r : Seqr) (h : p ≠ q) : (x.setSeq q r).seq p = x.seq p := by
  cases q <;> cases p <;> simp_all [Ctx.setSeq, Ctx.seq]

@[simp] theorem Ctx.setSeq_regs (x : Ctx) (q : Seq) (r : Seqr) : (x.setSeq q r).regs = x.regs := by cases q <;> rfl

theorem State.ctx_modSeq (s : State) (k : CoreId) (q : Seq) (f : Seqr → Seqr) :
    (s.modSeq k q f).ctx k = (s.ctx k).setSeq q (f (s.seq k q)) := by
  simp [State.modSeq, State.setSeq]

@[simp] theorem State.seq_modSeq (s : State) (k : CoreId) (q : Seq) (f : Seqr → Seqr) :
    (s.modSeq k q f).seq k q = f (s.seq k q) := by
  simp [State.seq, State.ctx_modSeq]

theorem State.seq_modSeq_ne (s : State) (k : CoreId) {q p : Seq} (f : Seqr → Seqr) (h : p ≠ q) :
    (s.modSeq k q f).seq k p = s.seq k p := by
  simp [State.seq, State.ctx_modSeq, Ctx.seq_setSeq_ne _ _ h]

@[simp] theorem State.regs_modSeq (s : State) (k : CoreId) (q : Seq) (f : Seqr → Seqr) :
    (s.modSeq k q f).regs k = s.regs k := by
  simp [State.regs, State.ctx_modSeq]

theorem State.core_modSeq (s : State) (k : CoreId) (q : Seq) (f : Seqr → Seqr) :
    (s.modSeq k q f).core k = { s.core k with ctx := (s.ctx k).setSeq q (f (s.seq k q)) } := by
  simp [State.modSeq, State.setSeq, State.core_setCtx]

theorem State.core_modSeq_ne (s : State) {k j : CoreId} (q : Seq) (f : Seqr → Seqr) (h : j ≠ k) :
    (s.modSeq k q f).core j = s.core j :=
  s.core_setCore_ne _ h

@[simp] theorem State.regs_modRegs (s : State) (k : CoreId) (f : Regs → Regs) : (s.modRegs k f).regs k = f (s.regs k) := by
  simp [State.regs, State.modRegs]

theorem State.ctx_modRegs (s : State) (k : CoreId) (f : Regs → Regs) :
    (s.modRegs k f).ctx k = { s.ctx k with regs := f (s.regs k) } := by
  simp [State.modRegs, State.regs]

@[simp] theorem State.seq_modRegs (s : State) (k : CoreId) (q : Seq) (f : Regs → Regs) : (s.modRegs k f).seq k q = s.seq k q := by
  cases q <;> simp [State.seq, State.ctx_modRegs, Ctx.seq]

theorem State.core_modRegs (s : State) (k : CoreId) (f : Regs → Regs) :
    (s.modRegs k f).core k = { s.core k with ctx := { s.ctx k with regs := f (s.regs k) } } := by
  simp [State.modRegs, State.core_modCtx, State.regs]

theorem State.core_modRegs_ne (s : State) {k j : CoreId} (f : Regs → Regs) (h : j ≠ k) : (s.modRegs k f).core j = s.core j :=
  s.core_setCore_ne _ h

theorem State.ctx_modMe (s : State) (k : CoreId) (f : MEngine → MEngine) :
    (s.modMe k f).ctx k = { s.ctx k with me := f (s.ctx k).me } := by
  simp [State.modMe]

theorem State.ctx_modTe (s : State) (k : CoreId) (f : TEngine → TEngine) :
    (s.modTe k f).ctx k = { s.ctx k with te := f (s.ctx k).te } := by
  simp [State.modTe]

@[simp] theorem State.core_enqueue (s : State) (i : Instr) (a : EvArg) (k : CoreId) : (s.enqueue i a).core k = s.core k := rfl
@[simp] theorem State.ctx_enqueue (s : State) (i : Instr) (a : EvArg) (k : CoreId) : (s.enqueue i a).ctx k = s.ctx k := rfl
@[simp] theorem State.seq_enqueue (s : State) (i : Instr) (a : EvArg) (k : CoreId) (q : Seq) : (s.enqueue i a).seq k q = s.seq k q := rfl
@[simp] theorem State.regs_enqueue (s : State) (i : Instr) (a : EvArg) (k : CoreId) : (s.enqueue i a).regs k = s.regs k := rfl

@[simp] theorem State.die_modDie (s : State) (d : Die) (f : DieSt → DieSt) : (s.modDie d f).die d = f (s.die d) := by
  simp [State.die, State.modDie, vput]

/-! ### Bank ports touch only the cores -/

/-- Whatever an update of a core leaves, the ports of the banks that accesses use leave. -/
theorem State.usePorts_keeps {α : Type} (φ : State → α) (h : ∀ s k f, φ (State.modCore s k f) = φ s) (s : State)
    (l : List (Target × Nat)) (write : Bool) : φ (s.usePorts l write) = φ s := by
  unfold State.usePorts
  generalize bankUses l = u
  induction u generalizing s with
  | nil => rfl
  | cons x u ih => rw [List.foldl_cons, ih, h]

@[simp] theorem State.usePorts_now (s : State) (l : List (Target × Nat)) (write : Bool) : (s.usePorts l write).now = s.now :=
  State.usePorts_keeps State.now (fun _ _ _ => rfl) s l write
@[simp] theorem State.usePorts_cur (s : State) (l : List (Target × Nat)) (write : Bool) : (s.usePorts l write).cur = s.cur :=
  State.usePorts_keeps State.cur (fun _ _ _ => rfl) s l write
@[simp] theorem State.usePorts_events (s : State) (l : List (Target × Nat)) (write : Bool) : (s.usePorts l write).events = s.events :=
  State.usePorts_keeps State.events (fun _ _ _ => rfl) s l write
@[simp] theorem State.usePorts_arg (s : State) (l : List (Target × Nat)) (write : Bool) : (s.usePorts l write).arg = s.arg :=
  State.usePorts_keeps State.arg (fun _ _ _ => rfl) s l write
@[simp] theorem State.usePorts_free (s : State) (l : List (Target × Nat)) (write : Bool) : (s.usePorts l write).free = s.free :=
  State.usePorts_keeps State.free (fun _ _ _ => rfl) s l write
@[simp] theorem State.usePorts_serial (s : State) (l : List (Target × Nat)) (write : Bool) : (s.usePorts l write).serial = s.serial :=
  State.usePorts_keeps State.serial (fun _ _ _ => rfl) s l write
@[simp] theorem State.usePorts_mem (s : State) (l : List (Target × Nat)) (write : Bool) : (s.usePorts l write).mem = s.mem :=
  State.usePorts_keeps State.mem (fun _ _ _ => rfl) s l write
@[simp] theorem State.usePorts_l2 (s : State) (l : List (Target × Nat)) (write : Bool) : (s.usePorts l write).l2 = s.l2 :=
  State.usePorts_keeps State.l2 (fun _ _ _ => rfl) s l write
@[simp] theorem State.usePorts_stale (s : State) (l : List (Target × Nat)) (write : Bool) : (s.usePorts l write).stale = s.stale :=
  State.usePorts_keeps State.stale (fun _ _ _ => rfl) s l write
@[simp] theorem State.usePorts_resident (s : State) (l : List (Target × Nat)) (write : Bool) : (s.usePorts l write).resident = s.resident :=
  State.usePorts_keeps State.resident (fun _ _ _ => rfl) s l write
@[simp] theorem State.usePorts_posts (s : State) (l : List (Target × Nat)) (write : Bool) : (s.usePorts l write).posts = s.posts :=
  State.usePorts_keeps State.posts (fun _ _ _ => rfl) s l write
@[simp] theorem State.usePorts_poison (s : State) (l : List (Target × Nat)) (write : Bool) : (s.usePorts l write).poison = s.poison :=
  State.usePorts_keeps State.poison (fun _ _ _ => rfl) s l write
@[simp] theorem State.usePorts_ecc (s : State) (l : List (Target × Nat)) (write : Bool) : (s.usePorts l write).ecc = s.ecc :=
  State.usePorts_keeps State.ecc (fun _ _ _ => rfl) s l write
@[simp] theorem State.usePorts_dies (s : State) (l : List (Target × Nat)) (write : Bool) : (s.usePorts l write).dies = s.dies :=
  State.usePorts_keeps State.dies (fun _ _ _ => rfl) s l write
@[simp] theorem State.usePorts_clusters (s : State) (l : List (Target × Nat)) (write : Bool) : (s.usePorts l write).clusters = s.clusters :=
  State.usePorts_keeps State.clusters (fun _ _ _ => rfl) s l write
@[simp] theorem State.usePorts_nodes (s : State) (l : List (Target × Nat)) (write : Bool) : (s.usePorts l write).nodes = s.nodes :=
  State.usePorts_keeps State.nodes (fun _ _ _ => rfl) s l write
@[simp] theorem State.usePorts_groups (s : State) (l : List (Target × Nat)) (write : Bool) : (s.usePorts l write).groups = s.groups :=
  State.usePorts_keeps State.groups (fun _ _ _ => rfl) s l write
@[simp] theorem State.usePorts_queues (s : State) (l : List (Target × Nat)) (write : Bool) : (s.usePorts l write).queues = s.queues :=
  State.usePorts_keeps State.queues (fun _ _ _ => rfl) s l write
@[simp] theorem State.usePorts_host (s : State) (l : List (Target × Nat)) (write : Bool) : (s.usePorts l write).host = s.host :=
  State.usePorts_keeps State.host (fun _ _ _ => rfl) s l write
@[simp] theorem State.usePorts_bar0 (s : State) (l : List (Target × Nat)) (write : Bool) : (s.usePorts l write).bar0 = s.bar0 :=
  State.usePorts_keeps State.bar0 (fun _ _ _ => rfl) s l write
@[simp] theorem State.usePorts_peers (s : State) (l : List (Target × Nat)) (write : Bool) : (s.usePorts l write).peers = s.peers :=
  State.usePorts_keeps State.peers (fun _ _ _ => rfl) s l write
@[simp] theorem State.keepPorts_now (s : State) (k : CoreId) (n : Nat) : (s.keepPorts k n).now = s.now := rfl
@[simp] theorem State.keepPorts_cur (s : State) (k : CoreId) (n : Nat) : (s.keepPorts k n).cur = s.cur := rfl
@[simp] theorem State.keepPorts_events (s : State) (k : CoreId) (n : Nat) : (s.keepPorts k n).events = s.events := rfl
@[simp] theorem State.keepPorts_arg (s : State) (k : CoreId) (n : Nat) : (s.keepPorts k n).arg = s.arg := rfl
@[simp] theorem State.keepPorts_free (s : State) (k : CoreId) (n : Nat) : (s.keepPorts k n).free = s.free := rfl
@[simp] theorem State.keepPorts_serial (s : State) (k : CoreId) (n : Nat) : (s.keepPorts k n).serial = s.serial := rfl
@[simp] theorem State.keepPorts_mem (s : State) (k : CoreId) (n : Nat) : (s.keepPorts k n).mem = s.mem := rfl
@[simp] theorem State.keepPorts_l2 (s : State) (k : CoreId) (n : Nat) : (s.keepPorts k n).l2 = s.l2 := rfl
@[simp] theorem State.keepPorts_stale (s : State) (k : CoreId) (n : Nat) : (s.keepPorts k n).stale = s.stale := rfl
@[simp] theorem State.keepPorts_resident (s : State) (k : CoreId) (n : Nat) : (s.keepPorts k n).resident = s.resident := rfl
@[simp] theorem State.keepPorts_posts (s : State) (k : CoreId) (n : Nat) : (s.keepPorts k n).posts = s.posts := rfl
@[simp] theorem State.keepPorts_poison (s : State) (k : CoreId) (n : Nat) : (s.keepPorts k n).poison = s.poison := rfl
@[simp] theorem State.keepPorts_ecc (s : State) (k : CoreId) (n : Nat) : (s.keepPorts k n).ecc = s.ecc := rfl
@[simp] theorem State.keepPorts_dies (s : State) (k : CoreId) (n : Nat) : (s.keepPorts k n).dies = s.dies := rfl
@[simp] theorem State.keepPorts_clusters (s : State) (k : CoreId) (n : Nat) : (s.keepPorts k n).clusters = s.clusters := rfl
@[simp] theorem State.keepPorts_nodes (s : State) (k : CoreId) (n : Nat) : (s.keepPorts k n).nodes = s.nodes := rfl
@[simp] theorem State.keepPorts_groups (s : State) (k : CoreId) (n : Nat) : (s.keepPorts k n).groups = s.groups := rfl
@[simp] theorem State.keepPorts_queues (s : State) (k : CoreId) (n : Nat) : (s.keepPorts k n).queues = s.queues := rfl
@[simp] theorem State.keepPorts_host (s : State) (k : CoreId) (n : Nat) : (s.keepPorts k n).host = s.host := rfl
@[simp] theorem State.keepPorts_bar0 (s : State) (k : CoreId) (n : Nat) : (s.keepPorts k n).bar0 = s.bar0 := rfl
@[simp] theorem State.keepPorts_peers (s : State) (k : CoreId) (n : Nat) : (s.keepPorts k n).peers = s.peers := rfl

end Sys2Proof.Machine
end

