-- ==== Sys2Proof/Laws/Homes.lean ====
section
/-! SUPPORT. What the shared operations over memory can do: which parts of the state a write at a home, a performed store, a commit or
a post can change, that each keeps the form of memory, and what a write at a home answers to a later read. -/

namespace Sys2Proof.Machine

/-! ### What an access at a home can change -/

/-- From a to b nothing changes but memory, what the L2 holds of it, the posts that are held, poison, the cores, and the dray queues that a write
has created or destroyed; and the form of memory is kept. -/
structure HomeOnly (a b : State) : Prop where
  /-- The parts that change. -/
  rest : b = { a with cores := b.cores, mem := b.mem, l2 := b.l2, stale := b.stale, resident := b.resident, posts := b.posts,
                        poison := b.poison, ecc := b.ecc, free := b.free, queues := b.queues }
  /-- The form. -/
  form : a.MemoryForm → b.MemoryForm

theorem HomeOnly.refl (s : State) : HomeOnly s s := ⟨rfl, id⟩

theorem HomeOnly.trans {a b c : State} (h : HomeOnly a b) (g : HomeOnly b c) : HomeOnly a c := by
  refine ⟨?_, fun x => g.form (h.form x)⟩
  have h1 := h.rest
  have h2 := g.rest
  rw [h1] at h2
  exact h2

theorem HomeOnly.bar0 {a b : State} (h : HomeOnly a b) : b.bar0 = a.bar0 := (congrArg State.bar0 h.rest :)
theorem HomeOnly.nodes {a b : State} (h : HomeOnly a b) : b.nodes = a.nodes := (congrArg State.nodes h.rest :)
theorem HomeOnly.groups {a b : State} (h : HomeOnly a b) : b.groups = a.groups := (congrArg State.groups h.rest :)
theorem HomeOnly.dies {a b : State} (h : HomeOnly a b) : b.dies = a.dies := (congrArg State.dies h.rest :)
theorem HomeOnly.clusters {a b : State} (h : HomeOnly a b) : b.clusters = a.clusters := (congrArg State.clusters h.rest :)
theorem HomeOnly.events {a b : State} (h : HomeOnly a b) : b.events = a.events := (congrArg State.events h.rest :)
theorem HomeOnly.arg {a b : State} (h : HomeOnly a b) : b.arg = a.arg := (congrArg State.arg h.rest :)
theorem HomeOnly.now {a b : State} (h : HomeOnly a b) : b.now = a.now := (congrArg State.now h.rest :)
theorem HomeOnly.cur {a b : State} (h : HomeOnly a b) : b.cur = a.cur := (congrArg State.cur h.rest :)
theorem HomeOnly.host {a b : State} (h : HomeOnly a b) : b.host = a.host := (congrArg State.host h.rest :)
theorem HomeOnly.hitch {a b : State} (h : HomeOnly a b) : b.hitch = a.hitch := (congrArg State.hitch h.rest :)

/-- A change of the cores alone. -/
theorem HomeOnly.cores {s t : State} (h : t = { s with cores := t.cores }) : HomeOnly s t := by
  refine ⟨?_, ?_⟩
  · rw [h]
  · intro f; rw [h]; exact f

theorem State.modCore_homeOnly (s : State) (k : CoreId) (f : Core → Core) : HomeOnly s (s.modCore k f) := .cores rfl
theorem State.modCtx_homeOnly (s : State) (k : CoreId) (f : Ctx → Ctx) : HomeOnly s (s.modCtx k f) := .cores rfl
theorem State.modSeq_homeOnly (s : State) (k : CoreId) (q : Seq) (f : Seqr → Seqr) : HomeOnly s (s.modSeq k q f) := .cores rfl
theorem State.modRegs_homeOnly (s : State) (k : CoreId) (f : Regs → Regs) : HomeOnly s (s.modRegs k f) := .cores rfl
theorem State.escape_homeOnly (s : State) (k : CoreId) : HomeOnly s (s.escape k) := .cores rfl
theorem State.setFlags_homeOnly (s : State) (k : CoreId) (b : BitVec 32) : HomeOnly s (s.setFlags k b) := by
  unfold State.setFlags
  split
  · exact .refl s
  · exact .cores rfl
theorem State.wakeLines_homeOnly (s : State) (key n : Nat) : HomeOnly s (s.wakeLines key n) := .cores rfl
theorem State.defer_homeOnly (s : State) (k : CoreId) (q : Seq) (n : BitVec 24) (pc : VA) (t : TrapInfo) :
    HomeOnly s (s.defer k q n pc t) := .cores rfl
theorem State.writeTctl_homeOnly (s : State) (k : CoreId) (v : W64) : HomeOnly s (s.writeTctl k v) := .cores rfl

/-- A change of what the homes hold that keeps the forms. -/
theorem HomeOnly.of_mem (s : State) (m : Memory) (l st : Overlay) (p : List Nat) (e : List (Nat × Bool)) (n : Nat)
    (h : s.MemoryForm → m.wf = true ∧ l.wf = true ∧ st.wf = true) :
    HomeOnly s { s with mem := m, l2 := l, stale := st, poison := p, ecc := e, free := n } :=
  ⟨rfl, fun f => ⟨(h f).1, f.2.1, (h f).2.1, (h f).2.2⟩⟩

/-- A change of what the L2 holds that keeps the forms. -/
theorem HomeOnly.of_l2 (s : State) (l st : Overlay) (r : List Nat) (h : s.MemoryForm → l.wf = true ∧ st.wf = true) :
    HomeOnly s { s with l2 := l, stale := st, resident := r } :=
  ⟨rfl, fun f => ⟨f.1, f.2.1, (h f).1, (h f).2⟩⟩

theorem State.allocate_homeOnly (s : State) (pa n : Nat) : HomeOnly s (s.allocate pa n) :=
  HomeOnly.of_l2 s s.l2 s.stale _ fun f => ⟨f.2.2.1, f.2.2.2⟩

theorem State.usePorts_homeOnly (s : State) (l : List (Target × Nat)) (w : Bool) : HomeOnly s (s.usePorts l w) := by
  unfold State.usePorts
  generalize bankUses l = us
  induction us generalizing s with
  | nil => exact .refl s
  | cons x t ih => exact (State.modCore_homeOnly s x.1 _).trans (ih _)

theorem State.chargeFt_homeOnly (s : State) (k : CoreId) (t : Target) (n : Nat) : HomeOnly s (s.chargeFt k t n) := by
  have c : HomeOnly s (s.chargeFtUnits k ((n + 127) / 128)) := by
    unfold State.chargeFtUnits
    split
    · exact .refl s
    · exact .cores rfl
  unfold State.chargeFt
  repeat' split
  all_goals first
    | exact .refl s
    | exact c

theorem State.clearPoison_homeOnly (s : State) (key n : Nat) : HomeOnly s (s.clearPoison key n) :=
  HomeOnly.of_mem s s.mem s.l2 s.stale _ _ s.free fun f => ⟨f.1, f.2.2.1, f.2.2.2⟩

theorem State.setPoison_homeOnly (s : State) (key n : Nat) : HomeOnly s (s.setPoison key n) :=
  HomeOnly.of_mem s s.mem s.l2 s.stale _ s.ecc s.free fun f => ⟨f.1, f.2.2.1, f.2.2.2⟩

theorem windowEncode_wf {m : Memory} (h : m.wf = true) (w : Window) (blk : Nat) (bs : List Byte) : (windowEncode m w blk bs).wf = true :=
  Memory.write_wf (Memory.writeBytes_wf h _ _) _ _

theorem State.poolWrite_homeOnly (n : Nat) (s : State) (pa : Nat) (bs : List Byte) : HomeOnly s (s.poolWrite n pa bs) := by
  induction n generalizing s pa bs with
  | zero => exact .refl s
  | succ n ih =>
    rw [State.poolWrite.eq_def]
    dsimp only
    split
    · exact .refl s
    · refine HomeOnly.trans ?_ (ih ..)
      split
      · exact HomeOnly.of_mem s _ s.l2 s.stale s.poison s.ecc s.free fun f => ⟨Memory.writeBytes_wf f.1 _ _, f.2.2.1, f.2.2.2⟩
      · exact HomeOnly.of_mem s _ s.l2 s.stale s.poison s.ecc s.free fun f => ⟨windowEncode_wf f.1 _ _ _, f.2.2.1, f.2.2.2⟩

/-- A fold of changes at homes is one. -/
theorem HomeOnly.foldl {α : Type} (f : State → α → State) (h : ∀ s x, HomeOnly s (f s x)) (l : List α) (s : State) :
    HomeOnly s (l.foldl f s) := by
  induction l generalizing s with
  | nil => exact .refl s
  | cons x t ih => exact (h s x).trans (ih _)

theorem Memory.writes_wf (l : Overlay) {m : Memory} (h : m.wf = true) : (l.foldl (fun m c => m.write c.1 c.2) m : Memory).wf = true := by
  induction l generalizing m with
  | nil => exact h
  | cons c t ih => exact ih (Memory.write_wf h _ _)

theorem State.writeBlock_homeOnly (s : State) (b : Nat) (cells : Overlay) : HomeOnly s (s.writeBlock b cells) := by
  unfold State.writeBlock
  split
  · exact HomeOnly.of_mem s _ s.l2 s.stale s.poison s.ecc s.free fun f => ⟨Memory.writes_wf cells f.1, f.2.2.1, f.2.2.2⟩
  · exact HomeOnly.of_mem s _ s.l2 s.stale s.poison s.ecc s.free fun f => ⟨windowEncode_wf f.1 _ _ _, f.2.2.1, f.2.2.2⟩

/-- Dirty bytes go back to pool memory. -/
theorem State.writeBack_homeOnly (s : State) (out : Overlay) : HomeOnly s (s.writeBack out) :=
  HomeOnly.foldl _ (fun s b => State.writeBlock_homeOnly s b _) _ _

theorem State.evict_homeOnly (s : State) (a n : Nat) : HomeOnly s (s.evict a n) :=
  HomeOnly.trans (HomeOnly.of_l2 s _ _ _ fun f => ⟨Overlay.filter_wf f.2.2.1 _, Overlay.filter_wf f.2.2.2 _⟩) (State.writeBack_homeOnly ..)

theorem State.keepSectors_homeOnly (l : List Nat) (s : State) : HomeOnly s (s.keepSectors l) := by
  induction l generalizing s with
  | nil => exact .refl s
  | cons p t ih =>
    rw [State.keepSectors]
    refine HomeOnly.trans ?_ (ih _)
    split
    · exact HomeOnly.of_mem s s.mem _ s.stale s.poison s.ecc s.free fun f => ⟨f.1, Overlay.setBytes_wf f.2.2.1 _ _, f.2.2.2⟩
    · split
      · exact HomeOnly.of_mem s s.mem s.l2 _ s.poison s.ecc s.free fun f => ⟨f.1, f.2.2.1, Overlay.setBytes_wf f.2.2.2 _ _⟩
      · exact .refl s

theorem State.nextFree_homeOnly (s : State) : HomeOnly s { s with free := s.free + 1 } :=
  HomeOnly.of_mem s s.mem s.l2 s.stale s.poison s.ecc _ fun f => ⟨f.1, f.2.2.1, f.2.2.2⟩

theorem State.meetStore_homeOnly (s : State) (pa n : Nat) : HomeOnly s (s.meetStore pa n) := by
  unfold State.meetStore
  dsimp only
  refine HomeOnly.trans (State.nextFree_homeOnly s) ?_
  split
  · exact State.evict_homeOnly _ _ _
  · exact State.keepSectors_homeOnly _ _

theorem State.meet_homeOnly (s : State) (t : Target) (n : Nat) : HomeOnly s (s.meet t n) := by
  cases t with
  | pool pa pol =>
    cases pol <;> unfold State.meet <;> dsimp only <;> split <;> first
      | exact .refl s
      | exact State.allocate_homeOnly s pa n
      | (refine HomeOnly.trans (State.nextFree_homeOnly s) ?_
         split
         · exact State.evict_homeOnly _ _ _
         · exact .refl _)
      | (refine HomeOnly.trans (State.allocate_homeOnly s pa n) (HomeOnly.trans (State.nextFree_homeOnly _) ?_)
         split
         · exact HomeOnly.of_mem _ _ _ _ _ _ _ fun f => ⟨f.1, f.2.2.1, Overlay.filter_wf f.2.2.2 _⟩
         · exact .refl _)
  | _ =>
    unfold State.meet
    dsimp only
    split
    · exact .refl s
    · exact State.nextFree_homeOnly s

/-- A write at a home. -/
theorem State.homeWrite_homeOnly (s : State) (t : Target) (bs : List Byte) : HomeOnly s (s.homeWrite t bs) := by
  unfold State.homeWrite
  dsimp only
  split
  · exact .refl s
  · split
    · exact (((HomeOnly.of_l2 s _ s.stale s.resident fun f => ⟨Overlay.setBytes_wf f.2.2.1 _ _, f.2.2.2⟩).trans
        (State.allocate_homeOnly ..)).trans (State.clearPoison_homeOnly ..)).trans (State.wakeLines_homeOnly ..)
    · exact (((State.meetStore_homeOnly ..).trans (State.poolWrite_homeOnly ..)).trans (State.clearPoison_homeOnly ..)).trans
        (State.wakeLines_homeOnly ..)
    · refine HomeOnly.trans (HomeOnly.trans (HomeOnly.of_mem s _ s.l2 s.stale s.poison s.ecc s.free fun f =>
        ⟨Memory.writeBytes_wf f.1 _ _, f.2.2.1, f.2.2.2⟩) (State.clearPoison_homeOnly ..)) (State.wakeLines_homeOnly ..)
    · refine HomeOnly.trans (HomeOnly.trans (HomeOnly.of_mem s _ s.l2 s.stale s.poison s.ecc s.free fun f =>
        ⟨Memory.writeBytes_wf f.1 _ _, f.2.2.1, f.2.2.2⟩) (State.clearPoison_homeOnly ..)) (State.wakeLines_homeOnly ..)
    · split
      · exact State.writeTctl_homeOnly ..
      · exact .refl s
    · exact .refl s

theorem State.homeSetLE_homeOnly (s : State) (pa n v : Nat) : HomeOnly s (s.homeSetLE pa n v) := by
  unfold State.homeSetLE
  split
  · exact State.homeWrite_homeOnly ..
  · exact .refl s

theorem State.publish_homeOnly (o : Overlay) (s : State) : HomeOnly s (s.publish o) := by
  induction o generalizing s with
  | nil => exact .refl s
  | cons c t ih =>
    obtain ⟨a, b⟩ := c
    rw [State.publish]
    exact HomeOnly.trans (HomeOnly.of_mem s s.mem _ s.stale s.poison s.ecc s.free fun f => ⟨f.1, Overlay.set_wf f.2.2.1 _ _, f.2.2.2⟩)
      (ih _)

/-- A change of the queues alone. -/
theorem HomeOnly.of_queues {s t : State} (h : t = { s with queues := t.queues }) : HomeOnly s t := by
  refine ⟨?_, ?_⟩
  · rw [h]
  · intro f; rw [h]; exact f

/-- A free choice. -/
theorem State.pick_homeOnly (s : State) (n : Nat) : HomeOnly s (s.pick n).2 := State.nextFree_homeOnly s

/-- A queue descriptor's CFG has been written (R203). -/
theorem State.noteCfg_homeOnly (s : State) (pa : Nat) : HomeOnly s (s.noteCfg pa) := by
  unfold State.noteCfg
  dsimp only
  split
  · exact .of_queues rfl
  · split
    · exact (State.pick_homeOnly s _).trans (.of_queues rfl)
    · exact .refl s

theorem State.noteWrite_homeOnly (s : State) (t : Target) (pa n : Nat) : HomeOnly s (s.noteWrite t pa n) := by
  unfold State.noteWrite
  split
  · exact .refl s
  · exact .refl s
  · refine HomeOnly.foldl _ (fun s i => ?_) _ _
    dsimp only
    split
    · exact State.noteCfg_homeOnly ..
    · exact .refl s

/-- A write at a home by a core. -/
theorem State.coreWrite_homeOnly (s : State) (k : CoreId) (t : Target) (bs : List Byte) : HomeOnly s (s.coreWrite k t bs) := by
  unfold State.coreWrite
  dsimp only
  split
  · exact (State.homeWrite_homeOnly s t bs).trans (State.noteWrite_homeOnly ..)
  · exact State.homeWrite_homeOnly s t bs

/-- A commit (R117). -/
theorem State.commit_homeOnly (s : State) (k : CoreId) : HomeOnly s (s.commit k) := by
  unfold State.commit
  dsimp only
  split
  · exact .refl s
  · have a := HomeOnly.trans (State.publish_homeOnly (s.core k).version s)
      (HomeOnly.foldl (fun s l => s.allocate (128 * l) 128) (fun s l => State.allocate_homeOnly s _ _) (s.core k).version.lines _)
    generalize (s.core k).version.lines.foldl (fun s l => s.allocate (128 * l) 128) (s.publish (s.core k).version) = u at a ⊢
    have h := a.trans (HomeOnly.of_mem u u.mem u.l2 u.stale
        (u.poison.filter fun p => !(u.core k).whole.contains p) (u.ecc.filter fun p => !(u.core k).whole.contains p.1)
        u.free fun f => ⟨f.1, f.2.2.1, f.2.2.2⟩)
    have g := h.trans (HomeOnly.foldl (fun s l => s.wakeLines (128 * l) 128) (fun s l => State.wakeLines_homeOnly s _ _) (s.core k).version.lines _)
    refine HomeOnly.trans (HomeOnly.trans g ?_) (State.modCore_homeOnly ..)
    split
    · exact HomeOnly.foldl _ (fun s c => State.noteCfg_homeOnly s _) _ _
    · exact .refl _

/-- A post to a signal word (R118). -/
theorem State.post_homeOnly (s : State) (t : Target) (a : BitVec 24) : HomeOnly s (s.post t a) := by
  unfold State.post
  exact (State.meet_homeOnly s t 8).trans (State.homeWrite_homeOnly ..)

/-- A store into the core's own version (R116). -/
theorem State.versionWrite_homeOnly (s : State) (k : CoreId) (pa : Nat) (bs : List Byte) : HomeOnly s (s.versionWrite k pa bs) := by
  have full : ∀ (u : State) (f : Core → Core), HomeOnly u (((u.commit k).escape k).modCore k f) := fun u f =>
    ((State.commit_homeOnly u k).trans (State.escape_homeOnly _ k)).trans (State.modCore_homeOnly _ k f)
  unfold State.versionWrite
  dsimp only
  split <;> split
  · exact (State.nextFree_homeOnly s).trans (full _ _)
  · exact full s _
  · exact (State.nextFree_homeOnly s).trans (State.modCore_homeOnly _ k _)
  · exact State.modCore_homeOnly s k _

theorem State.multicast_homeOnly (s : State) (a : Agent) (g : BitVec 8) (off : Nat) (bs : List Byte) :
    HomeOnly s (s.multicast a g off bs).1 := by
  unfold State.multicast
  exact HomeOnly.foldl _ (fun s p => (State.usePorts_homeOnly s _ _).trans (State.homeWrite_homeOnly _ _ _)) _ _

/-- A performed store (R116, R120). -/
theorem State.performStore_homeOnly (s : State) (k : CoreId) (q : Seq) (n : BitVec 24) (pc : VA) (t : Target) (bs : List Byte) :
    HomeOnly s (s.performStore k q n pc t bs) := by
  unfold State.performStore
  split
  · dsimp only
    split
    · exact (State.versionWrite_homeOnly ..).trans (State.defer_homeOnly ..)
    · exact State.versionWrite_homeOnly ..
  · split
    · exact (State.escape_homeOnly ..).trans (State.defer_homeOnly ..)
    · exact (State.coreWrite_homeOnly ..).trans (State.escape_homeOnly ..)
  · dsimp only
    split
    · exact State.coreWrite_homeOnly ..
    · exact (State.coreWrite_homeOnly ..).trans (State.escape_homeOnly ..)
  · exact ((State.commit_homeOnly ..).trans (State.homeWrite_homeOnly ..)).trans (State.escape_homeOnly ..)
  · exact ((State.commit_homeOnly ..).trans (State.homeWrite_homeOnly ..)).trans (State.escape_homeOnly ..)
  · dsimp only
    rename_i g off
    have h := ((State.commit_homeOnly s k).trans (State.multicast_homeOnly (s.commit k) ((s.commit k).agent k) g off bs)).trans (State.escape_homeOnly _ k)
    split
    · exact h.trans (State.setFlags_homeOnly ..)
    · exact h

/-- A copy of a multicast store reaches one member. -/
theorem State.storeMember_homeOnly (s : State) (k : CoreId) (m : NodeId × CoreId) (off : Nat) (bs : List Byte) :
    HomeOnly s (s.storeMember k m off bs) := by
  unfold State.storeMember
  split
  · exact (State.usePorts_homeOnly ..).trans (State.homeWrite_homeOnly ..)
  · exact State.setFlags_homeOnly ..

theorem State.storeRest_homeOnly (s : State) (k : CoreId) (t : Target) (p : PendingStore) : HomeOnly s (s.storeRest k t p) := by
  unfold State.storeRest
  split
  · exact HomeOnly.foldl _ (fun s m => State.storeMember_homeOnly s k m _ _) _ _
  · exact .refl s

/-- The oldest pending store of a sequencer is performed. -/
theorem State.storeStep_homeOnly (s : State) (k : CoreId) (q : Seq) : HomeOnly s (s.storeStep k q) := by
  unfold State.storeStep
  split
  · exact .refl s
  · dsimp only
    rename_i p rest _
    refine HomeOnly.trans (State.modSeq_homeOnly s k q fun r => r.performed p rest) ?_
    split
    · split
      · exact State.storeRest_homeOnly ..
      · exact State.performStore_homeOnly ..
    · exact State.defer_homeOnly ..

theorem State.drainStores_homeOnly (n : Nat) (s : State) (k : CoreId) (q : Seq) : HomeOnly s (s.drainStores n k q) := by
  induction n generalizing s with
  | zero => exact .refl s
  | succ n ih => rw [State.drainStores]; exact (State.storeStep_homeOnly ..).trans (ih _)

/-- Every pending store of a sequencer is performed. -/
theorem State.settle_homeOnly (s : State) (k : CoreId) (q : Seq) : HomeOnly s (s.settle k q) := State.drainStores_homeOnly ..

/-- A post is made, or held (R230). -/
theorem State.postOrHold_homeOnly (s : State) (pa : Nat) (pol : Policy) (t : Target) (a : BitVec 24) : HomeOnly s (s.postOrHold pa pol t a) := by
  unfold State.postOrHold
  split
  · exact ⟨rfl, id⟩
  · exact State.post_homeOnly ..

/-- A signal through an event slot (R37). -/
theorem State.signalSlot_homeOnly (s : State) (k : CoreId) (e : EventSlot) : HomeOnly s (s.signalSlot k e) := by
  unfold State.signalSlot
  split
  · exact State.setFlags_homeOnly ..
  · dsimp only
    refine HomeOnly.trans ((State.commit_homeOnly s k).trans (State.escape_homeOnly (s.commit k) k)) ?_
    split
    · exact (State.chargeFt_homeOnly ..).trans (State.postOrHold_homeOnly ..)
    · exact .refl _

/-! ### What a write at a bank answers -/

@[simp] theorem State.homeWrite_bank_mem (s : State) (b : CoreId) (off : Nat) (bs : List Byte) :
    (s.homeWrite (.bank b off) bs).mem = s.mem.writeBytes (bankKey b off) bs := by
  unfold State.homeWrite
  dsimp only
  split
  · rename_i h
    rw [List.length_eq_zero_iff.1 h]
    rfl
  · rfl

@[simp] theorem State.homeWrite_bank_l2 (s : State) (b : CoreId) (off : Nat) (bs : List Byte) :
    (s.homeWrite (.bank b off) bs).l2 = s.l2 := by
  unfold State.homeWrite
  dsimp only
  split <;> rfl

/-- A word written to a bank reads back, and every byte outside it reads as before. -/
theorem State.homeWrite_bank_reads {s : State} (h : s.MemoryForm) (b : CoreId) (off : Nat) (bs : List Byte) :
    (s.homeWrite (.bank b off) bs).mem.readBytes (bankKey b off) bs.length = bs
      ∧ ∀ a, a < bankKey b off ∨ bankKey b off + bs.length ≤ a → (s.homeWrite (.bank b off) bs).mem.read a = s.mem.read a := by
  rw [State.homeWrite_bank_mem]
  exact ⟨Memory.readBytes_writeBytes h.1 _ _, fun a ha => Memory.read_writeBytes_outside h.1 _ _ _ ha⟩

/-! ### Taking a trap (R299, R301) -/

/-- A trap changes the cores and the trap queue of one die, and keeps the form of memory. -/
theorem State.takeTrapAt_rest (s : State) (k : CoreId) (q : Seq) (t : TrapInfo) (pc resume : VA) :
    s.takeTrapAt k q t pc resume = { s with cores := (s.takeTrapAt k q t pc resume).cores, dies := (s.takeTrapAt k q t pc resume).dies } := by
  unfold State.takeTrapAt
  dsimp only
  split <;> rfl

theorem State.takeTrap_rest (s : State) (k : CoreId) (q : Seq) (t : TrapInfo) :
    s.takeTrap k q t = { s with cores := (s.takeTrap k q t).cores, dies := (s.takeTrap k q t).dies } :=
  State.takeTrapAt_rest ..

theorem State.takeTrap_form {s : State} (h : s.MemoryForm) (k : CoreId) (q : Seq) (t : TrapInfo) : (s.takeTrap k q t).MemoryForm := by
  rw [State.takeTrap_rest]
  exact h

end Sys2Proof.Machine
end

