-- ==== Sys2Proof/Laws/Words.lean ====
section
/-! SUPPORT. What issuing a word does (Machine/Words.lean), said once: the outcomes of `runWord`, and that a word whose body is
performed changes, beside its own effect, only what `OnlyIssue` and `Advanced` name. -/

namespace Sys2Proof.Machine

/-! ### OnlyIssue is an order -/

theorem OnlyIssue.refl (k : CoreId) (q : Seq) (s : State) : OnlyIssue k q s s := by constructor <;> intros <;> rfl

theorem OnlyIssue.trans {k : CoreId} {q : Seq} {a b c : State} (h : OnlyIssue k q a b) (g : OnlyIssue k q b c) :
    OnlyIssue k q a c where
  rest := by have := g.rest; rw [h.rest] at this; exact this
  others j hj := (g.others j hj).trans (h.others j hj)
  core := by have := g.core; rw [h.core] at this; exact this
  ctx := by have := g.ctx; rw [h.ctx] at this; exact this
  seqs p hp := (g.seqs p hp).trans (h.seqs p hp)
  kept := by have := g.kept; rw [h.kept] at this; exact this
  regs := by have := g.regs; rw [h.regs] at this; exact this

/-- A change of FI, tokens and sticky bits. -/
theorem OnlyIssue.modRegs {k : CoreId} (q : Seq) (s : State) (f : Regs → Regs)
    (h : ∀ r, f r = { r with fi := (f r).fi, tok := (f r).tok, rsv := (f r).rsv, wflags := (f r).wflags, wfNow := (f r).wfNow }) :
    OnlyIssue k q s (s.modRegs k f) where
  rest := rfl
  others j hj := s.core_modRegs_ne f hj
  core := by simp [State.core_modRegs, State.ctx_modRegs]
  ctx := by simp [State.ctx_modRegs]
  seqs p _ := by simp
  kept := by simp
  regs := by simpa using h (s.regs k)

/-- A change of where the sequencer stands, of its counts and its stack. -/
theorem OnlyIssue.modSeq {k : CoreId} {q : Seq} (s : State) (f : Seqr → Seqr)
    (h : ∀ r, f r = { f r with preds := r.preds, bt := r.bt, btAt := r.btAt, ln := r.ln, stopped := r.stopped,
                               restart := r.restart, stores := r.stores, late := r.late, mark := r.mark, hold := r.hold, started := r.started }) :
    OnlyIssue k q s (s.modSeq k q f) where
  rest := rfl
  others j hj := s.core_modSeq_ne q f hj
  core := by simp [State.core_modSeq, State.ctx_modSeq]
  ctx := by cases q <;> simp [State.ctx_modSeq, Ctx.setSeq, State.regs]
  seqs p hp := s.seq_modSeq_ne k f hp
  kept := by simpa using h (s.seq k q)
  regs := by simp

theorem OnlyIssue.preempt {k : CoreId} (q : Seq) (s : State) (o : Option (BitVec 8) → Option (BitVec 8)) :
    OnlyIssue k q s (s.modCore k fun c => { c with preempt := o c.preempt }) where
  rest := rfl
  others j hj := s.core_modCore_ne _ hj
  core := by simp [State.ctx]
  ctx := by simp [State.ctx, State.regs]
  seqs p _ := by simp [State.seq, State.ctx]
  kept := by simp [State.seq, State.ctx]
  regs := by simp [State.regs, State.ctx]

theorem OnlyIssue.enqueue (k : CoreId) (q : Seq) (s : State) (i : Instr) (a : EvArg) : OnlyIssue k q s (s.enqueue i a) := by
  constructor <;> intros <;> rfl

/-! ### The parts of a completion -/

theorem State.setFlags_onlyIssue (s : State) (k : CoreId) (q : Seq) (b : BitVec 32) : OnlyIssue k q s (s.setFlags k b) := by
  unfold State.setFlags
  split
  · exact .refl ..
  · exact .modRegs q s _ fun _ => rfl

@[simp] theorem State.seq_setFlags (s : State) (k : CoreId) (q : Seq) (b : BitVec 32) : (s.setFlags k b).seq k q = s.seq k q := by
  unfold State.setFlags; split <;> simp

@[simp] theorem State.setFlags_fi (s : State) (k : CoreId) (b : BitVec 32) : ((s.setFlags k b).regs k).fi = (s.regs k).fi := by
  unfold State.setFlags; split <;> simp

theorem State.chargeFi_onlyIssue (s : State) (k : CoreId) (q : Seq) (n : Nat) : OnlyIssue k q s (s.chargeFi k n) := by
  unfold State.chargeFi
  split
  · exact .refl ..
  · have h : OnlyIssue k q s (s.modRegs k fun r => { r with fi := satLow ((s.regs k).fi - n) }) := .modRegs q s _ fun _ => rfl
    dsimp only
    split
    · exact h.trans (.preempt q _ fun o => askPreempt o 0x20)
    · exact h

@[simp] theorem State.seq_chargeFi (s : State) (k : CoreId) (q : Seq) (n : Nat) : (s.chargeFi k n).seq k q = s.seq k q := by
  unfold State.chargeFi
  split
  · rfl
  · dsimp only; split <;> simp [State.seq, State.ctx, State.core_modRegs] <;> cases q <;> rfl

theorem State.chargeFi_fi (s : State) (k : CoreId) (n : Nat) :
    ((s.chargeFi k n).regs k).fi = if n = 0 then (s.regs k).fi else max ((s.regs k).fi - n) (-2147483648) := by
  unfold State.chargeFi
  split
  · rfl
  · dsimp only
    split <;> simp [State.regs, State.ctx, State.core_modRegs, satLow]

theorem State.trialCount_onlyIssue (s : State) (k : CoreId) (q : Seq) (pc : VA) : OnlyIssue k q s (s.trialCount k q pc) := by
  unfold State.trialCount
  split
  · exact .refl ..
  · split
    · exact .refl ..
    · dsimp only
      split
      · exact (OnlyIssue.modSeq s _ fun _ => rfl).trans (.enqueue ..)
      · exact .modSeq s _ fun _ => rfl

theorem State.seq_trialCount (s : State) (k : CoreId) (q : Seq) (pc : VA) :
    (s.trialCount k q pc).seq k q = { s.seq k q with trialCount := ((s.trialCount k q pc).seq k q).trialCount } := by
  unfold State.trialCount
  split
  · rfl
  · split
    · rfl
    · dsimp only
      split <;> simp

@[simp] theorem State.regs_trialCount (s : State) (k : CoreId) (q : Seq) (pc : VA) : (s.trialCount k q pc).regs k = s.regs k := by
  unfold State.trialCount
  split
  · rfl
  · split
    · rfl
    · dsimp only
      split <;> simp

/-- Where a word goes on. -/
def Go.pc (g : Go) (pc : VA) : VA := match g.jump with | some (t, _) => t | none => pc + 2

theorem State.complete_onlyIssue (s : State) (k : CoreId) (q : Seq) (n : Nat) (out : List W64) (enc : Word16) (go : Go) :
    OnlyIssue k q s (s.complete k q n out enc go) := by
  unfold State.complete
  dsimp only
  exact (s.chargeFi_onlyIssue k q ((s.seq k q).owes go.cost)).trans ((State.trialCount_onlyIssue ..).trans (.modSeq _ _ fun _ => rfl))

theorem State.complete_advanced (s : State) (k : CoreId) (q : Seq) (n : Nat) (out : List W64) (enc : Word16) (go : Go)
    (hr : go.run = .running) :
    Advanced k q s (s.complete k q n out enc go) n out (go.pc (s.seq k q).pc) go.cost := by
  have hs : ∀ u : State, u.seq k q = s.seq k q →
      ((u.trialCount k q (s.seq k q).pc).modSeq k q fun r => r.advance n out enc go.jump go.run).seq k q =
        ({ s.seq k q with trialCount := ((u.trialCount k q (s.seq k q).pc).seq k q).trialCount } : Seqr).advance n out enc go.jump go.run := by
    intro u hu
    rw [State.seq_modSeq, State.seq_trialCount, hu]
  have h : (s.complete k q n out enc go).seq k q =
      ({ s.seq k q with trialCount :=
          (((s.chargeFi k ((s.seq k q).owes go.cost)).trialCount k q (s.seq k q).pc).seq k q).trialCount } : Seqr).advance
        n out enc go.jump go.run := by
    unfold State.complete
    exact hs _ (by simp)
  constructor
  · rw [h]; rfl
  · rw [h]; unfold Seqr.advance Go.pc; dsimp only; cases go.jump <;> rfl
  · rw [h]; exact hr
  · rw [h]; rfl
  · rw [h]; exact ⟨rfl, rfl⟩
  · rw [h]; exact ⟨rfl, rfl⟩
  · unfold State.complete
    dsimp only
    rw [State.regs_modSeq, State.regs_trialCount, State.chargeFi_fi]

/-! ### Tokens and events of a word that takes no EVENT prefix -/

theorem resolvePx_noEvent (q : Seq) (m : Bool) (a : Accept) (l : List Pfx) (h : a.event = false) :
    (resolvePx q m a l).wait = none ∧ (resolvePx q m a l).signal = none := by
  simp [resolvePx, h]

theorem tokPop_keeps (l : List (Fin 6 × Nat)) (r : Regs) : r.tokPop l = { r with tok := (r.tokPop l).tok } := by
  induction l generalizing r with
  | nil => rfl
  | cons p t ih => simp only [Regs.tokPop, List.foldl_cons] at ih ⊢; rw [ih]

theorem tokReserve_keeps (l : List (Fin 6 × Nat)) (r : Regs) : r.tokReserve l = { r with rsv := (r.tokReserve l).rsv } := by
  induction l generalizing r with
  | nil => rfl
  | cons p t ih => simp only [Regs.tokReserve, List.foldl_cons] at ih ⊢; rw [ih]

/-- What pushing tokens at a completion changes. -/
theorem State.finish_pushes (s : State) (k : CoreId) (q : Seq) (l : List (Fin 6 × Nat)) :
    OnlyIssue k q s (s.finish k { push := l, sig := [], unbound := false })
      ∧ (s.finish k { push := l, sig := [], unbound := false }).seq k q = s.seq k q
      ∧ ((s.finish k { push := l, sig := [], unbound := false }).regs k).fi = (s.regs k).fi := by
  simp only [State.finish, List.foldl_nil, Bool.false_eq_true, if_false]
  induction l generalizing s with
  | nil => exact ⟨.refl .., rfl, rfl⟩
  | cons p t ih =>
    obtain ⟨h1, h2, h3⟩ := ih (s.modRegs k fun r =>
      { r with tok := vput r.tok p.1 (r.tok[p.1.val] + p.2), rsv := vput r.rsv p.1 (r.rsv[p.1.val] - p.2) })
    refine ⟨(OnlyIssue.modRegs q s _ fun _ => rfl).trans h1, ?_, ?_⟩
    · rw [List.foldl_cons, h2]; simp
    · rw [List.foldl_cons, h3]; simp

/-- The tokens of a word without an EVENT prefix in force: only token counters change. -/
theorem State.syncDone_tokens (s : State) (k : CoreId) (q : Seq) (px : Px) (l : List (Fin 6 × Nat)) (d : Bool) (h : px.wait = none) :
    let t := s.syncDone k px { push := l, sig := [], unbound := false } d
    OnlyIssue k q s t ∧ t.seq k q = s.seq k q ∧ (t.regs k).fi = (s.regs k).fi := by
  have hf : ∀ r : Regs, (r.tokPop px.pops).tokReserve px.pushes =
      { r with tok := ((r.tokPop px.pops).tokReserve px.pushes).tok, rsv := ((r.tokPop px.pops).tokReserve px.pushes).rsv } := by
    intro r
    rw [tokReserve_keeps, tokPop_keeps]
  have h1 : OnlyIssue k q s (s.modRegs k fun r => (r.tokPop px.pops).tokReserve px.pushes) :=
    .modRegs q s _ fun r => by rw [hf r]
  have h3 : ((s.modRegs k fun r => (r.tokPop px.pops).tokReserve px.pushes).regs k).fi = (s.regs k).fi := by
    rw [State.regs_modRegs, hf]
  simp only [State.syncDone, h]
  cases d
  · obtain ⟨g1, g2, g3⟩ := (s.modRegs k fun r => (r.tokPop px.pops).tokReserve px.pushes).finish_pushes k q l
    exact ⟨h1.trans g1, by simp [g2], by simp only [Bool.false_eq_true, if_false]; rw [g3, h3]⟩
  · exact ⟨h1, by simp, by simpa using h3⟩

/-! ### Sticky bits, tokens, pre-emption and what is due -/

/-- b has the sticky bits `fl` more than a, the same pre-emption, trial and events, and, where no token moves, the same tokens. -/
structure Sticky (k : CoreId) (px : Px) (a b : State) (fl : BitVec 32) : Prop where
  flags : (b.regs k).wflags = (a.regs k).wflags ||| fl
  tokens : px.pops = [] → px.pushes = [] → (b.regs k).tok = (a.regs k).tok ∧ (b.regs k).rsv = (a.regs k).rsv
  preempt : (b.core k).preempt = (a.core k).preempt
  trial : (b.core k).trial = (a.core k).trial
  due : b.events = a.events

theorem Sticky.trans {k : CoreId} {px : Px} {a b c : State} {f g : BitVec 32} (h : Sticky k px a b f) (h' : Sticky k px b c g) :
    Sticky k px a c (f ||| g) where
  flags := by rw [h'.flags, h.flags, BitVec.or_assoc]
  tokens p q := ⟨(h'.tokens p q).1.trans (h.tokens p q).1, (h'.tokens p q).2.trans (h.tokens p q).2⟩
  preempt := h'.preempt.trans h.preempt
  trial := h'.trial.trans h.trial
  due := h'.due.trans h.due

theorem State.setFlags_sticky (s : State) (k : CoreId) (px : Px) (b : BitVec 32) : Sticky k px s (s.setFlags k b) b := by
  unfold State.setFlags
  split
  · rename_i h; subst h; exact ⟨by simp, fun _ _ => ⟨rfl, rfl⟩, rfl, rfl, rfl⟩
  · exact ⟨by simp, fun _ _ => ⟨by simp, by simp⟩, by simp [State.core_modRegs], by simp [State.core_modRegs], rfl⟩

theorem Sticky.modRegs {k : CoreId} {px : Px} (s : State) (f : Regs → Regs) (h : ∀ r, (f r).wflags = r.wflags)
    (ht : px.pops = [] → px.pushes = [] → ∀ r, (f r).tok = r.tok ∧ (f r).rsv = r.rsv) : Sticky k px s (s.modRegs k f) 0 :=
  ⟨by simp [h], fun p q => by simpa using ht p q _, by simp [State.core_modRegs], by simp [State.core_modRegs], rfl⟩

/-- The tokens of a word. -/
theorem State.tokens_sticky (s : State) (k : CoreId) (px : Px) :
    Sticky k px s (s.modRegs k fun r => (r.tokPop px.pops).tokReserve px.pushes) 0 := by
  refine .modRegs s _ (fun r => ?_) fun p q r => ?_
  · rw [tokReserve_keeps, tokPop_keeps]
  · simp [p, q, Regs.tokPop, Regs.tokReserve]

theorem State.finish_sticky (s : State) (k : CoreId) (px : Px) :
    Sticky k px s (s.finish k { push := px.pushes, sig := [], unbound := false }) 0 := by
  simp only [State.finish, List.foldl_nil, Bool.false_eq_true, if_false]
  suffices h : ∀ l : List (Fin 6 × Nat), (px.pushes = [] → l = []) → ∀ s : State, Sticky k px s (l.foldl (fun s p => s.modRegs k fun r =>
      { r with tok := vput r.tok p.1 (r.tok[p.1.val] + p.2), rsv := vput r.rsv p.1 (r.rsv[p.1.val] - p.2) }) s) 0 from h _ id s
  intro l
  induction l with
  | nil => intro _ s; exact ⟨by simp, fun _ _ => ⟨rfl, rfl⟩, rfl, rfl, rfl⟩
  | cons p t ih =>
    intro hl s
    have h1 : Sticky k px s (s.modRegs k fun r =>
        { r with tok := vput r.tok p.1 (r.tok[p.1.val] + p.2), rsv := vput r.rsv p.1 (r.rsv[p.1.val] - p.2) }) 0 :=
      .modRegs s _ (fun _ => rfl) fun _ q => absurd (hl q) (by simp)
    simpa using h1.trans (ih (fun q => absurd (hl q) (by simp)) _)

/-- What completing a word adds. -/
theorem State.complete_marks (s : State) (k : CoreId) (q : Seq) (n : Nat) (out : List W64) (enc : Word16) (go : Go) :
    let t := s.complete k q n out enc go
    (t.regs k).wflags = (s.regs k).wflags ∧ (t.regs k).tok = (s.regs k).tok ∧ (t.regs k).rsv = (s.regs k).rsv
      ∧ ((t.core k).preempt = (s.core k).preempt ∨ (t.regs k).fi ≤ -4096) ∧ (t.events = s.events ∨ (s.core k).trial.isSome) := by
  have ht : ∀ (u : State) (pc : VA), ((u.trialCount k q pc).core k).preempt = (u.core k).preempt
      ∧ ((u.trialCount k q pc).events = u.events ∨ (u.core k).trial.isSome) := by
    intro u pc
    unfold State.trialCount
    split
    · exact ⟨rfl, .inl rfl⟩
    · rename_i h
      split
      · exact ⟨rfl, .inl rfl⟩
      · refine ⟨?_, .inr (by simp [h])⟩
        dsimp only
        split <;> simp [State.core_modSeq]
  generalize hn : (s.seq k q).owes go.cost = c
  have hc : ((s.chargeFi k c).regs k).wflags = (s.regs k).wflags ∧ ((s.chargeFi k c).regs k).tok = (s.regs k).tok
      ∧ ((s.chargeFi k c).regs k).rsv = (s.regs k).rsv
      ∧ (((s.chargeFi k c).core k).preempt = (s.core k).preempt ∨ ((s.chargeFi k c).regs k).fi ≤ -4096)
      ∧ (s.chargeFi k c).events = s.events ∧ ((s.chargeFi k c).core k).trial = (s.core k).trial := by
    unfold State.chargeFi
    split
    · exact ⟨rfl, rfl, rfl, .inl rfl, rfl, rfl⟩
    · dsimp only
      split
      · rename_i h
        refine ⟨by simp [State.regs, State.ctx, State.core_modRegs], by simp [State.regs, State.ctx, State.core_modRegs],
          by simp [State.regs, State.ctx, State.core_modRegs], .inr ?_, rfl, by simp [State.core_modRegs]⟩
        simpa [State.regs, State.ctx, State.core_modRegs] using h
      · exact ⟨by simp, by simp, by simp, .inl (by simp [State.core_modRegs]), rfl, by simp [State.core_modRegs]⟩
  unfold State.complete
  dsimp only
  simp only [State.regs_modSeq, State.regs_trialCount, State.core_modSeq, hn]
  obtain ⟨a, b⟩ := ht (s.chargeFi k c) (s.seq k q).pc
  refine ⟨hc.1, hc.2.1, hc.2.2.1, ?_, ?_⟩
  · rcases hc.2.2.2.1 with h | h
    · exact .inl (a.trans h)
    · exact .inr h
  · rw [hc.2.2.2.2.1] at b; rw [hc.2.2.2.2.2] at b; exact b

/-! ### Errors of registers -/

@[simp] theorem State.regEcc_modRegs (s : State) (k : CoreId) (f : Regs → Regs) :
    ((s.modRegs k f).ctx k).regEcc = (s.ctx k).regEcc := by simp [State.ctx_modRegs]

@[simp] theorem State.regEcc_modSeq (s : State) (k : CoreId) (q : Seq) (f : Seqr → Seqr) :
    ((s.modSeq k q f).ctx k).regEcc = (s.ctx k).regEcc := by cases q <;> simp [State.ctx_modSeq, Ctx.setSeq]

@[simp] theorem State.regEcc_setFlags (s : State) (k : CoreId) (b : BitVec 32) :
    ((s.setFlags k b).ctx k).regEcc = (s.ctx k).regEcc := by
  unfold State.setFlags; split <;> simp

@[simp] theorem State.regEcc_chargeFi (s : State) (k : CoreId) (n : Nat) :
    ((s.chargeFi k n).ctx k).regEcc = (s.ctx k).regEcc := by
  unfold State.chargeFi
  split
  · rfl
  · dsimp only; split <;> simp [State.ctx, State.core_modRegs]

@[simp] theorem State.regEcc_trialCount (s : State) (k : CoreId) (q : Seq) (pc : VA) :
    ((s.trialCount k q pc).ctx k).regEcc = (s.ctx k).regEcc := by
  unfold State.trialCount
  split
  · rfl
  · split
    · rfl
    · dsimp only
      split
      · rw [State.ctx_enqueue]; exact State.regEcc_modSeq ..
      · exact State.regEcc_modSeq ..

@[simp] theorem State.regEcc_complete (s : State) (k : CoreId) (q : Seq) (n : Nat) (out : List W64) (enc : Word16) (go : Go) :
    ((s.complete k q n out enc go).ctx k).regEcc = (s.ctx k).regEcc := by
  unfold State.complete
  dsimp only
  rw [State.regEcc_modSeq, State.regEcc_trialCount, State.regEcc_chargeFi]

@[simp] theorem State.regEcc_slotPass (s : State) (k : CoreId) (n : Fin 16) :
    ((s.slotPass k n).ctx k).regEcc = (s.ctx k).regEcc := by
  unfold State.slotPass State.bindingPass
  split <;> simp

@[simp] theorem State.regEcc_passed (s : State) (k : CoreId) (n : Option (Fin 16)) :
    ((s.passed k n).ctx k).regEcc = (s.ctx k).regEcc := by
  unfold State.passed; cases n <;> simp

@[simp] theorem State.regEcc_finish (s : State) (k : CoreId) (l : List (Fin 6 × Nat)) :
    ((s.finish k { push := l, sig := [], unbound := false }).ctx k).regEcc = (s.ctx k).regEcc := by
  simp only [State.finish, List.foldl_nil, Bool.false_eq_true, if_false]
  induction l generalizing s with
  | nil => rfl
  | cons p t ih => rw [List.foldl_cons, ih]; simp

/-- What a word has written has no error any more; nothing else changes. -/
theorem State.wrote_onlyIssue (s : State) (k : CoreId) (q p : Seq) (n : Nat) (i : Instr) : OnlyIssue k p s (s.wrote k q n i) := by
  unfold State.wrote
  constructor
  · rfl
  · intro j hj; exact s.core_modCtx_ne _ hj
  · simp [State.core_modCtx]
  · simp [State.regs, Ctx.regDrop]
  · intro p _; simp only [State.seq, State.ctx_modCtx]; cases p <;> rfl
  · simp only [State.seq, State.ctx_modCtx]; cases p <;> rfl
  · simp [State.regs, Ctx.regDrop]

@[simp] theorem State.seq_wrote (s : State) (k : CoreId) (q p : Seq) (n : Nat) (i : Instr) : (s.wrote k q n i).seq k p = s.seq k p := by
  simp only [State.wrote, State.seq, State.ctx_modCtx]; cases p <;> rfl

@[simp] theorem State.regs_wrote (s : State) (k : CoreId) (q : Seq) (n : Nat) (i : Instr) : (s.wrote k q n i).regs k = s.regs k := by
  simp [State.wrote, State.regs, Ctx.regDrop]

theorem State.regEcc_wrote (s : State) (k : CoreId) (q : Seq) (n : Nat) (i : Instr) :
    ((s.wrote k q n i).ctx k).regEcc =
      (s.ctx k).regEcc.filter fun e => !regWrites q ((s.seq k q).stack.length - n) i e.1 := by
  simp [State.wrote, Ctx.regDrop]

theorem State.wrote_sticky (s : State) (k : CoreId) (px : Px) (q : Seq) (n : Nat) (i : Instr) : Sticky k px s (s.wrote k q n i) 0 :=
  ⟨by simp, fun _ _ => by simp, by simp [State.wrote, State.core_modCtx], by simp [State.wrote, State.core_modCtx], rfl⟩

/-- A completion after sticky bits. -/
theorem Sticky.marks {i : Instr} {sp : Spec} {s u w : State} {fl : BitVec 32} (h : Sticky s.k (s.px sp) u w (s.issueFlags i sp ||| fl))
    (hw : (w.ctx s.k).regEcc = (u.ctx s.k).regEcc.filter fun e => !regWrites s.q ((u.seq s.k s.q).stack.length - sp.pops) i e.1)
    (n : Nat) (out : List W64) (enc : Word16) (go : Go) : Marks i sp s u (w.complete s.k s.q n out enc go) fl := by
  obtain ⟨a, b, c, d, e⟩ := w.complete_marks s.k s.q n out enc go
  refine ⟨by rw [a, h.flags], fun p q => ?_, ?_, by rw [State.regEcc_complete, hw], ?_⟩
  · rw [b, c]; exact h.tokens p q
  · rcases d with d | d
    · exact .inl (d.trans h.preempt)
    · exact .inr d
  · rw [h.due, h.trial] at e; exact e

/-! ### runWord -/

/-- A read of sound registers changes nothing. -/
theorem regRead_sound {s : State} {k : CoreId} {q : Seq} {p : RegWord → Bool} (h : (s.ctx k).regSound p = true) :
    s.regRead k q p = .ok s := by
  unfold State.regRead
  rw [if_pos h]

/-- A word that issues gives its operands to its body. -/
theorem runWord_issues {s : State} {sp : Spec} {i : Instr} (h : s.Issues i sp) (r : BitVec 4) (body : Wd → List W64 → State → Res) :
    runWord i r sp body s = s.settleRes (s.wd i sp) i sp r (body (s.wd i sp) (popArgs s.me.stack sp.pops) s) := by
  have hd : stackBad s.me.stack.length sp.pops sp.pushes = false := by
    have := h.operands; have := h.room; simp [stackBad]; omega
  have hs : s.regRead s.k s.q ((s.ctx s.k).issueReads s.q sp.pops (s.px sp).cond) = .ok s := regRead_sound h.sound
  have hp : ∀ f : State → Res, s.perform (s.wd i sp) i f = f s := fun f => by
    have e : s.regRead s.k s.q ((s.ctx s.k).bodyReads s.q i) = .ok s := regRead_sound h.reads
    unfold State.perform withRegs
    simp only [State.wd, e]
  simp only [State.k, State.q, State.px] at hs
  unfold runWord
  dsimp only
  rw [if_neg (by simp [h.accepted]), if_neg (by simpa using hd), h.rights]
  dsimp only
  simp only [State.me, State.k, State.q] at hs ⊢
  rw [hs]
  dsimp only
  rw [if_neg (by
    have := h.cond
    simp only [State.px, State.k, State.q, State.me] at this
    intro hx
    split at hx
    · rename_i p hp; simp [this p hp] at hx
    · simp at hx)]
  have hl' : ∀ x : Res, (if performsStores i = true then x.lands s (s.wd i sp) else x) = x := fun x => by
    split
    · rename_i g
      unfold Res.lands
      simp only [State.wd, h.landed g]
      rfl
    · rfl
  have hx : (if performsStores i = true then (s.perform (s.wd i sp) i (body (s.wd i sp) (popArgs s.me.stack sp.pops))).lands s (s.wd i sp)
      else s.perform (s.wd i sp) i (body (s.wd i sp) (popArgs s.me.stack sp.pops))) = body (s.wd i sp) (popArgs s.me.stack sp.pops) s := by
    rw [hl', hp]
  cases hl : sp.launch
  · have := h.sync hl
    simp only [State.px, State.k, State.q, State.me] at this
    rw [if_neg (by simp), this]
    exact congrArg _ hx
  · rw [if_pos rfl]
    exact congrArg _ hx

/-- A word that takes no EVENT prefix, or that launches an engine command, and whose body is performed. -/
theorem runWord_done {s u : State} {sp : Spec} {i : Instr} (h : s.Issues i sp) (r : BitVec 4) (body : Wd → List W64 → State → Res)
    (out : List W64) (go : Go) (hrf : r = rField i) (he : sp.launch = true ∨ sp.acc.event = false)
    (hb : body (s.wd i sp) (popArgs s.me.stack sp.pops) s = .done u out go) (ha : go.after = id) (hr : go.run = .running) :
    OnlyIssue s.k s.q u (runWord i r sp body s)
      ∧ Advanced s.k s.q u (runWord i r sp body s) sp.pops out (go.pc (u.seq s.k s.q).pc) go.cost
      ∧ Marks i sp s u (runWord i r sp body s) go.flags := by
  rw [runWord_issues h, hb]
  simp only [State.settleRes, ha, id]
  generalize hfl : (s.wd i sp).px.flags ||| go.flags ||| flagIf (rUnused r sp.rbits) fRFLD = fl
  have hfs : fl = s.issueFlags i sp ||| go.flags := by
    subst hrf
    rw [← hfl, BitVec.or_assoc, BitVec.or_comm go.flags, ← BitVec.or_assoc]; rfl
  have w0 : OnlyIssue s.k s.q u (u.wrote s.k s.q sp.pops i) := u.wrote_onlyIssue ..
  have w1 : Sticky s.k (s.px sp) u ((u.wrote s.k s.q sp.pops i).setFlags s.k fl) fl := by
    simpa using (u.wrote_sticky s.k (s.px sp) s.q sp.pops i).trans ((u.wrote s.k s.q sp.pops i).setFlags_sticky s.k (s.px sp) fl)
  have key : ∀ v : State, OnlyIssue s.k s.q u v → v.seq s.k s.q = u.seq s.k s.q → (v.regs s.k).fi = (u.regs s.k).fi →
      Sticky s.k (s.px sp) u v fl → (v.ctx s.k).regEcc = ((u.wrote s.k s.q sp.pops i).ctx s.k).regEcc → OnlyIssue s.k s.q u (v.complete s.k s.q sp.pops out (s.wd i sp).enc go)
      ∧ Advanced s.k s.q u (v.complete s.k s.q sp.pops out (s.wd i sp).enc go) sp.pops out (go.pc (u.seq s.k s.q).pc) go.cost
      ∧ Marks i sp s u (v.complete s.k s.q sp.pops out (s.wd i sp).enc go) go.flags := by
    intro v h1 h2 h3 h4 h5
    rw [State.regEcc_wrote] at h5
    refine ⟨h1.trans (v.complete_onlyIssue ..), ?_, (hfs ▸ h4).marks h5 ..⟩
    have g := v.complete_advanced s.k s.q sp.pops out (s.wd i sp).enc go hr
    exact ⟨by rw [g.stack, h2], by rw [g.pc, h2], g.run, by rw [g.issued, h2], g.group, g.wait, by rw [g.fi, h2, h3]⟩
  by_cases hl : sp.launch = true
  · simp only [hl, if_true]
    exact key _ (w0.trans (State.setFlags_onlyIssue ..)) (by simp [State.wd]) (by simp [State.wd]) w1 (by simp [State.wd])
  · have hev : (sp.accOn s.q).event = false := by
      have : sp.acc.event = false := by simpa [hl] using he
      unfold Spec.accOn; split
      · rfl
      · exact this
    obtain ⟨hw, hs⟩ := resolvePx_noEvent s.q (isMerge s.k) (sp.accOn s.q) s.me.pfx hev
    have hfin : (s.wd i sp).fin = { push := (s.px sp).pushes, sig := [], unbound := false } := by
      simp only [State.wd, State.dueOf, State.px, hs]; rfl
    simp only [hl, Bool.false_eq_true, if_false, hfin]
    generalize hx : (u.wrote s.k s.q sp.pops i).setFlags s.k fl = x at w1
    have x1 : OnlyIssue s.k s.q u x := hx ▸ w0.trans (State.setFlags_onlyIssue ..)
    have x2 : x.seq s.k s.q = u.seq s.k s.q := by rw [← hx]; simp
    have x3 : (x.regs s.k).fi = (u.regs s.k).fi := by rw [← hx]; simp
    have x4 : (x.ctx s.k).regEcc = ((u.wrote s.k s.q sp.pops i).ctx s.k).regEcc := by rw [← hx]; simp
    rw [show ((u.wrote (s.wd i sp).k (s.wd i sp).q sp.pops i).setFlags (s.wd i sp).k fl) = x from hx]
    obtain ⟨g1, g2, g3⟩ := x.syncDone_tokens s.k s.q (s.px sp) (s.px sp).pushes go.deferred hw
    have h1 := w1.trans (x.tokens_sticky s.k (s.px sp))
    have z : fl ||| 0 = fl := by simp
    rw [z] at h1
    refine key _ (x1.trans g1) (g2.trans x2) (g3.trans x3) ?_ ?_
    · simp only [State.syncDone]
      have e : (s.wd i sp).px.wait = none := hw
      simp only [e]
      split
      · exact h1
      · have h2 := h1.trans (State.finish_sticky _ s.k (s.px sp))
        rw [z] at h2
        exact h2
    · rw [← x4]
      simp only [State.syncDone]
      have e : (s.wd i sp).px.wait = none := hw
      simp only [e]
      split
      · simp [State.wd]
      · simp [State.wd]

/-- A word that takes no EVENT prefix, or that launches an engine command, and whose body is performed without a branch,
completes. -/
theorem completes_word {i : Instr} {r : BitVec 4} {s u : State} {sp : Spec} {body : Wd → List W64 → State → Res} {out : List W64}
    {go : Go} (hw : wordSpec s.q i = some sp) (h : s.Issues i sp) (he : exec i s = .next (runWord i r sp body s))
    (hrf : r = rField i) (hv : sp.launch = true ∨ sp.acc.event = false)
    (hb : body (s.wd i sp) (popArgs s.me.stack sp.pops) s = .done u out go) (hj : go.jump = none) (ha : go.after = id)
    (hr : go.run = .running) (hpc : (u.seq s.k s.q).pc = s.me.pc) : Completes i s u sp.pops out go.cost go.flags := by
  obtain ⟨h1, h2, h3⟩ := runWord_done h r body out go hrf hv hb ha hr
  refine ⟨_, sp, he, hw, h1, ?_, h3⟩
  have : go.pc (u.seq s.k s.q).pc = s.me.pc + 2 := by simp [Go.pc, hj, hpc]
  rwa [this] at h2

/-- Such a word, with its operands as a list. -/
theorem completes_at {i : Instr} {r : BitVec 4} {s u : State} {sp : Spec} {body : Wd → List W64 → State → Res} {a out : List W64}
    {c : Nat} {d : Bool} {fl : BitVec 32} (hw : wordSpec s.q i = some sp) (h : s.Issues i sp) (ha : popArgs s.me.stack sp.pops = a)
    (he : exec i s = .next (runWord i r sp body s)) (hrf : r = rField i) (hv : sp.launch = true ∨ sp.acc.event = false)
    (hb : body (s.wd i sp) a s = .done u out { cost := c, deferred := d, flags := fl })
    (hpc : (u.seq s.k s.q).pc = (s.seq s.k s.q).pc) : Completes i s u sp.pops out c fl := by
  subst ha
  exact completes_word hw h he hrf hv hb rfl rfl rfl hpc

/-- Such a word, where it branches. -/
theorem branches_word {i : Instr} {r : BitVec 4} {s u : State} {sp : Spec} {body : Wd → List W64 → State → Res} {pc : VA}
    {b : Nat} (hw : wordSpec s.q i = some sp) (h : s.Issues i sp) (he : exec i s = .next (runWord i r sp body s))
    (hrf : r = rField i) (hv : sp.launch = true ∨ sp.acc.event = false)
    (hb : body (s.wd i sp) (popArgs s.me.stack sp.pops) s = .done u [] { jump := some (pc, b) }) : Branches i s u sp.pops pc b := by
  obtain ⟨h1, h2, h3⟩ := runWord_done h r body [] _ hrf hv hb rfl rfl
  refine ⟨_, sp, he, hw, h1, h2, h3, ?_⟩
  rw [runWord_issues h, hb]
  simp only [State.settleRes, id, State.complete]
  show ((State.modSeq _ s.k s.q _).seq s.k s.q).bubbles = b
  rw [State.seq_modSeq]; rfl

/-- The same stack, written with another number of pops. -/
theorem Completes.stack_eq {i : Instr} {s u : State} {n m : Nat} {out out' : List W64} {c : Nat} {fl : BitVec 32}
    (h : Completes i s u n out c fl)
    (hs : out.reverse ++ (u.seq s.k s.q).stack.drop n = out'.reverse ++ (u.seq s.k s.q).stack.drop m) : Completes i s u m out' c fl := by
  obtain ⟨t, sp, h1, h2, h3, h4, h5⟩ := h
  exact ⟨t, sp, h1, h2, h3, ⟨by rw [h4.stack, hs], h4.pc, h4.run, h4.issued, h4.group, h4.wait, h4.fi⟩, h5⟩

/-! ### Words that take an EVENT prefix -/

theorem OnlyIssue.symm {k : CoreId} {q : Seq} {a b : State} (h : OnlyIssue k q a b) : OnlyIssue k q b a where
  rest := by rw [h.rest]
  others j hj := (h.others j hj).symm
  core := by rw [h.core]; rfl
  ctx := by rw [h.ctx]; rfl
  seqs p hp := (h.seqs p hp).symm
  kept := by rw [h.kept]
  regs := by rw [h.regs]

/-- A change of the context that depends on nothing that issuing changes. -/
theorem OnlyIssue.modCtx {k : CoreId} {q : Seq} {a b : State} (h : OnlyIssue k q a b) (f : Ctx → Ctx)
    (hs : ∀ x p, (f x).seq p = x.seq p)
    (hf : f (b.ctx k) = { f (a.ctx k) with
      c := (b.ctx k).c, m := (b.ctx k).m, v := (b.ctx k).v, t := (b.ctx k).t, regEcc := (f (b.ctx k)).regEcc
      regs := { (f (a.ctx k)).regs with
        fi := (b.regs k).fi, tok := (b.regs k).tok, rsv := (b.regs k).rsv, wflags := (b.regs k).wflags, wfNow := (b.regs k).wfNow } }) :
    OnlyIssue k q (a.modCtx k f) (b.modCtx k f) where
  rest := by
    have : b.modCtx k f = { b with cores := (b.modCtx k f).cores } := rfl
    rw [this]
    have h' := h.rest
    generalize (b.modCtx k f).cores = cs at *
    rw [h']; rfl
  others j hj := by rw [State.core_modCtx_ne _ _ hj, State.core_modCtx_ne _ _ hj, h.others j hj]
  core := by
    have h' := h.core
    rw [State.core_modCtx, State.core_modCtx, State.ctx_modCtx]
    generalize f (b.ctx k) = y at *
    rw [h']
  ctx := by
    simp only [State.ctx_modCtx, State.regs]
    rw [hf]
  seqs p hp := by simp only [State.seq, State.ctx_modCtx, hs]; exact h.seqs p hp
  kept := by simp only [State.seq, State.ctx_modCtx, hs]; exact h.kept
  regs := by
    simp only [State.regs, State.ctx_modCtx]
    rw [hf]

/-- What a passed wait leaves alone. -/
theorem State.slotPass_keeps (s : State) (k : CoreId) (q : Seq) (n : Fin 16) :
    (s.slotPass k n).seq k q = s.seq k q ∧ ((s.slotPass k n).regs k).fi = (s.regs k).fi := by
  unfold State.slotPass State.bindingPass
  split
  · exact ⟨by simp, by simp⟩
  · constructor
    · simp only [State.seq, State.ctx_modCtx]; cases q <;> rfl
    · simp only [State.regs, State.ctx_modCtx]; split <;> rfl

theorem State.slotPass_onlyIssue {k : CoreId} {q : Seq} {a b : State} (h : OnlyIssue k q a b) (n : Fin 16) :
    OnlyIssue k q (a.slotPass k n) (b.slotPass k n) := by
  have hev : (b.regs k).ev = (a.regs k).ev := by rw [h.regs]
  unfold State.slotPass State.bindingPass
  rw [hev]
  split
  · exact (State.setFlags_onlyIssue ..).symm.trans (h.trans (State.setFlags_onlyIssue ..))
  · refine OnlyIssue.modCtx h _ (fun x p => by cases p <;> rfl) ?_
    rw [h.ctx, h.regs]
    simp only [State.regs, if_true]

theorem Sticky.slotPass {k : CoreId} {q : Seq} {px : Px} {a b : State} {fl : BitVec 32} (h : OnlyIssue k q a b) (g : Sticky k px a b fl)
    (n : Fin 16) : Sticky k px (a.slotPass k n) (b.slotPass k n) fl := by
  have hev : (b.regs k).ev = (a.regs k).ev := by rw [h.regs]
  unfold State.slotPass State.bindingPass
  rw [hev]
  split
  · have ha := a.setFlags_sticky k px fEVUNB
    have hb := b.setFlags_sticky k px fEVUNB
    refine ⟨by rw [hb.flags, ha.flags, g.flags, BitVec.or_assoc, BitVec.or_assoc, BitVec.or_comm fl], fun p q => ?_,
      by rw [hb.preempt, ha.preempt, g.preempt], by rw [hb.trial, ha.trial, g.trial], by rw [hb.due, ha.due, g.due]⟩
    rw [(ha.tokens p q).1, (hb.tokens p q).1, (ha.tokens p q).2, (hb.tokens p q).2]
    exact g.tokens p q
  · have hr : ∀ x : State, ∀ f : Ctx → Ctx, ((x.modCtx k f).regs k) = (f (x.ctx k)).regs := fun x f => by simp [State.regs]
    refine ⟨?_, fun p q => ?_, ?_, ?_, g.due⟩
    · rw [hr, hr]
      have := g.flags
      simp only [State.regs] at this
      dsimp only
      split <;> split <;> exact this
    · rw [hr, hr]
      have := g.tokens p q
      simp only [State.regs] at this
      dsimp only
      split <;> split <;> exact this
    · simpa [State.core_modCtx] using g.preempt
    · simpa [State.core_modCtx] using g.trial

/-- A word that takes an EVENT prefix, launches nothing, and signals nothing at its completion (its signal is due later, or it has
none): what is changed beside its own effect and its wait is what issuing changes. -/
theorem runWord_event {s u : State} {sp : Spec} {i : Instr} (h : s.Issues i sp) (r : BitVec 4) (body : Wd → List W64 → State → Res)
    (out : List W64) (go : Go) (hrf : r = rField i) (hl : sp.launch = false) (hg : go.deferred = true ∨ (s.px sp).signal = none)
    (hb : body (s.wd i sp) (popArgs s.me.stack sp.pops) s = .done u out go) (ha : go.after = id) (hr : go.run = .running) :
    OnlyIssue s.k s.q (u.passed s.k (s.px sp).wait) (runWord i r sp body s)
      ∧ Advanced s.k s.q u (runWord i r sp body s) sp.pops out (go.pc (u.seq s.k s.q).pc) go.cost
      ∧ Marks i sp s (u.passed s.k (s.px sp).wait) (runWord i r sp body s) go.flags := by
  rw [runWord_issues h, hb]
  simp only [State.settleRes, ha, id, hl, Bool.false_eq_true, if_false]
  generalize hfl : (s.wd i sp).px.flags ||| go.flags ||| flagIf (rUnused r sp.rbits) fRFLD = fl
  have hf : ∀ r : Regs, (r.tokPop (s.px sp).pops).tokReserve (s.px sp).pushes =
      { r with tok := ((r.tokPop (s.px sp).pops).tokReserve (s.px sp).pushes).tok
               rsv := ((r.tokPop (s.px sp).pops).tokReserve (s.px sp).pushes).rsv } := by
    intro r
    rw [tokReserve_keeps, tokPop_keeps]
  have w0 : OnlyIssue s.k s.q u (u.wrote s.k s.q sp.pops i) := u.wrote_onlyIssue ..
  have w1 : Sticky s.k (s.px sp) u ((u.wrote s.k s.q sp.pops i).setFlags s.k fl) fl := by
    simpa using (u.wrote_sticky s.k (s.px sp) s.q sp.pops i).trans ((u.wrote s.k s.q sp.pops i).setFlags_sticky s.k (s.px sp) fl)
  generalize hv : (((u.wrote s.k s.q sp.pops i).setFlags s.k fl).modRegs s.k fun r => (r.tokPop (s.px sp).pops).tokReserve (s.px sp).pushes) = v
  have v1 : OnlyIssue s.k s.q u v := by
    rw [← hv]
    exact (w0.trans (State.setFlags_onlyIssue ..)).trans (.modRegs _ _ _ fun r => by rw [hf r])
  have hfs : fl = s.issueFlags i sp ||| go.flags := by
    subst hrf
    rw [← hfl, BitVec.or_assoc, BitVec.or_comm go.flags, ← BitVec.or_assoc]; rfl
  have v4 : Sticky s.k (s.px sp) u v fl := by
    rw [← hv]
    simpa using w1.trans (State.tokens_sticky _ s.k (s.px sp))
  have v2 : v.seq s.k s.q = u.seq s.k s.q := by rw [← hv]; simp
  have v3 : (v.regs s.k).fi = (u.regs s.k).fi := by rw [← hv, State.regs_modRegs, hf]; simp
  have v5 : (v.ctx s.k).regEcc = ((u.wrote s.k s.q sp.pops i).ctx s.k).regEcc := by rw [← hv]; simp
  generalize hp : v.passed s.k (s.px sp).wait = p
  have p1 : OnlyIssue s.k s.q (u.passed s.k (s.px sp).wait) p := by
    rw [← hp]; unfold State.passed; cases (s.px sp).wait
    · exact v1
    · exact State.slotPass_onlyIssue v1 _
  have p2 : p.seq s.k s.q = u.seq s.k s.q ∧ (p.regs s.k).fi = (u.regs s.k).fi := by
    rw [← hp]; unfold State.passed; cases (s.px sp).wait
    · exact ⟨v2, v3⟩
    · obtain ⟨a, b⟩ := v.slotPass_keeps s.k s.q _
      exact ⟨a.trans v2, b.trans v3⟩
  have p3 : Sticky s.k (s.px sp) (u.passed s.k (s.px sp).wait) p fl := by
    rw [← hp]; unfold State.passed; cases (s.px sp).wait
    · exact v4
    · exact v4.slotPass v1 _
  have p5 : (p.ctx s.k).regEcc = ((u.wrote s.k s.q sp.pops i).ctx s.k).regEcc := by rw [← hp]; simp [v5]
  have hsync : ∃ w, ((u.wrote (s.wd i sp).k (s.wd i sp).q sp.pops i).setFlags (s.wd i sp).k fl).syncDone (s.wd i sp).k (s.wd i sp).px (s.wd i sp).fin go.deferred = w ∧
      OnlyIssue s.k s.q (u.passed s.k (s.px sp).wait) w ∧ w.seq s.k s.q = u.seq s.k s.q ∧ (w.regs s.k).fi = (u.regs s.k).fi
        ∧ Sticky s.k (s.px sp) (u.passed s.k (s.px sp).wait) w fl
        ∧ (w.ctx s.k).regEcc = ((u.wrote s.k s.q sp.pops i).ctx s.k).regEcc := by
    refine ⟨_, rfl, ?_⟩
    have he : ((u.wrote (s.wd i sp).k (s.wd i sp).q sp.pops i).setFlags (s.wd i sp).k fl).syncDone (s.wd i sp).k (s.wd i sp).px (s.wd i sp).fin go.deferred =
        if go.deferred then p else p.finish s.k (s.wd i sp).fin := by rw [← hp, ← hv]; rfl
    rw [he]
    by_cases hd : go.deferred = true
    · rw [if_pos hd]; exact ⟨p1, p2.1, p2.2, p3, p5⟩
    · rw [if_neg hd]
      have hs : (s.px sp).signal = none := by simpa [hd] using hg
      have hfin : (s.wd i sp).fin = { push := (s.px sp).pushes, sig := [], unbound := false } := by
        simp only [State.wd, State.dueOf, hs]; rfl
      rw [hfin]
      obtain ⟨a, b, c⟩ := p.finish_pushes s.k s.q (s.px sp).pushes
      exact ⟨p1.trans a, b.trans p2.1, c.trans p2.2, by simpa using p3.trans (p.finish_sticky s.k (s.px sp)), by simp [p5]⟩
  obtain ⟨w, hw, w1, w2, w3, w4, w5⟩ := hsync
  rw [hw]
  have w6 : (w.ctx s.k).regEcc = ((u.passed s.k (s.px sp).wait).ctx s.k).regEcc.filter
      fun e => !regWrites s.q (((u.passed s.k (s.px sp).wait).seq s.k s.q).stack.length - sp.pops) i e.1 := by
    have e : (u.passed s.k (s.px sp).wait).seq s.k s.q = u.seq s.k s.q := by
      unfold State.passed; cases (s.px sp).wait
      · rfl
      · exact (u.slotPass_keeps s.k s.q _).1
    rw [w5, State.regEcc_wrote, State.regEcc_passed, e]
  refine ⟨w1.trans (w.complete_onlyIssue ..), ?_, (hfs ▸ w4).marks w6 ..⟩
  have g := w.complete_advanced s.k s.q sp.pops out (s.wd i sp).enc go hr
  exact ⟨g.stack.trans (by rw [w2]), g.pc.trans (by rw [w2]), g.run, g.issued.trans (by rw [w2]), g.group, g.wait,
    g.fi.trans (by rw [w2, w3])⟩

/-- Such a word completes. -/
theorem completes_event {i : Instr} {r : BitVec 4} {s u : State} {sp : Spec} {body : Wd → List W64 → State → Res} {out : List W64}
    {go : Go} (hw : wordSpec s.q i = some sp) (h : s.Issues i sp) (he : exec i s = .next (runWord i r sp body s))
    (hrf : r = rField i) (hl : sp.launch = false)
    (hg : go.deferred = true ∨ (s.px sp).signal = none)
    (hb : body (s.wd i sp) (popArgs s.me.stack sp.pops) s = .done u out go) (hj : go.jump = none) (ha : go.after = id)
    (hr : go.run = .running) (hpc : (u.seq s.k s.q).pc = s.me.pc) :
    Completes i s (u.passed s.k (s.px sp).wait) sp.pops out go.cost go.flags := by
  obtain ⟨h1, h2, h3⟩ := runWord_event h r body out go hrf hl hg hb ha hr
  have e : (u.passed s.k (s.px sp).wait).seq s.k s.q = u.seq s.k s.q ∧
      ((u.passed s.k (s.px sp).wait).regs s.k).fi = (u.regs s.k).fi := by
    unfold State.passed
    cases (s.px sp).wait
    · exact ⟨rfl, rfl⟩
    · exact u.slotPass_keeps s.k s.q _
  have hp : go.pc (u.seq s.k s.q).pc = s.me.pc + 2 := by simp [Go.pc, hj, hpc]
  rw [hp] at h2
  exact ⟨_, sp, he, hw, h1, ⟨by rw [h2.stack, e.1], h2.pc, h2.run, by rw [h2.issued, e.1], h2.group, h2.wait, by rw [h2.fi, e.1, e.2]⟩, h3⟩

/-- Such a word, with its operands as a list. -/
theorem completes_event_at {i : Instr} {r : BitVec 4} {s u : State} {sp : Spec} {body : Wd → List W64 → State → Res}
    {a out : List W64} {c : Nat} {d : Bool} {fl : BitVec 32} (hw : wordSpec s.q i = some sp) (h : s.Issues i sp)
    (ha : popArgs s.me.stack sp.pops = a) (he : exec i s = .next (runWord i r sp body s)) (hrf : r = rField i)
    (hl : sp.launch = false) (hg : d = true ∨ (s.px sp).signal = none)
    (hb : body (s.wd i sp) a s = .done u out { cost := c, deferred := d, flags := fl })
    (hpc : (u.seq s.k s.q).pc = (s.seq s.k s.q).pc) : Completes i s (u.passed s.k (s.px sp).wait) sp.pops out c fl := by
  subst ha
  exact completes_event hw h he hrf hl hg hb rfl rfl rfl hpc

/-! ### The other outcomes of `runWord` -/

/-- R26: a word that its sequencer does not accept. -/
theorem runWord_notAccepted {s : State} {sp : Spec} (i : Instr) (r : BitVec 4) (body : Wd → List W64 → State → Res)
    (h : s.accepts s.k s.q sp = false) :
    runWord i r sp body s = s.takeTrap s.k s.q { code := 0x01, addr := (wordOf i).setWidth 64 } := by
  simp only [State.k, State.q] at h
  unfold runWord
  simp [h]

/-- R28: too few operands, or no room. -/
theorem runWord_stackBad {s : State} {sp : Spec} (i : Instr) (r : BitVec 4) (body : Wd → List W64 → State → Res)
    (h : s.accepts s.k s.q sp = true) (hs : stackBad s.me.stack.length sp.pops sp.pushes = true) :
    runWord i r sp body s = s.takeTrap s.k s.q
      { code := 0x02, info := BitVec.ofNat 64 (s.me.stack.length + sp.pops * 256 + sp.pushes * 4096) } := by
  simp only [State.k, State.q, State.me] at h hs
  unfold runWord
  simp [h, hs]

/-- R170 step 2. -/
theorem runWord_rights {s : State} {sp : Spec} (i : Instr) (r : BitVec 4) (body : Wd → List W64 → State → Res) {t : TrapInfo}
    (h : s.accepts s.k s.q sp = true) (hs : stackBad s.me.stack.length sp.pops sp.pushes = false)
    (hr : s.rightsTrap s.k s.q sp = some t) : runWord i r sp body s = s.takeTrap s.k s.q t := by
  simp only [State.k, State.q, State.me] at h hs hr
  unfold runWord
  simp [h, hs, hr]

/-- R160: a word whose IF fails pops its operands and pushes zeros. -/
theorem runWord_condFails {s : State} {sp : Spec} (i : Instr) (r : BitVec 4) (body : Wd → List W64 → State → Res) {p : BitVec 4}
    (hx : (s.ctx s.k).regSound ((s.ctx s.k).issueReads s.q sp.pops (s.px sp).cond) = true)
    (h : s.accepts s.k s.q sp = true) (hs : stackBad s.me.stack.length sp.pops sp.pushes = false)
    (hr : s.rightsTrap s.k s.q sp = none) (hp : (s.px sp).cond = some p) (hc : s.me.condHolds p = false) :
    runWord i r sp body s =
      (s.wrote s.k s.q sp.pops (.nop 0)).complete s.k s.q sp.pops (List.replicate sp.pushes 0) (wordOf i) {} := by
  have hx' : s.regRead s.k s.q ((s.ctx s.k).issueReads s.q sp.pops (s.px sp).cond) = .ok s := regRead_sound hx
  rw [hp] at hx'
  simp only [State.k, State.q, State.me, State.px] at h hs hr hp hc hx'
  unfold runWord
  simp [h, hs, hr, hp, hc, hx']

end Sys2Proof.Machine
end

