-- ==== Sys2Proof/Laws/Table.lean ====
section
/-! SUPPORT. Every word of the table is issued by `runWord` under its table entries. -/

namespace Sys2Proof.Machine

/-- The meaning of a word is `runWord` with the entries of the table. -/
theorem exec_word {i : Instr} {s : State} {sp : Spec} (h : wordSpec s.q i = some sp) :
    ∃ body, exec i s = .next (runWord i (rField i) sp body s) := by
  cases i <;> simp only [wordSpec, Option.some.injEq, reduceCtorEq] at h <;> subst h <;> exact ⟨_, rfl⟩

end Sys2Proof.Machine
end

