-- ==== Sys2Proof/Tests/Slice0.lean ====
section
/-! SUPPORT. The model's own tests: words written out from the spec's encodings, small steps with results worked out from the spec,
and for each statement a state and operands that meet its hypotheses. -/

set_option maxRecDepth 100000

namespace Sys2Proof.Tests

open Sys2Proof.Machine

/-! ### States -/

/-- Core 0.0.0. -/
def k0 : CoreId := ⟨0, 0, 0⟩

/-- The name of the first node. -/
def n0 : NodeId := ⟨0, 1⟩

/-- The state in which core 0.0.0's sequencer that takes the word fetches it next, with a stack, the top last. -/
def at_ (w : Word16) (stack : List W64) : State :=
  let s := State.reset.withFetchWord 16 w.toNat
  s.modSeq s.k s.q fun r => { r with stack := stack.reverse }

/-- The same with another sequencer in its place. -/
def on (q : Seq) (s : State) : State :=
  { s with cur := (k0, q) }.modSeq k0 q fun r => { s.me with stack := s.me.stack, issued := r.issued }

/-! ### What the statements about words ask of a state -/

/-- A word issues. -/
def issuesB (s : State) (i : Instr) (sp : Spec) : Bool :=
  s.accepts s.k s.q sp && decide (sp.pops ≤ s.me.stack.length) && decide (s.me.stack.length - sp.pops + sp.pushes ≤ 8)
    && (s.rightsTrap s.k s.q sp).isNone && (match (s.px sp).cond with | some p => s.me.condHolds p | none => true)
    && (sp.launch || (s.syncWait s.k (s.px sp)).isNone)
    && (s.ctx s.k).regSound ((s.ctx s.k).issueReads s.q sp.pops (s.px sp).cond) && (s.ctx s.k).regSound ((s.ctx s.k).bodyReads s.q i)
    && (!performsStores i || !s.anyStuck s.k)

theorem issues_of {s : State} {i : Instr} {sp : Spec} (h : issuesB s i sp = true) : s.Issues i sp := by
  simp only [issuesB, Bool.and_eq_true, decide_eq_true_eq, Option.isNone_iff_eq_none, Bool.or_eq_true] at h
  obtain ⟨⟨⟨⟨⟨⟨⟨⟨h1, h2⟩, h3⟩, h4⟩, h5⟩, h6⟩, h7⟩, h8⟩, h9⟩ := h
  refine ⟨h1, h2, h3, h4, ?_, ?_, h7, h8, ?_⟩
  · intro p hp; rw [hp] at h5; exact h5
  · intro hl; rcases h6 with h6 | h6
    · rw [hl] at h6; exact absurd h6 (by decide)
    · exact h6
  · intro hp; simpa [hp] using h9

/-- The word issues in s, and the effect function gives its effect. -/
def meets (f : Claims.Effect) (i : Instr) (s : State) : Bool :=
  match wordSpec s.q i with
  | some sp => issuesB s i sp && (f i (s.wd i sp) (popArgs s.me.stack sp.pops) s).isSome
  | none => false

/-- Such a state meets the hypotheses of a statement over that function. -/
theorem meets_of {f : Claims.Effect} {i : Instr} {s : State} (h : meets f i s = true) :
    ∃ sp e, wordSpec s.q i = some sp ∧ s.Issues i sp ∧ f i (s.wd i sp) (popArgs s.me.stack sp.pops) s = some e := by
  unfold meets at h
  split at h
  · rename_i sp hs
    simp only [Bool.and_eq_true, Option.isSome_iff_exists] at h
    obtain ⟨hi, e, he⟩ := h
    exact ⟨sp, e, hs, issues_of hi, he⟩
  · exact absurd h (by decide)

/-- Where a word runs in a test: its sequencer, its stack, the top last, and what is changed beside. -/
def run (i : Instr) (stack : List W64) (f : State → State := id) : Instr × State := (i, f (at_ (wordOf i) stack))

/-- The VA of a byte of core 0.0.0's own bank, untranslated (R106). -/
def va (off : Nat) : W64 := BitVec.ofNat 64 (31 * 2 ^ 52 + bankKey k0 off)

/-- A node of priority 2 with every right, all tiles and 16 slots, whose root table lies in its own bank at 0x1000. -/
def node0 : Node :=
  { id := n0, entry := 0
    desc := { descOf (List.replicate 256 0) 0 with ctrl := 0xF028, tmask := 0xFFFF, accn := 16, pool := va 0x800 }
    root := bankKey k0 0x1000, st := .placed, cores := [k0], watch := .replicate 8 none, relaunched := false, imprecise := none
    saves := [], dump := [], noticed := false, tstart := 0, readyNo := 0, stuck := none }

/-- The state with a node on core 0.0.0, and fare. -/
def withNode (n : Node) (s : State) : State :=
  (({ s with nodes := [n] } : State).modCore k0 fun c => { c with node := some n.id }).modCtx k0 fun x =>
    { x with regs := { x.regs with fi := 1000, ft := 1000 }, tmask := n.desc.tmask, accn := n.desc.accn }

/-- With the node of the tests. -/
def noded (s : State) : State := withNode node0 s

/-- Bytes in core 0.0.0's bank. -/
def put (off : Nat) (bs : List Byte) (s : State) : State := { s with mem := s.mem.writeBytes (bankKey k0 off) bs }

/-- A doubleword in core 0.0.0's bank. -/
def put8 (off v : Nat) (s : State) : State := put off (leBytes 8 v) s

/-- Every state of a list meets what a statement over an effect function asks. -/
def allMeet (f : Claims.Effect) (l : List (Instr × State)) : Bool := l.all fun x => meets f x.1 x.2

/-! ### The words: for each a state in which its statement's hypotheses hold -/

theorem test_meets_stack : allMeet Claims.stackWords
    [run (.lit 5) [], run (.ext 5) [1], run (.dup 0) [1], run (.drop 0) [1], run (.swap 0) [1, 2], run (.over 0) [1, 2],
     run (.rot 0) [1, 2, 3], run (.pick 2) [1, 2, 3], run (.depth 0) [], run (.dup 0) [1, 2, 3, 4, 5, 6, 7]] = true := by decide

theorem test_meets_integer_arithmetic : allMeet Claims.integerWords
    [run (.add 0) [1, 2], run (.sub 0) [1, 2], run (.mul 0) [1, 2], run (.mulh 0) [1, 2], run (.mulhu 0) [1, 2], run (.div 0) [1, 0],
     run (.divu 0) [1, 2], run (.rem 0) [1, 0], run (.remu 0) [1, 2], run (.neg 0) [1], run (.addi 15) [1], run (.lea 3) [1, 2]] = true := by
  decide

theorem test_meets_integer_bits : allMeet Claims.integerWords
    [run (.and 0) [1, 2], run (.or 0) [1, 2], run (.xor 0) [1, 2], run (.not 0) [1], run (.shl 0) [1, 64], run (.shr 0) [1, 2],
     run (.sar 0) [1, 2], run (.min 0) [1, 2], run (.max 0) [1, 2], run (.minu 0) [1, 2], run (.maxu 0) [1, 2], run (.clz 0) [1],
     run (.popc 0) [1], run (.shli 15) [1], run (.shri 15) [1], run (.sext 3) [1], run (.zext 0) [1], run (.sel 0) [1, 2, 0]] = true := by
  decide

/-- The hypotheses of the statement about predicates. -/
def meetsPred (x : Instr × State) : Bool :=
  match wordSpec x.2.q x.1 with
  | some sp => issuesB x.2 x.1 sp && (Claims.predResult x.1 x.2.me.pred (popArgs x.2.me.stack sp.pops)).isSome
  | none => false

theorem test_meets_predicates : ([run (.ceq 0) [1, 2], run (.cne 7) [1, 2], run (.clt 1) [1, 2], run (.cltu 1) [1, 2], run (.cle 1) [1, 2],
    run (.cleu 1) [1, 2], run (.pand 0) [1], run (.por 0) [1], run (.pnot 0) [1], run (.putc 3) [1]].all meetsPred) = true := by decide

theorem test_meets_registers : allMeet Claims.registerWords
    [run (.get 15) [], run (.put 15) [1], run (.getc 7) [], run (.setn 3) [1], run (.getn 3) [], run (.prep 3) [2], run (.icsync 0) [],
     run (.tbset 0) [1], run (.tbget 0) [], run (.prog 7) [], run (.clock 0) [], run (.csrr 0) [0x017], run (.csrw 0) [1, 0x001],
     run (.farerd 1) []] = true := by decide

/-- A taken branch. -/
def meetsTaken (x : Instr × State) : Bool :=
  match wordSpec x.2.q x.1 with
  | some sp => issuesB x.2 x.1 sp && (Claims.takenBranch x.1 x.2).isSome
  | none => false

/-- The loop counters of the sequencer whose turn it is. -/
def counting (n : BitVec 32) (s : State) : State := s.modSeq s.k s.q fun r => { r with ln := .replicate 4 n }

theorem test_meets_taken : ([run (.br 0) [], run (.brn 1) [], run (.call 3) [], run (.ret 0) [], run (.loop 0) [] (counting 2)].all meetsTaken)
    = true := by decide

theorem test_meets_untaken : allMeet Claims.untakenBranch [run (.br 1) [], run (.brn 4) [], run (.loop 0) [] (counting 1)] = true := by decide

theorem test_meets_memory : allMeet Claims.memoryWords
    [run (.ld 7) [va 0x100], run (.st 3) [1, va 0x100], run (.ldx 0) [va 0x100, 3], run (.stx 3) [1, va 0x100, 2], run (.qmark 0) []]
    = true := by decide

theorem test_meets_atomics : allMeet Claims.atomicWords
    [run (.aadd 0) [va 0x100, 1], run (.axchg 0) [va 0x100, 1], run (.acas 0) [va 0x100, 0, 1], run (.amin 0) [va 0x100, 1],
     run (.amax 0) [va 0x100, 1], run (.aminu 0) [va 0x100, 1], run (.amaxu 0) [va 0x100, 1], run (.aand 0) [va 0x100, 1],
     run (.aor 0) [va 0x100, 1], run (.axor 0) [va 0x100, 1], run (.afadd 2) [va 0x100, 1]] = true := by decide

theorem test_meets_signals : allMeet Claims.signalWords
    [run (.mwait 0) [va 0x100, 1], run (.sigpost 0) [va 0x100, 1], run (.sigwait 0) [va 0x100, 0], run (.sigset 0) [va 0x100, 1]]
    = true := by decide

theorem test_meets_synchronisation : allMeet Claims.syncWords
    [run (.nop 0) [], run (.fence 0) [], run (.fence 0) [] (on .m), run (.fence 0) [] (on .t)] = true := by decide

/-- The same with the words that take an EVENT prefix. -/
def meetsEvent (f : Claims.Effect) (x : Instr × State) : Bool :=
  meets f x.1 x.2 && (match wordSpec x.2.q x.1 with | some sp => (x.2.px sp).signal.isNone | none => false)

theorem test_meets_events : ([run (.nop 0) [], run (.fence 0) [] (on .t)].all (meetsEvent Claims.syncWords)) = true := by decide

/-- q0 bound to the own bank, a FIFO with one entry. -/
def queued (s : State) : State :=
  (s.modRegs k0 fun g => { g with q := vput g.q 0 (some (.own k0)) }).modCore k0 fun c =>
    { c with mode := .fifo, fifo := match Fifo.empty.push (7, 8) with | .done f _ => f | _ => c.fifo }

/-- Group 5 of cores that holds core 0.0.0's node. -/
def grouped (s : State) : State :=
  { withNode { node0 with desc := { node0.desc with gvalid := 1, group := 5 } } s with groups := [{ id := 5, domain := [k0] }] }

/-- A word of C is fetched from bank 1 where the own bank is no SCRATCH bank: nothing in these hypotheses fetches. -/
def fifoBank (s : State) : State := s.modCore k0 fun c => { c with mode := .fifo }

theorem test_meets_queues : allMeet Claims.queueWords
    [run (.qpush 0) [1, 2] queued, run (.qpop 0) [] queued, run (.qtry 0) [] queued, run (.qbind 0) [0], run (.qbind 7) [va 0] fifoBank,
     run (.evbind 15) [va 0x100, 1, 0], run (.barg 0) [5] grouped] = true := by decide

/-- Page tables in the own bank at 0x1000 to 0x5FFF for VA 0 to 64 KiB, whose leaf names frame 0x10000 of the bank, and an arena at
0x200 that holds it, its records at 0x300. -/
def mapped (s : State) : State :=
  let t := fun i => bankKey k0 (0x1000 * (i + 1))
  let s := put8 0x1000 (t 1 + 1) (put8 0x2000 (t 2 + 1) (put8 0x3000 (t 3 + 1) (put8 0x4000 (t 4 + 1) s)))
  let s := put8 0x5000 (bankKey k0 0x10000 + 0x183) s
  let s := put8 0x208 0x20000 (put8 0x210 (bankKey k0 0x10000) (put8 0x218 1 (put8 0x220 (bankKey k0 0x300) s)))
  { put8 0x300 1 (noded s) with arenas := [bankKey k0 0x200] }

theorem test_meets_maps : allMeet Claims.mapWords
    [run (.pgshare 0) [va 0x200, 0, 0, 0] noded, run (.pgdrop 0) [va 0x200, 0, 0] noded, run (.pgrefs 0) [va 0x200, 0] mapped,
     run (.pgdrop 0) [va 0x200, 0, 1] mapped] = true := by decide

/-- A hook on C of core 0.0.0. -/
def hooked (s : State) : State :=
  (noded s).modCore k0 fun c => { c with hook := some { saved := c.ctx.c, watch := 0, acc := 1, precise := true, addr := 0, pc := 0, seqn := 0,
                                                        row := 0, who := 0, ecc := [] } }

theorem test_meets_watches : allMeet Claims.watchWords
    [run (.wpset 0) [va 0x100] noded, run (.wpclr 7) [] noded, run (.wpstat 0) [1] noded, run (.hret 0) [] hooked] = true := by decide

/-- A yield whose drain is over. -/
def yielding (s : State) : State := (noded s).modCore k0 fun c => { c with yielding := true }

theorem test_meets_fare : allMeet Claims.fareWords
    [run (.faretop 1) [5] (put8 0x808 9 ∘ noded), run (.faretop 0) [0] noded, run (.station 0) [0] noded, run (.station 0) [0] yielding,
     run (.yield 0) [0] yielding] = true := by decide

theorem test_meets_nodes : allMeet Claims.nodeWords
    [run (.spawn 0) [va 0x100] noded, run (.spawn 0) [va 0x101] noded, run (.depdec 0) [5, 1] noded, run (.fork 7) [0, 2, 4] noded,
     run (.rvz 0) [] noded, run (.rvz 0) [] (on .t ∘ noded), run (.halt 0) [] noded] = true := by decide

/-- A trap record. -/
def rec0 : TrapRec :=
  { code := 0x10, cls := 0, kind := 0, wr := 0, seq := 0, core := 0, seqn := 0, pc := 0, addr := 0, rowp := 0, info := 0, ids := 0, who := 0
    time := 0 }

/-- Ostler work that services a record. -/
def serving (s : State) : State :=
  (withNode { node0 with desc := { node0.desc with ctrl := 0xF03C } } s).modCore k0 fun c => { c with serving := some (rec0, 0) }

theorem test_meets_phases : allMeet Claims.phaseWords
    [run (.flip 1) [0, 0xFFFF] noded, run (.phase 0) [2] noded, run (.phase 0) [0] noded, run (.segchk 0) [0, 0] noded,
     run (.eret 0) [] serving] = true := by decide

theorem test_meets_reliability : allMeet Claims.reliabilityWords
    [run (.trcw 0) [1] noded, run (.scrub 0) [va 0x100] noded, run (.poisonq 0) [va 0x100] noded, run (.csum 0) [va 0x100, 8] noded,
     run (.trial 1) [0, 2, 4095] noded, run (.trial 0) [0, 0, 0] noded] = true := by decide

/-- Every tile full, and M's registers 0. -/
def mregs (s : State) : State := (noded s).modCtx k0 fun x => { x with full := 0xFFFF }

theorem test_meets_matrix_launches : allMeet Claims.matrixWords
    [run (.mloadb 0) [] mregs, run (.mloadt 0) [] mregs, run (.mrun 0) [] mregs, run (.mgather 0) [] mregs, run (.mdrain 2) [] mregs,
     run (.mzero 0) [] mregs, run (.mreada 0) [0, 0] noded, run (.mpatch 0) [0, 0, 0] mregs] = true := by decide

theorem test_meets_matrix_rest : allMeet Claims.matrixWords
    [run (.mset 15) [1] mregs, run (.mwaitc 0) [0] mregs, run (.mstat 0) [1, 0] mregs, run (.mreada 0) [0, 0] (on .c ∘ hooked),
     run (.mpatch 0) [0, 0, 0] (on .c ∘ hooked)] = true := by decide

/-- T's registers with the image of a COPY. -/
def tregs (s : State) : State := (noded s).modTe k0 fun e => { e with w := vput e.w 0 0x102 }

theorem test_meets_transfers : allMeet Claims.transferWords
    [run (.dset 7) [1] tregs, run (.dcsum 0) [1, 1] tregs, run (.dwait 0) [0] tregs, run (.dstat 0) [1, 0] tregs, run (.foldwait 0) [] tregs,
     run (.dcopy 0) [] tregs, run (.gatherr 4) [0, 0, 1, 128, 0] tregs, run (.scatterw 0) [0, 0, 1, 1, 0] tregs,
     run (.scatadd 0) [0, 0, 1, 4, 0] tregs, run (.mcast 0) [0, 5, 0, 1] tregs] = true := by decide

theorem test_meets_folds : allMeet Claims.transferWords
    [run (.fold 0) [va 0x100, va 0x200, 0x10001, 0] tregs] = true := by decide

/-- A dray queue whose descriptor lies in the own bank at 0x200, enabled, with 64 slots from 0x1000. -/
def dray (s : State) : State := put8 0x208 0x806 (put8 0x200 (31 * 2 ^ 52 + bankKey k0 0x1000) (tregs s))

theorem test_meets_chains : allMeet Claims.chainWords
    [run (.chkick 0) [0, va 0x100] tregs, run (.chkick 0) [3, 0] tregs, run (.chlink 0) [va 0x100, 0] tregs, run (.chstat 0) [0] tregs,
     run (.dqapp 0) [va 0x200, va 0x400, 1] dray] = true := by decide

/-- A port bound to tile 0. -/
def bind (n : Fin 8) (mode : BitVec 2) (s : State) : State :=
  s.modRegs k0 fun g => { g with port := vput g.port n { cur := 0, stride := 1, mode := mode, fmt := 0, start := 0, tile := BitVec.ofNat 4 n.val } }

/-- p0 and p1 bound for reading, p2 for writing, p3 for both. -/
def ports (s : State) : State := bind 0 1 (bind 1 1 (bind 2 2 (bind 3 3 (noded s))))

/-- Tile 4 full. -/
def full4 (s : State) : State := (noded s).modCtx k0 fun x => x.setFull 4 true

theorem test_meets_ports : allMeet Claims.portWords
    [run (.pbind 0) [0x140004] full4, run (.pbind 2) [0] ports, run (.pstep 2) [] ports, run (.pstep 7) [] ports, run (.pread 0) [] ports,
     run (.vsplat 2) [1] ports, run (.vsplat 0) [1] ports, run (.vlane 0) [31] ports, run (.vputl 2) [1, 31] ports, run (.vwait 0) [] ports,
     run (.tfree 15) [] noded, run (.tfill 15) [] noded, run (.twaitf 4) [] full4] = true := by decide

theorem test_meets_tiles : ([run (.tld 4) [va 0x100, 128, 1] noded, run (.tst 4) [va 0x100, 128, 0x1F01] full4].all
    (meetsEvent Claims.tileMoves)) = true := by decide

theorem test_meets_vectors : ([(.vmov 2 0 0), (.vadd 2 0 1), (.vsub 2 0 1), (.vmul 2 0 1), (.vmin 2 0 1), (.vmax 2 0 1), (.vabs 2 0 0),
    (.vneg 2 0 0), (.vand 2 0 1), (.vor 2 0 1), (.vxor 2 0 1), (.vclt 2 0 1), (.vceq 2 0 1), (.vclr 2 0 0), (.vadd 7 6 5)].all
    fun i => meetsEvent Claims.vectorWords (run i [] ports)) = true := by decide

theorem test_meets_vectors_more : ([(.vshl 2 0 1), (.vshr 2 0 1), (.vsar 2 0 1), (.vfma 3 0 1), (.vsel 3 0 1), (.vcvt 2 0 1), (.vsumr 2 0 0),
    (.vmaxr 2 0 0), (.vbcast 2 0 1), (.vshuf 2 0 1), (.vscale 2 0 1), (.vqmx 2 0 1), (.vdqmx 2 0 0), (.vpk24 2 0 1)].all
    fun i => meetsEvent Claims.vectorWords (run i [] ports)) = true := by decide

theorem test_meets_vector_functions : ([(.vexp2 2 0 0), (.vlog2 2 0 0), (.vrcp 2 0 0), (.vrsq 2 0 0)].all
    fun i => meetsEvent Claims.vectorWords (run i [] ports)) = true := by decide

/-- Fibre 0 of two entries and fibre 1 of one, dense, from coordinates 5 and 6. -/
def fibres (s : State) : State :=
  let f : Fibre := { opened := true, cbase := 5, vbase := va 0x400, len := 2, vstr := 4, vfmt := 0, cw := true, dense := true, pos := 0 }
  ((ports s).setFib k0 0 f).setFib k0 1 { f with cbase := 6, len := 1 }

theorem test_meets_fibres : allMeet Claims.fibreWords
    [run (.fopen 0) [va 0x100] noded, run (.fadv 0) [] fibres, run (.fclose 0) [] fibres, run (.fseek 0) [6] fibres, run (.fend 0) [] fibres,
     run (.fcrd 0) [] fibres, run (.fval 0) [] fibres, run (.fmatch 0) [] fibres, run (.frow 0) [10] fibres, run (.frow 0) [0] fibres]
    = true := by decide

/-- A session of scalars in slot 0 of the own cluster, opened by the node, and its handle. -/
def session (s : State) : State :=
  (fibres s).modSess (0, 0, 0) fun se =>
    { se with gen := 1, st := .opened, opener := some n0, by_ := k0, rows := 16, cap := 64, smask := 1, segs := [(va 0x8000, 0x4000)]
              hamper := va 0x8000, hsize := 0x4000, sctl := 0x40000, outcap := 4, wpos := 256 }

/-- The same of rows. -/
def rowSession (s : State) : State := (full4 (session s)).modSess (0, 0, 0) fun se => { se with sctl := 0x40001 }

theorem test_meets_mangle : allMeet Claims.mangleWords
    [run (.mgopen 0) [va 0x100] noded, run (.mgput 1) [0x400, 5, 1] session, run (.mgrow 4) [0x400, 5, 0] rowSession,
     run (.mgend 0) [0x400] session, run (.mgclose 0) [0x400] session, run (.mgstat 0) [0x400] session, run (.mgspill 0) [0x400] session,
     run (.mgexpand 0) [0x400] session] = true := by decide

/-! ### The events: for each clause with hypotheses a state that meets them -/

/-- The parameters of an event. -/
def arg (a : EvArg) (s : State) : State := { s with arg := a }

/-- After reset, with the node of the tests on core 0.0.0, whose bank is a SCRATCH bank, and the parameters that name them. -/
def busy : State := arg { k := k0, n := n0 } ((noded State.reset).modCore k0 fun c => { c with mode := .scratch })

/-- A node of `gang` cores that waits for a place since timer value 0; outside cluster 0 one core of each cluster is out of service. -/
def ready (gang now : Nat) : State :=
  let d := { node0.desc with ctrl := BitVec.ofNat 64 (0xF008 + 32 * gang) }
  ((List.finRange 9).drop 1).foldl (fun s c => s.modCore ⟨0, c, 5⟩ fun x => { x with inService := false })
    (arg { n := n0 } { State.reset with nodes := [{ node0 with st := .ready 0, cores := [], desc := d, stuck := some 0 }], now := now })

theorem test_meets_clear : (busy.nodeOf busy.arg.k = some node0 ∧ node0.st = .placed ∧ (busy.ctx busy.arg.k).c.run = .idle
    ∧ (busy.core busy.arg.k).haltLine = false ∧ (busy.core busy.arg.k).saved = none ∧ node0.saves = []) := by decide

theorem test_meets_dispatch : ((ready 40 0).readyPool 0 = (ready 40 0).nodes ∧ ((ready 40 0).die 0).counters = [] ∧ (∀ c, ((ready 40 0).cluster 0 c).reserved = none)
    ∧ ∀ n ∈ (ready 40 0).nodes, ∀ j, (ready 40 0).fitsIn n j = if j = 0 then some ((clusterCores 0 0).take 40) else none) := by decide

theorem test_meets_gang : (∀ n ∈ (ready 40 576000).nodes, (ready 40 576000).node n0 = some n ∧ n.st = .ready 0 ∧ 2 ≤ n.gang
    ∧ (∀ c, ((ready 40 576000).cluster 0 c).reserved = none) ∧ (ready 40 576000).canHold n 0 = true) := by decide

theorem test_meets_unplaceable : (∀ n ∈ (ready 41 22500000).nodes, (ready 41 22500000).node n0 = some n ∧ n.stuck = some 0
    ∧ (State.reset.die 0).reported.contains n.id = false ∧ ∀ c, (ready 41 22500000).canHold n c = false) := by decide

/-- C of core 0.0.0 blocked at a word. -/
def blocked (i : Instr) (w : Wait) (stack : List W64) (s : State) : State :=
  s.modSeq k0 .c fun r => { r with run := .blocked, held := some i, wait := some w, stack := stack.reverse, monitor := some 0, paid := 1 }

/-- A wait that has stalled and been blocked for n cycles, with bound 0. -/
def wait (beyond : Bool) (n : Nat) : Wait := { reason := 7, beyond := beyond, object := 0, bound := 0, stalled := n, blocked := n }

theorem test_meets_reissue : ((blocked (.nop 0) (wait false 1) [] busy).seq k0 .c).held = some (.nop 0)
    ∧ (encodeWord (.nop 0)).isSome = true ∧ (blocked (.nop 0) (wait false 1) [] busy).stands k0 .c = false := by decide

/-- A word blocked on the sequencer that issues it. -/
def held (x : Instr × State) : Instr × State :=
  (x.1, (arg { k := x.2.k, q := x.2.q } x.2).modSeq x.2.k x.2.q fun r => { r with run := .blocked, held := some x.1 })

/-- It meets the hypotheses of a statement about a blocked word. -/
def resumes (f : Claims.Effect) (x : Instr × State) : Bool :=
  meetsEvent f (x.1, Claims.onTurn (held x).2) && decide (((held x).2.seq x.2.k x.2.q).held = some x.1)
    && !(held x).2.stands x.2.k x.2.q

theorem test_meets_resumes_memory : (resumes Claims.memoryWords (run (.ld 7) [va 0x100])
    && resumes Claims.atomicWords (run (.aadd 0) [va 0x100, 1])
    && resumes Claims.signalWords (run (.sigwait 0) [va 0x100, 0])) = true := by
  decide

theorem test_meets_resumes_sync : (resumes Claims.syncWords (run (.fence 0) [])
    && resumes Claims.queueWords (run (.qpop 0) [] queued)
    && resumes Claims.mapWords (run (.pgshare 0) [va 0x200, 0, 0, 0] noded)) = true := by
  decide

theorem test_meets_resumes_nodes : (resumes Claims.watchWords (run (.wpset 0) [va 0x100] noded)
    && resumes Claims.fareWords (run (.yield 0) [0] yielding)
    && resumes Claims.nodeWords (run (.rvz 0) [] noded)) = true := by
  decide

theorem test_meets_resumes_phases : (resumes Claims.phaseWords (run (.flip 1) [0, 0xFFFF] noded)
    && resumes Claims.reliabilityWords (run (.csum 0) [va 0x100, 8] noded)
    && resumes Claims.matrixWords (run (.mwaitc 0) [0] mregs)) = true := by
  decide

theorem test_meets_resumes_transfers : (resumes Claims.transferWords (run (.dwait 0) [0] tregs)
    && resumes Claims.chainWords (run (.dqapp 0) [va 0x200, va 0x400, 1] dray)
    && resumes Claims.portWords (run (.twaitf 4) [] full4)) = true := by
  decide

theorem test_meets_resumes_tiles : (resumes Claims.tileMoves (run (.tld 4) [va 0x100, 128, 1] noded)
    && resumes Claims.fibreWords (run (.fmatch 0) [] fibres)
    && resumes Claims.mangleWords (run (.mgput 1) [0x400, 5, 1] session)) = true := by
  decide

theorem test_meets_no_word : (busy.seq k0 .c).held = none ∧ ((busy.modSeq k0 .c fun r => { r with stopped := some 0x02 }).stands k0 .c = true) := by
  decide

/-- R70: C, blocked at TWAITF of tile 4, goes on with the next word once the tile is full. -/
theorem test_blocked_word_completes : (match exec .waitCompletion (held (run (.twaitf 4) [] full4)).2 with
    | .next t => let r := t.seq (run (.twaitf 4) []).2.k (run (.twaitf 4) []).2.q
                 (r.held, r.run, r.pc - (run (.twaitf 4) []).2.me.pc) | _ => (none, .idle, 0)) = (none, .running, 2) := by decide

theorem test_nop_answers (s : State) : ∃ t, exec (.nop 0) s = .next t := ⟨_, rfl⟩

theorem test_meets_waits : ((wait false 1).reason ≠ 0 ∧ (wait false 1).beyond = false ∧ (wait false 1).bound < (wait false 1).stalled)
    ∧ ((wait true 22500000).beyond = true ∧ 22500000 ≤ (wait true 22500000).stalled)
    ∧ ((busy.core k0).yielding = false ∧ (wait false 256).blocked % 256 = 0 ∧ 0 < (busy.regs k0).fi)
    ∧ ((blocked (.nop 0) (wait false 1) [] busy).seq k0 .c).wait = some (wait false 1) := by decide

/-- Fare fields of the pool at 0x800 of the bank: 7 FI, 9 FT and grants of 5. -/
def pooled (s : State) : State := put8 0x800 7 (put8 0x808 9 (put8 0x810 0x500000005 s))

/-- Core 0.0.0's context as saved with fare. -/
def saved0 (fi ft : Int) : Saved :=
  { skind := 0, cause := 0x3F, ctx := { Ctx.reset with regs := { Regs.reset with fi := fi, ft := ft } }, mode := .scratch, fifo := Fifo.empty
    hook := none, version := [], whole := [], phase := Phase.first, barr := [], haltLine := false, pend := [], record := none, keep := []
    keepPoison := [], segs := [] }

/-- The node of the tests switched out, due or not, with a pool or without one. -/
def out (pool : W64) (fi ft : Int) : Node :=
  { node0 with st := .due, saves := [(k0, saved0 fi ft)], cores := [], desc := { node0.desc with pool := pool } }

/-- A FARETOP that waits for the policy. -/
def asking : State := blocked (.faretop 1) (wait true 1) [5] (pooled busy)

theorem test_meets_grant : (asking.mem.wf = true ∧ asking.bar0.wf = true ∧ asking.l2.wf = true ∧ asking.stale.wf = true)
    ∧ (asking.seq k0 .c).held = some (.faretop 1) ∧ asking.nodeOf k0 = some node0
    ∧ asking.poolTarget node0 k0 = some (.bank k0 0x800) ∧ Claims.plainTarget (.bank k0 0x800) = true
    ∧ 0 < ((asking.seq k0 .c).stack.headD 0).toInt ∧ 1 ≤ (asking.seq k0 .c).paid ∧ (asking.regs k0).ft ≤ 2147483647 := by decide

theorem test_meets_topups : ((out 0 0 5).st = .due ∧ (out 0 0 5).desc.pool = 0 ∧ savesDue (out 0 0 5).saves = true)
    ∧ savesDue (out 0 5 5).saves = false
    ∧ (pooled { busy with nodes := [out (va 0x800) 0 5] }).poolTarget (out (va 0x800) 0 5) k0 = some (.bank k0 0x800)
    ∧ 0 < (pooled busy).poolField (.bank k0 0x800) 0 ∧ (saved0 0 5).ctx.regs.fi ≤ 0 ∧ 0 < (saved0 0 5).ctx.regs.ft := by decide

/-- A pre-emption due. -/
def due : State := busy.modCore k0 fun c => { c with preempt := some 0x3F }

/-- The window holds a save. -/
def kept : State := busy.modCore k0 fun c => { c with saved := some (saved0 1 1) }

/-- The node placed again, with its save. -/
def back : Node := { node0 with saves := [(k0, saved0 1 1)] }

theorem test_meets_saves : ((due.core k0).preempt = some 0x3F ∧ (due.core k0).hook = none ∧ (due.core k0).hit = none ∧ (due.core k0).saved = none
      ∧ (due.core k0).node.isSome = true ∧ (due.ctx k0).atBoundary = true ∧ (due.ctx k0).engineBoundary = true ∧ due.treeClear k0 = true
      ∧ due.inTrapService k0 = false)
    ∧ ((kept.core k0).saved = some (saved0 1 1) ∧ kept.nodeOf k0 = some node0 ∧ node0.cores = [k0] ∧ node0.saves = []
      ∧ (saved0 1 1).cause = 0x3F)
    ∧ (back.st = .placed ∧ back.saves ≠ [] ∧ (∀ x ∈ back.saves, (busy.core x.1).node = some back.id)
      ∧ (back.saves.map fun x => x.1).Nodup ∧ ∀ y ∈ back.saves, y.2.keep.wf = true ∧ y.2.segs = [] ∧ ∀ c ∈ y.2.keep, c.1 < 0x1C0000) := by decide

/-- The node's core has raised its halt line over a version of one byte. -/
def halted : State := busy.modCore k0 fun c => { c with haltLine := true, version := [(0x1000, 7)] }

theorem test_meets_launch_end : halted.node n0 = some node0 ∧ node0.st = .placed ∧ (∀ k ∈ node0.cores, (halted.core k).haltLine = true)
    ∧ node0.desc.done = 0 ∧ (halted.core k0).version.wf = true ∧ (halted.core k0).version.find 0x1000 = some 7
    ∧ node0.desc.ctrl.getLsbD 16 = false ∧ (halted.settleCores node0.cores).captureHeld node0 = false
    ∧ (halted.settleCores node0.cores).doneHeld node0 = false := by decide

/-- The node with CAPT = 1, halted over a capture ring of 16 slots, none of them read. -/
def captured (widx : Nat) : State :=
  let n : Node := { node0 with desc := { node0.desc with ctrl := 0x1F028 } }
  let s := (withNode n busy).modCore k0 fun c => { c with haltLine := true }
  let s := { s with captureRing := some 0x10000, arg := { n := n0 } }
  (s.setQField 0x10000 8 8 4).setQField 0x10000 0x10 8 widx

/-- R340: 14 slots taken leave room for a record, 15 do not. -/
theorem test_capture_ring : ((captured 14).settleCores [k0]).captureHeld (((captured 14).node n0).getD node0) = false
    ∧ ((captured 15).settleCores [k0]).captureHeld (((captured 15).node n0).getD node0) = true := by decide

/-- Die 0 changed. -/
def die0 (f : DieSt → DieSt) : State := busy.modDie 0 f

theorem test_meets_clocks : (Claims.steady (busy.die 0) = true ∧ 1 < 15 ∧ 1 ≠ (busy.die 0).step.val)
    ∧ (((die0 fun d => { d with wantStep := some 1 }).die 0).wantStep.isSome = true
      ∧ ∀ x ∈ busy.cores, x.1.die = 0 → x.2.ctx.atBoundary = true ∧ x.2.ctx.inTree = false ∧ ∀ m ∈ x.2.ctx.me.queue, m.fly = [])
    ∧ ((die0 fun d => { d with stoppedClk := true }).die 0).stoppedClk = true := by decide

/-- A hundredth measurement of mw, 9.99 s after one above 3,000 W. -/
def drawing (mw : Nat) : State := { arg { num := mw } busy with draws := .replicate 99 mw, calm := 999 }

theorem test_meets_power : (∀ d, Claims.steady ((drawing 3300).die d) = true ∧ ((drawing 3300).die d).step.val < 14)
    ∧ (((drawing 3300).arg.num :: (drawing 3300).draws).take 100).length = 100
    ∧ 320000 < (((drawing 3300).arg.num :: (drawing 3300).draws).take 100).sum
    ∧ (((drawing 2900).arg.num :: (drawing 2900).draws).take 100).sum < 300000 ∧ 999 ≤ (drawing 2900).calm
    ∧ (∀ d, Claims.steady ((drawing 2900).die d) = true)
    ∧ ((busy.arg.num :: busy.draws).take 100).length < 100 := by decide

/-- A core that waits for its self-test, held by no node. -/
def testing (k : CoreId) (pass : Bool) : State :=
  arg { k := k, yes := pass } (State.reset.modCore k fun c => { c with selfTest := true, inService := false })

/-- A merge core of cluster 0. -/
def mk : CoreId := ⟨0, 0, 42⟩

theorem test_meets_repair : (arg { mode := .halfArray k0, yes := true } busy).arg.mode = .halfArray k0
    ∧ (arg { mode := .precision 2, yes := true } busy).arg.mode = .precision 2
    ∧ ∀ pass, ((testing mk pass).core mk).selfTest = true ∧ ((testing mk pass).core mk).node = none
        ∧ ∀ x ∈ ((testing mk pass).cluster mk.die mk.cluster).sess.toList, x.st = .free := by decide

/-- Without power, with these queues. -/
def dark (qs : List DrayQ) : State := { State.reset with powered := false, queues := qs }

/-- A Dray queue at pool address 0x4000. -/
def dq : DrayQ := { pa := 0x4000, owner := none, pkts := [], fence := none, waitSince := none, told := false }

theorem test_meets_power_on : ((dark []).powered = false ∧ (dark []).queues = [])
    ∧ ((dark [dq]).powered = false ∧ (dark [dq]).queues = [dq] ∧ dq.pa.toNat + 16 ≤ 2 ^ 51 ∧ (dark [dq]).inPool (dq.pa.toNat + 8) = true
      ∧ (dark [dq]).mem.wf = true ∧ (dark [dq]).bar0.wf = true ∧ (dark [dq]).l2.wf = true ∧ (dark [dq]).stale.wf = true)
    ∧ ((arg { yes := true } busy).die 0).trapQ = []
    ∧ ((dark []).core k0).inService = true ∧ ((dark []).core ⟨0, 0, 40⟩).inService = true ∧ ((dark []).core ⟨0, 0, 40⟩).selfTest = false := by
  decide

/-- A record of core 0.0.0's C with a cause and class. -/
def recOf (code : BitVec 8) (cls : BitVec 2) : TrapRec := { rec0 with code := code, cls := cls, core := cid k0, ids := node0.ids }

/-- An overflow record of core 0.0.0's bank stands in the trap queue. -/
def overflowed : State := busy.modDie 0 fun d => { d with trapQ := [{ recOf 0x28 0 with addr := Claims.ofN (busy.bankPa k0 0) }] }

/-- The sector that core 0.0.0's scrubber reads next has an error. -/
def bad (double : Bool) : State := { busy with ecc := [(Claims.nextSector busy k0, double)] }

theorem test_meets_bank_events : overflowed.installing 0 = false ∧ (∃ r ∈ (overflowed.die 0).trapQ, Claims.overflowOf overflowed k0 r = true)
    ∧ (busy.cluster 0 0).dected = none
    ∧ ((busy.modCluster 0 0 fun c => { c with dected := some 0 }).cluster 0 0).dected = some 0
    ∧ (∀ e ∈ busy.ecc, e.1 ≠ Claims.nextSector busy k0)
    ∧ ∀ double, (bad double).poison.contains (Claims.nextSector (bad double) k0) = false
        ∧ ((bad double).ecc.find? fun e => e.1 == Claims.nextSector (bad double) k0) = some (Claims.nextSector (bad double) k0, double) := by
  decide

/-- The scrubber of core 0.0.0's bank is at a row that is being darned. -/
def darned : State := busy.modCore k0 fun c => { c with repair := { c.repair with darn := some (0, 5) } }

theorem test_meets_scrubs : (darned.core k0).repair.holds (32 * (darned.core k0).scrub) 32 = true
    ∧ ∀ y, ((bad y).core k0).repair.holds (32 * ((bad y).core k0).scrub) 32 = false ∧ ((bad y).core k0).mode ≠ .cache := by decide

/-- Core 0.0.0 samples. -/
def sampling : State := busy.modCore k0 fun c => { c with trace := { c.trace with tctl := 0x010000 } }

/-- A trial of delay 5 on core 0.0.0, whose C has retired 256 words since it last held. -/
def tried : State := (busy.modCore k0 fun c => { c with trial := some { lo := 0, hi := 8, d := 5, inserted := 0 } }).modSeq k0 .c
  fun r => { r with trialCount := 256 }

theorem test_meets_measurement : bitsOf (sampling.core k0).trace.tctl.toNat 20 16 ≠ 0
    ∧ (tried.core k0).trial = some { lo := 0, hi := 8, d := 5, inserted := 0 } ∧ 256 ≤ (tried.seq k0 .c).trialCount := by decide

-- R336: records of one TIME stand in the order C, M, V, T.
theorem test_trace_order : ((((arg {} busy).modCore k0 fun c => { c with trace := { c.trace with tctl := 1 } }).trace k0 1 .v 8 0 0 5).trace k0 1 .c 4 0 0 6
    |>.core k0).trace.publish.slots.map (fun x => (x.1, x.2.seq)) = [(1, 2), (0, 0)] := by decide

/-- The host asks for the byte at an address through BAR2, after reset but for core 0.0.0's bank, which is in SCRATCH mode. -/
def host (pa : Nat) : State := arg { num := pa, num2 := 2, bytes := [1, 2, 3, 4], yes := true } busy

/-- A host access of n bytes is refused. -/
def refusedB (s : State) (n : Nat) (x : Acc) : Bool :=
  match s.target (s.aperture s.arg.num) .device with
  | none => true
  | some t => (match s.refusal hostAgent (Claims.ofN (s.aperture s.arg.num)) t n x with | some (.trap _) => true | _ => false)

theorem test_meets_host_accesses :
    (∀ x ∈ [Acc.load, .store, .atomic], (host (bankKey k0 0x1000)).target ((host (bankKey k0 0x1000)).aperture (bankKey k0 0x1000)) .device
        = some (.bank k0 0x1000)
      ∧ (host (bankKey k0 0x1000)).refusal hostAgent (Claims.ofN (bankKey k0 0x1000)) (.bank k0 0x1000) 8 x = none)
    ∧ (∀ x ∈ [Acc.load, .store], refusedB (host (3 * 2 ^ 39 + 2 ^ 51)) 4 x = true ∧ refusedB (host (bankKey mk 0)) 4 x = true)
    ∧ (host 0x5000).target ((host 0x5000).aperture 0x5000) .device = some (.pool 0x5000 .device) ∧ (host 0x5000).l2 = []
    ∧ (host 0x5000).waiting = [] ∧ (host (bankKey k0 0x1000)).waiting = []
    ∧ ((host (bankKey k0 0x1000)).modCore k0 fun c => { c with drain := 5 }).refusal hostAgent (Claims.ofN (bankKey k0 0x1000)) (.bank k0 0x1000) 4 .store
        = some .hold
    ∧ (host (bankKey k0 0x1000)).aperture (bankKey k0 0x1000) % 8 = 0 ∧ (host 0x5001).aperture 0x5001 % 8 ≠ 0 := by decide

/-- A host write to offset 0x1000 of a multicast group, 5 with the core of the tests as its member, or 6 with none. -/
def hostCast (g : Nat) : State :=
  grouped (arg { num := 2 ^ 51 + 2 ^ 40 + g * 2 ^ 27 + 0x1000, bytes := [1, 2, 3, 4] } busy)

theorem test_meets_host_multicasts :
    (∀ g : Nat, g ∈ [5, 6] → (hostCast g).target ((hostCast g).aperture (hostCast g).arg.num) .device = some (.mcast (BitVec.ofNat 8 g) 0x1000)
      ∧ (hostCast g).refusal hostAgent (Claims.ofN ((hostCast g).aperture (hostCast g).arg.num)) (.mcast (BitVec.ofNat 8 g) 0x1000) 4 .store = none)
    ∧ (hostCast 6).members 6 = [] ∧ (hostCast 5).members 5 = [(n0, k0)]
    ∧ ((hostCast 5).modCore k0 fun c => { c with drain := 5 }).memberHolds hostAgent (n0, k0) 0x1000 4 = true := by decide

theorem test_meets_no_window : ∀ a, (host 0x5000).windowAt a = none := fun _ => rfl

/-- Window 1 of BAR0 is enabled. -/
def windowed : State := arg { num := 1, num2 := 8 } { busy with bar0 := busy.bar0.writeLE 0x202C 4 0x80000000 }

theorem test_meets_host_registers : (busy.bar0.readLE (0x2000 + 32 * 31 + 12) 4).testBit 31 = false ∧ 31 < 32 ∧ 24 % 8 = 0
    ∧ (windowed.arg.num < 32 ∧ (windowed.bar0.readLE (0x2000 + 32 * windowed.arg.num + 12) 4).testBit 31 = true ∧ windowed.arg.num2 = 8
      ∧ windowed.arg.v.getLsbD 63 = false ∧ windowed.bar0.wf = true) := by decide

/-- The node of the tests in a state of its own, on no core. -/
def nodeIn (st : NodeSt) (saves : List (CoreId × Saved)) (dump : List (CoreId × Saved)) : State :=
  { busy with nodes := [{ node0 with st := st, saves := saves, dump := dump }], cores := [] }

theorem test_meets_requests_on_nodes : State.reset.node n0 = none ∧ Claims.lives State.reset n0 = false
    ∧ (∀ c ∈ ([0x02, 0x10] : List (BitVec 8)), ∃ n ∈ (nodeIn (.suspended c) [] []).nodes, (nodeIn (.suspended c) [] []).node n0 = some n ∧ n.st = .suspended c)
    ∧ (busy.node n0 = some node0 ∧ node0.st = .placed ∧ (∀ k ∈ node0.cores, (busy.core k).node = some n0) ∧ node0.cores.Nodup)
    ∧ (∃ n ∈ (nodeIn .waiting [] []).nodes, (nodeIn .waiting [] []).node n0 = some n ∧ n.st ≠ .dumped
        ∧ ¬((nodeIn .waiting [] []).doneHeld n = true) ∧ ∀ k ∈ n.cores, ((nodeIn .waiting [] []).core k).node ≠ some n0)
    ∧ (node0.dump = [] ∧ ∃ n ∈ (nodeIn .dumped [] [(k0, saved0 1 1)]).nodes, (nodeIn .dumped [] [(k0, saved0 1 1)]).node n0 = some n ∧ n.dump ≠ [] ∧ n.st = .dumped)
    ∧ State.reset.runningCores n0 = [] ∧ busy.runningCores n0 ≠ []
    ∧ (∀ n, busy.node n0 = some n → ∀ c, n.st ≠ .suspended c) := by
  refine ⟨by decide, by decide, by decide, by decide, by decide, by decide, by decide, by decide, ?_⟩
  intro n h c
  have e : busy.node n0 = some node0 := by decide
  rw [e] at h; cases h; intro hc; cases hc

/-- The node, suspended, asks for watch 1, whose descriptor at 0x5000 is legal; its slots of the module are taken or not. -/
def watchRequest (full : Bool) : State :=
  let w : Watch := { base := 0, size := 8, ctl := 0, value := 0, hook := 0, frames := [] }
  let n : Node := { node0 with st := .suspended 0x02, watch := if full then vput (.replicate 8 (some w)) 1 none else node0.watch }
  let m := busy.mem.writeBytes 0x5000 (leBytes 8 0x1000 ++ leBytes 8 8 ++ leBytes 8 3)
  arg { n := n0, v := 1, v2 := 0x5000 } { busy with nodes := if full then [n, n, n] else [n], mem := m }

theorem test_meets_watch_requests : Claims.WatchFull (watchRequest true) 1 ∧ ¬ Claims.WatchFull (watchRequest false) 1
    ∧ (Claims.watchAsked (watchRequest false)).isSome = true ∧ Claims.watchAsked { watchRequest false with mem := [] } = none := by
  have e : ∀ y n, (watchRequest y).node (watchRequest y).arg.n = some n → n.watch[1] = none := by
    intro y n h
    cases y <;> (cases h; decide)
  refine ⟨⟨by decide, e true⟩, fun h => absurd h.1 (by decide), by decide, by decide⟩

/-- Group 5 is open on core 0.0.0. -/
def open5 (pa : Nat) : State := arg { v := 5, v2 := Claims.ofN pa } { put 0x2000 [1] busy with groups := [{ id := 5, domain := [k0] }] }

/-- Arena 0x6000, with 1 frame at 0x40000, whose records lie at 0x7000. -/
def arena : State :=
  let m := ((busy.mem.writeBytes 0x6008 (leBytes 8 0x10000)).writeBytes 0x6010 (leBytes 8 0x40000)).writeBytes 0x6018 (leBytes 4 1)
  arg { v := 0x6000 } { busy with mem := m.writeBytes 0x6020 (leBytes 8 0x7000) }

theorem test_meets_requests_on_the_module :
    ((open5 (bankKey k0 0x2000)).target (bankKey k0 0x2000) .cached = some (.bank k0 0x2000) ∧ ((open5 0).group 5).isSome = true
      ∧ (open5 0).group 6 = none ∧ bitmapCores ((open5 0).homeBytes (.bank k0 0x2000) 216) = ([k0], false)
      ∧ ∀ k ∈ [k0], ((open5 0).groups.filter fun x => x.domain.contains k).length < 4)
    ∧ ((busy.qField 0x4000 0x34 4).testBit 3 = false ∧ ((put8 0x2034 8 busy).qField (bankKey k0 0x2000) 0x34 4).testBit 3 = true)
    ∧ ((0x5001 : Nat) % 128 ≠ 0 ∧ 0x5000 % 128 = 0 ∧ (∃ r ∈ busy.pools, r.base ≤ 0x5000 ∧ 0x5000 + 0x80 ≤ r.base + r.size)
      ∧ busy.versions.flatten = [])
    ∧ (64 ≤ ({ busy with arenas := List.range 64 } : State).arenas.length ∧ arena.arenas.length < 64
      ∧ (arena.arenas.all fun a => !framesMeet (arena.arena 0x6000) (arena.arena a)) = true ∧ arena.arenaBad 0x6000 = false
      ∧ arena.target 0x6030 .cached = some (.pool 0x6030 .cached) ∧ Claims.plainTarget (.pool 0x6030 .cached) = true)
    ∧ (0x6000 ∉ arena.arenas ∧ 0x6000 ∈ ({ arena with arenas := [0x6000] } : State).arenas) := by decide

/-- Bytes in pool memory. -/
def pool (pa : Nat) (bs : List Byte) (s : State) : State := { s with mem := s.mem.writeBytes pa bs }

/-- Doublewords in pool memory. -/
def pool8 (pa : Nat) (vs : List Nat) (s : State) : State := pool pa (vs.flatMap (leBytes 8)) s

/-- Queue 0x4000, of 16 slots at 0x8000 and with engine 0, of management; RIDX, WIDX, STATUS, the queue's packets, the slot at RIDX and what
else the Ostler keeps. The event names it. -/
def queue (ridx widx status : Nat) (ps : List Packet) (slot : List Byte) (f : DrayQ → DrayQ := id) : State :=
  let cfg := 4 + 2 ^ 11 + 2 ^ 12 + 2 ^ 16
  arg { pa := 0x4000, job := .queue 0x4000, k := k0 }
    (pool (0x8000 + 64 * ridx) slot (pool8 0x3000 [(va 0x800).toNat, 0] (pool8 0x4000 [0x8000, cfg, widx, ridx, 0x3000, 0, status * 2 ^ 32] { busy with queues := [f { dq with pkts := ps }] })))

/-- 64 bytes that begin with these. -/
def slotOf (bs : List Byte) : List Byte := bs ++ List.replicate (64 - bs.length) 0

theorem parserMay_of {s : State} (pa : PA)
    (h : s.parserGoes (s.dray pa) = true ∧ (∀ p ∈ (s.dray pa).pkts, p.eng ≠ none) ∧ (cfgMgmt (s.qCfg pa.toNat) = true → (s.dray pa).owner = none)
      ∧ s.qField pa.toNat 0x18 8 < s.qField pa.toNat 0x10 8 ∧ s.qField pa.toNat 0x34 4 / 4096 % 16 = 0
      ∧ s.qField pa.toNat 0x34 4 / 2 % 2 = (if (s.dray pa).pkts.isEmpty then 0 else 1)
      ∧ pa.toNat + 64 ≤ 2 ^ 51 ∧ ∀ o, o < 64 → s.inPool (pa.toNat + o) = true) : Claims.ParserMay s pa :=
  ⟨h.1, h.2.1, h.2.2.1, h.2.2.2.1, ⟨h.2.2.2.2.1, h.2.2.2.2.2.1⟩, h.2.2.2.2.2.2⟩

/-- The head of a list is the first of its entries that satisfy p. -/
theorem first_zero {α : Type} {l : List α} {x : α} {p : α → Bool} (h : l[0]? = some x ∧ p x = true) : Claims.First l 0 x p :=
  ⟨h.1, h.2, fun _ _ hj => absurd hj (Nat.not_lt_zero _)⟩

/-- A COPY of 8 bytes from 0x1000 to 0x2000 of core 0.0.0's bank. -/
def copySlot : List Byte :=
  slotOf ([2, 1, 0, 0, 0, 0, 0, 0] ++ leBytes 8 (va 0x1000).toNat ++ leBytes 8 (va 0x2000).toNat ++ leBytes 4 8 ++ List.replicate 30 0 ++ [0xFF, 0xFF])

/-- A queue of the node, which has a packet that has lost its engine. -/
def released (slot : List Byte) : State :=
  (queue 1 1 2 [newPacket 0 slot 0] [] fun q => { q with owner := some { ids := node0.ids, core := k0, grant := 0, groups := [], rights := 15 } }).setQField
    0x4000 8 8 (4 + 2 ^ 11 + 2 ^ 16)

theorem test_meets_parser : Claims.ParserMay (queue 0 1 0 [] copySlot) 0x4000
    ∧ (Claims.slotsAt (queue 0 1 0 [] copySlot) 0x4000 = 1 ∧ (queue 0 1 0 [] copySlot).phaseOk 0x4000 0 = true
      ∧ packetBad (Claims.bytesAt (queue 0 1 0 [] copySlot) 0x4000) = false)
    ∧ Claims.ParserMay (queue 0 1 0 [] (slotOf [16])) 0x4000 ∧ packetBad (Claims.bytesAt (queue 0 1 0 [] (slotOf [16])) 0x4000) = true
    ∧ Claims.ParserMay (queue 0 1 0 [] (slotOf [3])) 0x4000 ∧ (queue 0 1 0 [] (slotOf [3])).phaseOk 0x4000 0 = false := by
  refine ⟨parserMay_of _ ?_, by decide, parserMay_of _ ?_, by decide, parserMay_of _ ?_, by decide⟩ <;> decide

/-- It is engine 0's turn: the slot has been published, or a packet of a queue of the node has lost its engine. -/
theorem test_meets_engine_turn : Claims.Turn (queue 0 1 0 [] copySlot) 0x4000 0 ∧ Claims.Turn (queue 0 1 0 [] (slotOf [16])) 0x4000 0
    ∧ Claims.Turn (released copySlot) 0x4000 0 ∧ cfgMgmt ((released copySlot).qCfg 0x4000) = false
    ∧ Claims.First ((released copySlot).dray 0x4000).pkts 0 (newPacket 0 copySlot 0) (fun x => x.eng.isNone) := by
  refine ⟨?_, ?_, ?_, ?_, first_zero ?_⟩ <;> (try unfold Claims.Turn) <;> decide

/-- A queue that has waited since 0 for what FENCE refers to, 10 ms long. -/
def fenced (bs : List Byte) : State := { queue 0 1 0 [] bs (fun q => { q with waitSince := some 0, fence := some (0, slotOf bs) }) with now := 22500000 }

/-- A queue that has waited 10 ms for slot 0, which has been published in the meantime or not. -/
def parserStalled (slot : List Byte) : State := { queue 0 1 0 [] slot (fun q => { q with waitSince := some 0 }) with now := 22500000 }

theorem test_meets_parser_stall : ((parserStalled (slotOf [3])).dray 0x4000).waitSince = some 0 ∧ ((parserStalled (slotOf [3])).dray 0x4000).fence = none
    ∧ (parserStalled (slotOf [3])).stalledAt 0x4000 = some 0 ∧ (0x4000 : Nat) + 64 ≤ (parserStalled (slotOf [3])).slotPa 0x4000 0
    ∧ (parserStalled copySlot).stalledAt 0x4000 = none ∧ (parserStalled (slotOf [3])).ringHeld 0x4000 0 4 = false
    ∧ (parserStalled (slotOf [3])).target 0x8000 .cached = some (.pool 0x8000 .cached) ∧ Claims.plainTarget (.pool 0x8000 .cached) = true := by decide

theorem test_meets_queue_places : Claims.PoolDesc (parserStalled (slotOf [3])) 0x4000 ∧ (parserStalled (slotOf [3])).MemoryForm
    ∧ (queue 0 1 0 [] []).paHeld 0x4000 64 = false := by
  refine ⟨⟨by decide, by decide⟩, ⟨by decide, by decide, by decide, by decide⟩, by decide⟩

/-- A FENCE on entry 0 of the signal table, generation 0 or 1. -/
def fenceSlot (g : Bool) : List Byte := [6, 1] ++ List.replicate 14 0 ++ [if g then 1 else 0]

theorem test_meets_fences : ((queue 0 1 0 [] [] fun q => { q with waitSince := some 0 }).slotPa 0x4000 0 = 0x8000)
    ∧ ∀ g : Bool, ((fenced (fenceSlot g)).dray 0x4000).fence = some (0, slotOf (fenceSlot g))
      ∧ (fenced (fenceSlot g)).qHalted 0x4000 = false ∧ leAt (slotOf (fenceSlot g)) 1 1 % 16 = 1
      ∧ (fenced (fenceSlot g)).fenceRef ((fenced (fenceSlot g)).dray 0x4000) (leAt (slotOf (fenceSlot g)) 16 4) = !g
      ∧ (fenced (fenceSlot g)).now = 22500000 ∧ ((fenced (fenceSlot g)).dray 0x4000).waitSince = some 0
      ∧ ((fenced (fenceSlot g)).dray 0x4000).told = false := by
  decide

/-- A packet in progress. -/
def packet (bs : List Byte) : Packet := { newPacket 0 (slotOf bs) 0 with eng := some 0 }

/-- The copy of those 8 bytes. -/
def copy8 : CopyJob :=
  { src := va 0x1000, dst := va 0x2000, dim0 := 8, dims := [], ordered := false, arrival := false, interrupt := false, mode := 0, expect := 0
    ctr := 0, read := 8, flight := [], far := 0, adler := 1, poison := false, met := false, loss := none, lostBytes := 0, lost := [] }

/-- One unit of it, read and not landed. -/
def unit8 : CopyUnit :=
  { pos := 0, src := (va 0x1000).toNat, dst := (va 0x2000).toNat, size := 8, data := some (clean (leBytes 8 7)) }

/-- A landing unit of 8 bytes of a mover has its place in the bank. -/
def landsAt (s : State) (m : Mover) : Bool :=
  !s.moverCut m unit8.dst 8 .store && s.portsAllow [(.bank k0 0x2000, 8)] true && (match s.moverTargets m .store (cutRange 128 unit8.dst 8) with
    | .ok l => decide (l = [(.bank k0 0x2000, unit8.dst, 8)]) | .error _ => false)

/-- A SIGNAL at 0x900 of the bank, by 3. -/
def signalSlot : List Byte := [8, 0, 0, 0, 0, 0, 0, 0] ++ leBytes 8 (va 0x900).toNat ++ leBytes 4 3 ++ List.replicate 38 0 ++ [0xFF, 0xFF]

/-- A SPAWN of a descriptor. -/
def spawnSlot (d : W64) : List Byte := [10, 0, 0, 0, 0, 0, 0, 0] ++ leBytes 8 d.toNat ++ List.replicate 42 0 ++ [0xFF, 0xFF]

/-- A node descriptor with a gang of one array core, and fare, at 0x1100 of the bank, of which a SPAWN is in progress. -/
def spawning : State :=
  put 0x1100 (leBytes 8 0 ++ leBytes 8 0x20 ++ leBytes 4 5 ++ leBytes 4 5) (queue 1 1 2 [packet (spawnSlot (va 0x1100))] [])

/-- The SPAWN reads its descriptor and finds it in order. -/
def spawns (s : State) (p : Packet) : Bool :=
  match s.moverRead (s.queueMover (s.dray s.arg.pa) p.idx) (p.at 8 8) 256 with
  | .error _ => false
  | .ok (t, cs) =>
    t.spawnStatus (Claims.queueSpawner s t s.arg.pa cs) (p.at 8 8) (plain cs) == 0
      && !t.packetHeld (s.queueAgent (s.dray s.arg.pa)) (Claims.ofN (leAt (plain cs) 0x18 8))
      && (match t.moverRead (s.queueMover (s.dray s.arg.pa) p.idx) (leAt (plain cs) 0x28 8)
          (4 * bitsOf (descOf (plain cs) 0).deps.toNat 15 0) with | .ok _ => true | .error _ => false)

theorem test_meets_packets :
    (Claims.QueueGoes (queue 1 1 2 [packet []] []) 0x4000 ∧ (packet []).type = 0)
    ∧ ((packet copySlot).type = 1 ∧ (packet copySlot).job = none ∧ (packet copySlot).at 2 1 = 0)
    ∧ (Claims.PoolDesc (queue 1 1 2 [packet copySlot] []) 0x4000 ∧ Claims.BusyRight (queue 1 1 2 [packet copySlot] []) 0x4000
      ∧ copy8.read = copy8.total ∧ (clean (leBytes 8 7)).length = 8
      ∧ ((queue 1 1 2 [packet copySlot] []).cluster (cfgDie ((queue 1 1 2 [packet copySlot] []).qCfg 0x4000))
          (cfgCluster ((queue 1 1 2 [packet copySlot] []).qCfg 0x4000))).moved = 0
      ∧ landsAt (queue 1 1 2 [packet copySlot] []) ((queue 1 1 2 [packet copySlot] []).queueMover dq 0) = true)
    ∧ ((packet signalSlot).type = 4 ∧ (packet signalSlot).at 58 2 = 0xFFFF ∧ (packet signalSlot).at 8 8 ≠ 0
      ∧ (match (queue 1 1 2 [packet signalSlot] []).check ((queue 1 1 2 [packet signalSlot] []).queueAgent dq) []
          (Claims.ofN ((packet signalSlot).at 8 8)) 8 8 .atomic with | .ok (t, _) => decide (t = .bank k0 0x900) | .error _ => false) = true)
    ∧ ((packet (spawnSlot 1)).type = 5 ∧ (packet (spawnSlot 1)).at 8 8 % 2 ^ 64 % 256 ≠ 0 ∧ (packet (spawnSlot 1)).at 16 8 = 0)
    ∧ ((packet (spawnSlot (va 0x1100))).at 8 8 % 256 = 0 ∧ spawns spawning (packet (spawnSlot (va 0x1100))) = true) := by
  refine ⟨⟨by unfold Claims.QueueGoes; decide, by decide⟩, by decide, ⟨⟨by decide, by decide⟩, by unfold Claims.BusyRight; decide, ?_, ?_, ?_, ?_⟩,
    by decide, by decide, by decide⟩ <;> decide

/-- An engine works on the packets of the tests, the first of their queues. -/
theorem test_meets_worked : ∀ bs ∈ [[], copySlot, spawnSlot 1],
    Claims.Worked ((queue 1 1 2 [packet bs] []).dray 0x4000).pkts 0 (packet bs) (fun x => x.type == (packet bs).type && !x.worked) :=
  fun bs h => first_zero (by revert bs; decide)

/-- A GATHER in progress: 1 element of 8 bytes of the table at 0x1000, index list at 0x1400, to 0x2000. -/
def gather1 (took : List Nat) : GatherJob :=
  { kind := 0, table := va 0x1000, list := va 0x1400, n := 1, e := 8, other := va 0x2000, iw := 4, pair := 0, arrival := false, fmts := (0, 0)
    took := took, arrived := 0, missing := none, poison := false, loss := false, listed := false, lost := [] }

/-- A job takes its next element without a fault. -/
def takes (s : State) (m : Mover) (j : GatherJob) : Bool :=
  match s.elemStep m j j.took.length with
  | .ok o => o.fault.isNone && o.row.isNone
  | .error _ => false

/-- A SPAWN that has nothing left to do, with signal 0xFFFF or 1. -/
def spawned (sig : Byte) : Packet := { packet ([10] ++ List.replicate 57 0 ++ [sig, if sig = 1 then 0 else sig]) with worked := true }

theorem test_meets_completions :
    ((packet [14]).type = 7 ∧ (gather1 []).took.length ≠ (gather1 []).n ∧ (gather1 [0]).took.length = (gather1 [0]).n
      ∧ takes (queue 1 1 2 [{ packet [14] with gjob := some (gather1 []) }] [])
          ((queue 1 1 2 [{ packet [14] with gjob := some (gather1 []) }] []).queueMover dq 0) (gather1 []) = true)
    ∧ ((spawned 0xFF).over = true ∧ (spawned 0xFF).type ≠ 6 ∧ (spawned 0xFF).at 58 2 = 0xFFFF ∧ (spawned 0xFF).job = none)
    ∧ ((spawned 1).over = true ∧ (queue 1 1 2 [spawned 1] []).sigEntry dq (spawned 1) = some 0x3010
      ∧ (queue 1 1 2 [spawned 1] []).homeLE 0x3010 8 = 0 ∧ (∀ o, o < 16 → (queue 1 1 2 [spawned 1] []).inPool (0x3010 + o) = true)
      ∧ (spawned 1).deferred = [] ∧ (spawned 1).mismatch = false)
    ∧ (queue 0 1 4 [] []).qField 0x4000 0x34 4 / 4 % 2 = 1 := by decide

/-- A suspended queue whose root table is that of the tests' map, with a fault of it in the trap queue. -/
def faulted (kind : BitVec 4) : State :=
  let s := (mapped (queue 0 1 4 [] [])).setQField 0x4000 0x28 8 (bankKey k0 0x1000)
  s.modDie 0 fun d => { d with trapQ := [{ recOf 0x10 0 with kind := kind, who := queueWho 0x4000 0 }] }

theorem test_meets_queue_faults : (faulted 2).installing (cfgDie ((faulted 2).qCfg 0x4000)) = false ∧ (faulted 2).qField 0x4000 0x34 4 / 4 % 2 = 1
    ∧ (Claims.queueRecs (faulted 2)).map (fun r => (r.code, r.kind)) = [(0x10, 2)]
    ∧ (match (Claims.noQueueRecs (faulted 2)).cow ((Claims.noQueueRecs (faulted 2)).queueAgent ((Claims.noQueueRecs (faulted 2)).dray 0x4000)).root
        ((Claims.noQueueRecs (faulted 2)).queueTask ((Claims.noQueueRecs (faulted 2)).dray 0x4000)) 0 with | .done _ => true | _ => false) = true
    ∧ ∀ r ∈ Claims.queueRecs (faulted 0), ¬(r.code = 0x10 ∧ r.kind = 2) := by decide

/-- A REDUCE of 32 FP32 elements at 0x1000 in chunks of 64 bytes, collective 9, through ring 0, of this module and module 1. -/
def reduceSlot : List Byte :=
  [12, 0, 0, 0, 0, 0, 0, 0] ++ leBytes 8 (va 0x1000).toNat ++ leBytes 8 (va 0x2000).toNat ++ leBytes 4 32 ++ leBytes 4 0 ++ leBytes 4 9
    ++ leBytes 4 64 ++ List.replicate 18 0 ++ [0xFF, 0xFF]

/-- It is in progress, begun or not. -/
def reducing (begun : Bool) (cs : List Chunk) : State :=
  let s := queue 1 1 2 [{ packet reduceSlot with worked := begun, chunks := cs }] []
  arg { pa := 0x4000, num := 0, num2 := 9, words := List.replicate 16 0 }
    { s with now := 22500000
             bar0 := (s.bar0.writeLE (ringEntry 0 + 8) 2 2).writeLE (ringEntry 0 + 0x12) 2 1 }

/-- Its chunk 0. -/
def chunk0 : Chunk := { i := 0, words := List.replicate 16 0, poison := false }

/-- The contributions that a REDUCE begins with, and the one to chunk 0, can be read. -/
def contributes (s : State) (p : Packet) : Bool :=
  (match s.starts (s.queueMover (s.dray s.arg.pa) p.idx) p ((List.range p.chunkCount).filter fun c => (c + 1) % s.ringSize (p.at 28 1) == 0) with
    | .ok (_, cs) => cs.length == 1 && cs.all (fun c => !c.poison) | .error _ => false)
    && (match s.contribution (s.queueMover (s.dray s.arg.pa) p.idx) p 0 with | .ok (_, c) => !c.poison | .error _ => false)

theorem test_meets_collectives : (packet reduceSlot).type = 6 ∧ (reducing false []).ringPos ((packet reduceSlot).at 28 1) = some 0
    ∧ contributes (reducing false []) (packet reduceSlot) = true ∧ (packet reduceSlot).chunkCount = 2
    ∧ (∀ p ∈ ((reducing true [chunk0]).dray 0x4000).pkts, p.collecting = true ∧ p.at 32 4 = 9 ∧ p.chunkElems 0 = 16 ∧ p.results = []
        ∧ p.told = false ∧ p.since + 22500000 ≤ (reducing true [chunk0]).now ∧ ∃ c ∈ p.chunks, c.i = 0)
    ∧ (∀ p ∈ ((reducing true []).dray 0x4000).pkts, p.collecting = true ∧ p.chunks = []) := by decide

/-- The packet in progress, with a partial of chunk 0 that is still to be combined, and an engine or none. -/
def holding (e : Option (Fin 4)) : State :=
  { reducing true [] with queues := [{ dq with pkts := [{ packet reduceSlot with worked := true, got := [chunk0], eng := e }] }] }

theorem test_meets_reductions : Claims.Reduces (reducing false []) 0 (packet reduceSlot)
    ∧ Claims.Reduces (holding (some 0)) 0 { packet reduceSlot with worked := true, got := [chunk0] }
    ∧ (contributes (holding (some 0)) (packet reduceSlot) = true ∧ (holding (some 0)).ringPos ((packet reduceSlot).at 28 1) = some 0)
    ∧ Claims.Receives (reducing true []) 0 { packet reduceSlot with worked := true }
    ∧ Claims.Agrees (reducing true []) { packet reduceSlot with worked := true }
    ∧ (let s := (reducing true []).modPkt 0x4000 0 (Claims.withPartial (reducing true []))
       Claims.QueueGoes s 0x4000 ∧ s.ringSize ((packet reduceSlot).at 28 1) = (reducing true []).ringSize ((packet reduceSlot).at 28 1)
         ∧ contributes s (packet reduceSlot) = true) := by
  unfold Claims.Reduces Claims.Receives Claims.Worked
  refine ⟨first_zero ?_, first_zero ?_, ?_, first_zero ?_, ⟨?_, ?_, ?_, ?_, ?_, ?_⟩, ?_⟩ <;> (try unfold Claims.QueueGoes) <;> decide

/-- No pushes and no signals. -/
def noFin : Fin' := { push := [], sig := [], unbound := false }

/-- A T command that has begun. -/
def tcmd (op : TOp) : TCmd :=
  { op := op, seqn := 0, pc := 0, pops := [], waits := [], fin := noFin, sigSlot := EventSlot.unbound, started := true, stop := none, badIdx := false
    mcSkip := false, deferred := [], fmt := none, skip := 0 }

/-- Core 0.0.0's T has these commands, and the event names the core. -/
def transferring (l : List TCmd) : State := (arg { k := k0, n := n0, job := .core k0 } busy).modTe k0 fun e => { e with queue := l }

theorem transfers (c : TCmd) (h : c.started = true ∧ c.stop = none) : Claims.TFirst (transferring [c]) k0 c [] :=
  ⟨rfl, rfl, rfl, h.1, h.2, rfl⟩

/-- A multicast of 8 bytes to group 5 at offset 0x2000. -/
def mcast (m : Option (List ((NodeId × CoreId) × Nat))) : McastJob :=
  { src := va 0x1000, group := 5, off := 0x2000, n := 8, members := m, sent := 0, poison := false }

/-- The T mover of the first command. -/
def tm (s : State) (op : TOp) : Mover := s.tMover k0 (tcmd op)

theorem test_meets_t_commands :
    (landsAt ((transferring [tcmd (.copy { copy8 with flight := [unit8] })]).beforeFolds k0 0) (tm busy (.copy copy8)) = true
      ∧ (∀ n ∈ (transferring []).nodes, n.watch = .replicate 8 none))
    ∧ (((transferring []).ctx k0).mayRead (gather1 []) = true ∧ takes (transferring []) (tm busy (.gather (gather1 []))) (gather1 []) = true)
    ∧ ((mcast none).members = none ∧ busy.members 5 = [])
    ∧ (min 8 (128 - 0x2000 % 128) = 8 ∧ (match (transferring []).moverRead (tm busy (.mcast (mcast none))) (va 0x1000).toNat 8 with
        | .ok (s, bs) => decide (bs = clean (List.replicate 8 0) ∧ s.mem = busy.mem) && s.receives (s.agent k0) (n0, k0) | .error _ => false) = true)
    ∧ ((transferring [tcmd .fence]).ctx k0).tOver (tcmd .fence) = true := by decide

/-- T of core 0.0.0 multicasts to a group whose one member is a core: itself, or one of another cluster, whose node grants it. -/
def casting (p : CoreId) (at_ : Nat) : State :=
  let s := (transferring [tcmd (.mcast (mcast (some [((n0, p), at_)])))]).modCore p fun c => { c with node := some n0, mode := .scratch }
  { s with nodes := [{ node0 with cores := [k0, p], desc := { node0.desc with grant := BitVec.allOnes 64, gvalid := 1, group := 5 } }],
           groups := [{ id := 5, domain := [k0, p] }] }

/-- The unit of it in the broadcast tree, with n cycles left. -/
def inTree (n : Nat) : TreeUnit := { left := n, k := k0, seqn := 0, group := 5, off := 0x2000, data := clean (List.replicate 8 0) }

/-- A core of the next cluster. -/
def k1 : CoreId := ⟨0, 1, 0⟩

/-- The source of the multicast can be read, and its member takes it. -/
def casts (p : CoreId) : Bool :=
  let s := casting p 0
  let c := tcmd (.mcast (mcast (some [((n0, p), 0)])))
  !s.mcHeld k0 [(n0, p)] 0x2000 8 && s.portsAllow [(.bank p 0x2000, 8)] true
    && (s.mcWatch (s.tMover k0 c) 5 0x2000 (clean (List.replicate 8 0))).isNone && (match (s.beforeFolds k0 0).moverRead (s.tMover k0 c) (va 0x1000).toNat 8 with
    | .ok (t, bs) => decide (bs = clean (List.replicate 8 0) ∧ t.mem = s.mem) && (t.withQueueOf s k0).receives ((t.withQueueOf s k0).agent k0) (n0, p)
    | .error _ => false)

theorem test_meets_multicasts : (casts k0 = true ∧ ((casting k0 0).cluster 0 0).entered + 8 ≤ 256 ∧ sameCluster k0 k0 = true)
    ∧ (casts k1 = true ∧ sameCluster k1 k0 = false)
    ∧ ((casting k0 0).receives ((casting k0 0).agent k0) (n0, k0) = true ∧ (inTree 1).left = 1 ∧ 1 < (inTree 12).left
      ∧ (((casting k0 0).modCluster 0 0 fun c => { c with tree := [inTree 1] }).cluster 0 0).tree = [inTree 1]) := by decide

/-- A fold: 2 rows of 4 bytes become rows of 2, from 0x1000 to 0x2000. -/
def fold0 (started : Bool) : FoldJob :=
  { op := 0, src := [(bankKey k0 0x1000, 8)], dst := [(bankKey k0 0x2000, 8)], g := 0x100040002, x := 0, since := 0, started := started
    left := if started then 0 else 1, poison := false }

/-- The cluster's fold engine performs it. -/
def folding : State := (transferring [tcmd (.fold (fold0 true))]).modCluster 0 0 fun c => { c with folding := some k0 }

theorem test_meets_fold_engine :
    ((transferring [tcmd (.fold (fold0 false))]).firstFold 0 0 = some (k0, 0)
      ∧ (transferring [tcmd (.fold (fold0 false))]).foldReady k0 = some (0, tcmd (.fold (fold0 false)), fold0 false)
      ∧ ((transferring [tcmd (.fold (fold0 false))]).cluster 0 0).folding = none
      ∧ ((transferring [tcmd (.fold (fold0 false))]).ctx k0).regEcc = []
      ∧ (transferring [tcmd (.fold (fold0 false))]).accessed 0 0 ((fold0 false).src ++ (fold0 false).dst) = false ∧ (fold0 true).left = 0)
    ∧ ((folding.cluster 0 0).folding = some k0 ∧ Claims.tq folding k0 = [tcmd (.fold (fold0 true))]
      ∧ (foldBytes 0 0x100040002 0 (folding.foldRead (fold0 true).src) []).1.length = 8) := by decide

/-- A PERMUTE of 2 rows of 4 bytes, by the index list at 0x1800, to a destination of two pieces. -/
def permute : FoldJob := { fold0 true with op := 1, x := va 0x1800, dst := [(bankKey k0 0x2000, 4), (bankKey k0 0x3000, 4)] }

/-- It is performed. -/
def permuting : State := (put 0x1800 [1] (transferring [tcmd (.fold permute)])).modCluster 0 0 fun c => { c with folding := some k0 }

theorem test_meets_fold_places : Claims.Banks (fold0 true).dst ∧ Claims.Banks permute.dst
    ∧ (match Claims.indexList permuting k0 (tcmd (.fold permute)) permute with
        | .ok (s, ib) => decide ((foldBytes 1 permute.g permute.x (s.foldRead permute.src) (plain ib)).1.length = 8) | .error _ => false) = true := by
  refine ⟨⟨?_, by decide⟩, ⟨?_, by decide⟩, by decide⟩
  · intro r h
    simp only [fold0, List.mem_singleton] at h
    exact ⟨k0, 0x2000, by rw [h], by rw [h]; decide⟩
  · intro r h
    simp only [permute, List.mem_cons, List.not_mem_nil, or_false] at h
    rcases h with h | h
    · exact ⟨k0, 0x2000, by rw [h], by rw [h]; decide⟩
    · exact ⟨k0, 0x3000, by rw [h], by rw [h]; decide⟩

/-- Core 0.0.0's chain context 0. -/
def chained (c : Chain) : State := (transferring []).modChain k0 0 fun _ => c

/-- An entry at 0x1200 of the bank: a copy of 8 bytes, with WAIT flag or none. -/
def entry (op : Byte) (flags : Nat) : List Byte :=
  slotOf ([op, 1, 0, 0, 0, 0, 0, 0] ++ leBytes 8 (va 0x1000).toNat ++ leBytes 8 (va 0x2000).toNat ++ leBytes 4 8)
    ++ leBytes 8 0 ++ leBytes 8 (va 0x800).toNat ++ leBytes 8 1 ++ leBytes 8 0 ++ leBytes 8 flags ++ List.replicate 24 0

/-- A context at that entry. -/
def ctx0 (st : ChainSt) (img : List Byte) (job : Option CopyJob) : Chain :=
  { st := st, entry := va 0x1200, adler := 1, img := img, job := job, met := false, pc := 0, q := .c, faults := [], fin := noFin }

/-- The entry can be read after its STATUS is cleared, and STATUS written again. -/
def readsEntry (s : State) (bs : List Byte) : Bool :=
  let c := s.chainOf k0 0
  match s.chainPut (s.chainMover k0 c) (c.entry + 0x68) 8 0 with
  | .error _ => false
  | .ok s =>
    match s.moverRead (s.chainMover k0 c) c.entry.toNat 128 with
    | .error _ => false
    | .ok (s, l) => plain l == bs && (match s.chainPut (s.chainMover k0 c) (c.entry + 0x68) 8 0x20 with | .ok _ => true | .error _ => false)

/-- What the wait of an entry with WAIT says of WAITA, 0 where none is, a place in the bank, or an address that is none. -/
def chainWait (waita : W64) : Option Bool :=
  let img := (entry 2 1).take 0x48 ++ leBytes 8 waita.toNat ++ (entry 2 1).drop 0x50
  let s := chained (ctx0 .running img none)
  match s.chainMet (s.chainMover k0 (ctx0 .running img none)) (ctx0 .running img none) with
  | .ok b => some b
  | .error (.trap _) => none
  | .error _ => some true

theorem test_meets_chain_waits : chainWait (va 0x800) = some false ∧ chainWait 0xFFFFFFFFFFFFFFF8 = none
    ∧ ((chained (ctx0 .running [] none)).cluster 0 0).moved < 16 ∧ (ctx0 .running [] none).faults = [] := by decide

theorem test_meets_chain_entries :
    ((ctx0 .running (entry 2 1) none).active = true ∧ (copyOf (entry 2 1)).isSome = true ∧ (chained (ctx0 .running (entry 2 1) none)).chainMayStart k0 = true)
    ∧ (readsEntry (put 0x1200 (entry 2 0) (chained (ctx0 .running [] none))) (entry 2 0) = true
      ∧ (∀ j ∈ (copyOf (entry 2 0)).toList, j.dims.length ≤ 3) ∧ leAt (entry 2 0) 0 1 / 2 % 16 = 1 ∧ leAt (entry 2 0) 0x60 8 = 0)
    ∧ (copyOf (List.replicate 128 0) = none ∧ readsEntry (chained (ctx0 .running [] none)) (List.replicate 128 0) = true)
    ∧ landsAt (chained (ctx0 .running (entry 2 0) (some { copy8 with flight := [unit8] })))
        ((chained (ctx0 .running (entry 2 0) (some copy8))).chainMover k0 (ctx0 .running (entry 2 0) (some copy8))) = true
    ∧ ((chained (ctx0 .running (entry 2 0) (some copy8))).tGoes k0 = true ∧ copy8.over = true ∧ idIndex copy8.ctr = 0
      ∧ (match (chained (ctx0 .running (entry 2 0) (some copy8))).moverCheck
          ((chained (ctx0 .running (entry 2 0) (some copy8))).chainMover k0 (ctx0 .running (entry 2 0) (some copy8))) (va 0x1240).toNat 64 .atomic with
        | .ok t => decide (t = .bank k0 0x1240) | .error _ => false) = true) := by decide

/-- An M command that has begun, its shadow fields given as (number, value). -/
def mcmd (op : MOp) (fs : List (Fin 16 × W64)) : MCmd :=
  { op := op, w := fs.foldl (fun w x => vput w x.1 x.2) (.replicate 16 0), seqn := 0, pc := 0, quad := false, sparse := none, rnd := 0, sat := 0
    pops := [], waits := [], fin := noFin, started := true, swapped := false, tiles := [0], next := 0, arrived := 0, seen := 0, took := [], fly := []
    stop := none, poisonTag := none, nPoison := 0, nDup := 0, deferred := [], lost := [], again := none, refused := false, skip := 0 }

/-- Core 0.0.0's M has these commands. -/
def multiplying (l : List MCmd) : State := busy.modMe k0 fun e => { e with queue := l }

theorem multiplies (c : MCmd) (h : c.started = true ∧ c.stop = none) : Claims.MFirst (multiplying [c]) k0 c [] :=
  ⟨rfl, rfl, h.1, h.2, rfl⟩

/-- An MRUN of 2 rows from tile 0, with slots, DUP and SWAPB bits of the fields. -/
def mrun (slots : Nat) (f0 : W64) : MCmd := mcmd .run [(0, 1 ||| f0), (7, BitVec.ofNat 64 (slots * 2 ^ 32 + 2))]

/-- A row that has reached its slot 0. -/
def due0 (poison : Bool) : FlyRow := { left := 0, g := 0, sums := List.replicate 64 7, poison := poison, first := true, int := false }

/-- The next row lies in a tile. -/
def tileRowB (s : State) (c : MCmd) : Bool :=
  c.op == .run && decide (c.arrived < c.rows) && decide (c.arrived < 2 ^ 24) && c.src == 1 && c.sparse.isNone
    && !(s.core k0).halfBusy && !(c.mode (s.ctx k0).wact.fmt?).1.mx && decide ((c.tileAt c.arrived).1 ≤ 15)

theorem test_meets_rows :
    ({ mrun 2 0x1000000 with started := false }.swaps = true
      ∧ (multiplying [{ mrun 2 0x1000000 with started := false }]).mCanStart k0 0 { mrun 2 0x1000000 with started := false } = true
      ∧ (multiplying []).mGoes k0 0 = true)
    ∧ (tileRowB (multiplying [mrun 2 0]) (mrun 2 0) = true ∧ (mrun 2 0).slots = 2 ∧ (mrun 2 0).seen.getLsbD 0 = false
      ∧ ((multiplying [mrun 2 0]).ctx k0).wact.poison = false)
    ∧ (tileRowB (multiplying [mrun 0 0]) (mrun 0 0) = true ∧ (mrun 0 0).slots = 0 ∧ ((multiplying [mrun 0 0]).ctx k0).arrayEmpty = true)
    ∧ (∀ d ∈ [1, 2], (mrun 2 (BitVec.ofNat 64 (d * 2 ^ 20))).f 0 21 20 = d
        ∧ { mrun 2 (BitVec.ofNat 64 (d * 2 ^ 20)) with seen := 1 }.seen.getLsbD 0 = true) := by decide

/-- An MDRAIN of 1 slot as FP32 rows to 0x2000 of the bank. -/
def mdrain : MCmd := mcmd (.drain 4) [(5, va 0x2000), (7, BitVec.ofNat 64 (2 ^ 32))]

theorem test_meets_slots :
    (∀ p, (due0 p).left = 0 ∧ { mrun 2 0 with fly := [due0 p] }.per = 1 ∧ (mrun 2 0).slotb + (due0 p).g < 512 ∧ (due0 p).sums.length = 64
      ∧ ((multiplying []).ctx k0).regEcc = [])
    ∧ ((busy.ctx k0).acc.wf = true ∧ { mrun 2 0 with arrived := 2 }.arrived = (mrun 2 0).rows)
    ∧ (drainDest 4 = 0 ∧ mdrain.next < mdrain.slots ∧ ((multiplying [mdrain]).ctx k0).slotPoison 0 = false ∧ isMx (drainFmt mdrain.fmto).1 = false
      ∧ (∀ n ∈ (multiplying [mdrain]).nodes, n.watch = .replicate 8 none)
      ∧ (match (multiplying [mdrain]).moverTargets ((multiplying [mdrain]).mMover k0 mdrain) .store (cutRange 128 (va 0x2000).toNat
            (drainBytes mdrain.fmto)) with
          | .ok l => decide (l = Claims.banked k0 0x2000 (va 0x2000).toNat (drainBytes mdrain.fmto)) | .error _ => false) = true)
    ∧ (multiplying [mdrain]).portsAllow ((Claims.banked k0 0x2000 (va 0x2000).toNat (drainBytes mdrain.fmto)).map fun p => (p.1, p.2.2)) true = true := by
  decide

/-- A pending store of 8 bytes. -/
def store8 (pa : Nat) (p : Policy) : PendingStore := { pa := pa, policy := p, data := leBytes 8 7, pc := 0, land := 0, todo := none, begun := false }

/-- A pending load of 8 bytes of the own bank. -/
def load8 : PendingLoad := { pa := bankKey k0 0x1000, policy := .device, z := 3, sx := false, value := none }

/-- A row of V on its way to tile 2, row 3. -/
def landing8 : Landing :=
  { left := 0, replay := false, port := 0, tile := 2, row := 3, off := 8, data := leBytes 8 7, mask := 0xFF, fromC := false, ended := false, fin := noFin }

/-- A tile move of 2 rows of tile 4. -/
def move2 (load : Bool) : TileMove :=
  { q := .c, load := load, tile := 4, row := 1, count := 2, rows := List.replicate 2 (List.replicate 128 7), near := true, pc := 0, fin := noFin }

/-- A copy-on-write trap of core 0.0.0's C, at a page whose frame has one reference, in an arena, or in none. -/
def cowTrap (addr : W64) : TrapRec := { recOf 0x10 0 with kind := 2, addr := addr }

/-- That trap alone stands in the trap queue, of a node whose page lies in an arena or in none. -/
def cowState (known : Bool) : State := (if known then mapped State.reset else busy).modDie 0 fun d => { d with trapQ := [cowTrap 0] }

theorem test_meets_pending :
    ((cowState true).installing 0 = false ∧ busy.arg.yes = false ∧ busy.target 0x5000 .cached = some (.pool 0x5000 .cached) ∧ 0x5000 % 32 = 0
      ∧ (busy.seq k0 .c).load = none ∧ (busy.seq k0 .c).reads = [] ∧ (busy.seq k0 .c).late = [])
    ∧ (∀ x ∈ [(store8 (bankKey k0 0x2000) .device, Target.bank k0 0x2000), (store8 0x5000 .cached, Target.pool 0x5000 .cached)],
      busy.storeTarget x.1 = some x.2) ∧ busy.storeTarget (store8 (3 * 2 ^ 39 + 2 ^ 51) .device) = none
    ∧ (busy.target load8.pa load8.policy = some (.bank k0 0x1000) ∧ busy.ecc = [] ∧ busy.poisoned (bankKey k0 0x1000) 8 = false
      ∧ ({ busy with poison := [bankKey k0 0x1000 / 32] } : State).poisoned (bankKey k0 0x1000) 8 = true)
    ∧ ((store8 0 .cached).land = 0 ∧ (store8 0 .cached).begun = false ∧ busy.portsAllow [(.bank k0 0x2000, 8)] true = true ∧ 0x1000 % 2 ^ 3 = 0
      ∧ (busy.core k0).version = [] ∧ 0 < { store8 0 .cached with land := 12 }.land ∧ (busy.seq k0 .c).inTree = [])
    ∧ ((busy.core k0).saved = none ∧ (busy.ctx k0).tiles.wf = true ∧ ([landing8].filter fun x => x.left == 0) = [landing8]
      ∧ landing8.mask = 0xFF#8 ∧ landing8.off + landing8.data.length ≤ 128)
    ∧ ((move2 true).load = true ∧ (move2 false).load = false ∧ 1 + (move2 true).rows.length ≤ 32 ∧ ∀ r ∈ (move2 true).rows, r.length = 128)
    ∧ ((cowTrap 0).code = 0x10 ∧ (cowTrap 0).kind = 2 ∧ (cowTrap 0).cls = 0 ∧ (cowTrap 0).core = cid k0 ∧ seqOf (cowTrap 0).seq.toNat = .c
      ∧ (cowState true).nodeOf k0 = some node0)
    ∧ (match (cowState true).cow node0.root (some n0) 0 with | .done _ => true | _ => false) = true
    ∧ (match (cowState false).cow node0.root (some n0) 0 with | .forward _ => true | _ => false) = true
    ∧ (match (put8 0x300 2 (put8 0x5000 (bankKey k0 0x10000 + 0x187) (cowState true))).cow node0.root (some n0) 0 with
        | .noFrame => true | _ => false) = true ∧ (cowTrap 0).objects = false
    ∧ (∀ y, (cowState y).recordDue 0 (cowTrap 0) = true) ∧ busy.stuck k0 (busy.seq k0 .c) = []
    ∧ busy.storeHeld k0 (store8 (bankKey k0 0x2000) .device) = false := by decide

/-- The session of the tests changed, and a record of row 5, column 6, sent to it by core 0.0.0. -/
def sent (f : Session → Session) : State :=
  arg { k := k0, v := 0x400, words := [7] } ((session busy).modSess (0, 0, 0) f)

/-- A run of n records. -/
def runOf (n : Nat) (isOpen : Bool) : Run :=
  { stream := 0, isOpen := isOpen, recs := (List.range n).map fun i => { row := 0, col := BitVec.ofNat 24 i, stream := 0, seqn := BitVec.ofNat 32 i
                                                                         poison := false, isRow := false, vals := [0x3F800000] } }

/-- A session that must spill its run, with n bytes of its segment used. -/
def spilling (n : Nat) : State := sent fun se => { se with runs := [runOf 2 false], wantSpill := 1, wpos := n }

/-- A spill of this run is made next. -/
def spillsB (s : State) (r : Run) : Bool :=
  let se := s.sess (0, 0, 0)
  decide (se.st ≠ .free ∧ se.st ≠ .stalled ∧ se.waiting = none ∧ se.emitted = 0 ∧ se.header = false ∧ se.wantSpill ≠ 0
    ∧ ((s.modSess (0, 0, 0) Session.readySpill).sess (0, 0, 0)).closedRun = some r)

/-- The run is written: it fits. -/
def spills (s : State) : Bool :=
  let s := s.modSess (0, 0, 0) Session.readySpill
  let se := s.sess (0, 0, 0)
  let r := runOf 2 false
  decide (se.hruns.length < se.dirn ∧ se.segs.getLast? = some (va 0x8000, 0x4000) ∧ se.wpos + (Claims.runRecord se false r.recs).length ≤ 0x4000)
    && (match s.mgWrites (s.mgMover se) (Claims.runWrites se (va 0x8000) false r.recs 0) with | .ok _ => true | .error _ => false)

/-- A session that the Ostler has in hand. -/
def stuck (code : BitVec 8) : State := sent fun se => { se with waiting := some (recOf code 2) }

/-- A session that merges n runs of its hamper. -/
def merging (n : Nat) : State :=
  sent fun se => { se with st := .merging, rowptr := va 0x10000, coord := va 0x11000, vals := va 0x12000, desc := va 0x100, rows := 2, sctl := 0x200000
                           hruns := (List.range n).map fun i => { id := i, seg := 0, off := 0, merged := false, consumed := false, recs := (runOf 1 false).recs } }

/-- The same where the Mangle can emit m records more in this cycle. -/
def emitting (n m : Nat) : State := (merging n).modCluster 0 0 fun c => { c with emit := m }

/-- A merge pass can write its last records, or some of them. -/
def merges (s : State) (last : Bool) : Bool :=
  let se := s.sess (0, 0, 0)
  let grp := se.standing.take 16
  let recs := mergeRuns (grp.map fun r => r.recs)
  let n := se.emitted + (s.cluster 0 0).emit
  decide (se.passes = true ∧ 16 < se.standing.length ∧ se.hruns.length < se.dirn ∧ se.segs.getLast? = some (va 0x8000, 0x4000)
      ∧ se.wpos + (Claims.runRecord se true recs).length ≤ 0x4000 ∧ (last = true ↔ recs.length ≤ n))
    && (match s.mgWrites (s.mgMover se) (if last then Claims.runWrites se (va 0x8000) true recs se.emitted ++ Claims.marks se grp
          else [((va 0x8000).toNat + se.wpos + runAt recs se.emitted,
            clean (((Claims.runRecord se true recs).take (runAt recs n)).drop (runAt recs se.emitted)))]) with
        | .ok _ => true | .error _ => false)

/-- The final pass can write its last records, or some of them. -/
def ends (s : State) (last : Bool) : Bool :=
  let se := s.sess (0, 0, 0)
  let n := se.emitted + (s.cluster 0 0).emit
  decide (se.passes = true ∧ se.runs.length + se.standing.length ≤ 16 ∧ (last = true ↔ se.merged.length ≤ n))
    && (match s.mgWrites (s.mgMover se) (if last then Claims.lastWrites se else se.newWrites n) with | .ok _ => true | .error _ => false)

/-- A session whose header is still to be written. -/
def headless : State := sent fun se => { se with header := true }

/-- What becomes of a copy-on-write fault of a session, at a page of the tests' map or of none. -/
def hamperCow (known : Bool) : Nat :=
  let s := if known then mapped (stuck 0x10) else stuck 0x10
  match s.cow (bankKey k0 0x1000) (s.sess (0, 0, 0)).opener 0 with
  | .done _ => 0
  | .forward _ => 1
  | .noFrame => 2

/-- DONE of a session, at a byte of the bank that is SCRATCH memory or draining. -/
def posted (d : Nat) : State := (merging 2).modCore k0 fun c => { c with drain := d }

theorem test_meets_mangle_services : (stuck 0x10).installing 0 = false ∧ (match headless.mgWrites (headless.mgMover (headless.sess (0, 0, 0)))
      [((headless.sess (0, 0, 0)).hamper.toNat, clean (headless.sess (0, 0, 0)).headBytes)] with | .ok _ => true | .error _ => false) = true
    ∧ (headless.sess (0, 0, 0)).st = .opened ∧ (hamperCow true, hamperCow false) = (0, 1)
    ∧ ((recOf 0x10 2).code = 0x10 ∧ (recOf 0x10 2).kind ≠ 2)
    ∧ ((merging 2).sess (0, 0, 0)).done = 0
    ∧ (match (posted 0).postVa ((posted 0).mgAgent ((posted 0).sess (0, 0, 0))) (va 0x900) 1 0 with | .held => false | _ => true) = true
    ∧ (match (posted 5).postVa ((posted 5).mgAgent ((posted 5).sess (0, 0, 0))) (va 0x900) 1 0 with | .held => true | _ => false) = true := by decide

theorem test_meets_mangle_events : busy.live k0 0x400 = none
    ∧ ((sent id).live k0 0x400 = some (0, 0, 0) ∧ ((sent id).sess (0, 0, 0)).st ≠ .stalled
      ∧ ((sent id).sess (0, 0, 0)).refuses (Claims.sentRec (sent id)) = 0
      ∧ ((sent id).sess (0, 0, 0)).used + (Claims.sentRec (sent id)).places ≤ ((sent id).sess (0, 0, 0)).cap)
    ∧ ((sent fun se => { se with rows := 0 }).sess (0, 0, 0)).refuses (Claims.sentRec (sent id)) ≠ 0
    ∧ (∀ n ∈ [256, 0x4000], spillsB (spilling n) (runOf 2 false) = true) ∧ spills (spilling 256) = true ∧ spills (spilling 0x4000) = false
    ∧ ((spilling 256).sess (0, 0, 0)).dirn = 4
    ∧ spillsB (sent fun se => { se with runs := [runOf 2 true], wantSpill := 1, sctl := 0 }) (runOf 2 false) = true
    ∧ (((stuck 0x29).sess (0, 0, 0)).waiting = some (recOf 0x29 2) ∧ ((stuck 0x10).sess (0, 0, 0)).waiting = some (recOf 0x10 2)
      ∧ (match (stuck 0x29).mgLink (0, 0, 0) (va 0xC000) 0x1000 with | .ok _ => true | .error _ => false) = true
      ∧ (match ((stuck 0x29).modCore k0 fun c => { c with drain := 5 }).mgLink (0, 0, 0) (va 0xC000) 0x1000 with
          | .error (.trap _) => false | .error _ => true | .ok _ => false) = true) := by decide

theorem test_meets_mangle_passes : merges (emitting 17 16) true = true ∧ merges (emitting 17 6) false = true
    ∧ ends (emitting 2 6) true = true ∧ ends (emitting 2 1) false = true := by decide

/-- A record that is forwarded, and the host's queue empty or full. -/
def forwarding (queued : Bool) (count : W64) : State :=
  let s := busy.modDie 0 fun d => if queued then { d with trapQ := [recOf 0x02 0] } else { d with fwd := [recOf 0x02 0] }
  { s with host := { s.host with tqw := count } }

theorem test_meets_installing : (busy.modDie 0 fun d => { d with install := 5 }).now < ((busy.modDie 0 fun d => { d with install := 5 }).die 0).install
    ∧ (forwarding false 255).installing 0 = false ∧ (forwarding true 256).installing 0 = false := by decide

theorem test_meets_forwarding : (Claims.HostRoom (forwarding false 255) ∧ ((forwarding false 255).die 0).trapQ = []
      ∧ ((forwarding false 255).die 0).fwd = [recOf 0x02 0])
    ∧ (Claims.Forwarded (recOf 0x02 0) ∧ ((forwarding true 256).die 0).trapQ = [recOf 0x02 0]
      ∧ (forwarding true 256).recordDue 0 (recOf 0x02 0) = true ∧ (forwarding true 256).host.tqw.toNat - (forwarding true 256).host.tqr.toNat = 256) := by
  refine ⟨⟨by unfold Claims.HostRoom; decide, by decide, by decide⟩, by unfold Claims.Forwarded; decide, by decide, by decide⟩

/-- Watch 3 of the node, with a hook or none. -/
def watching (hook : W64) : Node :=
  { node0 with watch := vput node0.watch 3 (some { base := 0, size := 8, ctl := 0, value := 0, hook := hook, frames := [] }) }

/-- C has met watch 3. -/
def hitting (hook : W64) : State :=
  arg { k := k0 } ((withNode (watching hook) State.reset).modCore k0 fun c =>
    { c with hit := some { q := .c, engine := false, watch := 3, write := true, addr := 0, seqn := 0, row := 0, pc := 0 } })

/-- An imprecise stop of watch 3 is noted. -/
def noted (hook : W64) : State :=
  arg { k := k0 } (withNode { watching hook with imprecise := some ({ recOf 0x11 0 with info := 3 }, 0) } State.reset)

/-- A deferred fault is pending at a boundary. -/
def pending : State := busy.modCore k0 fun c => { c with pend := [recOf 0x10 2] }

theorem test_meets_stops :
    ((pending.core k0).pend = [recOf 0x10 2] ∧ (pending.core k0).node.isSome = true ∧ (pending.core k0).saved = none
      ∧ (pending.core k0).hook = none ∧ (pending.core k0).hit = none ∧ (pending.ctx k0).outsideGroups = true ∧ pending.inTrapService k0 = false)
    ∧ (∀ y : Bool, let h : W64 := if y then 0x5000 else 0
        ((hitting h).core k0).hit.isSome = true ∧ ((hitting h).ctx k0).me.queue = [] ∧ (hitting h).nodeOf k0 = some (watching h)
          ∧ (watching h).watch[3].isSome = true ∧ (hitting h).inTrapService k0 = false)
    ∧ (∀ y : Bool, let h : W64 := if y then 0x5000 else 0
        (∃ n ∈ (noted h).nodes, (noted h).nodeOf k0 = some n ∧ n.imprecise.isSome = true ∧ n.watch.toList[3]? = some (watching h).watch[3])
          ∧ (noted h).inTrapService k0 = false ∧ ((noted h).core k0).hit = none ∧ ((noted h).ctx k0).me.queue = []
          ∧ ((noted h).core k0).hook = none ∧ ((noted h).core k0).saved = none ∧ ((noted h).ctx k0).outsideGroups = true) := by decide

/-- Hitch port 2 replays since 0, 2 ms ago. -/
def replaying : State :=
  arg { num := 2 } { busy with now := 4500000, hitch := vput busy.hitch 2 { busy.hitch[2] with replay := some 0 } }

theorem test_meets_links : busy.waiting = [] ∧ (Claims.portOf busy).lost = false ∧ ((1 : Nat) % 2 ^ 32 ≠ (Claims.portOf busy).num.toNat)
    ∧ (0 % 2 ^ 32 = (Claims.portOf busy).num.toNat) ∧ busy.target (bankKey k0 0x1000) .device = some (.bank k0 0x1000)
    ∧ ((Claims.portOf replaying).lost = false ∧ (Claims.portOf replaying).replay = some 0 ∧ 0 + 4500000 ≤ replaying.now)
    ∧ busy.peerGranted false [] k0 = false ∧ (grouped busy).peerGranted true [5] k0 = true
    ∧ ((busy.core k0).drain = 0 ∧ (busy.core k0).mode = .scratch ∧ busy.foldHeld k0 0x1000 8 = false ∧ (busy.core k0).repair.holds 0x1000 8 = false ∧ busy.ecc = []) := by decide

/-- A flit names offset 0x1000 of group 5, whose member is the core of the tests. -/
theorem test_meets_poisoned_multicast : (hostCast 5).target (2 ^ 51 + 2 ^ 40 + 5 * 2 ^ 27 + 0x1000) .device = some (.mcast 5 0x1000)
    ∧ (n0, k0) ∈ (hostCast 5).members 5 ∧ (hostCast 5).present (n0, k0) = true := by decide

/-- What step 1 to 3 of R170 make of a word. -/
def refusedAt (x : Instr × State) : Nat :=
  match wordSpec x.2.q x.1 with
  | none => 0
  | some sp =>
    if !x.2.accepts x.2.k x.2.q sp then 1
    else if x.2.me.stack.length < sp.pops ∨ 8 < x.2.me.stack.length - sp.pops + sp.pushes then 2
    else if (x.2.rightsTrap x.2.k x.2.q sp).isSome then 3
    else match (x.2.px sp).cond with | some p => if x.2.me.condHolds p then 5 else 4 | none => 5

theorem test_meets_stack_checks : ([run (.add 0) [1], run (.lit 0) [1, 2, 3, 4, 5, 6, 7, 8]].map refusedAt) = [2, 2] := by decide

/-- With an IF prefix on predicate 0, which holds 0. -/
def underIf (s : State) : State := s.modSeq s.k s.q fun r => { r with pfx := [{ kind := .cond, payload := 1 }], grpPc := some r.pc }

theorem test_meets_issue_traps : ([run (.fork 0) [0, 2, 4] (on .v), run (.eret 0) [] noded, run (.add 0) [1, 2] underIf].map refusedAt) = [1, 3, 4]
    ∧ (Claims.prefixOf (.ifp 3)).isSome = true := by decide

theorem test_meets_false_if : ((underIf (at_ (wordOf (.add 0)) [1, 2])).ctx k0).regSound
    (((underIf (at_ (wordOf (.add 0)) [1, 2])).ctx k0).issueReads .c 2 (some 1)) = true := by decide

/-- A register word of core 0.0.0 has an error. -/
def erring (w : RegWord) (bad : Bool) (s : State) : State := s.modCtx k0 fun x => { x with regEcc := [(w, bad)] }

/-- A state in which a GET of s3 issues but for the error of s3. -/
def getting (bad : Bool) : State := erring ⟨.scalar, .c, 3⟩ bad (at_ (wordOf (.get 3)) [])

theorem test_meets_register_errors :
    ([false, true].all fun b => issuesB ((getting b).modCtx k0 fun x => { x with regEcc := [] }) (.get 3) { pushes := 1, rbits := 15 }
      && ((getting b).ctx k0).regEcc == [(⟨.scalar, .c, 3⟩, b)]) = true
    ∧ refusedAt (.add 0, erring ⟨.stack, .c, 1⟩ true (at_ (wordOf (.add 0)) [1, 2])) = 5 := by decide

/-- R326: a GET of a register with a single-bit error completes and is held one cycle; with a double-bit error it traps. -/
theorem test_register_error_is_corrected : (match exec (.get 3) (getting false) with
    | .next t => (t.me.stack.length, t.me.hold, (t.ctx k0).regEcc.length) | _ => (0, 0, 9)) = (1, 1, 0) := by decide

theorem test_register_error_is_consumed : (match exec (.get 3) (getting true) with
    | .next t => (t.me.stack.length, t.me.stopped, t.me.pc == (getting true).me.pc) | _ => (9, none, false)) = (0, some 0x31, true) := by decide

theorem test_meets_ready : (∀ r ∈ [0, 15], (match wordSpec .c (.brk r) with | some sp => issuesB (at_ (wordOf (.brk r)) []) (.brk r) sp | none => false) = true
    ∧ (match wordSpec .c (.trap r) with | some sp => issuesB (at_ (wordOf (.trap r)) []) (.trap r) sp | none => false) = true) := by decide

/-- C of core 0.0.0 runs, its PC at a VA of its bank. -/
def fetching (at_ : W64) : State :=
  { (put 0x1000 [0x62, 0xA6] busy) with cur := (k0, .c), events := [] }.modSeq k0 .c fun r =>
    { r with run := .running, pc := at_.setWidth 57, bubbles := 0, hold := 0, held := none, grpPc := none }

theorem test_meets_fetch : (fetching (va 0x1000)).powered = true ∧ (fetching (va 0x1000)).events = [] ∧ (fetching (va 0x1000)).stands k0 .c = false
    ∧ (fetching (va 0x1000)).me.run = .running ∧ (fetching (va 0x1000)).noNewGroup k0 .c = false ∧ (fetching (va 0x1000)).me.bubbles = 0
    ∧ (fetching (va 0x1000)).me.hold = 0 ∧ (fetching (va 0x1000)).me.held = none
    ∧ (match (fetching (va 0x1000)).access k0 ((fetching (va 0x1000)).me.pc.setWidth 64) 2 2 .fetch with
        | .ok (t, _) => decide (t = .bank k0 0x1000) | .error _ => false) = true
    ∧ (fetching (va 0x1000)).poisoned (bankKey k0 0x1000) 2 = false
    ∧ (match decode ((fetching (va 0x1000)).mem.readBytes (bankKey k0 0x1000) 2) with | .ok (i, l) => decide (i = .fork 2 ∧ l = []) | .error _ => false) = true
    ∧ (match (fetching 0x5000).access k0 ((fetching 0x5000).me.pc.setWidth 64) 2 2 .fetch with | .error (.trap _) => true | _ => false) = true := by
  decide

/-- The same, with a line in the instruction cache that holds another word there. -/
def cached : State := (fetching (va 0x1000)).modCore k0 fun c =>
  { c with icache := [{ line := (fetching (va 0x1000)).bankPa k0 0x1000 / 128, data := List.replicate 128 0, live := 0xF }] }

theorem test_meets_issuing : Claims.Issuing (fetching (va 0x1000)) ∧ Claims.Issuing (fetching 0x5000)
    ∧ (Claims.heldLine (fetching (va 0x1000)) k0 0x1000).isNone = true ∧ (Claims.heldLine cached k0 0x1000).isSome = true
    ∧ (match cached.fetch k0 .c cached.me.pc with | .ok _ => true | .error _ => false) = true := by
  refine ⟨⟨?_, ?_, ?_, ?_, ?_, ?_⟩, ⟨?_, ?_, ?_, ?_, ?_, ?_⟩, ?_, ?_, ?_⟩ <;> decide

theorem test_meets_writes : (State.reset.regs k0).sOld = [] ∧ State.reset.mem.wf = true ∧ State.reset.bar0.wf = true ∧ State.reset.l2.wf = true
    ∧ State.reset.stale.wf = true := by decide


/-! S words: 101 in [15:13], op in [12:4] with bit 12 clear, r in [3:0] (R148); one row of the op map of R151 in each theorem. -/

theorem test_decode_s_0 : [0xA002, 0xA017, 0xA02C, 0xA031, 0xA046, 0xA05B, 0xA060, 0xA075, 0xA08A, 0xA09F, 0xA0A4, 0xA0B9, 0xA0CE, 0xA0D3, 0xA0E8, 0xA0FD].map decodeWord
    = [.nop 2, .dup 7, .drop 12, .swap 1, .over 6, .rot 11, .pick 0, .depth 5, .get 10, .put 15, .getc 4, .putc 9, .prep 14, .br 3, .brn 8, .call 13] := by decide

theorem test_decode_s_1 : [0xA105, 0xA11A, 0xA12F, 0xA134, 0xA149, 0xA15E, 0xA163, 0xA178, 0xA18D, 0xA192, 0xA1A7, 0xA1BC, 0xA1C1, 0xA1D6, 0xA1EB, 0xA1F0].map decodeWord
    = [.ret 5, .loop 10, .setn 15, .getn 4, .add 9, .sub 14, .mul 3, .mulh 8, .mulhu 13, .div 2, .divu 7, .rem 12, .remu 1, .and 6, .or 11, .xor 0] := by decide

theorem test_decode_s_2 : [0xA208, 0xA21D, 0xA222, 0xA237, 0xA24C, 0xA251, 0xA266, 0xA27B, 0xA280, 0xA295, 0xA2AA, 0xA2BF, 0xA2C4, 0xA2D9, 0xA2EE, 0xA2F3].map decodeWord
    = [.not 8, .neg 13, .shl 2, .shr 7, .sar 12, .min 1, .max 6, .minu 11, .maxu 0, .clz 5, .popc 10, .addi 15, .shli 4, .shri 9, .sext 14, .zext 3] := by decide

theorem test_decode_s_3 : [0xA30B, 0xA310, 0xA325, 0xA33A, 0xA34F, 0xA354, 0xA369, 0xA37E, 0xA383, 0xA398, 0xA3AD, 0xA3B2, 0xA3C7, 0xA3DC, 0xA3E1, 0xA3F6].map decodeWord
    = [.ceq 11, .cne 0, .clt 5, .cltu 10, .cle 15, .cleu 4, .pand 9, .por 14, .pnot 3, .sel 8, .lea 13, .csrr 2, .csrw 7, .tbset 12, .tbget 1, .brk 6] := by decide

theorem test_decode_s_4 : [0xA40E, 0xA413, 0xA428, 0xA43D, 0xA442, 0xA457, 0xA46C, 0xA471, 0xA486, 0xA49B, 0xA4A0, 0xA4B5, 0xA4CA, 0xA4DF, 0xA4E4, 0xA4F9].map decodeWord
    = [.ld 14, .st 3, .ldx 8, .stx 13, .qmark 2, .fence 7, .aadd 12, .axchg 1, .acas 6, .amin 11, .amax 0, .aminu 5, .amaxu 10, .aand 15, .aor 4,
      .axor 9] := by decide

theorem test_decode_s_5 : [0xA501, 0xA516, 0xA52B, 0xA530, 0xA545, 0xA55A, 0xA56F, 0xA574, 0xA589, 0xA59E, 0xA5A3, 0xA5B8, 0xA5CD, 0xA5D2, 0xA5E7, 0xA5FC].map decodeWord
    = [.afadd 1, .mwait 6, .sigpost 11, .sigwait 0, .sigset 5, .qpush 10, .qpop 15, .qtry 4, .qbind 9, .evbind 14, .barg 3, .pgshare 8, .pgdrop 13,
      .pgrefs 2, .wpset 7, .wpclr 12] := by decide

theorem test_decode_s_6 : [0xA604, 0xA619, 0xA62E, 0xA633, 0xA648, 0xA65D, 0xA662, 0xA677, 0xA68C, 0xA691, 0xA6A6, 0xA6BB, 0xA6C0, 0xA6D5, 0xA6EA, 0xA6FF].map decodeWord
    = [.farerd 4, .faretop 9, .station 14, .yield 3, .spawn 8, .depdec 13, .fork 2, .rvz 7, .halt 12, .flip 1, .phase 6, .segchk 11, .trap 0, .eret 5,
      .prog 10, .clock 15] := by decide

theorem test_decode_s_7 : [0xA707, 0xA71C, 0xA721, 0xA736, 0xA74B, 0xA750, 0xA765, 0xA77A, 0xA78F, 0xA794, 0xA7A9].map decodeWord
    = [.mset 7, .mloadb 12, .mloadt 1, .mrun 6, .mgather 11, .mdrain 0, .mzero 5, .mreada 10, .mpatch 15, .mwaitc 4, .mstat 9] := by decide

theorem test_decode_s_9 : [0xA90D, 0xA912, 0xA927, 0xA93C, 0xA941, 0xA956, 0xA96B, 0xA970, 0xA985, 0xA99A, 0xA9AF, 0xA9B4, 0xA9C9, 0xA9DE, 0xA9E3].map decodeWord
    = [.dset 13, .dcopy 2, .dqapp 7, .gatherr 12, .scatterw 1, .scatadd 6, .fold 11, .foldwait 0, .chkick 5, .chlink 10, .chstat 15, .dwait 4,
      .mcast 9, .dstat 14, .dcsum 3] := by decide

theorem test_decode_s_b : [0xAB03, 0xAB18, 0xAB2D, 0xAB32, 0xAB47, 0xAB5C, 0xAB61, 0xAB76, 0xAB8B, 0xAB90, 0xABA5, 0xABBA, 0xABCF, 0xABD4, 0xABE9, 0xABFE].map decodeWord
    = [.pbind 3, .pstep 8, .pread 13, .tld 2, .tst 7, .tfree 12, .tfill 1, .twaitf 6, .fopen 11, .fadv 0, .fseek 5, .fend 10, .fcrd 15, .fval 4,
      .frow 9, .fmatch 14] := by decide

theorem test_decode_s_c : [0xAC06, 0xAC1B, 0xAC20, 0xAC35, 0xAC4A].map decodeWord
    = [.fclose 6, .vsplat 11, .vlane 0, .vputl 5, .vwait 10] := by decide

theorem test_decode_s_d : [0xAD09, 0xAD1E, 0xAD23, 0xAD38, 0xAD4D, 0xAD52, 0xAD67, 0xAD7C].map decodeWord
    = [.mgopen 9, .mgput 14, .mgrow 3, .mgend 8, .mgclose 13, .mgstat 2, .mgspill 7, .mgexpand 12] := by decide

theorem test_decode_s_e : [0xAE0C, 0xAE11, 0xAE26, 0xAE3B, 0xAE40, 0xAE55, 0xAE6A, 0xAE7F].map decodeWord
    = [.trcw 12, .scrub 1, .poisonq 6, .wpstat 11, .csum 0, .hret 5, .icsync 10, .trial 15] := by decide

/-! V words: 11 in [15:14], op in [13:9], d, a and b (R148, R156); and prefixes: 1011, kind and payload (R148, R158). -/

theorem test_decode_v_0 : [0xC019, 0xC266, 0xC4AB, 0xC6F0, 0xC93D, 0xCB42, 0xCD8F, 0xCFD4].map decodeWord
    = [.vmov 0 3 1, .vadd 1 4 6, .vsub 2 5 3, .vmul 3 6 0, .vfma 4 7 5, .vmin 5 0 2, .vmax 6 1 7, .vabs 7 2 4] := by decide

theorem test_decode_v_1 : [0xD019, 0xD266, 0xD4AB, 0xD6F0, 0xD93D, 0xDB42, 0xDD8F, 0xDFD4].map decodeWord
    = [.vneg 0 3 1, .vand 1 4 6, .vor 2 5 3, .vxor 3 6 0, .vshl 4 7 5, .vshr 5 0 2, .vsar 6 1 7, .vclt 7 2 4] := by decide

theorem test_decode_v_2 : [0xE019, 0xE266, 0xE4AB, 0xE6F0, 0xE93D, 0xEB42, 0xED8F, 0xEFD4].map decodeWord
    = [.vceq 0 3 1, .vsel 1 4 6, .vcvt 2 5 3, .vexp2 3 6 0, .vlog2 4 7 5, .vrcp 5 0 2, .vrsq 6 1 7, .vsumr 7 2 4] := by decide

theorem test_decode_v_3 : [0xF019, 0xF266, 0xF4AB, 0xF6F0, 0xF93D, 0xFB42, 0xFD8F, 0xFFD4].map decodeWord
    = [.vmaxr 0 3 1, .vbcast 1 4 6, .vshuf 2 5 3, .vscale 3 6 0, .vqmx 4 7 5, .vdqmx 5 0 2, .vpk24 6 1 7, .vclr 7 2 4] := by decide

theorem test_decode_prefixes : [0xB007, 0xB141, 0xB20B, 0xB303, 0xB419, 0xB50E, 0xB601, 0xB703, 0xB873].map decodeWord
    = [.scope 0x07, .token 0x41, .ifp 0x0B, .fmt 0x03, .sparse 0x19, .waitmax 0x0E, .round 0x01, .sat 0x03, .event 0x73] := by decide

/-- Constants (R149, R150): the two examples of R150. What no map defines (R152). -/
theorem test_decode_constants : [0x0009, 0x8345, 0x7FF3, 0x9960, 0x7FFF].map decodeWord
      = [.lit 9, .ext 837, .lit 0x7FF3, .ext 6496, .lit 0x7FFF]
    ∧ [0xA7B0, 0xA8F3, 0xA9F0, 0xAAF0, 0xAC50, 0xAD80, 0xAE80, 0xAFFF, 0xB900, 0xBFFF].map decodeWord
      = [.undefinedWord 0xA7B0, .undefinedWord 0xA8F3, .undefinedWord 0xA9F0, .undefinedWord 0xAAF0, .undefinedWord 0xAC50, .undefinedWord 0xAD80,
         .undefinedWord 0xAE80, .undefinedWord 0xAFFF, .undefinedWord 0xB900, .undefinedWord 0xBFFF] := by decide

/-! ### An ill-formed term, which the one check refuses (R152) -/

theorem test_ill_formed : (Instr.undefinedWord 0x0005).wellFormed = false ∧ (Instr.undefinedWord 0xA140).wellFormed = false
    ∧ (Instr.undefinedWord 0xA7B0).wellFormed = true := by decide

/-! ### The fixed interface -/

theorem test_table_words : decodeTableWord 16 0xA140 = some (.add 0) ∧ decodeTableWord 16 0xC281 = some (.vadd 2 0 1) := by decide

/-! ### Steps and values, each expected from the spec's words or its worked examples -/

/-- The state after an instruction. -/
def after (x : Instr × State) : State :=
  match exec x.1 x.2 with
  | .next t => t
  | _ => x.2

/-- The stack after a word, the top last. -/
def stackAfter (x : Instr × State) : List W64 := (after x).me.stack.reverse

/-- R150's example: 9, then 837, is 74,565; LIT is sign-extended (R149). -/
theorem test_constants : stackAfter (run (.lit 9) []) = [9] ∧ stackAfter (run (.ext 837) [9]) = [74565]
    ∧ stackAfter (run (.ext 6496) [-13]) = [-100000] ∧ stackAfter (run (.lit 0x7FF3) []) = [-13] := by decide

/-- R82: wraps, division by zero and of -2^63 by -1, shifts modulo 64. -/
theorem test_arithmetic_corners : stackAfter (run (.add 0) [-1, 1]) = [0] ∧ stackAfter (run (.div 0) [7, 0]) = [-1]
    ∧ stackAfter (run (.rem 0) [7, 0]) = [7] ∧ stackAfter (run (.div 0) [0x8000000000000000, -1]) = [0x8000000000000000]
    ∧ stackAfter (run (.rem 0) [-7, 2]) = [-1] ∧ stackAfter (run (.shl 0) [1, 65]) = [2] ∧ stackAfter (run (.mulh 0) [-1, 1]) = [-1]
    ∧ stackAfter (run (.mulhu 0) [-1, 1]) = [0] := by decide

/-- R175: operand order, immediates. R171: the stack words. -/
theorem test_operand_order : stackAfter (run (.sub 0) [5, 3]) = [2] ∧ stackAfter (run (.lea 3) [100, 2]) = [116]
    ∧ stackAfter (run (.addi 15) [5]) = [4] ∧ stackAfter (run (.shli 3) [1]) = [16] ∧ stackAfter (run (.sext 0) [0x80]) = [-128]
    ∧ stackAfter (run (.swap 0) [1, 2]) = [2, 1] ∧ stackAfter (run (.over 0) [1, 2]) = [1, 2, 1] ∧ stackAfter (run (.rot 0) [1, 2, 3]) = [2, 3, 1] := by
  decide

/-- R176: signed and unsigned compares. -/
theorem test_compares : (after (run (.clt 2) [-1, 0])).me.pred 2 = true ∧ (after (run (.cltu 2) [-1, 0])).me.pred 2 = false
    ∧ (after (run (.ceq 1) [3, 3])).me.pred 1 = true := by decide

/-- R28: a word that does not pass the stack check traps with 0x02 and keeps its PC and stack. -/
theorem test_stack_trap : (after (run (.add 0) [1])).me.stopped = some 0x02 ∧ (after (run (.add 0) [1])).me.pc = (run (.add 0) [1]).2.me.pc
    ∧ stackAfter (run (.add 0) [1]) = [1] ∧ (((after (run (.add 0) [1])).die 0).trapQ.map fun r => r.code) = [0x02] := by decide

/-- R26: step fetches the word at the PC and runs it. -/
theorem test_step : (match step (at_ 0x0009 []) with | .next t => ((t.seq k0 .c).stack, (t.seq k0 .c).pc - (at_ 0x0009 []).me.pc) | _ => ([], 0))
    = ([9], 2) := by decide

/-- R104's example: byte 0x1000 of the bank of core 17, cluster 5, die 2. -/
theorem test_device_address : ({ State.reset with nodeId := 3 } : State).bankPa ⟨2, 5, 17⟩ 0x1000 = 0x8064A88001000
    ∧ ({ State.reset with nodeId := 3 } : State).target 0x8064A88001000 .device = some (.bank ⟨2, 5, 17⟩ 0x1000) := by decide

/-- R5, R3: a store of 4 bytes, when performed. -/
theorem test_store_bytes :
    ((after (.storePerform, arg { k := k0, q := .c } (after (run (.st 2) [0x11223344, va 0x100])))).mem.readBytes (bankKey k0 0x100) 5)
      = [0x44, 0x33, 0x22, 0x11, 0x00] := by decide

/-- A BF16 buffer and row whose products in column 0 are the squares of three codes, the last B code given apart. -/
def passOf (c : Nat) : BitVec 32 :=
  let b : WBuf := { rows := Memory.writeBytes (Memory.writeBytes (Memory.writeBytes [] 0 (leBytes 2 0x4580)) 128 (leBytes 2 0x3F80)) 256 (leBytes 2 c)
                    scales := [], fmt := 1, count := 64, poison := false }
  let row := leBytes 2 0x4580 ++ leBytes 2 0x3F80 ++ leBytes 2 0x3300 ++ List.replicate 122 0
  (passRow (arrayMode 1 (some 1) false).1 false b 0 row [] []).1.headD 0

/-- The worked examples of chapters 5 and 6: 2^24 + 1 and a third product 2^-50, 0 or -2^-50. -/
theorem test_pass_sum_tie : passOf 0x3300 = 0x4B800001 ∧ passOf 0 = 0x4B800000 ∧ passOf 0xB300 = 0x4B800000 := by decide

/-- Values n/100 as R83 sees them, from FP32 codes. -/
def block (l : List (BitVec 32)) : List Machine.Num := (l ++ List.replicate (32 - l.length) 0).map fp32Num

/-- The MXFP4 blocks of chapters 5 and 6: 5.0, -0.3, 1.2, 7.5, and 0.75, 0.1, -0.2, 0.05. -/
theorem test_mxfp4 :
    ((mxq (block [0x40A00000, 0xBE99999A, 0x3F99999A, 0x40F00000]) 9).1, packElems 4 (mxq (block [0x40A00000, 0xBE99999A, 0x3F99999A, 0x40F00000]) 9).2.1 16)
      = (0x7F, [0x96, 0x72] ++ List.replicate 14 0)
    ∧ ((mxq (block [0x3F400000, 0x3DCCCCCD, 0xBE4CCCCD, 0x3D4CCCCD]) 9).1,
        packElems 4 (mxq (block [0x3F400000, 0x3DCCCCCD, 0xBE4CCCCD, 0x3D4CCCCD]) 9).2.1 16) = (0x7C, [0x27, 0x1B] ++ List.replicate 14 0) := by
  decide

/-- An element record. -/
def elem (stream row col : Nat) (v : BitVec 32) : Rec :=
  { row := BitVec.ofNat 24 row, col := BitVec.ofNat 24 col, stream := stream, seqn := 0, poison := false, isRow := false, vals := [v] }

/-- The session of chapter 19's worked combine, its records in the buffer. -/
def combined : Session :=
  let l := [elem 9 0 4 0x3F800000, { elem 9 1 2 0x40000000 with seqn := 1 }, { elem 9 0 1 0x3F000000 with seqn := 2 }, elem 3 1 2 0xC0000000,
            { elem 3 2 0 0x40800000 with seqn := 1 }, elem 20 0 4 0x40400000]
  { Session.reset with rows := 3, sctl := 8, runs := l.foldl addToRuns [] }

theorem test_worked_combine : combined.runs.length = 4
    ∧ (combined.outputOf.map fun o => (o.key % 2 ^ 24, o.vals)) = [(1, [0x3F000000]), (4, [0x40800000]), (0, [0x40800000])]
    ∧ rowPtr 4 0 0 (combined.outputOf.map fun o => o.key / 2 ^ 24) = [0, 2, 2, 3].flatMap (leBytes 4) := by decide

/-- The reset state has the memory form, and steps. -/
theorem test_reset_form : State.reset.mem.wf = true ∧ State.reset.bar0.wf = true ∧ State.reset.l2.wf = true ∧ State.reset.stale.wf = true
    ∧ (match step State.reset with | .next _ => true | _ => false) = true := by decide

/-- The same as the statement names it. -/
theorem test_reset_steps : State.reset.MemoryForm ∧ ∃ t, StepsTo State.reset t := by
  refine ⟨⟨by decide, by decide, by decide, by decide⟩, ?_⟩
  have h := test_reset_form.2.2.2.2
  unfold StepsTo
  split at h
  · exact ⟨_, by assumption⟩
  · exact absurd h (by decide)

end Sys2Proof.Tests
end

section
/-! SUPPORT and O59. Values in memory byte by byte, scalar registers after a PUT, and what a write at each kind of home answers to a
later read. -/

namespace Sys2Proof.Machine

/-! ### Little-endian values (R3) -/

/-- Byte i of a value is its digit i to base 256: the least significant byte stands first. -/
theorem leBytes_getD {n i : Nat} (v : Nat) (h : i < n) (d : Byte) : (leBytes n v).getD i d = BitVec.ofNat 8 (v / 256 ^ i) := by
  induction n generalizing v i with
  | zero => exact absurd h (Nat.not_lt_zero i)
  | succ n ih =>
    cases i with
    | zero => rw [leBytes, List.getD_cons_zero, pow_zero, Nat.div_one]
    | succ i => rw [leBytes, List.getD_cons_succ, ih _ (Nat.lt_of_succ_lt_succ h), Nat.div_div_eq_div_mul, pow_succ']

/-- The byte at place i of a value written. -/
theorem Memory.read_writeLE {m : Memory} (h : m.wf = true) (a v : Nat) {n i : Nat} (hi : i < n) :
    (m.writeLE a n v).read (a + i) = BitVec.ofNat 8 (v / 256 ^ i) := by
  rw [Memory.writeLE, Memory.read_writeBytes h, leBytes_length, if_pos ⟨Nat.le_add_right a i, Nat.add_lt_add_left hi a⟩,
    Nat.add_sub_cancel_left, leBytes_getD v hi]

/-! ### Scalar registers (R30) -/

@[simp] theorem getElem_vput {α : Type} {n : Nat} (v : Vector α n) (i j : Fin n) (x : α) :
    (vput v i x)[j.val] = if j = i then x else v[j.val] := by
  simp only [vput, Vector.getElem_set, Fin.ext_iff, eq_comm (a := i.val)]

/-- In a cycle that has written no scalar register, every register reads as it stands. -/
theorem Regs.getS_of_sOld_nil {r : Regs} (h : r.sOld = []) (m : Fin 16) : r.getS m = r.s[m.val] := by
  rw [Regs.getS, h]
  rfl

/-- The first PUT of a cycle keeps the old value of its register. -/
theorem Regs.putS_of_sOld_nil {r : Regs} (h : r.sOld = []) (n : Fin 16) (v : W64) :
    r.putS n v = { r with s := vput r.s n v, sOld := [(n, r.s[n.val])] } := by
  rw [Regs.putS, h]
  rfl

/-- Within the cycle of a PUT every register reads as it did before. -/
theorem Regs.getS_putS {r : Regs} (h : r.sOld = []) (n m : Fin 16) (v : W64) : (r.putS n v).getS m = r.getS m := by
  rw [Regs.putS_of_sOld_nil h, Regs.getS_of_sOld_nil h, Regs.getS]
  by_cases hm : m = n
  · simp [hm]
  · simp [hm, Ne.symm hm]

/-- From the next cycle on the register of a PUT reads the value put, and every other one as before. -/
theorem Regs.getS_putS_nextCycle {r : Regs} (h : r.sOld = []) (n m : Fin 16) (v : W64) :
    ({ r.putS n v with sOld := [] } : Regs).getS m = if m = n then v else r.getS m := by
  rw [Regs.getS_of_sOld_nil rfl, Regs.putS_of_sOld_nil h, Regs.getS_of_sOld_nil h, getElem_vput]

/-! ### What a write at a home answers (R91) -/

@[simp] theorem State.homeWrite_remote_mem (s : State) (pa : Nat) (bs : List Byte) :
    (s.homeWrite (.remote pa) bs).mem = s.mem.writeBytes (remoteKey pa) bs := by
  cases bs <;> rfl

@[simp] theorem State.homeWrite_cached_l2 (s : State) (pa : Nat) (bs : List Byte) :
    (s.homeWrite (.pool pa .cached) bs).l2 = s.l2.setBytes pa bs := by
  cases bs <;> rfl

@[simp] theorem State.homeWrite_cached_mem (s : State) (pa : Nat) (bs : List Byte) :
    (s.homeWrite (.pool pa .cached) bs).mem = s.mem := by
  cases bs <;> rfl

@[simp] theorem State.homeWrite_cached_stale (s : State) (pa : Nat) (bs : List Byte) :
    (s.homeWrite (.pool pa .cached) bs).stale = s.stale := by
  cases bs <;> rfl

/-- Where memory after a step is memory before it with bytes written, those bytes are stored there and nothing else is. -/
theorem stored_of_writeBytes {s t : State} {key : Nat} {bs : List Byte} (h : s.MemoryForm) (ht : t.mem = s.mem.writeBytes key bs) :
    Claims.Stored s t key bs := by
  obtain ⟨hmem, -, -, -⟩ := h
  rw [Claims.Stored, ht]
  exact ⟨Memory.readBytes_writeBytes hmem key bs, fun a ha => Memory.read_writeBytes_outside hmem key a bs ha⟩

/-- The format windows stand in BAR0's registers. -/
theorem State.windowAt_congr {s t : State} (h : t.bar0 = s.bar0) (pa : Nat) : t.windowAt pa = s.windowAt pa := by
  simp only [State.windowAt, State.window, h]

/-- What the CXL controller answers depends on memory and on the format windows alone. -/
theorem State.poolByte_congr {s t : State} (hm : t.mem = s.mem) (hb : t.bar0 = s.bar0) (pa : Nat) : t.poolByte pa = s.poolByte pa := by
  simp only [State.poolByte, State.windowAt_congr hb, hm]

/-- A home slice answers what the L2 holds dirty before anything else. -/
theorem State.sliceByte_of_find {s : State} {a : Nat} {b : Byte} (h : s.l2.find a = some b) : s.sliceByte a = b := by
  rw [State.sliceByte, h]

/-- A home slice's answer depends on what the L2 holds of the byte, on memory and on the format windows. -/
theorem State.sliceByte_congr {s t : State} {a : Nat} (hl : t.l2.find a = s.l2.find a) (hs : t.stale = s.stale) (hm : t.mem = s.mem)
    (hb : t.bar0 = s.bar0) : t.sliceByte a = s.sliceByte a := by
  simp only [State.sliceByte, hl, hs, State.poolByte_congr hm hb]

/-- A CACHED write reads back at the home slice, which answers every other byte as before. -/
theorem State.sliceByte_homeWrite_cached (s : State) (pa : Nat) (bs : List Byte) (a : Nat) :
    (s.homeWrite (.pool pa .cached) bs).sliceByte a = if pa ≤ a ∧ a < pa + bs.length then bs.getD (a - pa) 0 else s.sliceByte a := by
  have hfind := Overlay.find_setBytes s.l2 pa a bs
  rw [← State.homeWrite_cached_l2] at hfind
  split
  next hin => exact State.sliceByte_of_find (hfind.trans (if_pos hin))
  next hout =>
    exact State.sliceByte_congr (hfind.trans (if_neg hout)) (State.homeWrite_cached_stale ..) (State.homeWrite_cached_mem ..)
      (State.homeWrite_homeOnly ..).bar0

end Sys2Proof.Machine

namespace Sys2Proof

open Machine

/-- Settles O59, clause by clause: registers, values in memory, and writes at a bank, at another module's bank and in CACHED pool memory. -/
theorem writesReadBackAndTouchNothingElse : Obligations.WritesReadBackAndTouchNothingElse := by
  unfold Obligations.WritesReadBackAndTouchNothingElse
  refine ⟨?put, ?value, ?bank, ?remote, ?cached⟩
  case put => exact fun r n m v h => ⟨Regs.getS_putS h n m v, Regs.getS_putS_nextCycle h n m v⟩
  case value => exact fun m a n v i h hi => ⟨Memory.read_writeLE h a v hi, Memory.readLE_writeLE h a n v⟩
  case bank => exact fun s b off bs h => stored_of_writeBytes h (State.homeWrite_bank_mem s b off bs)
  case remote => exact fun s pa bs h => stored_of_writeBytes h (State.homeWrite_remote_mem s pa bs)
  case cached => exact fun s pa bs _ => ⟨State.homeWrite_cached_mem s pa bs, State.sliceByte_homeWrite_cached s pa bs⟩

end Sys2Proof
end

section
/-! SUPPORT and O30. A step change as a change of one die, the same change made of several dies in turn, the trace of a stop over the
cores of a die, and what each clock, power and temperature event leads to. -/

namespace Sys2Proof.Machine

/-! ### Changes of dies -/

@[simp] theorem State.die_modDie_ne (s : State) {d j : Die} (f : DieSt → DieSt) (h : j ≠ d) : (s.modDie d f).die j = s.die j := by
  simp [State.die, State.modDie, h]

/-- A change made under a condition is the change of the die under that condition. -/
theorem State.ite_modDie (c : Prop) [Decidable c] (s : State) (d : Die) (f : DieSt → DieSt) :
    (if c then s.modDie d f else s) = s.modDie d fun x => if c then f x else x := by
  by_cases h : c
  · simp only [h, if_true]
  · simp only [h, if_false, State.modDie, State.die, vput, Vector.set_getElem_self]

theorem State.onlyDie_modDie (s : State) (d : Die) (f : DieSt → DieSt) : Claims.OnlyDie d s (s.modDie d f) :=
  ⟨rfl, fun _ h => s.die_modDie_ne f h⟩

/-- From s to t every die d is changed by g d, and nothing else changes. -/
def EachDie (g : Die → DieSt → DieSt) (s t : State) : Prop := t = { s with dies := t.dies } ∧ ∀ d, t.die d = g d (s.die d)

/-- Changes of dies in turn touch the dies alone. -/
theorem State.foldl_modDie_eq (g : Die → DieSt → DieSt) (l : List Die) (s : State) :
    l.foldl (fun s d => s.modDie d (g d)) s = { s with dies := (l.foldl (fun s d => s.modDie d (g d)) s).dies } := by
  induction l generalizing s with
  | nil => rfl
  | cons d l ih => exact ih (s.modDie d (g d))

/-- Where each die stands at most once in the list, it is changed once, from what it was at first. -/
theorem State.die_foldl_modDie (g : Die → DieSt → DieSt) {l : List Die} (hl : l.Nodup) (s : State) (j : Die) :
    (l.foldl (fun s d => s.modDie d (g d)) s).die j = if j ∈ l then g j (s.die j) else s.die j := by
  induction l generalizing s with
  | nil => rfl
  | cons d l ih =>
    obtain ⟨hd, hl⟩ := List.nodup_cons.mp hl
    rw [List.foldl_cons, ih hl]
    by_cases h : j = d
    · subst h
      simp [hd]
    · simp [h]

theorem State.eachDie_foldl (g : Die → DieSt → DieSt) (s : State) :
    EachDie g s ((List.finRange 4).foldl (fun s d => s.modDie d (g d)) s) := by
  refine ⟨s.foldl_modDie_eq g (List.finRange 4), fun d => ?_⟩
  rw [State.die_foldl_modDie g (List.nodup_finRange 4), if_pos (List.mem_finRange d)]

/-! ### Step changes (R23) -/

theorem DieSt.steady_iff {x : DieSt} : Claims.steady x = true ↔ x.wantStep = none ∧ x.stoppedClk = false := by
  simp [Claims.steady]

theorem DieSt.calm_iff {x : DieSt} : Claims.calm x = true ↔ Claims.steady x = true ∧ x.nextStep = none := by
  simp [Claims.calm]

theorem clockStep_val {n : Nat} (h : n < 15) : (clockStep n).val = n := Nat.min_eq_left (Nat.le_of_lt_succ h)

/-- What a request for step k makes of the die it names. -/
def DieSt.asked (k : Fin 15) (x : DieSt) : DieSt :=
  if x.wantStep.isSome || x.stoppedClk then { x with nextStep := some k }
  else if x.step == k then x
  else { x with wantStep := some k }

theorem State.wantStep_eq_modDie (s : State) (d : Die) (k : Fin 15) : s.wantStep d k = s.modDie d (DieSt.asked k) := rfl

/-- A steady die takes up another step that is asked for. -/
theorem DieSt.asked_of_steady {x : DieSt} {k : Fin 15} (h : Claims.steady x = true) (hk : k.val ≠ x.step.val) :
    x.asked k = { x with wantStep := some k } := by
  obtain ⟨hwant, hrun⟩ := DieSt.steady_iff.mp h
  have hstep : (x.step == k) = false := beq_eq_false_iff_ne.mpr fun e => hk (congrArg Fin.val e.symm)
  simp [DieSt.asked, hwant, hrun, hstep]

/-- A die in a change keeps the step that is asked for until later. -/
theorem DieSt.asked_of_not_steady {x : DieSt} (k : Fin 15) (h : Claims.steady x = false) : x.asked k = { x with nextStep := some k } := by
  have hbusy : (x.wantStep.isSome || x.stoppedClk) = true := by
    cases hw : x.wantStep with
    | none => simpa [Claims.steady, hw] using h
    | some n => rfl
  rw [DieSt.asked, if_pos hbusy]

/-- A calm die is on its way to no other step. -/
theorem DieSt.aim_of_calm {x : DieSt} (h : Claims.calm x = true) : x.aim = x.step := by
  obtain ⟨hsteady, hnext⟩ := DieSt.calm_iff.mp h
  obtain ⟨hwant, -⟩ := DieSt.steady_iff.mp hsteady
  rw [DieSt.aim, hnext, hwant]
  rfl

/-! ### Moves by one step (R362) -/

/-- What a move by one step makes of the die it names. -/
def DieSt.moved (down : Bool) (x : DieSt) : DieSt :=
  if down then (if x.aim.val < 14 then x.asked (clockStep (x.aim.val + 1)) else x)
  else if 0 < x.aim.val then x.asked (clockStep (x.aim.val - 1)) else x

theorem State.stepDie_eq_modDie (s : State) (d : Die) (down : Bool) : s.stepDie d down = s.modDie d (DieSt.moved down) := by
  cases down with
  | true => exact State.ite_modDie ((s.die d).aim.val < 14) s d (DieSt.asked (clockStep ((s.die d).aim.val + 1)))
  | false => exact State.ite_modDie (0 < (s.die d).aim.val) s d (DieSt.asked (clockStep ((s.die d).aim.val - 1)))

theorem DieSt.moved_down {x : DieSt} (h : Claims.calm x = true) (hx : x.step.val < 14) :
    ∃ k : Fin 15, k.val = x.step.val + 1 ∧ x.moved true = { x with wantStep := some k } := by
  have hk : (clockStep (x.step.val + 1)).val = x.step.val + 1 := clockStep_val (by omega)
  refine ⟨_, hk, ?_⟩
  rw [DieSt.moved, if_pos rfl, DieSt.aim_of_calm h, if_pos hx, DieSt.asked_of_steady (DieSt.calm_iff.mp h).1 (by omega)]

/-- To move down is a change: a calm die has no step to go to. -/
theorem DieSt.moved_down_ne {x : DieSt} (h : Claims.calm x = true) (hx : x.step.val < 14) : x.moved true ≠ x := by
  obtain ⟨k, -, hmoved⟩ := DieSt.moved_down h hx
  obtain ⟨hwant, -⟩ := DieSt.steady_iff.mp (DieSt.calm_iff.mp h).1
  intro e
  have hwants := congrArg DieSt.wantStep (hmoved.symm.trans e)
  rw [hwant] at hwants
  exact Option.some_ne_none k hwants

theorem DieSt.moved_up {x : DieSt} (h : Claims.calm x = true) (hx : x.step.val ≠ 0) :
    ∃ k : Fin 15, k.val + 1 = x.step.val ∧ x.moved false = { x with wantStep := some k } := by
  have hk : (clockStep (x.step.val - 1)).val = x.step.val - 1 := clockStep_val (by omega)
  refine ⟨clockStep (x.step.val - 1), by omega, ?_⟩
  rw [DieSt.moved, if_neg Bool.false_ne_true, DieSt.aim_of_calm h, if_pos (Nat.pos_of_ne_zero hx),
    DieSt.asked_of_steady (DieSt.calm_iff.mp h).1 (by omega)]

/-- A calm die at the rated frequency has no step to move up. -/
theorem DieSt.moved_up_of_rated {x : DieSt} (h : Claims.calm x = true) (hx : x.step.val = 0) : x.moved false = x := by
  simp [DieSt.moved, DieSt.aim_of_calm h, hx]

/-! ### The stop and the restart of a clock (R23) -/

/-- The conditions of R23, met by every core and every cluster of a die. -/
theorem State.dieStill_of {s : State} {d : Die}
    (hcores : ∀ x ∈ s.cores, x.1.die = d → x.2.ctx.atBoundary = true ∧ x.2.ctx.inTree = false ∧ ∀ m ∈ x.2.ctx.me.queue, m.fly = [])
    (htrees : ∀ c, (s.cluster d c).tree = []) : s.dieStill d = true := by
  simp only [State.dieStill, Bool.and_eq_true, List.all_eq_true]
  refine ⟨fun x hx => ?_, fun c _ => by rw [htrees c]; rfl⟩
  by_cases hd : x.1.die = d
  · obtain ⟨hword, htree, hfly⟩ := hcores x hx hd
    have hrows : (x.2.ctx.me.queue.all fun m => m.fly.isEmpty) = true :=
      List.all_eq_true.mpr fun m hm => List.isEmpty_iff.mpr (hfly m hm)
    simp [hword, htree, hrows]
  · simp [hd]

theorem die_of_mem_dieCores {d : Die} {j : CoreId} (h : j ∈ dieCores d) : j.die = d := by
  obtain ⟨c, -, hc⟩ := List.mem_flatMap.mp h
  obtain ⟨k, -, rfl⟩ := List.mem_map.mp hc
  rfl

/-- From s to t only the traces of the cores in l may have changed. -/
structure OnlyTraces (l : List CoreId) (s t : State) : Prop where
  cores : t = { s with cores := t.cores }
  core : ∀ k, t.core k = { s.core k with trace := (t.core k).trace }
  others : ∀ k, k ∉ l → t.core k = s.core k

theorem OnlyTraces.trace (s : State) (j : CoreId) (kind : BitVec 5) (q : Seq) (pc : VA) (seqn : BitVec 24) (row : BitVec 32) (val : W64) :
    OnlyTraces [j] s (s.trace j kind q pc seqn row val) where
  cores := rfl
  core k := by
    by_cases h : k = j
    · subst h
      rw [State.trace, State.core_modCore]
    · rw [State.trace, State.core_modCore_ne _ _ h]
  others k h := State.core_modCore_ne _ _ (List.ne_of_not_mem_cons h)

theorem OnlyTraces.trans {l m : List CoreId} {s t u : State} (h : OnlyTraces l s t) (g : OnlyTraces m t u) : OnlyTraces (l ++ m) s u where
  cores := by rw [g.cores, h.cores]
  core k := by rw [g.core k, h.core k]
  others k hk := by
    rw [List.mem_append, not_or] at hk
    rw [g.others k hk.2, h.others k hk.1]

/-- Records added to the traces of cores in turn. -/
theorem OnlyTraces.foldl {f : State → CoreId → State} (h : ∀ s j, OnlyTraces [j] s (f s j)) (l : List CoreId) (s : State) :
    OnlyTraces l s (l.foldl f s) := by
  induction l generalizing s with
  | nil => exact ⟨rfl, fun _ => rfl, fun _ _ => rfl⟩
  | cons j l ih => exact (h s j).trans (ih (f s j))

/-- What a restart makes of the die it names. -/
def DieSt.restarted (x : DieSt) : DieSt :=
  { x with
    step := x.wantStep.getD x.step
    wantStep := (match x.nextStep with | some n => if n = x.wantStep.getD x.step then none else some n | none => none)
    nextStep := none
    stoppedClk := false }

/-- A step kept for later is taken up where it is another one than that of the restart. -/
theorem DieSt.restarted_eq (x : DieSt) :
    x.restarted = { x with step := x.wantStep.getD x.step, wantStep := x.nextStep.filter fun n => n != x.wantStep.getD x.step
                           nextStep := none, stoppedClk := false } := by
  rw [DieSt.restarted]
  cases x.nextStep with
  | none => rfl
  | some n => by_cases h : n = x.wantStep.getD x.step <;> simp [Option.filter, h]

/-- A restart changes its die, and beyond it nothing but the traces of the die's cores. -/
theorem leads_clockRestart {s : State} (h : (s.die s.arg.d).stoppedClk = true) :
    ∃ t, Leads .clockRestart s t ∧ OnlyTraces (dieCores s.arg.d) (s.modDie s.arg.d DieSt.restarted) t := by
  have hgo : ¬ (!(s.die s.arg.d).stoppedClk) = true := by simp [h]
  exact ⟨_, if_neg hgo, OnlyTraces.foldl (fun s j => OnlyTraces.trace s j 8 .c (s.seq j .c).pc 0 0 _) _ _⟩

theorem leads_clockStop {s : State} (hwant : (s.die s.arg.d).wantStep.isSome = true) (hrun : (s.die s.arg.d).stoppedClk = false)
    (hstill : s.dieStill s.arg.d = true) :
    Leads .clockStop s (s.modDie s.arg.d fun x => { x with stoppedClk := true, stoppedAt := s.now }) :=
  if_pos (by simp [hwant, hrun, hstill])

theorem leads_clockStepRequest (s : State) : Leads .clockStepRequest s (s.modDie s.arg.d (DieSt.asked (clockStep s.arg.num))) := rfl

theorem leads_thermalLimit (s : State) : Leads .thermalLimit s (s.modDie s.arg.d (DieSt.moved true)) :=
  congrArg Host.Outcome.next (s.stepDie_eq_modDie s.arg.d true)

/-! ### A measurement of the draw (R362) -/

/-- The measurements of the last 10 ms, with the one that is made. -/
def State.measured (s : State) : List Nat := (s.arg.num :: s.draws).take 100

/-- What a 10 ms mean above 3,200 W makes of die d: the choice i names in its bits the dies to move down. -/
def DieSt.chosenDown (i : Nat) (d : Die) (x : DieSt) : DieSt := if (i + 1).testBit d.val then x.moved true else x

/-- Every choice names a die to move down. -/
theorem exists_chosen : ∀ i < 15, ∃ d : Die, (i + 1).testBit d.val = true := by decide

/-- A mean of 10 ms stands only once 100 measurements do. -/
theorem leads_powerMeasurement_short {s : State} (h : s.measured.length < 100) :
    Leads .powerMeasurement s { s with draws := s.measured, calm := 0 } := by
  have hlen : (s.measured.length == 100) = false := beq_eq_false_iff_ne.mpr (Nat.ne_of_lt h)
  rw [State.measured] at hlen
  show execPowerMeasurement s = _
  simp only [execPowerMeasurement, hlen]
  rfl

/-- After 100 ms of a mean below 3,000 W every die moves up, and the count of such means begins again. -/
theorem leads_powerMeasurement_low {s : State} (hlen : s.measured.length = 100) (hsum : s.measured.sum < 300000) (hcalm : 999 ≤ s.calm) :
    ∃ t, Leads .powerMeasurement s t ∧ EachDie (fun _ => DieSt.moved false) { s with draws := s.measured, calm := 0 } t := by
  refine ⟨_, ?_, State.eachDie_foldl _ _⟩
  have hmean : ¬ 320000 < s.measured.sum := by omega
  have hlong : 1000 ≤ s.calm + 1 := by omega
  rw [State.measured] at hlen hsum hmean
  show execPowerMeasurement s = _
  simp only [execPowerMeasurement, hlen, hsum, hmean, hlong, State.stepDie_eq_modDie, beq_self_eq_true, decide_true, decide_false,
    Bool.and_true, Bool.and_false, Bool.false_eq_true, if_true, if_false]
  rfl

/-- A high mean moves down the dies that a choice names, where none is at the last step. -/
theorem leads_powerMeasurement_high {s : State} (hlen : s.measured.length = 100) (hsum : 320000 < s.measured.sum)
    (haim : ∀ d, (s.die d).aim.val < 14) :
    ∃ i < 15, ∃ t, Leads .powerMeasurement s t
      ∧ EachDie (DieSt.chosenDown i) { s with draws := s.measured, calm := 0, free := s.free + 1 } t := by
  have hmean : ¬ s.measured.sum < 300000 := by omega
  have hcan (u : State) (hu : u.dies = s.dies) : ((List.finRange 4).filter fun d => decide ((u.die d).aim.val < 14)) = List.finRange 4 :=
    List.filter_eq_self.mpr fun d _ => by simpa [State.die, hu] using haim d
  have hplaces : (List.finRange 4).zipIdx = (List.finRange 4).map fun d => (d, d.val) := by decide
  have hmove (i : Nat) (t : State) (d : Die) :
      (if (i + 1).testBit d.val then t.stepDie d true else t) = t.modDie d (DieSt.chosenDown i d) := by
    rw [State.stepDie_eq_modDie]
    exact State.ite_modDie _ t d _
  rw [State.measured] at hlen hsum hmean
  refine ⟨Config.pick s.free % 15, Nat.mod_lt _ (by decide), _, ?_, State.eachDie_foldl _ _⟩
  show execPowerMeasurement s = _
  simp only [execPowerMeasurement, hlen, hsum, hmean, beq_self_eq_true, decide_true, decide_false,
    Bool.and_true, Bool.and_false, Bool.false_eq_true, if_true, if_false, hcan, hplaces, List.foldl_map, hmove, List.length_finRange]
  rfl

end Sys2Proof.Machine

namespace Sys2Proof

open Machine

/-- Settles O30, clause by clause: each event leads where its lemma says, and what it makes of a die is read off there. -/
theorem clocksChangeInOrder : Obligations.ClocksChangeInOrder := by
  unfold Obligations.ClocksChangeInOrder
  refine ⟨?asked, ?kept, ?stop, ?restart, ?high, ?low, ?short, ?thermal⟩
  case asked =>
    intro s hsteady hnum hstep
    have hk := clockStep_val hnum
    exact ⟨_, leads_clockStepRequest s, s.onlyDie_modDie _ _, _, hk,
      (s.die_modDie _ _).trans (DieSt.asked_of_steady hsteady (by rwa [hk]))⟩
  case kept =>
    intro s hsteady hnum
    exact ⟨_, leads_clockStepRequest s, s.onlyDie_modDie _ _, _, clockStep_val hnum,
      (s.die_modDie _ _).trans (DieSt.asked_of_not_steady _ hsteady)⟩
  case stop =>
    intro s hwant hrun hcores htrees
    exact ⟨_, leads_clockStop hwant hrun (State.dieStill_of hcores htrees), s.onlyDie_modDie _ _, s.die_modDie _ _⟩
  case restart =>
    intro s hstopped
    obtain ⟨t, ht, hcores, hcore, hothers⟩ := leads_clockRestart hstopped
    have hdie (j : Die) : t.die j = (s.modDie s.arg.d DieSt.restarted).die j := by rw [hcores]; rfl
    refine ⟨t, ht, ?_, ?_, ?_, ?_, hcore, fun k hk => hothers k fun hmem => hk (die_of_mem_dieCores hmem)⟩
    · rw [hcores]
      exact ⟨rfl, rfl, rfl, rfl, rfl⟩
    · rw [hcores]
      rfl
    · exact fun j hj => (hdie j).trans (s.die_modDie_ne _ hj)
    · exact (hdie _).trans ((s.die_modDie _ _).trans (DieSt.restarted_eq _))
  case high =>
    intro s hlen hsum hcalm
    obtain ⟨i, hi, t, ht, hdies, hdie⟩ := leads_powerMeasurement_high hlen hsum fun d => by
      rw [DieSt.aim_of_calm (hcalm d).1]
      exact (hcalm d).2
    refine ⟨t, ht, by rw [hdies]; rfl, by rw [hdies], by rw [hdies], fun d => ?_, ?_⟩
    · rw [hdie d, DieSt.chosenDown]
      split
      · exact .inr (DieSt.moved_down (hcalm d).1 (hcalm d).2)
      · exact .inl rfl
    · obtain ⟨d, hd⟩ := exists_chosen i hi
      refine ⟨d, ?_⟩
      rw [hdie d, DieSt.chosenDown, if_pos hd]
      exact DieSt.moved_down_ne (hcalm d).1 (hcalm d).2
  case low =>
    intro s hlen hsum hlong hcalm
    obtain ⟨t, ht, hdies, hdie⟩ := leads_powerMeasurement_low hlen hsum hlong
    refine ⟨t, ht, by rw [hdies], by rw [hdies], by rw [hdies], fun d => ?_⟩
    rw [hdie d]
    split
    next hrated => exact DieSt.moved_up_of_rated (hcalm d) hrated
    next hslow => exact DieSt.moved_up (hcalm d) hslow
  case short => exact fun s h => leads_powerMeasurement_short h
  case thermal =>
    intro s hcalm hstep
    obtain ⟨k, hk, hmoved⟩ := DieSt.moved_down hcalm hstep
    exact ⟨_, leads_thermalLimit s, s.onlyDie_modDie _ _, k, hk, (s.die_modDie _ _).trans hmoved⟩

end Sys2Proof
end

section
/-! SUPPORT, O54 and O60. What the decoder reads from a word of each class of R148, which word an instruction of each class has, and from
the two that decoding and encoding agree. -/

namespace Sys2Proof

/-! ### The fields of a word (R148) -/

/-- Fields above the last one are those of the word without it. -/
theorem extractLsb'_append_above {m n : Nat} (hi : BitVec m) (low : BitVec n) (i len : Nat) :
    (hi ++ low).extractLsb' (n + i) len = hi.extractLsb' i len := by
  rw [BitVec.extractLsb'_append_eq_of_le (Nat.le_add_right n i), Nat.add_sub_cancel_left]

@[simp] theorem wordS_class (op : BitVec 8) (r : BitVec 4) : (wordS op r).extractLsb' 12 4 = 0b1010#4 :=
  (extractLsb'_append_above (0b1010#4 ++ op) r 8 4).trans BitVec.extractLsb'_append_eq_left

@[simp] theorem wordS_op (op : BitVec 8) (r : BitVec 4) : (wordS op r).extractLsb' 4 8 = op :=
  (extractLsb'_append_above (0b1010#4 ++ op) r 0 8).trans BitVec.extractLsb'_append_eq_right

@[simp] theorem wordS_r (op : BitVec 8) (r : BitVec 4) : (wordS op r).extractLsb' 0 4 = r := BitVec.extractLsb'_append_eq_right

@[simp] theorem wordP_class (kind : BitVec 4) (p : BitVec 8) : (wordP kind p).extractLsb' 12 4 = 0b1011#4 :=
  (extractLsb'_append_above (0b1011#4 ++ kind) p 4 4).trans BitVec.extractLsb'_append_eq_left

@[simp] theorem wordP_kind (kind : BitVec 4) (p : BitVec 8) : (wordP kind p).extractLsb' 8 4 = kind :=
  (extractLsb'_append_above (0b1011#4 ++ kind) p 0 4).trans BitVec.extractLsb'_append_eq_right

@[simp] theorem wordP_payload (kind : BitVec 4) (p : BitVec 8) : (wordP kind p).extractLsb' 0 8 = p := BitVec.extractLsb'_append_eq_right

section
variable (op : BitVec 5) (d a b : BitVec 3)

/-- Above its two last fields a V word has its class, its op and d. -/
theorem wordV_above (i len : Nat) : (wordV op d a b).extractLsb' (3 + (3 + i)) len = (0b11#2 ++ op ++ d).extractLsb' i len :=
  (extractLsb'_append_above (0b11#2 ++ op ++ d ++ a) b (3 + i) len).trans (extractLsb'_append_above (0b11#2 ++ op ++ d) a i len)

@[simp] theorem wordV_class : (wordV op d a b).extractLsb' 14 2 = 0b11#2 :=
  (wordV_above op d a b 8 2).trans ((extractLsb'_append_above (0b11#2 ++ op) d 5 2).trans BitVec.extractLsb'_append_eq_left)

@[simp] theorem wordV_op : (wordV op d a b).extractLsb' 9 5 = op :=
  (wordV_above op d a b 3 5).trans ((extractLsb'_append_above (0b11#2 ++ op) d 0 5).trans BitVec.extractLsb'_append_eq_right)

@[simp] theorem wordV_d : (wordV op d a b).extractLsb' 6 3 = d :=
  (wordV_above op d a b 0 3).trans BitVec.extractLsb'_append_eq_right

@[simp] theorem wordV_a : (wordV op d a b).extractLsb' 3 3 = a :=
  (extractLsb'_append_above (0b11#2 ++ op ++ d ++ a) b 0 3).trans BitVec.extractLsb'_append_eq_right

@[simp] theorem wordV_b : (wordV op d a b).extractLsb' 0 3 = b := BitVec.extractLsb'_append_eq_right

end

/-! ### Words of different classes differ in a bit -/

/-- The bits of a part of a word. -/
theorem getLsbD_of_extractLsb'_eq {w : Word16} {lo n : Nat} {c : BitVec n} (h : w.extractLsb' lo n = c) {i : Nat} (hi : i < n) :
    w.getLsbD (lo + i) = c.getLsbD i := by
  rw [← h, BitVec.getLsbD_extractLsb', decide_eq_true hi, Bool.true_and]

/-- Two parts of a word that differ in a bit they share. -/
theorem extractLsb'_ne {w : Word16} {lo n lo' n' : Nat} {c : BitVec n} {c' : BitVec n'} (h : w.extractLsb' lo n = c) (i j : Nat)
    (hi : i < n := by decide) (hj : j < n' := by decide) (hij : lo + i = lo' + j := by decide) (hbit : c.getLsbD i ≠ c'.getLsbD j := by decide) :
    w.extractLsb' lo' n' ≠ c' := fun h' =>
  hbit ((getLsbD_of_extractLsb'_eq h hi).symm.trans (hij ▸ getLsbD_of_extractLsb'_eq h' hj))

/-! ### The decoder on a word of each class (R148) -/

theorem decodeWord_litWord (v : BitVec 15) : decodeWord (0#1 ++ v) = .lit v := by
  have hclass : (0#1 ++ v).extractLsb' 15 1 = 0#1 := BitVec.extractLsb'_append_eq_left
  have hv : (0#1 ++ v).extractLsb' 0 15 = v := BitVec.extractLsb'_append_eq_right
  rw [decodeWord, if_pos hclass, hv]

theorem decodeWord_extWord (v : BitVec 13) : decodeWord (0b100#3 ++ v) = .ext v := by
  have hclass : (0b100#3 ++ v).extractLsb' 13 3 = 0b100#3 := BitVec.extractLsb'_append_eq_left
  have hlit : (0b100#3 ++ v).extractLsb' 15 1 ≠ 0#1 := extractLsb'_ne hclass 2 0
  have hv : (0b100#3 ++ v).extractLsb' 0 13 = v := BitVec.extractLsb'_append_eq_right
  rw [decodeWord, if_neg hlit, if_pos hclass, hv]

theorem decodeWord_wordS (op : BitVec 8) (r : BitVec 4) :
    decodeWord (wordS op r) = (decodeS op r).getD (.undefinedWord (wordS op r)) := by
  have hclass := wordS_class op r
  have hlit : (wordS op r).extractLsb' 15 1 ≠ 0#1 := extractLsb'_ne hclass 3 0
  have hext : (wordS op r).extractLsb' 13 3 ≠ 0b100#3 := extractLsb'_ne hclass 1 0
  rw [decodeWord, if_neg hlit, if_neg hext, if_pos hclass, wordS_op, wordS_r]

theorem decodeWord_wordP (kind : BitVec 4) (p : BitVec 8) :
    decodeWord (wordP kind p) = (decodeP kind p).getD (.undefinedWord (wordP kind p)) := by
  have hclass := wordP_class kind p
  have hlit : (wordP kind p).extractLsb' 15 1 ≠ 0#1 := extractLsb'_ne hclass 3 0
  have hext : (wordP kind p).extractLsb' 13 3 ≠ 0b100#3 := extractLsb'_ne hclass 1 0
  have hs : (wordP kind p).extractLsb' 12 4 ≠ 0b1010#4 := extractLsb'_ne hclass 0 0
  rw [decodeWord, if_neg hlit, if_neg hext, if_neg hs, if_pos hclass, wordP_kind, wordP_payload]

theorem decodeWord_wordV (op : BitVec 5) (d a b : BitVec 3) : decodeWord (wordV op d a b) = decodeV op d a b := by
  have hclass := wordV_class op d a b
  have hlit : (wordV op d a b).extractLsb' 15 1 ≠ 0#1 := extractLsb'_ne hclass 1 0
  have hext : (wordV op d a b).extractLsb' 13 3 ≠ 0b100#3 := extractLsb'_ne hclass 0 1
  have hs : (wordV op d a b).extractLsb' 12 4 ≠ 0b1010#4 := extractLsb'_ne hclass 0 2
  have hp : (wordV op d a b).extractLsb' 12 4 ≠ 0b1011#4 := extractLsb'_ne hclass 0 2
  rw [decodeWord, if_neg hlit, if_neg hext, if_neg hs, if_neg hp, wordV_op, wordV_d, wordV_a, wordV_b]

/-! ### Every word is of a class (R148) -/

/-- Every value of the four leading bits names a class. -/
theorem leadingBits_cases : ∀ c : BitVec 4,
    c.extractLsb' 3 1 = 0#1 ∨ c.extractLsb' 1 3 = 0b100#3 ∨ c = 0b1010#4 ∨ c = 0b1011#4 ∨ c.extractLsb' 2 2 = 0b11#2 := by
  decide

/-- A part of a word is its upper field and what stands below it. -/
theorem extractLsb'_split (w : Word16) (lo m n : Nat) {hi : BitVec n} (h : w.extractLsb' (lo + m) n = hi) :
    w.extractLsb' lo (n + m) = hi ++ w.extractLsb' lo m := by
  rw [← h]
  exact (BitVec.extractLsb'_append_extractLsb'_eq_extractLsb' rfl).symm

theorem word_cases (w : Word16) :
    (∃ v : BitVec 15, w = 0#1 ++ v) ∨ (∃ v : BitVec 13, w = 0b100#3 ++ v) ∨ (∃ op r, w = wordS op r) ∨ (∃ kind p, w = wordP kind p)
      ∨ ∃ op d a b, w = wordV op d a b := by
  have hwhole : w.extractLsb' 0 16 = w := BitVec.extractLsb'_eq_self
  have hlead (i len : Nat) (h : i + len ≤ 4) : w.extractLsb' (12 + i) len = (w.extractLsb' 12 4).extractLsb' i len := by
    ext j hj
    simp [Nat.add_assoc, show i + j < 4 by omega]
  obtain hc | hc | hc | hc | hc := leadingBits_cases (w.extractLsb' 12 4)
  · have hlit := extractLsb'_split w 0 15 1 ((hlead 3 1 (by decide)).trans hc)
    exact .inl ⟨_, hwhole.symm.trans hlit⟩
  · have hext := extractLsb'_split w 0 13 3 ((hlead 1 3 (by decide)).trans hc)
    exact .inr (.inl ⟨_, hwhole.symm.trans hext⟩)
  · have hop := extractLsb'_split w 4 8 4 hc
    have hr := extractLsb'_split w 0 4 12 hop
    exact .inr (.inr (.inl ⟨_, _, hwhole.symm.trans hr⟩))
  · have hkind := extractLsb'_split w 8 4 4 hc
    have hp := extractLsb'_split w 0 8 8 hkind
    exact .inr (.inr (.inr (.inl ⟨_, _, hwhole.symm.trans hp⟩)))
  · have hop := extractLsb'_split w 9 5 2 ((hlead 2 2 (by decide)).trans hc)
    have hd := extractLsb'_split w 6 3 7 hop
    have ha := extractLsb'_split w 3 3 10 hd
    have hb := extractLsb'_split w 0 3 13 ha
    exact .inr (.inr (.inr (.inr ⟨_, _, _, _, hwhole.symm.trans hb⟩)))

/-! ### The word of an instruction -/

/-- Word w is that of instruction i, by its class: the S and P words and the V words as the decoder's maps have them. -/
inductive WordOf : Instr → Word16 → Prop where
  | lit (v : BitVec 15) : WordOf (.lit v) (0#1 ++ v)
  | ext (v : BitVec 13) : WordOf (.ext v) (0b100#3 ++ v)
  | ofS {i : Instr} {op : BitVec 8} {r : BitVec 4} (h : decodeS op r = some i) : WordOf i (wordS op r)
  | ofP {i : Instr} {kind : BitVec 4} {p : BitVec 8} (h : decodeP kind p = some i) : WordOf i (wordP kind p)
  | ofV {i : Instr} {op : BitVec 5} {d a b : BitVec 3} (h : decodeV op d a b = i) : WordOf i (wordV op d a b)

theorem decodeWord_of_wordOf {i : Instr} {w : Word16} (h : WordOf i w) : decodeWord w = i := by
  cases h with
  | lit v => exact decodeWord_litWord v
  | ext v => exact decodeWord_extWord v
  | ofS h => rw [decodeWord_wordS, h, Option.getD_some]
  | ofP h => rw [decodeWord_wordP, h, Option.getD_some]
  | ofV h => rw [decodeWord_wordV, h]

/-- The decoder finds the instruction of which a word is, or none. -/
theorem wordOf_decodeWord (w : Word16) : WordOf (decodeWord w) w ∨ decodeWord w = .undefinedWord w := by
  obtain ⟨v, rfl⟩ | ⟨v, rfl⟩ | ⟨op, r, rfl⟩ | ⟨kind, p, rfl⟩ | ⟨op, d, a, b, rfl⟩ := word_cases w
  · exact .inl (decodeWord_litWord v ▸ .lit v)
  · exact .inl (decodeWord_extWord v ▸ .ext v)
  · rw [decodeWord_wordS]
    cases h : decodeS op r with
    | none => exact .inr rfl
    | some i => exact .inl (.ofS h)
  · rw [decodeWord_wordP]
    cases h : decodeP kind p with
    | none => exact .inr rfl
    | some i => exact .inl (.ofP h)
  · exact .inl (.ofV (decodeWord_wordV op d a b).symm)

/-! ### The maps read backwards -/

/-- A field is one of the numbers that fit in it. -/
theorem exists_eq_ofNat {n : Nat} (x : BitVec n) : ∃ m < 2 ^ n, x = BitVec.ofNat n m := ⟨x.toNat, x.isLt, by simp⟩

/-- An op code of the S map is that of the word it is read from (R151). -/
theorem encodeWord_of_decodeS {i : Instr} {op : BitVec 8} {r : BitVec 4} (h : decodeS op r = some i) : encodeWord i = some (wordS op r) := by
  obtain ⟨n, hn, rfl⟩ := exists_eq_ofNat op
  interval_cases n <;> cases h <;> rfl

/-- A kind of R158 is that of the word it is read from. -/
theorem encodeWord_of_decodeP {i : Instr} {kind : BitVec 4} {p : BitVec 8} (h : decodeP kind p = some i) :
    encodeWord i = some (wordP kind p) := by
  obtain ⟨n, hn, rfl⟩ := exists_eq_ofNat kind
  interval_cases n <;> cases h <;> rfl

/-- Every op code of the V map is that of the word it is read from (R156). -/
theorem encodeWord_decodeV (op : BitVec 5) (d a b : BitVec 3) : encodeWord (decodeV op d a b) = some (wordV op d a b) := by
  obtain ⟨n, hn, rfl⟩ := exists_eq_ofNat op
  interval_cases n <;> rfl

theorem encodeWord_of_wordOf {i : Instr} {w : Word16} (h : WordOf i w) : encodeWord i = some w := by
  cases h with
  | lit v => rfl
  | ext v => rfl
  | ofS h => exact encodeWord_of_decodeS h
  | ofP h => exact encodeWord_of_decodeP h
  | ofV h => rw [← h, encodeWord_decodeV]

theorem wordOf_of_encodeWord {i : Instr} {w : Word16} (h : encodeWord i = some w) : WordOf i w ∨ i = .undefinedWord w := by
  cases i with
  | lit v =>
    cases h
    exact .inl (.lit v)
  | ext v =>
    cases h
    exact .inl (.ext v)
  | undefinedWord v =>
    cases h
    exact .inr rfl
  | scope p | token p | ifp p | fmt p | sparse p | waitmax p | round p | sat p | event p =>
    cases h
    exact .inl (.ofP rfl)
  | vmov d a b | vadd d a b | vsub d a b | vmul d a b | vfma d a b | vmin d a b | vmax d a b | vabs d a b | vneg d a b | vand d a b
  | vor d a b | vxor d a b | vshl d a b | vshr d a b | vsar d a b | vclt d a b | vceq d a b | vsel d a b | vcvt d a b | vexp2 d a b
  | vlog2 d a b | vrcp d a b | vrsq d a b | vsumr d a b | vmaxr d a b | vbcast d a b | vshuf d a b | vscale d a b | vqmx d a b
  | vdqmx d a b | vpk24 d a b | vclr d a b =>
    cases h
    exact .inl (.ofV rfl)
  | _ =>
    -- an S word, or an operation or event, which has no word
    cases h <;> exact .inl (.ofS rfl)

/-! ### Decoding and encoding -/

/-- R152: of the words themselves as instructions only those are well formed that the decoder finds no instruction for. -/
theorem Instr.wellFormed_undefinedWord {w : Word16} : (Instr.undefinedWord w).wellFormed = true ↔ decodeWord w = .undefinedWord w :=
  beq_iff_eq

theorem decodeWord_of_encodeWord {i : Instr} {w : Word16} (hi : i.wellFormed = true) (h : encodeWord i = some w) : decodeWord w = i := by
  obtain hw | rfl := wordOf_of_encodeWord h
  · exact decodeWord_of_wordOf hw
  · exact Instr.wellFormed_undefinedWord.mp hi

theorem encodeWord_decodeWord (w : Word16) : encodeWord (decodeWord w) = some w := by
  obtain hw | hw := wordOf_decodeWord w
  · exact encodeWord_of_wordOf hw
  · rw [hw]
    rfl

/-- The decoder calls no word undefined but the one it reads. -/
theorem eq_of_decodeWord_eq_undefinedWord {v w : Word16} (h : decodeWord w = .undefinedWord v) : v = w := by
  have hw := encodeWord_decodeWord w
  rw [h] at hw
  exact Option.some.inj hw

theorem wellFormed_decodeWord (w : Word16) : (decodeWord w).wellFormed = true := by
  unfold Instr.wellFormed
  split
  next v hv =>
    obtain rfl := eq_of_decodeWord_eq_undefinedWord hv
    exact Instr.wellFormed_undefinedWord.mpr hv
  next => rfl

/-- R3: a word's bytes lie least significant first. -/
theorem append_bytes (w : Word16) : w.extractLsb' 8 8 ++ w.extractLsb' 0 8 = w :=
  (extractLsb'_split w 0 8 8 rfl).symm.trans BitVec.extractLsb'_eq_self

theorem decode_append_of_encode {i : Instr} {bs : List Byte} (hi : i.wellFormed = true) (h : encode i = some bs) (rest : List Byte) :
    decode (bs ++ rest) = .ok (i, rest) := by
  obtain ⟨w, hw, rfl⟩ := Option.map_eq_some_iff.mp h
  rw [List.cons_append, List.cons_append, List.nil_append, decode, append_bytes, decodeWord_of_encodeWord hi hw]

/-- A word given as a number of 16 bits decodes as that word. -/
theorem decodeTableWord_toNat (w : Word16) : decodeTableWord 16 w.toNat = some (decodeWord w) := by
  have hbits : ¬ (16 = 0 ∨ 16 < 16) := by decide
  have hw : BitVec.ofNat 16 (w.toNat % 2 ^ 16) = w := by rw [Nat.mod_eq_of_lt w.isLt, BitVec.ofNat_toNat, BitVec.setWidth_eq]
  rw [decodeTableWord, if_neg hbits, hw]
  simp only [decode, append_bytes]

/-! ### The statements -/

/-- Settles O54: an instruction's word is of a class whose map the decoder reads, every word is of a class whose map the encoder reads
back, and the bytes are those of the word. -/
theorem decodeAndEncodeAgree : Obligations.DecodeAndEncodeAgree := by
  unfold Obligations.DecodeAndEncodeAgree
  exact ⟨fun i w => decodeWord_of_encodeWord, fun w => ⟨wellFormed_decodeWord w, encodeWord_decodeWord w⟩,
    fun i bs rest hi h => decode_append_of_encode hi h rest⟩

/-- Settles O60: each sample is the word its instruction encodes to, and 0xBF00 is a P word of an undefined kind. -/
theorem sampleWordsDecode : Obligations.SampleWordsDecode := by
  unfold Obligations.SampleWordsDecode
  have hfork : decodeWord 0xA662 = .fork 2 := decodeWord_of_encodeWord rfl rfl
  refine ⟨?lit, ?ext, ?add, hfork, ?tld, ?mgather, ?ifp, ?vadd, ?none, ?table⟩
  case none => exact decodeWord_wordP 15 0
  case table => rw [← hfork]; exact decodeTableWord_toNat 0xA662
  all_goals exact decodeWord_of_encodeWord rfl rfl

end Sys2Proof
end

section
/-! SUPPORT and O1. Words that only compute on the stack, and EXT's shift as arithmetic. -/

namespace Sys2Proof.Machine

/-- R150: EXT shifts by 13 bits and fills them with its immediate. -/
theorem shiftLeft_or_setWidth (x : W64) (v : BitVec 13) : (x <<< 13) ||| v.setWidth 64 = BitVec.ofNat 64 (x.toNat * 2 ^ 13 + v.toNat) := by
  have hsum : x.toNat <<< 13 ||| v.toNat = x.toNat * 2 ^ 13 + v.toNat := by
    rw [← Nat.shiftLeft_add_eq_or_of_lt v.isLt, Nat.shiftLeft_eq]
  have hx : x <<< 13 = BitVec.ofNat 64 (x.toNat <<< 13) := rfl
  have hv : v.setWidth 64 = BitVec.ofNat 64 v.toNat := (BitVec.ofNat_toNat 64 v).symm
  rw [hx, hv, ← BitVec.ofNat_or, hsum]

/-- A word that issues, takes no EVENT, and changes nothing but the stack, completes. -/
theorem completes_ok {i : Instr} {r : BitVec 4} {s : State} {sp : Spec} {body : Wd → List W64 → State → Res} {a out : List W64}
    (hw : wordSpec s.q i = some sp) (hs : s.Issues i sp) (ha : popArgs s.me.stack sp.pops = a)
    (he : exec i s = .next (runWord i r sp body s)) (hr : r = rField i) (hv : sp.acc.event = false)
    (hb : body (s.wd i sp) a s = ok s out) : CompletesThen i s s sp.pops out 1 0 id :=
  completes_at hw hs ha he hr (.inr hv) hb rfl

end Sys2Proof.Machine

namespace Sys2Proof

open Machine

/-- Settles O1, picture by picture: each word's body gives what the picture draws. -/
theorem stackWordsDoTheirPicture : Obligations.StackWordsDoTheirPicture := by
  unfold Obligations.StackWordsDoTheirPicture Claims.Performs
  intro i s sp e hw hs he
  generalize ha : popArgs s.me.stack sp.pops = a at he
  unfold Claims.stackWords at he
  split at he <;> cases he <;> cases hw
  case h_2 v x =>
    -- EXT is the one word whose picture is arithmetic where its body shifts
    exact completes_ok rfl hs ha rfl rfl rfl (congrArg (fun y => ok s [y]) (shiftLeft_or_setWidth x v))
  all_goals exact completes_ok rfl hs ha rfl rfl rfl rfl

end Sys2Proof
end

section
/-! SUPPORT and O39. A queue whose CFG is read through a format window that stands in the ring itself: breaking the parser's wait
changes the die that serves the queue. -/

namespace Sys2Proof.Machine

/-- Slot 0 of the ring lies in the bank of core 0. -/
def windowSlot : Nat := bankKey ⟨0, 0, 0⟩ 0x8000

/-- Byte 3 of CFG, which names the die, is read through format window 0, whose element stands in the byte that carries slot 0's phase; the other
bytes of the descriptor stand in the L2. The slot holds a NOP of the wrong phase, for which the parser has waited 10 ms. -/
def windowedCfg : State :=
  { State.reset with
    now := 22500000, arg := { pa := 0x4000 }
    mem := Memory.write (Memory.writeLE [] 0x9000 1 0x7F) windowSlot 0x21
    l2 := Overlay.setBytes (Overlay.setBytes [] 0x4000 (leBytes 8 windowSlot ++ leBytes 3 0x10804)) 0x400C (List.replicate 52 0)
    bar0 := Memory.writeLE (Memory.writeLE (Memory.writeLE (Memory.writeLE (Memory.writeLE [] 0x2000 8 0x4000) 0x2008 4 1)
      0x200C 4 (2 ^ 31 + 5)) 0x2010 8 (windowSlot - 5)) 0x2018 8 0x9000
    queues := [{ pa := 0x4000, owner := none, pkts := [], fence := none, waitSince := some 0, told := false }] }

/-- The records that die 2 has forwarded once the wait is broken. -/
def windowedFwd : Option Nat := match exec .parserStallTimeout windowedCfg with | .next t => some (t.die 2).fwd.length | _ => none

theorem windowedFwd_eq : windowedFwd = some 0 := by decide

/-- CFG names die 2. -/
theorem windowedCfg_die : cfgDie (windowedCfg.qCfg 0x4000) = 2 := by decide

theorem windowedCfg_memoryForm : windowedCfg.MemoryForm := by unfold State.MemoryForm; decide

theorem windowedCfg_poolDesc : Claims.PoolDesc windowedCfg 0x4000 := by
  unfold Claims.PoolDesc
  decide

end Sys2Proof.Machine

namespace Sys2Proof

open Machine

/-- Refutes O39, by its clause on a wait that is broken after 10 ms: the NOP is written into the byte that a format window shows as byte 3 of
CFG, so the record is forwarded on the die that CFG names afterwards, and the die that it named before forwards none. The clause asks nothing of the
windows. -/
theorem not_parserTakesPublishedPackets : ¬ Obligations.ParserTakesPublishedPackets := by
  unfold Obligations.ParserTakesPublishedPackets
  rintro ⟨-, -, -, -, hstall, -⟩
  have hplace : windowedCfg.slotPa 0x4000 0 < 0x4000 ∨ 0x4000 + 64 ≤ windowedCfg.slotPa 0x4000 0 := by decide
  obtain ⟨t, ht, -, -, r, hr, -⟩ := hstall windowedCfg 0 0 (.bank ⟨0, 0, 0⟩ 0x8000) windowedCfg_memoryForm rfl (by decide) rfl (by decide)
    (by decide) windowedCfg_poolDesc (by decide) rfl hplace
  have hnext : exec .parserStallTimeout windowedCfg = .next t := ht
  have hlen := windowedFwd_eq
  rw [windowedFwd, hnext] at hlen
  have hdie : cfgDie (windowedCfg.qCfg windowedCfg.arg.pa.toNat) = 2 := windowedCfg_die
  rw [hdie] at hr
  have : (t.die 2).fwd.length = 0 := Option.some.inj hlen
  rw [hr, List.length_append] at this
  exact absurd this (by simp)

end Sys2Proof
end

section
/-! SUPPORT and O40. A queue with a packet in progress whose STATUS shows BUSY 0, under a watch of a node. -/

namespace Sys2Proof.Machine

/-- A watch on stores to a page that stands at the frame of the queue's descriptor. -/
def busyWatch : Watch := { base := 0, size := 0x1000, ctl := 2, value := 0, hook := 0, frames := [(4, 0)] }

/-- A node with that watch. -/
def busyNode : Node :=
  { id := ⟨0, 0⟩, entry := 0, desc := descOf [] 0, root := 0, st := .placed, cores := []
    watch := .ofFn fun j => if j = 0 then some busyWatch else none
    relaunched := false, imprecise := none, saves := [], dump := [], noticed := false, tstart := 0, readyNo := 0, stuck := none }

/-- A SPAWN packet whose descriptor, in the bank of core 0, is all zero: its gang is 0. -/
def busyPacket : Packet := { newPacket 0 (leBytes 8 10 ++ leBytes 8 (31 * 2 ^ 52 + 2 ^ 51) ++ List.replicate 48 0) 0 with eng := some 0 }

/-- A queue with the packet in progress whose STATUS shows BUSY 0. -/
def busyWrong : State :=
  { State.reset with
    arg := { pa := 0x4000 }, nodes := [busyNode]
    cores := [(⟨0, 0, 0⟩, { Core.reset with mode := .scratch })]
    queues := [{ pa := 0x4000, owner := none, pkts := [busyPacket], fence := none, waitSince := none, told := false }] }

/-- A watch stop is due at some node. -/
def State.stopDue (s : State) : Bool := s.nodes.any fun n => n.imprecise.isSome

/-- What clause 5 of O40 asks of the state before the packet works, and that no watch stop is due once the descriptor has been read. -/
def busyRead : Bool :=
  match busyWrong.moverRead (busyWrong.queueMover (busyWrong.dray 0x4000) 0) (31 * 2 ^ 52 + 2 ^ 51) 256 with
  | .ok (u, cs) =>
    !u.packetHeld (busyWrong.queueAgent (busyWrong.dray 0x4000)) (Claims.ofN (leAt (plain cs) 0x18 8))
      && u.spawnStatus (Claims.queueSpawner busyWrong u 0x4000 cs) (31 * 2 ^ 52 + 2 ^ 51) (plain cs) != 0 && !u.stopDue
  | .error _ => false

/-- A watch stop is due once the packet has worked. -/
def busyTold : Bool := match exec .spawnPacket busyWrong with | .next t => t.stopDue | _ => false

theorem busyRead_holds : busyRead = true := by decide
theorem busyTold_holds : busyTold = true := by decide

end Sys2Proof.Machine

namespace Sys2Proof

open Machine

/-- Refutes O40, by its clause on a SPAWN packet whose status is not 0: the packet's status is noted, BUSY is put right in STATUS, and the watch that
stands there makes an imprecise watch stop due at its node. The clause, which says that the nodes stay as they were, does not ask that BUSY is
right. -/
theorem not_packetsDoTheirWork : ¬ Obligations.PacketsDoTheirWork := by
  unfold Obligations.PacketsDoTheirWork
  rintro ⟨-, -, -, -, hspawn, -⟩
  have hread := busyRead_holds
  unfold busyRead at hread
  split at hread
  · next u cs hr =>
    simp only [Bool.and_eq_true, Bool.not_eq_true', bne_iff_ne] at hread
    obtain ⟨⟨hheld, hst⟩, hdue⟩ := hread
    have hgoes : Claims.QueueGoes busyWrong 0x4000 := by unfold Claims.QueueGoes; decide
    have hfirst : Claims.Worked (busyWrong.dray 0x4000).pkts 0 busyPacket (fun x => x.type == 5 && !x.worked) :=
      ⟨rfl, by decide, fun j _ hj => absurd hj (Nat.not_lt_zero j)⟩
    obtain ⟨t, ht, hnodes, -⟩ := hspawn busyWrong u 0 _ busyPacket cs hgoes hfirst (by decide) hr hheld rfl hst
    have htold := busyTold_holds
    have hnext : exec .spawnPacket busyWrong = .next t := ht
    simp only [busyTold, hnext, State.stopDue, hnodes] at htold
    exact absurd (htold.symm.trans hdue) (by decide)
  · cases hread

end Sys2Proof
end

section
/-! SUPPORT. What the shared operations over memory leave of a core as it was: the PCs of its sequencers, its T engine and chain contexts, the errors of
its registers, its tokens and, but for a store that raises a deferred fault, what is due at its next boundary. -/

namespace Sys2Proof.Machine

/-! ### The parts of a core that no access to memory changes -/

/-- From c to d the PCs, the T engine, the chain contexts, the errors of registers, the tokens and the deferred faults stay. -/
structure Core.SameWork (c d : Core) : Prop where
  /-- PCs. -/
  pc : ∀ q, (d.ctx.seq q).pc = (c.ctx.seq q).pc
  /-- The T engine. -/
  te : d.ctx.te = c.ctx.te
  /-- Chain contexts. -/
  chain : d.ctx.chain = c.ctx.chain
  /-- Errors of registers. -/
  regEcc : d.ctx.regEcc = c.ctx.regEcc
  /-- Tokens. -/
  tok : d.ctx.regs.tok = c.ctx.regs.tok
  /-- Deferred faults. -/
  pend : d.pend = c.pend

theorem Core.SameWork.refl (c : Core) : c.SameWork c := ⟨fun _ => rfl, rfl, rfl, rfl, rfl, rfl⟩

theorem Core.SameWork.trans {c d e : Core} (h : c.SameWork d) (g : d.SameWork e) : c.SameWork e :=
  ⟨fun q => (g.pc q).trans (h.pc q), g.te.trans h.te, g.chain.trans h.chain, g.regEcc.trans h.regEcc, g.tok.trans h.tok, g.pend.trans h.pend⟩

/-- From s to t those parts of every core stay. -/
structure State.SameWork (s t : State) : Prop where
  /-- Core by core. -/
  core : ∀ k, (s.core k).SameWork (t.core k)

namespace State.SameWork

theorem refl (s : State) : s.SameWork s := ⟨fun _ => .refl _⟩

theorem trans {s t u : State} (h : s.SameWork t) (g : t.SameWork u) : s.SameWork u := ⟨fun k => (h.core k).trans (g.core k)⟩

/-- A change outside the cores. -/
theorem of_cores {s t : State} (h : t.cores = s.cores) : s.SameWork t := ⟨fun k => by
  rw [State.core, State.core, h]
  exact .refl _⟩

/-- Before it, a change outside the cores. -/
theorem after_cores {s t u : State} (g : t.SameWork u) (h : t.cores = s.cores) : s.SameWork u := (of_cores h).trans g

/-- After it, a change outside the cores. -/
theorem then_cores {s t u : State} (g : s.SameWork t) (h : u.cores = t.cores) : s.SameWork u := g.trans (of_cores h)

theorem modCore (s : State) (k : CoreId) (f : Core → Core) (h : (s.core k).SameWork (f (s.core k))) : s.SameWork (s.modCore k f) := ⟨fun j => by
  by_cases hj : j = k
  · rw [hj, State.core_modCore]
    exact h
  · rw [show (s.modCore k f).core j = s.core j from lookupCore_insertCore_ne _ _ hj]
    exact .refl _⟩

theorem foldl {α : Type} (f : State → α → State) (h : ∀ (s : State) x, s.SameWork (f s x)) (l : List α) (s : State) : s.SameWork (l.foldl f s) := by
  induction l generalizing s with
  | nil => exact .refl s
  | cons x l ih => exact (h s x).trans (ih _)

variable {s t : State} (h : s.SameWork t) (k : CoreId)
include h

theorem seq_pc (q : Seq) : (t.seq k q).pc = (s.seq k q).pc := (h.core k).pc q
theorem ctx_te : (t.ctx k).te = (s.ctx k).te := (h.core k).te
theorem chainOf (x : Fin 4) : t.chainOf k x = s.chainOf k x := congrArg (fun v : Vector Chain 4 => v[x.val]) (h.core k).chain
theorem tq : Claims.tq t k = Claims.tq s k := congrArg TEngine.queue (h.core k).te
theorem regs_tok : (t.regs k).tok = (s.regs k).tok := (h.core k).tok
theorem core_pend : (t.core k).pend = (s.core k).pend := (h.core k).pend

end State.SameWork

/-! ### Operations that keep them -/

theorem State.modRegs_sameWork (s : State) (k : CoreId) (f : Regs → Regs) (h : (f (s.regs k)).tok = (s.regs k).tok) :
    s.SameWork (s.modRegs k f) :=
  .modCore s k (fun c => { c with ctx := { s.ctx k with regs := f (s.regs k) } }) ⟨fun q => by cases q <;> rfl, rfl, rfl, rfl, h, rfl⟩

theorem State.modSeq_sameWork (s : State) (k : CoreId) (q : Seq) (f : Seqr → Seqr) (h : (f (s.seq k q)).pc = (s.seq k q).pc) :
    s.SameWork (s.modSeq k q f) := by
  refine .modCore s k (fun c => { c with ctx := (s.ctx k).setSeq q (f (s.seq k q)) }) ⟨fun p => ?_, ?_, ?_, ?_, ?_, rfl⟩
  · by_cases hp : p = q
    · subst hp
      exact (congrArg Seqr.pc (Ctx.seq_setSeq ..)).trans h
    · exact congrArg Seqr.pc (Ctx.seq_setSeq_ne _ _ hp)
  all_goals cases q <;> rfl

theorem State.escape_sameWork (s : State) (k : CoreId) : s.SameWork (s.escape k) := .modCore s k _ ⟨fun _ => rfl, rfl, rfl, rfl, rfl, rfl⟩

theorem State.trace_sameWork (s : State) (k : CoreId) (kind : BitVec 5) (q : Seq) (pc : VA) (seqn : BitVec 24) (row : BitVec 32) (val : W64)
    (e : Bool) : s.SameWork (s.trace k kind q pc seqn row val e) := by
  unfold State.trace
  exact .modCore s k _ ⟨fun _ => rfl, rfl, rfl, rfl, rfl, rfl⟩

theorem State.setFlags_sameWork (s : State) (k : CoreId) (b : BitVec 32) : s.SameWork (s.setFlags k b) := by
  unfold State.setFlags
  split
  · exact .refl s
  · exact s.modRegs_sameWork k _ rfl

theorem State.chargeFtUnits_sameWork (s : State) (k : CoreId) (n : Nat) : s.SameWork (s.chargeFtUnits k n) := by
  unfold State.chargeFtUnits
  split
  · exact .refl s
  · exact s.modRegs_sameWork k _ rfl

theorem State.chargeFt_sameWork (s : State) (k : CoreId) (t : Target) (n : Nat) : s.SameWork (s.chargeFt k t n) := by
  unfold State.chargeFt
  split
  case h_3 => exact s.chargeFtUnits_sameWork k _
  all_goals
    split
    · exact .refl s
    · exact s.chargeFtUnits_sameWork k _

theorem State.usePorts_sameWork (s : State) (l : List (Target × Nat)) (w : Bool) : s.SameWork (s.usePorts l w) := by
  unfold State.usePorts
  exact .foldl _ (fun s (x : CoreId × Nat × List Nat) => .modCore s x.1 _ ⟨fun _ => rfl, rfl, rfl, rfl, rfl, rfl⟩) _ s

@[simp] theorem Seqr.wake_pc (r : Seqr) (key n : Nat) : (r.wake key n).pc = r.pc := by
  unfold Seqr.wake
  split
  · split <;> rfl
  · rfl

/-- A change of the cores that leaves a core as it is where the list has it not. -/
theorem lookupCore_map_sameWork (f : Core → Core) (hf : ∀ c : Core, c.SameWork (f c)) (cs : List (CoreId × Core)) (k : CoreId) :
    (lookupCore cs k).SameWork (lookupCore (cs.map fun x => (x.1, f x.2)) k) := by
  induction cs with
  | nil => exact .refl _
  | cons x cs ih =>
    simp only [List.map_cons, lookupCore]
    split
    · exact hf x.2
    · exact ih

theorem State.wakeLines_sameWork (s : State) (key n : Nat) : s.SameWork (s.wakeLines key n) := by
  refine ⟨fun k => lookupCore_map_sameWork (fun c : Core => { c with ctx := { c.ctx with
    c := c.ctx.c.wake key n, m := c.ctx.m.wake key n, v := c.ctx.v.wake key n, t := c.ctx.t.wake key n } }) (fun c => ?_) s.cores k⟩
  exact ⟨fun q => by cases q <;> exact Seqr.wake_pc .., rfl, rfl, rfl, rfl, rfl⟩

@[simp] theorem State.poolWrite_cores (n : Nat) (s : State) (pa : Nat) (bs : List Byte) : (s.poolWrite n pa bs).cores = s.cores := by
  induction n generalizing s pa bs with
  | zero => rfl
  | succ n ih =>
    unfold State.poolWrite
    split
    · rfl
    · rw [ih]
      split <;> rfl

@[simp] theorem State.writeBack_cores (s : State) (out : Overlay) : (s.writeBack out).cores = s.cores := by
  unfold State.writeBack
  generalize (out.map fun c => c.1 / 64).dedup = l
  induction l generalizing s with
  | nil => rfl
  | cons b l ih =>
    rw [List.foldl_cons, ih, State.writeBlock]
    split <;> rfl

@[simp] theorem State.evict_cores (s : State) (a n : Nat) : (s.evict a n).cores = s.cores := by
  unfold State.evict
  rw [State.writeBack_cores]

@[simp] theorem State.keepSectors_cores (l : List Nat) (s : State) : (s.keepSectors l).cores = s.cores := by
  induction l generalizing s with
  | nil => rfl
  | cons p l ih =>
    rw [State.keepSectors, ih]
    split
    · rfl
    · split <;> rfl

@[simp] theorem State.meetStore_cores (s : State) (pa n : Nat) : (s.meetStore pa n).cores = s.cores := by
  unfold State.meetStore
  dsimp only
  split <;> simp

@[simp] theorem State.meet_cores (s : State) (t : Target) (n : Nat) : (s.meet t n).cores = s.cores := by
  unfold State.meet State.allocate
  dsimp only
  repeat' split
  all_goals simp

theorem State.meet_sameWork (s : State) (t : Target) (n : Nat) : s.SameWork (s.meet t n) := .of_cores (s.meet_cores t n)

theorem State.homeWrite_sameWork (s : State) (t : Target) (bs : List Byte) : s.SameWork (s.homeWrite t bs) := by
  unfold State.homeWrite
  dsimp only
  split
  · exact .refl s
  · split
    case h_5 =>
      split
      · exact .modCore s _ _ ⟨fun _ => rfl, rfl, rfl, rfl, rfl, rfl⟩
      · exact .refl s
    case h_6 => exact .refl s
    all_goals
      refine .trans (.of_cores ?_) (State.wakeLines_sameWork ..)
      simp [State.clearPoison, State.allocate]

@[simp] theorem State.publish_cores (o : Overlay) (s : State) : (s.publish o).cores = s.cores := by
  induction o generalizing s with
  | nil => rfl
  | cons c o ih =>
    obtain ⟨a, b⟩ := c
    rw [State.publish, ih]

@[simp] theorem State.noteCfg_cores (s : State) (pa : Nat) : (s.noteCfg pa).cores = s.cores := by
  unfold State.noteCfg State.pick
  dsimp only
  split
  · rfl
  · split <;> rfl

theorem State.noteWrite_sameWork (s : State) (t : Target) (pa n : Nat) : s.SameWork (s.noteWrite t pa n) := by
  unfold State.noteWrite
  split
  · exact .refl s
  · exact .refl s
  · refine .foldl _ (fun s i => ?_) _ s
    dsimp only
    split
    · exact .of_cores (s.noteCfg_cores _)
    · exact .refl s

theorem State.coreWrite_sameWork (s : State) (k : CoreId) (t : Target) (bs : List Byte) : s.SameWork (s.coreWrite k t bs) := by
  unfold State.coreWrite
  dsimp only
  split
  · exact (s.homeWrite_sameWork t bs).trans (State.noteWrite_sameWork ..)
  · exact s.homeWrite_sameWork t bs

theorem State.commit_sameWork (s : State) (k : CoreId) : s.SameWork (s.commit k) := by
  unfold State.commit
  dsimp only
  split
  · exact .refl s
  · have published : s.SameWork (s.publish (s.core k).version) := .of_cores (State.publish_cores ..)
    have cached := published.trans
      (.foldl (fun s l => s.allocate (128 * l) 128) (fun s l => .of_cores rfl) (s.core k).version.lines _)
    generalize (s.core k).version.lines.foldl (fun s l => s.allocate (128 * l) 128) (s.publish (s.core k).version) = u at cached ⊢
    have woken := (cached.trans (.of_cores (t := { u with
        poison := u.poison.filter fun p => !(u.core k).whole.contains p, ecc := u.ecc.filter fun p => !(u.core k).whole.contains p.1 }) rfl)).trans
      (.foldl (fun s l => s.wakeLines (128 * l) 128) (fun s l => s.wakeLines_sameWork _ _) (s.core k).version.lines _)
    refine (woken.trans ?_).trans (.modCore _ _ _ ⟨fun _ => rfl, rfl, rfl, rfl, rfl, rfl⟩)
    split
    · exact .foldl (fun s (c : Host.Cell) => s.noteCfg c.1) (fun s c => .of_cores (s.noteCfg_cores _)) _ _
    · exact .refl _

theorem State.versionWrite_sameWork (s : State) (k : CoreId) (pa : Nat) (bs : List Byte) : s.SameWork (s.versionWrite k pa bs) := by
  have counted : s.SameWork { s with free := s.free + 1 } := .of_cores rfl
  have kept : ∀ (u : State) (f : Overlay → Overlay) (g : List Nat → List Nat),
      u.SameWork (u.modCore k fun c => { c with version := f c.version, whole := g c.whole }) := fun u f g =>
    .modCore _ _ _ ⟨fun _ => rfl, rfl, rfl, rfl, rfl, rfl⟩
  have full : ∀ (u : State) (f : Overlay → Overlay) (g : List Nat → List Nat),
      u.SameWork (((u.commit k).escape k).modCore k fun c => { c with version := f c.version, whole := g c.whole }) := fun u f g =>
    ((u.commit_sameWork k).trans (State.escape_sameWork ..)).trans (kept ..)
  unfold State.versionWrite
  dsimp only
  split <;> split
  · exact counted.trans (full _ (fun o => o.setBytes pa bs) fun _ => wholeSectors pa bs.length)
  · exact full s (fun o => o.setBytes pa bs) fun _ => wholeSectors pa bs.length
  · exact counted.trans (kept _ (fun _ => (s.core k).version.setBytes pa bs) fun l => (l ++ wholeSectors pa bs.length).dedup)
  · exact kept s (fun _ => (s.core k).version.setBytes pa bs) fun l => (l ++ wholeSectors pa bs.length).dedup

theorem State.post_sameWork (s : State) (t : Target) (a : BitVec 24) : s.SameWork (s.post t a) := by
  unfold State.post
  exact (s.meet_sameWork t 8).trans (State.homeWrite_sameWork ..)

theorem State.postOrHold_sameWork (s : State) (pa : Nat) (pol : Policy) (t : Target) (a : BitVec 24) :
    s.SameWork (s.postOrHold pa pol t a) := by
  unfold State.postOrHold
  split
  · exact .of_cores rfl
  · exact s.post_sameWork t a

theorem State.signalSlot_sameWork (s : State) (k : CoreId) (e : EventSlot) : s.SameWork (s.signalSlot k e) := by
  unfold State.signalSlot
  split
  · exact s.setFlags_sameWork k _
  · dsimp only
    refine ((s.commit_sameWork k).trans (State.escape_sameWork _ k)).trans ?_
    split
    · exact (State.chargeFt_sameWork ..).trans (State.postOrHold_sameWork ..)
    · exact .refl _

theorem State.multicast_sameWork (s : State) (a : Agent) (g : BitVec 8) (off : Nat) (bs : List Byte) :
    s.SameWork (s.multicast a g off bs).1 :=
  .foldl _ (fun s _ => (s.usePorts_sameWork _ _).trans (State.homeWrite_sameWork ..)) _ s

theorem State.storeMember_sameWork (s : State) (k : CoreId) (m : NodeId × CoreId) (off : Nat) (bs : List Byte) :
    s.SameWork (s.storeMember k m off bs) := by
  unfold State.storeMember
  split
  · exact (s.usePorts_sameWork _ _).trans (State.homeWrite_sameWork ..)
  · exact s.setFlags_sameWork k _

theorem State.consume_sameWork (s : State) (t : Target) (n : Nat) : s.SameWork (s.consume t n).1 := by
  have life : ∀ (s : State) i m, (s.addLife i m).cores = s.cores := fun s i m => by
    unfold State.addLife
    split <;> rfl
  have row : ∀ (s : State) k off m, s.SameWork (s.countRow k off m) := fun s k off m => by
    unfold State.countRow
    split
    · exact .refl s
    · exact .after_cores (.modCore _ _ _ ⟨fun _ => rfl, rfl, rfl, rfl, rfl, rfl⟩) rfl
  have counted : ∀ (s : State) k off i₁ i₂ i₃ m₁ m₂ m₃ m₄,
      s.SameWork ((((s.addLife i₁ m₁).addLife i₂ m₂).addLife i₃ m₃).countRow k off m₄) := fun s k off i₁ i₂ i₃ m₁ m₂ m₃ m₄ =>
    .after_cores (row ..) (by rw [life, life, life])
  unfold State.consume
  extract_lets key hit found bad s₀ s₁ s₂ info lost
  have h₁ : s.SameWork s₁ := by
    cases t with
    | bank k off =>
      exact .after_cores (counted s₀ k off (.corrected k (off / 65536)) (.uncorrectable k) (.poisonings k) (found.length - bad.length)
        bad.length bad.length (found.length - bad.length)) rfl
    | _ => exact .of_cores rfl
  have h₂ : s.SameWork s₂ := .then_cores h₁ rfl
  clear_value s₁ s₂ lost bad
  split
  · exact h₂
  · split <;> exact h₁

theorem State.consumeBy_sameWork (s : State) (k : CoreId) (t : Target) (n : Nat) : s.SameWork (s.consumeBy k t n).1 := by
  unfold State.consumeBy
  split
  · dsimp only
    split
    · exact s.consume_sameWork _ _
    · refine .then_cores (t := (({ s with
        poison := s.poison.filter fun p => !(s.core k).whole.contains p
        ecc := s.ecc.filter fun p => !(s.core k).whole.contains p.1 } : State).consume _ n).1) ?_ rfl
      exact .after_cores (State.consume_sameWork ..) rfl
  · exact s.consume_sameWork _ _

theorem State.useTlb_sameWork (s : State) (k : CoreId) (e : Option TlbEnt) : s.SameWork (s.useTlb k e) := by
  unfold State.useTlb
  split
  · exact .refl s
  · next e =>
    exact .then_cores (.modCore s k (fun c => { c with tlb := fillTlb 64 c.tlb (some e) }) ⟨fun _ => rfl, rfl, rfl, rfl, rfl, rfl⟩) rfl

/-! ### Performed stores, which may raise deferred faults -/

/-- From s to t the PC of every sequencer stays. -/
structure State.SamePcs (s t : State) : Prop where
  /-- Sequencer by sequencer. -/
  pc : ∀ k q, (t.seq k q).pc = (s.seq k q).pc

theorem State.SamePcs.refl (s : State) : s.SamePcs s := ⟨fun _ _ => rfl⟩

theorem State.SamePcs.trans {s t u : State} (h : s.SamePcs t) (g : t.SamePcs u) : s.SamePcs u := ⟨fun k q => (g.pc k q).trans (h.pc k q)⟩

theorem State.SameWork.samePcs {s t : State} (h : s.SameWork t) : s.SamePcs t := ⟨h.seq_pc⟩

theorem State.modCore_samePcs (s : State) (k : CoreId) (f : Core → Core)
    (h : ∀ q, ((f (s.core k)).ctx.seq q).pc = ((s.core k).ctx.seq q).pc) : s.SamePcs (s.modCore k f) := ⟨fun j q => by
  unfold State.seq State.ctx
  by_cases hj : j = k
  · rw [hj, State.core_modCore]
    exact h q
  · rw [show (s.modCore k f).core j = s.core j from lookupCore_insertCore_ne _ _ hj]⟩

theorem State.modCtx_samePcs (s : State) (k : CoreId) (f : Ctx → Ctx) (h : ∀ q, ((f (s.ctx k)).seq q).pc = ((s.ctx k).seq q).pc) :
    s.SamePcs (s.modCtx k f) := s.modCore_samePcs k (fun c => { c with ctx := f (s.ctx k) }) h

theorem State.modTe_samePcs (s : State) (k : CoreId) (f : TEngine → TEngine) : s.SamePcs (s.modTe k f) :=
  s.modCtx_samePcs k _ fun q => by cases q <;> rfl

theorem State.defer_samePcs (s : State) (k : CoreId) (q : Seq) (n : BitVec 24) (pc : VA) (t : TrapInfo) : s.SamePcs (s.defer k q n pc t) :=
  s.modCore_samePcs k (fun c => { c with pend := c.pend ++ [s.record k q n pc { t with cls := 2 }] }) fun _ => rfl

theorem State.performStore_samePcs (s : State) (k : CoreId) (q : Seq) (n : BitVec 24) (pc : VA) (t : Target) (bs : List Byte) :
    s.SamePcs (s.performStore k q n pc t bs) := by
  unfold State.performStore
  split
  · dsimp only
    split
    · exact (s.versionWrite_sameWork ..).samePcs.trans (State.defer_samePcs ..)
    · exact (s.versionWrite_sameWork ..).samePcs
  · split
    · exact (s.escape_sameWork k).samePcs.trans (State.defer_samePcs ..)
    · exact ((s.coreWrite_sameWork ..).trans (State.escape_sameWork ..)).samePcs
  · dsimp only
    split
    · exact (s.coreWrite_sameWork ..).samePcs
    · exact ((s.coreWrite_sameWork ..).trans (State.escape_sameWork ..)).samePcs
  · exact (((s.commit_sameWork k).trans (State.homeWrite_sameWork ..)).trans (State.escape_sameWork ..)).samePcs
  · exact (((s.commit_sameWork k).trans (State.homeWrite_sameWork ..)).trans (State.escape_sameWork ..)).samePcs
  · rename_i g off
    dsimp only
    have h := ((s.commit_sameWork k).trans (State.multicast_sameWork (s.commit k) ((s.commit k).agent k) g off bs)).trans
      (State.escape_sameWork _ k)
    split
    · exact (h.trans (State.setFlags_sameWork ..)).samePcs
    · exact h.samePcs

theorem State.storeStep_samePcs (s : State) (k : CoreId) (q : Seq) : s.SamePcs (s.storeStep k q) := by
  unfold State.storeStep
  split
  · exact .refl s
  · rename_i p rest _
    dsimp only
    refine (s.modSeq_sameWork k q (fun r => r.performed p rest) rfl).samePcs.trans ?_
    split
    · split
      · unfold State.storeRest
        split
        · exact (State.SameWork.foldl _ (fun s m => s.storeMember_sameWork k m _ _) _ _).samePcs
        · exact .refl _
      · exact State.performStore_samePcs ..
    · exact State.defer_samePcs ..

theorem State.settle_samePcs (s : State) (k : CoreId) (q : Seq) : s.SamePcs (s.settle k q) := by
  unfold State.settle
  generalize (s.seq k q).stores.length = n
  induction n generalizing s with
  | zero => exact .refl s
  | succ n ih => exact (s.storeStep_samePcs k q).trans (ih _)

/-- What a word does before it commits what its sequencer has stored. -/
theorem State.settled_samePcs (s : State) (k : CoreId) (q : Seq) : s.SamePcs (((s.settle k q).commit k).escape k) :=
  (s.settle_samePcs k q).trans ((State.commit_sameWork ..).trans (State.escape_sameWork ..)).samePcs

end Sys2Proof.Machine
end

section
/-! SUPPORT and O18. The words of T: what a launch word's checks leave, and the words' effects. -/

namespace Sys2Proof.Machine

/-! ### Checks that pass -/

theorem withAccess_of_reach {w : Wd} {s u : State} {va : W64} {n al : Nat} {x : Acc} {t : Target} (h : Claims.reach w s va n al x = some (t, u))
    (cost : Nat) (go : Target → State → Res) : withAccess w s va n al x cost go = go t u := by
  unfold Claims.reach at h
  unfold withAccess
  split at h
  · next ha =>
    cases h
    rw [ha]
  · cases h

theorem reach_sameWork {w : Wd} {s u : State} {va : W64} {n al : Nat} {x : Acc} {t : Target} (h : Claims.reach w s va n al x = some (t, u)) :
    s.SameWork u := by
  unfold Claims.reach at h
  split at h
  · cases h
    exact (s.useTlb_sameWork _ _).trans (State.meet_sameWork ..)
  · cases h

theorem withChecks_of_checked {w : Wd} {l : List (Nat × Nat)} {al : Nat} {x : Acc} {s u : State} (h : Claims.checked w l al x s = some u)
    (cost : Nat) (go : State → Res) : withChecks w l al x cost s go = go u := by
  induction l generalizing s with
  | nil => cases h; rfl
  | cons p l ih =>
    obtain ⟨⟨t, v⟩, hv, h⟩ := Option.bind_eq_some_iff.mp h
    rw [withChecks, withAccess_of_reach hv]
    exact ih h

theorem checked_sameWork {w : Wd} {l : List (Nat × Nat)} {al : Nat} {x : Acc} {s u : State} (h : Claims.checked w l al x s = some u) :
    s.SameWork u := by
  induction l generalizing s with
  | nil => cases h; exact .refl _
  | cons p l ih =>
    obtain ⟨⟨t, v⟩, hv, h⟩ := Option.bind_eq_some_iff.mp h
    exact (reach_sameWork hv).trans (ih h)

theorem walk_of_bankPieces {w : Wd} {s : State} {x : Acc} {l acc out : List (Nat × Nat)} {bank : Option CoreId}
    (h : Claims.bankPieces w s l x acc bank = some out) (cost : Nat) (go : List (Nat × Nat) → Res) :
    withBankRange.walk w s cost x go l acc bank = go out := by
  induction l generalizing acc bank with
  | nil => cases h; rfl
  | cons p l ih =>
    unfold Claims.bankPieces at h
    unfold withBankRange.walk
    split at h
    · next k off e ha =>
      rw [ha]
      split at h
      · next hk =>
        obtain ⟨hc, hb, ho⟩ := hk
        have hne : bank.any (fun z => z != k) = false := by
          cases bank <;> simp_all
        simp only [hc, hne, Nat.not_lt.mpr ho]
        exact ih h
      · cases h
    · cases h

theorem withBankRange_of_bankPieces {w : Wd} {s : State} {va : W64} {n : Nat} {x : Acc} {out : List (Nat × Nat)}
    (h : Claims.bankPieces w s (cutRange 4096 va.toNat n) x [] none = some out) (cost : Nat) (go : List (Nat × Nat) → Res) :
    withBankRange w s va n cost x go = go out := walk_of_bankPieces h cost go

/-! ### Launches -/

theorem State.queueT_samePcs (s : State) (w : Wd) (l : TLaunch) : s.SamePcs (s.queueT w l) := by
  unfold State.queueT
  refine ((s.modRegs_sameWork w.k _ ?_).samePcs.trans (State.modTe_samePcs _ w.k _)).trans (State.trace_sameWork ..).samePcs
  rw [tokReserve_keeps]

theorem launchT_of_tLaunched {w : Wd} {l : TLaunch} {s : State} {e : Claims.Eff} (h : Claims.tLaunched w l s = some e) :
    launchT w l s = .done e.u e.out { cost := e.cost, flags := e.flags } := by
  unfold Claims.tLaunched at h
  unfold launchT
  split at h
  · next hr =>
    obtain ⟨htok, hq⟩ := hr
    cases h
    rw [htok]
    exact if_neg (Nat.not_le.mpr hq)
  · cases h

theorem tLaunched_samePcs {w : Wd} {l : TLaunch} {s : State} {e : Claims.Eff} (h : Claims.tLaunched w l s = some e) :
    s.SamePcs e.u ∧ e.next = id := by
  unfold Claims.tLaunched at h
  split at h
  · cases h
    exact ⟨(s.settled_samePcs w.k w.q).trans (State.queueT_samePcs ..), rfl⟩
  · cases h

/-- A launch word whose checks pass, and whose launch finds room, completes. -/
theorem completes_launch {i : Instr} {r : BitVec 4} {s u : State} {sp : Spec} {body : Wd → List W64 → State → Res} {a : List W64} {l : TLaunch}
    {e : Claims.Eff} (hw : wordSpec s.q i = some sp) (hs : s.Issues i sp) (ha : popArgs s.me.stack sp.pops = a)
    (he : exec i s = .next (runWord i r sp body s)) (hr : r = rField i) (hl : sp.launch = true) (hu : s.SameWork u)
    (ht : Claims.tLaunched (s.wd i sp) l u = some e) (hb : body (s.wd i sp) a s = launchT (s.wd i sp) l u) :
    CompletesThen i s e.u sp.pops e.out e.cost e.flags e.next := by
  obtain ⟨hpc, hnext⟩ := tLaunched_samePcs ht
  rw [hnext]
  exact completes_at hw hs ha he hr (.inl hl) (hb.trans (launchT_of_tLaunched ht)) ((hu.samePcs.trans hpc).pc s.k s.q)

/-! ### Operands of the indexed words -/

theorem gatherLimits_of_sized {n e : W64} (h : n.toNat ≤ 2 ^ 24 ∧ 1 ≤ e.toNat ∧ e.toNat ≤ 4096) : gatherLimits n e = none := by
  obtain ⟨hn, he, he'⟩ := h
  unfold gatherLimits
  rw [if_neg (Nat.not_lt.mpr hn), if_neg]
  rintro (rfl | h)
  · exact absurd he (by decide)
  · exact absurd he' (Nat.not_le.mpr h)

theorem indexWidth_eq : ∀ r : BitVec 4, indexWidth r =
    (if r.toNat % 4 = 0 then 2 else if r.toNat % 4 = 1 then 4 else if r.toNat % 4 = 2 then 8 else 4, if r.toNat % 4 = 3 then 0x400 else 0) := by
  decide

theorem indexedFmt_eq (px : Px) : indexedFmt px =
    match px.fmt with
    | none => (none, 0)
    | some p => if p.1 = 15 then (some 0, 0x40) else (some (BitVec.ofNat 4 p.1), 0) := by
  unfold indexedFmt
  cases px.fmt <;> rfl

theorem getLsbD_zero_iff (f : W64) : f.getLsbD 0 = true ↔ f.toNat % 2 = 1 := by
  simp [BitVec.getLsbD, Nat.testBit_zero]

end Sys2Proof.Machine

namespace Sys2Proof

open Machine

/-- Settles O18, word by word: the limits that a word's body checks are those that its effect names. -/
theorem transferWordsComplete : Obligations.TransferWordsComplete := by
  unfold Obligations.TransferWordsComplete Claims.Performs
  intro i s sp e hw hs he
  generalize ha : popArgs s.me.stack sp.pops = a at he
  unfold Claims.transferWords at he
  extract_lets x job fl sized named scat at he
  split at he
  case h_1 r v =>
    cases he; cases hw
    exact completes_at rfl hs ha rfl rfl (.inr rfl) rfl ((State.modTe_samePcs ..).pc _ _)
  case h_2 r v f =>
    cases he; cases hw
    have hout : Claims.ofN x.te.adler.toNat = x.te.adler.setWidth 64 := BitVec.ofNat_toNat ..
    simp only [hout, ← getLsbD_zero_iff]
    refine completes_at (d := false) rfl hs ha rfl rfl (.inr rfl) rfl ?_
    split
    · exact (State.modTe_samePcs ..).pc _ _
    · rfl
  case h_3 r n =>
    split at he <;> cases he
    next hn =>
      cases hw
      exact completes_ok rfl hs ha rfl rfl rfl (if_pos hn)
  case h_4 r j k =>
    cases he; cases hw
    refine completes_ok rfl hs ha rfl rfl rfl ?_
    simp only [List.headD_cons, List.getD_cons_succ, List.getD_cons_zero]
    have hk : k.toNat = 0 ↔ k = 0 := by simp [← BitVec.toNat_inj]
    cases hm : (s.ctx (s.wd (.dstat r) _).k).tRecord j.toNat with
    | none => simp only [hk]
    | some m => rfl
  case h_5 r =>
    split at he <;> cases he
    next hq =>
      cases hw
      refine completes_ok rfl hs ha rfl rfl rfl ?_
      have hnone : x.te.queue.find? (fun c => c.foldJob.isSome) = none := by
        rw [List.find?_eq_none]
        intro c hc
        simpa using List.all_eq_true.mp hq c hc
      dsimp only
      rw [hnone]
  case h_6 r =>
    obtain ⟨j, hj, he⟩ := Option.bind_eq_some_iff.mp he
    split at he
    next hd =>
      obtain ⟨hop, hdims⟩ := hd
      cases hw
      refine completes_launch rfl hs ha rfl rfl rfl (.refl s) he ?_
      dsimp only
      rw [hj]
      exact if_neg fun h => h.elim (fun h => h hop) (Nat.not_lt.mpr hdims)
    · cases he
  case h_7 r t ix n el d =>
    extract_lets tagged arrival j at he
    split at he
    next hd =>
      obtain ⟨hsized, htag⟩ := hd
      cases hw
      refine completes_launch rfl hs ha rfl rfl rfl (.refl s) he ?_
      simp only [List.headD_cons, List.getD_cons_succ, List.getD_cons_zero]
      rw [indexWidth_eq, gatherLimits_of_sized (of_decide_eq_true hsized), indexedFmt_eq]
      cases htagged : r.getLsbD 2 with
      | false =>
        simp only [tagged, arrival, j, htagged]
        rfl
      | true =>
        simp only [tagged, htagged, true_and, Bool.not_eq_true', decide_eq_false_iff_not, not_or, not_not] at htag
        obtain ⟨hel, hcore⟩ := htag
        simp only [tagged, arrival, j, htagged, isMerge, decide_eq_false hcore, hel]
        rfl
    · cases he
  case h_8 r d ix n el t =>
    split at he
    next hsized =>
      cases hw
      refine completes_launch rfl hs ha rfl rfl rfl (.refl s) he ?_
      simp only [List.headD_cons, List.getD_cons_succ, List.getD_cons_zero]
      rw [indexWidth_eq, gatherLimits_of_sized (of_decide_eq_true hsized), indexedFmt_eq]
      rfl
    · cases he
  case h_9 r d ix n el t =>
    split at he
    next hd =>
      obtain ⟨hsized, hel, ht⟩ := hd
      cases hw
      refine completes_launch rfl hs ha rfl rfl rfl (.refl s) he ?_
      simp only [List.headD_cons, List.getD_cons_succ, List.getD_cons_zero]
      rw [indexWidth_eq, gatherLimits_of_sized (of_decide_eq_true hsized), indexedFmt_eq]
      dsimp only
      rw [if_neg (by omega), if_neg (by omega)]
      rfl
    · cases he
  case h_10 r sv d g y =>
    extract_lets op size dsize at he
    split at he
    next hlim =>
      obtain ⟨src, hsrc, he⟩ := Option.bind_eq_some_iff.mp he
      obtain ⟨dst, hdst, he⟩ := Option.bind_eq_some_iff.mp he
      obtain ⟨u, hu, he⟩ := Option.bind_eq_some_iff.mp he
      cases hw
      refine completes_launch rfl hs ha rfl rfl rfl (checked_sameWork hu) he ?_
      simp only [List.headD_cons, List.getD_cons_succ, List.getD_cons_zero]
      rw [hlim]
      dsimp only
      rw [withBankRange_of_bankPieces hsrc, withBankRange_of_bankPieces hdst, withChecks_of_checked hu]
      rfl
    · cases he
  case h_11 r sv g o n =>
    split at he
    next hd =>
      obtain ⟨hn, hn', ho⟩ := hd
      cases hw
      refine completes_launch rfl hs ha rfl rfl rfl (.refl s) he ?_
      simp only [List.headD_cons, List.getD_cons_succ, List.getD_cons_zero]
      have hz : n ≠ 0 := by
        rintro rfl
        exact absurd hn (by decide)
      rw [if_neg fun h => h.elim hz (Nat.not_lt.mpr hn'), if_neg (Nat.not_lt.mpr ho)]
      rfl
    · cases he
  case h_12 => cases he

end Sys2Proof
end

section
/-! SUPPORT and O19. The words of chains and DQAPP: reads of ranges, the append to a ring, and a word that something follows in the same step. -/

namespace Sys2Proof.Machine

/-! ### Reads that meet no watch and no error -/

theorem withWatch_of_unwatched {w : Wd} {s : State} {va : W64} {bs : List Byte} {wr : Bool} (h : Claims.unwatched w s va bs wr = true)
    (go : Unit → Res) : withWatch w s va bs wr go = go () := by
  unfold withWatch
  rw [Option.isNone_iff_eq_none.mp h]

theorem withConsume_of_clean {w : Wd} {s u : State} {t : Target} {n : Nat} (h : Claims.clean w s t n = some u) (go : State → Res) :
    withConsume w s t n go = go u := by
  unfold Claims.clean at h
  unfold withConsume
  split at h
  · next hc =>
    cases h
    rw [hc]
  · cases h

theorem clean_sameWork {w : Wd} {s u : State} {t : Target} {n : Nat} (h : Claims.clean w s t n = some u) : s.SameWork u := by
  unfold Claims.clean at h
  split at h
  · next hc =>
    cases h
    have hs := s.consumeBy_sameWork w.k t n
    rwa [hc] at hs
  · cases h

/-- What reading one more piece does. -/
theorem readPieces_cons {w : Wd} {va n al far : Nat} {rest : List (Nat × Nat)} {bs : List Byte} {s : State} {out : List Byte × Nat × State}
    (h : Claims.readPieces w ((va, n) :: rest) al bs far s = some out) :
    ∃ t v u, Claims.reach w s (BitVec.ofNat 64 va) n al .load = some (t, v)
      ∧ Claims.unwatched w v (BitVec.ofNat 64 va) (v.viewBytes w.k t n) false = true ∧ Claims.clean w v t n = some u
      ∧ Claims.readPieces w rest 1 (bs ++ v.viewBytes w.k t n) (far + farBytes w.k t n) u = some out := by
  obtain ⟨⟨t, v⟩, hv, h⟩ := Option.bind_eq_some_iff.mp h
  dsimp only at h
  split at h
  · next hw =>
    obtain ⟨u, hu, h⟩ := Option.bind_eq_some_iff.mp h
    exact ⟨t, v, u, hv, hw, hu, h⟩
  · cases h

theorem withPieces_of_readPieces {w : Wd} {l : List (Nat × Nat)} {al : Nat} {bs out : List Byte} {far f : Nat} {s u : State}
    (h : Claims.readPieces w l al bs far s = some (out, f, u)) (cost : Nat) (go : List Byte → Nat → State → Res) :
    withPieces w l al cost bs far s go = go out f u := by
  induction l generalizing al bs far s with
  | nil => cases h; rfl
  | cons p l ih =>
    obtain ⟨t, v, x, hv, hw, hx, h⟩ := readPieces_cons h
    rw [withPieces, withAccess_of_reach hv]
    dsimp only
    rw [withWatch_of_unwatched hw, withConsume_of_clean hx]
    exact ih h

theorem readPieces_sameWork {w : Wd} {l : List (Nat × Nat)} {al : Nat} {bs out : List Byte} {far f : Nat} {s u : State}
    (h : Claims.readPieces w l al bs far s = some (out, f, u)) : s.SameWork u := by
  induction l generalizing al bs far s with
  | nil => cases h; exact .refl _
  | cons p l ih =>
    obtain ⟨t, v, x, hv, hw, hx, h⟩ := readPieces_cons h
    exact ((reach_sameWork hv).trans (clean_sameWork hx)).trans (ih h)

theorem withChecks_of_checkPieces {w : Wd} {l : List (Nat × Nat)} {al : Nat} {s u : State} (h : Claims.checkPieces w l al s = some u)
    (cost : Nat) (go : State → Res) : withChecks w l al .load cost s go = go u := by
  induction l generalizing s with
  | nil => cases h; rfl
  | cons p l ih =>
    obtain ⟨⟨t, v⟩, hv, h⟩ := Option.bind_eq_some_iff.mp h
    rw [withChecks, withAccess_of_reach hv]
    exact ih h

theorem checkPieces_sameWork {w : Wd} {l : List (Nat × Nat)} {al : Nat} {s u : State} (h : Claims.checkPieces w l al s = some u) :
    s.SameWork u := by
  induction l generalizing s with
  | nil => cases h; exact .refl _
  | cons p l ih =>
    obtain ⟨⟨t, v⟩, hv, h⟩ := Option.bind_eq_some_iff.mp h
    exact (reach_sameWork hv).trans (ih h)

theorem withRange_of_readRange {w : Wd} {s u : State} {va : W64} {n al f : Nat} {out : List Byte}
    (h : Claims.readRange w s va n al = some (out, f, u)) (cost : Nat) (go : List Byte → Nat → State → Res) :
    withRange w s va n al cost go = go out f u := by
  obtain ⟨v, hv, h⟩ := Option.bind_eq_some_iff.mp h
  rw [withRange, withChecks_of_checkPieces hv, withPieces_of_readPieces h]

theorem readRange_samePcs {w : Wd} {s u : State} {va : W64} {n al f : Nat} {out : List Byte}
    (h : Claims.readRange w s va n al = some (out, f, u)) : s.SamePcs u := by
  obtain ⟨v, hv, h⟩ := Option.bind_eq_some_iff.mp h
  exact ((checkPieces_sameWork hv).samePcs.trans (State.settle_samePcs ..)).trans (readPieces_sameWork h).samePcs

/-! ### Lengths of what is read -/

theorem leNat_lt (bs : List Byte) : leNat bs < 256 ^ bs.length := by
  induction bs with
  | nil => decide
  | cons b bs ih =>
    have hb := b.isLt
    rw [leNat, List.length_cons, pow_succ]
    omega

@[simp] theorem length_bytesFrom (f : Nat → Byte) (a n : Nat) : (bytesFrom f a n).length = n := by
  induction n generalizing a with
  | zero => rfl
  | succ n ih => rw [bytesFrom, List.length_cons, ih]

@[simp] theorem Memory.length_readBytes (m : Memory) (a n : Nat) : (m.readBytes a n).length = n := by
  rw [Memory.readBytes_eq, List.length_map, List.length_range]

@[simp] theorem State.length_homeBytes (s : State) (t : Target) (n : Nat) : (s.homeBytes t n).length = n := by
  unfold State.homeBytes
  split <;> simp

@[simp] theorem State.length_viewBytes (s : State) (k : CoreId) (t : Target) (n : Nat) : (s.viewBytes k t n).length = n := by
  unfold State.viewBytes
  split <;> simp

/-- A word that has been read is 0 exactly where its bytes are. -/
theorem ofNat_viewBytes_eq_zero_iff (s : State) (k : CoreId) (t : Target) :
    BitVec.ofNat 64 (leNat (s.viewBytes k t 8)) = 0 ↔ leNat (s.viewBytes k t 8) = 0 := by
  have hlt := leNat_lt (s.viewBytes k t 8)
  rw [State.length_viewBytes] at hlt
  rw [← BitVec.toNat_inj, BitVec.toNat_ofNat, Nat.mod_eq_of_lt (hlt.trans_eq (by decide))]
  rfl

/-! ### The append to a ring -/

theorem withRing_of_free {w : Wd} {s : State} {pa i k : Nat} {img : List Byte} (hheld : s.ringHeld pa i k = false)
    (hwatch : s.ringWatch w pa i k img = none) (va : W64) (cost : Nat) (go : Unit → Res) : withRing w s va pa i k cost img go = go () := by
  unfold withRing
  rw [hheld, hwatch]
  rfl

/-- Slots are filled where there is room and nothing holds the ring. -/
theorem fill_of_room {w : Wd} {s : State} {pa i n size : Nat} {img : List Byte} (hroom : i + n - s.qField pa 0x18 8 ≤ size)
    (hheld : s.ringHeld pa i n = false) (hwatch : s.ringWatch w pa i n img = none) (va : W64) (cost : Nat) (on : WaitOn) (go : Unit → Res) :
    (if size < i + n - s.qField pa 0x18 8 then .wait on cost s else withRing w s va pa i n cost img go) = go () := by
  rw [if_neg (Nat.not_lt.mpr hroom), withRing_of_free hheld hwatch]

theorem State.appendSlots_sameWork (s : State) (pa i k : Nat) (img : List Byte) : s.SameWork (s.appendSlots pa i k img) := by
  have put : ∀ (s : State) pa bs, s.SameWork (s.slotPut pa bs) := fun s pa bs => by
    unfold State.slotPut
    split
    · exact s.homeWrite_sameWork _ bs
    · exact .refl s
  unfold State.appendSlots
  exact (State.SameWork.foldl _ (fun s _ => put s _ _) _ s).trans
    (.foldl (fun s j => s.slotPut (s.slotPa pa (i + j)) [s.slotHead pa i j img]) (fun s _ => put s _ _) _ _)

@[simp] theorem State.noteSite_cores (s : State) (w : Wd) (pa : PA) (i k : Nat) : (s.noteSite w pa i k).cores = s.cores := by
  unfold State.noteSite
  split
  · dsimp only
    split <;> rfl
  · rfl

theorem State.appended_samePcs (s : State) (w : Wd) (pa i k : Nat) (img : List Byte) (q : PA) (n : Nat) (ft : Nat) :
    s.SamePcs (((s.appendSlots pa i k img).noteSite w q i n).chargeFtUnits w.k ft) :=
  (((s.appendSlots_sameWork pa i k img).then_cores (State.noteSite_cores ..)).trans (State.chargeFtUnits_sameWork ..)).samePcs

theorem State.modChain_samePcs (s : State) (k : CoreId) (x : Fin 4) (f : Chain → Chain) : s.SamePcs (s.modChain k x f) :=
  s.modCtx_samePcs k _ fun q => by cases q <;> rfl

/-- A chain context that is neither at rest nor stopped. -/
theorem Chain.taken_iff (c : Chain) :
    (c.active || c.st == .suspended) = true ↔ decide (c.st = .running ∨ c.st = .waiting ∨ c.st = .suspended) = true := by
  unfold Chain.active
  cases c.st <;> decide

/-! ### A word that something follows in the same step -/

/-- What follows a word that is performed comes after all that the word does. -/
theorem runWord_after {s u : State} {sp : Spec} {i : Instr} (h : s.Issues i sp) (r : BitVec 4) (body : Wd → List W64 → State → Res)
    {out : List W64} {go : Go} (hb : body (s.wd i sp) (popArgs s.me.stack sp.pops) s = .done u out go) :
    runWord i r sp body s = go.after (runWord i r sp (fun _ _ _ => .done u out { go with after := id }) s) := by
  rw [runWord_issues h, runWord_issues h, hb]
  rfl

theorem completesThen_after {i : Instr} {r : BitVec 4} {s u : State} {sp : Spec} {body : Wd → List W64 → State → Res} {a out : List W64}
    {c : Nat} {d : Bool} {fl : BitVec 32} {f : State → State} (hw : wordSpec s.q i = some sp) (h : s.Issues i sp)
    (ha : popArgs s.me.stack sp.pops = a) (he : exec i s = .next (runWord i r sp body s)) (hrf : r = rField i) (hl : sp.launch = false)
    (hg : d = true ∨ (s.px sp).signal = none)
    (hb : body (s.wd i sp) a s = .done u out { cost := c, deferred := d, flags := fl, after := f })
    (hpc : (u.seq s.k s.q).pc = (s.seq s.k s.q).pc) : CompletesThen i s (u.passed s.k (s.px sp).wait) sp.pops out c fl f := by
  subst ha
  obtain ⟨honly, hadv, hmarks⟩ := runWord_event h r (fun _ _ _ => .done u out { cost := c, deferred := d, flags := fl }) out
    { cost := c, deferred := d, flags := fl } hrf hl hg rfl rfl rfl
  have hpass : (u.passed s.k (s.px sp).wait).seq s.k s.q = u.seq s.k s.q
      ∧ ((u.passed s.k (s.px sp).wait).regs s.k).fi = (u.regs s.k).fi := by
    unfold State.passed
    cases (s.px sp).wait
    · exact ⟨rfl, rfl⟩
    · exact u.slotPass_keeps s.k s.q _
  have hnext : Go.pc { cost := c, deferred := d, flags := fl } (u.seq s.k s.q).pc = s.me.pc + 2 := congrArg (· + 2) hpc
  rw [hnext] at hadv
  exact ⟨_, sp, he.trans (congrArg _ (runWord_after h r body hb)), hw, honly,
    ⟨by rw [hadv.stack, hpass.1], hadv.pc, hadv.run, by rw [hadv.issued, hpass.1], hadv.group, hadv.wait, by rw [hadv.fi, hpass.1, hpass.2]⟩,
    hmarks⟩

/-! ### The words -/

/-- CHKICK, by the address it is given and the context's state. -/
theorem chkick_completes {r : BitVec 4} {s : State} {sp : Spec} {e : Claims.Eff} {k el : W64} (hw : wordSpec s.q (.chkick r) = some sp)
    (hs : s.Issues (.chkick r) sp) (ha : popArgs s.me.stack sp.pops = [k, el])
    (he : Claims.chainWords (.chkick r) (s.wd (.chkick r) sp) [k, el] s = some e) :
    CompletesThen (.chkick r) s (e.u.passed s.k (s.px sp).wait) sp.pops e.out e.cost e.flags e.next := by
  unfold Claims.chainWords at he
  dsimp -zeta only at he
  extract_lets x c done fin go busy at he
  cases hw
  have htaken : (c.active || c.st == .suspended) = true ↔ busy = true := c.taken_iff
  split at he
  next hel =>
    obtain ⟨⟨t, u⟩, hu, rfl⟩ := Option.map_eq_some_iff.mp he
    split
    next hb =>
      refine completesThen_after rfl hs ha rfl rfl rfl (.inl rfl) ?_ rfl
      simp only [List.headD_cons, List.getD_cons_succ, List.getD_cons_zero]
      rw [if_pos hel, withAccess_of_reach hu]
      exact if_pos (htaken.mpr hb)
    next hb =>
      refine completesThen_after rfl hs ha rfl rfl rfl (.inl rfl) ?_ ((State.modChain_samePcs ..).pc _ _)
      simp only [List.headD_cons, List.getD_cons_succ, List.getD_cons_zero]
      rw [if_pos hel, withAccess_of_reach hu]
      exact if_neg fun h => hb (htaken.mp h)
  next hel =>
    split at he
    next hb =>
      cases he
      refine completesThen_after rfl hs ha rfl rfl rfl (.inl rfl) ?_ rfl
      simp only [List.headD_cons, List.getD_cons_succ, List.getD_cons_zero]
      rw [if_neg hel]
      exact if_pos (htaken.mpr hb)
    next hb =>
      split at he
      next hst =>
        cases he
        refine completesThen_after rfl hs ha rfl rfl rfl (.inl rfl) ?_ rfl
        simp only [List.headD_cons, List.getD_cons_succ, List.getD_cons_zero]
        rw [if_neg hel]
        refine (if_neg fun h => hb (htaken.mp h)).trans ?_
        rw [show (s.chainOf _ (chainIx k)).st = .never from hst]
      next hnever =>
        split at he
        next hst =>
          cases he
          refine completesThen_after rfl hs ha rfl rfl rfl (.inl rfl) ?_ ((State.modChain_samePcs ..).pc _ _)
          simp only [List.headD_cons, List.getD_cons_succ, List.getD_cons_zero]
          rw [if_neg hel]
          refine (if_neg fun h => hb (htaken.mp h)).trans ?_
          rw [show (s.chainOf _ (chainIx k)).st = .stopped from hst]
          rfl
        next hstopped =>
          obtain ⟨⟨t, u⟩, hu, he⟩ := Option.bind_eq_some_iff.mp he
          dsimp only at he
          split at he
          next hwatch =>
            obtain ⟨v, hv, rfl⟩ := Option.map_eq_some_iff.mp he
            have hkept := ((reach_sameWork hu).trans (clean_sameWork hv)).trans (v.chargeFt_sameWork s.k t 8)
            have hread : ∀ go : Target → State → State → Res, withAccess (s.wd (.chkick r) _) s (c.entry + 0x40) 8 8 .load 1 (fun t s' =>
                withWatch _ s' (c.entry + 0x40) (s'.viewBytes _ t 8) false fun _ => withConsume _ s' t 8 (go t s')) = go t u v := fun go => by
              rw [withAccess_of_reach hu, withWatch_of_unwatched hwatch, withConsume_of_clean hv]
            split
            next hz =>
              refine completesThen_after rfl hs ha rfl rfl rfl (.inl rfl) ?_ (hkept.samePcs.pc _ _)
              simp only [List.headD_cons, List.getD_cons_succ, List.getD_cons_zero]
              rw [if_neg hel]
              refine (if_neg fun h => hb (htaken.mp h)).trans ?_
              split
              next h => exact absurd h hnever
              next h => exact absurd h hstopped
              next => exact (hread fun _ _ _ => _).trans (if_pos ((ofNat_viewBytes_eq_zero_iff ..).mpr hz))
            next hz =>
              refine completesThen_after rfl hs ha rfl rfl rfl (.inl rfl) ?_
                ((hkept.samePcs.trans (State.modChain_samePcs ..)).pc _ _)
              simp only [List.headD_cons, List.getD_cons_succ, List.getD_cons_zero]
              rw [if_neg hel]
              refine (if_neg fun h => hb (htaken.mp h)).trans ?_
              split
              next h => exact absurd h hnever
              next h => exact absurd h hstopped
              next => exact (hread fun _ _ _ => _).trans (if_neg fun h => hz ((ofNat_viewBytes_eq_zero_iff ..).mp h))
          · cases he

theorem chlink_completes {r : BitVec 4} {s : State} {sp : Spec} {e : Claims.Eff} {el n : W64} (hw : wordSpec s.q (.chlink r) = some sp)
    (hs : s.Issues (.chlink r) sp) (ha : popArgs s.me.stack sp.pops = [el, n])
    (he : Claims.chainWords (.chlink r) (s.wd (.chlink r) sp) [el, n] s = some e) (hlate : e.late = true ∨ (s.px sp).signal = none) :
    CompletesThen (.chlink r) s (e.u.passed s.k (s.px sp).wait) sp.pops e.out e.cost e.flags e.next := by
  unfold Claims.chainWords at he
  dsimp -zeta only at he
  obtain ⟨⟨t, v⟩, hv, he⟩ := Option.bind_eq_some_iff.mp he
  obtain ⟨⟨t', u⟩, hu, he⟩ := Option.bind_eq_some_iff.mp he
  cases hw
  dsimp only at he
  split at he
  next hwatch =>
    obtain ⟨x, hx, rfl⟩ := Option.map_eq_some_iff.mp he
    refine completes_event_at (d := false) rfl hs ha rfl rfl rfl hlate ?_ ?_
    · simp only [List.headD_cons, List.getD_cons_succ, List.getD_cons_zero]
      rw [withAccess_of_reach hv, withAccess_of_reach hu, withWatch_of_unwatched hwatch, withConsume_of_clean hx]
      rfl
    · exact (((reach_sameWork hu).samePcs.trans (State.settled_samePcs ..)).trans (((clean_sameWork hx).trans
        (State.homeWrite_sameWork ..)).trans (State.chargeFt_sameWork ..)).samePcs).pc _ _
  · cases he

/-- DQAPP, whose index has been claimed already or is claimed now. -/
theorem dqapp_completes {r : BitVec 4} {s : State} {sp : Spec} {e : Claims.Eff} {q p k : W64} (hw : wordSpec s.q (.dqapp r) = some sp)
    (hs : s.Issues (.dqapp r) sp) (ha : popArgs s.me.stack sp.pops = [q, p, k])
    (he : Claims.chainWords (.dqapp r) (s.wd (.dqapp r) sp) [q, p, k] s = some e) (hlate : e.late = true ∨ (s.px sp).signal = none) :
    CompletesThen (.dqapp r) s (e.u.passed s.k (s.px sp).wait) sp.pops e.out e.cost e.flags e.next := by
  unfold Claims.chainWords at he
  dsimp -zeta only at he
  split at he
  · cases he
  next hk =>
    obtain ⟨⟨t, v⟩, hv, he⟩ := Option.bind_eq_some_iff.mp he
    obtain ⟨⟨t', u⟩, hu, he⟩ := Option.bind_eq_some_iff.mp he
    extract_lets n append at he
    cases hw
    obtain ⟨img, s', happ, hpcs, hread⟩ : ∃ img s', append img s' = some e ∧ s.SamePcs s' ∧ ∀ g : List Byte → State → Res,
        (if (s.q == .t && p == 0 && k == 1) = true then
          withRegs (s.wd (.dqapp r) _) (fun x => x.file == .shadow && x.q == .t) u (g (u.ctx s.k).te.image)
        else withRange (s.wd (.dqapp r) _) u p (64 * k.toNat) 8 1 fun img _ s => g img s) = g img s' := by
      have hmap := (reach_sameWork hv).trans (reach_sameWork hu)
      dsimp only at he
      split at he
      next hown =>
        obtain ⟨hq, hp, hk1⟩ := hown
        split at he
        next hsound =>
          refine ⟨_, _, he, hmap.samePcs, fun g => ?_⟩
          subst hp hk1
          rw [show s.q = .t from hq, withRegs, regRead_sound hsound]
          rfl
        · cases he
      next hown =>
        obtain ⟨⟨img, f, s'⟩, hr, he⟩ := Option.bind_eq_some_iff.mp he
        refine ⟨_, _, he, hmap.samePcs.trans (readRange_samePcs hr), fun g => ?_⟩
        rw [if_neg, withRange_of_readRange hr]
        simp only [Bool.and_eq_true, beq_iff_eq, and_assoc]
        exact hown
    cases hold : (s'.seq s.k s.q).claim with
    | none =>
      simp only [append, State.wd] at happ
      simp only [hold, ne_eq, not_true_eq_false, if_false, or_false, Option.isSome_none, Bool.false_or, Option.getD_none] at happ
      split at happ
      next hc =>
        obtain ⟨hseen, hon, hroom, hheld, hring⟩ := hc
        obtain ⟨hseen₁, hseen₂, hseen₃⟩ : _ ∧ _ ∧ _ := by simpa only [Bool.and_eq_true] using hseen
        cases happ
        refine completes_event_at (d := false) rfl hs ha rfl rfl rfl hlate ?_ ?_
        · simp only [List.headD_cons, List.getD_cons_succ, List.getD_cons_zero]
          rw [if_neg hk, withAccess_of_reach hv, withAccess_of_reach hu]
          refine (hread _).trans ((withWatch_of_unwatched hseen₁ _).trans ?_)
          simp only [State.wd, hold, hon, Option.isNone_none, Option.isSome_none, Bool.not_true, Bool.false_and, Option.getD_none]
          refine (if_neg Bool.false_ne_true).trans ((if_neg Bool.false_ne_true).trans ?_)
          exact (withWatch_of_unwatched hseen₂ _).trans ((withWatch_of_unwatched hseen₃ _).trans (fill_of_room hroom hheld hring ..))
        · exact (((hpcs.trans (State.settled_samePcs ..)).trans ((State.homeWrite_sameWork ..).trans
            (State.modSeq_sameWork _ _ _ _ rfl)).samePcs).trans (State.appended_samePcs ..)).pc _ _
      · cases happ
    | some i =>
      simp only [append, State.wd] at happ
      simp only [hold, ne_eq, reduceCtorEq, not_false_eq_true, if_true, or_true, Option.isSome_some, Bool.true_or, Bool.and_true, Option.getD_some] at happ
      split at happ
      next hc =>
        obtain ⟨hseen, -, hroom, hheld, hring⟩ := hc
        cases happ
        refine completes_event_at (d := false) rfl hs ha rfl rfl rfl hlate ?_ ?_
        · simp only [List.headD_cons, List.getD_cons_succ, List.getD_cons_zero]
          rw [if_neg hk, withAccess_of_reach hv, withAccess_of_reach hu]
          refine (hread _).trans ((withWatch_of_unwatched hseen _).trans ?_)
          simp only [State.wd, hold, Option.isNone_some, Option.isSome_some, Bool.and_false, if_true]
          exact (if_neg Bool.false_ne_true).trans (fill_of_room hroom hheld hring ..)
        · exact (hpcs.trans (State.appended_samePcs ..)).pc _ _
      · cases happ

end Sys2Proof.Machine

namespace Sys2Proof

open Machine

/-- Settles O19, word by word. -/
theorem chainWordsComplete : Obligations.ChainWordsComplete := by
  unfold Obligations.ChainWordsComplete Claims.PerformsEvent
  intro i s sp e hw hs he hlate
  generalize ha : popArgs s.me.stack sp.pops = a at he
  have hword := he
  unfold Claims.chainWords at he
  split at he
  case h_1 => exact chkick_completes hw hs ha hword
  case h_2 => exact chlink_completes hw hs ha hword hlate
  case h_3 =>
    cases he; cases hw
    exact completes_event_at rfl hs ha rfl rfl rfl hlate rfl rfl
  case h_4 => exact dqapp_completes hw hs ha hword hlate
  case h_5 => cases he

end Sys2Proof
end

section
/-! SUPPORT. The accesses of engines: what a mover's reads and writes leave as it was, and what a write into a bank leaves there. -/

namespace Sys2Proof.Machine

/-! ### Watches at the home and poison that lands -/

/-- A write that is checked at its home changes the nodes alone. -/
theorem State.homeWatch_rest (s : State) (pa : Nat) (bs : List Byte) (who : W64) (site : Site) :
    s.homeWatch pa bs who site = { s with nodes := (s.homeWatch pa bs who site).nodes } := by
  unfold State.homeWatch
  generalize s.nodes = l
  induction l generalizing s with
  | nil => rfl
  | cons nd l ih =>
    rw [List.foldl_cons, ih]
    split <;> rfl

@[simp] theorem State.homeWatch_mem (s : State) (pa : Nat) (bs : List Byte) (who : W64) (site : Site) :
    (s.homeWatch pa bs who site).mem = s.mem := (congrArg State.mem (s.homeWatch_rest pa bs who site) :)

@[simp] theorem State.homeWatch_cores (s : State) (pa : Nat) (bs : List Byte) (who : W64) (site : Site) :
    (s.homeWatch pa bs who site).cores = s.cores := (congrArg State.cores (s.homeWatch_rest pa bs who site) :)

theorem State.homeWatch_sameWork (s : State) (pa : Nat) (bs : List Byte) (who : W64) (site : Site) :
    s.SameWork (s.homeWatch pa bs who site) := .of_cores (s.homeWatch_cores ..)

/-- Poison that lands with bytes changes the poison alone. -/
theorem State.landPoison_rest (bs : List Carried) (s : State) (key : Nat) :
    s.landPoison key bs = { s with poison := (s.landPoison key bs).poison } := by
  induction bs generalizing s key with
  | nil => rfl
  | cons b bs ih =>
    rw [State.landPoison, ih]
    split <;> rfl

@[simp] theorem State.landPoison_mem (s : State) (key : Nat) (bs : List Carried) : (s.landPoison key bs).mem = s.mem :=
  (congrArg State.mem (State.landPoison_rest bs s key) :)

@[simp] theorem State.landPoison_cores (s : State) (key : Nat) (bs : List Carried) : (s.landPoison key bs).cores = s.cores :=
  (congrArg State.cores (State.landPoison_rest bs s key) :)

theorem State.landPoison_sameWork (s : State) (key : Nat) (bs : List Carried) : s.SameWork (s.landPoison key bs) :=
  .of_cores (s.landPoison_cores key bs)

/-! ### Clean bytes -/

@[simp] theorem plain_clean (bs : List Byte) : plain (clean bs) = bs := by
  rw [plain, clean, List.map_map]
  exact List.map_id bs

@[simp] theorem length_clean (bs : List Byte) : (clean bs).length = bs.length := List.length_map _

@[simp] theorem anyPoison_clean (bs : List Byte) : anyPoison (clean bs) = false := by simp [anyPoison, clean]

@[simp] theorem State.landPoison_clean (s : State) (key : Nat) (bs : List Byte) : s.landPoison key (clean bs) = s := by
  induction bs generalizing s key with
  | nil => rfl
  | cons b bs ih => exact ih s (key + 1)

/-! ### Movers without a core's view: dray queues and chain contexts -/

section Viewless
variable {m : Mover} (hm : m.view = none)
include hm

theorem State.moverStore_sameWork (s : State) (t : Target) (bs : List Byte) : s.SameWork (s.moverStore m t bs) := by
  unfold State.moverStore State.mcastWatch
  rw [hm]
  dsimp only
  split
  · exact (s.multicast_sameWork ..).trans (.foldl _ (fun s _ => s.homeWatch_sameWork ..) _ _)
  · exact (s.homeWrite_sameWork t bs).trans (State.homeWatch_sameWork ..)

theorem State.moverPut_sameWork (l : List (Target × Nat × Nat)) (s : State) (bs : List Carried) : s.SameWork (s.moverPut m l bs) := by
  induction l generalizing s bs with
  | nil => exact .refl s
  | cons p l ih =>
    obtain ⟨t, va, n⟩ := p
    rw [State.moverPut.eq_def]
    dsimp only
    have stored := State.moverStore_sameWork hm s t ((bs.take n).map fun b => b.1)
    generalize s.moverStore m t _ = u at stored ⊢
    refine stored.trans (.trans ?_ (ih _ _))
    split
    · exact .foldl _ (fun s _ => s.landPoison_sameWork ..) _ _
    · exact .refl _
    · exact State.landPoison_sameWork ..

theorem State.putWatch_viewless (l : List (Target × Nat × Nat)) (s : State) (bs : List Carried) : s.putWatch m l bs = none := by
  induction l generalizing bs with
  | nil => rfl
  | cons p l ih =>
    rw [State.putWatch, State.moverWatch, hm]
    exact ih _

theorem State.moverWrite_sameWork {s t : State} {va : Nat} {bs : List Carried} (h : s.moverWrite m va bs = .ok t) : s.SameWork t := by
  unfold State.moverWrite at h
  split at h
  · exact nomatch h
  · rw [State.putWatch_viewless hm] at h
    dsimp only at h
    split at h
    · cases h
      exact (s.usePorts_sameWork _ _).trans (State.moverPut_sameWork hm ..)
    · exact nomatch h

end Viewless

/-! ### Reads of movers -/

theorem State.moverPeek_sameWork (s : State) (m : Mover) (t : Target) (n : Nat) : s.SameWork (s.moverPeek m t n).1 := by
  unfold State.moverPeek
  split
  · next k _ =>
    have h := s.consumeBy_sameWork k t n
    split <;> next e => exact (congrArg Prod.fst e) ▸ h
  · unfold State.peek
    have h := s.consume_sameWork t n
    split <;> next e => exact (congrArg Prod.fst e) ▸ h

theorem State.moverTake_sameWork {m : Mover} (l : List (Target × Nat × Nat)) {s t : State} {acc bs : List Carried}
    (h : s.moverTake m l acc = .ok (t, bs)) : s.SameWork t := by
  induction l generalizing s acc with
  | nil =>
    cases h
    exact .refl _
  | cons p l ih =>
    obtain ⟨tg, va, n⟩ := p
    rw [State.moverTake] at h
    dsimp only at h
    split at h
    · exact nomatch h
    · exact ((State.meet_sameWork ..).trans (State.moverPeek_sameWork ..)).trans (ih h)

theorem State.moverRead_sameWork {s t : State} {m : Mover} {va n : Nat} {bs : List Carried} (h : s.moverRead m va n = .ok (t, bs)) :
    s.SameWork t := by
  unfold State.moverRead at h
  split at h
  · exact nomatch h
  · dsimp only at h
    split at h
    · exact (s.usePorts_sameWork _ _).trans (State.moverTake_sameWork _ h)
    · exact nomatch h

/-! ### A unit that lies in one piece -/

/-- Targets are asked for piece by piece. -/
theorem State.moverTargets_pieces {s : State} {m : Mover} {x : Acc} (l : List (Nat × Nat)) {r : List (Target × Nat × Nat)}
    (h : s.moverTargets m x l = .ok r) : l = r.map fun p => p.2 := by
  induction l generalizing r with
  | nil =>
    cases h
    rfl
  | cons p l ih =>
    obtain ⟨va, n⟩ := p
    rw [State.moverTargets] at h
    split at h
    · exact nomatch h
    · split at h
      · exact nomatch h
      · next g =>
        cases h
        exact congrArg ((va, n) :: ·) (ih g)

theorem State.moverCheck_of_targets {s : State} {m : Mover} {x : Acc} {l : List (Nat × Nat)} {t : Target} {va n : Nat}
    (h : s.moverTargets m x l = .ok [(t, va, n)]) : s.moverCheck m va n x = .ok t := by
  rw [State.moverTargets_pieces l h, List.map_singleton, State.moverTargets] at h
  split at h
  · exact nomatch h
  · next g =>
    cases h
    exact g

/-- NODEs whose links were lost bear on no check. -/
theorem State.moverTargets_lost (s : State) (m : Mover) (lost : List Nat) (x : Acc) (l : List (Nat × Nat)) :
    s.moverTargets { m with lost := lost } x l = s.moverTargets m x l := by
  induction l with
  | nil => rfl
  | cons p l ih =>
    rw [State.moverTargets, State.moverTargets, ih]
    rfl

/-- A write of clean bytes into one piece of a bank, which meets no watch, is that of the mover. -/
theorem State.moverWrite_bank {s : State} {m : Mover} {b : CoreId} {off va n : Nat} {bs : List Byte} (hn : bs.length = n)
    (ht : s.moverTargets m .store (cutRange 128 va n) = .ok [(.bank b off, va, n)]) (hp : s.portsAllow [(.bank b off, n)] true = true)
    (hw : s.putWatch m [(.bank b off, va, n)] (clean bs) = none) :
    s.moverWrite m va (clean bs) = .ok ((s.usePorts [(.bank b off, n)] true).moverStore m (.bank b off) bs) := by
  have hall : (clean bs).take n = clean bs := by simp [← hn]
  unfold State.moverWrite
  rw [length_clean, hn, ht]
  dsimp only
  rw [hw]
  refine (if_pos hp).trans (congrArg Except.ok ?_)
  simp only [State.moverPut, hall, List.map_cons, List.map_nil]
  rw [show (clean bs).map (fun b => b.1) = bs from plain_clean bs, State.landPoison_clean]

theorem State.noteCfg_mem (s : State) (pa : Nat) : (s.noteCfg pa).mem = s.mem := by
  unfold State.noteCfg State.pick
  dsimp only
  split
  · rfl
  · split <;> rfl

theorem State.noteWrite_mem (s : State) (t : Target) (pa n : Nat) : (s.noteWrite t pa n).mem = s.mem := by
  unfold State.noteWrite
  split
  · rfl
  · rfl
  · dsimp only
    generalize List.range _ = l
    induction l generalizing s with
    | nil => rfl
    | cons i l ih =>
      rw [List.foldl_cons, ih]
      split
      · exact s.noteCfg_mem _
      · rfl

/-- What a mover's write into a bank leaves in memory. -/
theorem State.moverStore_bank_mem (s : State) (m : Mover) (b : CoreId) (off : Nat) (bs : List Byte) :
    (s.moverStore m (.bank b off) bs).mem = s.mem.writeBytes (bankKey b off) bs := by
  unfold State.moverStore
  split
  · next k _ =>
    have h : (s.coreWrite k (.bank b off) bs).mem = s.mem.writeBytes (bankKey b off) bs := by
      unfold State.coreWrite
      dsimp only
      split
      · rw [State.noteWrite_mem, State.homeWrite_bank_mem]
      · exact State.homeWrite_bank_mem ..
    unfold State.performStore
    dsimp only
    split <;> exact h
  · rw [State.homeWatch_mem, State.homeWrite_bank_mem]

/-- A unit whose destination is one piece of a bank lands there (R209). -/
theorem State.copyLand_bank {s : State} {m : Mover} {own : Option CoreId} {j : CopyJob} {i : Nat} {u : CopyUnit} {b : CoreId} {off : Nat}
    {bs : List Byte} (hd : u.data = some (clean bs)) (hn : bs.length = u.size) (hc : s.moverCut m u.dst u.size .store = false)
    (ht : s.moverTargets m .store (cutRange 128 u.dst u.size) = .ok [(.bank b off, u.dst, u.size)])
    (hp : s.portsAllow [(.bank b off, u.size)] true = true) (hw : s.putWatch m [(.bank b off, u.dst, u.size)] (clean bs) = none) :
    ∃ far, s.copyLand m own j i u = .ok
      (match own with
        | some k => ((s.usePorts [(.bank b off, u.size)] true).moverStore m (.bank b off) bs).chargeFar k j.far far
        | none => (s.usePorts [(.bank b off, u.size)] true).moverStore m (.bank b off) bs,
       { j with flight := j.flight.eraseIdx i, far := far }, u.size) := by
  have hfar : s.farWindow m u = none := by rw [State.farWindow, State.moverCheck_of_targets ht]
  refine ⟨j.far + s.unitFar m own u, ?_⟩
  unfold State.copyLand
  rw [hd]
  dsimp only
  rw [hc, if_neg Bool.false_ne_true, hfar]
  dsimp only
  rw [State.moverWrite_bank hn ht hp hw, anyPoison_clean, Bool.or_false]
  cases own <;> rfl

/-- A copy of which all is read and one unit is still on its way to one piece of a bank lands that unit (R209). -/
theorem State.copyStep_bank {s : State} {m : Mover} {own : Option CoreId} {j : CopyJob} {u : CopyUnit} {b : CoreId} {off : Nat}
    {bs : List Byte} (hf : j.flight = [u]) (hr : j.read = j.total) (hd : u.data = some (clean bs)) (hn : bs.length = u.size)
    (hc : s.moverCut { m with lost := j.lost } u.dst u.size .store = false)
    (ht : s.moverTargets m .store (cutRange 128 u.dst u.size) = .ok [(.bank b off, u.dst, u.size)])
    (hp : s.portsAllow [(.bank b off, u.size)] true = true)
    (hw : s.putWatch { m with lost := j.lost } [(.bank b off, u.dst, u.size)] (clean bs) = none) (pick : Nat) (more : Bool) :
    ∃ far, s.copyStep m own j pick more = .ok
      (match own with
        | some k => ((s.usePorts [(.bank b off, u.size)] true).moverStore { m with lost := j.lost } (.bank b off) bs).chargeFar k j.far far
        | none => (s.usePorts [(.bank b off, u.size)] true).moverStore { m with lost := j.lost } (.bank b off) bs,
       { j with flight := [], far := far }, u.size) := by
  obtain ⟨far, hland⟩ := State.copyLand_bank (own := own) (j := j) (i := 0) hd hn hc ((s.moverTargets_lost m j.lost ..).trans ht) hp hw
  refine ⟨far, ?_⟩
  unfold State.copyStep
  simp only [hf, hr, hland, Nat.lt_irrefl, List.length_singleton, Nat.mod_one, ite_self, List.getElem?_cons_zero, List.eraseIdx_cons_zero]
  simp
end Sys2Proof.Machine
end

section
/-! PROOFS. Chain contexts (R222): how an entry is read and begun, lands its last unit and completes. -/

namespace Sys2Proof.Machine

open Claims (SameMemory Stored Gives)

/-! ### A chain context that changes -/

@[simp] theorem State.chainOf_modChain (s : State) (k : CoreId) (x : Fin 4) (f : Chain → Chain) :
    (s.modChain k x f).chainOf k x = f (s.chainOf k x) := by
  unfold State.chainOf State.modChain
  rw [State.ctx_modCtx]
  exact (getElem_vput ..).trans (if_pos rfl)

@[simp] theorem State.modChain_mem (s : State) (k : CoreId) (x : Fin 4) (f : Chain → Chain) : (s.modChain k x f).mem = s.mem := rfl

theorem State.takeRecord_chainOf (s : State) (k j : CoreId) (r : TrapRec) (x : Fin 4) : (s.takeRecord k r).chainOf j x = s.chainOf j x :=
  ((s.trace_sameWork ..).then_cores (u := s.takeRecord k r) rfl).chainOf j x

theorem State.takeRecord_trapQ (s : State) (k : CoreId) (r : TrapRec) :
    ((s.takeRecord k r).die k.die).trapQ = (s.die k.die).trapQ ++ [r] := by
  unfold State.takeRecord State.pushTrap
  rw [die_modDie]
  rfl

/-- From c to d the T engine, the chain contexts and the deferred faults stay. -/
structure Core.SameEngines (c d : Core) : Prop where
  /-- The T engine. -/
  te : d.ctx.te = c.ctx.te
  /-- Chain contexts. -/
  chain : d.ctx.chain = c.ctx.chain
  /-- Deferred faults. -/
  pend : d.pend = c.pend

theorem Core.SameEngines.trans {c d e : Core} (h : c.SameEngines d) (g : d.SameEngines e) : c.SameEngines e :=
  ⟨g.te.trans h.te, g.chain.trans h.chain, g.pend.trans h.pend⟩

theorem State.SameWork.sameEngines {s t : State} (h : s.SameWork t) (j : CoreId) : (s.core j).SameEngines (t.core j) :=
  ⟨h.ctx_te j, (h.core j).chain, h.core_pend j⟩

/-- A change of registers leaves the engines. -/
theorem State.modRegs_sameEngines (s : State) (k j : CoreId) (f : Regs → Regs) : (s.core j).SameEngines ((s.modRegs k f).core j) := by
  by_cases h : j = k
  · rw [h, State.core_modRegs]
    exact ⟨rfl, rfl, rfl⟩
  · rw [State.core_modRegs_ne s f h]
    exact ⟨rfl, rfl, rfl⟩

/-- Tokens pushed and slots signalled leave the engines. -/
theorem State.finish_sameEngines (s : State) (k j : CoreId) (f : Fin') : (s.core j).SameEngines ((s.finish k f).core j) := by
  have pushed : ∀ (l : List (Fin 6 × Nat)) (s : State), (s.core j).SameEngines ((l.foldl (fun s p => s.modRegs k fun r =>
      { r with tok := vput r.tok p.1 (r.tok[p.1.val] + p.2), rsv := vput r.rsv p.1 (r.rsv[p.1.val] - p.2) }) s).core j) := by
    intro l s
    induction l generalizing s with
    | nil => exact ⟨rfl, rfl, rfl⟩
    | cons p l ih => exact (s.modRegs_sameEngines k j _).trans (ih _)
  have signalled := State.SameWork.foldl (fun s e => s.signalSlot k e) (fun s e => s.signalSlot_sameWork k e) f.sig
  unfold State.finish
  dsimp only
  refine (pushed f.push s).trans ?_
  split
  · exact ((signalled _).trans (State.setFlags_sameWork ..)).sameEngines j
  · exact (signalled _).sameEngines j

theorem State.finish_chainOf (s : State) (k j : CoreId) (f : Fin') (x : Fin 4) : (s.finish k f).chainOf j x = s.chainOf j x :=
  congrArg (fun v : Vector Chain 4 => v[x.val]) (s.finish_sameEngines k j f).chain

/-! ### A context stops, or comes to an end -/

/-- A refused access suspends the context, with a record of CLASS 1 for the Ostler. -/
theorem State.chainStop_trap (s : State) (k : CoreId) (x : Fin 4) (done arrived : Nat) (i : TrapInfo) :
    SameMemory s (s.chainStop k x done arrived (.trap i))
      ∧ (s.chainStop k x done arrived (.trap i)).chainOf k x = { s.chainOf k x with st := .suspended }
      ∧ ∃ r : TrapRec, ((s.chainStop k x done arrived (.trap i)).die k.die).trapQ = (s.die k.die).trapQ ++ [r] ∧ r.code = i.code ∧ r.cls = 1 := by
  refine ⟨⟨rfl, rfl, rfl, rfl, rfl⟩, ?_, _, State.takeRecord_trapQ .., rfl, rfl⟩
  unfold State.chainStop
  dsimp only
  rw [State.takeRecord_chainOf, State.chainOf_modChain]

/-- Whatever stops the start of an entry, its image and its job stay. -/
theorem State.chainStop_img (s : State) (k : CoreId) (x : Fin 4) (done arrived : Nat) (e : EStop) :
    ((s.chainStop k x done arrived e).chainOf k x).img = (s.chainOf k x).img := by
  cases e with
  | trap i =>
    obtain ⟨-, h, -⟩ := s.chainStop_trap k x done arrived i
    rw [h]
  | drain b =>
    refine congrArg Chain.img (State.SameWork.chainOf (.modCore s k _ ?_) k x)
    split <;> exact ⟨fun _ => rfl, rfl, rfl, rfl, rfl, rfl⟩
  | hold => rfl
  | watch j va w => rfl

/-- What a context is once it has ended or stopped. -/
theorem State.chainEnd_chainOf (s : State) (k : CoreId) (x : Fin 4) (st : ChainSt) :
    (s.chainEnd k x st).chainOf k x = { s.chainOf k x with st := st, img := [], job := none, met := false, fin := Fin'.none } := by
  rw [State.chainEnd, State.finish_chainOf, State.chainOf_modChain]

/-! ### An entry starts -/

/-- An entry that has been read begins: its copy starts where its wait is met. -/
def State.chainBegin (s : State) (k : CoreId) (x : Fin 4) (m : Mover) (c : Chain) (j : CopyJob) : State :=
  match s.chainMet m c with
  | .ok true =>
    s.modChain k x fun y =>
      { c with st := .running, job := some (j.start y.adler), met := true, adler := if j.mode = 1 ∨ j.mode = 4 then 1 else y.adler }
  | .ok false => s.modChain k x fun _ => { c with st := .waiting }
  | .error e => (s.modChain k x fun _ => c).chainStop k x 0 0 e

/-- A context may take up an entry. -/
structure State.ChainTakes (s : State) (c : Chain) : Prop where
  /-- It is the context of the event. -/
  ctx : c = s.chainOf s.arg.k s.arg.x
  /-- It runs or waits. -/
  active : c.active = true
  /-- No copy of it is under way. -/
  job : c.job = none
  /-- A new entry may begin. -/
  may : s.chainMayStart s.arg.k = true

section Start
variable {s s1 s2 : State} {c : Chain} {j : CopyJob} (h : s.ChainTakes c)
include h

theorem chainEntryStart_of_image (hi : c.img ≠ []) (hj : copyOf c.img = some j) :
    exec .chainEntryStart s = .next (s.chainBegin s.arg.k s.arg.x (s.chainMover s.arg.k c) c j) := by
  obtain ⟨rfl, ha, hjob, hmay⟩ := h
  change execChainEntryStart s = _
  unfold execChainEntryStart
  dsimp only
  rw [if_neg (by simp [ha, hjob, hmay]), if_pos (by simpa using hi), hj]
  rfl

theorem chainEntryStart_of_read {bs : List Carried} (hi : c.img = [])
    (hp : s.chainPut (s.chainMover s.arg.k c) (c.entry + 0x68) 8 0 = .ok s1)
    (hr : s1.moverRead (s.chainMover s.arg.k c) c.entry.toNat 128 = .ok (s2, bs)) (hj : copyOf (plain bs) = some j)
    (hd : j.dims.length ≤ 3) (ht : leAt (plain bs) 0 1 / 2 % 16 = 1) (hf : leAt (plain bs) 0x60 8 < 8) :
    exec .chainEntryStart s = .next (s2.chainBegin s.arg.k s.arg.x (s.chainMover s.arg.k c) { c with img := plain bs } j) := by
  obtain ⟨rfl, ha, hjob, hmay⟩ := h
  change execChainEntryStart s = _
  unfold execChainEntryStart
  dsimp only
  rw [if_neg (by simp [ha, hjob, hmay]), if_neg (by simp [hi]), hp]
  dsimp only
  rw [hr]
  dsimp only
  rw [hj, ht]
  dsimp only
  rw [if_neg (by simp; omega)]
  rfl

theorem chainEntryStart_of_malformed {s3 : State} {bs : List Carried} (hi : c.img = [])
    (hp : s.chainPut (s.chainMover s.arg.k c) (c.entry + 0x68) 8 0 = .ok s1)
    (hr : s1.moverRead (s.chainMover s.arg.k c) c.entry.toNat 128 = .ok (s2, bs)) (hj : copyOf (plain bs) = none)
    (hp' : s2.chainPut (s.chainMover s.arg.k c) (c.entry + 0x68) 8 0x20 = .ok s3) :
    exec .chainEntryStart s = .next (s3.chainEnd s.arg.k s.arg.x .stopped) := by
  obtain ⟨rfl, ha, hjob, hmay⟩ := h
  change execChainEntryStart s = _
  unfold execChainEntryStart
  dsimp only
  rw [if_neg (by simp [ha, hjob, hmay]), if_neg (by simp [hi]), hp]
  dsimp only
  rw [hr]
  dsimp only
  rw [hj]
  dsimp only
  rw [if_pos rfl, hp']

end Start

theorem State.chainBegin_sameMemory (s : State) (k : CoreId) (x : Fin 4) (m : Mover) (c : Chain) (j : CopyJob) :
    SameMemory s (s.chainBegin k x m c j) := by
  unfold State.chainBegin
  split
  · exact ⟨rfl, rfl, rfl, rfl, rfl⟩
  · exact ⟨rfl, rfl, rfl, rfl, rfl⟩
  · next e _ => cases e <;> exact ⟨rfl, rfl, rfl, rfl, rfl⟩

/-- An entry begins, or waits, where its wait can be read. -/
theorem State.chainBegin_chainOf {s : State} {k : CoreId} {x : Fin 4} {m : Mover} {c : Chain} {j : CopyJob} {met : Bool}
    (h : s.chainMet m c = .ok met) (ha : (s.chainOf k x).adler = c.adler) :
    (s.chainBegin k x m c j).chainOf k x =
      if met then { c with st := .running, job := some (j.start c.adler), met := true
                           adler := if j.mode = 1 ∨ j.mode = 4 then 1 else c.adler }
      else { c with st := .waiting } := by
  unfold State.chainBegin
  rw [h]
  cases met <;> simp [ha]

/-- However an entry begins, its image is the context's. -/
theorem State.chainBegin_img (s : State) (k : CoreId) (x : Fin 4) (m : Mover) (c : Chain) (j : CopyJob) :
    ((s.chainBegin k x m c j).chainOf k x).img = c.img := by
  unfold State.chainBegin
  split
  · rw [State.chainOf_modChain]
  · rw [State.chainOf_modChain]
  · rw [State.chainStop_img, State.chainOf_modChain]

/-- An entry without a wait is met. -/
theorem State.chainMet_of_no_wait (s : State) (m : Mover) {c : Chain} (h : c.flags.testBit 0 = false) : s.chainMet m c = .ok true := by
  unfold State.chainMet
  rw [h]
  rfl

theorem State.chainPut_sameWork {s t : State} {k : CoreId} {c : Chain} {va : W64} {n v : Nat}
    (h : s.chainPut (s.chainMover k c) va n v = .ok t) : s.SameWork t := State.moverWrite_sameWork rfl h

/-! ### A unit of an entry lands -/

theorem CopyJob.over_of_landed {j : CopyJob} (hr : j.read = j.total) (far : Nat) : ({ j with flight := [], far := far } : CopyJob).over = true := by
  simp only [CopyJob.over, List.isEmpty_nil, Bool.and_true]
  exact beq_iff_eq.2 hr

@[simp] theorem State.chargeFtUnits_mem (s : State) (k : CoreId) (n : Nat) : (s.chargeFtUnits k n).mem = s.mem := by
  unfold State.chargeFtUnits
  split <;> rfl

/-- The last unit of an entry's copy lands in a bank, and its copy is over. -/
theorem State.chainCopy_bank {s : State} {k b : CoreId} {x : Fin 4} {off : Nat} {c : Chain} {j : CopyJob} {u : CopyUnit} {bs : List Byte}
    (hc : c = s.chainOf k x) (hst : c.st = .running) (hjob : c.job = some j) (hgo : s.tGoes k = true) (hf : j.flight = [u])
    (hd : u.data = some (clean bs)) (hn : bs.length = u.size)
    (hcut : s.moverCut { s.chainMover k c with lost := j.lost } u.dst u.size .store = false)
    (hp : s.portsAllow [(.bank b off, u.size)] true = true)
    (ht : s.moverTargets (s.chainMover k c) .store (cutRange 128 u.dst u.size) = .ok [(.bank b off, u.dst, u.size)])
    (hr : j.read = j.total) (ha : j.arrival = false) (pick : Nat) :
    (s.chainCopy k x pick).mem = s.mem.writeBytes (bankKey b off) bs
      ∧ ∃ y, ((s.chainCopy k x pick).chainOf k x).job = some y ∧ y.over = true := by
  obtain ⟨far, hstep⟩ := State.copyStep_bank (own := some k) hf hr hd hn hcut ht hp (State.putWatch_viewless rfl ..) pick true
  have hover : j.over = false := by simp [CopyJob.over, hf]
  have hland : s.chainCopy k x pick = ((((s.usePorts [(.bank b off, u.size)] true).moverStore
      { s.chainMover k c with lost := j.lost } (.bank b off) bs).chargeFar k j.far far).modChain k x fun c =>
        { c with job := some { j with flight := [], far := far } }) := by
    unfold State.chainCopy
    rw [← hc]
    dsimp only
    rw [hst, hjob]
    dsimp only
    rw [hover, hgo, hstep]
    dsimp only
    rw [ha, if_neg (by simp), if_neg (by simp)]
  rw [hland]
  refine ⟨?_, _, congrArg Chain.job (State.chainOf_modChain ..), CopyJob.over_of_landed hr far⟩
  rw [State.modChain_mem, State.chargeFar, State.chargeFtUnits_mem, State.moverStore_bank_mem, State.usePorts_mem]

/-! ### An entry completes -/

/-- STATUS of an entry takes a value. -/
def State.chainStatus (s : State) (m : Mover) (t : Target) (v : Nat) : State :=
  (s.homeWrite (t.add 0x28) (leBytes 8 v)).homeWatch (s.paOf t + 0x28) (leBytes 8 v) m.who m.site

theorem State.chainStatus_sameWork (s : State) (m : Mover) (t : Target) (v : Nat) : s.SameWork (s.chainStatus m t v) :=
  (s.homeWrite_sameWork ..).trans (State.homeWatch_sameWork ..)

@[simp] theorem State.chainStatus_mem (s : State) (m : Mover) (b : CoreId) (off v : Nat) :
    (s.chainStatus m (.bank b off) v).mem = s.mem.writeBytes (bankKey b (off + 0x28)) (leBytes 8 v) := by
  rw [State.chainStatus, State.homeWatch_mem, Target.add, State.homeWrite_bank_mem]

/-- STATUS of an entry that is over, without DONE and END. -/
def CopyJob.statusBits (j : CopyJob) : Nat := 1 + (if j.poison then 8 else 0) + (if j.csumBad then 2 else 0) + j.total % 2 ^ 32 * 2 ^ 32

/-- NEXT of an entry, read after STATUS has been written. -/
def State.chainNext (s : State) (m : Mover) (t : Target) (j : CopyJob) : W64 := (s.chainStatus m t j.statusBits).homeWord t 8

/-- The entry is the context's last. -/
def State.chainLast (s : State) (m : Mover) (t : Target) (c : Chain) (j : CopyJob) : Bool := c.flags.testBit 2 || s.chainNext m t j == 0

/-- STATUS has been written twice, around the read of NEXT, and the checksum is the context's. -/
def State.chainClosed (s : State) (k : CoreId) (x : Fin 4) (m : Mover) (t : Target) (c : Chain) (j : CopyJob) : State :=
  ((s.chainStatus m t j.statusBits).chainStatus m t (j.statusBits + 0x80 + if s.chainLast m t c j then 64 else 0)).modChain k x fun c =>
    { c with adler := if j.mode = 0 then c.adler else j.adler }

/-- The context ends, or goes on at the entry that NEXT names. -/
def State.chainGoesOn (s : State) (k : CoreId) (x : Fin 4) (last : Bool) (next : W64) : State :=
  if last then s.chainEnd k x .ended
  else s.modChain k x fun c => { c with entry := next, img := [], job := none, met := false, faults := [] }

/-- An entry whose copy is over, without a post, a counter and faults, completes. -/
theorem chainEntryComplete_eq {s : State} {t : Target} {c : Chain} {j : CopyJob} (hc : c = s.chainOf s.arg.k s.arg.x) (hst : c.st = .running)
    (hj : c.job = some j) (ho : j.over = true) (hgo : s.tGoes s.arg.k = true) (hpost : c.flags.testBit 1 = false) (hctr : idIndex j.ctr = 0)
    (hloss : j.loss = none) (hfaults : c.faults = [])
    (ht : s.moverCheck (s.chainMover s.arg.k c) (c.entry + 0x40).toNat 64 .atomic = .ok t) :
    exec .chainEntryComplete s = .next ((s.chainClosed s.arg.k s.arg.x (s.chainMover s.arg.k c) t c j).chainGoesOn s.arg.k s.arg.x
      (s.chainLast (s.chainMover s.arg.k c) t c j) (s.chainNext (s.chainMover s.arg.k c) t j)) := by
  have hbits : 1 + (if j.poison = true then 2 ^ 3 else 0) + (if (none : Option Nat).isSome = true then 2 ^ 2 else 0)
      + (if j.csumBad = true then 2 ^ 1 else 0) + (if (!([] : List (BitVec 8 × W64)).isEmpty || (none : Option Nat).isSome) = true then 2 ^ 4 else 0)
      + j.total % 2 ^ 32 * 2 ^ 32 = j.statusBits := rfl
  have hdec : ∀ s : State, s.decrement j.ctr 1 = s := fun s => if_pos (.inl hctr)
  change execChainEntryComplete s = _
  unfold execChainEntryComplete
  dsimp only
  rw [← hc, hst, hj]
  dsimp only
  rw [if_neg (by simp [ho, hgo]), ht]
  dsimp only
  rw [hpost]
  simp only [Bool.false_eq_true, if_false]
  rw [hloss, hfaults, hbits, hdec]
  exact (apply_ite Host.Outcome.next _ _ _).symm

/-- The bytes of a range that a write does not reach stay. -/
theorem Memory.readBytes_writeBytes_outside {m : Memory} (h : m.wf = true) {a x n : Nat} {bs : List Byte} (hx : x + n ≤ a ∨ a + bs.length ≤ x) :
    (m.writeBytes a bs).readBytes x n = m.readBytes x n := by
  rw [Memory.readBytes_eq, Memory.readBytes_eq]
  refine List.map_congr_left fun i hi => Memory.read_writeBytes_outside h _ _ _ ?_
  have := List.mem_range.1 hi
  omega

/-- An end with nothing to push or signal leaves memory. -/
theorem State.chainEnd_mem {s : State} {k : CoreId} {x : Fin 4} (h : (s.chainOf k x).fin = { push := [], sig := [], unbound := false })
    (st : ChainSt) : (s.chainEnd k x st).mem = s.mem := by
  unfold State.chainEnd
  rw [h]
  rfl

theorem CopyJob.statusBits_lt (j : CopyJob) : j.statusBits < 2 ^ 64 - 0x100 := by
  unfold CopyJob.statusBits
  split <;> split <;> omega

theorem State.chainNext_bank {s : State} (h : s.MemoryForm) (m : Mover) (b : CoreId) (off : Nat) (j : CopyJob) :
    s.chainNext m (.bank b off) j = Claims.ofN (s.mem.readLE (bankKey b off) 8) := by
  unfold State.chainNext State.homeWord State.homeBytes
  dsimp only
  rw [State.chainStatus_mem, Memory.readBytes_writeBytes_outside h.1 (.inl (by simp only [bankKey]; omega))]
  rfl

/-- What STATUS holds once an entry is closed. -/
theorem State.chainClosed_status {s : State} (h : s.MemoryForm) (k : CoreId) (x : Fin 4) (m : Mover) (b : CoreId) (off : Nat) (c : Chain)
    (j : CopyJob) : (s.chainClosed k x m (.bank b off) c j).mem.readLE (bankKey b (off + 0x28)) 8
      = j.statusBits + 0x80 + if s.chainLast m (.bank b off) c j then 64 else 0 := by
  have hmem : (s.chainClosed k x m (.bank b off) c j).mem = (s.mem.writeBytes (bankKey b (off + 0x28)) (leBytes 8 j.statusBits)).writeLE
      (bankKey b (off + 0x28)) 8 (j.statusBits + 0x80 + if s.chainLast m (.bank b off) c j then 64 else 0) := by
    rw [State.chainClosed, State.modChain_mem, State.chainStatus_mem, State.chainStatus_mem, Memory.writeLE]
  have hbits := j.statusBits_lt
  rw [hmem, Memory.readLE_writeLE (Memory.writeBytes_wf h.1 ..)]
  exact Nat.mod_eq_of_lt (by split <;> omega)

theorem State.chainClosed_chainOf (s : State) (k : CoreId) (x : Fin 4) (m : Mover) (t : Target) (c : Chain) (j : CopyJob) :
    (s.chainClosed k x m t c j).chainOf k x =
      { s.chainOf k x with adler := if j.mode = 0 then (s.chainOf k x).adler else j.adler } := by
  rw [State.chainClosed, State.chainOf_modChain, ((s.chainStatus_sameWork ..).trans (State.chainStatus_sameWork ..)).chainOf]

/-- Where a context goes, memory stays, unless it ends with something to push or signal. -/
theorem State.chainGoesOn_mem {s : State} {k : CoreId} {x : Fin 4} (h : (s.chainOf k x).fin = { push := [], sig := [], unbound := false })
    (last : Bool) (next : W64) : (s.chainGoesOn k x last next).mem = s.mem := by
  cases last
  · rfl
  · exact s.chainEnd_mem h .ended

/-- Wherever a context goes, its entry is over. -/
theorem State.chainGoesOn_chainOf (s : State) (k : CoreId) (x : Fin 4) (last : Bool) (next : W64) :
    ((s.chainGoesOn k x last next).chainOf k x).job = none ∧ ((s.chainGoesOn k x last next).chainOf k x).img = []
      ∧ if last then ((s.chainGoesOn k x last next).chainOf k x).st = .ended
        else ((s.chainGoesOn k x last next).chainOf k x).st = (s.chainOf k x).st ∧ ((s.chainGoesOn k x last next).chainOf k x).entry = next := by
  cases last <;> simp [State.chainGoesOn, State.chainEnd_chainOf]

end Sys2Proof.Machine

open Sys2Proof Machine

/-- Settles O44, clause by clause: an entry that is read and begins, its last unit, and its end. -/
theorem chainContextsRunTheirEntries : Obligations.ChainContextsRunTheirEntries := by
  unfold Obligations.ChainContextsRunTheirEntries
  refine ⟨?_, ?_, ?_, ?_, ?_, ?_⟩
  · intro s c j met hc ha hjob hmay hi hj hmet
    have adler : (s.chainOf s.arg.k s.arg.x).adler = c.adler := by rw [hc]
    exact ⟨_, chainEntryStart_of_image ⟨hc, ha, hjob, hmay⟩ hi hj, State.chainBegin_sameMemory .., State.chainBegin_chainOf hmet adler⟩
  · intro s c j i hc ha hjob hmay hi hj hmet
    have begun : s.chainBegin s.arg.k s.arg.x (s.chainMover s.arg.k c) c j
        = (s.modChain s.arg.k s.arg.x fun _ => c).chainStop s.arg.k s.arg.x 0 0 (.trap i) := by rw [State.chainBegin, hmet]
    have stopped := (s.modChain s.arg.k s.arg.x fun _ => c).chainStop_trap s.arg.k s.arg.x 0 0 i
    rw [State.chainOf_modChain, ← begun] at stopped
    exact ⟨_, chainEntryStart_of_image ⟨hc, ha, hjob, hmay⟩ hi hj, stopped⟩
  · intro s s1 s2 c j bs hc ha hjob hmay hi hp hr hj hd ht hf
    refine ⟨_, chainEntryStart_of_read ⟨hc, ha, hjob, hmay⟩ hi hp hr hj hd ht hf, State.chainBegin_img .., fun hw => ?_⟩
    have same := (State.chainPut_sameWork hp).trans (State.moverRead_sameWork hr)
    have adler : (s2.chainOf s.arg.k s.arg.x).adler = c.adler := by rw [same.chainOf, hc]
    rw [State.chainBegin_chainOf (c := { c with img := plain bs }) (State.chainMet_of_no_wait s2 _ hw) adler]
    exact ⟨rfl, rfl, rfl⟩
  · intro s s1 s2 s3 c bs hc ha hjob hmay hi hp hr hj hp'
    refine ⟨_, chainEntryStart_of_malformed ⟨hc, ha, hjob, hmay⟩ hi hp hr hj hp', ?_⟩
    exact congrArg Chain.st (State.chainEnd_chainOf ..)
  · intro s k b off c j bs harg hc hst hjob hgo hform ⟨u, hf, hd, hn, hcut, hp, hmoved, ht⟩ hr ha hloss
    have hexec : exec .landingUnit s = .next ((s.chainCopy k s.arg.x s.arg.num).modCluster k.die k.cluster fun x => { x with moved := x.moved + 1 }) := by
      change execLandingUnit s = _
      unfold execLandingUnit
      rw [harg]
      exact congrArg Host.Outcome.next (if_neg (by omega))
    obtain ⟨hmem, hover⟩ := State.chainCopy_bank hc hst hjob hgo hf hd hn hcut hp ht hr ha s.arg.num
    exact ⟨_, hexec, stored_of_writeBytes hform hmem, hover⟩
  · intro s b off c j hform hc hst hjob ho hgo hfin hpost hctr hloss hfaults ht
    refine ⟨_, chainEntryComplete_eq hc hst hjob ho hgo hpost hctr hloss hfaults ht, ?_⟩
    have ctx := s.chainClosed_chainOf s.arg.k s.arg.x (s.chainMover s.arg.k c) (.bank b off) c j
    rw [← hc] at ctx
    obtain ⟨hjob', himg', hend⟩ := (s.chainClosed s.arg.k s.arg.x (s.chainMover s.arg.k c) (.bank b off) c j).chainGoesOn_chainOf s.arg.k s.arg.x
      (s.chainLast (s.chainMover s.arg.k c) (.bank b off) c j) (s.chainNext (s.chainMover s.arg.k c) (.bank b off) j)
    have hlast : s.chainLast (s.chainMover s.arg.k c) (.bank b off) c j
        = (c.flags.testBit 2 || Claims.ofN (s.mem.readLE (bankKey b off) 8) == 0) := by rw [State.chainLast, State.chainNext_bank hform]
    rw [ctx, hst, hlast, State.chainNext_bank hform] at hend
    refine ⟨?_, hjob', himg', ?_⟩
    · rw [State.chainGoesOn_mem (by rw [ctx]; exact hfin), State.chainClosed_status hform, hlast, CopyJob.statusBits]
      omega
    · rw [hlast, State.chainNext_bank hform]
      exact hend
end

section
/-! SUPPORT. The T engine's oldest command: how the engine comes to it, what its accesses see, and what becomes of the queue. -/

namespace Sys2Proof.Machine

open Claims (SameMemory Stored Gives TFirst tq)

/-! ### What a change of a core's context leaves of every core -/

section Context
variable (s : State) (k : CoreId) (f : Ctx → Ctx)

/-- Outside its context a core stays. -/
theorem State.core_modCtx_rest (j : CoreId) : (s.modCtx k f).core j = { s.core j with ctx := (s.modCtx k f).ctx j } := by
  by_cases h : j = k
  · rw [h, State.ctx, State.core_modCtx]
  · rw [State.ctx, State.core_modCtx_ne s f h]

theorem State.core_node_modCtx (j : CoreId) : ((s.modCtx k f).core j).node = (s.core j).node :=
  (congrArg Core.node (s.core_modCtx_rest k f j) :)

theorem State.nodeOf_modCtx (j : CoreId) : (s.modCtx k f).nodeOf j = s.nodeOf j := by
  unfold State.nodeOf
  rw [State.core_node_modCtx]
  rfl

theorem State.nodeOf_beforeFolds (i : Nat) (j : CoreId) : (s.beforeFolds k i).nodeOf j = s.nodeOf j := State.nodeOf_modCtx ..

theorem State.agent_modCtx (j : CoreId) : (s.modCtx k f).agent j = s.agent j := by
  unfold State.agent
  rw [State.nodeOf_modCtx]

theorem State.portsAllow_modCtx (l : List (Target × Nat)) (w : Bool) : (s.modCtx k f).portsAllow l w = s.portsAllow l w := by
  have ports : ∀ j, ((s.modCtx k f).core j).ports = (s.core j).ports := fun j => (congrArg Core.ports (s.core_modCtx_rest k f j) :)
  unfold State.portsAllow
  simp only [ports]
  rfl

end Context

/-- A mover of a core whose node has no watch meets none. -/
theorem State.putWatch_unwatched {s : State} {m : Mover} {k : CoreId} (hm : m.view = some k)
    (hn : ∀ n, s.nodeOf k = some n → n.watch = .replicate 8 none) (l : List (Target × Nat × Nat)) (bs : List Carried) :
    s.putWatch m l bs = none := by
  have unwatched : ∀ va part, s.moverWatch m va part true = none := fun va part => by
    unfold State.moverWatch State.watchHit
    rw [hm]
    dsimp only
    split
    · rfl
    · split
      · rfl
      · next n h =>
        rw [hn n h]
        exact List.find?_eq_none.2 fun j _ => by simp
  induction l generalizing bs with
  | nil => rfl
  | cons p l ih =>
    obtain ⟨t, va, n⟩ := p
    rw [State.putWatch, unwatched]
    exact ih _

/-! ### The engine comes to its oldest command -/

/-- Sound registers are read as they are. -/
theorem State.tReads_of_sound {s : State} {k : CoreId} (h : (s.ctx k).regEcc = []) (d : TCmd) (go : State → State) : s.tReads k d go = go s := by
  have bad : (s.ctx k).regBad (queueWord .t d.seqn) = none := by rw [Ctx.regBad, h]; rfl
  have fixed : s.regFix k (queueWord .t d.seqn) = s := if_pos (by rw [Ctx.regSound, h]; rfl)
  unfold State.tReads
  rw [bad, fixed]

section First
variable {s : State} {k : CoreId} {c : TCmd} {rest : List TCmd} (h : TFirst s k c rest)
include h

theorem State.tNextIf_first {p : Nat → TCmd → Bool} (hp : p 0 c = true) : s.tNextIf k p = some (0, c, s) := by
  obtain ⟨hgo, -, hq, hst, hstop, -⟩ := h
  unfold State.tNextIf
  dsimp only
  rw [hgo, hq, findIx, hp, hst, hstop]
  simp [hst, hq]

theorem State.tNext_first {p : Nat → TCmd → Bool} (hp : p 0 c = true) : s.tNext k p = some (0, c, s) := by
  unfold State.tNext
  rw [if_neg (by rw [h.2.1]; simp)]
  exact State.tNextIf_first h hp

theorem State.tReads_sound (d : TCmd) (go : State → State) : s.tReads k d go = go s := by
  obtain ⟨-, -, -, -, -, hecc⟩ := h
  exact State.tReads_of_sound hecc d go

theorem State.tq_first : tq s k = c :: rest := h.2.2.1

end First

/-! ### The queue -/

@[simp] theorem State.tq_modTe (s : State) (k : CoreId) (f : TEngine → TEngine) : tq (s.modTe k f) k = (f (s.ctx k).te).queue :=
  congrArg (fun x : Ctx => x.te.queue) (s.ctx_modCtx k _)

/-- The command at the head changes. -/
theorem State.tq_modT_zero {s : State} {k : CoreId} {c : TCmd} {rest : List TCmd} (h : tq s k = c :: rest) (f : TCmd → TCmd) :
    tq (s.modT k 0 f) k = f c :: rest := by
  rw [State.modT, State.tq_modTe]
  exact congrArg (fun l => l.modify 0 f) h

@[simp] theorem State.tq_withQueueOf (s old : State) (k : CoreId) : tq (s.withQueueOf old k) k = tq old k := State.tq_modTe ..

/-! ### What the work of a command leaves -/

@[simp] theorem State.cluster_modCluster (s : State) (d : Die) (c : Cluster) (f : ClusterSt → ClusterSt) :
    (s.modCluster d c f).cluster d c = f (s.cluster d c) := (getElem_vput ..).trans (if_pos rfl)

theorem State.cluster_congr {s t : State} (h : t.clusters = s.clusters) (d : Die) (c : Cluster) : t.cluster d c = s.cluster d c := by
  rw [State.cluster, State.cluster, h]

theorem State.cluster_modT (s : State) (k : CoreId) (i : Nat) (f : TCmd → TCmd) (d : Die) (c : Cluster) :
    (s.modT k i f).cluster d c = s.cluster d c := rfl

/-- A gather's element that fails leaves a deferred fault. -/
theorem State.gatherFail_fault {s : State} {m : Mover} {j : GatherJob} {k : Nat} {t : TrapInfo} {o : ElemOut}
    (h : s.gatherFail m j k t = .ok o) : o.fault ≠ none := by
  unfold State.gatherFail at h
  dsimp only at h
  split at h
  · cases h
    simp
  · split at h
    · exact nomatch h
    · cases h
      simp

/-- What is done in spite of a test is what is done where it does not hold. -/
theorem ok_of_ite_error {ε α : Type} {p : Prop} [Decidable p] {e : ε} {x : Except ε α} {a : α} (h : (if p then .error e else x) = Except.ok a) :
    x = .ok a := by
  split at h
  · exact nomatch h
  · exact h

theorem State.gatherElem_took {s : State} {m : Mover} {j : GatherJob} {k : Nat} {o : ElemOut} (h : s.gatherElem m j k = .ok o)
    (hf : o.fault = none) : o.job.took = k :: j.took := by
  have fails : ∀ {u : State} {t : TrapInfo}, u.gatherFail m j k t = .ok o → o.job.took = k :: j.took := fun g =>
    absurd hf (State.gatherFail_fault g)
  unfold State.gatherElem at h
  split at h
  · exact fails h
  · exact nomatch h
  · dsimp only at h
    split at h
    · exact fails h
    · have h := ok_of_ite_error h
      split at h
      · exact fails h
      · exact nomatch h
      · split at h
        · cases h
          rfl
        · split at h
          · exact fails h
          · split at h
            · exact fails (ok_of_ite_error h)
            · exact nomatch h
            · cases h
              rfl

theorem State.scatterElem_took {s : State} {m : Mover} {j : GatherJob} {k : Nat} {o : ElemOut} (h : s.scatterElem m j k = .ok o) :
    o.job.took = k :: j.took := by
  unfold State.scatterElem at h
  dsimp only at h
  split at h
  · cases h
    rfl
  · exact nomatch h
  · split at h
    · cases h
      rfl
    · split at h
      · cases h
        rfl
      · exact nomatch h
      · split at h
        · split at h
          · exact nomatch h
          · cases h
            rfl
        · exact nomatch h
        · cases h
          rfl

/-- The element that a step takes is accounted for, unless it fails. -/
theorem State.elemStep_took {s : State} {m : Mover} {j : GatherJob} {k : Nat} {o : ElemOut} (h : s.elemStep m j k = .ok o)
    (hf : o.fault = none) : o.job.took = k :: j.took := by
  unfold State.elemStep at h
  dsimp only at h
  split at h
  · exact State.gatherElem_took (j := j) h hf
  · exact State.scatterElem_took (j := j) h

/-- A counter's decrement changes no core. -/
@[simp] theorem State.decrement_cores (s : State) (id : BitVec 32) (n : Nat) : (s.decrement id n).cores = s.cores := by
  have detached : ∀ (s : State) d, (s.detach d).cores = s.cores := fun s d => by
    unfold State.detach
    generalize (s.die d).counters.filter _ = l
    induction l generalizing s with
    | nil => rfl
    | cons c l ih => exact ih _
  have settled : ∀ (s : State) d c, (s.settleCounter d c).cores = s.cores := fun s d c => by
    unfold State.settleCounter
    dsimp only
    split
    · split
      · rfl
      · split
        · rfl
        · rw [detached]
          rfl
    · rfl
  unfold State.decrement
  dsimp only
  split
  · rfl
  · rw [settled]
    split
    · split <;> rfl
    · split <;> rfl

end Sys2Proof.Machine
end

section
/-! PROOFS. T's oldest command (R201, R209, R225, R126): its landing units, its elements, its multicasts and its end. -/

namespace Sys2Proof.Machine

open Claims (SameMemory Stored Gives TFirst tq)

/-! ### Copies -/

/-- The last unit of the oldest command's copy lands in a bank, and the copy is over. -/
theorem State.tCopy_bank {s : State} {k b : CoreId} {off : Nat} {c : TCmd} {rest : List TCmd} {j : CopyJob} {u : CopyUnit} {bs : List Byte}
    (h : TFirst s k c rest) (hop : c.op = .copy j) (hf : j.flight = [u]) (hr : j.read = j.total) (ha : j.arrival = false) (hl : j.loss = none)
    (hd : u.data = some (clean bs)) (hn : bs.length = u.size) (hw : ∀ n, s.nodeOf k = some n → n.watch = .replicate 8 none)
    (hcut : (s.beforeFolds k 0).moverCut { s.tMover k c with lost := j.lost } u.dst u.size .store = false)
    (hp : s.portsAllow [(.bank b off, u.size)] true = true)
    (ht : (s.beforeFolds k 0).moverTargets (s.tMover k c) .store (cutRange 128 u.dst u.size) = .ok [(.bank b off, u.dst, u.size)]) (pick : Nat) :
    (s.tCopy k pick).mem = s.mem.writeBytes (bankKey b off) bs
      ∧ ∃ far, tq (s.tCopy k pick) k = { c with op := .copy { j with flight := [], far := far }, skip := 0 } :: rest := by
  have unwatched : (s.beforeFolds k 0).putWatch { s.tMover k c with lost := j.lost } [(.bank b off, u.dst, u.size)] (clean bs) = none :=
    State.putWatch_unwatched (m := { s.tMover k c with lost := j.lost }) (k := k) rfl
      (fun n hnode => hw n ((s.nodeOf_beforeFolds k 0 k).symm.trans hnode)) ..
  obtain ⟨far, hstep⟩ := State.copyStep_bank (own := some k) hf hr hd hn hcut ht ((s.portsAllow_modCtx k _ _ _).trans hp) unwatched pick true
  have hover : j.over = false := by simp [CopyJob.over, hf]
  have hpre : (s.core k).preempt.isSome = false := by rw [h.2.1]; rfl
  have hland : s.tCopy k pick = ((((((s.beforeFolds k 0).usePorts [(.bank b off, u.size)] true).moverStore
      { s.tMover k c with lost := j.lost } (.bank b off) bs).chargeFar k j.far far).withQueueOf s k).modT k 0 fun c =>
        { c with op := .copy { j with flight := [], far := far }, skip := 0 }) := by
    unfold State.tCopy
    dsimp only
    rw [State.tNextIf_first h (by simp [hop, hover, hpre])]
    dsimp only
    rw [State.tReads_sound h, hop]
    dsimp only
    rw [hpre, Bool.not_false, hstep]
    dsimp only
    rw [ha, hl]
    rfl
  rw [hland]
  refine ⟨?_, far, State.tq_modT_zero ((State.tq_withQueueOf ..).trans (State.tq_first h)) _⟩
  change (State.chargeFtUnits _ k _).mem = _
  rw [State.chargeFtUnits_mem, State.moverStore_bank_mem, State.usePorts_mem]
  rfl

/-! ### Gathers and scatters -/

/-- An element of the oldest command is taken, without a fault or a row to hold. -/
theorem gatherReply_eq {s : State} {c : TCmd} {rest : List TCmd} {j : GatherJob} {o : ElemOut} (h : TFirst s s.arg.k c rest)
    (hop : c.op = .gather j) (hmay : (s.ctx s.arg.k).mayRead j = true) (ha : j.arrival = false)
    (ho : (s.beforeFolds s.arg.k 0).elemStep (s.tMover s.arg.k c) j (j.pick s.arg.num) = .ok o) (hrow : o.row = none) (hf : o.fault = none) :
    ∃ ft, exec .gatherReply s = .next (((o.s.withQueueOf s s.arg.k).chargeFtUnits s.arg.k ft).modT s.arg.k 0 fun c =>
      { c with op := .gather { o.job with listed := true }, skip := 0 }) := by
  refine ⟨o.ft + if j.listed then 0 else s.rangeFt (s.tMover s.arg.k c) j.list.toNat (j.n * j.iw), ?_⟩
  change execGatherReply s = _
  unfold execGatherReply
  dsimp only
  rw [State.tNext_first h (by simp [hop, hmay])]
  dsimp only
  rw [State.tReads_sound h, hop]
  dsimp only
  rw [ho]
  dsimp only
  rw [hf, hrow, ha]
  rfl

/-! ### Multicasts -/

/-- What a multicast does next: it takes its members, or its next unit goes on its way. -/
def State.mcStep (s : State) (k : CoreId) (c : TCmd) (j : McastJob) (num : Nat) : State :=
  match j.members with
  | none =>
    let l := (s.members j.group).map fun p => (p, 0)
    let s := s.chargeFtUnits k (ftUnits j.n)
    let s := if l.isEmpty then s.setFlags k fMCNONE else s
    s.modT k 0 fun c => { c with op := .mcast { j with members := some l } }
  | some l => if groupNear k l then s.mcSend k 0 c j l else s.mcFar k 0 c j l num

/-- The oldest command is a multicast that may go on. -/
theorem multicastLanding_eq {s : State} {c : TCmd} {rest : List TCmd} {j : McastJob} (h : TFirst s s.arg.k c rest) (hop : c.op = .mcast j)
    (hcan : ∀ l, j.members = some l →
      (if groupNear s.arg.k l then decide (j.sent < j.n) && !l.isEmpty else l.any fun m => decide (m.2 < j.n)) = true) :
    exec .multicastLanding s = .next (s.mcStep s.arg.k c j s.arg.num) := by
  change execMulticastLanding s = _
  unfold execMulticastLanding
  dsimp only
  rw [State.tNext_first h (by
    rw [hop]
    dsimp only
    split
    · rfl
    · next l hl => exact hcan l hl)]
  dsimp only
  rw [State.tReads_sound h, hop]
  rfl

theorem State.chargeFtUnits_sameMemory (s : State) (k : CoreId) (n : Nat) : SameMemory s (s.chargeFtUnits k n) := by
  unfold State.chargeFtUnits
  split <;> exact ⟨rfl, rfl, rfl, rfl, rfl⟩

theorem State.setFlags_sameMemory (s : State) (k : CoreId) (b : BitVec 32) : SameMemory s (s.setFlags k b) := by
  unfold State.setFlags
  split <;> exact ⟨rfl, rfl, rfl, rfl, rfl⟩

theorem State.chargeFtUnits_wflags (s : State) (k : CoreId) (n : Nat) : ((s.chargeFtUnits k n).regs k).wflags = (s.regs k).wflags := by
  unfold State.chargeFtUnits
  split
  · rfl
  · rw [State.regs_modRegs]

theorem State.setFlags_wflags (s : State) (k : CoreId) {b : BitVec 32} (hb : b ≠ 0) :
    ((s.setFlags k b).regs k).wflags = (s.regs k).wflags ||| b := by
  unfold State.setFlags
  rw [if_neg hb, State.regs_modRegs]

theorem sameMemory_trans {s t u : State} (h : SameMemory s t) (g : SameMemory t u) : SameMemory s u := by
  obtain ⟨h1, h2, h3, h4, h5⟩ := h
  obtain ⟨g1, g2, g3, g4, g5⟩ := g
  exact ⟨g1.trans h1, g2.trans h2, g3.trans h3, g4.trans h4, g5.trans h5⟩

/-- A multicast takes its members as they stand. -/
theorem multicastLanding_members {s : State} {c : TCmd} {rest : List TCmd} {j : McastJob} (h : TFirst s s.arg.k c rest) (hop : c.op = .mcast j)
    (hm : j.members = none) :
    Gives .multicastLanding s fun t => SameMemory s t
      ∧ tq t s.arg.k = { c with op := .mcast { j with members := some ((s.members j.group).map fun p => (p, 0)) } } :: rest
      ∧ (s.members j.group = [] → (t.regs s.arg.k).wflags = (s.regs s.arg.k).wflags ||| 0x20000) := by
  refine ⟨_, multicastLanding_eq h hop fun l hl => ?_, ?_⟩
  · rw [hm] at hl
    exact nomatch hl
  unfold State.mcStep
  rw [hm]
  dsimp only
  have charged := s.chargeFtUnits_sameMemory s.arg.k (ftUnits j.n)
  have kept := s.chargeFtUnits_sameWork s.arg.k (ftUnits j.n)
  split
  · refine ⟨sameMemory_trans charged (sameMemory_trans (State.setFlags_sameMemory ..) ⟨rfl, rfl, rfl, rfl, rfl⟩),
      State.tq_modT_zero (((kept.trans (State.setFlags_sameWork ..)).tq _).trans (State.tq_first h)) _, fun _ => ?_⟩
    rw [State.modT, State.regs, State.ctx_modTe]
    exact (State.setFlags_wflags _ _ (by decide)).trans (congrArg (· ||| 0x20000) (s.chargeFtUnits_wflags ..))
  · next hne =>
    exact ⟨sameMemory_trans charged ⟨rfl, rfl, rfl, rfl, rfl⟩, State.tq_modT_zero ((kept.tq _).trans (State.tq_first h)) _,
      fun hnone => absurd (by rw [hnone]; rfl) hne⟩

/-- A unit of a multicast within the cluster enters the broadcast tree. -/
theorem State.mcSend_eq {s s' : State} {k : CoreId} {c : TCmd} {j : McastJob} {l : List ((NodeId × CoreId) × Nat)} {bs : List Byte}
    (hroom : (s.cluster k.die k.cluster).entered + j.unit j.sent ≤ 256)
    (hheld : s.mcHeld k (l.map fun m => m.1) (j.off + j.sent) (j.unit j.sent) = false)
    (hread : (s.beforeFolds k 0).moverRead (s.tMover k c) (addr64 (j.src.toNat + j.sent)) (j.unit j.sent) = .ok (s', clean bs))
    (hwatch : s.mcWatch (s.tMover k c) j.group (j.off + j.sent) (clean bs) = none) :
    s.mcSend k 0 c j l = ((s'.withQueueOf s k).modCluster k.die k.cluster fun x =>
      { x with tree := x.tree ++ [{ left := 12, k := k, seqn := c.seqn, group := j.group, off := j.off + j.sent, data := clean bs }] }).modT k 0
        fun c => { c with op := .mcast { j with sent := j.sent + j.unit j.sent }, skip := 0 } := by
  unfold State.mcSend
  dsimp only
  rw [hheld, hread, if_neg (by simp; omega)]
  dsimp only
  rw [hwatch, anyPoison_clean, Bool.or_false]

/-- A unit of clean bytes reaches a member that receives it. -/
theorem State.mcastMember_receives {s : State} {k : CoreId} {p : NodeId × CoreId} (h : s.receives (s.agent k) p = true) (off : Nat)
    (bs : List Byte) : s.mcastMember k p off (clean bs)
      = ((s.usePorts [(.bank p.2 off, bs.length)] true).homeWrite (.bank p.2 off) bs, false) := by
  unfold State.mcastMember
  rw [if_pos h, State.landPoison_clean, plain_clean, length_clean]

theorem State.mcastAll_receives {s : State} {k : CoreId} {p : NodeId × CoreId} (h : s.receives (s.agent k) p = true) (off : Nat)
    (bs : List Byte) : s.mcastAll k [p] off (clean bs)
      = ((s.usePorts [(.bank p.2 off, bs.length)] true).homeWrite (.bank p.2 off) bs, false) := by
  rw [State.mcastAll, State.mcastMember_receives h]
  rfl

/-- What a unit that reaches a member leaves: its bytes in the bank, and the queue and the clusters as they were. -/
theorem State.memberWrite_leaves (s : State) (p : NodeId × CoreId) (off : Nat) (bs : List Byte) :
    let t := (s.usePorts [(.bank p.2 off, bs.length)] true).homeWrite (.bank p.2 off) bs
    t.mem = s.mem.writeBytes (bankKey p.2 off) bs ∧ s.SameWork t ∧ t.clusters = s.clusters :=
  ⟨by rw [State.homeWrite_bank_mem, State.usePorts_mem], (s.usePorts_sameWork ..).trans (State.homeWrite_sameWork ..),
    (State.homeWrite_homeOnly ..).clusters.trans (s.usePorts_clusters ..)⟩

/-- Units that have still to come near come nearer, and nothing lands. -/
theorem State.tickTree_nearer {s : State} {d : Die} {c : Cluster} {u : TreeUnit} (ht : (s.cluster d c).tree = [u]) (hu : 1 < u.left) :
    s.tickTree d c = s.modCluster d c fun x => { x with tree := [{ u with left := u.left - 1 }] } := by
  have hnear : ¬u.left ≤ 1 := by omega
  unfold State.tickTree
  rw [ht]
  simp [hu, hnear]

/-- A unit whose cycles are over lands, and leaves the tree. -/
theorem State.tickTree_lands {s : State} {d : Die} {c : Cluster} {u : TreeUnit} (ht : (s.cluster d c).tree = [u]) (hu : u.left = 1) :
    s.tickTree d c = (s.modCluster d c fun x => { x with tree := [] }).landUnit u := by
  unfold State.tickTree
  rw [ht]
  simp [hu]

/-- A unit of the oldest command, a multicast to one member that receives it, lands. -/
theorem State.landUnit_first {s : State} {u : TreeUnit} {c : TCmd} {rest : List TCmd} {j : McastJob} {p : NodeId × CoreId} {at_ : Nat}
    {bs : List Byte} (hd : u.data = clean bs) (hq : tq s u.k = c :: rest) (hop : c.op = .mcast j) (hseq : c.seqn = u.seqn)
    (hm : j.members = some [(p, at_)]) (hr : s.receives (s.agent u.k) p = true) :
    s.landUnit u = ((s.usePorts [(.bank p.2 u.off, bs.length)] true).homeWrite (.bank p.2 u.off) bs).mcTook u.k 0 j [(p, at_ + bs.length)] false := by
  have found : findIx (s.ctx u.k).te.queue 0 (fun _ c => c.op != .fence && c.seqn == u.seqn) = some (0, c) := by
    rw [show (s.ctx u.k).te.queue = c :: rest from hq, findIx, hop, hseq]
    exact if_pos (by simp)
  unfold State.landUnit
  rw [found]
  dsimp only
  rw [hop]
  dsimp only
  rw [hm, hd]
  dsimp only [Option.getD_some]
  rw [show s.mcastAll u.k ([(p, at_)].map fun x => x.1) u.off (clean bs) = _ from State.mcastAll_receives hr u.off bs]
  simp only [List.map_cons, List.map_nil, length_clean]

theorem State.mcTook_tq {s : State} {k : CoreId} {c : TCmd} {rest : List TCmd} (h : tq s k = c :: rest) (j : McastJob)
    (l : List ((NodeId × CoreId) × Nat)) : tq (s.mcTook k 0 j l false) k = { c with op := .mcast { j with members := some l }, skip := 0 } :: rest := by
  unfold State.mcTook
  rw [if_neg Bool.false_ne_true, State.tq_modT_zero h, Bool.or_false]

/-- A unit of a multicast to one member outside the cluster lands there. -/
theorem State.mcFar_eq {s s' : State} {k : CoreId} {c : TCmd} {j : McastJob} {p : NodeId × CoreId} {at_ : Nat} {bs : List Byte}
    (hat : at_ < j.n) (hheld : s.mcHeld k [p] (j.off + at_) (j.unit at_) = false)
    (hports : s.portsAllow [(.bank p.2 (j.off + at_), j.unit at_)] true = true)
    (hwatch : s.mcWatch (s.tMover k c) j.group (j.off + at_) (clean bs) = none)
    (hread : (s.beforeFolds k 0).moverRead (s.tMover k c) (addr64 (j.src.toNat + at_)) (j.unit at_) = .ok (s', clean bs))
    (hr : (s'.withQueueOf s k).receives (s'.agent k) p = true) (num : Nat) :
    s.mcFar k 0 c j [(p, at_)] num = (((s'.withQueueOf s k).usePorts [(.bank p.2 (j.off + at_), bs.length)] true).homeWrite
      (.bank p.2 (j.off + at_)) bs).mcTook k 0 j [(p, at_ + j.unit at_)] false := by
  have hr' : (s'.withQueueOf s k).receives ((s'.withQueueOf s k).agent k) p = true := by
    rw [show (s'.withQueueOf s k).agent k = s'.agent k from State.agent_modCtx ..]
    exact hr
  unfold State.mcFar
  simp only [hat, List.filter_cons, List.filter_nil, decide_true, if_true, List.length_singleton, Nat.mod_one, List.getElem?_cons_zero]
  rw [hheld, hports, hread]
  simp only [hwatch, ite_self, anyPoison_clean, Bool.or_false, State.mcastMember_receives hr', List.map_cons, List.map_nil, if_true]
  rfl

/-! ### The end of a command -/

theorem tCommandComplete_eq {s : State} {c : TCmd} {rest : List TCmd} (h : TFirst s s.arg.k c rest) (ho : (s.ctx s.arg.k).tOver c = true) :
    exec .tCommandComplete s = .next (s.tComplete s.arg.k 0 c) := by
  change execTCommandComplete s = _
  unfold execTCommandComplete
  dsimp only
  rw [State.tNext_first h ho]
  dsimp only
  rw [State.tReads_sound h]

/-- A command that is complete has left the queue; its record is final, and its deferred faults are due. -/
def State.tRetired (s : State) (k : CoreId) (i : Nat) (c : TCmd) : State :=
  (s.modTe k fun e =>
    { e with queue := e.queue.eraseIdx i
             adler := match c.op with | .copy j => if j.mode = 0 then e.adler else j.adler | _ => e.adler
             recs := e.recs.map fun r => if c.op != .fence && r.status.toNat / 2 ^ 40 == c.seqn.toNat then c.record true else r }).modCore k
    fun y => { y with pend := y.pend ++ c.dueFault s.now }

/-- The completion is traced. -/
def State.tTraced (s : State) (k : CoreId) (c : TCmd) : State :=
  if c.op == .fence then s else s.trace k 5 .t c.pc c.seqn 0 (c.record true).status

/-- The counter of a copy is decremented. -/
def State.tCounted (s : State) (k : CoreId) (c : TCmd) : State :=
  match c.op with
  | .copy j => if idIndex j.ctr = 0 then s else (s.commit k).decrement j.ctr 1
  | _ => s

theorem State.tComplete_eq (s : State) (k : CoreId) (i : Nat) (c : TCmd) :
    s.tComplete k i c = (((s.tRetired k i c).tTraced k c).finish k c.fin).tCounted k c := rfl

theorem State.tTraced_sameWork (s : State) (k : CoreId) (c : TCmd) : s.SameWork (s.tTraced k c) := by
  unfold State.tTraced
  split
  · exact .refl s
  · exact s.trace_sameWork ..

theorem State.tCounted_sameWork (s : State) (k : CoreId) (c : TCmd) : s.SameWork (s.tCounted k c) := by
  unfold State.tCounted
  split
  · split
    · exact .refl s
    · exact (s.commit_sameWork k).then_cores (State.decrement_cores ..)
  · exact .refl s

theorem State.core_tRetired (s : State) (k : CoreId) (i : Nat) (c : TCmd) :
    ((s.tRetired k i c).ctx k).te.queue = (tq s k).eraseIdx i ∧ (s.tRetired k i c).regs k = s.regs k
      ∧ ((s.tRetired k i c).core k).pend = (s.core k).pend ++ c.dueFault s.now := by
  simp [State.tRetired, State.ctx, State.regs, State.modTe, State.core_modCtx, Claims.tq]

theorem State.tComplete_sameEngines (s : State) (k : CoreId) (i : Nat) (c : TCmd) (j : CoreId) :
    ((s.tRetired k i c).core j).SameEngines ((s.tComplete k i c).core j) := by
  rw [State.tComplete_eq]
  exact (((State.tTraced_sameWork ..).sameEngines j).trans (State.finish_sameEngines ..)).trans ((State.tCounted_sameWork ..).sameEngines j)

/-- A complete command leaves the queue. -/
theorem State.tq_tComplete {s : State} {k : CoreId} {d : TCmd} {rest : List TCmd} (h : tq s k = d :: rest) (c : TCmd) :
    tq (s.tComplete k 0 c) k = rest := by
  refine (congrArg TEngine.queue (s.tComplete_sameEngines k 0 c k).te).trans ?_
  obtain ⟨hq, -, -⟩ := s.core_tRetired k 0 c
  rw [State.ctx] at hq
  rw [hq, h]
  rfl

/-- The deferred faults of a complete command are due. -/
theorem State.pend_tComplete (s : State) (k : CoreId) (i : Nat) (c : TCmd) :
    ((s.tComplete k i c).core k).pend = (s.core k).pend ++ c.dueFault s.now := by
  obtain ⟨-, -, hp⟩ := s.core_tRetired k i c
  exact (s.tComplete_sameEngines k i c k).pend.trans hp

theorem State.finish_push (s : State) (k : CoreId) (ix : Fin 6) (n : Nat) :
    ((s.finish k { push := [(ix, n)], sig := [], unbound := false }).regs k).tok[ix.val] = (s.regs k).tok[ix.val] + n := by
  change ((s.modRegs k fun r => { r with tok := vput r.tok ix (r.tok[ix.val] + n), rsv := vput r.rsv ix (r.rsv[ix.val] - n) }).regs k).tok[ix.val] = _
  rw [State.regs_modRegs]
  exact (getElem_vput ..).trans (if_pos rfl)

/-- The tokens of a complete command are pushed. -/
theorem State.tok_tComplete (s : State) (k : CoreId) (i : Nat) {c : TCmd} {ix : Fin 6} {n : Nat}
    (h : c.fin = { push := [(ix, n)], sig := [], unbound := false }) :
    ((s.tComplete k i c).regs k).tok[ix.val] = (s.regs k).tok[ix.val] + n := by
  obtain ⟨-, hr, -⟩ := s.core_tRetired k i c
  rw [State.tComplete_eq, (State.tCounted_sameWork ..).regs_tok, h]
  refine (State.finish_push ..).trans ?_
  rw [(State.tTraced_sameWork ..).regs_tok, hr]

end Sys2Proof.Machine

open Sys2Proof Machine

/-- Settles O42, clause by clause: each event finds the command at the head of T's queue and does its work. -/
theorem transferCommandsProgress : Obligations.TransferCommandsProgress := by
  unfold Obligations.TransferCommandsProgress
  refine ⟨?_, ?_, ?_, ?_, ?_, ?_, ?_, ?_⟩
  · intro s k b off c rest j u bs hform harg h hop hf hr ha hl hd hn hw hcut hp ht
    have hexec : exec .landingUnit s = .next (s.tCopy k s.arg.num) := by
      change execLandingUnit s = _
      unfold execLandingUnit
      rw [harg]
    obtain ⟨hmem, far, hq⟩ := State.tCopy_bank h hop hf hr ha hl hd hn hw hcut hp ht s.arg.num
    exact ⟨_, hexec, stored_of_writeBytes hform hmem, _, hq, CopyJob.over_of_landed hr far, rfl, hl⟩
  · intro s c rest j o h hop hmay ha ho hrow hf
    obtain ⟨ft, hexec⟩ := gatherReply_eq h hop hmay ha ho hrow hf
    refine ⟨_, hexec, State.elemStep_took ho hf, State.tq_modT_zero ?_ _⟩
    rw [(State.chargeFtUnits_sameWork ..).tq, State.tq_withQueueOf]
    exact State.tq_first h
  · intro s c rest j h hop hm
    exact multicastLanding_members h hop hm
  · intro s s' c rest j l n bs h hop hm hl hnear hsent hn hroom hheld hread hwatch
    subst hn
    have near : groupNear s.arg.k l = true := List.all_eq_true.2 hnear
    have hexec := multicastLanding_eq h hop fun l' hl' => by
      cases hm.symm.trans hl'
      rw [if_pos near]
      simp [hsent, hl]
    rw [State.mcStep, hm] at hexec
    refine ⟨_, hexec.trans (congrArg Host.Outcome.next ((if_pos near).trans (State.mcSend_eq hroom hheld hread hwatch))), rfl, ?_, ?_⟩
    · rw [State.cluster_modT, State.cluster_modCluster]
      rfl
    · exact State.tq_modT_zero ((State.tq_withQueueOf ..).trans (State.tq_first h)) _
  · intro s d cl u ht hu
    rw [State.tickTree_nearer ht hu]
    exact ⟨congrArg ClusterSt.tree (State.cluster_modCluster ..), rfl, rfl, rfl, rfl, rfl⟩
  · intro s d cl u c rest j p at_ bs hform ht hu hd hq hop hseq hm hr
    rw [State.tickTree_lands ht hu, 
      State.landUnit_first (s := s.modCluster d cl fun x => { x with tree := [] }) hd hq hop hseq hm hr]
    obtain ⟨hmem, kept, hcl⟩ := (s.modCluster d cl fun x => { x with tree := [] }).memberWrite_leaves p u.off bs
    refine ⟨stored_of_writeBytes hform hmem, ?_, State.mcTook_tq ((kept.tq _).trans hq) j _⟩
    exact congrArg ClusterSt.tree ((State.cluster_congr hcl d cl).trans (State.cluster_modCluster ..))
  · intro s s' c rest j p at_ n bs hform h hop hm hat hfar hn hheld hports hwatch hread hmem' hlen hr
    subst hn
    have far : groupNear s.arg.k [(p, at_)] = false := by simp [groupNear, hfar]
    have hexec := multicastLanding_eq h hop fun l' hl' => by
      cases hm.symm.trans hl'
      rw [far]
      simp [hat]
    rw [State.mcStep, hm] at hexec
    have landed := State.mcFar_eq hat hheld hports hwatch hread hr s.arg.num
    obtain ⟨hmem, kept, -⟩ := (s'.withQueueOf s s.arg.k).memberWrite_leaves p (j.off + at_) bs
    refine ⟨_, hexec.trans (congrArg Host.Outcome.next ((if_neg (by rw [far]; simp)).trans landed)), ?_, ?_⟩
    · exact stored_of_writeBytes hform (hmem.trans (by rw [← hmem']; rfl))
    · exact State.mcTook_tq ((kept.tq _).trans ((State.tq_withQueueOf ..).trans (State.tq_first h))) j _
  · intro s c rest h ho
    exact ⟨_, tCommandComplete_eq h ho, State.tq_tComplete (State.tq_first h) c, State.pend_tComplete .., fun ix n hfin =>
      State.tok_tComplete _ _ _ hfin⟩
end

section
/-! PROOFS. Folds (R229, R230): the fold that arrived first starts, and a fold that ends has rearranged banks. -/

namespace Sys2Proof.Machine

open Claims (SameMemory Gives tq Filled Banks)

/-! ### Reads of engines keep the form of memory -/

/-- From s to t no byte that is stored changes. -/
structure State.SameBytes (s t : State) : Prop where
  /-- Memory. -/
  mem : t.mem = s.mem
  /-- The registers of BAR0. -/
  bar0 : t.bar0 = s.bar0
  /-- Dirty bytes of the L2. -/
  l2 : t.l2 = s.l2
  /-- Stale bytes of the L2. -/
  stale : t.stale = s.stale

theorem State.SameBytes.form {s t : State} (h : s.SameBytes t) (g : s.MemoryForm) : t.MemoryForm := by
  unfold State.MemoryForm
  rw [h.mem, h.bar0, h.l2, h.stale]
  exact g

theorem State.consume_sameBytes (s : State) (t : Target) (n : Nat) : s.SameBytes (s.consume t n).1 := by
  have life : ∀ (s : State) i m, s.SameBytes (s.addLife i m) := fun s i m => by
    unfold State.addLife
    split <;> exact ⟨rfl, rfl, rfl, rfl⟩
  have row : ∀ (s : State) k off m, s.SameBytes (s.countRow k off m) := fun s k off m => by
    unfold State.countRow
    split <;> exact ⟨rfl, rfl, rfl, rfl⟩
  have trans : ∀ {s t u : State}, s.SameBytes t → t.SameBytes u → s.SameBytes u := fun h g =>
    ⟨g.mem.trans h.mem, g.bar0.trans h.bar0, g.l2.trans h.l2, g.stale.trans h.stale⟩
  unfold State.consume
  extract_lets key hit found bad s₀ s₁ s₂ info lost
  have h₀ : s.SameBytes s₀ := ⟨rfl, rfl, rfl, rfl⟩
  have h₁ : s.SameBytes s₁ := by
    cases t with
    | bank k off => exact trans (trans (trans (trans h₀ (life ..)) (life ..)) (life ..)) (row ..)
    | _ => exact h₀
  have h₂ : s.SameBytes s₂ := trans h₁ ⟨rfl, rfl, rfl, rfl⟩
  clear_value s₁ s₂ lost bad
  split
  · exact h₂
  · split <;> exact h₁

theorem State.consumeBy_sameBytes (s : State) (k : CoreId) (t : Target) (n : Nat) : s.SameBytes (s.consumeBy k t n).1 := by
  unfold State.consumeBy
  split
  · dsimp only
    split
    · exact s.consume_sameBytes _ _
    · obtain ⟨h1, h2, h3, h4⟩ := State.consume_sameBytes { s with
        poison := s.poison.filter fun p => !(s.core k).whole.contains p
        ecc := s.ecc.filter fun p => !(s.core k).whole.contains p.1 } (.pool _ .cached) n
      exact ⟨h1, h2, h3, h4⟩
  · exact s.consume_sameBytes _ _

theorem State.moverPeek_sameBytes (s : State) (m : Mover) (t : Target) (n : Nat) : s.SameBytes (s.moverPeek m t n).1 := by
  unfold State.moverPeek
  split
  · next k _ =>
    have h := s.consumeBy_sameBytes k t n
    split <;> next e => exact (congrArg Prod.fst e) ▸ h
  · unfold State.peek
    have h := s.consume_sameBytes t n
    split <;> next e => exact (congrArg Prod.fst e) ▸ h

theorem State.moverTake_form {m : Mover} (l : List (Target × Nat × Nat)) {s t : State} {acc bs : List Carried}
    (h : s.moverTake m l acc = .ok (t, bs)) (g : s.MemoryForm) : t.MemoryForm := by
  induction l generalizing s acc with
  | nil =>
    cases h
    exact g
  | cons p l ih =>
    obtain ⟨tg, va, n⟩ := p
    rw [State.moverTake] at h
    dsimp only at h
    split at h
    · exact nomatch h
    · exact ih h ((State.moverPeek_sameBytes ..).form ((State.meet_homeOnly ..).form g))

theorem State.moverRead_form {s t : State} {m : Mover} {va n : Nat} {bs : List Carried} (h : s.moverRead m va n = .ok (t, bs))
    (g : s.MemoryForm) : t.MemoryForm := by
  unfold State.moverRead at h
  split at h
  · exact nomatch h
  · dsimp only at h
    split at h
    · exact State.moverTake_form _ h ((s.usePorts_homeOnly _ _).form g)
    · exact nomatch h

/-! ### Ranges that are filled -/

theorem State.foldWrite_sameWork (site : Site) (l : List (Nat × Nat)) (s : State) (bs : List Carried) : s.SameWork (s.foldWrite site l bs) := by
  induction l generalizing s bs with
  | nil => exact .refl s
  | cons r l ih =>
    obtain ⟨key, n⟩ := r
    rw [State.foldWrite]
    refine .trans ?_ (ih _ _)
    split
    · exact ((s.homeWrite_sameWork ..).trans (State.landPoison_sameWork ..)).trans (State.homeWatch_sameWork ..)
    · exact .refl s

/-- What is read of a range depends on the bytes of the range. -/
theorem Memory.readBytes_congr {m m' : Memory} {a n : Nat} (h : ∀ i < n, m'.read (a + i) = m.read (a + i)) :
    m'.readBytes a n = m.readBytes a n := by
  rw [Memory.readBytes_eq, Memory.readBytes_eq]
  exact List.map_congr_left fun i hi => h i (List.mem_range.1 hi)

/-- Bytes outside ranges stay through a write into them, and the ranges hold what is written. -/
theorem State.foldWrite_filled (site : Site) (l : List (Nat × Nat)) {s : State} {bs : List Carried} (h : s.mem.wf = true) (hl : Banks l)
    (hn : bs.length = (l.map fun r => r.2).sum) : Filled s (s.foldWrite site l bs) l (plain bs) := by
  induction l generalizing s bs with
  | nil =>
    rw [List.length_eq_zero_iff.1 hn]
    exact ⟨rfl, fun _ _ => rfl⟩
  | cons r l ih =>
    obtain ⟨key, n⟩ := r
    obtain ⟨hbank, hapart⟩ := hl
    obtain ⟨b, off, hkey, ht⟩ := hbank _ (List.mem_cons_self ..)
    obtain ⟨hfirst, hrest⟩ := List.pairwise_cons.1 hapart
    dsimp only at hkey ht hfirst
    rw [List.map_cons, List.sum_cons] at hn
    have hpart : (plain (bs.take n)).length = n := by
      rw [plain, List.length_map, List.length_take]
      omega
    rw [State.foldWrite, ht]
    dsimp only
    generalize hu : (((s.homeWrite (.bank b off) (plain (bs.take n))).landPoison key (bs.take n)).homeWatch
      (s.paOf (.bank b off)) (plain (bs.take n)) 0 site) = u
    have hmem : u.mem = s.mem.writeBytes key (plain (bs.take n)) := by
      rw [← hu, State.homeWatch_mem, State.landPoison_mem, State.homeWrite_bank_mem, hkey]
    obtain ⟨hfilled, houtside⟩ := ih (s := u) (bs := bs.drop n) (by rw [hmem]; exact Memory.writeBytes_wf h ..)
      ⟨fun r hr => hbank r (List.mem_cons_of_mem _ hr), hrest⟩ (by rw [List.length_drop]; omega)
    refine ⟨?_, fun a ha => ?_⟩
    · have first : (u.foldWrite site l (bs.drop n)).mem.readBytes key n = plain (bs.take n) := by
        have written := Memory.readBytes_writeBytes h key (plain (bs.take n))
        rw [hpart, ← hmem] at written
        rw [← written]
        refine Memory.readBytes_congr fun i hi => houtside _ fun r hr => ?_
        have := hfirst r hr
        omega
      rw [List.flatMap_cons, hfilled, first, plain, plain, plain, ← List.map_append, List.take_append_drop]
    · rw [houtside a fun r hr => ha r (List.mem_cons_of_mem _ hr), hmem]
      refine Memory.read_writeBytes_outside h _ _ _ ?_
      rw [hpart]
      exact ha (key, n) (List.mem_cons_self ..)

/-- Which ranges are filled is a matter of memory. -/
theorem filled_congr {s s' t t' : State} {l : List (Nat × Nat)} {bs : List Byte} (hs : s'.mem = s.mem) (ht : t'.mem = t.mem)
    (h : Filled s t l bs) : Filled s' t' l bs := by
  unfold Filled
  rw [hs, ht]
  exact h

/-! ### A fold starts -/

theorem findIx_getElem {α : Type} {p : Nat → α → Bool} {l : List α} {n i : Nat} {x : α} (h : findIx l n p = some (i, x)) :
    ∃ m, i = n + m ∧ l[m]? = some x := by
  induction l generalizing n with
  | nil => exact nomatch h
  | cons y l ih =>
    rw [findIx] at h
    split at h
    · cases h
      exact ⟨0, rfl, rfl⟩
    · obtain ⟨m, rfl, hm⟩ := ih h
      exact ⟨m + 1, by omega, hm⟩

/-- The fold a core has next stands in its queue. -/
theorem State.foldReady_queue {s : State} {k : CoreId} {i : Nat} {c : TCmd} {j : FoldJob} (h : s.foldReady k = some (i, c, j)) :
    (tq s k)[i]? = some c := by
  unfold State.foldReady at h
  split at h
  · next n d hix =>
    obtain ⟨m, rfl, hm⟩ := findIx_getElem hix
    obtain ⟨_, -, he⟩ := Option.map_eq_some_iff.1 h
    cases he
    rw [Nat.zero_add]
    exact hm
  · exact nomatch h

/-- The fold engine, when free, starts the fold that arrived first. -/
theorem foldStart_eq {s : State} {k : CoreId} {since i : Nat} {c : TCmd} {j : FoldJob} (hfree : (s.cluster s.arg.d s.arg.c).folding = none)
    (hfirst : s.firstFold s.arg.d s.arg.c = some (k, since)) (hready : s.foldReady k = some (i, c, j)) (hst : c.started = true)
    (hecc : (s.ctx k).regEcc = []) (hacc : s.accessed s.arg.d s.arg.c (j.src ++ j.dst) = false) :
    exec .foldStart s = .next ((s.modT k i fun c => { c with op := .fold { j with started := true } }).modCluster s.arg.d s.arg.c
      fun x => { x with folding := some k }) := by
  change execFoldStart s = _
  unfold execFoldStart
  dsimp only
  rw [hfree, hfirst]
  dsimp only [Option.isSome_none]
  rw [if_neg Bool.false_ne_true, hready]
  dsimp only
  rw [hacc, if_neg Bool.false_ne_true, State.tReads_of_sound hecc, if_pos hst]

/-! ### A fold completes -/

/-- The oldest command is the fold that runs. -/
theorem Ctx.running_first {x : Ctx} {c : TCmd} {j : FoldJob} {rest : List TCmd} (hq : x.te.queue = c :: rest) (hop : c.op = .fold j)
    (hst : j.started = true) : x.running = some (0, c, j) := by
  have hj : c.foldJob = some j := by rw [TCmd.foldJob, hop]
  unfold Ctx.running
  simp only [hq, findIx, hj, hst, if_true, Option.map_some]

/-- What the fold engine leaves of the banks: the destination ranges are written. -/
def State.folded (s : State) (c : TCmd) (j : FoldJob) (ib : List Byte) : State :=
  s.foldWrite { q := .t, pc := c.pc, seqn := c.seqn } j.dst (foldBytes j.op j.g j.x (s.foldRead j.src) ib).1

/-- A fold as it completes, with what its work has shown of indices and poison. -/
def TCmd.foldEnds (c : TCmd) (j : FoldJob) (r : List Carried × Bool) : TCmd :=
  { c with badIdx := r.2, op := .fold { j with poison := anyPoison r.1 } }

/-- FT units of a fold: its bytes, unless every range lies in the own bank, and its index list. -/
def State.foldFt (s : State) (m : Mover) (k : CoreId) (j : FoldJob) : Nat :=
  let own := fun l : List (Nat × Nat) => l.all fun p => match keyTarget p.1 with | some (.bank b _) => b == k | _ => true
  (if own j.src && own j.dst then 0 else ftUnits (foldRows j.g * foldRb j.g))
    + if j.op = 1 then ftUnits (s.moverFar m j.x.toNat (4 * foldRows j.g)) else 0

/-- The oldest command, a fold that has taken its time, completes. -/
theorem foldComplete_eq {s s' u : State} {k : CoreId} {c : TCmd} {j : FoldJob} {rest : List TCmd} {ib : List Carried}
    (hrun : (s.cluster s.arg.d s.arg.c).folding = some k) (hq : tq s k = c :: rest) (hop : c.op = .fold j) (hst : j.started = true)
    (hleft : j.left = 0) (hix : Claims.indexList s k c j = .ok (s', ib)) (hu : u = (s'.withQueueOf s k).folded c j (plain ib)) :
    exec .foldComplete s = .next (((u.chargeFtUnits k (u.foldFt (s.tMover k c) k j)).tComplete k 0
      (c.foldEnds j (foldBytes j.op j.g j.x (s'.foldRead j.src) (plain ib)))).modCluster s.arg.d s.arg.c fun x => { x with folding := none }) := by
  change execFoldComplete s = _
  unfold execFoldComplete
  dsimp only
  rw [hrun]
  dsimp only
  rw [Ctx.running_first hq hop hst]
  dsimp only
  rw [if_neg (by omega), show (if j.op = 1 then _ else _) = Except.ok (s', ib) from hix, hu]
  rfl

/-- The end of a fold with nothing to signal leaves memory. -/
theorem State.tComplete_mem {s : State} {k : CoreId} {i : Nat} {c : TCmd} {g : FoldJob} (hsig : c.fin.sig = []) (hop : c.op = .fold g) :
    (s.tComplete k i c).mem = s.mem := by
  have pushed : ∀ (l : List (Fin 6 × Nat)) (s : State), (l.foldl (fun s p => s.modRegs k fun r =>
      { r with tok := vput r.tok p.1 (r.tok[p.1.val] + p.2), rsv := vput r.rsv p.1 (r.rsv[p.1.val] - p.2) }) s).mem = s.mem := by
    intro l s
    induction l generalizing s with
    | nil => rfl
    | cons p l ih => exact ih _
  rw [State.tComplete_eq]
  have counted : ∀ u : State, u.tCounted k c = u := fun u => by rw [State.tCounted, hop]
  have traced : ∀ u : State, (u.tTraced k c).mem = u.mem := fun u => by
    unfold State.tTraced
    split <;> rfl
  have finished : ∀ u : State, (u.finish k c.fin).mem = u.mem := fun u => by
    unfold State.finish
    rw [hsig]
    dsimp only [List.foldl_nil]
    split
    · obtain ⟨hm, -⟩ := State.setFlags_sameMemory (c.fin.push.foldl _ u) k 0x100
      exact hm.trans (pushed ..)
    · exact pushed ..
  rw [counted, finished, traced]
  rfl

end Sys2Proof.Machine

open Sys2Proof Machine

/-- Settles O43: the fold that arrived first starts, and one that ends has filled its destination with what was read before any byte was written. -/
theorem foldsRearrangeBanks : Obligations.FoldsRearrangeBanks := by
  unfold Obligations.FoldsRearrangeBanks
  refine ⟨?_, ?_⟩
  · intro s k since i c j hfree hfirst hready hst hecc hacc
    refine ⟨_, foldStart_eq hfree hfirst hready hst hecc hacc, ?_, ⟨rfl, rfl, rfl, rfl, rfl⟩, { c with op := .fold { j with started := true } },
      ?_, rfl⟩
    · rw [State.cluster_modCluster]
    · change (Claims.tq (s.modT k i _) k)[i]? = _
      rw [State.modT, State.tq_modTe]
      exact (List.getElem?_modify_eq ..).trans (congrArg (Option.map _) (State.foldReady_queue hready))
  · intro s s' k c j rest ib hform hrun hq hop hst hleft hix hbanks hlen hsig
    obtain ⟨hmem, -, -, -⟩ : s'.MemoryForm := by
      unfold Claims.indexList at hix
      split at hix
      · exact State.moverRead_form hix hform
      · cases hix
        exact hform
    refine ⟨_, foldComplete_eq hrun hq hop hst hleft hix rfl, ?_, ?_, ?_⟩
    · rw [State.cluster_modCluster]
    · exact State.tq_tComplete (((State.chargeFtUnits_sameWork ..).tq k).trans (((State.foldWrite_sameWork ..).tq k).trans
        ((State.tq_withQueueOf ..).trans hq))) _
    · refine filled_congr rfl ?_ (State.foldWrite_filled { q := .t, pc := c.pc, seqn := c.seqn } j.dst (s := s'.withQueueOf s k) hmem hbanks hlen)
      exact (State.tComplete_mem (c := c.foldEnds j (foldBytes j.op j.g j.x (s'.foldRead j.src) (plain ib))) hsig rfl).trans
        (State.chargeFtUnits_mem ..)
end

section
/-! PROOFS. Collectives (R215, R359, R360): a REDUCE begins, its chunks go round the ring, and an absent participant is reported. -/

namespace Sys2Proof.Machine

open Claims (Gives First Worked)

/-! ### What accesses leave of the Ostler's tables -/

/-- From s to t the queues, the registers of BAR0 and the time stay. -/
structure State.SameTables (s t : State) : Prop where
  /-- The Ostler's state of the queues. -/
  queues : t.queues = s.queues
  /-- The registers of BAR0. -/
  bar0 : t.bar0 = s.bar0
  /-- The time. -/
  now : t.now = s.now

namespace State.SameTables

theorem refl (s : State) : s.SameTables s := ⟨rfl, rfl, rfl⟩

theorem trans {s t u : State} (h : s.SameTables t) (g : t.SameTables u) : s.SameTables u :=
  ⟨g.queues.trans h.queues, g.bar0.trans h.bar0, g.now.trans h.now⟩

theorem foldl {α : Type} (f : State → α → State) (h : ∀ (s : State) x, s.SameTables (f s x)) (l : List α) (s : State) :
    s.SameTables (l.foldl f s) := by
  induction l generalizing s with
  | nil => exact .refl s
  | cons x l ih => exact (h s x).trans (ih _)

theorem dray {s t : State} (h : s.SameTables t) (pa : PA) : t.dray pa = s.dray pa := by
  unfold State.dray
  rw [h.queues]

theorem ringSize {s t : State} (h : s.SameTables t) (g : Nat) : t.ringSize g = s.ringSize g := by
  unfold State.ringSize
  rw [h.bar0]

end State.SameTables

theorem State.writeBack_sameTables (s : State) (out : Overlay) : s.SameTables (s.writeBack out) := by
  refine .foldl _ (fun s b => ?_) _ s
  unfold State.writeBlock
  split <;> exact ⟨rfl, rfl, rfl⟩

theorem State.evict_sameTables (s : State) (a n : Nat) : s.SameTables (s.evict a n) := by
  unfold State.evict
  extract_lets within out
  refine State.SameTables.trans ?_ (State.writeBack_sameTables _ out)
  exact ⟨rfl, rfl, rfl⟩

theorem State.keepSectors_sameTables (l : List Nat) (s : State) : s.SameTables (s.keepSectors l) := by
  induction l generalizing s with
  | nil => exact .refl s
  | cons p l ih =>
    rw [State.keepSectors]
    refine .trans ?_ (ih _)
    split
    · exact ⟨rfl, rfl, rfl⟩
    · split <;> exact ⟨rfl, rfl, rfl⟩

theorem State.meetStore_sameTables (s : State) (pa n : Nat) : s.SameTables (s.meetStore pa n) := by
  unfold State.meetStore
  dsimp only
  refine .trans (t := { s with free := s.free + 1 }) ⟨rfl, rfl, rfl⟩ ?_
  split
  · exact State.evict_sameTables ..
  · exact State.keepSectors_sameTables ..

theorem State.poolWrite_sameTables (n : Nat) (s : State) (pa : Nat) (bs : List Byte) : s.SameTables (s.poolWrite n pa bs) := by
  induction n generalizing s pa bs with
  | zero => exact .refl s
  | succ n ih =>
    unfold State.poolWrite
    split
    · exact .refl s
    · refine .trans ?_ (ih _ _ _)
      split <;> exact ⟨rfl, rfl, rfl⟩

theorem State.meet_sameTables (s : State) (t : Target) (n : Nat) : s.SameTables (s.meet t n) := by
  unfold State.meet
  extract_lets held s0 out s1
  have allocated : s.SameTables s0 := by
    dsimp only [s0]
    split <;> exact ⟨rfl, rfl, rfl⟩
  have counted : s.SameTables s1 := allocated.trans ⟨rfl, rfl, rfl⟩
  clear_value s1 held
  split
  · exact allocated
  · refine counted.trans ?_
    split
    · split <;> exact ⟨rfl, rfl, rfl⟩
    · split
      · exact State.evict_sameTables ..
      · exact .refl _
    · exact .refl _

theorem State.homeWrite_sameTables (s : State) (t : Target) (bs : List Byte) : s.SameTables (s.homeWrite t bs) := by
  unfold State.homeWrite
  dsimp only
  split
  · exact .refl s
  · split
    · exact ⟨rfl, rfl, rfl⟩
    · exact ((State.meetStore_sameTables ..).trans (State.poolWrite_sameTables ..)).trans ⟨rfl, rfl, rfl⟩
    · exact ⟨rfl, rfl, rfl⟩
    · exact ⟨rfl, rfl, rfl⟩
    · split <;> exact ⟨rfl, rfl, rfl⟩
    · exact .refl s

theorem State.homeWatch_sameTables (s : State) (pa : Nat) (bs : List Byte) (who : W64) (site : Site) :
    s.SameTables (s.homeWatch pa bs who site) := by
  rw [State.homeWatch_rest]
  exact ⟨rfl, rfl, rfl⟩

theorem State.consume_sameTables (s : State) (t : Target) (n : Nat) : s.SameTables (s.consume t n).1 := by
  have life : ∀ (s : State) i m, s.SameTables (s.addLife i m) := fun s i m => by
    unfold State.addLife
    split <;> exact ⟨rfl, rfl, rfl⟩
  have row : ∀ (s : State) k off m, s.SameTables (s.countRow k off m) := fun s k off m => by
    unfold State.countRow
    split <;> exact ⟨rfl, rfl, rfl⟩
  unfold State.consume
  extract_lets key hit found bad s₀ s₁ s₂ info lost
  have h₀ : s.SameTables s₀ := ⟨rfl, rfl, rfl⟩
  have h₁ : s.SameTables s₁ := by
    cases t with
    | bank k off => exact (((h₀.trans (life ..)).trans (life ..)).trans (life ..)).trans (row ..)
    | _ => exact h₀
  have h₂ : s.SameTables s₂ := h₁.trans ⟨rfl, rfl, rfl⟩
  clear_value s₁ s₂ lost bad
  split
  · exact h₂
  · split <;> exact h₁

/-! ### Reads of a queue's mover -/

section Viewless
variable {m : Mover} (hm : m.view = none)
include hm

theorem State.moverTake_sameTables (l : List (Target × Nat × Nat)) {s t : State} {acc bs : List Carried}
    (h : s.moverTake m l acc = .ok (t, bs)) : s.SameTables t := by
  have peeked : ∀ (s : State) t n, s.SameTables (s.moverPeek m t n).1 := fun s t n => by
    unfold State.moverPeek State.peek
    rw [hm]
    have h := s.consume_sameTables t n
    dsimp only
    split <;> next e => exact (congrArg Prod.fst e) ▸ h
  induction l generalizing s acc with
  | nil =>
    cases h
    exact .refl _
  | cons p l ih =>
    obtain ⟨tg, va, n⟩ := p
    rw [State.moverTake] at h
    dsimp only at h
    split at h
    · exact nomatch h
    · exact ((State.meet_sameTables ..).trans (peeked ..)).trans (ih h)

theorem State.moverRead_sameTables {s t : State} {va n : Nat} {bs : List Carried} (h : s.moverRead m va n = .ok (t, bs)) :
    s.SameTables t := by
  unfold State.moverRead at h
  split at h
  · exact nomatch h
  · dsimp only at h
    split at h
    · refine .trans ?_ (State.moverTake_sameTables hm _ h)
      exact ⟨s.usePorts_queues .., (s.usePorts_homeOnly ..).bar0, (s.usePorts_homeOnly ..).now⟩
    · exact nomatch h

theorem State.contribution_sameTables {s t : State} {p : Packet} {i : Nat} {c : Chunk} (h : s.contribution m p i = .ok (t, c)) :
    s.SameTables t := by
  unfold State.contribution at h
  split at h
  · exact nomatch h
  · next hr =>
    cases h
    exact State.moverRead_sameTables hm hr

theorem State.starts_sameTables {p : Packet} (l : List Nat) {s t : State} {cs : List Chunk} (h : s.starts m p l = .ok (t, cs)) :
    s.SameTables t := by
  induction l generalizing s cs with
  | nil =>
    cases h
    exact .refl _
  | cons i l ih =>
    rw [State.starts] at h
    split at h
    · exact nomatch h
    · next hc =>
      split at h
      · exact nomatch h
      · next hs =>
        cases h
        exact (State.contribution_sameTables hm hc).trans (ih hs)

end Viewless

/-! ### A packet that changes -/

theorem State.putPa_sameTables (s : State) (pa : Nat) (bs : List Byte) (who : W64) : s.SameTables (s.putPa pa bs who) := by
  unfold State.putPa
  split
  · exact (s.homeWrite_sameTables ..).trans (State.homeWatch_sameTables ..)
  · exact .refl s

theorem State.putPa_dies (s : State) (pa : Nat) (bs : List Byte) (who : W64) : (s.putPa pa bs who).dies = s.dies := by
  unfold State.putPa
  split
  · rw [State.homeWatch_rest]
    exact (s.homeWrite_homeOnly ..).dies
  · rfl

/-- The Ostler's state of a queue is what it has been set to; nothing else of the tables changes. -/
theorem State.setDray_leaves (s : State) (q : DrayQ) :
    (s.setDray q).dray q.pa = q ∧ (s.setDray q).bar0 = s.bar0 ∧ (s.setDray q).dies = s.dies := by
  unfold State.setDray
  extract_lets rest s0 st busy
  have named : s0.dray q.pa = q := by
    have other : rest.find? (fun x => x.pa == q.pa) = none := List.find?_eq_none.2 fun x hx => by simpa using (List.mem_filter.1 hx).2
    show ((rest ++ [q]).find? fun x => x.pa == q.pa).getD _ = q
    rw [List.find?_append, other]
    simp
  clear_value st busy
  split
  · exact ⟨named, rfl, rfl⟩
  · have same := s0.putPa_sameTables (q.pa.toNat + 0x34) (leBytes 4 (st / 4 * 4 + busy * 2 + st % 2)) 0
    exact ⟨(same.dray q.pa).trans named, same.bar0, s0.putPa_dies ..⟩

@[simp] theorem State.dray_pa (s : State) (pa : PA) : (s.dray pa).pa = pa := by
  unfold State.dray
  cases h : s.queues.find? fun q => q.pa == pa with
  | none => rfl
  | some q =>
    have named := List.find?_some h
    exact beq_iff_eq.1 named

theorem State.modPkt_pkts (s : State) (pa : PA) (i : Nat) (f : Packet → Packet) :
    ((s.modPkt pa i f).dray pa).pkts = (s.dray pa).pkts.modify i f := by
  obtain ⟨h, -, -⟩ := s.setDray_leaves { s.dray pa with pkts := (s.dray pa).pkts.modify i f }
  rw [show ({ s.dray pa with pkts := (s.dray pa).pkts.modify i f } : DrayQ).pa = pa from s.dray_pa pa] at h
  exact congrArg DrayQ.pkts h

theorem State.modPkt_ringSize (s : State) (pa : PA) (i : Nat) (f : Packet → Packet) (g : Nat) :
    (s.modPkt pa i f).ringSize g = s.ringSize g := by
  obtain ⟨-, h, -⟩ := s.setDray_leaves { s.dray pa with pkts := (s.dray pa).pkts.modify i f }
  exact congrArg (fun m : Memory => m.readLE (ringEntry g + 8) 2) h

theorem State.modPkt_die (s : State) (pa : PA) (i : Nat) (f : Packet → Packet) (d : Die) : (s.modPkt pa i f).die d = s.die d := by
  obtain ⟨-, -, h⟩ := s.setDray_leaves { s.dray pa with pkts := (s.dray pa).pkts.modify i f }
  exact congrArg (fun v : Vector DieSt 4 => v[d.val]) h

/-! ### The packet that an event is for -/

/-- The first entry that satisfies a test is found. -/
theorem findIx_of_first {α : Type} {l : List α} {i : Nat} {x : α} {p : α → Bool} (h : First l i x p) (n : Nat) :
    findIx l n (fun _ y => p y) = some (n + i, x) := by
  induction l generalizing i n with
  | nil => exact nomatch h.1
  | cons y l ih =>
    obtain ⟨hx, hp, hbefore⟩ := h
    cases i with
    | zero =>
      cases hx
      exact if_pos hp
    | succ i =>
      have hy : p y = false := hbefore 0 y (Nat.succ_pos i) rfl
      rw [findIx, hy, if_neg Bool.false_ne_true,
        ih ⟨hx, hp, fun j z hj hz => hbefore (j + 1) z (Nat.succ_lt_succ hj) hz⟩ (n + 1)]
      rw [Nat.add_assoc, Nat.add_comm 1 i]

/-- The packet an event works on is found. -/
theorem State.pktWhere_of_worked {s : State} {pa : PA} {i : Nat} {x : Packet} {p : Packet → Bool} (hgo : Claims.QueueGoes s pa)
    (h : Worked (s.dray pa).pkts i x p) : s.pktWhere pa (fun _ y => p y) = some (i, x) := by
  unfold State.pktWhere
  rw [Claims.QueueGoes] at hgo
  rw [if_pos hgo]
  exact (findIx_of_first h 0).trans (by rw [Nat.zero_add])

/-! ### Chunks -/

/-- A partial and a contribution without poison are joined. -/
theorem Packet.combined_clean {s : State} {node : BitVec 16} {pos : Nat} {c own : Chunk} (hc : c.poison = false) (ho : own.poison = false)
    (x : Packet) : x.combined node (pos == c.i % s.ringSize (x.at 28 1)) c own = Claims.joined s pos c own x := by
  unfold Packet.combined Claims.joined Packet.noteOrigin
  rw [hc, ho]
  by_cases h : pos = c.i % s.ringSize (x.at 28 1)
  · rw [if_pos (beq_iff_eq.2 h)]
    exact (if_pos h).symm
  · rw [if_neg (mt beq_iff_eq.1 h)]
    exact (if_neg h).symm

/-! ### What the events do -/

/-- A packet goes on with a partial that has been read in full. -/
theorem State.reduceGot_pkts {s s' : State} {pa : PA} {i pos : Nat} {p : Packet} {c own : Chunk}
    (hs : s.contribution (s.queueMover (s.dray pa) p.idx) p c.i = .ok (s', own)) (hc : c.poison = false) (ho : own.poison = false) :
    ((s.reduceGot (s.dray pa) i p pos c).dray pa).pkts = (s.dray pa).pkts.modify i (Claims.joined s pos c own) := by
  have same := State.contribution_sameTables rfl hs
  unfold State.reduceGot
  rw [hs]
  dsimp only
  rw [State.dray_pa, State.modPkt_pkts, same.dray]
  congr 1
  funext x
  rw [same.ringSize]
  exact Packet.combined_clean hc ho x

/-- A REDUCE begins with this module's contributions. -/
theorem reduce_begins {s s' : State} {i pos : Nat} {p : Packet} {cs : List Chunk} (hgo : Claims.QueueGoes s s.arg.pa) (hp : Claims.Reduces s i p)
    (hw : p.worked = false) (hpos : s.ringPos (p.at 28 1) = some pos)
    (hs : s.starts (s.queueMover (s.dray s.arg.pa) p.idx) p ((List.range p.chunkCount).filter fun c => (c + 1) % s.ringSize (p.at 28 1) == pos)
      = .ok (s', cs)) (hcs : ∀ c ∈ cs, c.poison = false) :
    exec .reduce s = .next (s'.modPkt s.arg.pa i fun x => { x with worked := true, chunks := cs, since := s.now }) := by
  have clean : (cs.any fun c => c.poison) = false := List.any_eq_false.2 fun c hc => by simp [hcs c hc]
  have same := State.starts_sameTables rfl _ hs
  change execReduce s = _
  unfold execReduce
  dsimp only
  rw [State.pktWhere_of_worked hgo hp]
  dsimp only
  rw [hpos, hw]
  dsimp only
  rw [if_neg Bool.false_ne_true, hs]
  dsimp only
  rw [clean, same.now]
  rfl

/-- A REDUCE goes on with the first partial that has arrived. -/
theorem reduce_goes_on {s : State} {i pos : Nat} {p : Packet} {c : Chunk} {rest : List Chunk} (hgo : Claims.QueueGoes s s.arg.pa)
    (hp : Claims.Reduces s i p) (hw : p.worked = true) (hgot : p.got = c :: rest) (hpos : s.ringPos (p.at 28 1) = some pos) :
    exec .reduce s = .next (s.reduceGot (s.dray s.arg.pa) i p pos c) := by
  change execReduce s = _
  unfold execReduce
  dsimp only
  rw [State.pktWhere_of_worked hgo hp]
  dsimp only
  rw [hpos, hw, hgot]
  rfl

section Receives
variable {s : State} {i pos : Nat} {p : Packet} (hp : Claims.Receives s i p) (hpos : s.ringPos (p.at 28 1) = some pos)
include hp hpos

/-- A chunk of another collective than the packet's marks it. -/
theorem reduceChunk_mismatch (h : s.arg.code ≠ 0 ∨ p.chunkCount ≤ s.arg.num ∨ s.arg.words.length ≠ p.chunkElems s.arg.num) :
    exec .reduceChunk s = .next (s.modPkt s.arg.pa i fun x => { x with mismatch := true }) := by
  change execReduceChunk s = _
  unfold execReduceChunk
  dsimp only
  rw [findIx_of_first hp 0]
  dsimp only
  rw [hpos]
  dsimp only
  rw [List.length_map, if_pos h, Nat.zero_add]

/-- A chunk that agrees is a partial, or the result. -/
theorem reduceChunk_agrees (ha : Claims.Agrees s p) :
    exec .reduceChunk s = .next (
      if p.chunks.any fun x => x.i == s.arg.num then
        s.modPkt s.arg.pa i fun x => { x with since := s.now, told := false, results := x.results ++ [Claims.theChunk s] }
      else
        let s1 := s.modPkt s.arg.pa i (Claims.withPartial s)
        if s1.queueRuns s.arg.pa && p.eng.isSome then
          s1.reduceGot (s1.dray s.arg.pa) i { p with since := s.now, told := false } pos (Claims.theChunk s)
        else s1) := by
  obtain ⟨hcode, hnum, hlen, hres, hgot, hyes, hyes2⟩ := ha
  have new : ∀ l : List Chunk, (∀ c ∈ l, c.i ≠ s.arg.num) → (l.any fun x => x.i == s.arg.num) = false := fun l hl =>
    List.any_eq_false.2 fun c hc => by simpa using hl c hc
  change execReduceChunk s = _
  unfold execReduceChunk
  dsimp only
  rw [findIx_of_first hp 0]
  dsimp only
  rw [hpos]
  dsimp only
  rw [List.length_map, if_neg (by rw [hcode, hlen]; simp; exact hnum), if_neg (by rw [new _ hres, new _ hgot]; simp), hyes, hyes2, Nat.zero_add]
  simp only [Packet.noteOrigin, Bool.or_false, if_false, Bool.false_eq_true]
  rw [apply_ite Host.Outcome.next, apply_ite Host.Outcome.next]
  rfl

end Receives

/-- An absent participant is reported. -/
theorem collectiveTimeout_eq {s : State} {i : Nat} {p : Packet} (hgo : Claims.QueueGoes s s.arg.pa)
    (hp : Worked (s.dray s.arg.pa).pkts i p fun x => x.collecting && !x.told && decide (x.since + 22500000 ≤ s.now)) :
    exec .collectiveTimeout s = .next ((s.modPkt s.arg.pa i fun x => { x with told := true }).forwardRec (cfgDie (s.qCfg s.arg.pa.toNat))
      (s.queueRecord (s.dray s.arg.pa) p.idx { code := 0x19, addr := BitVec.ofNat 64 s.arg.pa.toNat })) := by
  change execCollectiveTimeout s = _
  unfold execCollectiveTimeout
  dsimp only
  rw [show watchdogCycles = 22500000 from rfl, State.pktWhere_of_worked hgo hp]

end Sys2Proof.Machine

open Sys2Proof Machine

/-- Settles O41, clause by clause: the event finds its packet, and what it reads leaves the queue as it was. -/
theorem collectivesGoRound : Obligations.CollectivesGoRound := by
  unfold Obligations.CollectivesGoRound
  refine ⟨?_, ?_, ?_, ?_, ?_, ?_, ?_⟩
  · intro s s' i pos p cs hgo hp hw hpos hs hcs
    have same := (State.starts_sameTables rfl _ hs).dray s.arg.pa
    exact ⟨_, reduce_begins hgo hp hw hpos hs hcs, (State.modPkt_pkts ..).trans (by rw [same])⟩
  · intro s s' i pos p c own rest hgo hp hw hgot hc hpos hs ho
    exact ⟨_, reduce_goes_on hgo hp hw hgot hpos, State.reduceGot_pkts hs hc ho⟩
  · intro s i pos p hp hpos h
    exact ⟨_, reduceChunk_mismatch hp hpos h, State.modPkt_pkts ..⟩
  · intro s i pos p hp hpos ha ⟨c, hc, hci⟩
    refine ⟨_, (reduceChunk_agrees hp hpos ha).trans (congrArg Host.Outcome.next (if_pos ?_)), State.modPkt_pkts ..⟩
    exact List.any_eq_true.2 ⟨c, hc, beq_iff_eq.2 hci⟩
  · intro s i pos p hp hpos ha hnew heng
    have fresh : (p.chunks.any fun x => x.i == s.arg.num) = false := List.any_eq_false.2 fun c hc => by simpa using hnew c hc
    refine ⟨s.modPkt s.arg.pa i (Claims.withPartial s), (reduceChunk_agrees hp hpos ha).trans ?_, State.modPkt_pkts ..⟩
    rw [fresh, heng]
    simp
  · intro s s1 s' i pos p own hp hpos ha hnew heng hs1 hgo hring hs ho
    have fresh : (p.chunks.any fun x => x.i == s.arg.num) = false := List.any_eq_false.2 fun c hc => by simpa using hnew c hc
    have same : Claims.joined s1 pos (Claims.theChunk s) own = Claims.joined s pos (Claims.theChunk s) own := funext fun x => by
      rw [Claims.joined, Claims.joined, hs1, State.modPkt_ringSize]
    have goes : (s1.queueRuns s.arg.pa && p.eng.isSome) = true := by
      rw [show s1.queueRuns s.arg.pa = true from hgo, Option.isSome_iff_ne_none.2 heng]
      rfl
    have hexec := (reduceChunk_agrees hp hpos ha).trans (congrArg Host.Outcome.next (if_neg (by rw [fresh]; simp)))
    rw [← hs1] at hexec
    exact ⟨_, hexec.trans (congrArg Host.Outcome.next (if_pos goes)), same ▸ State.reduceGot_pkts hs rfl ho⟩
  · intro s i p hgo hp
    refine ⟨_, collectiveTimeout_eq hgo hp, State.modPkt_pkts .., s.queueRecord (s.dray s.arg.pa) p.idx
      { code := 0x19, addr := BitVec.ofNat 64 s.arg.pa.toNat }, ?_, rfl, BitVec.ofNat_toNat ..⟩
    rw [State.forwardRec, State.die_modDie, State.modPkt_die]
end
